-- ==== Sys2Proof/Word.lean ====
section
/-! DEFINITION. The word types of the machine (R5, R6). -/

namespace Sys2Proof

/-- A 64-bit register value (R14). -/
abbrev Word := BitVec 64

/-- One byte of memory (R6). -/
abbrev Byte := BitVec 8

end Sys2Proof
end

