-- ==== Sys2Proof/Syntax.lean ====
section
/-! DEFINITION. The instructions and events of the opcode table: one constructor a row, its operands the
fields of the row (spec/opcode_table.json). The rows without an encoding are events of the package; their
operands name the agents and the readings that the rule of each event speaks of (log 8). -/

namespace Sys2Proof

/-- A hart of a placed gang: the gang's key in the machine and the hart's index in it (R195). -/
structure HartName where
  gang : Nat
  idx : Nat
  deriving DecidableEq, Repr

/-- A 32-byte granule of a protected memory that is no memory die (R239): of a core's TCM, of a gang's scratchpad, of a
cluster-cache line, of a vector register of a hart. -/
inductive LocalGranule where
  | tcm (core off : Nat)
  | scratch (gang off : Nat)
  | line (cluster pa : Nat)
  | register (h : HartName) (reg off : Nat)
  deriving DecidableEq, Repr

/-- What the patrol scrubber finds in a granule (R239, R240), or an error that arises after it, which the next read
meets: in the granule, or in a granule of another protected memory. -/
inductive ScrubFinding where
  | clean
  | corrected
  | uncorrectable
  | arises (correctable : Bool)
  | elsewhere (place : LocalGranule) (correctable : Bool)
  deriving DecidableEq, Repr

/-- The scope of a freeze: the package, a compute die slot, or a cluster (R350, R354). -/
inductive FreezeScope where
  | package
  | die (slot : Nat)
  | cluster (c : Nat)
  deriving DecidableEq, Repr

/-- What a debug-port access names in a hart slot: a CSR or another part of the hart's state (R350). -/
inductive PortReg where
  | csr (n : BitVec 12)
  | x (r : BitVec 5)
  | pc
  | vWord (r : BitVec 5) (word : Nat)
  | mWord (r : BitVec 3) (word : Nat)
  | vl
  | vtype
  | vprog
  | cell (i : Nat)
  | sequencer (word : Nat)
  | body (word : Nat)
  | deferred (record word : Nat)
  | matrix
  | gatePc
  | gateLevel
  | tcmRange
  | tcm (word : Nat)
  | wakeLine
  | pending
  | engineOp (queue op word : Nat)
  | engineRun (queue op word : Nat)
  | engineRecord (queue op word : Nat)
  | arrivals
  | progress
  deriving DecidableEq, Repr

/-- A place in a function's register window, BAR0 (R393). -/
structure WindowPlace where
  fn : Nat
  off : Nat
  deriving DecidableEq, Repr

/-- What a read of registers from outside the cores names: a part of the hart in the slot that the access gives (R350), or
the 8 bytes at a place of a register window, for which no core and slot count (R393; log 65). -/
inductive PortTarget where
  | reg (r : PortReg)
  | window (place : WindowPlace)
  deriving DecidableEq, Repr

/-- The AtomicOps that the host port completes (R392). -/
inductive HostAtomic where
  | fetchAdd
  | swap
  | cas
  deriving DecidableEq, Repr

/-- What the peers of a collective contribute: one list of raw elements for each rank, the scale bytes of
each rank when the source is block-scaled, the bytes of each rank's elements and of its scales that lie in poisoned granules,
and whether every peer's descriptor agrees with this one (R410 to R415). -/
structure PeerInputs where
  elements : List (List (BitVec 64))
  scales : List (List (BitVec 8))
  poisoned : List (List Nat)
  poisonedScales : List (List Nat)
  agrees : Bool
  deriving DecidableEq, Repr

/-- What a read over the management sideband names beside the latest telemetry line and the boot failure step: a
machine-check record by its index, or another command by its code (R434). -/
inductive SmbusRead where
  | record (n : Nat)
  | command (code : BitVec 8)
  deriving DecidableEq, Repr

/-- What the Scarab engine draws for a report's signature (R430, R431). -/
structure ScarabReport where
  random : List (BitVec 8)
  deriving DecidableEq, Repr

/-- A scale-out data frame (R406). -/
structure ScaleFrame where
  collective : BitVec 32
  op : BitVec 2
  sequence : Nat
  segment : Nat
  payload : List (BitVec 8)
  poison : List Bool
  deriving DecidableEq, Repr

/-- The readings of a telemetry line: package power, power of the six compute dies and the eight memory
dies in mW, and the temperature bytes (R433). -/
structure TelemetryReadings where
  packagePower : BitVec 32
  computePower : List (BitVec 32)
  memoryPower : List (BitVec 32)
  temperatures : List (BitVec 8)
  deriving DecidableEq, Repr

/-- The rows of spec/opcode_table.json. -/
inductive Instr where
  /-- ADD (R74): Writes x[B] + x[C] to x[A]. -/
  | add (d : BitVec 5) (a : BitVec 5) (b : BitVec 5)
  /-- SUB (R74): Writes x[B] - x[C] to x[A]. -/
  | sub (d : BitVec 5) (a : BitVec 5) (b : BitVec 5)
  /-- AND (R74): Writes the bitwise AND of x[B] and x[C] to x[A]. -/
  | and (d : BitVec 5) (a : BitVec 5) (b : BitVec 5)
  /-- OR (R74): Writes the bitwise OR of x[B] and x[C] to x[A]. -/
  | or (d : BitVec 5) (a : BitVec 5) (b : BitVec 5)
  /-- XOR (R74): Writes the bitwise XOR of x[B] and x[C] to x[A]. -/
  | xor (d : BitVec 5) (a : BitVec 5) (b : BitVec 5)
  /-- SLL (R74): Shifts x[B] left by x[C][5:0]. -/
  | sll (d : BitVec 5) (a : BitVec 5) (b : BitVec 5)
  /-- SRL (R74): Shifts x[B] right by x[C][5:0], filling with zeros. -/
  | srl (d : BitVec 5) (a : BitVec 5) (b : BitVec 5)
  /-- SRA (R74): Shifts x[B] right by x[C][5:0], filling with the sign bit. -/
  | sra (d : BitVec 5) (a : BitVec 5) (b : BitVec 5)
  /-- SLT (R74): Writes 1 if x[B] is below x[C] as signed values, else 0. -/
  | slt (d : BitVec 5) (a : BitVec 5) (b : BitVec 5)
  /-- SLTU (R74): Writes 1 if x[B] is below x[C] as unsigned values, else 0. -/
  | sltu (d : BitVec 5) (a : BitVec 5) (b : BitVec 5)
  /-- MIN (R74): Writes the signed minimum of x[B] and x[C]. -/
  | min (d : BitVec 5) (a : BitVec 5) (b : BitVec 5)
  /-- MAX (R74): Writes the signed maximum of x[B] and x[C]. -/
  | max (d : BitVec 5) (a : BitVec 5) (b : BitVec 5)
  /-- MINU (R74): Writes the unsigned minimum of x[B] and x[C]. -/
  | minu (d : BitVec 5) (a : BitVec 5) (b : BitVec 5)
  /-- MAXU (R74): Writes the unsigned maximum of x[B] and x[C]. -/
  | maxu (d : BitVec 5) (a : BitVec 5) (b : BitVec 5)
  /-- ADDI (R75): Adds the sign-extended imm16 to x[B]. -/
  | addi (d : BitVec 5) (a : BitVec 5) (i : BitVec 16)
  /-- ANDI (R75): ANDs x[B] with the zero-extended imm16. -/
  | andi (d : BitVec 5) (a : BitVec 5) (i : BitVec 16)
  /-- ORI (R75): ORs x[B] with the zero-extended imm16. -/
  | ori (d : BitVec 5) (a : BitVec 5) (i : BitVec 16)
  /-- XORI (R75): XORs x[B] with the zero-extended imm16. -/
  | xori (d : BitVec 5) (a : BitVec 5) (i : BitVec 16)
  /-- LHI (R75): Writes sext(imm16) << 16 to x[A]. -/
  | lhi (d : BitVec 5) (i : BitVec 16)
  /-- LPC (R75): Writes pc + (sext(imm16) << 16) to x[A]. -/
  | lpc (d : BitVec 5) (i : BitVec 16)
  /-- MUL (R77): Writes the low 64 bits of the product. -/
  | mul (d : BitVec 5) (a : BitVec 5) (b : BitVec 5)
  /-- MULH (R77): Writes the high 64 bits of the signed product. -/
  | mulh (d : BitVec 5) (a : BitVec 5) (b : BitVec 5)
  /-- MULHU (R77): Writes the high 64 bits of the unsigned product. -/
  | mulhu (d : BitVec 5) (a : BitVec 5) (b : BitVec 5)
  /-- MULHSU (R77): Writes the high 64 bits of the signed-by-unsigned product. -/
  | mulhsu (d : BitVec 5) (a : BitVec 5) (b : BitVec 5)
  /-- DIV (R77): Writes the signed quotient truncated towards zero, with fixed results for the borderline cases. -/
  | div (d : BitVec 5) (a : BitVec 5) (b : BitVec 5)
  /-- DIVU (R77): Writes the unsigned quotient. -/
  | divu (d : BitVec 5) (a : BitVec 5) (b : BitVec 5)
  /-- REM (R77): Writes the signed remainder, which takes the sign of x[B]. -/
  | rem (d : BitVec 5) (a : BitVec 5) (b : BitVec 5)
  /-- REMU (R77): Writes the unsigned remainder. -/
  | remu (d : BitVec 5) (a : BitVec 5) (b : BitVec 5)
  /-- SLLI (R78): Shifts x[B] left by an immediate amount. -/
  | slli (d : BitVec 5) (a : BitVec 5) (s : BitVec 6)
  /-- SRLI (R78): Shifts x[B] right by an immediate amount, filling with zeros. -/
  | srli (d : BitVec 5) (a : BitVec 5) (s : BitVec 6)
  /-- SRAI (R78): Shifts x[B] right by an immediate amount, filling with the sign bit. -/
  | srai (d : BitVec 5) (a : BitVec 5) (s : BitVec 6)
  /-- RORI (R78): Rotates x[B] right by an immediate amount. -/
  | rori (d : BitVec 5) (a : BitVec 5) (s : BitVec 6)
  /-- SLTI (R78): Compares x[B] with the sign-extended imm11 as signed values. -/
  | slti (d : BitVec 5) (a : BitVec 5) (i : BitVec 11)
  /-- SLTIU (R78): Compares x[B] with the sign-extended imm11 as unsigned values. -/
  | sltiu (d : BitVec 5) (a : BitVec 5) (i : BitVec 11)
  /-- SEQI (R78): Writes 1 if x[B] equals the sign-extended imm11, else 0. -/
  | seqi (d : BitVec 5) (a : BitVec 5) (i : BitVec 11)
  /-- CLZ (R78): Counts the leading zeros of x[B]. -/
  | clz (d : BitVec 5) (a : BitVec 5)
  /-- CTZ (R78): Counts the trailing zeros of x[B]. -/
  | ctz (d : BitVec 5) (a : BitVec 5)
  /-- CPOP (R78): Counts the one bits of x[B]. -/
  | cpop (d : BitVec 5) (a : BitVec 5)
  /-- REV8 (R78): Reverses the byte order of x[B]. -/
  | rev8 (d : BitVec 5) (a : BitVec 5)
  /-- BREV (R78): Reverses the bit order of x[B]. -/
  | brev (d : BitVec 5) (a : BitVec 5)
  /-- SEXT.B (R78): Sign-extends byte 0 of x[B]. -/
  | sextB (d : BitVec 5) (a : BitVec 5)
  /-- SEXT.H (R78): Sign-extends the low half-word of x[B]. -/
  | sextH (d : BitVec 5) (a : BitVec 5)
  /-- SEXT.W (R78): Sign-extends the low word of x[B]. -/
  | sextW (d : BitVec 5) (a : BitVec 5)
  /-- ZEXT.W (R78): Zero-extends the low word of x[B]. -/
  | zextW (d : BitVec 5) (a : BitVec 5)
  /-- ANDN (R78): Writes x[B] AND NOT x[C]. -/
  | andn (d : BitVec 5) (a : BitVec 5) (b : BitVec 5)
  /-- ORN (R78): Writes x[B] OR NOT x[C]. -/
  | orn (d : BitVec 5) (a : BitVec 5) (b : BitVec 5)
  /-- XNOR (R78): Writes NOT (x[B] XOR x[C]). -/
  | xnor (d : BitVec 5) (a : BitVec 5) (b : BitVec 5)
  /-- ROL (R78): Rotates x[B] left by x[C][5:0]. -/
  | rol (d : BitVec 5) (a : BitVec 5) (b : BitVec 5)
  /-- ROR (R78): Rotates x[B] right by x[C][5:0]. -/
  | ror (d : BitVec 5) (a : BitVec 5) (b : BitVec 5)
  /-- FADD (R80): Scalar floating-point add under fm0, rounded once. -/
  | fadd (d : BitVec 5) (a : BitVec 5) (b : BitVec 5)
  /-- FSUB (R80): Scalar floating-point subtract under fm0. -/
  | fsub (d : BitVec 5) (a : BitVec 5) (b : BitVec 5)
  /-- FMUL (R80): Scalar floating-point multiply under fm0. -/
  | fmul (d : BitVec 5) (a : BitVec 5) (b : BitVec 5)
  /-- FDIV (R80): Scalar floating-point divide under fm0. -/
  | fdiv (d : BitVec 5) (a : BitVec 5) (b : BitVec 5)
  /-- FSQRT (R80): Scalar floating-point square root under fm0. -/
  | fsqrt (d : BitVec 5) (a : BitVec 5)
  /-- FMIN (R80): Selects the smaller operand and rounds it to d. -/
  | fmin (d : BitVec 5) (a : BitVec 5) (b : BitVec 5)
  /-- FMAX (R80): Selects the larger operand and rounds it to d. -/
  | fmax (d : BitVec 5) (a : BitVec 5) (b : BitVec 5)
  /-- FMA (R80): Computes B × C + A with a single rounding. -/
  | fma (d : BitVec 5) (a : BitVec 5) (b : BitVec 5)
  /-- FNMA (R80): Computes A - B × C with a single rounding. -/
  | fnma (d : BitVec 5) (a : BitVec 5) (b : BitVec 5)
  /-- FEQ (R81): Floating-point equality compare. -/
  | feq (d : BitVec 5) (a : BitVec 5) (b : BitVec 5)
  /-- FLT (R81): Floating-point less-than compare. -/
  | flt (d : BitVec 5) (a : BitVec 5) (b : BitVec 5)
  /-- FLE (R81): Floating-point less-or-equal compare. -/
  | fle (d : BitVec 5) (a : BitVec 5) (b : BitVec 5)
  /-- FCLASS (R81): Writes the class mask of the operand. -/
  | fclass (d : BitVec 5) (a : BitVec 5)
  /-- FCVT.F.F (R81): Converts between floating-point formats. -/
  | fcvtFF (d : BitVec 5) (a : BitVec 5)
  /-- FCVT.I.F (R81): Converts a floating-point value to an integer, clamped. -/
  | fcvtIF (d : BitVec 5) (a : BitVec 5)
  /-- FCVT.F.I (R81): Converts an integer to a floating-point value. -/
  | fcvtFI (d : BitVec 5) (a : BitVec 5)
  /-- FNEG (R81): Inverts the sign of the operand. -/
  | fneg (d : BitVec 5) (a : BitVec 5)
  /-- FABS (R81): Clears the sign of the operand. -/
  | fabs (d : BitVec 5) (a : BitVec 5)
  /-- BEQ (R82): Branches if x[A] equals x[B]. -/
  | beq (a : BitVec 5) (b : BitVec 5) (o : BitVec 16)
  /-- BNE (R82): Branches if x[A] differs from x[B]. -/
  | bne (a : BitVec 5) (b : BitVec 5) (o : BitVec 16)
  /-- JAL (R83): Jumps pc-relative and links pc + 4 into x[A]. -/
  | jal (d : BitVec 5) (o : BitVec 21)
  /-- JALR (R83): Jumps to x[B] and links pc + 4 into x[A]. -/
  | jalr (d : BitVec 5) (a : BitVec 5)
  /-- CALL.V (R85): Pushes the return address and the vector-state word, then jumps to x[B]. -/
  | callV (a : BitVec 5)
  /-- RET.V (R86): Pops the return address and the vector state, acting as a SETVL with a pre-emption point. -/
  | retV
  /-- GRET (R90): Returns from a gate call and restores the level and mask mode from the gate link. -/
  | gret
  /-- LD (R96): Loads 8 bytes into x[A]. -/
  | ld (d : BitVec 5) (a : BitVec 5) (c : BitVec 4) (o : BitVec 12)
  /-- LW (R96): Loads 4 bytes, sign-extended, into x[A]. -/
  | lw (d : BitVec 5) (a : BitVec 5) (c : BitVec 4) (o : BitVec 12)
  /-- SD (R96): Stores 8 bytes of x[A]. -/
  | sd (d : BitVec 5) (a : BitVec 5) (c : BitVec 4) (o : BitVec 12)
  /-- SW (R96): Stores the low 4 bytes of x[A]. -/
  | sw (d : BitVec 5) (a : BitVec 5) (c : BitVec 4) (o : BitVec 12)
  /-- LB (R247): Register-indexed load of a byte, sign-extended. -/
  | lb (d : BitVec 5) (a : BitVec 5) (b : BitVec 5) (c : BitVec 4) (h : BitVec 2) (l : BitVec 1)
  /-- LBU (R247): Register-indexed load of a byte, zero-extended. -/
  | lbu (d : BitVec 5) (a : BitVec 5) (b : BitVec 5) (c : BitVec 4) (h : BitVec 2) (l : BitVec 1)
  /-- LH (R247): Register-indexed load of a half-word, sign-extended. -/
  | lh (d : BitVec 5) (a : BitVec 5) (b : BitVec 5) (c : BitVec 4) (h : BitVec 2) (l : BitVec 1)
  /-- LHU (R247): Register-indexed load of a half-word, zero-extended. -/
  | lhu (d : BitVec 5) (a : BitVec 5) (b : BitVec 5) (c : BitVec 4) (h : BitVec 2) (l : BitVec 1)
  /-- LWX (R247): Register-indexed load of a word, sign-extended. -/
  | lwx (d : BitVec 5) (a : BitVec 5) (b : BitVec 5) (c : BitVec 4) (h : BitVec 2) (l : BitVec 1)
  /-- LWUX (R247): Register-indexed load of a word, zero-extended. -/
  | lwux (d : BitVec 5) (a : BitVec 5) (b : BitVec 5) (c : BitVec 4) (h : BitVec 2) (l : BitVec 1)
  /-- LDX (R247): Register-indexed load of a doubleword. -/
  | ldx (d : BitVec 5) (a : BitVec 5) (b : BitVec 5) (c : BitVec 4) (h : BitVec 2) (l : BitVec 1)
  /-- SB (R247): Register-indexed store of a byte. -/
  | sb (d : BitVec 5) (a : BitVec 5) (b : BitVec 5) (c : BitVec 4) (h : BitVec 2) (l : BitVec 1)
  /-- SH (R247): Register-indexed store of a half-word. -/
  | sh (d : BitVec 5) (a : BitVec 5) (b : BitVec 5) (c : BitVec 4) (h : BitVec 2) (l : BitVec 1)
  /-- SWX (R247): Register-indexed store of a word. -/
  | swx (d : BitVec 5) (a : BitVec 5) (b : BitVec 5) (c : BitVec 4) (h : BitVec 2) (l : BitVec 1)
  /-- SDX (R247): Register-indexed store of a doubleword. -/
  | sdx (d : BitVec 5) (a : BitVec 5) (b : BitVec 5) (c : BitVec 4) (h : BitVec 2) (l : BitVec 1)
  /-- LW.AQ (R272): Loads a word, then performs an acquire of its class at the named scope. -/
  | lwAq (d : BitVec 5) (a : BitVec 5) (b : BitVec 5) (c : BitVec 4) (s : BitVec 2)
  /-- LD.AQ (R272): Loads a doubleword, then performs an acquire of its class at the named scope. -/
  | ldAq (d : BitVec 5) (a : BitVec 5) (b : BitVec 5) (c : BitVec 4) (s : BitVec 2)
  /-- SW.RL (R272): Performs a release of its class at the named scope, then stores a word. -/
  | swRl (d : BitVec 5) (a : BitVec 5) (b : BitVec 5) (c : BitVec 4) (s : BitVec 2)
  /-- SD.RL (R272): Performs a release of its class at the named scope, then stores a doubleword. -/
  | sdRl (d : BitVec 5) (a : BitVec 5) (b : BitVec 5) (c : BitVec 4) (s : BitVec 2)
  /-- AMOSWAP (R249): Atomically swaps the memory value with x[C] and returns the old value. -/
  | amoswap (d : BitVec 5) (a : BitVec 5) (b : BitVec 5) (c : BitVec 4) (w : BitVec 1)
  /-- AMOADD (R249): Atomic add that returns the old value. -/
  | amoadd (d : BitVec 5) (a : BitVec 5) (b : BitVec 5) (c : BitVec 4) (w : BitVec 1)
  /-- AMOAND (R249): Atomic AND that returns the old value. -/
  | amoand (d : BitVec 5) (a : BitVec 5) (b : BitVec 5) (c : BitVec 4) (w : BitVec 1)
  /-- AMOOR (R249): Atomic OR that returns the old value. -/
  | amoor (d : BitVec 5) (a : BitVec 5) (b : BitVec 5) (c : BitVec 4) (w : BitVec 1)
  /-- AMOXOR (R249): Atomic XOR that returns the old value. -/
  | amoxor (d : BitVec 5) (a : BitVec 5) (b : BitVec 5) (c : BitVec 4) (w : BitVec 1)
  /-- AMOMIN (R249): Atomic signed minimum. -/
  | amomin (d : BitVec 5) (a : BitVec 5) (b : BitVec 5) (c : BitVec 4) (w : BitVec 1)
  /-- AMOMAX (R249): Atomic signed maximum. -/
  | amomax (d : BitVec 5) (a : BitVec 5) (b : BitVec 5) (c : BitVec 4) (w : BitVec 1)
  /-- AMOMINU (R249): Atomic unsigned minimum. -/
  | amominu (d : BitVec 5) (a : BitVec 5) (b : BitVec 5) (c : BitVec 4) (w : BitVec 1)
  /-- AMOMAXU (R249): Atomic unsigned maximum. -/
  | amomaxu (d : BitVec 5) (a : BitVec 5) (b : BitVec 5) (c : BitVec 4) (w : BitVec 1)
  /-- AMOCAS (R249): Atomic compare-and-swap against x[A]. -/
  | amocas (d : BitVec 5) (a : BitVec 5) (b : BitVec 5) (c : BitVec 4) (w : BitVec 1)
  /-- FENCE.AQ (R277): Class-mask acquire fence at the named scope. -/
  | fenceAq (a : BitVec 5) (s : BitVec 2)
  /-- FENCE.RL (R277): Class-mask release fence at the named scope, with cluster-cache write-back. -/
  | fenceRl (a : BitVec 5) (s : BitVec 2)
  /-- FENCE (R277): Full class-mask fence, a release followed by an acquire. -/
  | fence (a : BitVec 5) (s : BitVec 2)
  /-- FENCE.SC (R278): System release and acquire, then waits for the next heartbeat tick and returns it. -/
  | fenceSc (d : BitVec 5)
  /-- FENCE.I (R280): Orders instruction fetch after stores and discards fetched words. -/
  | fenceI
  /-- WLARM (R260): Arms the hart's wake line on a block and clears its touched bit. -/
  | wlarm (a : BitVec 5)
  /-- WLWAIT (R261): Waits, holding no issue credit, for a touch, a time-out, a pending event or a disarmed line. -/
  | wlwait (d : BitVec 5) (b : BitVec 5)
  /-- RC.POST (R262): Writes back the block, then adds readers to a reader-count line at the memory die. -/
  | rcPost (a : BitVec 5) (b : BitVec 5)
  /-- CHINT (R263): Sets or fills the eviction priority of a cluster-cache line. -/
  | chint (a : BitVec 5) (p : BitVec 5)
  /-- CWB (R263): Writes back a cluster-cache line's dirty bytes at package scope. -/
  | cwb (a : BitVec 5)
  /-- CDROP (R263): Drops a cluster-cache line without write-back. -/
  | cdrop (a : BitVec 5)
  /-- CSRRW (R33): Reads a CSR into x[A] and writes x[B] to it. -/
  | csrrw (d : BitVec 5) (a : BitVec 5) (s : BitVec 12)
  /-- CSRRS (R33): Reads a CSR and sets the bits given in x[B]. -/
  | csrrs (d : BitVec 5) (a : BitVec 5) (s : BitVec 12)
  /-- CSRRC (R33): Reads a CSR and clears the bits given in x[B]. -/
  | csrrc (d : BitVec 5) (a : BitVec 5) (s : BitVec 12)
  /-- CSRR (R33): Reads a CSR into x[A] without writing it. -/
  | csrr (d : BitVec 5) (s : BitVec 12)
  /-- TRET (R334): Returns from a trap handler and restores the level, gating, ie, the sequencer and vprog. -/
  | tret
  /-- TFENCE (R335): Waits for flag commits and raises the arithmetic trap if an enabled flag is set. -/
  | tfence
  /-- ECALL (R336): Raises the environment-call trap to the next level. -/
  | ecall
  /-- WFI (R337): Waits for a pending interrupt, a pre-emption request or a debug request. -/
  | wfi
  /-- GATE (R89): Reads a gate table entry and enters gated code at its level. -/
  | gate (k : BitVec 8)
  /-- EBREAK (R351): Stops the hart for debug when dctl.ebk is set; otherwise raises the illegal-instruction trap. -/
  | ebreak
  /-- RRING (R360): Reads word k of a retire-ring entry. -/
  | rring (d : BitVec 5) (a : BitVec 5) (k : BitVec 5)
  /-- TMARK (R362): Emits a trace marker record that carries x[B]. -/
  | tmark (a : BitVec 5)
  /-- ENQ (R210): Enqueues a continuation record on a hardware queue and returns a status. -/
  | enq (d : BitVec 5) (a : BitVec 5) (b : BitVec 5)
  /-- SPAWN (R210): Enqueues a continuation record on the cluster's spawn queue. -/
  | spawn (d : BitVec 5) (a : BitVec 5)
  /-- JOIN (R211): Atomically decrements a record's join counter at its memory die. -/
  | join (d : BitVec 5) (a : BitVec 5)
  /-- EXIT (R212): Makes the TFENCE check, then ends the hart and discards its state. -/
  | exit
  /-- YIELD (R213): Takes a pending pre-emption, or gives up the issue credit for the rest of the window. -/
  | yield
  /-- BAR (R216): Records arrival at the gang barrier and waits for every participant. -/
  | bar
  /-- BAR.S (R216): Records arrival at the stage barrier and waits for every participant. -/
  | barS
  /-- GINFO (R217): Writes gang shape, launch extents or the record address to x[A]. -/
  | ginfo (d : BitVec 5) (k : BitVec 5)
  /-- LCOUNT (R92): Sets the count of one loop-sequencer level. -/
  | lcount (a : BitVec 5) (l : BitVec 3)
  /-- LSTRIDE (R92): Sets a stride slot of one loop-sequencer level. -/
  | lstride (d : BitVec 5) (a : BitVec 5) (s : BitVec 1) (l : BitVec 3)
  /-- LFLAGS (R92): Sets the first-only and last-only masks. -/
  | lflags (d : BitVec 5) (a : BitVec 5)
  /-- LOOP (R93): Replays the next n words as a body under D counted levels. -/
  | loop (g : BitVec 3) (n : BitVec 6)
  /-- VDEFER (R150): Appends the records of the active elements to the deferral queue. -/
  | vdefer (d : BitVec 5) (a : BitVec 5) (b : BitVec 5) (m : BitVec 3)
  /-- VDRAIN (R151): Removes records of the current SEW from the head of the deferral queue into registers. -/
  | vdrain (d : BitVec 5) (a : BitVec 5) (b : BitVec 5)
  /-- SETVL (R127): Sets vl and vtype from a register request and may take pre-emption. -/
  | setvl (d : BitVec 5) (a : BitVec 5) (g : BitVec 2) (l : BitVec 1) (e : BitVec 3)
  /-- SETVLMAX (R127): Sets vl to VLMAX and sets vtype. -/
  | setvlmax (d : BitVec 5) (g : BitVec 2) (l : BitVec 1) (e : BitVec 3)
  /-- SETVLI (R127): Sets vl from an immediate request and sets vtype. -/
  | setvli (d : BitVec 5) (n : BitVec 8) (g : BitVec 2) (l : BitVec 1) (e : BitVec 3)
  /-- VADD (R131): Vector integer add. -/
  | vadd (d : BitVec 5) (a : BitVec 5) (b : BitVec 5) (m : BitVec 3)
  /-- VSUB (R131): Vector integer subtract. -/
  | vsub (d : BitVec 5) (a : BitVec 5) (b : BitVec 5) (m : BitVec 3)
  /-- VAND (R131): Vector AND. -/
  | vand (d : BitVec 5) (a : BitVec 5) (b : BitVec 5) (m : BitVec 3)
  /-- VOR (R131): Vector OR. -/
  | vor (d : BitVec 5) (a : BitVec 5) (b : BitVec 5) (m : BitVec 3)
  /-- VXOR (R131): Vector XOR. -/
  | vxor (d : BitVec 5) (a : BitVec 5) (b : BitVec 5) (m : BitVec 3)
  /-- VSLL (R131): Vector shift left. -/
  | vsll (d : BitVec 5) (a : BitVec 5) (b : BitVec 5) (m : BitVec 3)
  /-- VSRL (R131): Vector logical shift right. -/
  | vsrl (d : BitVec 5) (a : BitVec 5) (b : BitVec 5) (m : BitVec 3)
  /-- VSRA (R131): Vector arithmetic shift right. -/
  | vsra (d : BitVec 5) (a : BitVec 5) (b : BitVec 5) (m : BitVec 3)
  /-- VMIN (R131): Vector signed minimum. -/
  | vmin (d : BitVec 5) (a : BitVec 5) (b : BitVec 5) (m : BitVec 3)
  /-- VMAX (R131): Vector signed maximum. -/
  | vmax (d : BitVec 5) (a : BitVec 5) (b : BitVec 5) (m : BitVec 3)
  /-- VMINU (R131): Vector unsigned minimum. -/
  | vminu (d : BitVec 5) (a : BitVec 5) (b : BitVec 5) (m : BitVec 3)
  /-- VMAXU (R131): Vector unsigned maximum. -/
  | vmaxu (d : BitVec 5) (a : BitVec 5) (b : BitVec 5) (m : BitVec 3)
  /-- VMSEQ (R131): Vector equality compare into a mask register. -/
  | vmseq (d : BitVec 5) (a : BitVec 5) (b : BitVec 5) (m : BitVec 3)
  /-- VMSNE (R131): Vector inequality compare into a mask register. -/
  | vmsne (d : BitVec 5) (a : BitVec 5) (b : BitVec 5) (m : BitVec 3)
  /-- VMSLT (R131): Vector signed less-than compare into a mask register. -/
  | vmslt (d : BitVec 5) (a : BitVec 5) (b : BitVec 5) (m : BitVec 3)
  /-- VMSLTU (R131): Vector unsigned less-than compare into a mask register. -/
  | vmsltu (d : BitVec 5) (a : BitVec 5) (b : BitVec 5) (m : BitVec 3)
  /-- VMSLE (R131): Vector signed less-or-equal compare into a mask register. -/
  | vmsle (d : BitVec 5) (a : BitVec 5) (b : BitVec 5) (m : BitVec 3)
  /-- VMSLEU (R131): Vector unsigned less-or-equal compare into a mask register. -/
  | vmsleu (d : BitVec 5) (a : BitVec 5) (b : BitVec 5) (m : BitVec 3)
  /-- VMERGE (R132): Selects between b and c under the mask named in the mask field. -/
  | vmerge (d : BitVec 5) (a : BitVec 5) (b : BitVec 5) (m : BitVec 3)
  /-- VMV.V.V (R131): Copies a vector group. -/
  | vmvVV (d : BitVec 5) (a : BitVec 5) (m : BitVec 3)
  /-- VADD.X (R131): Vector add of a scalar. -/
  | vaddX (d : BitVec 5) (a : BitVec 5) (b : BitVec 5) (m : BitVec 3)
  /-- VSUB.X (R131): Vector subtract of a scalar. -/
  | vsubX (d : BitVec 5) (a : BitVec 5) (b : BitVec 5) (m : BitVec 3)
  /-- VAND.X (R131): Vector AND with a scalar. -/
  | vandX (d : BitVec 5) (a : BitVec 5) (b : BitVec 5) (m : BitVec 3)
  /-- VOR.X (R131): Vector OR with a scalar. -/
  | vorX (d : BitVec 5) (a : BitVec 5) (b : BitVec 5) (m : BitVec 3)
  /-- VXOR.X (R131): Vector XOR with a scalar. -/
  | vxorX (d : BitVec 5) (a : BitVec 5) (b : BitVec 5) (m : BitVec 3)
  /-- VSLL.X (R131): Vector shift left by a scalar. -/
  | vsllX (d : BitVec 5) (a : BitVec 5) (b : BitVec 5) (m : BitVec 3)
  /-- VSRL.X (R131): Vector logical shift right by a scalar. -/
  | vsrlX (d : BitVec 5) (a : BitVec 5) (b : BitVec 5) (m : BitVec 3)
  /-- VSRA.X (R131): Vector arithmetic shift right by a scalar. -/
  | vsraX (d : BitVec 5) (a : BitVec 5) (b : BitVec 5) (m : BitVec 3)
  /-- VMIN.X (R131): Vector signed minimum with a scalar. -/
  | vminX (d : BitVec 5) (a : BitVec 5) (b : BitVec 5) (m : BitVec 3)
  /-- VMAX.X (R131): Vector signed maximum with a scalar. -/
  | vmaxX (d : BitVec 5) (a : BitVec 5) (b : BitVec 5) (m : BitVec 3)
  /-- VMINU.X (R131): Vector unsigned minimum with a scalar. -/
  | vminuX (d : BitVec 5) (a : BitVec 5) (b : BitVec 5) (m : BitVec 3)
  /-- VMAXU.X (R131): Vector unsigned maximum with a scalar. -/
  | vmaxuX (d : BitVec 5) (a : BitVec 5) (b : BitVec 5) (m : BitVec 3)
  /-- VMSEQ.X (R131): Equality compare with a scalar into a mask register. -/
  | vmseqX (d : BitVec 5) (a : BitVec 5) (b : BitVec 5) (m : BitVec 3)
  /-- VMSNE.X (R131): Inequality compare with a scalar into a mask register. -/
  | vmsneX (d : BitVec 5) (a : BitVec 5) (b : BitVec 5) (m : BitVec 3)
  /-- VMSLT.X (R131): Signed less-than compare with a scalar. -/
  | vmsltX (d : BitVec 5) (a : BitVec 5) (b : BitVec 5) (m : BitVec 3)
  /-- VMSLTU.X (R131): Unsigned less-than compare with a scalar. -/
  | vmsltuX (d : BitVec 5) (a : BitVec 5) (b : BitVec 5) (m : BitVec 3)
  /-- VMSLE.X (R131): Signed less-or-equal compare with a scalar. -/
  | vmsleX (d : BitVec 5) (a : BitVec 5) (b : BitVec 5) (m : BitVec 3)
  /-- VMSLEU.X (R131): Unsigned less-or-equal compare with a scalar. -/
  | vmsleuX (d : BitVec 5) (a : BitVec 5) (b : BitVec 5) (m : BitVec 3)
  /-- VMERGE.X (R132): Selects between vector elements and a scalar under the mask named in the mask field. -/
  | vmergeX (d : BitVec 5) (a : BitVec 5) (b : BitVec 5) (m : BitVec 3)
  /-- VMV.V.X (R131): Broadcasts a scalar to a vector group. -/
  | vmvVX (d : BitVec 5) (b : BitVec 5) (m : BitVec 3)
  /-- VRSUB.X (R131): Reverse subtract: c - b. -/
  | vrsubX (d : BitVec 5) (a : BitVec 5) (b : BitVec 5) (m : BitVec 3)
  /-- VMSGT.X (R131): Signed greater-than compare with a scalar. -/
  | vmsgtX (d : BitVec 5) (a : BitVec 5) (b : BitVec 5) (m : BitVec 3)
  /-- VMSGTU.X (R131): Unsigned greater-than compare with a scalar. -/
  | vmsgtuX (d : BitVec 5) (a : BitVec 5) (b : BitVec 5) (m : BitVec 3)
  /-- VMV.S.X (R132): Writes a scalar to element 0. -/
  | vmvSX (d : BitVec 5) (b : BitVec 5) (m : BitVec 3)
  /-- VSLIDEUP.X (R141): Slides elements up by a scalar amount. -/
  | vslideupX (d : BitVec 5) (a : BitVec 5) (b : BitVec 5) (m : BitVec 3)
  /-- VSLIDEDOWN.X (R141): Slides elements down by a scalar amount. -/
  | vslidedownX (d : BitVec 5) (a : BitVec 5) (b : BitVec 5) (m : BitVec 3)
  /-- VSLIDE1UP.X (R141): Slides elements up by one and inserts a scalar at element 0. -/
  | vslide1upX (d : BitVec 5) (a : BitVec 5) (b : BitVec 5) (m : BitVec 3)
  /-- VSLIDE1DOWN.X (R141): Slides elements down by one and inserts a scalar at element vl - 1. -/
  | vslide1downX (d : BitVec 5) (a : BitVec 5) (b : BitVec 5) (m : BitVec 3)
  /-- VMUL (R133): Vector multiply, low half. -/
  | vmul (d : BitVec 5) (a : BitVec 5) (b : BitVec 5) (m : BitVec 3)
  /-- VMULH (R133): Vector multiply, high half, signed. -/
  | vmulh (d : BitVec 5) (a : BitVec 5) (b : BitVec 5) (m : BitVec 3)
  /-- VMULHU (R133): Vector multiply, high half, unsigned. -/
  | vmulhu (d : BitVec 5) (a : BitVec 5) (b : BitVec 5) (m : BitVec 3)
  /-- VMULHSU (R133): Vector multiply, high half, signed by unsigned. -/
  | vmulhsu (d : BitVec 5) (a : BitVec 5) (b : BitVec 5) (m : BitVec 3)
  /-- VDIV (R133): Vector signed divide. -/
  | vdiv (d : BitVec 5) (a : BitVec 5) (b : BitVec 5) (m : BitVec 3)
  /-- VDIVU (R133): Vector unsigned divide. -/
  | vdivu (d : BitVec 5) (a : BitVec 5) (b : BitVec 5) (m : BitVec 3)
  /-- VREM (R133): Vector signed remainder. -/
  | vrem (d : BitVec 5) (a : BitVec 5) (b : BitVec 5) (m : BitVec 3)
  /-- VREMU (R133): Vector unsigned remainder. -/
  | vremu (d : BitVec 5) (a : BitVec 5) (b : BitVec 5) (m : BitVec 3)
  /-- VMACC (R133): Vector integer multiply-accumulate. -/
  | vmacc (d : BitVec 5) (a : BitVec 5) (b : BitVec 5) (m : BitVec 3)
  /-- VNMSAC (R133): Vector integer multiply-subtract from the accumulator. -/
  | vnmsac (d : BitVec 5) (a : BitVec 5) (b : BitVec 5) (m : BitVec 3)
  /-- VWMUL (R133): Widening signed multiply. -/
  | vwmul (d : BitVec 5) (a : BitVec 5) (b : BitVec 5) (m : BitVec 3)
  /-- VWMULU (R133): Widening unsigned multiply. -/
  | vwmulu (d : BitVec 5) (a : BitVec 5) (b : BitVec 5) (m : BitVec 3)
  /-- VWMACC (R133): Widening signed multiply-accumulate. -/
  | vwmacc (d : BitVec 5) (a : BitVec 5) (b : BitVec 5) (m : BitVec 3)
  /-- VWMACCU (R133): Widening unsigned multiply-accumulate. -/
  | vwmaccu (d : BitVec 5) (a : BitVec 5) (b : BitVec 5) (m : BitVec 3)
  /-- VNSRL (R133): Narrowing logical shift right. -/
  | vnsrl (d : BitVec 5) (a : BitVec 5) (b : BitVec 5) (m : BitVec 3)
  /-- VNSRA (R133): Narrowing arithmetic shift right. -/
  | vnsra (d : BitVec 5) (a : BitVec 5) (b : BitVec 5) (m : BitVec 3)
  /-- VSADD (R133): Saturating signed add. -/
  | vsadd (d : BitVec 5) (a : BitVec 5) (b : BitVec 5) (m : BitVec 3)
  /-- VSADDU (R133): Saturating unsigned add. -/
  | vsaddu (d : BitVec 5) (a : BitVec 5) (b : BitVec 5) (m : BitVec 3)
  /-- VSSUB (R133): Saturating signed subtract. -/
  | vssub (d : BitVec 5) (a : BitVec 5) (b : BitVec 5) (m : BitVec 3)
  /-- VSSUBU (R133): Saturating unsigned subtract. -/
  | vssubu (d : BitVec 5) (a : BitVec 5) (b : BitVec 5) (m : BitVec 3)
  /-- VSMUL (R134): Fractional multiply with rounding shift, clamped. -/
  | vsmul (d : BitVec 5) (a : BitVec 5) (b : BitVec 5) (f : BitVec 3) (m : BitVec 3)
  /-- VSSRL (R134): Logical scaling shift right with rounding. -/
  | vssrl (d : BitVec 5) (a : BitVec 5) (b : BitVec 5) (f : BitVec 3) (m : BitVec 3)
  /-- VSSRA (R134): Arithmetic scaling shift right with rounding. -/
  | vssra (d : BitVec 5) (a : BitVec 5) (b : BitVec 5) (f : BitVec 3) (m : BitVec 3)
  /-- VNCLIP (R134): Narrowing signed clip with rounding shift. -/
  | vnclip (d : BitVec 5) (a : BitVec 5) (b : BitVec 5) (f : BitVec 3) (m : BitVec 3)
  /-- VNCLIPU (R134): Narrowing unsigned clip with rounding shift. -/
  | vnclipu (d : BitVec 5) (a : BitVec 5) (b : BitVec 5) (f : BitVec 3) (m : BitVec 3)
  /-- VFADD (R136): Vector floating-point add. -/
  | vfadd (d : BitVec 5) (a : BitVec 5) (b : BitVec 5) (f : BitVec 3) (m : BitVec 3)
  /-- VFSUB (R136): Vector floating-point subtract. -/
  | vfsub (d : BitVec 5) (a : BitVec 5) (b : BitVec 5) (f : BitVec 3) (m : BitVec 3)
  /-- VFMUL (R136): Vector floating-point or LNS6 multiply. -/
  | vfmul (d : BitVec 5) (a : BitVec 5) (b : BitVec 5) (f : BitVec 3) (m : BitVec 3)
  /-- VFDIV (R136): Vector floating-point divide. -/
  | vfdiv (d : BitVec 5) (a : BitVec 5) (b : BitVec 5) (f : BitVec 3) (m : BitVec 3)
  /-- VFSQRT (R136): Vector floating-point square root. -/
  | vfsqrt (d : BitVec 5) (a : BitVec 5) (f : BitVec 3) (m : BitVec 3)
  /-- VFMIN (R136): Vector floating-point minimum. -/
  | vfmin (d : BitVec 5) (a : BitVec 5) (b : BitVec 5) (f : BitVec 3) (m : BitVec 3)
  /-- VFMAX (R136): Vector floating-point maximum. -/
  | vfmax (d : BitVec 5) (a : BitVec 5) (b : BitVec 5) (f : BitVec 3) (m : BitVec 3)
  /-- VFSGNJ (R136): Sign injection. -/
  | vfsgnj (d : BitVec 5) (a : BitVec 5) (b : BitVec 5) (f : BitVec 3) (m : BitVec 3)
  /-- VFSGNJN (R136): Inverted sign injection. -/
  | vfsgnjn (d : BitVec 5) (a : BitVec 5) (b : BitVec 5) (f : BitVec 3) (m : BitVec 3)
  /-- VFSGNJX (R136): XOR sign injection. -/
  | vfsgnjx (d : BitVec 5) (a : BitVec 5) (b : BitVec 5) (f : BitVec 3) (m : BitVec 3)
  /-- VMFEQ (R136): Floating-point equality compare into a mask register. -/
  | vmfeq (d : BitVec 5) (a : BitVec 5) (b : BitVec 5) (f : BitVec 3) (m : BitVec 3)
  /-- VMFLT (R136): Floating-point less-than compare into a mask register. -/
  | vmflt (d : BitVec 5) (a : BitVec 5) (b : BitVec 5) (f : BitVec 3) (m : BitVec 3)
  /-- VMFLE (R136): Floating-point less-or-equal compare into a mask register. -/
  | vmfle (d : BitVec 5) (a : BitVec 5) (b : BitVec 5) (f : BitVec 3) (m : BitVec 3)
  /-- VMFNE (R136): Floating-point inequality compare into a mask register. -/
  | vmfne (d : BitVec 5) (a : BitVec 5) (b : BitVec 5) (f : BitVec 3) (m : BitVec 3)
  /-- VFCLASS (R136): Writes the class mask of each element. -/
  | vfclass (d : BitVec 5) (a : BitVec 5) (f : BitVec 3) (m : BitVec 3)
  /-- VFADD.F (R136): Vector add of a scalar floating-point value. -/
  | vfaddF (d : BitVec 5) (a : BitVec 5) (b : BitVec 5) (f : BitVec 3) (m : BitVec 3)
  /-- VFSUB.F (R136): Vector subtract of a scalar floating-point value. -/
  | vfsubF (d : BitVec 5) (a : BitVec 5) (b : BitVec 5) (f : BitVec 3) (m : BitVec 3)
  /-- VFMUL.F (R136): Vector multiply by a scalar floating-point value. -/
  | vfmulF (d : BitVec 5) (a : BitVec 5) (b : BitVec 5) (f : BitVec 3) (m : BitVec 3)
  /-- VFDIV.F (R136): Vector divide by a scalar floating-point value. -/
  | vfdivF (d : BitVec 5) (a : BitVec 5) (b : BitVec 5) (f : BitVec 3) (m : BitVec 3)
  /-- VFMIN.F (R136): Vector minimum with a scalar floating-point value. -/
  | vfminF (d : BitVec 5) (a : BitVec 5) (b : BitVec 5) (f : BitVec 3) (m : BitVec 3)
  /-- VFMAX.F (R136): Vector maximum with a scalar floating-point value. -/
  | vfmaxF (d : BitVec 5) (a : BitVec 5) (b : BitVec 5) (f : BitVec 3) (m : BitVec 3)
  /-- VFSGNJ.F (R136): Sign injection from a scalar. -/
  | vfsgnjF (d : BitVec 5) (a : BitVec 5) (b : BitVec 5) (f : BitVec 3) (m : BitVec 3)
  /-- VFSGNJN.F (R136): Inverted sign injection from a scalar. -/
  | vfsgnjnF (d : BitVec 5) (a : BitVec 5) (b : BitVec 5) (f : BitVec 3) (m : BitVec 3)
  /-- VFSGNJX.F (R136): XOR sign injection from a scalar. -/
  | vfsgnjxF (d : BitVec 5) (a : BitVec 5) (b : BitVec 5) (f : BitVec 3) (m : BitVec 3)
  /-- VMFEQ.F (R136): Equality compare with a scalar into a mask register. -/
  | vmfeqF (d : BitVec 5) (a : BitVec 5) (b : BitVec 5) (f : BitVec 3) (m : BitVec 3)
  /-- VMFLT.F (R136): Less-than compare with a scalar. -/
  | vmfltF (d : BitVec 5) (a : BitVec 5) (b : BitVec 5) (f : BitVec 3) (m : BitVec 3)
  /-- VMFLE.F (R136): Less-or-equal compare with a scalar. -/
  | vmfleF (d : BitVec 5) (a : BitVec 5) (b : BitVec 5) (f : BitVec 3) (m : BitVec 3)
  /-- VMFNE.F (R136): Inequality compare with a scalar. -/
  | vmfneF (d : BitVec 5) (a : BitVec 5) (b : BitVec 5) (f : BitVec 3) (m : BitVec 3)
  /-- VFRSUB.F (R136): Reverse subtract: c - b. -/
  | vfrsubF (d : BitVec 5) (a : BitVec 5) (b : BitVec 5) (f : BitVec 3) (m : BitVec 3)
  /-- VFRDIV.F (R136): Reverse divide: c / b. -/
  | vfrdivF (d : BitVec 5) (a : BitVec 5) (b : BitVec 5) (f : BitVec 3) (m : BitVec 3)
  /-- VMFGT.F (R136): Greater-than compare with a scalar. -/
  | vmfgtF (d : BitVec 5) (a : BitVec 5) (b : BitVec 5) (f : BitVec 3) (m : BitVec 3)
  /-- VMFGE.F (R136): Greater-or-equal compare with a scalar. -/
  | vmfgeF (d : BitVec 5) (a : BitVec 5) (b : BitVec 5) (f : BitVec 3) (m : BitVec 3)
  /-- VFMACC (R139): Fused b × c + vA. -/
  | vfmacc (d : BitVec 5) (a : BitVec 5) (b : BitVec 5) (f : BitVec 3) (m : BitVec 3)
  /-- VFNMSAC (R139): Fused vA - b × c. -/
  | vfnmsac (d : BitVec 5) (a : BitVec 5) (b : BitVec 5) (f : BitVec 3) (m : BitVec 3)
  /-- VFMADD (R139): Fused vA × b + c. -/
  | vfmadd (d : BitVec 5) (a : BitVec 5) (b : BitVec 5) (f : BitVec 3) (m : BitVec 3)
  /-- VFMSUB (R139): Fused vA × b - c. -/
  | vfmsub (d : BitVec 5) (a : BitVec 5) (b : BitVec 5) (f : BitVec 3) (m : BitVec 3)
  /-- VFWMACC (R139): Widening fused multiply-accumulate. -/
  | vfwmacc (d : BitVec 5) (a : BitVec 5) (b : BitVec 5) (f : BitVec 3) (m : BitVec 3)
  /-- VFWNMSAC (R139): Widening fused multiply-subtract from the accumulator. -/
  | vfwnmsac (d : BitVec 5) (a : BitVec 5) (b : BitVec 5) (f : BitVec 3) (m : BitVec 3)
  /-- VFCVT.F.F (R140): Converts elements between floating-point and LNS6 formats. -/
  | vfcvtFF (d : BitVec 5) (a : BitVec 5) (f : BitVec 3) (m : BitVec 3)
  /-- VFCVT.I.F (R140): Converts floating-point elements to integers. -/
  | vfcvtIF (d : BitVec 5) (a : BitVec 5) (f : BitVec 3) (m : BitVec 3)
  /-- VFCVT.F.I (R140): Converts integer elements to floating point. -/
  | vfcvtFI (d : BitVec 5) (a : BitVec 5) (f : BitVec 3) (m : BitVec 3)
  /-- VICVT (R140): Converts elements between integer formats. -/
  | vicvt (d : BitVec 5) (a : BitVec 5) (f : BitVec 3) (m : BitVec 3)
  /-- VCVT.BLK (R142): Converts elements to block-scaled form and writes the scale bytes to vC. -/
  | vcvtBlk (d : BitVec 5) (a : BitVec 5) (b : BitVec 5) (f : BitVec 3) (m : BitVec 3)
  /-- VCVT.UNBLK (R142): Converts block-scaled elements, under the scales in vC, to floating point. -/
  | vcvtUnblk (d : BitVec 5) (a : BitVec 5) (b : BitVec 5) (f : BitVec 3) (m : BitVec 3)
  /-- VREDSUM (R146): Integer sum reduction in the fixed tree. -/
  | vredsum (d : BitVec 5) (a : BitVec 5) (b : BitVec 5) (m : BitVec 3)
  /-- VREDAND (R146): AND reduction. -/
  | vredand (d : BitVec 5) (a : BitVec 5) (b : BitVec 5) (m : BitVec 3)
  /-- VREDOR (R146): OR reduction. -/
  | vredor (d : BitVec 5) (a : BitVec 5) (b : BitVec 5) (m : BitVec 3)
  /-- VREDXOR (R146): XOR reduction. -/
  | vredxor (d : BitVec 5) (a : BitVec 5) (b : BitVec 5) (m : BitVec 3)
  /-- VREDMIN (R146): Signed minimum reduction. -/
  | vredmin (d : BitVec 5) (a : BitVec 5) (b : BitVec 5) (m : BitVec 3)
  /-- VREDMAX (R146): Signed maximum reduction. -/
  | vredmax (d : BitVec 5) (a : BitVec 5) (b : BitVec 5) (m : BitVec 3)
  /-- VREDMINU (R146): Unsigned minimum reduction. -/
  | vredminu (d : BitVec 5) (a : BitVec 5) (b : BitVec 5) (m : BitVec 3)
  /-- VREDMAXU (R146): Unsigned maximum reduction. -/
  | vredmaxu (d : BitVec 5) (a : BitVec 5) (b : BitVec 5) (m : BitVec 3)
  /-- VWREDSUM (R146): Widening signed sum reduction. -/
  | vwredsum (d : BitVec 5) (a : BitVec 5) (b : BitVec 5) (m : BitVec 3)
  /-- VWREDSUMU (R146): Widening unsigned sum reduction. -/
  | vwredsumu (d : BitVec 5) (a : BitVec 5) (b : BitVec 5) (m : BitVec 3)
  /-- VFREDSUM (R147): Floating-point sum reduction in the fixed tree. -/
  | vfredsum (d : BitVec 5) (a : BitVec 5) (b : BitVec 5) (f : BitVec 3) (m : BitVec 3)
  /-- VFREDMIN (R147): Floating-point minimum reduction. -/
  | vfredmin (d : BitVec 5) (a : BitVec 5) (b : BitVec 5) (f : BitVec 3) (m : BitVec 3)
  /-- VFREDMAX (R147): Floating-point maximum reduction. -/
  | vfredmax (d : BitVec 5) (a : BitVec 5) (b : BitVec 5) (f : BitVec 3) (m : BitVec 3)
  /-- VGATHER (R141): Gathers elements of vB by the indices in vC. -/
  | vgather (d : BitVec 5) (a : BitVec 5) (b : BitVec 5) (m : BitVec 3)
  /-- VGATHERE16 (R141): Gathers elements of vB by 16-bit indices. -/
  | vgathere16 (d : BitVec 5) (a : BitVec 5) (b : BitVec 5) (m : BitVec 3)
  /-- VSLIDEUP.V (R141): Slides elements up by element 0 of vC. -/
  | vslideupV (d : BitVec 5) (a : BitVec 5) (b : BitVec 5) (m : BitVec 3)
  /-- VSLIDEDOWN.V (R141): Slides elements down by element 0 of vC. -/
  | vslidedownV (d : BitVec 5) (a : BitVec 5) (b : BitVec 5) (m : BitVec 3)
  /-- VREV (R141): Reverses elements 0 to vl - 1. -/
  | vrev (d : BitVec 5) (a : BitVec 5) (m : BitVec 3)
  /-- VCOMPRESS (R148): Packs the active elements to the front of vA. -/
  | vcompress (d : BitVec 5) (a : BitVec 5) (m : BitVec 3)
  /-- VEXPAND (R148): Spreads packed elements of vB over the active positions. -/
  | vexpand (d : BitVec 5) (a : BitVec 5) (m : BitVec 3)
  /-- VID (R148): Writes each active element's own index. -/
  | vid (d : BitVec 5) (m : BitVec 3)
  /-- VIOTA (R148): Writes the prefix count of mask bits. -/
  | viota (d : BitVec 5) (a : BitVec 5) (m : BitVec 3)
  /-- VMAND (R148): Mask AND. -/
  | vmand (d : BitVec 5) (a : BitVec 5) (b : BitVec 5)
  /-- VMOR (R148): Mask OR. -/
  | vmor (d : BitVec 5) (a : BitVec 5) (b : BitVec 5)
  /-- VMXOR (R148): Mask XOR. -/
  | vmxor (d : BitVec 5) (a : BitVec 5) (b : BitVec 5)
  /-- VMANDN (R148): Mask AND NOT. -/
  | vmandn (d : BitVec 5) (a : BitVec 5) (b : BitVec 5)
  /-- VMORN (R148): Mask OR NOT. -/
  | vmorn (d : BitVec 5) (a : BitVec 5) (b : BitVec 5)
  /-- VMNAND (R148): Mask NAND. -/
  | vmnand (d : BitVec 5) (a : BitVec 5) (b : BitVec 5)
  /-- VMNOR (R148): Mask NOR. -/
  | vmnor (d : BitVec 5) (a : BitVec 5) (b : BitVec 5)
  /-- VMXNOR (R148): Mask XNOR. -/
  | vmxnor (d : BitVec 5) (a : BitVec 5) (b : BitVec 5)
  /-- VMMV.M.V (R148): Copies a vector register pair into a whole mask register. -/
  | vmmvMV (d : BitVec 5) (a : BitVec 5)
  /-- VMMV.V.M (R148): Copies a whole mask register into a vector register pair. -/
  | vmmvVM (d : BitVec 5) (a : BitVec 5)
  /-- VMSEL (R148): Sets vmctl.mid and vmctl.mmode. -/
  | vmsel (i : BitVec 5) (j : BitVec 5)
  /-- VEXP2 (R144): Correctly rounded 2^b. -/
  | vexp2 (d : BitVec 5) (a : BitVec 5) (f : BitVec 3) (m : BitVec 3)
  /-- VEXP (R144): Correctly rounded e^b. -/
  | vexp (d : BitVec 5) (a : BitVec 5) (f : BitVec 3) (m : BitVec 3)
  /-- VLOG2 (R144): Correctly rounded log2 b. -/
  | vlog2 (d : BitVec 5) (a : BitVec 5) (f : BitVec 3) (m : BitVec 3)
  /-- VRECIP (R144): Correctly rounded 1/b. -/
  | vrecip (d : BitVec 5) (a : BitVec 5) (f : BitVec 3) (m : BitVec 3)
  /-- VRSQRT (R144): Correctly rounded reciprocal square root. -/
  | vrsqrt (d : BitVec 5) (a : BitVec 5) (f : BitVec 3) (m : BitVec 3)
  /-- VTANH (R144): Correctly rounded tanh b. -/
  | vtanh (d : BitVec 5) (a : BitVec 5) (f : BitVec 3) (m : BitVec 3)
  /-- VSIGM (R144): Correctly rounded logistic sigmoid. -/
  | vsigm (d : BitVec 5) (a : BitVec 5) (f : BitVec 3) (m : BitVec 3)
  /-- VMV.X.S (R149): Transfer of element 0, sign-extended, to x[A]. -/
  | vmvXS (d : BitVec 5) (a : BitVec 5)
  /-- VMV.X.SU (R149): Transfer of element 0, zero-extended, to x[A]. -/
  | vmvXSu (d : BitVec 5) (a : BitVec 5)
  /-- VCPOP.M (R149): Transfer of the count of active set mask bits. -/
  | vcpopM (d : BitVec 5) (a : BitVec 5) (m : BitVec 3)
  /-- VFIRST.M (R149): Transfer of the index of the first active set mask bit. -/
  | vfirstM (d : BitVec 5) (a : BitVec 5) (m : BitVec 3)
  /-- VLD (R254): Unit-stride vector load. -/
  | vld (d : BitVec 5) (a : BitVec 5) (c : BitVec 4) (e : BitVec 2) (l : BitVec 1) (m : BitVec 3)
  /-- VLD (R242): Vector load through a tensor-map slot. -/
  | vldTmap (d : BitVec 5) (a : BitVec 5) (t : BitVec 4) (c : BitVec 4) (e : BitVec 2) (l : BitVec 1) (m : BitVec 3)
  /-- VLD (R315): Takes bytes from a stream port, waiting for data. -/
  | vldSq (d : BitVec 5) (n : BitVec 4)
  /-- VST (R254): Unit-stride vector store. -/
  | vst (d : BitVec 5) (a : BitVec 5) (c : BitVec 4) (e : BitVec 2) (l : BitVec 1) (r : BitVec 1) (m : BitVec 3)
  /-- VST (R242): Vector store through a tensor-map slot. -/
  | vstTmap (d : BitVec 5) (a : BitVec 5) (t : BitVec 4) (c : BitVec 4) (e : BitVec 2) (l : BitVec 1) (r : BitVec 1) (m : BitVec 3)
  /-- VST (R315): Puts bytes into a stream port, waiting for room. -/
  | vstSq (d : BitVec 5) (n : BitVec 4)
  /-- VLDS (R253): Strided vector load. -/
  | vlds (d : BitVec 5) (a : BitVec 5) (b : BitVec 5) (c : BitVec 4) (e : BitVec 2) (l : BitVec 1) (m : BitVec 3)
  /-- VLD.P6 (R255): Loads packed six-bit codes into 8-bit containers. -/
  | vldP6 (d : BitVec 5) (a : BitVec 5) (c : BitVec 4) (e : BitVec 2) (l : BitVec 1) (m : BitVec 3)
  /-- VSTS (R253): Strided vector store. -/
  | vsts (d : BitVec 5) (a : BitVec 5) (b : BitVec 5) (c : BitVec 4) (e : BitVec 2) (l : BitVec 1) (r : BitVec 1) (m : BitVec 3)
  /-- VST.P6 (R255): Stores 8-bit containers as packed six-bit codes. -/
  | vstP6 (d : BitVec 5) (a : BitVec 5) (c : BitVec 4) (e : BitVec 2) (l : BitVec 1) (r : BitVec 1) (m : BitVec 3)
  /-- VLDX (R253): Indexed vector load. -/
  | vldx (d : BitVec 5) (a : BitVec 5) (b : BitVec 5) (c : BitVec 4) (e : BitVec 2) (l : BitVec 1) (m : BitVec 3)
  /-- VSTX (R253): Indexed vector store. -/
  | vstx (d : BitVec 5) (a : BitVec 5) (b : BitVec 5) (c : BitVec 4) (e : BitVec 2) (l : BitVec 1) (r : BitVec 1) (m : BitVec 3)
  /-- SETTILE (R180): Grants a tile shape from the requests and the limits of the mode. -/
  | settile (d : BitVec 5) (a : BitVec 5) (b : BitVec 5) (f : BitVec 3)
  /-- MODE.M (R155): Enters matrix mode in WS or RS, optionally loading the cells from a pair. -/
  | modeM (d : BitVec 5) (l : BitVec 1) (s : BitVec 1)
  /-- MODE.V (R155): Returns to vector mode, draining RS cells into a pair. -/
  | modeV (d : BitVec 5)
  /-- MDRAIN (R181): Drains the RS cell image into a register pair and keeps the cells. -/
  | mdrain (d : BitVec 5)
  /-- MDRAIN.N (R182): Drains the cell image into one register, narrowing it. -/
  | mdrainN (d : BitVec 5) (f : BitVec 3)
  /-- MCHAIN (R183): Writes the chain setting into mchain. -/
  | mchain (l : BitVec 5) (p : BitVec 5) (h : BitVec 5)
  /-- MSYNC (R184): Waits for every earlier matrix instruction to complete. -/
  | msync
  /-- MMA (R187): Dense matrix multiply-accumulate on the array. -/
  | mma (d : BitVec 5) (a : BitVec 5) (b : BitVec 5) (f : BitVec 3) (z : BitVec 1)
  /-- SMMA (R189): Sparse N-of-12 matrix multiply-accumulate. -/
  | smma (d : BitVec 5) (a : BitVec 5) (b : BitVec 5) (f : BitVec 3) (z : BitVec 1) (q : BitVec 2)
  /-- MLD.A (R191): Loads an A panel, skewed, from own or peer TCM. -/
  | mldA (d : BitVec 5) (a : BitVec 5) (b : BitVec 5) (f : BitVec 3)
  /-- MLD.B (R191): Loads a B panel, skewed, from own or peer TCM. -/
  | mldB (d : BitVec 5) (a : BitVec 5) (b : BitVec 5) (f : BitVec 3)
  /-- MLD.M (R191): Loads a sparse metadata panel from TCM. -/
  | mldM (d : BitVec 5) (a : BitVec 5) (b : BitVec 5) (f : BitVec 3)
  /-- MLD.R (R191): Copies whole registers, unskewed, from TCM. -/
  | mldR (d : BitVec 5) (a : BitVec 5) (b : BitVec 5) (n : BitVec 4)
  /-- MZERO (R193): Writes zeros to an accumulator register pair. -/
  | mzero (d : BitVec 5)
  /-- MZEROC (R193): Zeros the cell image and discards the held flags. -/
  | mzeroc
  /-- MSKEW (R193): Converts a natural panel into a skewed panel. -/
  | mskew (d : BitVec 5) (a : BitVec 5) (f : BitVec 3) (s : BitVec 1)
  /-- MDSKEW (R193): Converts a skewed panel into a natural panel. -/
  | mdskew (d : BitVec 5) (a : BitVec 5) (f : BitVec 3) (s : BitVec 1)
  /-- COPY (R293): Queues an inline copy on an engine queue with a token. -/
  | copy (d : BitVec 5) (a : BitVec 5) (b : BitVec 5) (h : BitVec 1) (s : BitVec 1) (q : BitVec 2)
  /-- FILL (R293): Queues an inline fill with an 8-byte pattern. -/
  | fill (d : BitVec 5) (a : BitVec 5) (b : BitVec 5) (s : BitVec 1) (q : BitVec 2)
  /-- CHAIN (R297): Queues a bulk chain of transfer records. -/
  | chain (d : BitVec 5) (a : BitVec 5) (q : BitVec 5)
  /-- QFENCE (R299): Queues a fence that joins the queues in its mask. -/
  | qfence (d : BitVec 5) (k : BitVec 4) (q : BitVec 5)
  /-- SOPEN (R314): Opens a stream from a set-up record after the checks of R313. -/
  | sopen (d : BitVec 5) (a : BitVec 5)
  /-- SCLOSE (R314): Closes a stream slot and returns the bytes it discards. -/
  | sclose (d : BitVec 5) (a : BitVec 5)
  /-- SAVAIL (R314): Returns the bytes or room available at a port. -/
  | savail (d : BitVec 5) (p : BitVec 5)
  /-- COLL (R411): Submits a non-exact collective descriptor. -/
  | coll (d : BitVec 5) (a : BitVec 5)
  /-- COLL.X (R411): Submits an exact-mode collective descriptor; capability-gated. -/
  | collX (d : BitVec 5) (a : BitVec 5)
  /-- INTERRUPT_ENTRY (R328): At an instruction boundary, a pending enabled interrupt enters the supervisor handler. -/
  | interruptEntry (h : HartName)
  /-- TIMER_INTERRUPT (R331): time reaches stimecmp and the timer interrupt becomes pending. -/
  | timerInterrupt (ns : Nat)
  /-- LATCH_PARITY_ERROR (R239): A control-latch parity error raises an asynchronous machine-check record. -/
  | latchParityError (req : Nat) (latch : BitVec 64)
  /-- GANG_PLACEMENT (R205): A cluster scheduler places the next gang of the first placeable record. -/
  | gangPlacement (cluster : Nat) (cores : List Nat)
  /-- GANG_START (R206): Once every hart is resident, the harts are reset and loaded and start together. -/
  | gangStart (gang : Nat)
  /-- RECORD_HOLD (R202): A record that stood first for 65 536 ns without placement becomes held. -/
  | recordHold (cluster : Nat)
  /-- SCHEDULER_PREEMPT_REQUEST (R203): An unplaceable record of priority 6 or 7 makes the schedulers request pre-emption of victims. -/
  | schedulerPreemptRequest (cluster : Nat)
  /-- ISSUE_WINDOW (R207): At each 16-cycle window, every resident hart's issue credit is refilled. -/
  | issueWindow (core : Nat)
  /-- BARRIER_COMPLETE (R216): A barrier generation completes when every participant has arrived or exited. -/
  | barrierComplete (gang : Nat)
  /-- HART_RESOURCE_RELEASE (R212): An exited hart's core resources are freed once its accesses and engine operations complete. -/
  | hartResourceRelease (h : HartName)
  /-- END_OF_LAUNCH (R214): When every gang and engine operation of a launch is done, it flushes, sets st = 3, notifies and joins next. -/
  | endOfLaunch (record : Nat)
  /-- COMPLETION_ENTRY (R401): The I/O die writes a completion entry when the ring has room, then signals vector 0. -/
  | completionEntry (ctx : Nat)
  /-- FORCED_STOP (R339): The grace period expires and the hart is stopped with its work in flight cut short. -/
  | forcedStop (h : HartName) (groups : Nat)
  /-- REPLY_ABANDON (R339): The abandon count expires and the replies still awaited are abandoned. -/
  | replyAbandon (h : HartName) (group : Nat)
  /-- GANG_SAVE (R341): Once the last hart stops, the save image is written and the gang's resources are freed. -/
  | gangSave (gang : Nat)
  /-- PREEMPT_DELIVERY (R397): A pending pre-emption request is delivered once save room appears. -/
  | preemptDelivery (gang : Nat)
  /-- RESUMPTION (R347): A resumption entry is checked, restored, acquired and started whole. -/
  | resumption (cluster : Nat) (gang : Nat) (cores : List Nat) (grants : List Nat)
  /-- CHAIN_RENDEZVOUS (R170): The chained MODE.M completes when every member has reached its MODE.M. -/
  | chainRendezvous (h : HartName)
  /-- WLWAIT_RETURN (R261): A waiting WLWAIT returns when a touch, a pending event or its time-out occurs. -/
  | wlwaitReturn (h : HartName)
  /-- WFI_RETURN (R337): A waiting WFI retires when an interrupt, pre-emption or debug request becomes pending. -/
  | wfiReturn (h : HartName)
  /-- STREAM_PORT_WAKE (R315): A stream-port instruction held by its stall performs once data or room is present. -/
  | streamPortWake (h : HartName)
  /-- BRIDLE_UPDATE (R311): Every U reference edges, the stream occupancies are sampled and the issue weights moved. -/
  | bridleUpdate (gang : Nat)
  /-- MULTICAST_RELEASE (R169): The cluster network releases held multicast data 64 cycles after the first issue. -/
  | multicastRelease (cluster : Nat)
  /-- HEARTBEAT_TICK (R278): Every 64 ns a heartbeat tick is delivered to every die and hbeat advances. -/
  | heartbeatTick
  /-- CACHE_EVICTION (R267): The cluster cache evicts a line, writing back its dirty bytes. -/
  | cacheEviction (cluster : Nat) (line : Nat)
  /-- COMPACTION (R238): The free-space manager compacts free sectors in the background. -/
  | compaction (die : Nat)
  /-- PATROL_SCRUB (R382): The scrubber reads and corrects granules of the die. -/
  | patrolScrub (pa : Nat) (finding : ScrubFinding)
  /-- HBM_REFRESH (R382): Each HBM bank is refreshed once per 3.9 µs. -/
  | hbmRefresh (die : Nat) (bank : Nat)
  /-- HBM_CALIBRATION (R382): Each HBM channel is calibrated once per 128 ms. -/
  | hbmCalibration (die : Nat) (channel : Nat)
  /-- TELEMETRY_SAMPLING (R382): Each memory die samples one telemetry line per millisecond. -/
  | telemetrySampling (die : Nat)
  /-- CHANNEL_SERVICE (R380): An HBM pseudo-channel picks and serves its next request under class, floor and deadline order. -/
  | channelService (die : Nat) (channel : Nat)
  /-- ENGINE_OPERATION (R294): A copy or fill at the head of its queue is performed and ends with its stamp and token. -/
  | engineOperation (h : HartName) (q : Nat)
  /-- CHAIN_RECORD (R298): The engine reaches, performs and releases the next transfer record of a chain. -/
  | chainRecord (h : HartName) (q : Nat)
  /-- QUEUE_FENCE (R300): A queue fence at its head waits until the joined queues' earlier operations complete. -/
  | queueFence (h : HartName) (q : Nat)
  /-- COLLECTIVE_COMPLETE (R411): A collective ends, writes its stamp and writes its token with status and flags. -/
  | collectiveComplete (coll : Nat) (peers : PeerInputs)
  /-- HALT_REQUEST (R351): A halt command from the debug port starts a freeze of its named scope. -/
  | haltRequest (scope : FreezeScope)
  /-- BREAKPOINT (R351): An enabled breakpoint that matches pc stops the hart before the instruction and starts a freeze. -/
  | breakpoint (h : HartName)
  /-- FREEZE (R355): The freeze broadcast reaches a core and its harts stop at an instruction boundary or waiting instruction. -/
  | freeze (core : Nat)
  /-- DEBUG_RESUME (R357): A resume command restarts a frozen scope, or releases the harts armed for single-step. -/
  | debugResume (scope : FreezeScope)
  /-- STEP_COMPLETE (R358): A single-stepped instruction retires or enters a trap handler and the hart stops again. -/
  | stepComplete (h : HartName)
  /-- STEP_TIMEOUT (R358): A stepped instruction not retired after 1 024 cycles ends the step with cause 6. -/
  | stepTimeout (h : HartName)
  /-- TRACE_STALL_RELEASE (R361): A hart held under STALL mode is released when a trace buffer slot frees. -/
  | traceStallRelease (cluster : Nat)
  /-- TRACE_GAP_RECORD (R361): Under MARK mode, the first free slot after drops takes a gap record and a sync record. -/
  | traceGapRecord (cluster : Nat)
  /-- DEBUG_PORT_READ (R350): A debug port access reads a CSR or state of a named hart slot. -/
  | debugPortRead (core : Nat) (slot : Nat) (target : PortTarget)
  /-- DEBUG_PORT_WRITE (R350): A debug port write performs only on a frozen hart. -/
  | debugPortWrite (core : Nat) (slot : Nat) (reg : PortReg) (value : BitVec 64)
  /-- QUEUE_DOORBELL (R399): A host write of a record address to a queue doorbell enqueues the record as ENQ does. -/
  | queueDoorbell (fn : Nat) (q : Nat) (record : BitVec 64)
  /-- PREE (R400): A write to pree requests pre-emption of the named gangs. -/
  | pree (fn : Nat) (v : BitVec 64)
  /-- SWINT (R400): A write to swint sets sint.swp of the named harts. -/
  | swint (fn : Nat) (v : BitVec 64)
  /-- CHEAD (R400): A write to chead sets the completion ring's consumer index. -/
  | chead (fn : Nat) (v : BitVec 64)
  /-- BAR2_WRITE (R394): A host posted write through BAR2 is ordered by the I/O die and performed at the memory die. -/
  | bar2Write (fn : Nat) (off : Nat) (data : List (BitVec 8))
  /-- BAR2_READ (R394): A host read through BAR2, sent after the earlier posted writes are acknowledged. -/
  | bar2Read (fn : Nat) (off : Nat) (size : Nat)
  /-- HOST_ATOMICOP (R394): A host AtomicOp performs at the memory die's atomic unit. -/
  | hostAtomicop (fn : Nat) (off : Nat) (op : HostAtomic) (wide : Bool) (operand : BitVec 64) (compare : BitVec 64)
  /-- INBOUND_ROUTE_ACK (R404): A memory die acknowledges an inbound route and the I/O die sends the routes held behind it. -/
  | inboundRouteAck (stream : Nat) (die : Nat)
  /-- PORT_RESTART (R409): The PF writes a port's restart bit and the lost port carries traffic again. -/
  | portRestart (ports : BitVec 16)
  /-- CHECKPOINT_SAVE (R432): Starts a checkpoint that pre-empts every gang and copies HBM to the host. -/
  | checkpointSave (dest : BitVec 64)
  /-- CHECKPOINT_RESTORE (R432): Starts a checkpoint in the restore direction. -/
  | checkpointRestore (source : BitVec 64)
  /-- CHECKPOINT_COMPLETE (R432): After the copy, the status word is written, vector 6 is signalled and scheduling resumes. -/
  | checkpointComplete
  /-- ATTESTATION_REQUEST (R431): The PF writes a buffer address to request a signed attestation report. -/
  | attestationRequest (buffer : BitVec 64)
  /-- ATTESTATION_REPORT (R431): The Scarab engine writes the signed report into the buffer and signals vector 6. -/
  | attestationReport (report : ScarabReport)
  /-- XLAT_WRITE (R231): A write to xlat discards every translation the hart holds. -/
  | xlatWrite (h : HartName) (value : BitVec 64)
  /-- CONFIG_BLOCK_WRITE (R229): A firmware write to msplit or cpool updates the configuration block for the next reset. -/
  | configBlockWrite (pool : Bool) (value : BitVec 64)
  /-- REGISTER_WRITE (R8): A write to a register without behaviour of its own sets its writable fields. -/
  | registerWrite (place : WindowPlace) (value : BitVec 64)
  /-- LINK_GEAR_STEP (R374): At the end of a 1 µs interval, a link may step its gear up or down and open a retraining window. -/
  | linkGearStep (die : Nat) (link : Nat) (sent : Nat) (slots : Nat) (received : Nat)
  /-- LINK_CALIBRATION (R374): Every 100 ms a link opens a calibration window. -/
  | linkCalibration (die : Nat) (link : Nat)
  /-- LINK_WINDOW_END (R374): A retraining or calibration window closes and the held flits proceed in order. -/
  | linkWindowEnd (die : Nat) (link : Nat)
  /-- FLIT_REPLAY (R375): A flit with a bad CRC is discarded with every later flit, and replay is requested go-back-N. -/
  | flitReplay (die : Nat) (link : Nat)
  /-- LINK_FULL_RETRAIN (R376): A request unacknowledged for 64 µs makes the link retrain fully and replay. -/
  | linkFullRetrain (die : Nat) (link : Nat) (success : Bool)
  /-- DATA_FRAME (R406): A scale-out data frame is received, or discarded with its followers on a CRC failure. -/
  | dataFrame (port : Nat) (frame : ScaleFrame) (crcGood : Bool)
  /-- ALLOWANCE_FRAME (R407): A received allowance frame updates the grant and acknowledgement counts. -/
  | allowanceFrame (port : Nat) (grant : BitVec 32) (ack : BitVec 32)
  /-- ALLOWANCE_SEND (R407): The receiver sends an allowance frame at least every 1 µs and on buffer release. -/
  | allowanceSend (port : Nat) (released : Nat)
  /-- FRAME_RESEND (R407): A data frame unacknowledged for 50 µs is resent. -/
  | frameResend (port : Nat)
  /-- PORT_LOST (R409): With no allowance frame for 10 ms, the port is lost, its collectives end with status 5 and vector 5 is signalled. -/
  | portLost (port : Nat)
  /-- PACKAGE_RESET (R428): Reset reads, verifies and configures the firmware and starts the boot hart. -/
  | packageReset
  /-- DROOP_ALARM (R426): A core's droop sensor alarm stretches six edges and starts a hold. -/
  | droopAlarm (core : Nat)
  /-- DROOP_HOLD_END (R426): After 64 edges the droop hold ends and the core issues on every edge. -/
  | droopHoldEnd (core : Nat)
  /-- POWER_LIMIT_CHECK (R427): Each millisecond the mean package power is compared with plimit and wmax is adjusted. -/
  | powerLimitCheck (meanMilliwatts : Nat)
  /-- TELEMETRY_LINE (R433): Each millisecond the I/O die writes a telemetry line. -/
  | telemetryLine (readings : TelemetryReadings)
  /-- SMBUS_READ_TELEMETRY (R434): SMBus command 0x01 reads the latest telemetry line. -/
  | smbusReadTelemetry
  /-- SMBUS_READ_MC_RECORD (R434): SMBus command 0x02 reads machine-check record n. -/
  | smbusReadMcRecord (n : SmbusRead)
  /-- SMBUS_READ_BOOT_FAILURE (R434): SMBus command 0x03 reads the boot failure step. -/
  | smbusReadBootFailure
  deriving DecidableEq, Repr

end Sys2Proof
end

