-- ==== Sys2Proof/WellFormed.lean ====
section
/-! DEFINITION. Which terms of Instr are instructions: conditions 2 and 3 of R34 that the fields of a row
must meet beyond its fixed bits, and whether a row is an event of the package. -/

namespace Sys2Proof

/-- The rows that have no encoding: events of the package and its agents. -/
def Instr.isEvent (i : Instr) : Bool :=
  match i with
  | .interruptEntry _ => true
  | .timerInterrupt _ => true
  | .latchParityError _ _ => true
  | .gangPlacement _ _ => true
  | .gangStart _ => true
  | .recordHold _ => true
  | .schedulerPreemptRequest _ => true
  | .issueWindow _ => true
  | .barrierComplete _ => true
  | .hartResourceRelease _ => true
  | .endOfLaunch _ => true
  | .completionEntry _ => true
  | .forcedStop _ _ => true
  | .replyAbandon _ _ => true
  | .gangSave _ => true
  | .preemptDelivery _ => true
  | .resumption _ _ _ _ => true
  | .chainRendezvous _ => true
  | .wlwaitReturn _ => true
  | .wfiReturn _ => true
  | .streamPortWake _ => true
  | .bridleUpdate _ => true
  | .multicastRelease _ => true
  | .heartbeatTick => true
  | .cacheEviction _ _ => true
  | .compaction _ => true
  | .patrolScrub _ _ => true
  | .hbmRefresh _ _ => true
  | .hbmCalibration _ _ => true
  | .telemetrySampling _ => true
  | .channelService _ _ => true
  | .engineOperation _ _ => true
  | .chainRecord _ _ => true
  | .queueFence _ _ => true
  | .collectiveComplete _ _ => true
  | .haltRequest _ => true
  | .breakpoint _ => true
  | .freeze _ => true
  | .debugResume _ => true
  | .stepComplete _ => true
  | .stepTimeout _ => true
  | .traceStallRelease _ => true
  | .traceGapRecord _ => true
  | .debugPortRead _ _ _ => true
  | .debugPortWrite _ _ _ _ => true
  | .queueDoorbell _ _ _ => true
  | .pree _ _ => true
  | .swint _ _ => true
  | .chead _ _ => true
  | .bar2Write _ _ _ => true
  | .bar2Read _ _ _ => true
  | .hostAtomicop _ _ _ _ _ _ => true
  | .inboundRouteAck _ _ => true
  | .portRestart _ => true
  | .checkpointSave _ => true
  | .checkpointRestore _ => true
  | .checkpointComplete => true
  | .attestationRequest _ => true
  | .attestationReport _ => true
  | .xlatWrite _ _ => true
  | .configBlockWrite _ _ => true
  | .registerWrite _ _ => true
  | .linkGearStep _ _ _ _ _ => true
  | .linkCalibration _ _ => true
  | .linkWindowEnd _ _ => true
  | .flitReplay _ _ => true
  | .linkFullRetrain _ _ _ => true
  | .dataFrame _ _ _ => true
  | .allowanceFrame _ _ _ => true
  | .allowanceSend _ _ => true
  | .frameResend _ => true
  | .portLost _ => true
  | .packageReset => true
  | .droopAlarm _ => true
  | .droopHoldEnd _ => true
  | .powerLimitCheck _ => true
  | .telemetryLine _ => true
  | .smbusReadTelemetry => true
  | .smbusReadMcRecord _ => true
  | .smbusReadBootFailure => true
  | _ => false

/-- The limits on the fields of an encoded row: element widths of SETVL (R125), loop levels (R92), a
tensor-map slot and a stride register other than 0 (R31, R253), and the fields of MODE.M (R179). -/
def Instr.wellFormed (i : Instr) : Bool :=
  match i with
  | .lcount _ l => decide (l.toNat ≤ 5)
  | .lstride _ _ _ l => decide (l.toNat ≤ 5)
  | .loop g _ => decide (g.toNat ≤ 5)
  | .setvl _ _ _ _ e => decide (e.toNat ≤ 4)
  | .setvlmax _ _ _ e => decide (e.toNat ≤ 4)
  | .setvli _ _ _ _ e => decide (e.toNat ≤ 4)
  | .vldTmap _ _ t _ _ _ _ => decide (t ≠ 0)
  | .vstTmap _ _ t _ _ _ _ _ => decide (t ≠ 0)
  | .vlds _ _ b _ _ _ _ => decide (b ≠ 0)
  | .vsts _ _ b _ _ _ _ _ => decide (b ≠ 0)
  | .modeM d l s => decide ((l = 0 → d = 0) ∧ (l = 1 → s = 1))
  | _ => true

end Sys2Proof
end

