-- ==== Sys2Proof/Decode.lean ====
section
/-! DEFINITION. Instruction words (R26 to R34): the parts of a word, the decoder of conditions 1 to 3 of
R34, and after it the encoder, both written from the encodings of spec/opcode_table.json. -/

namespace Sys2Proof

noncomputable section

/-- The parts of a word (R26): major, field A, field B and the low sixteen bits. -/
structure Parts where
  major : BitVec 6
  a : BitVec 5
  b : BitVec 5
  low : BitVec 16
  deriving DecidableEq, Repr

/-- The word of its parts. -/
def Parts.word (p : Parts) : BitVec 32 := p.major ++ p.a ++ p.b ++ p.low

/-- The parts of a word. -/
def partsOfWord (w : BitVec 32) : Parts :=
  ⟨w.extractLsb' 26 6, w.extractLsb' 21 5, w.extractLsb' 16 5, w.extractLsb' 0 16⟩

/-- Bits lo and up of the low sixteen bits. -/
def Parts.bits (p : Parts) (lo n : Nat) : BitVec n := p.low.extractLsb' lo n

/-- Major 0x01 (R30). -/
def decodeMajor01 (p : Parts) : Option Instr :=
  if p.bits 0 11 = 0#11 then
    some (.add p.a p.b (p.bits 11 5))
  else if p.bits 0 11 = 1#11 then
    some (.sub p.a p.b (p.bits 11 5))
  else if p.bits 0 11 = 2#11 then
    some (.and p.a p.b (p.bits 11 5))
  else if p.bits 0 11 = 3#11 then
    some (.or p.a p.b (p.bits 11 5))
  else if p.bits 0 11 = 4#11 then
    some (.xor p.a p.b (p.bits 11 5))
  else if p.bits 0 11 = 5#11 then
    some (.sll p.a p.b (p.bits 11 5))
  else if p.bits 0 11 = 6#11 then
    some (.srl p.a p.b (p.bits 11 5))
  else if p.bits 0 11 = 7#11 then
    some (.sra p.a p.b (p.bits 11 5))
  else if p.bits 0 11 = 8#11 then
    some (.slt p.a p.b (p.bits 11 5))
  else if p.bits 0 11 = 9#11 then
    some (.sltu p.a p.b (p.bits 11 5))
  else if p.bits 0 11 = 10#11 then
    some (.min p.a p.b (p.bits 11 5))
  else if p.bits 0 11 = 11#11 then
    some (.max p.a p.b (p.bits 11 5))
  else if p.bits 0 11 = 12#11 then
    some (.minu p.a p.b (p.bits 11 5))
  else if p.bits 0 11 = 13#11 then
    some (.maxu p.a p.b (p.bits 11 5))
  else none

/-- Major 0x02 (R30). -/
def decodeMajor02 (p : Parts) : Option Instr :=
  some (.addi p.a p.b p.low)

/-- Major 0x03 (R30). -/
def decodeMajor03 (p : Parts) : Option Instr :=
  some (.andi p.a p.b p.low)

/-- Major 0x04 (R30). -/
def decodeMajor04 (p : Parts) : Option Instr :=
  some (.ori p.a p.b p.low)

/-- Major 0x05 (R30). -/
def decodeMajor05 (p : Parts) : Option Instr :=
  some (.xori p.a p.b p.low)

/-- Major 0x06 (R30). -/
def decodeMajor06 (p : Parts) : Option Instr :=
  if p.b = 0#5 then
    some (.lhi p.a p.low)
  else none

/-- Major 0x07 (R30). -/
def decodeMajor07 (p : Parts) : Option Instr :=
  if p.b = 0#5 then
    some (.lpc p.a p.low)
  else none

/-- Major 0x08 (R30). -/
def decodeMajor08 (p : Parts) : Option Instr :=
  if p.bits 0 11 = 0#11 then
    some (.mul p.a p.b (p.bits 11 5))
  else if p.bits 0 11 = 1#11 then
    some (.mulh p.a p.b (p.bits 11 5))
  else if p.bits 0 11 = 2#11 then
    some (.mulhu p.a p.b (p.bits 11 5))
  else if p.bits 0 11 = 3#11 then
    some (.mulhsu p.a p.b (p.bits 11 5))
  else if p.bits 0 11 = 4#11 then
    some (.div p.a p.b (p.bits 11 5))
  else if p.bits 0 11 = 5#11 then
    some (.divu p.a p.b (p.bits 11 5))
  else if p.bits 0 11 = 6#11 then
    some (.rem p.a p.b (p.bits 11 5))
  else if p.bits 0 11 = 7#11 then
    some (.remu p.a p.b (p.bits 11 5))
  else none

/-- Major 0x09 (R30). -/
def decodeMajor09 (p : Parts) : Option Instr :=
  if p.bits 6 10 = 0#10 then
    some (.slli p.a p.b (p.bits 0 6))
  else if p.bits 6 10 = 1#10 then
    some (.srli p.a p.b (p.bits 0 6))
  else if p.bits 6 10 = 2#10 then
    some (.srai p.a p.b (p.bits 0 6))
  else if p.bits 6 10 = 3#10 then
    some (.rori p.a p.b (p.bits 0 6))
  else if p.bits 6 5 = 4#5 then
    some (.slti p.a p.b (p.bits 11 5 ++ p.bits 0 6))
  else if p.bits 6 5 = 5#5 then
    some (.sltiu p.a p.b (p.bits 11 5 ++ p.bits 0 6))
  else if p.bits 6 5 = 6#5 then
    some (.seqi p.a p.b (p.bits 11 5 ++ p.bits 0 6))
  else if p.bits 0 16 = 512#16 then
    some (.clz p.a p.b)
  else if p.bits 0 16 = 576#16 then
    some (.ctz p.a p.b)
  else if p.bits 0 16 = 640#16 then
    some (.cpop p.a p.b)
  else if p.bits 0 16 = 704#16 then
    some (.rev8 p.a p.b)
  else if p.bits 0 16 = 768#16 then
    some (.brev p.a p.b)
  else if p.bits 0 16 = 832#16 then
    some (.sextB p.a p.b)
  else if p.bits 0 16 = 896#16 then
    some (.sextH p.a p.b)
  else if p.bits 0 16 = 960#16 then
    some (.sextW p.a p.b)
  else if p.bits 0 16 = 1024#16 then
    some (.zextW p.a p.b)
  else if p.bits 0 11 = 1088#11 then
    some (.andn p.a p.b (p.bits 11 5))
  else if p.bits 0 11 = 1152#11 then
    some (.orn p.a p.b (p.bits 11 5))
  else if p.bits 0 11 = 1216#11 then
    some (.xnor p.a p.b (p.bits 11 5))
  else if p.bits 0 11 = 1280#11 then
    some (.rol p.a p.b (p.bits 11 5))
  else if p.bits 0 11 = 1344#11 then
    some (.ror p.a p.b (p.bits 11 5))
  else none

/-- Major 0x0A (R30). -/
def decodeMajor0A (p : Parts) : Option Instr :=
  if p.bits 0 11 = 0#11 then
    some (.fadd p.a p.b (p.bits 11 5))
  else if p.bits 0 11 = 1#11 then
    some (.fsub p.a p.b (p.bits 11 5))
  else if p.bits 0 11 = 2#11 then
    some (.fmul p.a p.b (p.bits 11 5))
  else if p.bits 0 11 = 3#11 then
    some (.fdiv p.a p.b (p.bits 11 5))
  else if p.bits 0 16 = 4#16 then
    some (.fsqrt p.a p.b)
  else if p.bits 0 11 = 5#11 then
    some (.fmin p.a p.b (p.bits 11 5))
  else if p.bits 0 11 = 6#11 then
    some (.fmax p.a p.b (p.bits 11 5))
  else if p.bits 0 11 = 7#11 then
    some (.fma p.a p.b (p.bits 11 5))
  else if p.bits 0 11 = 8#11 then
    some (.fnma p.a p.b (p.bits 11 5))
  else none

/-- Major 0x0B (R30). -/
def decodeMajor0B (p : Parts) : Option Instr :=
  if p.bits 0 11 = 0#11 then
    some (.feq p.a p.b (p.bits 11 5))
  else if p.bits 0 11 = 1#11 then
    some (.flt p.a p.b (p.bits 11 5))
  else if p.bits 0 11 = 2#11 then
    some (.fle p.a p.b (p.bits 11 5))
  else if p.bits 0 16 = 3#16 then
    some (.fclass p.a p.b)
  else if p.bits 0 16 = 4#16 then
    some (.fcvtFF p.a p.b)
  else if p.bits 0 16 = 5#16 then
    some (.fcvtIF p.a p.b)
  else if p.bits 0 16 = 6#16 then
    some (.fcvtFI p.a p.b)
  else if p.bits 0 16 = 7#16 then
    some (.fneg p.a p.b)
  else if p.bits 0 16 = 8#16 then
    some (.fabs p.a p.b)
  else none

/-- Major 0x0C (R30). -/
def decodeMajor0C (p : Parts) : Option Instr :=
  some (.beq p.a p.b p.low)

/-- Major 0x0D (R30). -/
def decodeMajor0D (p : Parts) : Option Instr :=
  some (.bne p.a p.b p.low)

/-- Major 0x0E (R30). -/
def decodeMajor0E (p : Parts) : Option Instr :=
  some (.jal p.a (p.b ++ p.low))

/-- Major 0x0F (R30). -/
def decodeMajor0F (p : Parts) : Option Instr :=
  if p.bits 0 16 = 0#16 then
    some (.jalr p.a p.b)
  else if p.a = 0#5 ∧ p.bits 0 16 = 1#16 then
    some (.callV p.b)
  else if p.a = 0#5 ∧ p.b = 0#5 ∧ p.bits 0 16 = 2#16 then
    some (.retV)
  else if p.a = 0#5 ∧ p.b = 0#5 ∧ p.bits 0 16 = 3#16 then
    some (.gret)
  else none

/-- Major 0x10 (R30). -/
def decodeMajor10 (p : Parts) : Option Instr :=
  some (.ld p.a p.b (p.bits 12 4) (p.bits 0 12))

/-- Major 0x11 (R30). -/
def decodeMajor11 (p : Parts) : Option Instr :=
  some (.lw p.a p.b (p.bits 12 4) (p.bits 0 12))

/-- Major 0x12 (R30). -/
def decodeMajor12 (p : Parts) : Option Instr :=
  some (.sd p.a p.b (p.bits 12 4) (p.bits 0 12))

/-- Major 0x13 (R30). -/
def decodeMajor13 (p : Parts) : Option Instr :=
  some (.sw p.a p.b (p.bits 12 4) (p.bits 0 12))

/-- Major 0x14 (R30). -/
def decodeMajor14 (p : Parts) : Option Instr :=
  if p.bits 0 4 = 0#4 then
    some (.lb p.a p.b (p.bits 11 5) (p.bits 7 4) (p.bits 5 2) (p.bits 4 1))
  else if p.bits 0 4 = 1#4 then
    some (.lbu p.a p.b (p.bits 11 5) (p.bits 7 4) (p.bits 5 2) (p.bits 4 1))
  else if p.bits 0 4 = 2#4 then
    some (.lh p.a p.b (p.bits 11 5) (p.bits 7 4) (p.bits 5 2) (p.bits 4 1))
  else if p.bits 0 4 = 3#4 then
    some (.lhu p.a p.b (p.bits 11 5) (p.bits 7 4) (p.bits 5 2) (p.bits 4 1))
  else if p.bits 0 4 = 4#4 then
    some (.lwx p.a p.b (p.bits 11 5) (p.bits 7 4) (p.bits 5 2) (p.bits 4 1))
  else if p.bits 0 4 = 5#4 then
    some (.lwux p.a p.b (p.bits 11 5) (p.bits 7 4) (p.bits 5 2) (p.bits 4 1))
  else if p.bits 0 4 = 6#4 then
    some (.ldx p.a p.b (p.bits 11 5) (p.bits 7 4) (p.bits 5 2) (p.bits 4 1))
  else if p.bits 0 4 = 8#4 then
    some (.sb p.a p.b (p.bits 11 5) (p.bits 7 4) (p.bits 5 2) (p.bits 4 1))
  else if p.bits 0 4 = 9#4 then
    some (.sh p.a p.b (p.bits 11 5) (p.bits 7 4) (p.bits 5 2) (p.bits 4 1))
  else if p.bits 0 4 = 10#4 then
    some (.swx p.a p.b (p.bits 11 5) (p.bits 7 4) (p.bits 5 2) (p.bits 4 1))
  else if p.bits 0 4 = 11#4 then
    some (.sdx p.a p.b (p.bits 11 5) (p.bits 7 4) (p.bits 5 2) (p.bits 4 1))
  else if p.bits 0 5 = 12#5 then
    some (.lwAq p.a p.b (p.bits 11 5) (p.bits 7 4) (p.bits 5 2))
  else if p.bits 0 5 = 13#5 then
    some (.ldAq p.a p.b (p.bits 11 5) (p.bits 7 4) (p.bits 5 2))
  else if p.bits 0 5 = 14#5 then
    some (.swRl p.a p.b (p.bits 11 5) (p.bits 7 4) (p.bits 5 2))
  else if p.bits 0 5 = 15#5 then
    some (.sdRl p.a p.b (p.bits 11 5) (p.bits 7 4) (p.bits 5 2))
  else none

/-- Major 0x15 (R30). -/
def decodeMajor15 (p : Parts) : Option Instr :=
  if p.bits 5 2 = 0#2 ∧ p.bits 0 4 = 0#4 then
    some (.amoswap p.a p.b (p.bits 11 5) (p.bits 7 4) (p.bits 4 1))
  else if p.bits 5 2 = 0#2 ∧ p.bits 0 4 = 1#4 then
    some (.amoadd p.a p.b (p.bits 11 5) (p.bits 7 4) (p.bits 4 1))
  else if p.bits 5 2 = 0#2 ∧ p.bits 0 4 = 2#4 then
    some (.amoand p.a p.b (p.bits 11 5) (p.bits 7 4) (p.bits 4 1))
  else if p.bits 5 2 = 0#2 ∧ p.bits 0 4 = 3#4 then
    some (.amoor p.a p.b (p.bits 11 5) (p.bits 7 4) (p.bits 4 1))
  else if p.bits 5 2 = 0#2 ∧ p.bits 0 4 = 4#4 then
    some (.amoxor p.a p.b (p.bits 11 5) (p.bits 7 4) (p.bits 4 1))
  else if p.bits 5 2 = 0#2 ∧ p.bits 0 4 = 5#4 then
    some (.amomin p.a p.b (p.bits 11 5) (p.bits 7 4) (p.bits 4 1))
  else if p.bits 5 2 = 0#2 ∧ p.bits 0 4 = 6#4 then
    some (.amomax p.a p.b (p.bits 11 5) (p.bits 7 4) (p.bits 4 1))
  else if p.bits 5 2 = 0#2 ∧ p.bits 0 4 = 7#4 then
    some (.amominu p.a p.b (p.bits 11 5) (p.bits 7 4) (p.bits 4 1))
  else if p.bits 5 2 = 0#2 ∧ p.bits 0 4 = 8#4 then
    some (.amomaxu p.a p.b (p.bits 11 5) (p.bits 7 4) (p.bits 4 1))
  else if p.bits 5 2 = 0#2 ∧ p.bits 0 4 = 9#4 then
    some (.amocas p.a p.b (p.bits 11 5) (p.bits 7 4) (p.bits 4 1))
  else none

/-- Major 0x16 (R30). -/
def decodeMajor16 (p : Parts) : Option Instr :=
  if p.a = 0#5 ∧ p.bits 2 14 = 1#14 then
    some (.fenceAq p.b (p.bits 0 2))
  else if p.a = 0#5 ∧ p.bits 2 14 = 2#14 then
    some (.fenceRl p.b (p.bits 0 2))
  else if p.a = 0#5 ∧ p.bits 2 14 = 3#14 then
    some (.fence p.b (p.bits 0 2))
  else if p.b = 0#5 ∧ p.bits 0 16 = 16#16 then
    some (.fenceSc p.a)
  else if p.a = 0#5 ∧ p.b = 0#5 ∧ p.bits 0 16 = 32#16 then
    some (.fenceI)
  else none

/-- Major 0x17 (R30). -/
def decodeMajor17 (p : Parts) : Option Instr :=
  if p.a = 0#5 ∧ p.bits 0 16 = 0#16 then
    some (.wlarm p.b)
  else if p.b = 0#5 ∧ p.bits 0 11 = 1#11 then
    some (.wlwait p.a (p.bits 11 5))
  else if p.a = 0#5 ∧ p.bits 0 11 = 2#11 then
    some (.rcPost p.b (p.bits 11 5))
  else if p.a = 0#5 ∧ p.bits 0 11 = 3#11 then
    some (.chint p.b (p.bits 11 5))
  else if p.a = 0#5 ∧ p.bits 0 16 = 4#16 then
    some (.cwb p.b)
  else if p.a = 0#5 ∧ p.bits 0 16 = 5#16 then
    some (.cdrop p.b)
  else none

/-- Major 0x18 (R30). -/
def decodeMajor18 (p : Parts) : Option Instr :=
  if p.bits 12 4 = 0#4 then
    some (.csrrw p.a p.b (p.bits 0 12))
  else if p.bits 12 4 = 1#4 then
    some (.csrrs p.a p.b (p.bits 0 12))
  else if p.bits 12 4 = 2#4 then
    some (.csrrc p.a p.b (p.bits 0 12))
  else if p.b = 0#5 ∧ p.bits 12 4 = 3#4 then
    some (.csrr p.a (p.bits 0 12))
  else none

/-- Major 0x19 (R30). -/
def decodeMajor19 (p : Parts) : Option Instr :=
  if p.a = 0#5 ∧ p.b = 0#5 ∧ p.bits 0 16 = 0#16 then
    some (.tret)
  else if p.a = 0#5 ∧ p.b = 0#5 ∧ p.bits 0 16 = 1#16 then
    some (.tfence)
  else if p.a = 0#5 ∧ p.b = 0#5 ∧ p.bits 0 16 = 2#16 then
    some (.ecall)
  else if p.a = 0#5 ∧ p.b = 0#5 ∧ p.bits 0 16 = 3#16 then
    some (.wfi)
  else none

/-- Major 0x1A (R30). -/
def decodeMajor1A (p : Parts) : Option Instr :=
  if p.a = 0#5 ∧ p.b = 0#5 ∧ p.bits 8 8 = 0#8 then
    some (.gate (p.bits 0 8))
  else none

/-- Major 0x1B (R30). -/
def decodeMajor1B (p : Parts) : Option Instr :=
  if p.a = 0#5 ∧ p.b = 0#5 ∧ p.bits 0 16 = 0#16 then
    some (.ebreak)
  else if p.bits 0 11 = 1#11 then
    some (.rring p.a p.b (p.bits 11 5))
  else if p.a = 0#5 ∧ p.bits 0 16 = 2#16 then
    some (.tmark p.b)
  else none

/-- Major 0x1C (R30). -/
def decodeMajor1C (p : Parts) : Option Instr :=
  if p.bits 0 11 = 0#11 then
    some (.enq p.a p.b (p.bits 11 5))
  else if p.bits 0 16 = 1#16 then
    some (.spawn p.a p.b)
  else if p.bits 0 16 = 2#16 then
    some (.join p.a p.b)
  else if p.a = 0#5 ∧ p.b = 0#5 ∧ p.bits 0 16 = 3#16 then
    some (.exit)
  else if p.a = 0#5 ∧ p.b = 0#5 ∧ p.bits 0 16 = 4#16 then
    some (.yield)
  else none

/-- Major 0x1D (R30). -/
def decodeMajor1D (p : Parts) : Option Instr :=
  if p.a = 0#5 ∧ p.b = 0#5 ∧ p.bits 0 16 = 0#16 then
    some (.bar)
  else if p.a = 0#5 ∧ p.b = 0#5 ∧ p.bits 0 16 = 1#16 then
    some (.barS)
  else if p.b = 0#5 ∧ p.bits 0 11 = 2#11 then
    some (.ginfo p.a (p.bits 11 5))
  else none

/-- Major 0x1E (R30). -/
def decodeMajor1E (p : Parts) : Option Instr :=
  if p.a = 0#5 ∧ p.bits 3 13 = 0#13 ∧ (p.bits 0 3).toNat ≤ 5 then
    some (.lcount p.b (p.bits 0 3))
  else if p.bits 4 12 = 512#12 ∧ (p.bits 0 3).toNat ≤ 5 then
    some (.lstride p.a p.b (p.bits 3 1) (p.bits 0 3))
  else if p.bits 0 16 = 16384#16 then
    some (.lflags p.a p.b)
  else if p.a = 0#5 ∧ p.b = 0#5 ∧ p.bits 9 7 = 48#7 ∧ (p.bits 6 3).toNat ≤ 5 then
    some (.loop (p.bits 6 3) (p.bits 0 6))
  else none

/-- Major 0x1F (R30). -/
def decodeMajor1F (p : Parts) : Option Instr :=
  if p.bits 8 3 = 0#3 ∧ p.bits 0 5 = 0#5 then
    some (.vdefer p.a p.b (p.bits 11 5) (p.bits 5 3))
  else if p.bits 0 11 = 1#11 then
    some (.vdrain p.a p.b (p.bits 11 5))
  else none

/-- Major 0x20 (R30). -/
def decodeMajor20 (p : Parts) : Option Instr :=
  if p.bits 6 10 = 0#10 ∧ (p.bits 0 3).toNat ≤ 4 then
    some (.setvl p.a p.b (p.bits 4 2) (p.bits 3 1) (p.bits 0 3))
  else if p.b = 0#5 ∧ p.bits 6 10 = 1#10 ∧ (p.bits 0 3).toNat ≤ 4 then
    some (.setvlmax p.a (p.bits 4 2) (p.bits 3 1) (p.bits 0 3))
  else if p.b = 0#5 ∧ p.bits 6 2 = 2#2 ∧ (p.bits 0 3).toNat ≤ 4 then
    some (.setvli p.a (p.bits 8 8) (p.bits 4 2) (p.bits 3 1) (p.bits 0 3))
  else none

/-- Major 0x21 (R30). -/
def decodeMajor21 (p : Parts) : Option Instr :=
  if p.bits 8 3 = 0#3 ∧ p.bits 0 5 = 0#5 then
    some (.vadd p.a p.b (p.bits 11 5) (p.bits 5 3))
  else if p.bits 8 3 = 0#3 ∧ p.bits 0 5 = 1#5 then
    some (.vsub p.a p.b (p.bits 11 5) (p.bits 5 3))
  else if p.bits 8 3 = 0#3 ∧ p.bits 0 5 = 2#5 then
    some (.vand p.a p.b (p.bits 11 5) (p.bits 5 3))
  else if p.bits 8 3 = 0#3 ∧ p.bits 0 5 = 3#5 then
    some (.vor p.a p.b (p.bits 11 5) (p.bits 5 3))
  else if p.bits 8 3 = 0#3 ∧ p.bits 0 5 = 4#5 then
    some (.vxor p.a p.b (p.bits 11 5) (p.bits 5 3))
  else if p.bits 8 3 = 0#3 ∧ p.bits 0 5 = 5#5 then
    some (.vsll p.a p.b (p.bits 11 5) (p.bits 5 3))
  else if p.bits 8 3 = 0#3 ∧ p.bits 0 5 = 6#5 then
    some (.vsrl p.a p.b (p.bits 11 5) (p.bits 5 3))
  else if p.bits 8 3 = 0#3 ∧ p.bits 0 5 = 7#5 then
    some (.vsra p.a p.b (p.bits 11 5) (p.bits 5 3))
  else if p.bits 8 3 = 0#3 ∧ p.bits 0 5 = 8#5 then
    some (.vmin p.a p.b (p.bits 11 5) (p.bits 5 3))
  else if p.bits 8 3 = 0#3 ∧ p.bits 0 5 = 9#5 then
    some (.vmax p.a p.b (p.bits 11 5) (p.bits 5 3))
  else if p.bits 8 3 = 0#3 ∧ p.bits 0 5 = 10#5 then
    some (.vminu p.a p.b (p.bits 11 5) (p.bits 5 3))
  else if p.bits 8 3 = 0#3 ∧ p.bits 0 5 = 11#5 then
    some (.vmaxu p.a p.b (p.bits 11 5) (p.bits 5 3))
  else if p.bits 8 3 = 0#3 ∧ p.bits 0 5 = 12#5 then
    some (.vmseq p.a p.b (p.bits 11 5) (p.bits 5 3))
  else if p.bits 8 3 = 0#3 ∧ p.bits 0 5 = 13#5 then
    some (.vmsne p.a p.b (p.bits 11 5) (p.bits 5 3))
  else if p.bits 8 3 = 0#3 ∧ p.bits 0 5 = 14#5 then
    some (.vmslt p.a p.b (p.bits 11 5) (p.bits 5 3))
  else if p.bits 8 3 = 0#3 ∧ p.bits 0 5 = 15#5 then
    some (.vmsltu p.a p.b (p.bits 11 5) (p.bits 5 3))
  else if p.bits 8 3 = 0#3 ∧ p.bits 0 5 = 16#5 then
    some (.vmsle p.a p.b (p.bits 11 5) (p.bits 5 3))
  else if p.bits 8 3 = 0#3 ∧ p.bits 0 5 = 17#5 then
    some (.vmsleu p.a p.b (p.bits 11 5) (p.bits 5 3))
  else if p.bits 8 3 = 0#3 ∧ p.bits 0 5 = 18#5 then
    some (.vmerge p.a p.b (p.bits 11 5) (p.bits 5 3))
  else if p.bits 8 8 = 0#8 ∧ p.bits 0 5 = 19#5 then
    some (.vmvVV p.a p.b (p.bits 5 3))
  else none

/-- Major 0x22 (R30). -/
def decodeMajor22 (p : Parts) : Option Instr :=
  if p.bits 8 3 = 0#3 ∧ p.bits 0 5 = 0#5 then
    some (.vaddX p.a p.b (p.bits 11 5) (p.bits 5 3))
  else if p.bits 8 3 = 0#3 ∧ p.bits 0 5 = 1#5 then
    some (.vsubX p.a p.b (p.bits 11 5) (p.bits 5 3))
  else if p.bits 8 3 = 0#3 ∧ p.bits 0 5 = 2#5 then
    some (.vandX p.a p.b (p.bits 11 5) (p.bits 5 3))
  else if p.bits 8 3 = 0#3 ∧ p.bits 0 5 = 3#5 then
    some (.vorX p.a p.b (p.bits 11 5) (p.bits 5 3))
  else if p.bits 8 3 = 0#3 ∧ p.bits 0 5 = 4#5 then
    some (.vxorX p.a p.b (p.bits 11 5) (p.bits 5 3))
  else if p.bits 8 3 = 0#3 ∧ p.bits 0 5 = 5#5 then
    some (.vsllX p.a p.b (p.bits 11 5) (p.bits 5 3))
  else if p.bits 8 3 = 0#3 ∧ p.bits 0 5 = 6#5 then
    some (.vsrlX p.a p.b (p.bits 11 5) (p.bits 5 3))
  else if p.bits 8 3 = 0#3 ∧ p.bits 0 5 = 7#5 then
    some (.vsraX p.a p.b (p.bits 11 5) (p.bits 5 3))
  else if p.bits 8 3 = 0#3 ∧ p.bits 0 5 = 8#5 then
    some (.vminX p.a p.b (p.bits 11 5) (p.bits 5 3))
  else if p.bits 8 3 = 0#3 ∧ p.bits 0 5 = 9#5 then
    some (.vmaxX p.a p.b (p.bits 11 5) (p.bits 5 3))
  else if p.bits 8 3 = 0#3 ∧ p.bits 0 5 = 10#5 then
    some (.vminuX p.a p.b (p.bits 11 5) (p.bits 5 3))
  else if p.bits 8 3 = 0#3 ∧ p.bits 0 5 = 11#5 then
    some (.vmaxuX p.a p.b (p.bits 11 5) (p.bits 5 3))
  else if p.bits 8 3 = 0#3 ∧ p.bits 0 5 = 12#5 then
    some (.vmseqX p.a p.b (p.bits 11 5) (p.bits 5 3))
  else if p.bits 8 3 = 0#3 ∧ p.bits 0 5 = 13#5 then
    some (.vmsneX p.a p.b (p.bits 11 5) (p.bits 5 3))
  else if p.bits 8 3 = 0#3 ∧ p.bits 0 5 = 14#5 then
    some (.vmsltX p.a p.b (p.bits 11 5) (p.bits 5 3))
  else if p.bits 8 3 = 0#3 ∧ p.bits 0 5 = 15#5 then
    some (.vmsltuX p.a p.b (p.bits 11 5) (p.bits 5 3))
  else if p.bits 8 3 = 0#3 ∧ p.bits 0 5 = 16#5 then
    some (.vmsleX p.a p.b (p.bits 11 5) (p.bits 5 3))
  else if p.bits 8 3 = 0#3 ∧ p.bits 0 5 = 17#5 then
    some (.vmsleuX p.a p.b (p.bits 11 5) (p.bits 5 3))
  else if p.bits 8 3 = 0#3 ∧ p.bits 0 5 = 18#5 then
    some (.vmergeX p.a p.b (p.bits 11 5) (p.bits 5 3))
  else if p.b = 0#5 ∧ p.bits 8 3 = 0#3 ∧ p.bits 0 5 = 19#5 then
    some (.vmvVX p.a (p.bits 11 5) (p.bits 5 3))
  else if p.bits 8 3 = 0#3 ∧ p.bits 0 5 = 20#5 then
    some (.vrsubX p.a p.b (p.bits 11 5) (p.bits 5 3))
  else if p.bits 8 3 = 0#3 ∧ p.bits 0 5 = 21#5 then
    some (.vmsgtX p.a p.b (p.bits 11 5) (p.bits 5 3))
  else if p.bits 8 3 = 0#3 ∧ p.bits 0 5 = 22#5 then
    some (.vmsgtuX p.a p.b (p.bits 11 5) (p.bits 5 3))
  else if p.b = 0#5 ∧ p.bits 8 3 = 0#3 ∧ p.bits 0 5 = 23#5 then
    some (.vmvSX p.a (p.bits 11 5) (p.bits 5 3))
  else if p.bits 8 3 = 0#3 ∧ p.bits 0 5 = 24#5 then
    some (.vslideupX p.a p.b (p.bits 11 5) (p.bits 5 3))
  else if p.bits 8 3 = 0#3 ∧ p.bits 0 5 = 25#5 then
    some (.vslidedownX p.a p.b (p.bits 11 5) (p.bits 5 3))
  else if p.bits 8 3 = 0#3 ∧ p.bits 0 5 = 26#5 then
    some (.vslide1upX p.a p.b (p.bits 11 5) (p.bits 5 3))
  else if p.bits 8 3 = 0#3 ∧ p.bits 0 5 = 27#5 then
    some (.vslide1downX p.a p.b (p.bits 11 5) (p.bits 5 3))
  else none

/-- Major 0x23 (R30). -/
def decodeMajor23 (p : Parts) : Option Instr :=
  if p.bits 8 3 = 0#3 ∧ p.bits 0 5 = 0#5 then
    some (.vmul p.a p.b (p.bits 11 5) (p.bits 5 3))
  else if p.bits 8 3 = 0#3 ∧ p.bits 0 5 = 1#5 then
    some (.vmulh p.a p.b (p.bits 11 5) (p.bits 5 3))
  else if p.bits 8 3 = 0#3 ∧ p.bits 0 5 = 2#5 then
    some (.vmulhu p.a p.b (p.bits 11 5) (p.bits 5 3))
  else if p.bits 8 3 = 0#3 ∧ p.bits 0 5 = 3#5 then
    some (.vmulhsu p.a p.b (p.bits 11 5) (p.bits 5 3))
  else if p.bits 8 3 = 0#3 ∧ p.bits 0 5 = 4#5 then
    some (.vdiv p.a p.b (p.bits 11 5) (p.bits 5 3))
  else if p.bits 8 3 = 0#3 ∧ p.bits 0 5 = 5#5 then
    some (.vdivu p.a p.b (p.bits 11 5) (p.bits 5 3))
  else if p.bits 8 3 = 0#3 ∧ p.bits 0 5 = 6#5 then
    some (.vrem p.a p.b (p.bits 11 5) (p.bits 5 3))
  else if p.bits 8 3 = 0#3 ∧ p.bits 0 5 = 7#5 then
    some (.vremu p.a p.b (p.bits 11 5) (p.bits 5 3))
  else if p.bits 8 3 = 0#3 ∧ p.bits 0 5 = 8#5 then
    some (.vmacc p.a p.b (p.bits 11 5) (p.bits 5 3))
  else if p.bits 8 3 = 0#3 ∧ p.bits 0 5 = 9#5 then
    some (.vnmsac p.a p.b (p.bits 11 5) (p.bits 5 3))
  else if p.bits 8 3 = 0#3 ∧ p.bits 0 5 = 10#5 then
    some (.vwmul p.a p.b (p.bits 11 5) (p.bits 5 3))
  else if p.bits 8 3 = 0#3 ∧ p.bits 0 5 = 11#5 then
    some (.vwmulu p.a p.b (p.bits 11 5) (p.bits 5 3))
  else if p.bits 8 3 = 0#3 ∧ p.bits 0 5 = 12#5 then
    some (.vwmacc p.a p.b (p.bits 11 5) (p.bits 5 3))
  else if p.bits 8 3 = 0#3 ∧ p.bits 0 5 = 13#5 then
    some (.vwmaccu p.a p.b (p.bits 11 5) (p.bits 5 3))
  else if p.bits 8 3 = 0#3 ∧ p.bits 0 5 = 14#5 then
    some (.vnsrl p.a p.b (p.bits 11 5) (p.bits 5 3))
  else if p.bits 8 3 = 0#3 ∧ p.bits 0 5 = 15#5 then
    some (.vnsra p.a p.b (p.bits 11 5) (p.bits 5 3))
  else if p.bits 8 3 = 0#3 ∧ p.bits 0 5 = 16#5 then
    some (.vsadd p.a p.b (p.bits 11 5) (p.bits 5 3))
  else if p.bits 8 3 = 0#3 ∧ p.bits 0 5 = 17#5 then
    some (.vsaddu p.a p.b (p.bits 11 5) (p.bits 5 3))
  else if p.bits 8 3 = 0#3 ∧ p.bits 0 5 = 18#5 then
    some (.vssub p.a p.b (p.bits 11 5) (p.bits 5 3))
  else if p.bits 8 3 = 0#3 ∧ p.bits 0 5 = 19#5 then
    some (.vssubu p.a p.b (p.bits 11 5) (p.bits 5 3))
  else if p.bits 0 5 = 20#5 then
    some (.vsmul p.a p.b (p.bits 11 5) (p.bits 8 3) (p.bits 5 3))
  else if p.bits 0 5 = 21#5 then
    some (.vssrl p.a p.b (p.bits 11 5) (p.bits 8 3) (p.bits 5 3))
  else if p.bits 0 5 = 22#5 then
    some (.vssra p.a p.b (p.bits 11 5) (p.bits 8 3) (p.bits 5 3))
  else if p.bits 0 5 = 23#5 then
    some (.vnclip p.a p.b (p.bits 11 5) (p.bits 8 3) (p.bits 5 3))
  else if p.bits 0 5 = 24#5 then
    some (.vnclipu p.a p.b (p.bits 11 5) (p.bits 8 3) (p.bits 5 3))
  else none

/-- Major 0x24 (R30). -/
def decodeMajor24 (p : Parts) : Option Instr :=
  if p.bits 0 5 = 0#5 then
    some (.vfadd p.a p.b (p.bits 11 5) (p.bits 8 3) (p.bits 5 3))
  else if p.bits 0 5 = 1#5 then
    some (.vfsub p.a p.b (p.bits 11 5) (p.bits 8 3) (p.bits 5 3))
  else if p.bits 0 5 = 2#5 then
    some (.vfmul p.a p.b (p.bits 11 5) (p.bits 8 3) (p.bits 5 3))
  else if p.bits 0 5 = 3#5 then
    some (.vfdiv p.a p.b (p.bits 11 5) (p.bits 8 3) (p.bits 5 3))
  else if p.bits 11 5 = 0#5 ∧ p.bits 0 5 = 4#5 then
    some (.vfsqrt p.a p.b (p.bits 8 3) (p.bits 5 3))
  else if p.bits 0 5 = 5#5 then
    some (.vfmin p.a p.b (p.bits 11 5) (p.bits 8 3) (p.bits 5 3))
  else if p.bits 0 5 = 6#5 then
    some (.vfmax p.a p.b (p.bits 11 5) (p.bits 8 3) (p.bits 5 3))
  else if p.bits 0 5 = 7#5 then
    some (.vfsgnj p.a p.b (p.bits 11 5) (p.bits 8 3) (p.bits 5 3))
  else if p.bits 0 5 = 8#5 then
    some (.vfsgnjn p.a p.b (p.bits 11 5) (p.bits 8 3) (p.bits 5 3))
  else if p.bits 0 5 = 9#5 then
    some (.vfsgnjx p.a p.b (p.bits 11 5) (p.bits 8 3) (p.bits 5 3))
  else if p.bits 0 5 = 10#5 then
    some (.vmfeq p.a p.b (p.bits 11 5) (p.bits 8 3) (p.bits 5 3))
  else if p.bits 0 5 = 11#5 then
    some (.vmflt p.a p.b (p.bits 11 5) (p.bits 8 3) (p.bits 5 3))
  else if p.bits 0 5 = 12#5 then
    some (.vmfle p.a p.b (p.bits 11 5) (p.bits 8 3) (p.bits 5 3))
  else if p.bits 0 5 = 13#5 then
    some (.vmfne p.a p.b (p.bits 11 5) (p.bits 8 3) (p.bits 5 3))
  else if p.bits 11 5 = 0#5 ∧ p.bits 0 5 = 14#5 then
    some (.vfclass p.a p.b (p.bits 8 3) (p.bits 5 3))
  else none

/-- Major 0x25 (R30). -/
def decodeMajor25 (p : Parts) : Option Instr :=
  if p.bits 0 5 = 0#5 then
    some (.vfaddF p.a p.b (p.bits 11 5) (p.bits 8 3) (p.bits 5 3))
  else if p.bits 0 5 = 1#5 then
    some (.vfsubF p.a p.b (p.bits 11 5) (p.bits 8 3) (p.bits 5 3))
  else if p.bits 0 5 = 2#5 then
    some (.vfmulF p.a p.b (p.bits 11 5) (p.bits 8 3) (p.bits 5 3))
  else if p.bits 0 5 = 3#5 then
    some (.vfdivF p.a p.b (p.bits 11 5) (p.bits 8 3) (p.bits 5 3))
  else if p.bits 0 5 = 5#5 then
    some (.vfminF p.a p.b (p.bits 11 5) (p.bits 8 3) (p.bits 5 3))
  else if p.bits 0 5 = 6#5 then
    some (.vfmaxF p.a p.b (p.bits 11 5) (p.bits 8 3) (p.bits 5 3))
  else if p.bits 0 5 = 7#5 then
    some (.vfsgnjF p.a p.b (p.bits 11 5) (p.bits 8 3) (p.bits 5 3))
  else if p.bits 0 5 = 8#5 then
    some (.vfsgnjnF p.a p.b (p.bits 11 5) (p.bits 8 3) (p.bits 5 3))
  else if p.bits 0 5 = 9#5 then
    some (.vfsgnjxF p.a p.b (p.bits 11 5) (p.bits 8 3) (p.bits 5 3))
  else if p.bits 0 5 = 10#5 then
    some (.vmfeqF p.a p.b (p.bits 11 5) (p.bits 8 3) (p.bits 5 3))
  else if p.bits 0 5 = 11#5 then
    some (.vmfltF p.a p.b (p.bits 11 5) (p.bits 8 3) (p.bits 5 3))
  else if p.bits 0 5 = 12#5 then
    some (.vmfleF p.a p.b (p.bits 11 5) (p.bits 8 3) (p.bits 5 3))
  else if p.bits 0 5 = 13#5 then
    some (.vmfneF p.a p.b (p.bits 11 5) (p.bits 8 3) (p.bits 5 3))
  else if p.bits 0 5 = 15#5 then
    some (.vfrsubF p.a p.b (p.bits 11 5) (p.bits 8 3) (p.bits 5 3))
  else if p.bits 0 5 = 16#5 then
    some (.vfrdivF p.a p.b (p.bits 11 5) (p.bits 8 3) (p.bits 5 3))
  else if p.bits 0 5 = 17#5 then
    some (.vmfgtF p.a p.b (p.bits 11 5) (p.bits 8 3) (p.bits 5 3))
  else if p.bits 0 5 = 18#5 then
    some (.vmfgeF p.a p.b (p.bits 11 5) (p.bits 8 3) (p.bits 5 3))
  else none

/-- Major 0x26 (R30). -/
def decodeMajor26 (p : Parts) : Option Instr :=
  if p.bits 0 5 = 0#5 then
    some (.vfmacc p.a p.b (p.bits 11 5) (p.bits 8 3) (p.bits 5 3))
  else if p.bits 0 5 = 1#5 then
    some (.vfnmsac p.a p.b (p.bits 11 5) (p.bits 8 3) (p.bits 5 3))
  else if p.bits 0 5 = 2#5 then
    some (.vfmadd p.a p.b (p.bits 11 5) (p.bits 8 3) (p.bits 5 3))
  else if p.bits 0 5 = 3#5 then
    some (.vfmsub p.a p.b (p.bits 11 5) (p.bits 8 3) (p.bits 5 3))
  else if p.bits 0 5 = 4#5 then
    some (.vfwmacc p.a p.b (p.bits 11 5) (p.bits 8 3) (p.bits 5 3))
  else if p.bits 0 5 = 5#5 then
    some (.vfwnmsac p.a p.b (p.bits 11 5) (p.bits 8 3) (p.bits 5 3))
  else none

/-- Major 0x27 (R30). -/
def decodeMajor27 (p : Parts) : Option Instr :=
  if p.bits 11 5 = 0#5 ∧ p.bits 0 5 = 0#5 then
    some (.vfcvtFF p.a p.b (p.bits 8 3) (p.bits 5 3))
  else if p.bits 11 5 = 0#5 ∧ p.bits 0 5 = 1#5 then
    some (.vfcvtIF p.a p.b (p.bits 8 3) (p.bits 5 3))
  else if p.bits 11 5 = 0#5 ∧ p.bits 0 5 = 2#5 then
    some (.vfcvtFI p.a p.b (p.bits 8 3) (p.bits 5 3))
  else if p.bits 11 5 = 0#5 ∧ p.bits 0 5 = 3#5 then
    some (.vicvt p.a p.b (p.bits 8 3) (p.bits 5 3))
  else if p.bits 0 5 = 4#5 then
    some (.vcvtBlk p.a p.b (p.bits 11 5) (p.bits 8 3) (p.bits 5 3))
  else if p.bits 0 5 = 5#5 then
    some (.vcvtUnblk p.a p.b (p.bits 11 5) (p.bits 8 3) (p.bits 5 3))
  else none

/-- Major 0x28 (R30). -/
def decodeMajor28 (p : Parts) : Option Instr :=
  if p.bits 8 3 = 0#3 ∧ p.bits 0 5 = 0#5 then
    some (.vredsum p.a p.b (p.bits 11 5) (p.bits 5 3))
  else if p.bits 8 3 = 0#3 ∧ p.bits 0 5 = 1#5 then
    some (.vredand p.a p.b (p.bits 11 5) (p.bits 5 3))
  else if p.bits 8 3 = 0#3 ∧ p.bits 0 5 = 2#5 then
    some (.vredor p.a p.b (p.bits 11 5) (p.bits 5 3))
  else if p.bits 8 3 = 0#3 ∧ p.bits 0 5 = 3#5 then
    some (.vredxor p.a p.b (p.bits 11 5) (p.bits 5 3))
  else if p.bits 8 3 = 0#3 ∧ p.bits 0 5 = 4#5 then
    some (.vredmin p.a p.b (p.bits 11 5) (p.bits 5 3))
  else if p.bits 8 3 = 0#3 ∧ p.bits 0 5 = 5#5 then
    some (.vredmax p.a p.b (p.bits 11 5) (p.bits 5 3))
  else if p.bits 8 3 = 0#3 ∧ p.bits 0 5 = 6#5 then
    some (.vredminu p.a p.b (p.bits 11 5) (p.bits 5 3))
  else if p.bits 8 3 = 0#3 ∧ p.bits 0 5 = 7#5 then
    some (.vredmaxu p.a p.b (p.bits 11 5) (p.bits 5 3))
  else if p.bits 8 3 = 0#3 ∧ p.bits 0 5 = 8#5 then
    some (.vwredsum p.a p.b (p.bits 11 5) (p.bits 5 3))
  else if p.bits 8 3 = 0#3 ∧ p.bits 0 5 = 9#5 then
    some (.vwredsumu p.a p.b (p.bits 11 5) (p.bits 5 3))
  else if p.bits 0 5 = 16#5 then
    some (.vfredsum p.a p.b (p.bits 11 5) (p.bits 8 3) (p.bits 5 3))
  else if p.bits 0 5 = 17#5 then
    some (.vfredmin p.a p.b (p.bits 11 5) (p.bits 8 3) (p.bits 5 3))
  else if p.bits 0 5 = 18#5 then
    some (.vfredmax p.a p.b (p.bits 11 5) (p.bits 8 3) (p.bits 5 3))
  else none

/-- Major 0x29 (R30). -/
def decodeMajor29 (p : Parts) : Option Instr :=
  if p.bits 8 3 = 0#3 ∧ p.bits 0 5 = 0#5 then
    some (.vgather p.a p.b (p.bits 11 5) (p.bits 5 3))
  else if p.bits 8 3 = 0#3 ∧ p.bits 0 5 = 1#5 then
    some (.vgathere16 p.a p.b (p.bits 11 5) (p.bits 5 3))
  else if p.bits 8 3 = 0#3 ∧ p.bits 0 5 = 2#5 then
    some (.vslideupV p.a p.b (p.bits 11 5) (p.bits 5 3))
  else if p.bits 8 3 = 0#3 ∧ p.bits 0 5 = 3#5 then
    some (.vslidedownV p.a p.b (p.bits 11 5) (p.bits 5 3))
  else if p.bits 8 8 = 0#8 ∧ p.bits 0 5 = 4#5 then
    some (.vrev p.a p.b (p.bits 5 3))
  else none

/-- Major 0x2A (R30). -/
def decodeMajor2A (p : Parts) : Option Instr :=
  if p.bits 8 8 = 0#8 ∧ p.bits 0 5 = 0#5 then
    some (.vcompress p.a p.b (p.bits 5 3))
  else if p.bits 8 8 = 0#8 ∧ p.bits 0 5 = 1#5 then
    some (.vexpand p.a p.b (p.bits 5 3))
  else if p.b = 0#5 ∧ p.bits 8 8 = 0#8 ∧ p.bits 0 5 = 2#5 then
    some (.vid p.a (p.bits 5 3))
  else if p.bits 8 8 = 0#8 ∧ p.bits 0 5 = 3#5 then
    some (.viota p.a p.b (p.bits 5 3))
  else if p.bits 0 11 = 8#11 then
    some (.vmand p.a p.b (p.bits 11 5))
  else if p.bits 0 11 = 9#11 then
    some (.vmor p.a p.b (p.bits 11 5))
  else if p.bits 0 11 = 10#11 then
    some (.vmxor p.a p.b (p.bits 11 5))
  else if p.bits 0 11 = 11#11 then
    some (.vmandn p.a p.b (p.bits 11 5))
  else if p.bits 0 11 = 12#11 then
    some (.vmorn p.a p.b (p.bits 11 5))
  else if p.bits 0 11 = 13#11 then
    some (.vmnand p.a p.b (p.bits 11 5))
  else if p.bits 0 11 = 14#11 then
    some (.vmnor p.a p.b (p.bits 11 5))
  else if p.bits 0 11 = 15#11 then
    some (.vmxnor p.a p.b (p.bits 11 5))
  else if p.bits 0 16 = 16#16 then
    some (.vmmvMV p.a p.b)
  else if p.bits 0 16 = 17#16 then
    some (.vmmvVM p.a p.b)
  else if p.bits 0 16 = 18#16 then
    some (.vmsel p.a p.b)
  else none

/-- Major 0x2B (R30). -/
def decodeMajor2B (p : Parts) : Option Instr :=
  if p.bits 11 5 = 0#5 ∧ p.bits 0 5 = 0#5 then
    some (.vexp2 p.a p.b (p.bits 8 3) (p.bits 5 3))
  else if p.bits 11 5 = 0#5 ∧ p.bits 0 5 = 1#5 then
    some (.vexp p.a p.b (p.bits 8 3) (p.bits 5 3))
  else if p.bits 11 5 = 0#5 ∧ p.bits 0 5 = 2#5 then
    some (.vlog2 p.a p.b (p.bits 8 3) (p.bits 5 3))
  else if p.bits 11 5 = 0#5 ∧ p.bits 0 5 = 3#5 then
    some (.vrecip p.a p.b (p.bits 8 3) (p.bits 5 3))
  else if p.bits 11 5 = 0#5 ∧ p.bits 0 5 = 4#5 then
    some (.vrsqrt p.a p.b (p.bits 8 3) (p.bits 5 3))
  else if p.bits 11 5 = 0#5 ∧ p.bits 0 5 = 5#5 then
    some (.vtanh p.a p.b (p.bits 8 3) (p.bits 5 3))
  else if p.bits 11 5 = 0#5 ∧ p.bits 0 5 = 6#5 then
    some (.vsigm p.a p.b (p.bits 8 3) (p.bits 5 3))
  else none

/-- Major 0x2C (R30). -/
def decodeMajor2C (p : Parts) : Option Instr :=
  if p.bits 0 16 = 0#16 then
    some (.vmvXS p.a p.b)
  else if p.bits 0 16 = 1#16 then
    some (.vmvXSu p.a p.b)
  else if p.bits 8 8 = 0#8 ∧ p.bits 0 5 = 2#5 then
    some (.vcpopM p.a p.b (p.bits 5 3))
  else if p.bits 8 8 = 0#8 ∧ p.bits 0 5 = 3#5 then
    some (.vfirstM p.a p.b (p.bits 5 3))
  else none

/-- Major 0x30 (R30). -/
def decodeMajor30 (p : Parts) : Option Instr :=
  if p.bits 11 5 = 0#5 ∧ p.bits 3 1 = 0#1 then
    some (.vld p.a p.b (p.bits 7 4) (p.bits 5 2) (p.bits 4 1) (p.bits 0 3))
  else if p.bits 15 1 = 0#1 ∧ p.bits 3 1 = 0#1 ∧ (p.bits 11 4) ≠ 0 then
    some (.vldTmap p.a p.b (p.bits 11 4) (p.bits 7 4) (p.bits 5 2) (p.bits 4 1) (p.bits 0 3))
  else if p.b = 0#5 ∧ p.bits 15 1 = 1#1 ∧ p.bits 0 11 = 0#11 then
    some (.vldSq p.a (p.bits 11 4))
  else none

/-- Major 0x31 (R30). -/
def decodeMajor31 (p : Parts) : Option Instr :=
  if p.bits 11 5 = 0#5 then
    some (.vst p.a p.b (p.bits 7 4) (p.bits 5 2) (p.bits 4 1) (p.bits 3 1) (p.bits 0 3))
  else if p.bits 15 1 = 0#1 ∧ (p.bits 11 4) ≠ 0 then
    some (.vstTmap p.a p.b (p.bits 11 4) (p.bits 7 4) (p.bits 5 2) (p.bits 4 1) (p.bits 3 1) (p.bits 0 3))
  else if p.b = 0#5 ∧ p.bits 15 1 = 1#1 ∧ p.bits 0 11 = 0#11 then
    some (.vstSq p.a (p.bits 11 4))
  else none

/-- Major 0x32 (R30). -/
def decodeMajor32 (p : Parts) : Option Instr :=
  if p.bits 11 5 = 0#5 ∧ p.bits 3 1 = 0#1 then
    some (.vldP6 p.a p.b (p.bits 7 4) (p.bits 5 2) (p.bits 4 1) (p.bits 0 3))
  else if p.bits 3 1 = 0#1 ∧ (p.bits 11 5) ≠ 0 then
    some (.vlds p.a p.b (p.bits 11 5) (p.bits 7 4) (p.bits 5 2) (p.bits 4 1) (p.bits 0 3))
  else none

/-- Major 0x33 (R30). -/
def decodeMajor33 (p : Parts) : Option Instr :=
  if p.bits 11 5 = 0#5 then
    some (.vstP6 p.a p.b (p.bits 7 4) (p.bits 5 2) (p.bits 4 1) (p.bits 3 1) (p.bits 0 3))
  else if (p.bits 11 5) ≠ 0 then
    some (.vsts p.a p.b (p.bits 11 5) (p.bits 7 4) (p.bits 5 2) (p.bits 4 1) (p.bits 3 1) (p.bits 0 3))
  else none

/-- Major 0x34 (R30). -/
def decodeMajor34 (p : Parts) : Option Instr :=
  if p.bits 3 1 = 0#1 then
    some (.vldx p.a p.b (p.bits 11 5) (p.bits 7 4) (p.bits 5 2) (p.bits 4 1) (p.bits 0 3))
  else none

/-- Major 0x35 (R30). -/
def decodeMajor35 (p : Parts) : Option Instr :=
  some (.vstx p.a p.b (p.bits 11 5) (p.bits 7 4) (p.bits 5 2) (p.bits 4 1) (p.bits 3 1) (p.bits 0 3))

/-- Major 0x36 (R30). -/
def decodeMajor36 (p : Parts) : Option Instr :=
  if p.bits 0 8 = 0#8 then
    some (.settile p.a p.b (p.bits 11 5) (p.bits 8 3))
  else if p.b = 0#5 ∧ p.bits 2 14 = 4#14 ∧ (((p.bits 1 1) = 0 → p.a = 0) ∧ ((p.bits 1 1) = 1 → (p.bits 0 1) = 1)) then
    some (.modeM p.a (p.bits 1 1) (p.bits 0 1))
  else if p.b = 0#5 ∧ p.bits 0 16 = 32#16 then
    some (.modeV p.a)
  else if p.b = 0#5 ∧ p.bits 0 16 = 48#16 then
    some (.mdrain p.a)
  else if p.b = 0#5 ∧ p.bits 11 5 = 0#5 ∧ p.bits 0 8 = 49#8 then
    some (.mdrainN p.a (p.bits 8 3))
  else if p.bits 0 11 = 64#11 then
    some (.mchain p.a p.b (p.bits 11 5))
  else if p.a = 0#5 ∧ p.b = 0#5 ∧ p.bits 0 16 = 80#16 then
    some (.msync)
  else none

/-- Major 0x37 (R30). -/
def decodeMajor37 (p : Parts) : Option Instr :=
  if p.bits 1 7 = 0#7 then
    some (.mma p.a p.b (p.bits 11 5) (p.bits 8 3) (p.bits 0 1))
  else none

/-- Major 0x38 (R30). -/
def decodeMajor38 (p : Parts) : Option Instr :=
  if p.bits 3 5 = 0#5 then
    some (.smma p.a p.b (p.bits 11 5) (p.bits 8 3) (p.bits 2 1) (p.bits 0 2))
  else none

/-- Major 0x39 (R30). -/
def decodeMajor39 (p : Parts) : Option Instr :=
  if p.bits 0 8 = 0#8 then
    some (.mldA p.a p.b (p.bits 11 5) (p.bits 8 3))
  else if p.bits 0 8 = 16#8 then
    some (.mldB p.a p.b (p.bits 11 5) (p.bits 8 3))
  else if p.bits 0 8 = 32#8 then
    some (.mldM p.a p.b (p.bits 11 5) (p.bits 8 3))
  else if p.bits 4 7 = 3#7 then
    some (.mldR p.a p.b (p.bits 11 5) (p.bits 0 4))
  else none

/-- Major 0x3A (R30). -/
def decodeMajor3A (p : Parts) : Option Instr :=
  if p.b = 0#5 ∧ p.bits 0 16 = 0#16 then
    some (.mzero p.a)
  else if p.a = 0#5 ∧ p.b = 0#5 ∧ p.bits 0 16 = 16#16 then
    some (.mzeroc)
  else if p.bits 11 5 = 0#5 ∧ p.bits 1 7 = 16#7 then
    some (.mskew p.a p.b (p.bits 8 3) (p.bits 0 1))
  else if p.bits 11 5 = 0#5 ∧ p.bits 1 7 = 24#7 then
    some (.mdskew p.a p.b (p.bits 8 3) (p.bits 0 1))
  else none

/-- Major 0x3C (R30). -/
def decodeMajor3C (p : Parts) : Option Instr :=
  if p.bits 6 5 = 0#5 ∧ p.bits 0 2 = 0#2 then
    some (.copy p.a p.b (p.bits 11 5) (p.bits 5 1) (p.bits 4 1) (p.bits 2 2))
  else if p.bits 5 6 = 0#6 ∧ p.bits 0 2 = 1#2 then
    some (.fill p.a p.b (p.bits 11 5) (p.bits 4 1) (p.bits 2 2))
  else none

/-- Major 0x3D (R30). -/
def decodeMajor3D (p : Parts) : Option Instr :=
  if p.bits 0 11 = 0#11 then
    some (.chain p.a p.b (p.bits 11 5))
  else if p.b.extractLsb' 4 1 = 0#1 ∧ p.bits 0 11 = 1#11 then
    some (.qfence p.a (p.b.extractLsb' 0 4) (p.bits 11 5))
  else if p.bits 0 16 = 16#16 then
    some (.sopen p.a p.b)
  else if p.bits 0 16 = 17#16 then
    some (.sclose p.a p.b)
  else if p.b = 0#5 ∧ p.bits 0 11 = 18#11 then
    some (.savail p.a (p.bits 11 5))
  else none

/-- Major 0x3E (R30). -/
def decodeMajor3E (p : Parts) : Option Instr :=
  if p.bits 0 16 = 0#16 then
    some (.coll p.a p.b)
  else if p.bits 0 16 = 1#16 then
    some (.collX p.a p.b)
  else none

/-- The instruction of the parts of a word, none for a word that conditions 1 to 3 of R34 reject. -/
def decodeParts (p : Parts) : Option Instr :=
  if p.major = 0x01#6 then decodeMajor01 p
  else if p.major = 0x02#6 then decodeMajor02 p
  else if p.major = 0x03#6 then decodeMajor03 p
  else if p.major = 0x04#6 then decodeMajor04 p
  else if p.major = 0x05#6 then decodeMajor05 p
  else if p.major = 0x06#6 then decodeMajor06 p
  else if p.major = 0x07#6 then decodeMajor07 p
  else if p.major = 0x08#6 then decodeMajor08 p
  else if p.major = 0x09#6 then decodeMajor09 p
  else if p.major = 0x0A#6 then decodeMajor0A p
  else if p.major = 0x0B#6 then decodeMajor0B p
  else if p.major = 0x0C#6 then decodeMajor0C p
  else if p.major = 0x0D#6 then decodeMajor0D p
  else if p.major = 0x0E#6 then decodeMajor0E p
  else if p.major = 0x0F#6 then decodeMajor0F p
  else if p.major = 0x10#6 then decodeMajor10 p
  else if p.major = 0x11#6 then decodeMajor11 p
  else if p.major = 0x12#6 then decodeMajor12 p
  else if p.major = 0x13#6 then decodeMajor13 p
  else if p.major = 0x14#6 then decodeMajor14 p
  else if p.major = 0x15#6 then decodeMajor15 p
  else if p.major = 0x16#6 then decodeMajor16 p
  else if p.major = 0x17#6 then decodeMajor17 p
  else if p.major = 0x18#6 then decodeMajor18 p
  else if p.major = 0x19#6 then decodeMajor19 p
  else if p.major = 0x1A#6 then decodeMajor1A p
  else if p.major = 0x1B#6 then decodeMajor1B p
  else if p.major = 0x1C#6 then decodeMajor1C p
  else if p.major = 0x1D#6 then decodeMajor1D p
  else if p.major = 0x1E#6 then decodeMajor1E p
  else if p.major = 0x1F#6 then decodeMajor1F p
  else if p.major = 0x20#6 then decodeMajor20 p
  else if p.major = 0x21#6 then decodeMajor21 p
  else if p.major = 0x22#6 then decodeMajor22 p
  else if p.major = 0x23#6 then decodeMajor23 p
  else if p.major = 0x24#6 then decodeMajor24 p
  else if p.major = 0x25#6 then decodeMajor25 p
  else if p.major = 0x26#6 then decodeMajor26 p
  else if p.major = 0x27#6 then decodeMajor27 p
  else if p.major = 0x28#6 then decodeMajor28 p
  else if p.major = 0x29#6 then decodeMajor29 p
  else if p.major = 0x2A#6 then decodeMajor2A p
  else if p.major = 0x2B#6 then decodeMajor2B p
  else if p.major = 0x2C#6 then decodeMajor2C p
  else if p.major = 0x30#6 then decodeMajor30 p
  else if p.major = 0x31#6 then decodeMajor31 p
  else if p.major = 0x32#6 then decodeMajor32 p
  else if p.major = 0x33#6 then decodeMajor33 p
  else if p.major = 0x34#6 then decodeMajor34 p
  else if p.major = 0x35#6 then decodeMajor35 p
  else if p.major = 0x36#6 then decodeMajor36 p
  else if p.major = 0x37#6 then decodeMajor37 p
  else if p.major = 0x38#6 then decodeMajor38 p
  else if p.major = 0x39#6 then decodeMajor39 p
  else if p.major = 0x3A#6 then decodeMajor3A p
  else if p.major = 0x3C#6 then decodeMajor3C p
  else if p.major = 0x3D#6 then decodeMajor3D p
  else if p.major = 0x3E#6 then decodeMajor3E p
  else none

/-- The decoder (R24, R34). It refuses every word that no row assigns. -/
def decode (w : BitVec 32) : Option Instr := decodeParts (partsOfWord w)

/-- The parts of the word of an instruction, none for an event. -/
def Instr.parts (i : Instr) : Option Parts :=
  match i with
  | .add d a b => some ⟨0x01#6, d, a, b ++ 0#11⟩
  | .sub d a b => some ⟨0x01#6, d, a, b ++ 1#11⟩
  | .and d a b => some ⟨0x01#6, d, a, b ++ 2#11⟩
  | .or d a b => some ⟨0x01#6, d, a, b ++ 3#11⟩
  | .xor d a b => some ⟨0x01#6, d, a, b ++ 4#11⟩
  | .sll d a b => some ⟨0x01#6, d, a, b ++ 5#11⟩
  | .srl d a b => some ⟨0x01#6, d, a, b ++ 6#11⟩
  | .sra d a b => some ⟨0x01#6, d, a, b ++ 7#11⟩
  | .slt d a b => some ⟨0x01#6, d, a, b ++ 8#11⟩
  | .sltu d a b => some ⟨0x01#6, d, a, b ++ 9#11⟩
  | .min d a b => some ⟨0x01#6, d, a, b ++ 10#11⟩
  | .max d a b => some ⟨0x01#6, d, a, b ++ 11#11⟩
  | .minu d a b => some ⟨0x01#6, d, a, b ++ 12#11⟩
  | .maxu d a b => some ⟨0x01#6, d, a, b ++ 13#11⟩
  | .addi d a i => some ⟨0x02#6, d, a, i⟩
  | .andi d a i => some ⟨0x03#6, d, a, i⟩
  | .ori d a i => some ⟨0x04#6, d, a, i⟩
  | .xori d a i => some ⟨0x05#6, d, a, i⟩
  | .lhi d i => some ⟨0x06#6, d, 0#5, i⟩
  | .lpc d i => some ⟨0x07#6, d, 0#5, i⟩
  | .mul d a b => some ⟨0x08#6, d, a, b ++ 0#11⟩
  | .mulh d a b => some ⟨0x08#6, d, a, b ++ 1#11⟩
  | .mulhu d a b => some ⟨0x08#6, d, a, b ++ 2#11⟩
  | .mulhsu d a b => some ⟨0x08#6, d, a, b ++ 3#11⟩
  | .div d a b => some ⟨0x08#6, d, a, b ++ 4#11⟩
  | .divu d a b => some ⟨0x08#6, d, a, b ++ 5#11⟩
  | .rem d a b => some ⟨0x08#6, d, a, b ++ 6#11⟩
  | .remu d a b => some ⟨0x08#6, d, a, b ++ 7#11⟩
  | .slli d a s => some ⟨0x09#6, d, a, 0#10 ++ s⟩
  | .srli d a s => some ⟨0x09#6, d, a, 1#10 ++ s⟩
  | .srai d a s => some ⟨0x09#6, d, a, 2#10 ++ s⟩
  | .rori d a s => some ⟨0x09#6, d, a, 3#10 ++ s⟩
  | .slti d a i => some ⟨0x09#6, d, a, i.extractLsb' 6 5 ++ 4#5 ++ i.extractLsb' 0 6⟩
  | .sltiu d a i => some ⟨0x09#6, d, a, i.extractLsb' 6 5 ++ 5#5 ++ i.extractLsb' 0 6⟩
  | .seqi d a i => some ⟨0x09#6, d, a, i.extractLsb' 6 5 ++ 6#5 ++ i.extractLsb' 0 6⟩
  | .clz d a => some ⟨0x09#6, d, a, 512#16⟩
  | .ctz d a => some ⟨0x09#6, d, a, 576#16⟩
  | .cpop d a => some ⟨0x09#6, d, a, 640#16⟩
  | .rev8 d a => some ⟨0x09#6, d, a, 704#16⟩
  | .brev d a => some ⟨0x09#6, d, a, 768#16⟩
  | .sextB d a => some ⟨0x09#6, d, a, 832#16⟩
  | .sextH d a => some ⟨0x09#6, d, a, 896#16⟩
  | .sextW d a => some ⟨0x09#6, d, a, 960#16⟩
  | .zextW d a => some ⟨0x09#6, d, a, 1024#16⟩
  | .andn d a b => some ⟨0x09#6, d, a, b ++ 1088#11⟩
  | .orn d a b => some ⟨0x09#6, d, a, b ++ 1152#11⟩
  | .xnor d a b => some ⟨0x09#6, d, a, b ++ 1216#11⟩
  | .rol d a b => some ⟨0x09#6, d, a, b ++ 1280#11⟩
  | .ror d a b => some ⟨0x09#6, d, a, b ++ 1344#11⟩
  | .fadd d a b => some ⟨0x0A#6, d, a, b ++ 0#11⟩
  | .fsub d a b => some ⟨0x0A#6, d, a, b ++ 1#11⟩
  | .fmul d a b => some ⟨0x0A#6, d, a, b ++ 2#11⟩
  | .fdiv d a b => some ⟨0x0A#6, d, a, b ++ 3#11⟩
  | .fsqrt d a => some ⟨0x0A#6, d, a, 4#16⟩
  | .fmin d a b => some ⟨0x0A#6, d, a, b ++ 5#11⟩
  | .fmax d a b => some ⟨0x0A#6, d, a, b ++ 6#11⟩
  | .fma d a b => some ⟨0x0A#6, d, a, b ++ 7#11⟩
  | .fnma d a b => some ⟨0x0A#6, d, a, b ++ 8#11⟩
  | .feq d a b => some ⟨0x0B#6, d, a, b ++ 0#11⟩
  | .flt d a b => some ⟨0x0B#6, d, a, b ++ 1#11⟩
  | .fle d a b => some ⟨0x0B#6, d, a, b ++ 2#11⟩
  | .fclass d a => some ⟨0x0B#6, d, a, 3#16⟩
  | .fcvtFF d a => some ⟨0x0B#6, d, a, 4#16⟩
  | .fcvtIF d a => some ⟨0x0B#6, d, a, 5#16⟩
  | .fcvtFI d a => some ⟨0x0B#6, d, a, 6#16⟩
  | .fneg d a => some ⟨0x0B#6, d, a, 7#16⟩
  | .fabs d a => some ⟨0x0B#6, d, a, 8#16⟩
  | .beq a b o => some ⟨0x0C#6, a, b, o⟩
  | .bne a b o => some ⟨0x0D#6, a, b, o⟩
  | .jal d o => some ⟨0x0E#6, d, (o.extractLsb' 16 5), o.extractLsb' 0 16⟩
  | .jalr d a => some ⟨0x0F#6, d, a, 0#16⟩
  | .callV a => some ⟨0x0F#6, 0#5, a, 1#16⟩
  | .retV => some ⟨0x0F#6, 0#5, 0#5, 2#16⟩
  | .gret => some ⟨0x0F#6, 0#5, 0#5, 3#16⟩
  | .ld d a c o => some ⟨0x10#6, d, a, c ++ o⟩
  | .lw d a c o => some ⟨0x11#6, d, a, c ++ o⟩
  | .sd d a c o => some ⟨0x12#6, d, a, c ++ o⟩
  | .sw d a c o => some ⟨0x13#6, d, a, c ++ o⟩
  | .lb d a b c h l => some ⟨0x14#6, d, a, b ++ c ++ h ++ l ++ 0#4⟩
  | .lbu d a b c h l => some ⟨0x14#6, d, a, b ++ c ++ h ++ l ++ 1#4⟩
  | .lh d a b c h l => some ⟨0x14#6, d, a, b ++ c ++ h ++ l ++ 2#4⟩
  | .lhu d a b c h l => some ⟨0x14#6, d, a, b ++ c ++ h ++ l ++ 3#4⟩
  | .lwx d a b c h l => some ⟨0x14#6, d, a, b ++ c ++ h ++ l ++ 4#4⟩
  | .lwux d a b c h l => some ⟨0x14#6, d, a, b ++ c ++ h ++ l ++ 5#4⟩
  | .ldx d a b c h l => some ⟨0x14#6, d, a, b ++ c ++ h ++ l ++ 6#4⟩
  | .sb d a b c h l => some ⟨0x14#6, d, a, b ++ c ++ h ++ l ++ 8#4⟩
  | .sh d a b c h l => some ⟨0x14#6, d, a, b ++ c ++ h ++ l ++ 9#4⟩
  | .swx d a b c h l => some ⟨0x14#6, d, a, b ++ c ++ h ++ l ++ 10#4⟩
  | .sdx d a b c h l => some ⟨0x14#6, d, a, b ++ c ++ h ++ l ++ 11#4⟩
  | .lwAq d a b c s => some ⟨0x14#6, d, a, b ++ c ++ s ++ 12#5⟩
  | .ldAq d a b c s => some ⟨0x14#6, d, a, b ++ c ++ s ++ 13#5⟩
  | .swRl d a b c s => some ⟨0x14#6, d, a, b ++ c ++ s ++ 14#5⟩
  | .sdRl d a b c s => some ⟨0x14#6, d, a, b ++ c ++ s ++ 15#5⟩
  | .amoswap d a b c w => some ⟨0x15#6, d, a, b ++ c ++ 0#2 ++ w ++ 0#4⟩
  | .amoadd d a b c w => some ⟨0x15#6, d, a, b ++ c ++ 0#2 ++ w ++ 1#4⟩
  | .amoand d a b c w => some ⟨0x15#6, d, a, b ++ c ++ 0#2 ++ w ++ 2#4⟩
  | .amoor d a b c w => some ⟨0x15#6, d, a, b ++ c ++ 0#2 ++ w ++ 3#4⟩
  | .amoxor d a b c w => some ⟨0x15#6, d, a, b ++ c ++ 0#2 ++ w ++ 4#4⟩
  | .amomin d a b c w => some ⟨0x15#6, d, a, b ++ c ++ 0#2 ++ w ++ 5#4⟩
  | .amomax d a b c w => some ⟨0x15#6, d, a, b ++ c ++ 0#2 ++ w ++ 6#4⟩
  | .amominu d a b c w => some ⟨0x15#6, d, a, b ++ c ++ 0#2 ++ w ++ 7#4⟩
  | .amomaxu d a b c w => some ⟨0x15#6, d, a, b ++ c ++ 0#2 ++ w ++ 8#4⟩
  | .amocas d a b c w => some ⟨0x15#6, d, a, b ++ c ++ 0#2 ++ w ++ 9#4⟩
  | .fenceAq a s => some ⟨0x16#6, 0#5, a, 1#14 ++ s⟩
  | .fenceRl a s => some ⟨0x16#6, 0#5, a, 2#14 ++ s⟩
  | .fence a s => some ⟨0x16#6, 0#5, a, 3#14 ++ s⟩
  | .fenceSc d => some ⟨0x16#6, d, 0#5, 16#16⟩
  | .fenceI => some ⟨0x16#6, 0#5, 0#5, 32#16⟩
  | .wlarm a => some ⟨0x17#6, 0#5, a, 0#16⟩
  | .wlwait d b => some ⟨0x17#6, d, 0#5, b ++ 1#11⟩
  | .rcPost a b => some ⟨0x17#6, 0#5, a, b ++ 2#11⟩
  | .chint a p => some ⟨0x17#6, 0#5, a, p ++ 3#11⟩
  | .cwb a => some ⟨0x17#6, 0#5, a, 4#16⟩
  | .cdrop a => some ⟨0x17#6, 0#5, a, 5#16⟩
  | .csrrw d a s => some ⟨0x18#6, d, a, 0#4 ++ s⟩
  | .csrrs d a s => some ⟨0x18#6, d, a, 1#4 ++ s⟩
  | .csrrc d a s => some ⟨0x18#6, d, a, 2#4 ++ s⟩
  | .csrr d s => some ⟨0x18#6, d, 0#5, 3#4 ++ s⟩
  | .tret => some ⟨0x19#6, 0#5, 0#5, 0#16⟩
  | .tfence => some ⟨0x19#6, 0#5, 0#5, 1#16⟩
  | .ecall => some ⟨0x19#6, 0#5, 0#5, 2#16⟩
  | .wfi => some ⟨0x19#6, 0#5, 0#5, 3#16⟩
  | .gate k => some ⟨0x1A#6, 0#5, 0#5, 0#8 ++ k⟩
  | .ebreak => some ⟨0x1B#6, 0#5, 0#5, 0#16⟩
  | .rring d a k => some ⟨0x1B#6, d, a, k ++ 1#11⟩
  | .tmark a => some ⟨0x1B#6, 0#5, a, 2#16⟩
  | .enq d a b => some ⟨0x1C#6, d, a, b ++ 0#11⟩
  | .spawn d a => some ⟨0x1C#6, d, a, 1#16⟩
  | .join d a => some ⟨0x1C#6, d, a, 2#16⟩
  | .exit => some ⟨0x1C#6, 0#5, 0#5, 3#16⟩
  | .yield => some ⟨0x1C#6, 0#5, 0#5, 4#16⟩
  | .bar => some ⟨0x1D#6, 0#5, 0#5, 0#16⟩
  | .barS => some ⟨0x1D#6, 0#5, 0#5, 1#16⟩
  | .ginfo d k => some ⟨0x1D#6, d, 0#5, k ++ 2#11⟩
  | .lcount a l => some ⟨0x1E#6, 0#5, a, 0#13 ++ l⟩
  | .lstride d a s l => some ⟨0x1E#6, d, a, 512#12 ++ s ++ l⟩
  | .lflags d a => some ⟨0x1E#6, d, a, 16384#16⟩
  | .loop g n => some ⟨0x1E#6, 0#5, 0#5, 48#7 ++ g ++ n⟩
  | .vdefer d a b m => some ⟨0x1F#6, d, a, b ++ 0#3 ++ m ++ 0#5⟩
  | .vdrain d a b => some ⟨0x1F#6, d, a, b ++ 1#11⟩
  | .setvl d a g l e => some ⟨0x20#6, d, a, 0#10 ++ g ++ l ++ e⟩
  | .setvlmax d g l e => some ⟨0x20#6, d, 0#5, 1#10 ++ g ++ l ++ e⟩
  | .setvli d n g l e => some ⟨0x20#6, d, 0#5, n ++ 2#2 ++ g ++ l ++ e⟩
  | .vadd d a b m => some ⟨0x21#6, d, a, b ++ 0#3 ++ m ++ 0#5⟩
  | .vsub d a b m => some ⟨0x21#6, d, a, b ++ 0#3 ++ m ++ 1#5⟩
  | .vand d a b m => some ⟨0x21#6, d, a, b ++ 0#3 ++ m ++ 2#5⟩
  | .vor d a b m => some ⟨0x21#6, d, a, b ++ 0#3 ++ m ++ 3#5⟩
  | .vxor d a b m => some ⟨0x21#6, d, a, b ++ 0#3 ++ m ++ 4#5⟩
  | .vsll d a b m => some ⟨0x21#6, d, a, b ++ 0#3 ++ m ++ 5#5⟩
  | .vsrl d a b m => some ⟨0x21#6, d, a, b ++ 0#3 ++ m ++ 6#5⟩
  | .vsra d a b m => some ⟨0x21#6, d, a, b ++ 0#3 ++ m ++ 7#5⟩
  | .vmin d a b m => some ⟨0x21#6, d, a, b ++ 0#3 ++ m ++ 8#5⟩
  | .vmax d a b m => some ⟨0x21#6, d, a, b ++ 0#3 ++ m ++ 9#5⟩
  | .vminu d a b m => some ⟨0x21#6, d, a, b ++ 0#3 ++ m ++ 10#5⟩
  | .vmaxu d a b m => some ⟨0x21#6, d, a, b ++ 0#3 ++ m ++ 11#5⟩
  | .vmseq d a b m => some ⟨0x21#6, d, a, b ++ 0#3 ++ m ++ 12#5⟩
  | .vmsne d a b m => some ⟨0x21#6, d, a, b ++ 0#3 ++ m ++ 13#5⟩
  | .vmslt d a b m => some ⟨0x21#6, d, a, b ++ 0#3 ++ m ++ 14#5⟩
  | .vmsltu d a b m => some ⟨0x21#6, d, a, b ++ 0#3 ++ m ++ 15#5⟩
  | .vmsle d a b m => some ⟨0x21#6, d, a, b ++ 0#3 ++ m ++ 16#5⟩
  | .vmsleu d a b m => some ⟨0x21#6, d, a, b ++ 0#3 ++ m ++ 17#5⟩
  | .vmerge d a b m => some ⟨0x21#6, d, a, b ++ 0#3 ++ m ++ 18#5⟩
  | .vmvVV d a m => some ⟨0x21#6, d, a, 0#8 ++ m ++ 19#5⟩
  | .vaddX d a b m => some ⟨0x22#6, d, a, b ++ 0#3 ++ m ++ 0#5⟩
  | .vsubX d a b m => some ⟨0x22#6, d, a, b ++ 0#3 ++ m ++ 1#5⟩
  | .vandX d a b m => some ⟨0x22#6, d, a, b ++ 0#3 ++ m ++ 2#5⟩
  | .vorX d a b m => some ⟨0x22#6, d, a, b ++ 0#3 ++ m ++ 3#5⟩
  | .vxorX d a b m => some ⟨0x22#6, d, a, b ++ 0#3 ++ m ++ 4#5⟩
  | .vsllX d a b m => some ⟨0x22#6, d, a, b ++ 0#3 ++ m ++ 5#5⟩
  | .vsrlX d a b m => some ⟨0x22#6, d, a, b ++ 0#3 ++ m ++ 6#5⟩
  | .vsraX d a b m => some ⟨0x22#6, d, a, b ++ 0#3 ++ m ++ 7#5⟩
  | .vminX d a b m => some ⟨0x22#6, d, a, b ++ 0#3 ++ m ++ 8#5⟩
  | .vmaxX d a b m => some ⟨0x22#6, d, a, b ++ 0#3 ++ m ++ 9#5⟩
  | .vminuX d a b m => some ⟨0x22#6, d, a, b ++ 0#3 ++ m ++ 10#5⟩
  | .vmaxuX d a b m => some ⟨0x22#6, d, a, b ++ 0#3 ++ m ++ 11#5⟩
  | .vmseqX d a b m => some ⟨0x22#6, d, a, b ++ 0#3 ++ m ++ 12#5⟩
  | .vmsneX d a b m => some ⟨0x22#6, d, a, b ++ 0#3 ++ m ++ 13#5⟩
  | .vmsltX d a b m => some ⟨0x22#6, d, a, b ++ 0#3 ++ m ++ 14#5⟩
  | .vmsltuX d a b m => some ⟨0x22#6, d, a, b ++ 0#3 ++ m ++ 15#5⟩
  | .vmsleX d a b m => some ⟨0x22#6, d, a, b ++ 0#3 ++ m ++ 16#5⟩
  | .vmsleuX d a b m => some ⟨0x22#6, d, a, b ++ 0#3 ++ m ++ 17#5⟩
  | .vmergeX d a b m => some ⟨0x22#6, d, a, b ++ 0#3 ++ m ++ 18#5⟩
  | .vmvVX d b m => some ⟨0x22#6, d, 0#5, b ++ 0#3 ++ m ++ 19#5⟩
  | .vrsubX d a b m => some ⟨0x22#6, d, a, b ++ 0#3 ++ m ++ 20#5⟩
  | .vmsgtX d a b m => some ⟨0x22#6, d, a, b ++ 0#3 ++ m ++ 21#5⟩
  | .vmsgtuX d a b m => some ⟨0x22#6, d, a, b ++ 0#3 ++ m ++ 22#5⟩
  | .vmvSX d b m => some ⟨0x22#6, d, 0#5, b ++ 0#3 ++ m ++ 23#5⟩
  | .vslideupX d a b m => some ⟨0x22#6, d, a, b ++ 0#3 ++ m ++ 24#5⟩
  | .vslidedownX d a b m => some ⟨0x22#6, d, a, b ++ 0#3 ++ m ++ 25#5⟩
  | .vslide1upX d a b m => some ⟨0x22#6, d, a, b ++ 0#3 ++ m ++ 26#5⟩
  | .vslide1downX d a b m => some ⟨0x22#6, d, a, b ++ 0#3 ++ m ++ 27#5⟩
  | .vmul d a b m => some ⟨0x23#6, d, a, b ++ 0#3 ++ m ++ 0#5⟩
  | .vmulh d a b m => some ⟨0x23#6, d, a, b ++ 0#3 ++ m ++ 1#5⟩
  | .vmulhu d a b m => some ⟨0x23#6, d, a, b ++ 0#3 ++ m ++ 2#5⟩
  | .vmulhsu d a b m => some ⟨0x23#6, d, a, b ++ 0#3 ++ m ++ 3#5⟩
  | .vdiv d a b m => some ⟨0x23#6, d, a, b ++ 0#3 ++ m ++ 4#5⟩
  | .vdivu d a b m => some ⟨0x23#6, d, a, b ++ 0#3 ++ m ++ 5#5⟩
  | .vrem d a b m => some ⟨0x23#6, d, a, b ++ 0#3 ++ m ++ 6#5⟩
  | .vremu d a b m => some ⟨0x23#6, d, a, b ++ 0#3 ++ m ++ 7#5⟩
  | .vmacc d a b m => some ⟨0x23#6, d, a, b ++ 0#3 ++ m ++ 8#5⟩
  | .vnmsac d a b m => some ⟨0x23#6, d, a, b ++ 0#3 ++ m ++ 9#5⟩
  | .vwmul d a b m => some ⟨0x23#6, d, a, b ++ 0#3 ++ m ++ 10#5⟩
  | .vwmulu d a b m => some ⟨0x23#6, d, a, b ++ 0#3 ++ m ++ 11#5⟩
  | .vwmacc d a b m => some ⟨0x23#6, d, a, b ++ 0#3 ++ m ++ 12#5⟩
  | .vwmaccu d a b m => some ⟨0x23#6, d, a, b ++ 0#3 ++ m ++ 13#5⟩
  | .vnsrl d a b m => some ⟨0x23#6, d, a, b ++ 0#3 ++ m ++ 14#5⟩
  | .vnsra d a b m => some ⟨0x23#6, d, a, b ++ 0#3 ++ m ++ 15#5⟩
  | .vsadd d a b m => some ⟨0x23#6, d, a, b ++ 0#3 ++ m ++ 16#5⟩
  | .vsaddu d a b m => some ⟨0x23#6, d, a, b ++ 0#3 ++ m ++ 17#5⟩
  | .vssub d a b m => some ⟨0x23#6, d, a, b ++ 0#3 ++ m ++ 18#5⟩
  | .vssubu d a b m => some ⟨0x23#6, d, a, b ++ 0#3 ++ m ++ 19#5⟩
  | .vsmul d a b f m => some ⟨0x23#6, d, a, b ++ f ++ m ++ 20#5⟩
  | .vssrl d a b f m => some ⟨0x23#6, d, a, b ++ f ++ m ++ 21#5⟩
  | .vssra d a b f m => some ⟨0x23#6, d, a, b ++ f ++ m ++ 22#5⟩
  | .vnclip d a b f m => some ⟨0x23#6, d, a, b ++ f ++ m ++ 23#5⟩
  | .vnclipu d a b f m => some ⟨0x23#6, d, a, b ++ f ++ m ++ 24#5⟩
  | .vfadd d a b f m => some ⟨0x24#6, d, a, b ++ f ++ m ++ 0#5⟩
  | .vfsub d a b f m => some ⟨0x24#6, d, a, b ++ f ++ m ++ 1#5⟩
  | .vfmul d a b f m => some ⟨0x24#6, d, a, b ++ f ++ m ++ 2#5⟩
  | .vfdiv d a b f m => some ⟨0x24#6, d, a, b ++ f ++ m ++ 3#5⟩
  | .vfsqrt d a f m => some ⟨0x24#6, d, a, 0#5 ++ f ++ m ++ 4#5⟩
  | .vfmin d a b f m => some ⟨0x24#6, d, a, b ++ f ++ m ++ 5#5⟩
  | .vfmax d a b f m => some ⟨0x24#6, d, a, b ++ f ++ m ++ 6#5⟩
  | .vfsgnj d a b f m => some ⟨0x24#6, d, a, b ++ f ++ m ++ 7#5⟩
  | .vfsgnjn d a b f m => some ⟨0x24#6, d, a, b ++ f ++ m ++ 8#5⟩
  | .vfsgnjx d a b f m => some ⟨0x24#6, d, a, b ++ f ++ m ++ 9#5⟩
  | .vmfeq d a b f m => some ⟨0x24#6, d, a, b ++ f ++ m ++ 10#5⟩
  | .vmflt d a b f m => some ⟨0x24#6, d, a, b ++ f ++ m ++ 11#5⟩
  | .vmfle d a b f m => some ⟨0x24#6, d, a, b ++ f ++ m ++ 12#5⟩
  | .vmfne d a b f m => some ⟨0x24#6, d, a, b ++ f ++ m ++ 13#5⟩
  | .vfclass d a f m => some ⟨0x24#6, d, a, 0#5 ++ f ++ m ++ 14#5⟩
  | .vfaddF d a b f m => some ⟨0x25#6, d, a, b ++ f ++ m ++ 0#5⟩
  | .vfsubF d a b f m => some ⟨0x25#6, d, a, b ++ f ++ m ++ 1#5⟩
  | .vfmulF d a b f m => some ⟨0x25#6, d, a, b ++ f ++ m ++ 2#5⟩
  | .vfdivF d a b f m => some ⟨0x25#6, d, a, b ++ f ++ m ++ 3#5⟩
  | .vfminF d a b f m => some ⟨0x25#6, d, a, b ++ f ++ m ++ 5#5⟩
  | .vfmaxF d a b f m => some ⟨0x25#6, d, a, b ++ f ++ m ++ 6#5⟩
  | .vfsgnjF d a b f m => some ⟨0x25#6, d, a, b ++ f ++ m ++ 7#5⟩
  | .vfsgnjnF d a b f m => some ⟨0x25#6, d, a, b ++ f ++ m ++ 8#5⟩
  | .vfsgnjxF d a b f m => some ⟨0x25#6, d, a, b ++ f ++ m ++ 9#5⟩
  | .vmfeqF d a b f m => some ⟨0x25#6, d, a, b ++ f ++ m ++ 10#5⟩
  | .vmfltF d a b f m => some ⟨0x25#6, d, a, b ++ f ++ m ++ 11#5⟩
  | .vmfleF d a b f m => some ⟨0x25#6, d, a, b ++ f ++ m ++ 12#5⟩
  | .vmfneF d a b f m => some ⟨0x25#6, d, a, b ++ f ++ m ++ 13#5⟩
  | .vfrsubF d a b f m => some ⟨0x25#6, d, a, b ++ f ++ m ++ 15#5⟩
  | .vfrdivF d a b f m => some ⟨0x25#6, d, a, b ++ f ++ m ++ 16#5⟩
  | .vmfgtF d a b f m => some ⟨0x25#6, d, a, b ++ f ++ m ++ 17#5⟩
  | .vmfgeF d a b f m => some ⟨0x25#6, d, a, b ++ f ++ m ++ 18#5⟩
  | .vfmacc d a b f m => some ⟨0x26#6, d, a, b ++ f ++ m ++ 0#5⟩
  | .vfnmsac d a b f m => some ⟨0x26#6, d, a, b ++ f ++ m ++ 1#5⟩
  | .vfmadd d a b f m => some ⟨0x26#6, d, a, b ++ f ++ m ++ 2#5⟩
  | .vfmsub d a b f m => some ⟨0x26#6, d, a, b ++ f ++ m ++ 3#5⟩
  | .vfwmacc d a b f m => some ⟨0x26#6, d, a, b ++ f ++ m ++ 4#5⟩
  | .vfwnmsac d a b f m => some ⟨0x26#6, d, a, b ++ f ++ m ++ 5#5⟩
  | .vfcvtFF d a f m => some ⟨0x27#6, d, a, 0#5 ++ f ++ m ++ 0#5⟩
  | .vfcvtIF d a f m => some ⟨0x27#6, d, a, 0#5 ++ f ++ m ++ 1#5⟩
  | .vfcvtFI d a f m => some ⟨0x27#6, d, a, 0#5 ++ f ++ m ++ 2#5⟩
  | .vicvt d a f m => some ⟨0x27#6, d, a, 0#5 ++ f ++ m ++ 3#5⟩
  | .vcvtBlk d a b f m => some ⟨0x27#6, d, a, b ++ f ++ m ++ 4#5⟩
  | .vcvtUnblk d a b f m => some ⟨0x27#6, d, a, b ++ f ++ m ++ 5#5⟩
  | .vredsum d a b m => some ⟨0x28#6, d, a, b ++ 0#3 ++ m ++ 0#5⟩
  | .vredand d a b m => some ⟨0x28#6, d, a, b ++ 0#3 ++ m ++ 1#5⟩
  | .vredor d a b m => some ⟨0x28#6, d, a, b ++ 0#3 ++ m ++ 2#5⟩
  | .vredxor d a b m => some ⟨0x28#6, d, a, b ++ 0#3 ++ m ++ 3#5⟩
  | .vredmin d a b m => some ⟨0x28#6, d, a, b ++ 0#3 ++ m ++ 4#5⟩
  | .vredmax d a b m => some ⟨0x28#6, d, a, b ++ 0#3 ++ m ++ 5#5⟩
  | .vredminu d a b m => some ⟨0x28#6, d, a, b ++ 0#3 ++ m ++ 6#5⟩
  | .vredmaxu d a b m => some ⟨0x28#6, d, a, b ++ 0#3 ++ m ++ 7#5⟩
  | .vwredsum d a b m => some ⟨0x28#6, d, a, b ++ 0#3 ++ m ++ 8#5⟩
  | .vwredsumu d a b m => some ⟨0x28#6, d, a, b ++ 0#3 ++ m ++ 9#5⟩
  | .vfredsum d a b f m => some ⟨0x28#6, d, a, b ++ f ++ m ++ 16#5⟩
  | .vfredmin d a b f m => some ⟨0x28#6, d, a, b ++ f ++ m ++ 17#5⟩
  | .vfredmax d a b f m => some ⟨0x28#6, d, a, b ++ f ++ m ++ 18#5⟩
  | .vgather d a b m => some ⟨0x29#6, d, a, b ++ 0#3 ++ m ++ 0#5⟩
  | .vgathere16 d a b m => some ⟨0x29#6, d, a, b ++ 0#3 ++ m ++ 1#5⟩
  | .vslideupV d a b m => some ⟨0x29#6, d, a, b ++ 0#3 ++ m ++ 2#5⟩
  | .vslidedownV d a b m => some ⟨0x29#6, d, a, b ++ 0#3 ++ m ++ 3#5⟩
  | .vrev d a m => some ⟨0x29#6, d, a, 0#8 ++ m ++ 4#5⟩
  | .vcompress d a m => some ⟨0x2A#6, d, a, 0#8 ++ m ++ 0#5⟩
  | .vexpand d a m => some ⟨0x2A#6, d, a, 0#8 ++ m ++ 1#5⟩
  | .vid d m => some ⟨0x2A#6, d, 0#5, 0#8 ++ m ++ 2#5⟩
  | .viota d a m => some ⟨0x2A#6, d, a, 0#8 ++ m ++ 3#5⟩
  | .vmand d a b => some ⟨0x2A#6, d, a, b ++ 8#11⟩
  | .vmor d a b => some ⟨0x2A#6, d, a, b ++ 9#11⟩
  | .vmxor d a b => some ⟨0x2A#6, d, a, b ++ 10#11⟩
  | .vmandn d a b => some ⟨0x2A#6, d, a, b ++ 11#11⟩
  | .vmorn d a b => some ⟨0x2A#6, d, a, b ++ 12#11⟩
  | .vmnand d a b => some ⟨0x2A#6, d, a, b ++ 13#11⟩
  | .vmnor d a b => some ⟨0x2A#6, d, a, b ++ 14#11⟩
  | .vmxnor d a b => some ⟨0x2A#6, d, a, b ++ 15#11⟩
  | .vmmvMV d a => some ⟨0x2A#6, d, a, 16#16⟩
  | .vmmvVM d a => some ⟨0x2A#6, d, a, 17#16⟩
  | .vmsel i j => some ⟨0x2A#6, i, j, 18#16⟩
  | .vexp2 d a f m => some ⟨0x2B#6, d, a, 0#5 ++ f ++ m ++ 0#5⟩
  | .vexp d a f m => some ⟨0x2B#6, d, a, 0#5 ++ f ++ m ++ 1#5⟩
  | .vlog2 d a f m => some ⟨0x2B#6, d, a, 0#5 ++ f ++ m ++ 2#5⟩
  | .vrecip d a f m => some ⟨0x2B#6, d, a, 0#5 ++ f ++ m ++ 3#5⟩
  | .vrsqrt d a f m => some ⟨0x2B#6, d, a, 0#5 ++ f ++ m ++ 4#5⟩
  | .vtanh d a f m => some ⟨0x2B#6, d, a, 0#5 ++ f ++ m ++ 5#5⟩
  | .vsigm d a f m => some ⟨0x2B#6, d, a, 0#5 ++ f ++ m ++ 6#5⟩
  | .vmvXS d a => some ⟨0x2C#6, d, a, 0#16⟩
  | .vmvXSu d a => some ⟨0x2C#6, d, a, 1#16⟩
  | .vcpopM d a m => some ⟨0x2C#6, d, a, 0#8 ++ m ++ 2#5⟩
  | .vfirstM d a m => some ⟨0x2C#6, d, a, 0#8 ++ m ++ 3#5⟩
  | .vld d a c e l m => some ⟨0x30#6, d, a, 0#5 ++ c ++ e ++ l ++ 0#1 ++ m⟩
  | .vldTmap d a t c e l m => some ⟨0x30#6, d, a, 0#1 ++ t ++ c ++ e ++ l ++ 0#1 ++ m⟩
  | .vldSq d n => some ⟨0x30#6, d, 0#5, 1#1 ++ n ++ 0#11⟩
  | .vst d a c e l r m => some ⟨0x31#6, d, a, 0#5 ++ c ++ e ++ l ++ r ++ m⟩
  | .vstTmap d a t c e l r m => some ⟨0x31#6, d, a, 0#1 ++ t ++ c ++ e ++ l ++ r ++ m⟩
  | .vstSq d n => some ⟨0x31#6, d, 0#5, 1#1 ++ n ++ 0#11⟩
  | .vlds d a b c e l m => some ⟨0x32#6, d, a, b ++ c ++ e ++ l ++ 0#1 ++ m⟩
  | .vldP6 d a c e l m => some ⟨0x32#6, d, a, 0#5 ++ c ++ e ++ l ++ 0#1 ++ m⟩
  | .vsts d a b c e l r m => some ⟨0x33#6, d, a, b ++ c ++ e ++ l ++ r ++ m⟩
  | .vstP6 d a c e l r m => some ⟨0x33#6, d, a, 0#5 ++ c ++ e ++ l ++ r ++ m⟩
  | .vldx d a b c e l m => some ⟨0x34#6, d, a, b ++ c ++ e ++ l ++ 0#1 ++ m⟩
  | .vstx d a b c e l r m => some ⟨0x35#6, d, a, b ++ c ++ e ++ l ++ r ++ m⟩
  | .settile d a b f => some ⟨0x36#6, d, a, b ++ f ++ 0#8⟩
  | .modeM d l s => some ⟨0x36#6, d, 0#5, 4#14 ++ l ++ s⟩
  | .modeV d => some ⟨0x36#6, d, 0#5, 32#16⟩
  | .mdrain d => some ⟨0x36#6, d, 0#5, 48#16⟩
  | .mdrainN d f => some ⟨0x36#6, d, 0#5, 0#5 ++ f ++ 49#8⟩
  | .mchain l p h => some ⟨0x36#6, l, p, h ++ 64#11⟩
  | .msync => some ⟨0x36#6, 0#5, 0#5, 80#16⟩
  | .mma d a b f z => some ⟨0x37#6, d, a, b ++ f ++ 0#7 ++ z⟩
  | .smma d a b f z q => some ⟨0x38#6, d, a, b ++ f ++ 0#5 ++ z ++ q⟩
  | .mldA d a b f => some ⟨0x39#6, d, a, b ++ f ++ 0#8⟩
  | .mldB d a b f => some ⟨0x39#6, d, a, b ++ f ++ 16#8⟩
  | .mldM d a b f => some ⟨0x39#6, d, a, b ++ f ++ 32#8⟩
  | .mldR d a b n => some ⟨0x39#6, d, a, b ++ 3#7 ++ n⟩
  | .mzero d => some ⟨0x3A#6, d, 0#5, 0#16⟩
  | .mzeroc => some ⟨0x3A#6, 0#5, 0#5, 16#16⟩
  | .mskew d a f s => some ⟨0x3A#6, d, a, 0#5 ++ f ++ 16#7 ++ s⟩
  | .mdskew d a f s => some ⟨0x3A#6, d, a, 0#5 ++ f ++ 24#7 ++ s⟩
  | .copy d a b h s q => some ⟨0x3C#6, d, a, b ++ 0#5 ++ h ++ s ++ q ++ 0#2⟩
  | .fill d a b s q => some ⟨0x3C#6, d, a, b ++ 0#6 ++ s ++ q ++ 1#2⟩
  | .chain d a q => some ⟨0x3D#6, d, a, q ++ 0#11⟩
  | .qfence d k q => some ⟨0x3D#6, d, (0#1 ++ k), q ++ 1#11⟩
  | .sopen d a => some ⟨0x3D#6, d, a, 16#16⟩
  | .sclose d a => some ⟨0x3D#6, d, a, 17#16⟩
  | .savail d p => some ⟨0x3D#6, d, 0#5, p ++ 18#11⟩
  | .coll d a => some ⟨0x3E#6, d, a, 0#16⟩
  | .collX d a => some ⟨0x3E#6, d, a, 1#16⟩
  | .interruptEntry _ => none
  | .timerInterrupt _ => none
  | .latchParityError _ _ => none
  | .gangPlacement _ _ => none
  | .gangStart _ => none
  | .recordHold _ => none
  | .schedulerPreemptRequest _ => none
  | .issueWindow _ => none
  | .barrierComplete _ => none
  | .hartResourceRelease _ => none
  | .endOfLaunch _ => none
  | .completionEntry _ => none
  | .forcedStop _ _ => none
  | .replyAbandon _ _ => none
  | .gangSave _ => none
  | .preemptDelivery _ => none
  | .resumption _ _ _ _ => none
  | .chainRendezvous _ => none
  | .wlwaitReturn _ => none
  | .wfiReturn _ => none
  | .streamPortWake _ => none
  | .bridleUpdate _ => none
  | .multicastRelease _ => none
  | .heartbeatTick => none
  | .cacheEviction _ _ => none
  | .compaction _ => none
  | .patrolScrub _ _ => none
  | .hbmRefresh _ _ => none
  | .hbmCalibration _ _ => none
  | .telemetrySampling _ => none
  | .channelService _ _ => none
  | .engineOperation _ _ => none
  | .chainRecord _ _ => none
  | .queueFence _ _ => none
  | .collectiveComplete _ _ => none
  | .haltRequest _ => none
  | .breakpoint _ => none
  | .freeze _ => none
  | .debugResume _ => none
  | .stepComplete _ => none
  | .stepTimeout _ => none
  | .traceStallRelease _ => none
  | .traceGapRecord _ => none
  | .debugPortRead _ _ _ => none
  | .debugPortWrite _ _ _ _ => none
  | .queueDoorbell _ _ _ => none
  | .pree _ _ => none
  | .swint _ _ => none
  | .chead _ _ => none
  | .bar2Write _ _ _ => none
  | .bar2Read _ _ _ => none
  | .hostAtomicop _ _ _ _ _ _ => none
  | .inboundRouteAck _ _ => none
  | .portRestart _ => none
  | .checkpointSave _ => none
  | .checkpointRestore _ => none
  | .checkpointComplete => none
  | .attestationRequest _ => none
  | .attestationReport _ => none
  | .xlatWrite _ _ => none
  | .configBlockWrite _ _ => none
  | .registerWrite _ _ => none
  | .linkGearStep _ _ _ _ _ => none
  | .linkCalibration _ _ => none
  | .linkWindowEnd _ _ => none
  | .flitReplay _ _ => none
  | .linkFullRetrain _ _ _ => none
  | .dataFrame _ _ _ => none
  | .allowanceFrame _ _ _ => none
  | .allowanceSend _ _ => none
  | .frameResend _ => none
  | .portLost _ => none
  | .packageReset => none
  | .droopAlarm _ => none
  | .droopHoldEnd _ => none
  | .powerLimitCheck _ => none
  | .telemetryLine _ => none
  | .smbusReadTelemetry => none
  | .smbusReadMcRecord _ => none
  | .smbusReadBootFailure => none

/-- The word of an instruction; an event has none and gives the all-zero word, which no instruction has. -/
def encode (i : Instr) : BitVec 32 :=
  match i.parts with
  | some p => p.word
  | none => 0

/-- The instruction that the decoder reads from a row's word, its bits numbered as the opcode table numbers
them. Every row has one 32-bit word. -/
def decodeTableWord (nbits w : Nat) : Option Instr :=
  if nbits ≤ 32 then decode (BitVec.ofNat 32 w) else none

end

end Sys2Proof
end

