-- ==== Sys2Proof/Config.lean ====
section
/-! DEFINITION. What the spec leaves open, as constants without a value (log 2), and the sizes of the package. -/

namespace Sys2Proof

/-! Each constant of the first two groups is one choice that the spec leaves open; it takes the number of the step in
which the choice is made, and what the choice is about (log 2). -/

/-! ## Choices that the spec allows -/

/-- A word that the hart has fetched is used although memory differs (R38, R280; log 10): by VA. -/
opaque Config.keepsFetched : Nat → Nat → Bool

/-- Which of the words that writes have replaced a fetch finds; past their end memory's own (R38; log 10): by
VA. -/
opaque Config.whichPrior : Nat → Nat → Nat

/-- Which of the lines that stood before the hart's acquires a load reads whose class they do not order; past their end
the memory of now (R272, R423; log 72): by line. -/
opaque Config.beforeAcquire : Nat → Nat → Nat

/-- The memory-side cache serves a request at once (R235): by address. -/
opaque Config.cacheServes : Nat → Nat → Bool

/-- A dropped reader-count line reads as HBM's value, not as zero (R236; log 9): by line. -/
opaque Config.dropReadsHbm : Nat → Nat → Bool

/-- A read of a dropped reader-count line brings the line in with the value that it returns (R236; log 9): by line. -/
opaque Config.dropSettles : Nat → Nat → Bool

/-- The memory die, of the four that a compute die slot links to, by which an access to host memory goes (R383): by
slot. -/
opaque Config.hostVia : Nat → Nat → Fin 4

/-- The sectors that the compression engine gives a block that is not of one byte value, less one (R237): by block. -/
opaque Config.sectors : Nat → Nat → Fin 16

/-- A cluster-cache line lay in the units that a placement takes for a scratchpad (R232): by line. -/
opaque Config.lineDisplaced : Nat → Nat → Bool

/-- A multicast load takes the data that the network holds, not a read of its own (R169): by source core. -/
opaque Config.takesHeld : Nat → Nat → Bool

/-- A waiting member of an incomplete chain counts to one whose settings disagree (R170; log 27): by hart index. -/
opaque Config.chainMate : Nat → Nat → Bool

/-- The translation, of those that a hart holds and that differ, which an access uses; past their end it walks (R231;
log 11): by VA. -/
opaque Config.whichTranslation : Nat → Nat → Nat

/-- The nanoseconds for which a request waits at the memory-side cache (R380, R381): by address. -/
opaque Config.cacheDelay : Nat → Nat → Nat

/-- The channel of a compressed block's sectors (R237, R380): by block. -/
opaque Config.poolChannel : Nat → Nat → Fin 32

/-- The set of the cluster cache that a line falls in (R232, R234): by line. -/
opaque Config.cacheSet : Nat → Nat

/-- A vector load that the broadcast of a freeze meets is discarded with its reads performed (R257): by core. -/
opaque Config.loadDiscarded : Nat → Nat → Bool

/-- A checkpoint takes, of a word that a host write changes meanwhile, the value before that write; a restore is past the
word when the write lands (R432): by the word's address and the write's place among those of the word. -/
opaque Config.copyPast : Nat → Nat → Nat → Bool

/-- The chunk of an engine operation that is begun next, and the word that is written next of a chunk or of a host's write
(R270, R283, R294). -/
opaque Config.nextChunk : Nat → Nat
opaque Config.nextWord : Nat → Nat

/-- Where in a stream's buffer the bytes of a put or a take lie (R306; log 61): by the buffer's window offset. -/
opaque Config.portSpot : Nat → Nat → Nat

/-- A channel gives an owed floor slot before it must (R380): by channel. -/
opaque Config.floorSlotNow : Nat → Nat → Bool

/-- The reader-count line that a full memory-side cache evicts (R235). -/
opaque Config.readerVictim : Nat → Nat

/-! ## Unspecified values: zero where a constant answers none, else what the reading context may read at an address (R3) -/

/-- A scratchpad byte that nothing has written, or that lies in or is left by a stream's buffer (R212, R307, R314; log 5):
by window offset. -/
opaque Config.windowByte : Nat → Nat → Option Nat

/-- A stream's byte after a plain store into its buffer (R307): by the store's offset and the byte's place. -/
opaque Config.streamByte : Nat → Nat → Nat → Option Nat

/-- The spare half of the last byte that an odd number of 4-bit elements puts into a stream (R306): by byte. -/
opaque Config.spareHalf : Nat → Nat → Option Nat

/-- A byte of a die whose value is unspecified (R234, R303): by home address. -/
opaque Config.looseByte : Nat → Nat → Option Nat

/-- A TCM byte whose value is unspecified (R303): by core and offset. -/
opaque Config.looseTcm : Nat → Nat → Nat → Option Nat

/-- A byte of the opaque part of a save image (R345): by offset. -/
opaque Config.imageByte : Nat → Nat → Byte

/-- A word of the state that a modified image leaves a hart (R346): by hart index and place. -/
opaque Config.alteredWord : Nat → Nat → Nat → Word

/-- A byte of a word of a vector register that a preferred pre-emption point has left unspecified (R129): by the word's
place among those of the registers, and the byte. -/
opaque Config.lostByte : Nat → Nat → Nat → Option Nat

/-- A byte of a destination of a loop's body word that software has changed against R95 (R2): by register and byte. -/
opaque Config.breachedByte : Nat → Nat → Nat → Option Nat

/-- A transcendental result whose enclosure does not decide its rounding (log 24): by element. -/
opaque Config.nearResult : Nat → Nat → Word

/-- A byte of a queue descriptor that a host write against R398 leaves (R2): by address. -/
opaque Config.breachByte : Nat → Nat → Option Nat

/-- A byte of the secret values of the identity key pair that the Scarab engine derives from its fused seed (R430;
log 76). -/
opaque Config.identityByte : List Byte → Nat → Byte

/-- The status word of a checkpoint (R432). -/
opaque Config.checkpointStatus : Nat → Word

/-! ## Time -/

/-- The nanoseconds that pass in a step (log 3). -/
opaque Config.stepNs : Nat → BitVec 32

/-- The core clock edges that a core sees in a step (log 3). -/
opaque Config.stepEdges : Nat → Nat → BitVec 32

/-- The lanes and the array of a core are at work on the edges that it sees in a step (R363; log 3). -/
opaque Config.lanesWork : Nat → Nat → Bool

/-- The class of the other edges that a core sees in a step (R363; log 3). -/
opaque Config.slipClass : Nat → Nat → Fin 6

/-! ## Sizes of the package -/

/-- The size that the host has given a function's BAR2, as a power of two of GiB (R394; log 66). -/
opaque Config.bar2Size : Nat → Fin 10

/-- Compute die slots (R369). -/
def Config.slots : Nat := 6

/-- Enabled clusters (R369). -/
def Config.clusters : Nat := 48

/-- Cores of a cluster (R369). -/
def Config.coresPerCluster : Nat := 16

/-- Enabled cores of the package. -/
def Config.cores : Nat := 768

/-- The boot vector (R425, R428). -/
def Config.bootVector : Word := 0x0000010000001000#64

end Sys2Proof
end

