-- ==== Sys2Proof/Machine/State.lean ====
section
/-! DEFINITION. The state of the package as plain data, its reset value, and the reasons a step can stop. -/

namespace Sys2Proof.Machine

/-- The reasons a run stops in a fault. An access to an address that no rule places takes the access trap of
R222 and R226 and goes on, so no meaning stops here. -/
inductive Fault where
  /-- An address outside the package that a model of another memory map would stop at. Raised by nothing; safe. -/
  | noSuchAddress
  deriving DecidableEq, Repr

/-- The reasons a step has no meaning. -/
inductive Refusal where
  /-- An instruction whose meaning is not written. Raised by nothing, since every instruction has its meaning; safe. -/
  | notModelled (mnemonic : String)
  deriving DecidableEq, Repr

/-! ## Parts of a hart -/

/-- Privilege levels (R16). -/
inductive Priv where
  | user
  | supervisor
  | firmware
  deriving DecidableEq, Repr

/-- Lane grants (R99). -/
inductive Grant where
  | l8
  | l16
  | l24
  | l32
  deriving DecidableEq, Repr

/-- Element widths (R102). -/
inductive Ew where
  | e4
  | e8
  | e16
  | e32
  | e64
  deriving DecidableEq, Repr

/-- A defined type state: element width and grouping 2^lg (R102). -/
structure TypeState where
  ew : Ew
  lg : BitVec 2
  deriving DecidableEq, Repr

/-- The layout of sstat and fstat (R327, R425). -/
structure TrapStat where
  ppriv : BitVec 2
  pgated : Bool
  lp : Bool
  pvprog : BitVec 7
  pie : Bool
  ie : Bool
  nest : Bool
  deriving DecidableEq, Repr

/-- The CSRs a trap writes at one level: scause, sepc, stval and sstat, or the firmware copies (R327, R425), and the
address of the instruction that set the vprog which pvprog keeps (R110); none where software has written the status. -/
structure TrapBank where
  cause : Word
  epc : Word
  tval : Word
  stat : TrapStat
  vpc : Option Word
  deriving DecidableEq, Repr

/-- A vprog that a trap has saved, the address at which it was set, and the cached lines that the instruction there had
touched (R110, R234). -/
structure SavedVprog where
  vprog : BitVec 7
  at_ : Word
  touched : List Nat
  deriving DecidableEq, Repr

/-- A stride slot of a loop level (R91). -/
structure StrideSlot where
  reg : BitVec 5
  stride : Word
  deriving DecidableEq, Repr

/-- A running loop: body words, base address, depth, indices and the position of the current word (R91, R93);
`stale` where a resumption has still to fetch the body again, and the places of the words that it found changed (R95). -/
structure ActiveLoop where
  base : Word
  body : List (BitVec 32)
  depth : Nat
  index : Vector (BitVec 32) 6
  pos : Nat
  stale : Bool
  changed : List Nat
  deriving DecidableEq, Repr

/-- The loop sequencer (R91). A loop that a trap suspended keeps its body and indices; `suspended` tells it
from one that replays words (R330, R334). -/
structure Sequencer where
  counts : Vector (BitVec 32) 6
  slot0 : Vector StrideSlot 6
  slot1 : Vector StrideSlot 6
  first : Word
  last : Word
  loop : Option ActiveLoop
  suspended : Bool
  deriving DecidableEq, Repr

/-- The gate link (R89, R327). -/
structure GateLink where
  pc : Word
  priv : BitVec 2
  mmode : BitVec 2
  deriving DecidableEq, Repr

/-- A record of the deferral queue (R111). -/
structure Deferred where
  index : BitVec 32
  ew : Ew
  values : List Word
  deriving DecidableEq, Repr

/-- Dataflows of the array (R154). -/
inductive Dataflow where
  | ws
  | rs
  deriving DecidableEq, Repr

/-- Matrix mode (R154); none is vector mode. -/
structure MatrixMode where
  flow : Dataflow
  chn : BitVec 2
  pos : BitVec 2
  held : Bool
  deriving DecidableEq, Repr

/-- The chain setting (R154). -/
structure ChainSetting where
  len : BitVec 2
  pos : BitVec 2
  head : BitVec 4
  deriving DecidableEq, Repr

/-- The granted tile (R165). -/
structure Tile where
  m : BitVec 8
  n : BitVec 6
  k : BitVec 13
  deriving DecidableEq, Repr

/-- A translation that a hart holds: the first VA of the leaf, the bytes of the leaf, and the leaf entry (R231). -/
structure HeldTranslation where
  base : Nat
  size : Nat
  entry : Word
  deriving DecidableEq, Repr

/-- A word that a hart has fetched, with its VA (R38, R280). -/
structure FetchedWord where
  va : Word
  word : BitVec 32
  deriving DecidableEq, Repr

/-- The clusters from which a word of memory read as a prior word has it: one whose cache held dirty bytes of the word, or
all but those (R38). -/
inductive PriorView where
  | cluster (c : Nat)
  | others (cs : List Nat)
  deriving DecidableEq, Repr

/-- A word as it stood before a write to it: the word's home address, the clusters that saw it so, the word (R38). -/
structure PriorWord where
  home : Nat
  view : PriorView
  word : BitVec 32
  deriving DecidableEq, Repr

/-- A byte of a cluster-cache line; of a dirty one the hart and core of the store that dirtied it (R353). -/
structure CacheByte where
  held : Bool
  dirty : Bool
  val : Byte
  writer : Option (HartName × Nat)
  deriving DecidableEq, Repr

/-- A line of the cluster cache (R228, R232, R234, R267): the PA of its first byte, its bytes, the class set,
the priority, and the poison marks of its four granules. -/
structure Line where
  base : Nat
  bytes : Vector CacheByte 128
  classes : BitVec 16
  prio : BitVec 2
  poison : BitVec 4
  deriving DecidableEq, Repr

/-- A line as it stood in the cluster cache when an acquire of the hart invalidated its clean bytes: a load of a class that
the acquire does not order may still return them (R272, R423; log 72). With the step of the acquire go the classes that
are ordered, and those in which the instruction at pc has read or written past the acquire. -/
structure EarlyLine where
  since : Nat
  line : Line
  closed : BitVec 16
  closing : BitVec 16
  deriving DecidableEq, Repr

/-- xlat (R229). -/
structure Xlat where
  en : Bool
  asid : BitVec 12
  root : BitVec 32
  deriving DecidableEq, Repr

/-- The work of an engine operation (R293, R297, R299). A chain that has started keeps its last number and, once its walk
has reached a record, that record's number and its bytes (R298). -/
inductive EngineWork where
  | copy (dst src : Word) (len : BitVec 32) (chained : Bool)
  | fill (dst pattern : Word) (len : BitVec 32)
  | chain (record : Word) (started : Bool) (last : BitVec 48) (reached : Option (BitVec 48 × List Byte))
  | fence (mask : BitVec 4)
  deriving DecidableEq, Repr

/-- A word of a chunk that has been read and is to be written: its address, its bytes, and which of them carry poison. -/
structure EngineWord where
  va : Nat
  data : List Byte
  bad : List Nat
  deriving DecidableEq, Repr

/-- Where an operation's data stand (R294, R305): the chunks not begun, the words of the current chunk not written, the
current chunk, its granules that receive poison, and whether any chunk carried poison. -/
structure EngineRun where
  left : List (Nat × Nat)
  words : List EngineWord
  chunk : Nat × Nat
  spoiled : List Nat
  bad : Bool
  deriving DecidableEq, Repr

/-- An operation of an engine queue: `ord` is its place among the operations that the hart placed on its queues (R300),
`issued` the time of its issue (R379). -/
structure EngineOp where
  work : EngineWork
  ord : Nat
  seq : BitVec 48
  token : BitVec 5
  stamp : Option Word
  xlat : Xlat
  priv : Priv
  mclass : Word
  issued : Word
  run : Option EngineRun
  deriving DecidableEq, Repr

/-- An engine queue with its CSRs (R288, R289). -/
structure EngineQueue where
  cstamp : Word
  cseq : BitVec 48
  fault : Bool
  code : BitVec 8
  faultSeq : BitVec 48
  faultToken : Option (BitVec 5)
  qfadr : Word
  ops : List EngineOp
  deriving DecidableEq, Repr

/-- Where a wake line lies (R260). -/
inductive WakePlace where
  | scratch (gang block : Nat)
  | device (block : Nat)
  deriving DecidableEq, Repr

/-- An armed wake line (R260): the place at the die or the bank, and the touched bit. -/
structure WakeLine where
  place : WakePlace
  touched : Bool
  deriving DecidableEq, Repr

/-- What a hart that issued an instruction waits for, its pc at that instruction. -/
inductive Wait where
  /-- BAR or BAR.S (R216). -/
  | barrier
  /-- WLWAIT with the time of its issue and its limit (R261). -/
  | wakeLine (start limit : Word)
  /-- WFI (R337). -/
  | interrupt
  /-- A stream-port instruction held by its stall (R315). -/
  | port (slot : Nat)
  /-- A stream-port instruction whose stall has ended, before it performs (R315). -/
  | flowing (slot : Nat)
  /-- A stream-port instruction whose stream broke during its stall (R315). -/
  | broken
  /-- A chained MODE.M before its partners (R170). -/
  | chain
  /-- A pending token, a full engine queue, a chained copy in flight or a full set of collectives (R290,
  R293, R295, R411). -/
  | engine
  /-- FENCE.SC until a tick after the given count (R278). -/
  | tick (after : Word)
  deriving DecidableEq, Repr

/-- A request of a hart that crosses a link which carries nothing now (R374, R376): the die and the link's number there,
when the request issued (R379), and whether its instruction had issued or was still being fetched. -/
structure LinkHold where
  die : Nat
  link : Nat
  since : Word
  issued : Bool
  deriving DecidableEq, Repr

/-- A vector load that waits for bytes of a chained copy before one of its groups (R295): that group, and the vector
registers as they stood before the load, which a debug stop brings back (R257). -/
structure PartLoad where
  group : Nat
  before : Vector (Vector Word 256) 32
  deriving DecidableEq, Repr

/-- A forced stop inside an instruction (R110, R339): the element groups that still commit, and the oldest group whose
replies were abandoned (log 16). -/
structure Stopping where
  left : Nat
  oldest : Option Nat
  deriving DecidableEq, Repr

/-- How a hart stopped for a pre-emption or a migration (R338). -/
inductive StopKind where
  | preferred
  | quiet
  | forced
  deriving DecidableEq, Repr

/-- The run states of a hart slot (R206, R338, R212). -/
inductive RunState where
  | placed
  | running
  | stopped (how : StopKind)
  | exited
  | gone
  deriving DecidableEq, Repr

/-- How the last issue of a hart ended; the model's own mark, which tells a step what to record (log 17). -/
inductive Fate where
  | none
  | retired
  | trapped
  | waiting
  | stopped
  deriving DecidableEq, Repr

/-- A trace record (R362). -/
structure TraceRecord where
  words : Vector Word 4
  deriving DecidableEq, Repr

/-- The debug CSRs that a hart owns, and where its step stands (R349, R350, R358). -/
structure DebugRegs where
  ebk : Bool
  step : Bool
  tren : Bool
  tmode : Bool
  scope : BitVec 2
  dpc : Word
  cause : BitVec 4
  unit : BitVec 2
  skid : BitVec 16
  /-- The hart's count of retired instructions at the firing of a freeze that has not reached it, and the cause of its
  own access (R353, R356). -/
  skidFrom : Option Nat
  causeDue : Option (BitVec 4 × BitVec 2)
  dbp : Vector Word 4
  dwa : Vector Word 4
  dwc : Vector (BitVec 8) 4
  /-- The hart issues one instruction and stops (R358). -/
  stepping : Bool
  /-- No breakpoint fires for the next instruction (R351). -/
  passBreak : Bool
  /-- Records since the last sync record, and what MARK has dropped (R361, R362). -/
  sinceSync : BitVec 12
  dropped : Option (Word × Word)
  /-- Records that a STALL hold keeps until slots free (R361). -/
  heldRecords : List TraceRecord
  deriving DecidableEq, Repr

/-- A hart (R14): everything that chapters name hart context, and its place. -/
structure Hart where
  /-- The gang and the hart index; core number (16 × cluster + core). -/
  name : HartName
  core : Nat
  run : RunState
  frozen : Bool
  /-- pc and scalar registers (R14). -/
  pc : Word
  x : Vector Word 32
  priv : Priv
  gated : Bool
  /-- Format registers, sticky flags with their enables, srgen, instret (R61, R67, R65, R23). -/
  fm : Vector (BitVec 24) 8
  flags : BitVec 7
  flagEn : BitVec 7
  srgen : BitVec 32
  instret : Word
  /-- The instructions retired since residency, which no write of instret changes; the model's own count (R356;
  log 17). -/
  retired : Nat
  /-- hartidx, stage, gangxyz (R19, R20). -/
  hartidx : BitVec 4
  stage : BitVec 3
  gx : BitVec 20
  gy : BitVec 20
  gz : BitVec 20
  /-- The vector unit (R99 to R111). -/
  grant : Grant
  vl : BitVec 32
  vtype : Option TypeState
  vprog : BitVec 7
  vprogPc : Word
  mid : BitVec 3
  mmode : BitVec 2
  v : Vector (Vector Word 256) 32
  m : Vector (Vector Word 512) 8
  /-- The vector registers that a preferred pre-emption point has left unspecified and that nothing has written since
  (R129; log 31). -/
  unsure : List Nat
  dq : List Deferred
  /-- Matrix mode (R154, R165): the matrix flag of the launch, the mode, the chain setting, the tile, the
  cells, and the flags that RS cells hold (R187). -/
  matrixFlag : Bool
  mode : Option MatrixMode
  mchain : ChainSetting
  tile : Tile
  cells : Vector Word 512
  heldFlags : BitVec 7
  /-- Memory CSRs (R229, R378) and tensor-map slots (R241), held translations and fetched words. -/
  msc : BitVec 2
  moff : BitVec 15
  rcount : BitVec 6
  xlat : Xlat
  tlb : List HeldTranslation
  ibuf : List FetchedWord
  /-- The length of the package's list of prior words at the hart's last FENCE.I (R280; log 10), and the lines that its
  loads may read as before an acquire (log 72). -/
  fenced : Nat
  early : List EarlyLine
  tm : Vector (Vector Word 8) 15
  /-- The word that issues, which a trap of codes 0x05 to 0x07 reports (R324; log 17). -/
  word : BitVec 32
  seqr : Sequencer
  gate : GateLink
  /-- Supervisor CSRs (R326, R327). -/
  trapvec : BitVec 62
  abandon : BitVec 16
  grace : BitVec 32
  gtbase : BitVec 52
  sup : TrapBank
  sscratch : Word
  tie : Bool
  swe : Bool
  eve : Bool
  swp : Bool
  sevent : BitVec 9
  stimecmp : Word
  /-- Firmware CSRs (R425; log 7). -/
  fvec : BitVec 62
  fw : TrapBank
  dbg : DebugRegs
  /-- Engine queues, the number of operations placed so far, and pending tokens (R288, R290). -/
  eq : Vector EngineQueue 4
  placed : Nat
  pending : List (BitVec 5)
  wake : Option WakeLine
  wait : Option Wait
  /-- The hart's request waits for a link (R374, R376); what its instruction waited for before stands in `wait`. -/
  linkHold : Option LinkHold
  /-- The array steps of the multiply at pc that are done, where a forced stop froze it (R339, R340). -/
  arrayAt : Nat
  /-- A vector load that waits within for a chained copy (R295); what it has written is in `v`. -/
  partLoad : Option PartLoad
  /-- The cached lines that active elements of the instruction at vprog's address have touched, by PA (R234). -/
  touched : List Nat
  /-- The vprogs that traps have saved and no TRET has brought back; the model's own record, by which a status word that
  software restores finds its address again (R110; log 13). -/
  vprogs : List SavedVprog
  /-- Weight accumulator, credit, the issue number of the last issue (0 for none) and of residency (R207,
  R310). -/
  wq : BitVec 13
  credit : Nat
  issued : Nat
  joined : Nat
  /-- Barrier arrivals: the generation of the gang barrier and of the stage barrier arrived at (R216). -/
  arrGang : Option Nat
  arrStage : Option Nat
  /-- TCM allotment: first unit and units (R224). -/
  tcmBase : Nat
  tcmUnits : Nat
  /-- A forced stop that lands inside the next instruction, which counts as in flight (log 16). -/
  stopAt : Option Stopping
  /-- The stop of a migrate trap (R343). -/
  migrating : Bool
  /-- The hart had exited before its gang was saved: brought back for its engine queues alone, it takes nothing of a core
  (R99, R212). -/
  seatless : Bool
  /-- The boundary after a WLWAIT that returned 2, or after a WFI (R338). -/
  quiet : Bool
  fate : Fate
  deriving DecidableEq, Repr

/-! ## Gangs, cores, clusters, dies -/

/-- An open stream (R306, R308, R310). -/
structure Stream where
  ph : BitVec 4
  pp : BitVec 4
  ch : BitVec 4
  cp : BitVec 4
  boff : Nat
  cap : Nat
  mx : Nat
  spt : Nat
  kp : Nat
  ki : Nat
  icl : Nat
  wf : Nat
  wc : Nat
  /-- Bytes put and not taken, oldest first: o is their number. -/
  buf : List Byte
  integ : Int
  frz : Bool
  deriving DecidableEq, Repr

/-- A pre-emption request pending for a gang (R338): the time from which the grace runs, its reason, and the time
since which a freeze has stopped the grace clock (R342). -/
structure PreReq where
  at_ : Word
  reason : BitVec 4
  heldSince : Option Word
  deriving DecidableEq, Repr

/-- A placed gang (R195, R205). -/
structure Gang where
  key : Nat
  launch : Option Nat
  record : Word
  recordPa : Nat
  gx : BitVec 20
  gy : BitVec 20
  gz : BitVec 20
  ex1 : BitVec 20
  ey1 : BitVec 20
  ez1 : BitVec 20
  w : Nat
  stages : Nat
  cluster : Nat
  scr : Nat
  ctx : Nat
  basePrio : Nat
  order : Nat
  scratch : List Host.Cell
  scratchPoison : List Nat
  barGen : Nat
  stageGen : Vector Nat 8
  exited : List Nat
  streams : Vector (Option Stream) 16
  bctlU : BitVec 2
  refEdges : Nat
  pre : Option PreReq
  waitRoom : Bool
  doubleTrap : Bool
  /-- The last hart has exited; the gang is kept until its harts' resources are freed (R212). -/
  ended : Bool
  deriving DecidableEq, Repr

/-- An entry of the retire ring (R359): the gang of its hart and the five words. -/
structure RingEntry where
  gang : Nat
  words : Vector Word 5
  deriving DecidableEq, Repr

/-- A core; `issues` counts the issues of the current window (R207). -/
structure Core where
  cycle : Word
  issues : Nat
  slip : Vector (BitVec 48) 6
  hpmevt : Vector (BitVec 8) 8
  hpmctr : Vector (BitVec 48) 8
  ring : List RingEntry
  rhead : BitVec 16
  tcm : List Host.Cell
  tcmPoison : List Nat
  /-- TCM bytes whose value is unspecified until they are written (R303; log 5). -/
  tcmLoose : List Nat
  /-- Stretched edges left of a droop alarm, and edges left of the hold that follows them (R426). -/
  droopStretch : Nat
  droopHold : Nat
  droops : BitVec 48
  /-- Element groups committed and array steps taken to which no clock edge has been given yet; the model's own count
  (R363; log 3). -/
  work : Nat
  mrow : BitVec 34
  /-- Corrected errors of the TCM and the vector registers (R239). -/
  corrected : Nat
  deriving DecidableEq, Repr

/-- Data of a multicast load that the cluster network may hold (R169): the gang, the source core, the rows read, the
members and those of them that have issued. -/
structure Multicast where
  gang : Nat
  source : Nat
  spans : List (Nat × Nat)
  mask : BitVec 16
  done : BitVec 16
  data : List Byte
  deriving DecidableEq, Repr

/-- A cluster. -/
structure Cluster where
  lines : List Line
  dta : Vector Word 4
  dtc : Vector (BitVec 11) 4
  dtGang : Vector Nat 4
  trace : List TraceRecord
  traceDrop : BitVec 48
  multicast : List Multicast
  /-- Corrected errors of the scratchpads and the cache (R239). -/
  corrected : Nat
  deriving DecidableEq, Repr

/-- A reader-count line of a memory-side cache (R236): its first byte's PA, its count, its bytes. -/
structure ReaderLine where
  base : Nat
  count : BitVec 6
  data : Vector Byte 128
  deriving DecidableEq, Repr

/-- A link of a memory die (R377). -/
structure Link where
  gear : BitVec 2
  gfloor : BitVec 2
  gceil : BitVec 2
  train : Bool
  failed : Bool
  steps : BitVec 24
  replays : BitVec 32
  retrains : Nat
  closed : Word
  deriving DecidableEq, Repr

/-- A request that waits in a channel of a die (R379, R380). -/
structure ChannelRequest where
  requester : BitVec 11
  cls : BitVec 2
  off : BitVec 15
  stamp : BitVec 16
  deriving DecidableEq, Repr

/-- A channel of an HBM stack: waiting requests in arrival order, and of the current window the slots counted and
those that served class 2 and class 3 (R380). -/
structure Channel where
  waiting : List ChannelRequest
  slot : Nat
  floor2 : Nat
  floor3 : Nat
  deriving DecidableEq, Repr

/-- A memory die. -/
structure Die where
  readers : List ReaderLine
  dropped : List Nat
  rcovf : BitVec 48
  rcund : BitVec 48
  cpfree : BitVec 32
  cplow : BitVec 32
  lowArmed : Bool
  /-- The stored blocks with the sectors of the pool and of the reserve that each takes (R237, R238). -/
  blocks : List (Nat × Nat × Nat)
  reserveUsed : Nat
  corrected : Nat
  misses : List (Nat × BitVec 32)
  links : Vector Link 6
  channels : Vector Channel 32
  deriving DecidableEq, Repr

/-! ## The package -/

/-- Where a record was queued (R200). -/
inductive QueueRef where
  | hardware (q : Nat)
  | spawn (cluster : Nat)
  deriving DecidableEq, Repr

/-- A record that is queued or running (R200, R205, R214). -/
structure Launch where
  key : Nat
  record : Word
  pa : Nat
  ctx : Nat
  queue : QueueRef
  ceil : Nat
  elig : Option Word
  next : Nat
  queued : Bool
  total : Nat
  ended : Nat
  clusters : BitVec 48
  /-- The cluster of the gang placed last, whose scheduler ends the launch (R214; log 56). -/
  latest : Nat
  held : List Nat
  doubleTrap : Bool
  /-- Since when the record has stood first in the order of each scheduler (R202). -/
  first : List (Nat × Word)
  deriving DecidableEq, Repr

/-- A saved gang (R341, R347): its harts and gang context as saved, the poison marks of its harts' TCM (hart index
and granule, R240), its image and whether a class B die wrote it. -/
structure Saved where
  gang : Gang
  harts : List Hart
  tcmMarks : List (Nat × Nat)
  image : Nat
  size : Nat
  bytes : List Byte
  reason : BitVec 4
  classB : Bool
  elig : Word
  deriving DecidableEq, Repr

/-- A posted write, a doorbell or a register write at the ordering point (R403): its target, and what it does there. A
write to a die has the runs of bytes that lie on it, and once its first word lands the queues whose descriptors it may
change (R398; log 67). -/
inductive RouteWork where
  | write (pieces : List (Nat × List Byte)) (may : Option (List Nat))
  | doorbell (fn queue : Nat) (record : Word)
  | pree (ctx : Nat) (record : Word)
  | swint (ctx : Nat) (record : Word)
  | chead (ctx : Nat) (value : Word)
  | register (fn off : Nat) (value : Word)
  deriving DecidableEq, Repr

/-- A route of an inbound stream: `die` is 8 for the I/O die; `sent` when it has left the ordering point. -/
structure Route where
  number : Nat
  die : Nat
  work : RouteWork
  sent : Bool
  deriving DecidableEq, Repr

/-- What a host read reads: device memory, or with an operand and a comparand an AtomicOp there, or 8 bytes of the
register window. -/
inductive ReadWork where
  | memory (pa size : Nat) (op : Option (HostAtomic × Word × Word))
  | window (off : Nat)
  deriving DecidableEq, Repr

/-- A host read that waits for earlier posted writes (R404). -/
structure WaitingRead where
  fn : Nat
  work : ReadWork
  after : Nat
  deriving DecidableEq, Repr

/-- An inbound stream (R403). -/
structure Inbound where
  nextNumber : Nat
  routes : List Route
  reads : List WaitingRead
  deriving DecidableEq, Repr

/-- A data frame that has been sent: the units sent up to it, and when it was sent last (R407). -/
structure SentFrame where
  after : BitVec 32
  frame : ScaleFrame
  at_ : Word
  deriving DecidableEq, Repr

/-- The completion ring of a context (R401). -/
structure CompletionRing where
  producer : Nat
  wraps : Nat
  consumer : Nat
  waiting : List (Word × Word)
  deriving DecidableEq, Repr

/-- A pree write that waits for its gangs (R400). -/
structure PreeWrite where
  fn : Nat
  gangs : List Nat
  deriving DecidableEq, Repr

/-- A scale-out port (R406 to R409): units sent, the grant and the acknowledgement the peer gave, units this end
has released and accepted, units held in the buffer, the sequence number expected next and the one sent next, the
accepted frames, the frames sent and not acknowledged, those that wait for a grant, whether a damaged frame makes later
ones fall, whether the port is lost, and the time of the last allowance frame. -/
structure Port where
  sent : BitVec 32
  grant : BitVec 32
  acked : BitVec 32
  released : BitVec 32
  accepted : BitVec 32
  buffered : Nat
  expected : Nat
  nextSent : Nat
  frames : List ScaleFrame
  unacked : List SentFrame
  queued : List ScaleFrame
  discarding : Bool
  lost : Bool
  lastAllowance : Word
  deriving DecidableEq, Repr

/-- A collective in flight (R410, R411). -/
structure Collective where
  seq : Nat
  ctx : Nat
  owner : HartName
  token : BitVec 5
  exact : Bool
  desc : Vector Word 8
  xlat : Xlat
  priv : Priv
  deriving DecidableEq, Repr

/-- A token that a collective wrote while its gang was saved (R416). -/
structure LateToken where
  owner : HartName
  reg : BitVec 5
  value : Word
  deriving DecidableEq, Repr

/-- Messages that leave the package. -/
inductive Message where
  | msix (fn vector : Nat)
  | readData (fn : Nat) (bytes : List Byte)
  | unsupported (fn : Nat)
  | atomicData (fn : Nat) (old : Word)
  | portValue (value : Word)
  | frame (port : Nat) (f : ScaleFrame)
  | allowance (port : Nat) (grant ack : BitVec 32)
  | trace (r : TraceRecord)
  | smbus (bytes : List Byte)
  | smbusNotAcknowledged
  deriving DecidableEq, Repr

/-- What the boot flash holds (R428): the firmware image, its header and its code, with the signature of the header; the
configuration block with its signature; and whether firmware has written the block since it was installed (R229). -/
structure Flash where
  header : List Byte
  code : List Byte
  headerSignature : List Byte
  block : List Byte
  blockSignature : List Byte
  rewritten : Bool
  deriving DecidableEq, Repr

/-- What the Scarab engine holds beside the fused security version (R430): the fused seed, from which the device identity
key pair is derived, and the vendor verification key. -/
structure ScarabKeys where
  seed : List Byte
  vendor : List Byte
  deriving DecidableEq, Repr

/-- Device control (R393, R395, R428 to R433). -/
structure DeviceControl where
  qtbase : Word
  ctxbase : Word
  checkpoint : Word
  attestation : Word
  status : Word
  bootFailure : Word
  telbase : Word
  deriving DecidableEq, Repr

/-- What a checkpoint copies (R432). -/
inductive CheckpointWork where
  | save (target : Word)
  | restore (target : Word)
  deriving DecidableEq, Repr

/-- A checkpoint: its work, and whether its step 4 is reached, from which the collective engine holds (R432). -/
structure Checkpoint where
  work : CheckpointWork
  holding : Bool
  deriving DecidableEq, Repr

/-- Who moves next (log 1): an event of the package, or a core. -/
inductive Turn where
  | event (i : Instr)
  | core (c : Nat)
  deriving DecidableEq, Repr

/-- The package. -/
structure State where
  hart : Hart
  parked : List Hart
  agenda : List Turn
  steps : Nat
  outbox : List Message
  gangs : List Gang
  cores : List Core
  clusters : List Cluster
  dies : List Die
  mem : List Host.Cell
  poison : List Nat
  /-- Granules of the dies with an error that no read has met, and whether the code corrects it (R239, R240). -/
  errors : List (Nat × Bool)
  /-- The same of the granules of TCM, scratchpads, cluster caches and vector registers. -/
  localErrors : List (LocalGranule × Bool)
  /-- Home addresses of bytes whose value is unspecified until they are written (R234, R303; log 5). -/
  loose : List Nat
  /-- Words as they were before writes to them, oldest first: what fetches may still find (R38, R280; log 10). -/
  priors : List PriorWord
  /-- A link that carries nothing now and that this step's requests have met: the step's effects are then not taken
  (R374, R376); none between steps. -/
  held : Option (Nat × Nat)
  time : Word
  hbeat : Word
  msplit : BitVec 32
  cpool : Word
  nextMsplit : BitVec 32
  nextCpool : Word
  launches : List Launch
  saved : List Saved
  nextKey : Nat
  fevent : BitVec 2
  wmax : BitVec 5
  plimit : BitVec 11
  mclogUnits : BitVec 8
  mclogBase : BitVec 52
  mclogIndex : Nat
  bootdesc : Word
  control : DeviceControl
  inbound : Inbound
  /-- The inbound streams of the scale-out ports (R403). -/
  portStreams : Vector Inbound 16
  /-- The words of the functions' MSI-X tables that the host has written: function, place, word (R393; log 65). -/
  msix : List (Nat × Nat × Word)
  rings : List (Nat × CompletionRing)
  pree : List PreeWrite
  ports : Vector Port 16
  collectives : List Collective
  collSeq : List (Nat × Nat)
  late : List LateToken
  freezes : List FreezeScope
  /-- Since when the scale-out ports stand, by a freeze of the package or a checkpoint (R357, R408, R432). -/
  portsHeld : Option Word
  /-- A debugger is attached to the debug port (R368; log 47). -/
  attached : Bool
  checkpoint : Option Checkpoint
  /-- The bytes of die-named HBM, word by word, that a host inbound write has changed since the checkpoint's copy may have
  begun, as they were before (R432). -/
  crossed : List (Nat × List Byte)
  attesting : Bool
  fuses : Word
  keys : ScarabKeys
  flash : Flash
  telemetryCount : Nat
  /-- The latest telemetry line (R433, R434). -/
  telemetryLatest : List Byte
  deriving DecidableEq, Repr

/-! ## Reset -/

/-- A status word with every field clear. -/
def TrapStat.reset : TrapStat := ⟨0, false, false, 0, false, false, false⟩

/-- A trap bank with every register zero (R327, R425). -/
def TrapBank.reset : TrapBank := ⟨0, 0, 0, TrapStat.reset, none⟩

/-- The idle sequencer (R91). -/
def Sequencer.reset : Sequencer :=
  ⟨Vector.replicate 6 0, Vector.replicate 6 ⟨0, 0⟩, Vector.replicate 6 ⟨0, 0⟩, 0, 0, none, false⟩

/-- An empty engine queue (R289). -/
def EngineQueue.reset : EngineQueue := ⟨0, 0, false, 0, 0, none, 0, []⟩

/-- The reset value of a tensor-map slot (R241). -/
def tensorMapReset : Vector Word 8 :=
  #v[0, 0x0000000100000000#64, 0x0000000100000001#64, 0x0000000000000001#64, 0, 0,
    0x0001000100010001#64, 0x0000000001010101#64]

/-- Debug CSRs at reset (R350). -/
def DebugRegs.reset : DebugRegs :=
  { ebk := false, step := false, tren := false, tmode := false, scope := 0, dpc := 0, cause := 0, unit := 0,
    skid := 0, skidFrom := none, causeDue := none, dbp := Vector.replicate 4 0, dwa := Vector.replicate 4 0, dwc := Vector.replicate 4 0,
    stepping := false, passBreak := false, sinceSync := 0, dropped := none, heldRecords := [] }

/-- A mask register with every bit set. -/
def maskOnes : Vector Word 512 := Vector.replicate 512 (BitVec.allOnes 64)

/-- The mask registers at reset: m0 all ones (R105), the others clear (log 6). -/
def masksReset : Vector (Vector Word 512) 8 :=
  (Vector.replicate 8 (Vector.replicate 512 0)).set 0 maskOnes

/-- The boot hart at package reset (R25, R428; log 6 for what the spec gives no value). -/
def Hart.reset : Hart :=
  { name := ⟨0, 0⟩, core := 0, run := .running, frozen := false
    pc := Config.bootVector, x := Vector.replicate 32 0, priv := .firmware, gated := false
    fm := (Vector.replicate 8 0).set 0 0x000CCC#24, flags := 0, flagEn := 0, srgen := 1, instret := 0
    retired := 0, hartidx := 0, stage := 0, gx := 0, gy := 0, gz := 0
    grant := .l32, vl := 0, vtype := none, vprog := 0, vprogPc := 0, mid := 0, mmode := 0
    v := Vector.replicate 32 (Vector.replicate 256 0), m := masksReset, unsure := [], dq := []
    matrixFlag := false, mode := none, mchain := ⟨0, 0, 0⟩, tile := ⟨0, 0, 0⟩
    cells := Vector.replicate 512 0, heldFlags := 0
    msc := 0, moff := 0, rcount := 0, xlat := ⟨false, 0, 0⟩, tlb := [], ibuf := [], fenced := 0, early := []
    tm := Vector.replicate 15 tensorMapReset, word := 0, seqr := Sequencer.reset, gate := ⟨0, 0, 0⟩
    trapvec := 0, abandon := 2048, grace := 10000, gtbase := 0, sup := TrapBank.reset, sscratch := 0
    tie := false, swe := false, eve := false, swp := false, sevent := 0, stimecmp := BitVec.allOnes 64
    fvec := 0x0000004000000400#62, fw := TrapBank.reset, dbg := DebugRegs.reset
    eq := Vector.replicate 4 EngineQueue.reset, placed := 0, pending := [], wake := none, wait := none
    linkHold := none, arrayAt := 0, partLoad := none, touched := [], vprogs := []
    wq := 4096, credit := 16, issued := 0, joined := 0, arrGang := none, arrStage := none
    tcmBase := 0, tcmUnits := 0, stopAt := none, migrating := false, seatless := false, quiet := false, fate := .none }

/-- The gang of the boot hart (log 6). -/
def Gang.reset : Gang :=
  { key := 0, launch := none, record := 0, recordPa := 0, gx := 0, gy := 0, gz := 0, ex1 := 0, ey1 := 0, ez1 := 0
    w := 1, stages := 1, cluster := 0, scr := 0, ctx := 0, basePrio := 0, order := 0, scratch := []
    scratchPoison := [], barGen := 0, stageGen := Vector.replicate 8 0, exited := []
    streams := Vector.replicate 16 none, bctlU := 0, refEdges := 0, pre := none, waitRoom := false
    doubleTrap := false, ended := false }

/-- A core at package reset; no defective array row (log 6). -/
def Core.reset : Core :=
  { cycle := 0, issues := 0, slip := Vector.replicate 6 0, hpmevt := Vector.replicate 8 0, hpmctr := Vector.replicate 8 0
    ring := [], rhead := 0, tcm := [], tcmPoison := [], tcmLoose := [], droopStretch := 0, droopHold := 0, droops := 0, work := 0
    mrow := 0x0FFFFFFFF#34, corrected := 0 }

/-- A cluster at package reset. -/
def Cluster.reset : Cluster :=
  { lines := [], dta := Vector.replicate 4 0, dtc := Vector.replicate 4 0, dtGang := Vector.replicate 4 0
    trace := [], traceDrop := 0, multicast := [], corrected := 0 }

/-- A link at package reset (R377). -/
def Link.reset : Link := ⟨3, 0, 3, false, false, 0, 0, 0, 0⟩

/-- A memory die at package reset. -/
def Die.reset : Die :=
  { readers := [], dropped := [], rcovf := 0, rcund := 0, cpfree := 0, cplow := 0, lowArmed := true, blocks := []
    reserveUsed := 0, corrected := 0, misses := [], links := Vector.replicate 6 Link.reset
    channels := Vector.replicate 32 ⟨[], 0, 0, 0⟩ }

/-- A scale-out port at package reset. -/
def Port.reset : Port := ⟨0, 0, 0, 0, 0, 0, 0, 0, [], [], [], false, false, 0⟩

/-- A flash whose image nobody has installed: a header of 4 KiB without code or signature, and the configuration block as
shipped (R428; log 12). -/
def Flash.reset : Flash :=
  { header := List.replicate 4096 0, code := [], headerSignature := [], blockSignature := [], rewritten := false
    block := [0x22, 0x22, 0x22, 0x22] ++ List.replicate 12 0 }

/-- The package right after reset: the boot hart on core 0 of cluster 0 at the boot vector (R428). -/
def State.reset : State :=
  { hart := Hart.reset, parked := [], agenda := [], steps := 0, outbox := [], gangs := [Gang.reset]
    cores := List.replicate 768 Core.reset, clusters := List.replicate 48 Cluster.reset
    dies := List.replicate 8 Die.reset, mem := [], poison := [], loose := [], errors := [], localErrors := [], priors := [], held := none, time := 0, hbeat := 0
    msplit := 0x22222222#32, cpool := 0, nextMsplit := 0x22222222#32, nextCpool := 0
    launches := [], saved := [], nextKey := 1, fevent := 0, wmax := 16, plimit := 1950
    mclogUnits := 1, mclogBase := 0x0000010000800#52, mclogIndex := 0, bootdesc := 0x0000010000000000#64
    control := ⟨0, 0, 0, 0, 0, 0, 0⟩, inbound := ⟨0, [], []⟩
    portStreams := Vector.replicate 16 ⟨0, [], []⟩, msix := [], rings := [], pree := []
    ports := Vector.replicate 16 Port.reset, collectives := [], collSeq := [], late := [], freezes := [], portsHeld := none, attached := true
    checkpoint := none, crossed := [], attesting := false, fuses := 0, keys := ⟨[], []⟩, flash := Flash.reset
    telemetryCount := 0, telemetryLatest := List.replicate 128 0 }

end Sys2Proof.Machine
end

