-- ==== Sys2Proof/Machine/Memory.lean ====
section
/-! DEFINITION. The memory dies and the cluster caches: byte cells, the physical map, reads, writes and atomics at
a die, poison, reader-count lines, compression, and the actions of the cluster caches. -/

namespace Sys2Proof.Machine

/-! ## Cells -/

/-- The byte that a list of cells holds at an address. -/
def cellGet : List Host.Cell → Nat → Option Byte
  | [], _ => none
  | (k, b) :: t, a => if k = a then some b else if a < k then none else cellGet t a

/-- The cells without an address. -/
def cellDrop : List Host.Cell → Nat → List Host.Cell
  | [], _ => []
  | (k, b) :: t, a => if k = a then t else if a < k then (k, b) :: t else (k, b) :: cellDrop t a

/-- The cells with a byte put at an address. -/
def cellPut : List Host.Cell → Nat → Byte → List Host.Cell
  | [], a, v => [(a, v)]
  | (k, b) :: t, a, v =>
    if k = a then (a, v) :: t else if a < k then (a, v) :: (k, b) :: t else (k, b) :: cellPut t a v

/-- Addresses rise strictly from a bound. -/
def cellsRise : Nat → List Host.Cell → Bool
  | _, [] => true
  | lo, (k, _) :: t => decide (lo ≤ k) && cellsRise (k + 1) t

/-- The canonical form of memory: addresses rise strictly and no entry holds what an unlisted byte reads as. -/
def Memory.wf (m : List Host.Cell) : Bool := cellsRise 0 m && m.all fun c => c.2 != 0

/-- A byte of memory; an unlisted byte reads 0 (log 4). -/
def Memory.get (m : List Host.Cell) (a : Nat) : Byte := (cellGet m a).getD 0

/-- Memory with a byte written. -/
def Memory.put (m : List Host.Cell) (a : Nat) (b : Byte) : List Host.Cell :=
  if b = 0 then cellDrop m a else cellPut m a b

/-- Memory with a list of bytes written, in order. -/
def Memory.putAll : List Host.Cell → List (Nat × Byte) → List Host.Cell
  | m, [] => m
  | m, (a, b) :: t => Memory.putAll (Memory.put m a b) t

/-! ## Numbers as bytes -/

/-- The n bytes of a number, lowest first. -/
def bytesOf : Nat → Nat → List Byte
  | 0, _ => []
  | n + 1, w => BitVec.ofNat 8 w :: bytesOf n (w / 256)

/-- The number that bytes hold, lowest first. -/
def natOfBytes : List Byte → Nat
  | [] => 0
  | b :: t => b.toNat + 256 * natOfBytes t

/-- Cells of consecutive bytes. -/
def cellsFrom : Nat → List Byte → List (Nat × Byte)
  | _, [] => []
  | a, b :: t => (a, b) :: cellsFrom (a + 1) t

/-! ## Small accessors -/

/-- A core, a cluster, a die by number. -/
def State.core (s : State) (c : Nat) : Core := s.cores.getD c Core.reset
def State.cluster (s : State) (c : Nat) : Cluster := s.clusters.getD c Cluster.reset
def State.die (s : State) (k : Nat) : Die := s.dies.getD k Die.reset

def State.modCore (s : State) (c : Nat) (f : Core → Core) : State := { s with cores := s.cores.modify c f }
def State.modCluster (s : State) (c : Nat) (f : Cluster → Cluster) : State :=
  { s with clusters := s.clusters.modify c f }
def State.modDie (s : State) (k : Nat) (f : Die → Die) : State := { s with dies := s.dies.modify k f }

/-- Every resident hart, the current one first. -/
def State.harts (s : State) : List Hart := s.hart :: s.parked

/-- A change of every hart. -/
def State.mapHarts (f : Hart → Hart) (s : State) : State :=
  { s with hart := f s.hart, parked := s.parked.map f }

/-- A change of the hart of a name. -/
def State.modHart (n : HartName) (f : Hart → Hart) (s : State) : State :=
  s.mapHarts fun h => if h.name = n then f h else h

/-- A change of the current hart. -/
def State.onHart (f : Hart → Hart) (s : State) : State := { s with hart := f s.hart }

/-- A hart by name. -/
def State.findHart (s : State) (n : HartName) : Option Hart := s.harts.find? fun h => h.name == n

/-- A hart is on its core until its resources are freed (R212). -/
def Hart.resident (h : Hart) : Bool := decide (h.run ≠ .gone)

/-- The cluster of a hart. -/
def Hart.cluster (h : Hart) : Nat := h.core / 16

/-- A gang by key. -/
def State.gang? (s : State) (k : Nat) : Option Gang := s.gangs.find? fun g => g.key == k
def State.gang (s : State) (k : Nat) : Gang := (s.gang? k).getD Gang.reset
def State.modGang (s : State) (k : Nat) (f : Gang → Gang) : State :=
  { s with gangs := s.gangs.map fun g => if g.key = k then f g else g }

/-- The gang of the current hart. -/
def State.myGang (s : State) : Gang := s.gang s.hart.name.gang

/-- A message out of the package (log 8). -/
def State.send (m : Message) (s : State) : State := { s with outbox := s.outbox ++ [m] }

/-- The compute die slot of a cluster (R369). -/
def slotOfCluster (c : Nat) : Nat := if c < 36 then c / 9 else 4 + (c - 36) / 6

/-- A cluster lies on a class A die (R369). -/
def classA (c : Nat) : Bool := decide (c < 36)

/-- capmask of a cluster's die (R20). -/
def capmask (c : Nat) : BitVec 4 := if classA c then 0xF else 0

/-- A core lies in the scope of a freeze (R354). -/
def freezeCovers (f : FreezeScope) (core : Nat) : Bool :=
  match f with
  | .package => true
  | .die slot => slotOfCluster (core / 16) == slot
  | .cluster c => core / 16 == c

/-- The freeze scope that a scope field names for a cluster (R350). -/
def freezeScopeOf (code : BitVec 2) (cluster : Nat) : FreezeScope :=
  if code = 2 then .cluster cluster else if code = 1 then .die (slotOfCluster cluster) else .package

/-! ## Requesters -/

/-- The requesters of R370. -/
inductive Requester where
  | hart (n : HartName) (core : Nat)
  | walker (n : HartName) (core : Nat)
  | cache (cluster : Nat)
  | engine (n : HartName) (cluster : Nat) (mclass issued : Word)
  | scheduler (cluster : Nat)
  | host
  | collective
  | queueManager
  | scarab
  | port (p : Nat)
  | background (die : Nat)
  deriving DecidableEq, Repr

/-- The requester id (R370). A write-back that no hart asked for carries the id of the cluster's first core
(log 18). -/
def Requester.id (r : Requester) : BitVec 11 :=
  match r with
  | .hart _ core | .walker _ core => BitVec.ofNat 11 core
  | .cache c => BitVec.ofNat 11 (16 * c)
  | .engine _ c _ _ => BitVec.ofNat 11 (0x300 + c)
  | .scheduler c => BitVec.ofNat 11 (0x330 + c)
  | .host => 0x400
  | .collective => 0x401
  | .queueManager => 0x402
  | .scarab => 0x403
  | .port p => BitVec.ofNat 11 (0x410 + p)
  | .background k => BitVec.ofNat 11 (0x440 + k)

/-- The page walker of a requester: that of a hart carries the id of the walking core (R370). -/
def Requester.walks (r : Requester) : Requester :=
  match r with
  | .hart n core => .walker n core
  | r => r

/-- The hart whose requests a requester makes, where it is one's. -/
def Requester.hart? (r : Requester) : Option HartName :=
  match r with
  | .hart n _ | .walker n _ | .engine n _ _ _ => some n
  | .cache _ | .scheduler _ | .host | .collective | .queueManager | .scarab | .port _ | .background _ => none

/-- The requester that the current hart is. -/
def State.me (s : State) : Requester := .hart s.hart.name s.hart.core

/-! ## The physical map -/

/-- Where a physical address leads (R226). -/
inductive Target where
  | hbm (die off : Nat)
  | sram (die off : Nat)
  | compressed (die off : Nat)
  | host (off : Nat)
  deriving DecidableEq, Repr

/-- The XOR of n three-bit slices of a number. -/
def foldSlices : Nat → Nat → Nat
  | 0, _ => 0
  | n + 1, g => Nat.xor (g % 8) (foldSlices n (g / 8))

/-- The die and the offset of an alias offset (R227). -/
def aliasDie (a : Nat) : Nat := foldSlices 9 (a / 4096)
def aliasOffset (a : Nat) : Nat := a / 32768 * 4096 + a % 4096

/-- The alias offset of a die-named byte (R227: every die-named byte has exactly one). -/
def aliasOf (die off : Nat) : Nat :=
  let g := off / 4096
  (g * 8 + Nat.xor die (foldSlices 8 g)) * 4096 + off % 4096

/-- GiB of a die's sector pool, and 8 MiB units of its addressable slice (R229). -/
def State.poolOf (s : State) (k : Nat) : Nat := (s.cpool >>> (8 * k)).toNat % 256
def State.splitOf (s : State) (k : Nat) : Nat := (s.msplit >>> (4 * k)).toNat % 16

/-- The target of a physical address, none where R226 gives an access fault. -/
def State.target (s : State) (pa : Nat) : Option Target :=
  if pa < 0x8000000000 then
    let k := pa / 0x1000000000
    let o := pa % 0x1000000000
    if o < (64 - s.poolOf k) * 0x40000000 then some (.hbm k o) else none
  else if pa < 0x10000000000 then
    let a := pa - 0x8000000000
    let k := aliasDie a
    let o := aliasOffset a
    if o < (64 - s.poolOf k) * 0x40000000 then some (.hbm k o) else none
  else if pa < 0x10080000000 then
    let k := pa / 0x10000000 % 8
    let o := pa % 0x10000000
    if o < 8 * s.splitOf k * 0x100000 then some (.sram k o) else none
  else if 0x20000000000 ≤ pa ∧ pa < 0x40000000000 then
    let k := pa / 0x4000000000 % 8
    if s.poolOf k = 0 then none else some (.compressed k (pa % 0x4000000000))
  else if 0x800000000000 ≤ pa ∧ pa < 0x1000000000000 then some (.host (pa - 0x800000000000))
  else none

/-- The one address under which memory holds a byte: die-named for both names of an HBM byte (R227). -/
def Target.home (t : Target) : Nat :=
  match t with
  | .hbm k o => k * 0x1000000000 + o
  | .sram k o => 0x10000000000 + k * 0x10000000 + o
  | .compressed k o => 0x20000000000 + k * 0x4000000000 + o
  | .host o => 0x800000000000 + o

/-- The memory die of a target; none for host memory. -/
def Target.die? (t : Target) : Option Nat :=
  match t with
  | .hbm k _ | .sram k _ | .compressed k _ => some k
  | .host _ => none

/-- Device memory (R226). -/
def Target.isDevice (t : Target) : Bool := t.die?.isSome

/-- The home of a physical address that the map accepts. -/
def State.homeOf (s : State) (pa : Nat) : Option Nat := (s.target pa).map Target.home

/-- The die of a home address: 8 for host memory. -/
def homeDie (a : Nat) : Nat :=
  if a < 0x8000000000 then a / 0x1000000000
  else if a < 0x20000000000 then a / 0x10000000 % 8
  else if a < 0x800000000000 then a / 0x4000000000 % 8
  else 8

def isHbmHome (a : Nat) : Bool := decide (a < 0x8000000000)
def isCompressedHome (a : Nat) : Bool := decide (0x20000000000 ≤ a ∧ a < 0x800000000000)
def isHostHome (a : Nat) : Bool := decide (0x800000000000 ≤ a)

/-- The first byte of the 128-byte line, and of the 32-byte granule, of an address. -/
def lineOf (a : Nat) : Nat := a / 128 * 128
def granuleOf (a : Nat) : Nat := a / 32 * 32

/-! ## Freezes and events that dies raise -/

/-- The grace clock of a request whose gang lies in a scope stops (R342, R357). -/
def Gang.stopClock (f : FreezeScope) (now : Word) (g : Gang) : Gang :=
  if freezeCovers f (16 * g.cluster) then
    { g with pre := g.pre.map fun r => if r.heldSince.isNone then { r with heldSince := some now } else r }
  else g

/-- Since when the clocks of the scale-out ports stand, where they stand now (R357, R408). -/
def State.portsSince (s : State) : Option Word := some (s.portsHeld.getD s.time)

/-- A checkpoint has reached its step 4: its copy may have begun (R432). -/
def State.copying (s : State) : Bool := s.checkpoint.any Checkpoint.holding

/-- A freeze of a scope starts: its broadcast goes out, every hart of the scope counts its skid from here, and the
grace clocks of the scope, with a package's link time-outs, stop (R354, R356, R357). -/
def State.startFreeze (f : FreezeScope) (s : State) : State :=
  ({ s with freezes := if s.freezes.contains f then s.freezes else s.freezes ++ [f]
            portsHeld := if f = .package then s.portsSince else s.portsHeld
            gangs := s.gangs.map (Gang.stopClock f s.time) } : State).mapHarts fun h =>
    if freezeCovers f h.core && !h.frozen && h.dbg.skidFrom.isNone then
      { h with dbg := { h.dbg with skidFrom := some h.retired } }
    else h

/-- An event sets its bit in sevent at every resident hart whose sint.eve is 1 (R327). -/
def State.raiseEvent (bit : Nat) (s : State) : State :=
  s.mapHarts fun h =>
    if h.eve && h.resident then { h with sevent := h.sevent ||| (1#9 <<< bit) } else h

/-- A watched range of 2^len bytes holds an address (R350). -/
def watchHolds (addr len a : Nat) : Bool :=
  let n := 2 ^ min len 16
  decide (addr / n * n ≤ a ∧ a < addr / n * n + n)

/-- A target-side unit watches an access to a home address, under either name of the byte (R353). -/
def targetHit (addr : Word) (ctl : BitVec 11) (a : Nat) (n : Nat) (ld st : Bool) : Bool :=
  ctl.getLsbD 0 && !ctl.getLsbD 8 && ((ld && ctl.getLsbD 1) || (st && ctl.getLsbD 2)) &&
    (List.range n).any fun i =>
      watchHolds addr.toNat (ctl.extractLsb' 3 5).toNat (a + i) ||
        (isHbmHome (a + i) &&
          watchHolds addr.toNat (ctl.extractLsb' 3 5).toNat
            (0x8000000000 + aliasOf ((a + i) / 0x1000000000) ((a + i) % 0x1000000000)))

/-- A stop's cause waits for a hart that the stop's freeze covers; the stop that reached the hart first keeps its own
(R353, R357). One that a migrate trap has stopped shows that another stop froze it (R389). Where the access was a
stepped hart's the step ends with its own cause 5, and a hart outside the unit's scope, which no freeze of the unit stops,
records no cause 3: neither R353 nor R358 says so (log 84). -/
def Hart.noteCause (f : FreezeScope) (cause : BitVec 4) (unit : BitVec 2) (h : Hart) : Hart :=
  if freezeCovers f h.core && h.dbg.causeDue.isNone && h.dbg.skidFrom.isNone && !h.frozen && !h.migrating then
    { h with dbg := { h.dbg with causeDue := some (cause, unit) } }
  else h

/-- One firing of a target-side unit of a cluster (R353). With no debugger attached it starts no freeze: the program
of R368 then ends all the same (log 47). -/
def State.fire (who : Requester) (cluster unit : Nat) (scope : BitVec 2) (s : State) : State :=
  if !s.attached then s
  else
    let f := freezeScopeOf scope cluster
    let s := match who with
      | .hart n _ => s.modHart n (Hart.noteCause f 3 (BitVec.ofNat 2 unit))
      | _ => s
    s.startFreeze f

/-- The units of one cluster look at an access. -/
def State.watchCluster (who : Requester) (a n : Nat) (ld st : Bool) (cluster : Nat) (c : Cluster) (s : State) :
    State :=
  (List.range 4).foldl (fun s u =>
    let ctl := c.dtc.toList.getD u 0
    if targetHit (c.dta.toList.getD u 0) ctl a n ld st then
      s.fire who cluster u (ctl.extractLsb' 9 2)
    else s) s

/-- Every target-side unit of the package looks at an access that performs at a die (R353). -/
def State.watchDie (who : Requester) (a n : Nat) (ld st : Bool) (s : State) : State :=
  if s.clusters.all fun c => c.dtc.toList.all fun ctl => !ctl.getLsbD 0 then s
  else (s.clusters.zipIdx).foldl (fun s p => s.watchCluster who a n ld st p.2 p.1) s

/-- A write that performs at a die touches the wake lines armed on its block (R260). -/
def State.touchDie (a : Nat) (s : State) : State :=
  s.mapHarts fun h =>
    match h.wake with
    | some w => if w.place = .device (a / 128) then { h with wake := some { w with touched := true } } else h
    | none => h

/-! ## Poison (R240) -/

/-- Some granule of a range of home addresses is poisoned. -/
def State.poisoned (s : State) (a n : Nat) : Bool :=
  s.poison.any fun g => decide (g < a + n ∧ a < g + 32)

/-- The first poisoned address of a range. -/
def State.mark (g : Nat) (s : State) : State :=
  if s.poison.contains g then s else { s with poison := g :: s.poison }

/-- A store clears the marks of the granules that it writes whole, and keeps the others (R240). -/
def State.clearMarks (addrs : List Nat) (s : State) : State :=
  if s.poison = [] then s
  else { s with poison := s.poison.filter fun g => !(List.range 32).all fun i => addrs.contains (g + i) }

/-! ## Service classes and deadlines (R378 to R381) -/

/-- The service class and the deadline offset of a requester's requests (R379; log 18 for the write-backs that no
instruction asks for). -/
def State.classOf (s : State) (who : Requester) : BitVec 2 × BitVec 15 :=
  match who with
  | .hart n _ | .walker n _ =>
    match s.findHart n with
    | some h => (h.msc, h.moff)
    | none => (0, 0)
  | .engine _ _ m _ => (m.extractLsb' 0 2, m.extractLsb' 16 15)
  | .cache _ | .scheduler _ => (0, 0)
  | .host | .queueManager | .collective | .port _ => (1, 250)
  | .scarab => (2, 0)
  | .background _ => (3, 0)

/-- The stamp of the current time with an offset (R379). -/
def stampOf (time : Word) (off : Nat) : BitVec 16 := BitVec.ofNat 16 (time.toNat / 4 + off)

/-- Stamp a is earlier than stamp b (R379). -/
def earlier (a b : BitVec 16) : Bool := decide (1 ≤ (b - a).toNat ∧ (b - a).toNat ≤ 32767)

/-- One missed deadline of a requester (R381); a counter stops at its greatest value. -/
def countMiss (id : Nat) : List (Nat × BitVec 32) → List (Nat × BitVec 32)
  | [] => [(id, 1)]
  | (k, n) :: t => if k = id then (k, if n = BitVec.allOnes 32 then n else n + 1) :: t else (k, n) :: countMiss id t

/-- A request whose service begins now counts a miss if its deadline has passed (R381). -/
def Die.serve (now : BitVec 16) (r : ChannelRequest) (m : List (Nat × BitVec 32)) : List (Nat × BitVec 32) :=
  if r.off != 0 && earlier r.stamp now then countMiss r.requester.toNat m else m

/-- The channel of a stack offset (R380). -/
def channelOf (off : Nat) : Nat := Nat.xor (off / 128 % 32) (off / 4096 % 32)

/-- The time at which a requester's request issued: the engines form their stamps at the issue of the COPY, FILL or
CHAIN, and a request that waited for a link keeps the stamp formed before the wait (R379). -/
def State.issuedAt (s : State) (who : Requester) : Word :=
  match who with
  | .engine _ _ _ t => t
  | .hart n _ | .walker n _ => (((s.findHart n).bind Hart.linkHold).map LinkHold.since).getD s.time
  | _ => s.time

/-! ## Links and routes (R371 to R377) -/

/-- The memory dies to which a compute die slot links (R371). -/
def slotDies (slot : Nat) : List Nat :=
  match slot with
  | 0 | 4 => [0, 1, 4, 5]
  | 1 | 5 => [2, 3, 6, 7]
  | 2 => [0, 2, 4, 6]
  | 3 => [1, 3, 5, 7]
  | _ => []

/-- The number that a memory die gives its link to a slot: the linked slots in ascending order from 2 (R377). -/
def slotLink (die slot : Nat) : Nat := 2 + ((List.range slot).filter fun t => (slotDies t).contains die).length

/-- The path of a request: the links that it crosses, each as a die and the link's number there, and its hop count. -/
structure Path where
  links : List (Nat × Nat)
  hops : Nat
  deriving DecidableEq, Repr

/-- The path from a compute die slot to memory die k (R372): the slot's own link, else by the lower ring neighbour
that it links to, else by the upper one. -/
def slotPath (slot k : Nat) : Path :=
  let lo := (k + 7) % 8
  let hi := (k + 1) % 8
  if (slotDies slot).contains k then ⟨[(k, slotLink k slot)], 0⟩
  else if (slotDies slot).contains lo then ⟨[(lo, slotLink lo slot), (lo, 1)], 1⟩
  else ⟨[(hi, slotLink hi slot), (hi, 0)], 1⟩

/-- The path of a requester's request to a memory die (R372): from a cluster by its slot, from the I/O die by the link
to it, from the die's own agents by none. -/
def Requester.path (who : Requester) (k : Nat) : Path :=
  match who with
  | .hart _ core | .walker _ core => slotPath (slotOfCluster (core / 16)) k
  | .cache c | .engine _ c _ _ | .scheduler c => slotPath (slotOfCluster c) k
  | .host | .collective | .queueManager | .scarab | .port _ => ⟨[(k, 5)], 0⟩
  | .background _ => ⟨[], 0⟩

/-- The compute die slot that a requester lies on; none for the I/O die's agents and the dies' own. -/
def Requester.slot (who : Requester) : Option Nat :=
  match who with
  | .hart _ core | .walker _ core => some (slotOfCluster (core / 16))
  | .cache c | .engine _ c _ _ | .scheduler c => some (slotOfCluster c)
  | .host | .collective | .queueManager | .scarab | .port _ | .background _ => none

/-- The path of a requester's access to host memory (R383): its slot's link to a memory die that the slot links to, and
that die's link to the I/O die; which of the linked dies is free. -/
def Requester.hostPath (draw : Nat) (who : Requester) : Path :=
  match who.slot with
  | none => ⟨[], 0⟩
  | some slot =>
    let via := (slotDies slot).getD (Config.hostVia draw slot).val 0
    ⟨[(via, slotLink via slot), (via, 5)], 0⟩

/-- A link of a die. -/
def State.link (s : State) (die l : Nat) : Link := (s.die die).links.toList.getD l Link.reset

/-- A link carries nothing: a window is open on it, or it is marked failed (R374, R376). -/
def Link.shut (k : Link) : Bool := k.train || k.failed

/-- A request meets the first link of its path that carries nothing; the step's effects are then not taken, and what
it issued for waits (R374, R376; log 48). -/
def State.meetLinks (p : Path) (s : State) : State :=
  if s.held.isSome then s
  else { s with held := p.links.find? fun x => (s.link x.1 x.2).shut }

/-- The channel of a request that the memory-side cache does not serve, none where it serves it or the target is SRAM
(R235, R380): a compressed request's sectors lie in some channel, which is free. -/
def State.channelFor (s : State) (a : Nat) : Option Nat :=
  if (decide ((s.splitOf (homeDie a)) < 12) && Config.cacheServes s.steps a) then none
  else if isHbmHome a then some (channelOf (a % 0x1000000000))
  else if isCompressedHome a then some (Config.poolChannel s.steps (a / 4096)).val
  else none

/-- A request of a die's own background work, which has no deadline, waits in a channel (R382). -/
def State.requestBackground (k channel : Nat) (s : State) : State :=
  s.modDie k fun d =>
    { d with channels := d.channels.mapIdx fun i q =>
        if i = channel then
          { q with waiting := q.waiting ++ [⟨(Requester.background k).id, 3, 0, stampOf s.time 0⟩] }
        else q }

/-- A request reaches its die (R372, R379 to R381): it is served by the memory-side cache, after a delay that is free,
or waits in its channel; which of the two is free (R235). One to host memory crosses the links on its way (R383). -/
def State.request (who : Requester) (a : Nat) (s : State) : State :=
  if homeDie a < 8 then
    let s := s.meetLinks (who.path (homeDie a))
    let (cls, off) := s.classOf who
    let r : ChannelRequest := ⟨who.id, cls, off, stampOf (s.issuedAt who) off.toNat⟩
    let now := stampOf s.time (Config.cacheDelay s.steps a)
    let q := s.channelFor a
    s.modDie (homeDie a) fun d =>
      { d with
        misses := if q.isSome then d.misses else Die.serve now r d.misses
        channels := d.channels.mapIdx fun i k =>
          if q = some i then { k with waiting := k.waiting ++ [r] } else k }
  else s.meetLinks (who.hostPath s.steps)

/-! ## Bytes of the dies and lines of the cluster caches -/

/-- The reader-count line of a home address. -/
def State.readerLine (s : State) (a : Nat) : Option ReaderLine :=
  if isHbmHome a then (s.die (homeDie a)).readers.find? fun l => l.base == lineOf a else none

/-- A byte as the memory die holds it. -/
def State.dieByte (s : State) (a : Nat) : Byte :=
  match s.readerLine a with
  | some l => l.data.toList.getD (a % 128) 0
  | none => Memory.get s.mem a

/-- Consecutive bytes as the memory dies hold them. -/
def State.dieBytes (s : State) (a n : Nat) : List Byte := (List.range n).map fun i => s.dieByte (a + i)

/-- A reader-count line becomes an ordinary write-back line: its data are memory's (R236). -/
def State.ordinaryLine (b : Nat) (s : State) : State :=
  match s.readerLine b with
  | some l =>
    ({ s with mem := Memory.putAll s.mem (cellsFrom b l.data.toList) } : State).modDie (homeDie b) fun d =>
      { d with readers := d.readers.filter fun l => l.base != b }
  | none => s

/-- A drop is over once the line is written (R234, R236). -/
def State.undrop (b : Nat) (s : State) : State :=
  if isHbmHome b && (s.die (homeDie b)).dropped.contains b then
    s.modDie (homeDie b) fun d => { d with dropped := d.dropped.erase b }
  else s

/-- The line of a cluster cache that a PA lies in (R228: tagged by PA). -/
def State.lineAt (s : State) (c pa : Nat) : Option Line :=
  (s.cluster c).lines.find? fun l => l.base == lineOf pa

/-- A line that holds nothing. -/
def Line.empty (base : Nat) (prio : BitVec 2) : Line :=
  ⟨base, Vector.replicate 128 ⟨false, false, 0, none⟩, 0, prio, 0⟩

/-- A byte of a line. -/
def Line.byte (l : Line) (i : Nat) : CacheByte := l.bytes.toList.getD i ⟨false, false, 0, none⟩

/-- The bytes of a read at the die with the dirty bytes of a cluster's line laid over them (R38, R272, R280). -/
def State.underDirty (s : State) (c pa : Nat) (d : List Byte) : List Byte :=
  match s.lineAt c pa with
  | none => d
  | some l => (List.range d.length).map fun i =>
      if (l.byte (pa % 128 + i)).dirty then (l.byte (pa % 128 + i)).val else d.getD i 0

/-! ## Words as they were before a write (R38; log 10) -/

/-- The PAs that name a home address: its own, and that of the alias of an HBM byte (R227). -/
def namesOf (a : Nat) : List Nat :=
  if isHbmHome a then [a, 0x8000000000 + aliasOf (a / 0x1000000000) (a % 0x1000000000)] else [a]

/-- The name by which a cluster's cache holds dirty bytes of the word at a home address. -/
def State.dirtyOver (s : State) (c a : Nat) : Option Nat :=
  (namesOf a).find? fun pa =>
    (s.lineAt c pa).any fun l => (List.range 4).any fun i => (l.byte (pa % 128 + i)).dirty

/-- A word as bytes hold it. -/
def wordOfBytes (d : List Byte) : BitVec 32 := BitVec.ofNat 32 (natOfBytes d)

/-- The word at a home address as it stands: for each cluster whose cache holds dirty bytes of it, and for the others. -/
def State.wordViews (s : State) (a : Nat) : List PriorWord :=
  let d := s.dieBytes a 4
  let dirties := (List.range s.clusters.length).filterMap fun c => (s.dirtyOver c a).map fun pa => (c, pa)
  ⟨a, .others (dirties.map Prod.fst), wordOfBytes d⟩ ::
    dirties.map fun p => ⟨a, .cluster p.1, wordOfBytes (s.underDirty p.1 p.2 d)⟩

/-- The words that a write to home addresses is about to replace are noted for fetches. -/
def State.notePriors (addrs : List Nat) (s : State) : State :=
  { s with priors := s.priors ++ (addrs.map fun a => a / 4 * 4).eraseDups.flatMap s.wordViews }

/-- The words that a store of n bytes in a cluster's cache is about to replace, as the cluster sees them. -/
def State.noteInside (c pa home n : Nat) (s : State) : State :=
  { s with priors := s.priors ++ (List.range ((home % 4 + n + 3) / 4)).map fun i =>
      ⟨home / 4 * 4 + 4 * i, .cluster c,
        wordOfBytes (s.underDirty c (pa / 4 * 4 + 4 * i) (s.dieBytes (home / 4 * 4 + 4 * i) 4))⟩ }

/-- A cluster has a prior word as it was. -/
def PriorView.admits (v : PriorView) (c : Nat) : Bool :=
  match v with
  | .cluster d => c == d
  | .others cs => !cs.contains c

/-- The value of written bytes is specified again (R234, R303). -/
def State.settleBytes (addrs : List Nat) (s : State) : State :=
  if s.loose = [] then s else { s with loose := s.loose.filter fun a => !addrs.contains a }

/-- The value of n bytes from a home address is unspecified until they are written (R3; log 5). -/
def State.loosen (a n : Nat) (s : State) : State :=
  { s with loose := (List.range n).map (a + ·) ++ s.loose.filter fun b => !decide (a ≤ b ∧ b < a + n) }

/-! ## Machine checks and errors (R239, R240, R332) -/

/-- The bytes of a machine-check record (R332). -/
def checkRecord (kind : BitVec 8) (req : BitVec 11) (pa time detail : Word) : List Byte :=
  bytesOf 8 (kind.toNat + 256 * req.toNat) ++ bytesOf 8 pa.toNat ++ bytesOf 8 time.toNat ++
    bytesOf 8 detail.toNat

/-- A write of bytes of one line that no request carries: R370 names no requester for it, so that it has no id, no path
and no channel (log 78). -/
def State.writeUnasked (k : Nat) (a : Nat) (data : List Byte) (s : State) : State :=
  let cells := cellsFrom a data
  let addrs := cells.map Prod.fst
  let s := ((s.notePriors addrs).ordinaryLine (lineOf a)).undrop (lineOf a)
  let s := (({ s with mem := Memory.putAll s.mem cells } : State).clearMarks addrs).settleBytes addrs
  if k < 8 then (s.touchDie a).watchDie (.background k) a data.length false true else s

/-- A machine-check record is logged in the ring at mclog, sets sevent.mce and is signalled (R332, R425). -/
def State.logCheck (kind : BitVec 8) (req : BitVec 11) (pa detail : Word) (s : State) : State :=
  let n := 128 * (max 1 s.mclogUnits.toNat)
  let at_ := s.mclogBase.toNat * 4096 + 32 * (s.mclogIndex % n)
  let s := match s.homeOf at_ with
    | some a => s.writeUnasked (homeDie a) a (checkRecord kind req pa s.time detail)
    | none => s
  ((({ s with mclogIndex := (s.mclogIndex + 1) % n } : State).raiseEvent 8).send (.msix 0 3))

/-- An error of a granule is met (R239, R240): the code corrects it, writes the granule back and counts it, or the
granule is marked and a record of the given kind names the requester; one already marked raises no further record. -/
def State.meetError (kind : BitVec 8) (who : Requester) (e : Nat × Bool) (s : State) : State :=
  if e.2 then s.modDie (homeDie e.1) fun d => { d with corrected := d.corrected + 1 }
  else if s.poison.contains e.1 then s
  else (s.mark e.1).logCheck kind who.id (BitVec.ofNat 64 e.1) 0

/-- A read of n bytes meets the errors of their granules. -/
def State.readErrors (who : Requester) (a n : Nat) (s : State) : State :=
  if s.errors = [] then s
  else
    let met (e : Nat × Bool) : Bool := decide (e.1 < a + n ∧ a < e.1 + 32)
    (s.errors.filter met).foldl (fun s e => s.meetError 1 who e)
      { s with errors := s.errors.filter fun e => !met e }

/-- A store of bytes at addresses meets the errors of the granules that it writes in part, whose read half it needs;
a granule written whole has a new code. -/
def State.storeErrors (who : Requester) (addrs : List Nat) (s : State) : State :=
  if s.errors = [] then s
  else
    let met (e : Nat × Bool) : Bool := (List.range 32).any fun i => addrs.contains (e.1 + i)
    let whole (e : Nat × Bool) : Bool := (List.range 32).all fun i => addrs.contains (e.1 + i)
    (s.errors.filter fun e => met e && !whole e).foldl (fun s e => s.meetError 2 who e)
      { s with errors := s.errors.filter fun e => !met e }

/-! ## Errors of TCM, scratchpads, cluster-cache lines and vector registers (R239, R240) -/

/-- A granule lies within n bytes from a place of the same memory. -/
def granuleWithin (at_ : LocalGranule) (n : Nat) (g : LocalGranule) : Bool :=
  let near (a b : Nat) : Bool := decide (b < a + n ∧ a < b + 32)
  match at_, g with
  | .tcm c a, .tcm d b => c == d && near a b
  | .scratch k a, .scratch l b => k == l && near a b
  | .line c a, .line d b => c == d && near a b
  | .register h r a, .register k q b => h == k && r == q && near a b
  | _, _ => false

/-- A granule lies whole within n bytes from a place of the same memory. -/
def granuleCovered (at_ : LocalGranule) (n : Nat) (g : LocalGranule) : Bool :=
  let offset (g : LocalGranule) : Nat := match g with
    | .tcm _ a | .scratch _ a | .line _ a | .register _ _ a => a
  granuleWithin at_ n g && decide (offset at_ ≤ offset g ∧ offset g + 32 ≤ offset at_ + n)

/-- A corrected error is counted where the granule lies. -/
def State.countCorrected (g : LocalGranule) (s : State) : State :=
  match g with
  | .tcm core _ => s.modCore core fun c => { c with corrected := c.corrected + 1 }
  | .scratch gang _ => s.modCluster (s.gang gang).cluster fun c => { c with corrected := c.corrected + 1 }
  | .line cluster _ => s.modCluster cluster fun c => { c with corrected := c.corrected + 1 }
  | .register h _ _ =>
    match s.findHart h with
    | some k => s.modCore k.core fun c => { c with corrected := c.corrected + 1 }
    | none => s

/-- The granule of a line that an address lies in is marked, where the line is that address's. -/
def Line.markAt (pa : Nat) (l : Line) : Line :=
  if l.base = lineOf pa then { l with poison := l.poison ||| (1#4 <<< (pa % 128 / 32)) } else l

/-- The mark of a granule of a cluster-cache line. -/
def State.markLine (cluster pa : Nat) (s : State) : State :=
  s.modCluster cluster fun k => { k with lines := k.lines.map (Line.markAt pa) }

/-- A granule is marked already. The spec gives a poisoned granule of a vector register no consumer, and none is marked
(log 64). -/
def State.localMarked (s : State) (g : LocalGranule) : Bool :=
  match g with
  | .tcm core off => (s.core core).tcmPoison.contains off
  | .scratch gang off => (s.gang gang).scratchPoison.contains off
  | .line cluster pa => (s.cluster cluster).lines.any fun l => l.base == lineOf pa && l.poison.getLsbD (pa % 128 / 32)
  | .register _ _ _ => false

/-- The mark of a granule. -/
def State.markLocal (g : LocalGranule) (s : State) : State :=
  match g with
  | .tcm core off => s.modCore core fun c => { c with tcmPoison := off :: c.tcmPoison }
  | .scratch gang off => s.modGang gang fun h => { h with scratchPoison := off :: h.scratchPoison }
  | .line cluster pa => s.markLine cluster pa
  | .register _ _ _ => s

/-- The PA that a record of a granule names: that of a line; the other memories have none (log 64). -/
def granulePa (g : LocalGranule) : Nat :=
  match g with
  | .line _ pa => pa
  | .tcm _ _ | .scratch _ _ | .register _ _ _ => 0

/-- An error of a granule is met, as at a die. -/
def State.meetLocal (kind : BitVec 8) (who : Requester) (e : LocalGranule × Bool) (s : State) : State :=
  if e.2 then s.countCorrected e.1
  else if s.localMarked e.1 then s
  else (s.markLocal e.1).logCheck kind who.id (BitVec.ofNat 64 (granulePa e.1)) 0

/-- A read of n bytes from a place meets the errors of their granules. -/
def State.readLocal (who : Requester) (at_ : LocalGranule) (n : Nat) (s : State) : State :=
  if s.localErrors = [] then s
  else
    (s.localErrors.filter fun e => granuleWithin at_ n e.1).foldl (fun s e => s.meetLocal 1 who e)
      { s with localErrors := s.localErrors.filter fun e => !granuleWithin at_ n e.1 }

/-- A store of n bytes at a place meets the errors of the granules that it writes in part; a granule written whole has
a new code. -/
def State.storeLocal (who : Requester) (at_ : LocalGranule) (n : Nat) (s : State) : State :=
  if s.localErrors = [] then s
  else
    (s.localErrors.filter fun e => granuleWithin at_ n e.1 && !granuleCovered at_ n e.1).foldl (fun s e => s.meetLocal 2 who e)
      { s with localErrors := s.localErrors.filter fun e => !granuleWithin at_ n e.1 }

/-! ## Translation, as a look at the tables (R230) -/

/-- The kinds of access that scause.acc names (R324). -/
inductive Access where
  | load
  | store
  | atomic
  | fetch
  | matrix
  deriving DecidableEq, Repr

/-- What a walk finds. -/
inductive Walk where
  | leaf (entry : Word) (level : Nat)
  | fault (code : BitVec 8)
  deriving DecidableEq, Repr

/-- Bits of a VA below the index of a level (R230). -/
def leafBits (level : Nat) : Nat := if level = 1 then 42 else if level = 2 then 29 else 16

/-- The entry is malformed at its level (R230). -/
def entryBad (e : Word) (level : Nat) : Bool :=
  e.extractLsb' 6 2 != 0 || e.extractLsb' 10 6 != 0 || e.extractLsb' 48 16 != 0 || e.getLsbD 9 ||
    (level == 3 && !e.getLsbD 1) ||
    (e.getLsbD 1 && (e.extractLsb' 16 32).toNat * 65536 % 2 ^ leafBits level != 0)

/-- The PA of the entry of a VA in a table, at a level (R230). -/
def entryAt (va table level : Nat) : Nat := table + 8 * (va / 2 ^ leafBits level % 8192)

/-- What an entry that has been read says: the walk's end, or the table below. -/
def entryStep (bad : Bool) (e : Word) (level : Nat) : Walk ⊕ Nat :=
  if bad then .inl (.fault 0x0C)
  else if !e.getLsbD 0 || entryBad e level then .inl (.fault 0x0A)
  else if e.getLsbD 1 then .inl (.leaf e level)
  else .inr ((e.extractLsb' 16 32).toNat * 65536)

/-- What a walk of the levels that are left would find, with no entry read at a die. -/
def State.lookWalk (s : State) (va : Nat) : Nat → Nat → Walk
  | 0, _ => .fault 0x0A
  | left + 1, table =>
    match s.homeOf (entryAt va table (3 - left)) with
    | none => .fault 0x09
    | some a =>
      match entryStep (s.poisoned a 8) (BitVec.ofNat 64 (natOfBytes (s.dieBytes a 8))) (3 - left) with
      | .inl w => w
      | .inr next => s.lookWalk va left next

/-- A leaf entry lets an access of a kind pass at a level (R230). -/
def permitted (e : Word) (k : Access) (p : Priv) : Bool :=
  (match k with
    | .load | .matrix => e.getLsbD 2
    | .store => e.getLsbD 3
    | .atomic => e.getLsbD 2 && e.getLsbD 3
    | .fetch => e.getLsbD 4) && (p != .user || e.getLsbD 5)

/-! ## Unspecified values (R3) -/

/-- The byte that a hart may read at a VA, none where its load would fault (R222, R230). -/
def State.readable (s : State) (h : Hart) (va : Nat) : Option Byte :=
  if 0x7FFFFFFF000000 ≤ va ∧ va < 0x7FFFFFFF000000 + 4096 * (s.gang h.name.gang).scr then
    some ((cellGet (s.gang h.name.gang).scratch (va - 0x7FFFFFFF000000)).getD 0)
  else if 0x7FFFFFFFFC0000 + 4096 * h.tcmBase ≤ va ∧ va < 0x7FFFFFFFFC0000 + 4096 * (h.tcmBase + h.tcmUnits) then
    some (Memory.get (s.core h.core).tcm (va - 0x7FFFFFFFFC0000))
  else if 0x7FFFFF00000000 ≤ va then none
  else if h.xlat.en then
    match s.lookWalk va 3 (h.xlat.root.toNat * 65536) with
    | .leaf e level =>
      if permitted e .load h.priv then
        (s.homeOf ((e.extractLsb' 16 32).toNat * 65536 + va % 2 ^ leafBits level)).map s.dieByte
      else none
    | .fault _ => none
  else if va < 0x1000000000000 then (s.homeOf va).map s.dieByte
  else none

/-- One byte of an unspecified value (R3): zero, or a byte of data that the reading context may read, at the address that
the free value picks. An agent that is no hart's has no context of its own: any byte of memory stands for what it may
read (log 2). -/
def State.permittedByte (s : State) (who : Requester) (pick : Option Nat) : Byte :=
  match pick with
  | none => 0
  | some a =>
    match who.hart? with
    | some n => ((s.findHart n).bind fun h => s.readable h a).getD 0
    | none => s.dieByte a

/-- The bytes that a requester's read finds at a die: those that are unspecified are drawn anew (R3). -/
def State.seenBytes (s : State) (who : Requester) (a n : Nat) : List Byte :=
  if s.loose = [] then s.dieBytes a n
  else (List.range n).map fun i =>
    if s.loose.contains (a + i) then s.permittedByte who (Config.looseByte s.steps (a + i)) else s.dieByte (a + i)

/-! ## Reads at a die -/

/-- A read now of a line that was dropped returns zero, not HBM's value (R236): which of the two, each such read chooses
anew (log 9). -/
def State.readsZero (s : State) (a : Nat) : Bool :=
  isHbmHome a && (s.die (homeDie a)).dropped.contains (lineOf a) && !Config.dropReadsHbm s.steps (lineOf a)

/-- What one read of a line does to its reader count (R236). A read that finds no line after a drop is counted; it may
bring the line in, with the value that it returns, and the drop is then over (log 9). -/
def State.countRead (a : Nat) (s : State) : State :=
  if !isHbmHome a then s
  else
    let k := homeDie a
    let b := lineOf a
    let d := s.die k
    match d.readers.find? fun l => l.base == b with
    | some l =>
      if l.count.toNat ≤ 1 then
        s.modDie k fun d =>
          { d with readers := d.readers.filter fun l => l.base != b, dropped := b :: d.dropped }
      else
        s.modDie k fun d =>
          { d with readers := d.readers.map fun l => if l.base = b then { l with count := l.count - 1 } else l }
    | none =>
      if d.dropped.contains b then
        let s' := s.modDie k fun d => { d with rcund := d.rcund + 1 }
        if Config.dropSettles s.steps b then
          let s' := s'.modDie k fun d => { d with dropped := d.dropped.erase b }
          if s.readsZero a then { s' with mem := Memory.putAll s'.mem (cellsFrom b (List.replicate 128 0)) } else s'
        else s'
      else s

/-- One read of n bytes of one line by a requester: the bytes, and the state after it. -/
def State.readDie (who : Requester) (a n : Nat) (s : State) : List Byte × State :=
  (if s.readsZero a then List.replicate n 0 else s.seenBytes who a n,
    (((s.request who a).readErrors who a n).countRead a).watchDie who a n true false)

/-! ## The compressed window -/

/-- The sectors of a pool when nothing is stored (R237): the pool less the translation table and the reserve. -/
def poolSectors (gib : Nat) : Nat := if gib = 0 then 0 else gib * 4194304 - 2097152 - 65536

/-- The bytes of a logical block. -/
def State.blockUniform (b : Nat) (s : State) : Bool :=
  let first := Memory.get s.mem (b * 4096)
  (List.range 4096).all fun i => Memory.get s.mem (b * 4096 + i) == first

/-- Low-water crossing of a die (R238). -/
def State.lowWater (k : Nat) (s : State) : State :=
  let d := s.die k
  if d.cplow ≠ 0 ∧ d.cpfree.toNat < d.cplow.toNat then
    if d.lowArmed then (s.modDie k fun d => { d with lowArmed := false }).raiseEvent k else s
  else if d.lowArmed then s
  else s.modDie k fun d => { d with lowArmed := true }

/-- The compression engine places a written block (R237, R238): one sector for a block of one value, else as
many as it decides; what the block took before is free again. Without room the block keeps its sectors of the pool and
takes the others from the overflow reserve, and past the reserve the write is not stored and the block is poisoned. -/
def State.placeBlock (who : Requester) (before : List Host.Cell) (a : Nat) (s : State) : State :=
  let k := homeDie a
  let b := a / 4096
  let d := s.die k
  let (pool, reserve) := ((d.blocks.find? fun p => p.1 == b).map Prod.snd).getD (0, 0)
  let new := if s.blockUniform b then 1 else 1 + (Config.sectors s.steps b).val
  let put (pool reserve : Nat) (d : Die) : Die :=
    { d with blocks := (b, pool, reserve) :: d.blocks.filter fun p => p.1 != b }
  if new ≤ pool + d.cpfree.toNat then
    (s.modDie k fun d =>
      { put new 0 d with cpfree := d.cpfree + BitVec.ofNat 32 pool - BitVec.ofNat 32 new
                         reserveUsed := d.reserveUsed - reserve }).lowWater k
  else if d.reserveUsed - reserve + (new - pool) ≤ 65536 then
    (s.modDie k fun d =>
      { put pool (new - pool) d with reserveUsed := d.reserveUsed - reserve + (new - pool) }).logCheck 3 who.id
      (BitVec.ofNat 64 a) 0
  else
    let s := { s with mem := before }
    let s := (List.range 128).foldl (fun s i => s.mark (b * 4096 + 32 * i)) s
    s.logCheck 4 who.id (BitVec.ofNat 64 a) 0

/-! ## Writes at a die -/

/-- Bytes laid over the data of a line. -/
def overlay (d : Vector Byte 128) (cells : List (Nat × Byte)) : Vector Byte 128 :=
  cells.foldl (fun d c => d.setIfInBounds (c.1 % 128) c.2) d

/-- The line of memory at a base. -/
def State.memLine (s : State) (b : Nat) : Vector Byte 128 := Vector.ofFn fun i : Fin 128 => Memory.get s.mem (b + i.val)

/-- The runs of consecutive bytes that one requester wrote. -/
def writtenRuns : List (Requester × Nat) → List (Requester × Nat × Nat)
  | [] => []
  | (r, a) :: t =>
    match writtenRuns t with
    | (q, b, n) :: rest => if r = q ∧ b = a + 1 then (r, a, n + 1) :: rest else (r, a, 1) :: (q, b, n) :: rest
    | [] => [(r, a, 1)]

/-- One ordinary write of bytes of one line by a requester, which the stores of harts may have caused: the target-side
units see who wrote each run of bytes (R236, R240, R260, R353). -/
def State.writeDieBy (runs : List (Requester × Nat × Nat)) (who : Requester) (cells : List (Nat × Byte)) (s : State) :
    State :=
  match cells with
  | [] => s
  | (a, _) :: _ =>
    let addrs := cells.map Prod.fst
    let s := ((((s.notePriors addrs).request who a).storeErrors who addrs).ordinaryLine (lineOf a)).undrop (lineOf a)
    let before := s.mem
    let s := (({ s with mem := Memory.putAll s.mem cells } : State).clearMarks addrs).settleBytes addrs
    let s := if isCompressedHome a then s.placeBlock who before a else s
    runs.foldl (fun s r => s.watchDie r.1 r.2.1 r.2.2 false true) (s.touchDie a)

/-- One ordinary write of bytes of one line by a requester. -/
def State.writeDie (who : Requester) (cells : List (Nat × Byte)) (s : State) : State :=
  s.writeDieBy (writtenRuns (cells.map fun c => (who, c.1))) who cells

/-- The reader-count lines that a die's memory-side cache has room for (R235). -/
def State.readerRoom (s : State) (k : Nat) : Nat := (96 - 8 * s.splitOf k) * 8192

/-- A memory-side cache that holds more reader-count lines than it has lines evicts one, which is ordinary then; which
one is free. Where it has no lines, the one that was stored goes (R235, R236). -/
def State.fitReaders (b : Nat) (s : State) : State :=
  let k := homeDie b
  let held := (s.die k).readers
  if s.readerRoom k = 0 then s.ordinaryLine b
  else if held.length ≤ s.readerRoom k then s
  else
    match held[Config.readerVictim s.steps % held.length]? with
    | some l => s.ordinaryLine l.base
    | none => s

/-- One reader-count store of bytes of one line (R236). On a die without a memory-side cache the line is evicted at
once and is ordinary (R235). Ordinary stores at the die count as written back to HBM at once, so that what a dropped line
leaves behind is the latest of them (log 9). -/
def State.writeReader (who : Requester) (count : BitVec 6) (cells : List (Nat × Byte)) (s : State) : State :=
  match cells with
  | [] => s
  | (a, _) :: _ =>
    let b := lineOf a
    let addrs := cells.map Prod.fst
    let s := (((s.notePriors addrs).request who a).storeErrors who addrs).undrop b
    let data := overlay (match s.readerLine b with | some l => l.data | none => s.memLine b) cells
    let s := (s.modDie (homeDie b) fun d =>
      { d with readers := ⟨b, count, data⟩ :: d.readers.filter fun l => l.base != b }).fitReaders b
    (((s.clearMarks addrs).settleBytes addrs).touchDie a).watchDie who a cells.length false true

/-- Cells in runs of one line. -/
def byLine (cells : List (Nat × Byte)) : List (List (Nat × Byte)) :=
  cells.splitBy fun x y => x.1 / 128 == y.1 / 128

/-- Writes of bytes over several lines, in order. -/
def State.writeDieAll (who : Requester) (cells : List (Nat × Byte)) (s : State) : State :=
  (byLine cells).foldl (fun s l => s.writeDie who l) s

/-- Reads of consecutive bytes over several lines: one read for each line. -/
def State.readDieLines (who : Requester) : Nat → Nat → Nat → State → List Byte × State
  | 0, _, _, s => ([], s)
  | fuel + 1, a, n, s =>
    if n = 0 then ([], s)
    else
      let k := min n (128 - a % 128)
      let (d, s) := s.readDie who a k
      let (r, s) := State.readDieLines who fuel (a + k) (n - k) s
      (d ++ r, s)

/-- Reads of consecutive bytes. -/
def State.readDieAll (who : Requester) (a n : Nat) (s : State) : List Byte × State :=
  State.readDieLines who (n / 128 + 2) a n s

/-- An atomic at the atomic unit (R250, R251): one read, then one ordinary store, the line ordinary after it. -/
def State.atomicDie (who : Requester) (a n : Nat) (f : Nat → Nat) (s : State) : Nat × State :=
  let zero := s.readsZero a
  let addrs := (List.range n).map (a + ·)
  let s := ((((s.notePriors addrs).request who a).readErrors who a n).ordinaryLine (lineOf a)).countRead a
  let s := s.undrop (lineOf a)
  let old := if zero then 0 else natOfBytes (s.seenBytes who a n)
  let before := s.mem
  let cells := cellsFrom a (bytesOf n (f old))
  let s := ({ s with mem := Memory.putAll s.mem cells } : State).settleBytes addrs
  let s := if isCompressedHome a then s.placeBlock who before a else s
  (old, (s.touchDie a).watchDie who a n true true)

/-- A write of bytes of host memory (R226). -/
def State.putHost (who : Requester) (home : Nat) (data : List Byte) (s : State) : State :=
  let cells := cellsFrom home data
  let s := (s.notePriors (cells.map Prod.fst)).request who home
  ({ s with mem := Memory.putAll s.mem cells } : State).settleBytes (cells.map Prod.fst)

/-- An RC.POST of a requester at the die (R262). -/
def State.postReaders (who : Requester) (a n : Nat) (s : State) : State :=
  let s := s.request who a
  match s.readerLine a with
  | none => s
  | some l =>
    if l.count.toNat + n ≤ 63 then
      s.modDie (homeDie a) fun d =>
        { d with readers := d.readers.map fun m =>
            if m.base = l.base then { m with count := BitVec.ofNat 6 (l.count.toNat + n) } else m }
    else (s.ordinaryLine l.base).modDie (homeDie a) fun d => { d with rcovf := d.rcovf + 1 }

/-! ## The cluster cache -/

/-- A line that an access used: it stands first, the most recent of its cache (R234). -/
def State.putLine (c : Nat) (l : Line) (s : State) : State :=
  s.modCluster c fun k => { k with lines := l :: k.lines.filter fun m => m.base != l.base }

/-- A line changed in its place. -/
def State.setLine (c : Nat) (l : Line) (s : State) : State :=
  s.modCluster c fun k => { k with lines := k.lines.map fun m => if m.base = l.base then l else m }

/-- A line removed from a cluster cache. -/
def State.removeLine (c pa : Nat) (s : State) : State :=
  ({ s with localErrors := s.localErrors.filter fun e => !granuleWithin (.line c (lineOf pa)) 128 e.1 } :
    State).modCluster c fun k => { k with lines := k.lines.filter fun m => m.base != lineOf pa }

/-- A line holds every byte of a range of offsets. -/
def Line.holds (l : Line) (i n : Nat) : Bool := (List.range n).all fun j => (l.byte (i + j)).held

/-- The offsets of a line's dirty bytes. -/
def Line.dirty (l : Line) : List Nat := (List.range 128).filter fun i => (l.byte i).dirty

/-- A line whose dirty marks and class set are clear. -/
def Line.clean (l : Line) : Line :=
  { l with bytes := l.bytes.map fun b => { b with dirty := false, writer := none }, classes := 0 }

/-- A line without its clean bytes; a granule of which nothing is left has no mark. -/
def Line.dirtyOnly (l : Line) : Line :=
  { l with
      bytes := l.bytes.map fun b => if b.dirty then b else ⟨false, false, 0, none⟩
      poison := (List.range 4).foldl (fun m g =>
        if (l.dirty.any fun i => i / 32 == g) then m else m &&& ~~~(1#4 <<< g)) l.poison }

/-- Bytes stored in a line: held, and dirty with their writer or written through. A granule stored whole loses its
mark. -/
def Line.store (l : Line) (i : Nat) (data : List Byte) (dirty : Bool) (writer : Option (HartName × Nat)) : Line :=
  let bytes := (cellsFrom i data).foldl (fun v c => v.setIfInBounds c.1 ⟨true, dirty, c.2, writer⟩) l.bytes
  let whole (g : Nat) : Bool := decide (i ≤ 32 * g ∧ 32 * g + 32 ≤ i + data.length)
  let keep : BitVec 4 := (List.range 4).foldl (fun m g => if whole g then m &&& ~~~(1#4 <<< g) else m) l.poison
  { l with bytes := bytes, poison := keep }

/-- The write-back of a line's dirty bytes (R267); poison marks are kept in the target (R240). -/
def State.flushLine (who : Requester) (l : Line) (s : State) : State :=
  match s.homeOf l.base with
  | none => s
  | some a =>
    let d := l.dirty
    if d = [] then s
    else
      let by_ (i : Nat) : Requester := match (l.byte i).writer with
        | some (n, core) => .hart n core
        | none => who
      let s := s.writeDieBy (writtenRuns (d.map fun i => (by_ i, a + i))) who (d.map fun i => (a + i, (l.byte i).val))
      (List.range 4).foldl (fun s g =>
        if l.poison.getLsbD g && d.any fun i => i / 32 == g then s.mark (a + 32 * g) else s) s

/-- A write-back reads its line's granules, whose errors it meets (R239, R240). -/
def State.readLine (who : Requester) (c pa : Nat) (s : State) : State := s.readLocal who (.line c (lineOf pa)) 128

/-- A line's dirty bytes are written back and the line stays as clean. -/
def State.writeBack (who : Requester) (c pa : Nat) (s : State) : State :=
  let s := s.readLine who c pa
  match s.lineAt c pa with
  | none => s
  | some l => (s.flushLine who l).setLine c l.clean

/-- A line's dirty bytes are written back and the line is invalidated. -/
def State.evict (who : Requester) (c pa : Nat) (s : State) : State :=
  let s := s.readLine who c pa
  match s.lineAt c pa with
  | none => s
  | some l => (s.flushLine who l).removeLine c pa

/-- A drop without write-back: the value behind the line is unspecified until it is next written (R234). -/
def State.dropLine (c pa : Nat) (s : State) : State :=
  match s.lineAt c pa, s.homeOf (lineOf pa) with
  | some _, some a => (s.removeLine c pa).loosen a 128
  | _, _ => s

/-- A release of a class set at package or system scope writes back the lines that it meets (R267). -/
def State.release (who : Requester) (c : Nat) (classes : BitVec 16) (s : State) : State :=
  ((s.cluster c).lines.filter fun l => l.classes &&& classes != 0).foldl
    (fun s l => s.writeBack who c l.base) s

/-- The line of a set that goes when the set is full: the least recent of priority 1, then of priority 0, then of the
others (R234); which lines share a set is free. -/
def Cluster.victim (k : Cluster) (base : Nat) : Option Line :=
  let mates := k.lines.filter fun l => Config.cacheSet l.base == Config.cacheSet base
  ((mates.filter fun l => l.prio == 1).getLast?.orElse fun _ =>
    (mates.filter fun l => l.prio == 0).getLast?).orElse fun _ => mates.getLast?

/-- Scratchpad units of a cluster that no gang reserves (R202, R232). -/
def State.scratchLeft (s : State) (cluster : Nat) : Nat :=
  1024 - (s.gangs.filter fun g => g.cluster == cluster && !g.ended).foldl (fun n g => n + g.scr) 0

/-- No unit of a cluster is left to its cache, so that no line is allocated (R232). -/
def State.cacheless (s : State) (cluster : Nat) : Bool := s.scratchLeft cluster == 0

/-- The lines that the units left to a cluster's cache hold (R232). -/
def State.cacheLines (s : State) (cluster : Nat) : Nat := 32 * s.scratchLeft cluster

/-- A cache whose units are all full gives up a line before it takes another: the victim of its set, or where the set has
none the line used least recently (R232, R234). -/
def State.makeRoom (c pa : Nat) (s : State) : State :=
  if (s.lineAt c pa).isSome || decide ((s.cluster c).lines.length < s.cacheLines c) then s
  else
    match ((s.cluster c).victim (lineOf pa)).orElse fun _ => (s.cluster c).lines.getLast? with
    | some l => s.evict (.cache c) c l.base
    | none => s

/-- Every dirty line of a cluster is written back. -/
def State.releaseAll (who : Requester) (c : Nat) (s : State) : State :=
  (s.cluster c).lines.foldl (fun s l => s.writeBack who c l.base) s

/-- An acquire at package or system scope invalidates every clean byte of a cluster's cache (R266). -/
def State.acquire (c : Nat) (s : State) : State :=
  s.modCluster c fun k =>
    { k with lines := (k.lines.map Line.dirtyOnly).filter fun l => l.dirty != [] }

/-- A line has bytes that are held and not dirty. -/
def Line.cleanly (l : Line) : Bool := l.bytes.toList.any fun b => b.held && !b.dirty

/-- An acquire of classes by a hart: its loads of other classes may still find what the lines held (R272; log 72). -/
def Hart.notePast (classes : BitVec 16) (since : Nat) (lines : List Line) (h : Hart) : Hart :=
  if classes = 0xFFFF then { h with early := [] }
  else
    { h with early := (lines.filter Line.cleanly).map (fun l => ⟨since, l, classes, 0⟩) ++
        h.early.map fun e => { e with closed := e.closed ||| classes } }

/-- An acquire of a class set at package or system scope by the current hart (R266, R272). -/
def State.acquireFor (classes : BitVec 16) (s : State) : State :=
  (s.acquire s.hart.cluster).onHart (Hart.notePast classes s.steps (s.cluster s.hart.cluster).lines)

/-- The dirty bytes of the lines over a range of PAs are written back (R294). -/
def State.writeBackRange (who : Requester) (c pa n : Nat) (s : State) : State :=
  ((s.cluster c).lines.filter fun l => decide (l.base < pa + n ∧ pa < l.base + 128)).foldl
    (fun s l => s.writeBack who c l.base) s

/-- The clean bytes of the lines over a range of PAs are invalidated (R294). -/
def State.invalidateRange (c pa n : Nat) (s : State) : State :=
  s.modCluster c fun k =>
    { k with lines := (k.lines.map fun l =>
        if l.base < pa + n ∧ pa < l.base + 128 then l.dirtyOnly else l).filter fun l =>
          decide (l.base < pa + n ∧ pa < l.base + 128) = false || l.dirty != [] }

/-- The line of a PA filled from the die: one read of the line, its held bytes kept; a granule that takes bytes from
the die takes the die's mark (R240). -/
def State.fill (who : Requester) (c pa home : Nat) (prio : BitVec 2) (s : State) : State :=
  let s := s.makeRoom c pa
  let l := (s.lineAt c pa).getD (Line.empty (lineOf pa) prio)
  let a := lineOf home
  let (d, s) := s.readDie who a 128
  let bytes := (Vector.range 128).map fun i =>
    let b := l.byte i
    if b.held then b else ⟨true, false, d.getD i 0, none⟩
  let marks : BitVec 4 := (List.range 4).foldl (fun m g =>
    if s.poisoned (a + 32 * g) 32 && !l.holds (32 * g) 32 then m ||| (1#4 <<< g) else m) l.poison
  s.putLine c { l with bytes := bytes, prio := prio, poison := marks }

end Sys2Proof.Machine
end

