-- ==== Sys2Proof/Machine/Ops.lean ====
section
/-! DEFINITION. Shared operations of a hart: computations that may end an instruction early, registers, the loop
sequencer's advance, retiring, stops, traces, and taking and leaving a trap. -/

namespace Sys2Proof.Machine

/-- Time some nanoseconds later: it never falls (R21). -/
def timeAfter (t : Word) (ns : Nat) : Word := t + BitVec.ofNat 64 (min ns (2 ^ 64 - 1 - t.toNat))

/-- What a meaning answers. -/
abbrev Out := Host.Outcome State Fault Refusal

/-- A computation of an instruction over the state. It may end the instruction early (a trap, a wait, a stop), the
state then being the next state. -/
abbrev M (α : Type) := EStateM Unit State α

/-- The outcome of a computation: the next state, whether the instruction ended early or not. -/
def run (m : M Unit) (s : State) : Out :=
  match m s with
  | .ok _ s' => .next s'
  | .error _ s' => .next s'

/-- The instruction ends here. -/
def endHere {α : Type} : M α := throw ()

/-- The current hart. -/
def hart : M Hart := do return (← get).hart

/-- A change of the current hart. -/
def onHart (f : Hart → Hart) : M Unit := modify (State.onHart f)

/-! ## Registers -/

/-- A scalar register; x0 reads zero (R14). -/
def Hart.rx (h : Hart) (r : BitVec 5) : Word := if r = 0 then 0 else h.x.toList.getD r.toNat 0

/-- A scalar register written; writes to x0 are discarded (R14). -/
def Hart.wx (r : BitVec 5) (w : Word) (h : Hart) : Hart :=
  if r = 0 then h else { h with x := h.x.setIfInBounds r.toNat w }

/-- The encoding of a privilege level (R16). -/
def Priv.code (p : Priv) : BitVec 2 :=
  match p with
  | .user => 0
  | .supervisor => 1
  | .firmware => 3

/-- The level of an encoding; 0b10 is none (R16). -/
def privOf (c : BitVec 2) : Option Priv :=
  if c = 0 then some .user else if c = 1 then some .supervisor else if c = 3 then some .firmware else none

/-- Lanes of a grant (R99). -/
def Grant.lanes (g : Grant) : Nat :=
  match g with
  | .l8 => 8
  | .l16 => 16
  | .l24 => 24
  | .l32 => 32

/-- hstat (R20). -/
def Hart.hstat (h : Hart) : Word :=
  (0#60 ++ BitVec.ofBool h.dbg.step ++ BitVec.ofBool h.gated ++ h.priv.code)

/-- The issue weight of a hart under the package's ceiling (R207, R310, R427). -/
def State.weight (s : State) (h : Hart) : Nat := min (h.wq.toNat / 256) s.wmax.toNat

/-- The sequencer replays a body (R91). -/
def Hart.looping (h : Hart) : Option ActiveLoop := if h.seqr.suspended then none else h.seqr.loop

/-! ## The loop sequencer -/

/-- Body word k runs in the pass at the current indices (R93). -/
def Sequencer.runs (q : Sequencer) (l : ActiveLoop) (k : Nat) : Bool :=
  let first := l.index[0] == 0
  let last := l.index[0] == q.counts[0] - 1
  (!q.first.getLsbD k && !q.last.getLsbD k) || (q.first.getLsbD k && first) || (q.last.getLsbD k && last)

/-- Some body word runs in a pass that is neither the first nor the last of level 0. -/
def Sequencer.runsMiddle (q : Sequencer) (l : ActiveLoop) : Bool :=
  (List.range l.body.length).any fun k => !q.first.getLsbD k && !q.last.getLsbD k

/-- The lowest level of the loop that has passes left. -/
def Sequencer.openLevel (q : Sequencer) (l : ActiveLoop) : Option Nat :=
  (List.range l.depth).find? fun j => l.index.toList.getD j 0 != q.counts.toList.getD j 0 - 1

/-- The stride step of a level, taken a number of times (R93). -/
def Hart.stride (level times : Nat) (h : Hart) : Hart :=
  let a := h.seqr.slot0.toList.getD level ⟨0, 0⟩
  let b := h.seqr.slot1.toList.getD level ⟨0, 0⟩
  let h := h.wx a.reg (h.rx a.reg + a.stride * BitVec.ofNat 64 times)
  h.wx b.reg (h.rx b.reg + b.stride * BitVec.ofNat 64 times)

/-- The indices after an advance of a level by a number of passes. -/
def ActiveLoop.up (l : ActiveLoop) (level times : Nat) : ActiveLoop :=
  { l with index := Vector.ofFn fun i : Fin 6 =>
      if i.val < level then 0
      else if i.val = level then l.index[i] + BitVec.ofNat 32 times
      else l.index[i] }

/-- The loop goes on from body word k of the current pass: the next word that runs, or the stride steps up to
the pass that holds it, or the end of the loop (R93). A stretch of passes in which no word runs is taken at
once. Every word runs on the first or on the last pass of level 0, so four passes reach a word that runs. -/
def Hart.loopFrom : Nat → Hart → ActiveLoop → Nat → Hart
  | fuel, h, l, k =>
    match (List.range' k (l.body.length - k)).find? fun j => h.seqr.runs l j with
    | some j =>
      { h with pc := l.base + BitVec.ofNat 64 (4 * j), seqr := { h.seqr with loop := some { l with pos := j } } }
    | none =>
      match fuel, h.seqr.openLevel l with
      | fuel + 1, some level =>
        let left := h.seqr.counts[0].toNat - 1 - l.index[0].toNat
        let times := if level = 0 ∧ ¬ h.seqr.runsMiddle l then left else 1
        Hart.loopFrom fuel (h.stride level times) (l.up level times) 0
      | _, _ => { h with pc := l.base + BitVec.ofNat 64 (4 * l.body.length), seqr := Sequencer.reset }

/-- pc after an instruction that does not set it: the next word, or the next body word of a running loop. -/
def Hart.advance (h : Hart) : Hart :=
  match h.looping with
  | some l =>
    if h.pc = l.base + BitVec.ofNat 64 (4 * l.pos) then Hart.loopFrom 8 h l (l.pos + 1)
    else { h with pc := h.pc + 4 }
  | none => { h with pc := h.pc + 4 }

/-- What every retirement does: instret counts it (R23), vprog clears (R110), a wait ends. -/
def Hart.count (h : Hart) : Hart :=
  { h with instret := h.instret + 1, retired := h.retired + 1, vprog := 0, wait := none, linkHold := none, arrayAt := 0
           partLoad := none, touched := [], stopAt := none, quiet := false, fate := .retired, dbg := { h.dbg with passBreak := false } }

/-- The instruction retires and the next one follows. -/
def Hart.retire (h : Hart) : Hart := h.count.advance

/-- The instruction retires and control goes to a target. -/
def Hart.retireTo (t : Word) (h : Hart) : Hart := { h.count with pc := t }

/-- The instruction retires. -/
def retire : M Unit := onHart Hart.retire

/-- An instruction that has issued waits at its own address. No breakpoint fires for it again before it retires
(R351), and a forced stop that was to land inside it finds a wait to end. The boundary before it is past (R338). -/
def Hart.await (w : Wait) (h : Hart) : Hart :=
  { h with wait := some w, linkHold := none, stopAt := none, quiet := false, fate := .waiting
           dbg := { h.dbg with passBreak := true } }

/-- The instruction ends and waits at its own address. -/
def waitFor {α : Type} (w : Wait) : M α := do
  onHart (Hart.await w)
  endHere

/-! ## Another hart -/

/-- The current hart is the hart of a name, the others keep their places behind it. -/
def State.focus (n : HartName) (s : State) : State :=
  if s.hart.name = n then s
  else
    match s.parked.find? fun h => h.name == n with
    | some h => { s with hart := h, parked := s.hart :: s.parked.filter fun k => k.name != n }
    | none => s

/-- What a function of the current hart does to the hart of a name; nothing if no such hart is resident. -/
def State.asHart (n : HartName) (f : State → State) (s : State) : State :=
  if s.hart.name = n then f s
  else if s.parked.any fun h => h.name == n then (f (s.focus n)).focus s.hart.name
  else s

/-! ## Trace (R361, R362) -/

/-- The header word of a trace record (R362). -/
def traceHeader (h : Hart) (kind : BitVec 4) (ew : BitVec 3) (time : Word) : Word :=
  time.extractLsb' 0 40 ++ 0#3 ++ ew ++ BitVec.ofNat 6 h.cluster ++ BitVec.ofNat 4 h.core ++ h.hartidx ++ kind

/-- A record of an instruction of the current hart, named by its instret, enters its cluster's buffer, or meets it
full (R361, R362). -/
def State.traceAt (at_ : Word) (kind : BitVec 4) (ew : BitVec 3) (a b c : Word) (s : State) : State :=
  let h := s.hart
  if !h.dbg.tren then s
  else
    let r : TraceRecord := ⟨#v[traceHeader h kind ew s.time, a, b, c]⟩
    match h.dbg.dropped with
    | some (first, n) =>
      (s.onHart fun h => { h with dbg := { h.dbg with dropped := some (first, n + 1) } }).modCluster h.cluster
        fun k => { k with traceDrop := k.traceDrop + 1 }
    | none =>
      if (s.cluster h.cluster).trace.length < 128 ∧ h.dbg.heldRecords = [] then
        s.modCluster h.cluster fun k => { k with trace := k.trace ++ [r] }
      else if h.dbg.tmode then
        (s.onHart fun h => { h with dbg := { h.dbg with dropped := some (at_, 1) } }).modCluster h.cluster
          fun k => { k with traceDrop := k.traceDrop + 1 }
      else
        s.onHart fun h => { h with dbg := { h.dbg with heldRecords := h.dbg.heldRecords ++ [r] } }

/-- A record of the instruction at which the current hart stands. -/
def State.trace (kind : BitVec 4) (ew : BitVec 3) (a b c : Word) (s : State) : State :=
  s.traceAt s.hart.instret kind ew a b c

/-- A sync record (R362). -/
def State.traceSync (s : State) : State :=
  (s.trace 1 0 s.hart.pc s.hart.instret s.hart.hstat).onHart fun h =>
    { h with dbg := { h.dbg with sinceSync := 0 } }

/-! ## Performance events (R364) -/

/-- An event is counted by the counters of a core that select it; groups committed and array steps (events 2 and 3) are
work for which clock edges pass (R363). -/
def Core.bump (e : BitVec 8) (n : Nat) (c : Core) : Core :=
  { c with work := if e = 2 ∨ e = 3 then c.work + n else c.work, hpmctr := Vector.ofFn fun i : Fin 8 =>
      if c.hpmevt[i] = e ∧ e ≠ 0 then c.hpmctr[i] + BitVec.ofNat 48 n else c.hpmctr[i] }

/-- Events that were counted and then discarded are taken back. -/
def Core.uncount (e : BitVec 8) (n : Nat) (c : Core) : Core :=
  { c with work := if e = 2 then c.work - n else c.work, hpmctr := Vector.ofFn fun i : Fin 8 =>
      if c.hpmevt[i] = e ∧ e ≠ 0 then c.hpmctr[i] - BitVec.ofNat 48 n else c.hpmctr[i] }

/-- An event is counted on the core of the current hart. -/
def State.bump (e : BitVec 8) (n : Nat) (s : State) : State := s.modCore s.hart.core (Core.bump e n)

/-! ## Stops -/

/-- vprog where a stop ends a wait: 0 at a stream port or at a chained MODE.M, which runs from its start again (R174,
R317), and inside a load the groups that have committed (R110). -/
def Hart.stoppedVprog (h : Hart) : BitVec 7 :=
  match h.wait with
  | some (.port _) | some (.flowing _) | some .broken | some .chain => 0
  | _ =>
    match h.partLoad with
    | some p => BitVec.ofNat 7 p.group
    | none => h.vprog

/-- The address at which the vprog of a stop counts as set. -/
def Hart.stoppedPc (h : Hart) : Word := if h.partLoad.isSome then h.pc else h.vprogPc

/-- A hart stops for a pre-emption or a migration: it issues nothing more, its waits end, and its wake line is
disarmed (R338, R339, R260). A barrier arrival stands (R216). -/
def Hart.stop (how : StopKind) (h : Hart) : Hart :=
  { h with run := .stopped how, vprog := h.stoppedVprog, vprogPc := h.stoppedPc, wait := none, linkHold := none
           partLoad := none, wake := none, stopAt := none, fate := .stopped, dbg := { h.dbg with passBreak := false } }

/-- Two harts drive arrays of one chain (R170). -/
def Hart.chainedTo (h k : Hart) : Bool :=
  match h.mode, k.mode with
  | some m, some n =>
    m.chn != 0 && n.chn != 0 && h.name.gang == k.name.gang && h.mchain.head == k.mchain.head
  | _, _ => false

/-- A member of a hart's chain is frozen and does not step: the freeze applies to the whole chain (R171). -/
def State.chainFrozen (s : State) (h : Hart) : Bool :=
  s.harts.any fun k => k.name != h.name && h.chainedTo k && k.frozen && !k.dbg.stepping

/-- The current hart stops, and with it every member of its chain (R171). -/
def State.stopSelf (how : StopKind) (s : State) : State :=
  let me := s.hart
  if (me.mode.map fun m => m.chn != 0).getD false then
    s.mapHarts fun h => if me.chainedTo h ∧ h.run = .running then h.stop how else h
  else s.onHart (Hart.stop how)

/-- Every running hart of a gang takes a forced stop at once (R329). -/
def State.stopGang (key : Nat) (s : State) : State :=
  s.mapHarts fun h =>
    if h.name.gang = key ∧ (h.run = .running ∨ h.run = .placed) then h.stop .forced else h

/-- The count of instructions retired since the firing (R356). -/
def Hart.skidNow (h : Hart) : BitVec 16 :=
  match h.dbg.skidFrom with
  | some i => if h.retired - i ≤ 65535 then BitVec.ofNat 16 (h.retired - i) else 65535
  | none => 0

/-- vprog at a debug stop: 0, except at an instruction that a fault or a forced stop had stopped before (R110). -/
def Hart.haltedVprog (h : Hart) : BitVec 7 := if h.pc = h.vprogPc then { h with partLoad := none }.stoppedVprog else 0

/-- The debug stop of a hart: frozen, its cause, dpc and skid recorded (R350, R355, R356); vprog as R110 says. A forced
stop that was to land inside its instruction waits for the resume (R342), and a load that waited within is discarded
(R257). -/
def Hart.halt (cause : BitVec 4) (unit : BitVec 2) (skid : BitVec 16) (h : Hart) : Hart :=
  { h with frozen := true, fate := .stopped, vprog := h.haltedVprog, linkHold := none, stopAt := none,
           partLoad := none, v := h.partLoad.elim h.v PartLoad.before,
           dbg := { h.dbg with cause := cause, unit := unit, skid := skid, dpc := h.pc, skidFrom := none,
                               causeDue := none, stepping := false } }

/-- dcause (R350). -/
def Hart.dcause (h : Hart) : Word := 0#40 ++ h.dbg.skid ++ 0#2 ++ h.dbg.unit ++ h.dbg.cause

/-- The current hart stops for the debugger, with its stop record (R362). -/
def State.debugStop (cause : BitVec 4) (unit : BitVec 2) (skid : BitVec 16) (s : State) : State :=
  let s := s.onHart (Hart.halt cause unit skid)
  s.trace 7 0 s.hart.dcause s.hart.dbg.dpc 0

/-- A stop that the current hart raises itself (a breakpoint, an address-side watchpoint, EBREAK): skid 0, and a
freeze of its dctl.scope starts (R351, R352, R356). -/
def State.ownStop (cause : BitVec 4) (unit : BitVec 2) (s : State) : State :=
  (s.debugStop cause unit 0).startFreeze (freezeScopeOf s.hart.dbg.scope s.hart.cluster)

/-! ## The end of a gang -/

/-- A gang that a pree write names has been saved or has ended; a write whose last gang this was signals its
vector (R400, R402). -/
def State.settlePree (key : Nat) (s : State) : State :=
  let left := s.pree.map fun p => { p with gangs := p.gangs.filter (· != key) }
  let done := left.filter fun p => p.gangs = []
  done.foldl (fun s p => s.send (.msix p.fn (if p.fn = 0 then 8 else 3)))
    { s with pree := left.filter fun p => p.gangs != [] }

/-- A gang ends (R212, R214, R318): its streams close, its launch counts it, a pending request is satisfied. -/
def State.endGang (key : Nat) (double : Bool) (s : State) : State :=
  let g := s.gang key
  let s := s.modGang key fun g =>
    { g with ended := true, streams := Vector.replicate 16 none, pre := none, waitRoom := false }
  let s := { s with launches := s.launches.map fun (l : Launch) =>
      if g.launch = some l.key then
        { l with ended := l.ended + 1, doubleTrap := l.doubleTrap || double }
      else l }
  s.settlePree key

/-- An exited hart's registers, masks and deferral queue are discarded (R212): what is kept serves its engine
queues alone. -/
def Hart.discard (h : Hart) : Hart :=
  { Hart.reset with
      name := h.name, core := h.core, run := .exited, frozen := h.frozen, hartidx := h.hartidx, eq := h.eq
      placed := h.placed, xlat := h.xlat, priv := h.priv, tcmBase := h.tcmBase, tcmUnits := h.tcmUnits
      grant := h.grant, matrixFlag := h.matrixFlag, fw := h.fw, joined := h.joined, seatless := h.seatless, dbg := h.dbg }

/-! ## Taking a trap (R323 to R330, R343) -/

/-- The trap goes to the firmware vector (R328). -/
def Hart.toFirmware (h : Hart) (intr : Bool) (code : BitVec 8) : Bool :=
  h.priv == .firmware || (!intr && (code == 0x07 || code == 0x11 || (code == 0x10 && h.priv == .supervisor)))

/-- A cause word (R327). -/
def causeWord (intr : Bool) (acc : BitVec 4) (code : BitVec 8) : Word :=
  BitVec.ofBool intr ++ 0#51 ++ acc ++ code

/-- The saved vprogs with one that a trap saves now (R110). -/
def Hart.noteVprog (h : Hart) : List SavedVprog :=
  if h.stoppedVprog = 0 then h.vprogs
  else ⟨h.stoppedVprog, h.vprogPc, h.touched⟩ :: h.vprogs.filter fun v => !(v.vprog == h.stoppedVprog && v.at_ == h.vprogPc)

/-- The saved vprog that a return brings back (R110): the one of the trap itself; where software has written the status,
the one of that value set at the address of the return, else the one of that value set last (log 13). -/
def Hart.savedVprog (b : TrapBank) (h : Hart) : Option SavedVprog :=
  let mine := h.vprogs.filter fun v => v.vprog == b.stat.pvprog
  (mine.find? fun v => v.at_ == b.vpc.getD b.epc).orElse fun _ => mine.head?

/-- The registers of a vector after its entry (R328); an interrupt that ends a wait at a stream port finds vprog 0
(R317). -/
def Hart.bankAt (h : Hart) (b : TrapBank) (cause tval : Word) : TrapBank :=
  { cause := cause, epc := h.pc, tval := tval
    stat := { ppriv := h.priv.code, pgated := h.gated, lp := h.looping.isSome, pvprog := h.stoppedVprog
              pie := b.stat.ie, ie := false, nest := true }
    vpc := some h.vprogPc }

/-- The entry of a handler (R328): the saved registers, the level, the gating, vprog and pc; the wake line is
disarmed (R260) and a running loop is suspended (R330). -/
def Hart.enter (intr : Bool) (acc : BitVec 4) (code : BitVec 8) (tval : Word) (h : Hart) : Hart :=
  let cause := causeWord intr acc code
  let h' := if h.toFirmware intr code then
      { h with fw := h.bankAt h.fw cause tval, priv := .firmware, pc := h.fvec ++ 0#2 }
    else
      { h with sup := h.bankAt h.sup cause tval, priv := .supervisor, pc := h.trapvec ++ 0#2 }
  { h' with gated := false, vprog := 0, vprogs := h.noteVprog, wait := none, linkHold := none, wake := none
            partLoad := none, arrayAt := 0, touched := [], stopAt := none, quiet := false, fate := .trapped
            dbg := { h.dbg with passBreak := false }
            seqr := { h.seqr with suspended := h.seqr.loop.isSome } }

/-- A double trap (R329): the firmware copies are written, the record's gang ends with no save. -/
def State.doubleTrap (s : State) : State :=
  let g := s.myGang
  let s := s.onHart fun h =>
    { h with fw := { h.fw with cause := causeWord false 0 0x11, epc := h.pc, tval := 0 } }
  let s := s.logCheck 6 s.me.id g.record 0
  let s := s.stopGang g.key
  let s := s.mapHarts fun h => if h.name.gang = g.key ∧ h.run ≠ .gone then h.discard else h
  (s.endGang g.key true).onHart fun h => { h with fate := .stopped }

/-- A pre-emption request that reaches a gang now (R338); its grace clock stands while a freeze covers the gang
(R342). -/
def State.newRequest (s : State) (g : Gang) (reason : BitVec 4) : PreReq :=
  ⟨s.time, reason, if s.freezes.any fun f => freezeCovers f (16 * g.cluster) then some s.time else none⟩

/-- The harts of a gang that wait take a forced stop, which ends their waits (R339, R343). -/
def State.stopWaiting (key : Nat) (s : State) : State :=
  s.mapHarts fun h =>
    if h.name.gang = key ∧ h.run = .running ∧ h.frozen = false ∧ (h.wait.isSome || h.linkHold.isSome) = true then
      h.stop .forced
    else h

/-- A migrate trap (R343): the hart stops at the instruction, and its gang waits for its save with reason 1: a partner
that waits stops now, another takes a forced stop at its next boundary or inside the instruction in flight (R339; log
16). A freeze that finds the hart stopped shows cause 8, whatever had asked for it before, and a stepped hart's step ends
with cause 6 (R389). -/
def State.migrate (s : State) : State :=
  let step := s.hart.dbg.stepping
  let s := s.onHart fun h => { h.stop .forced with migrating := true, dbg := { h.dbg with causeDue := none } }
  let s := s.stopWaiting s.hart.name.gang
  let s := s.modGang s.hart.name.gang fun g => { g with pre := some (s.newRequest g 1), waitRoom := false }
  if step then s.debugStop 6 0 0 else s

/-- Some class A cluster is enabled in the package (R391, R369). -/
def classAEnabled : Bool := (List.range Config.clusters).any classA

/-- TAKING A TRAP OR AN INTERRUPT (R328, R329, R343). -/
def State.takeTrap (intr : Bool) (acc : BitVec 4) (code : BitVec 8) (tval : Word) (s : State) : State :=
  let bank := if s.hart.toFirmware intr code then s.hart.fw else s.hart.sup
  if code = 0x07 ∧ !intr ∧ classAEnabled then s.migrate
  else if !intr && bank.stat.nest then s.doubleTrap
  else
    let epc := s.hart.pc
    let s := s.onHart (Hart.enter intr acc code tval)
    s.trace 6 0 (causeWord intr acc code) epc tval

/-- The instruction ends in a synchronous trap. -/
def trap {α : Type} (acc : BitVec 4) (code : BitVec 8) (tval : Word) : M α := do
  modify (State.takeTrap false acc code tval)
  endHere

/-- The illegal-instruction, privilege and migrate traps report the word that issues (R324). -/
def trapWord {α : Type} (code : BitVec 8) : M α := do
  trap 0 code ((← hart).word.setWidth 64)

def illegal {α : Type} : M α := trapWord 0x05

/-- A condition without which the instruction is illegal. -/
def require (b : Bool) : M Unit := if b then pure () else illegal

/-- The privilege trap below a level (R34 condition 8). -/
def requirePriv (lowest : Priv) : M Unit := do
  let h ← hart
  if h.priv.code < lowest.code then trapWord 0x06

/-! ## Leaving a handler (R334) -/

/-- The effect of TRET on a hart, from the registers of the vector it leaves. vprog belongs to the instruction at which
it was set (R110), or to the one that TRET returns to where no trap saved that value (log 13). Software may return to a
word of the suspended body that F or L skips in the current pass: that word runs, since TRET resumes the sequencer at it
(log 49). -/
def Hart.leave (b : TrapBank) (level : Priv) (h : Hart) : Hart :=
  let saved := h.savedVprog b
  let h' := { h.count with priv := level, gated := b.stat.pgated, vprog := b.stat.pvprog
                           vprogPc := (saved.map SavedVprog.at_).getD b.epc
                           touched := (saved.map SavedVprog.touched).getD []
                           vprogs := h.vprogs.filter fun v => some v != saved, pc := b.epc }
  if !b.stat.lp then h'
  else
    match h.seqr.loop with
    | some l =>
      let k := (b.epc - l.base).toNat / 4
      if h.seqr.suspended ∧ k < l.body.length ∧ b.epc = l.base + BitVec.ofNat 64 (4 * k) then
        { h' with seqr := { h.seqr with suspended := false, loop := some { l with pos := k } } }
      else { h' with seqr := Sequencer.reset }
    | none => { h' with seqr := Sequencer.reset }

/-- sstat after TRET (R334). -/
def TrapStat.left (t : TrapStat) : TrapStat := { t with ie := t.pie, nest := false, lp := false }

/-- TRET (R334). -/
def tret : M Unit := do
  let h ← hart
  let fw := h.priv == .firmware
  let b := if fw then h.fw else h.sup
  match privOf b.stat.ppriv with
  | none => illegal
  | some level =>
    if h.priv.code < level.code then illegal
    else
      let b' := { b with stat := b.stat.left }
      onHart fun h => Hart.leave b level (if fw then { h with fw := b' } else { h with sup := b' })

end Sys2Proof.Machine
end

