-- ==== Sys2Proof/Machine/Access.lean ====
section
/-! DEFINITION. Accesses of harts and engines: the address order of R222, windows, translation, the checks of R243,
and loads and stores in each address space. -/

namespace Sys2Proof.Machine

/-- scause.acc of a kind (R324). -/
def Access.code (k : Access) : BitVec 4 :=
  match k with
  | .load => 1
  | .store => 2
  | .atomic => 3
  | .fetch => 4
  | .matrix => 5

/-- Where an access performs. -/
inductive Place where
  | tcm (core off : Nat)
  | scratch (gang off : Nat)
  | device (pa home : Nat) (cached : Bool)
  | host (home : Nat)
  deriving DecidableEq, Repr

/-- Device memory (R226). -/
def Place.isDevice (p : Place) : Bool :=
  match p with
  | .device _ _ _ => true
  | _ => false

/-- On whose behalf an access is made: its requester, cluster, gang, translation, level, and TCM allotment. -/
structure Agent where
  who : Requester
  core : Nat
  gang : Nat
  scr : Nat
  xlat : Xlat
  priv : Priv
  tcmLo : Nat
  tcmHi : Nat
  deriving DecidableEq, Repr

/-- The agent that a hart is; one without a seat has no TCM (R224, R212). -/
def State.agentOf (s : State) (h : Hart) : Agent :=
  { who := .hart h.name h.core, core := h.core, gang := h.name.gang, scr := (s.gang h.name.gang).scr
    xlat := h.xlat, priv := h.priv, tcmLo := if h.seatless then 0 else h.tcmBase * 4096
    tcmHi := if h.seatless then 0 else (h.tcmBase + h.tcmUnits) * 4096 }

/-! ## Translation (R230, R231) -/

/-- A walk of the levels that are left (R230): each entry is read at its die. -/
def walk (who : Requester) (va : Nat) : Nat → Nat → State → Walk × State
  | 0, _, s => (.fault 0x0A, s)
  | left + 1, table, s =>
    match s.homeOf (entryAt va table (3 - left)) with
    | none => (.fault 0x09, s)
    | some a =>
      let (d, s) := s.readDie who a 8
      match entryStep (s.poisoned a 8) (BitVec.ofNat 64 (natOfBytes d)) (3 - left) with
      | .inl w => (w, s)
      | .inr next => walk who va left next s

/-- The held translations of a VA, the latest first. -/
def heldFor (t : List HeldTranslation) (va : Nat) : List HeldTranslation :=
  t.filter fun h => decide (h.base ≤ va ∧ va < h.base + h.size)

/-- A held translation is what a walk finds. -/
def HeldTranslation.current (t : HeldTranslation) (w : Walk) : Bool :=
  match w with
  | .leaf e level => e == t.entry && t.size == 2 ^ leafBits level
  | .fault _ => false

/-- The leaf that an access uses (R231): where every held translation of the VA is still what a walk finds, the latest
is used; where some differ, any of them or a fresh walk (log 11). What is walked is held. -/
def leafFor (ag : Agent) (held : List HeldTranslation) (va : Nat) (s : State) :
    Except (BitVec 8) HeldTranslation × State :=
  let root := ag.xlat.root.toNat * 65536
  let fresh (s : State) : Except (BitVec 8) HeldTranslation × State :=
    match walk ag.who.walks va 3 root s with
    | (.fault c, s) => (.error c, s)
    | (.leaf e level, s) => (.ok ⟨va / 2 ^ leafBits level * 2 ^ leafBits level, 2 ^ leafBits level, e⟩, s)
  match heldFor held va with
  | [] => fresh s
  | t :: rest =>
    let w := s.lookWalk va 3 root
    if (t :: rest).all fun u => u.current w then (.ok t, s)
    else
      match (t :: rest)[Config.whichTranslation s.steps va]? with
      | some u => (.ok u, s)
      | none => fresh s

/-- The place of a physical address (R222 row 5, R226): uncached in the compressed window (R237). -/
def State.placeOf (s : State) (pa : Nat) (cached : Bool) : Except (BitVec 8) Place :=
  match s.target pa with
  | none => .error 0x09
  | some (.host o) => .ok (.host (0x800000000000 + o))
  | some t =>
    let c := match t with
      | .compressed _ _ => false
      | _ => cached
    .ok (.device pa t.home c)

/-- The order of R222 and R223 for an access of n bytes: the fault code or the place, the translation walked, and
the state after the walk. -/
def resolve (ag : Agent) (held : List HeldTranslation) (k : Access) (va : Word) (n : Nat) (s : State) :
    Except (BitVec 8) (Place × Option HeldTranslation) × State :=
  let a := va.toNat
  if 0x80000000000000 ≤ a then (.error 0x09, s)
  else if 0x7FFFFF00000000 ≤ a then
    if k = .fetch then (.error 0x09, s)
    else if 0x7FFFFFFF000000 ≤ a ∧ a < 0x7FFFFFFF400000 then
      if a - 0x7FFFFFFF000000 + n ≤ ag.scr * 4096 then (.ok (.scratch ag.gang (a - 0x7FFFFFFF000000), none), s)
      else (.error 0x09, s)
    else if 0x7FFFFFFFFC0000 ≤ a then
      let o := a - 0x7FFFFFFFFC0000
      if ag.tcmLo ≤ o ∧ o + n ≤ ag.tcmHi then (.ok (.tcm ag.core o, none), s) else (.error 0x09, s)
    else (.error 0x09, s)
  else if ag.xlat.en then
    match leafFor ag held a s with
    | (.error c, s) => (.error c, s)
    | (.ok t, s) =>
      if !permitted t.entry k ag.priv then (.error 0x0B, s)
      else
        match s.placeOf ((t.entry.extractLsb' 16 32).toNat * 65536 + a % t.size) (!t.entry.getLsbD 8) with
        | .error c => (.error c, s)
        | .ok p => (.ok (p, some t), s)
  else if 0x1000000000000 ≤ a then (.error 0x09, s)
  else
    match s.placeOf a true with
    | .error c => (.error c, s)
    | .ok p => (.ok (p, none), s)

/-- A translation that a hart walked is held beside those that it walked before (R231). -/
def Hart.hold (t : Option HeldTranslation) (h : Hart) : Hart :=
  match t with
  | none => h
  | some t =>
    if h.tlb.contains t then h else { h with tlb := t :: h.tlb }

/-- Checks 2 and 3 of R243 for the current hart: the place, or the fault code. A translation whose access fails, by its
permission or because its PA fails the physical map, is not held (R231 lets the hart hold it or not; log 11). -/
def tryPlace (k : Access) (va : Word) (n : Nat) : M (Except (BitVec 8) Place) := do
  let s ← get
  let (r, s') := resolve (s.agentOf s.hart) s.hart.tlb k va n s
  set s'
  match r with
  | .error c => return .error c
  | .ok (p, t) =>
    onHart (Hart.hold t)
    return .ok p

/-- Checks 2 and 3 of R243: the place, or the precise memory fault. -/
def placeFor (k : Access) (va : Word) (n : Nat) : M Place := do
  match ← tryPlace k va n with
  | .ok p => return p
  | .error c => trap k.code c va

/-- Check 1 of R243. -/
def aligned (k : Access) (va : Word) (n : Nat) : M Unit :=
  if va.toNat % n = 0 then pure () else trap k.code 0x08 va

/-! ## Watchpoints on addresses (R352) and in the scratchpad (R353) -/

/-- The address-side watchpoint that an access of n bytes hits. -/
def Hart.watchHit (h : Hart) (k : Access) (va n : Nat) : Option Nat :=
  (List.range 4).find? fun u =>
    let c := h.dbg.dwc.toList.getD u 0
    let ld := k == .load || k == .matrix || k == .atomic
    let st := k == .store || k == .atomic
    c.getLsbD 0 && ((ld && c.getLsbD 1) || (st && c.getLsbD 2)) &&
      (let len := 2 ^ min (c.extractLsb' 3 5).toNat 16
       let lo := (h.dbg.dwa.toList.getD u 0).toNat / len * len
       decide (lo < va + n ∧ va < lo + len))

/-- Check 5 of R243: a hit stops the hart before the access performs. -/
def watchAddress (k : Access) (va : Word) (n : Nat) : M Unit := do
  match (← hart).watchHit k va.toNat n with
  | none => pure ()
  | some u =>
    modify (State.ownStop 2 (BitVec.ofNat 2 u))
    endHere

/-- The target-side units of a cluster look at a scratchpad access of a gang (R353). -/
def State.watchScratch (who : Requester) (cluster gang off n : Nat) (ld st : Bool) (s : State) : State :=
  let c := s.cluster cluster
  (List.range 4).foldl (fun s u =>
    let ctl := c.dtc.toList.getD u 0
    if ctl.getLsbD 0 && ctl.getLsbD 8 && ((ld && ctl.getLsbD 1) || (st && ctl.getLsbD 2)) &&
        c.dtGang.toList.getD u 0 == gang &&
        (List.range n).any fun i =>
          watchHolds (c.dta.toList.getD u 0).toNat (ctl.extractLsb' 3 5).toNat (off + i) then
      s.fire who cluster u (ctl.extractLsb' 9 2)
    else s) s

/-! ## The scratchpad -/

/-- The bytes of an open stream's buffer (R306). -/
def Stream.covers (t : Stream) (off : Nat) : Bool :=
  decide (256 * t.boff ≤ off ∧ off < 256 * (t.boff + t.cap))

/-- A byte of a gang's scratchpad window as a requester reads it; one that nothing wrote, and one in an open stream's
buffer, is unspecified, and two reads may find it different (R3, R212, R307, R314; log 5). -/
def State.scratchByte (s : State) (who : Requester) (g : Gang) (off : Nat) : Byte :=
  let lost := s.permittedByte who (Config.windowByte s.steps off)
  if g.streams.toList.any fun t => (t.map fun t => t.covers off).getD false then lost
  else (cellGet g.scratch off).getD lost

/-- A read of scratchpad bytes. -/
def State.readScratch (who : Requester) (key off n : Nat) (s : State) : List Byte × State :=
  let g := s.gang key
  ((List.range n).map fun i => s.scratchByte who g (off + i),
    (s.readLocal who (.scratch key off) n).watchScratch who g.cluster key off n true false)

/-- A write of one scratchpad byte in a gang; in an open stream's buffer it makes every byte in the buffer
unspecified (R307). -/
def Gang.putByte (lost : Nat → Nat → Byte) (g : Gang) (c : Nat × Byte) : Gang :=
  if g.streams.toList.any fun t => (t.map fun t => t.covers c.1).getD false then
    { g with streams := g.streams.map fun t => t.map fun t =>
        if t.covers c.1 then { t with buf := (List.range t.buf.length).map (lost c.1) } else t }
  else { g with scratch := cellPut g.scratch c.1 c.2 }

/-- A write of n bytes at the banks touches the wake lines armed on its blocks (R260). -/
def State.touchScratch (key off n : Nat) (s : State) : State :=
  s.mapHarts fun h =>
    match h.wake with
    | some w =>
      if (List.range n).any fun i => w.place == .scratch key ((off + i) / 128) then
        { h with wake := some { w with touched := true } }
      else h
    | none => h

/-- A granule whose whole lies in n bytes from an offset (R240). -/
def coveredBy (off n g : Nat) : Bool := decide (off ≤ g ∧ g + 32 ≤ off + n)

/-- A write of scratchpad bytes: seen by wake lines and target-side units at the banks (R260, R353). -/
def State.writeScratch (who : Requester) (key off : Nat) (data : List Byte) (s : State) : State :=
  let cells := cellsFrom off data
  let lost (at_ i : Nat) : Byte := s.permittedByte who (Config.streamByte s.steps at_ i)
  let s := (s.storeLocal who (.scratch key off) data.length).modGang key fun g =>
    let g := cells.foldl (Gang.putByte lost) g
    { g with scratchPoison := g.scratchPoison.filter fun p => !coveredBy off data.length p }
  (s.touchScratch key off data.length).watchScratch who (s.gang key).cluster key off data.length false true

/-! ## TCM -/

/-- A TCM byte. -/
def Core.tcmByte (c : Core) (off : Nat) : Byte := Memory.get c.tcm off

/-- The TCM byte that a requester reads: one that is unspecified is drawn anew (R3, R303). -/
def State.seenTcm (s : State) (who : Requester) (core off : Nat) : Byte :=
  if (s.core core).tcmLoose.contains off then s.permittedByte who (Config.looseTcm s.steps core off)
  else (s.core core).tcmByte off

/-- A read of TCM bytes. -/
def State.readTcm (who : Requester) (core off n : Nat) (s : State) : List Byte × State :=
  ((List.range n).map fun i => s.seenTcm who core (off + i), s.readLocal who (.tcm core off) n)

/-- TCM bytes written. -/
def State.writeTcm (who : Requester) (core off : Nat) (data : List Byte) (s : State) : State :=
  (s.storeLocal who (.tcm core off) data.length).modCore core fun c =>
    { c with tcm := Memory.putAll c.tcm (cellsFrom off data)
             tcmPoison := c.tcmPoison.filter fun p => !coveredBy off data.length p
             tcmLoose := c.tcmLoose.filter fun a => !decide (off ≤ a ∧ a < off + data.length) }

/-- Some byte of a range lies in a marked granule. -/
def marked (marks : List Nat) (off n : Nat) : Bool := marks.any fun g => decide (g < off + n ∧ off < g + 32)

/-! ## Loads -/

/-- What a load takes besides its bytes: eviction priority, last-use and its class. -/
structure Hints where
  prio : BitVec 2
  last : Bool
  cls : BitVec 4
  deriving DecidableEq, Repr

/-- Priority 0, no last-use, class 0 (R244). -/
def Hints.none : Hints := ⟨0, false, 0⟩

/-- The bytes of a line from an offset. -/
def Line.data (l : Line) (i n : Nat) : List Byte := (List.range n).map fun j => (l.byte (i + j)).val

/-- Some byte of a range lies in a marked granule of a line. -/
def Line.marked (l : Line) (i n : Nat) : Bool :=
  (List.range 4).any fun g => l.poison.getLsbD g && decide (32 * g < i + n ∧ i < 32 * g + 32)

/-- A line that an access with a priority hits: it keeps that priority, but for 3, which leaves its own (R234). -/
def Line.hitAt (prio : BitVec 2) (l : Line) : Line := if prio = 3 then l else { l with prio := prio }

/-! ### Loads as if before an acquire (R272; log 72) -/

/-- A line without n bytes from an offset. -/
def Line.forget (i n : Nat) (l : Line) : Line :=
  { l with bytes := (List.range' i n).foldl (fun v j => v.setIfInBounds j ⟨false, false, 0, none⟩) l.bytes }

/-- An access of a class to the memory of now: no later access of the class may be as if before the acquire (R268), and no
access to its bytes (R246, R269). -/
def EarlyLine.pass (cls : BitVec 4) (at_ : Option (Nat × Nat)) (e : EarlyLine) : EarlyLine :=
  { e with
      closing := e.closing ||| (1#16 <<< cls.toNat)
      line := match at_ with
        | some (pa, n) => if e.line.base = lineOf pa then e.line.forget (pa % 128) n else e.line
        | none => e.line }

/-- The PA of a place in device memory. -/
def Place.pa? (p : Place) : Option Nat :=
  match p with
  | .device pa _ _ => some pa
  | .tcm _ _ | .scratch _ _ | .host _ => none

/-- The current hart's own access of a class has performed at a place. -/
def State.passEarly (ag : Agent) (p : Place) (n : Nat) (cls : BitVec 4) (s : State) : State :=
  if s.hart.early = [] ∨ ag.who ≠ s.me then s
  else s.onHart fun h => { h with early := h.early.map (EarlyLine.pass cls (p.pa?.map fun a => (a, n))) }

/-- The line as it was before an acquire that a load of a class returns bytes of; which of those that it may is free. -/
def State.earlyLine (who : Requester) (pa n : Nat) (cls : BitVec 4) (s : State) : Option EarlyLine :=
  if who = s.me then
    (s.hart.early.filter fun e => e.line.base == lineOf pa && !e.closed.getLsbD cls.toNat &&
      e.line.holds (pa % 128) n)[Config.beforeAcquire s.steps (lineOf pa)]?
  else none

/-- A load has returned bytes of a line as it was before an acquire: what stood before an earlier one is past (R268,
R269). -/
def Hart.takeEarly (cls : BitVec 4) (pa n : Nat) (e : EarlyLine) (h : Hart) : Hart :=
  { h with early := h.early.map fun f => if f.since < e.since then f.pass cls (some (pa, n)) else f }

/-- A cached load of n bytes of one line (R234, R235, R236, R240): the bytes, whether they are poisoned, and the
state. -/
def State.loadCached (core pa home n : Nat) (hints : Hints) (who : Requester) (s : State) :
    (List Byte × Bool) × State :=
  let c := core / 16
  let i := pa % 128
  let hit := (s.lineAt c pa).any fun l => l.holds i n
  let s := s.modCore core (Core.bump (if hit then 5 else 6) 1)
  let s := s.readLocal who (.line c pa) n
  if hit then
    let l := (s.lineAt c pa).getD (Line.empty (lineOf pa) 0)
    ((l.data i n, l.marked i n), s.putLine c (l.hitAt hints.prio))
  else if hints.prio = 3 ∨ s.cacheless c then
    let l := (s.lineAt c pa).getD (Line.empty (lineOf pa) 0)
    let (d, s) := s.readDie who home n
    (((List.range n).map fun j => if (l.byte (i + j)).held then (l.byte (i + j)).val else d.getD j 0,
      s.poisoned home n || l.marked i n), s)
  else
    let s := s.fill who c pa home hints.prio
    let l := (s.lineAt c pa).getD (Line.empty (lineOf pa) 0)
    ((l.data i n, l.marked i n), s)

/-- An uncached access leaves no copy of its line in its own cluster's cache, which is written back and invalidated first:
else the hart could read a value older than its own earlier store or load (R269, R275; log 68). -/
def State.passCache (ag : Agent) (pa : Nat) (s : State) : State := s.evict ag.who (ag.core / 16) pa

/-- A load of n bytes at a place from the memory of now: the bytes, whether they are poisoned, and the state. -/
def State.loadNow (ag : Agent) (p : Place) (n : Nat) (hints : Hints) (s : State) : (List Byte × Bool) × State :=
  match p with
  | .tcm core off =>
    let (d, s') := s.readTcm ag.who core off n
    ((d, marked (s'.core core).tcmPoison off n), s')
  | .scratch key off =>
    let (d, s') := s.readScratch ag.who key off n
    ((d, marked (s'.gang key).scratchPoison off n), s')
  | .device pa home cached =>
    if cached then s.loadCached ag.core pa home n hints ag.who
    else
      let (d, s') := (s.passCache ag pa).readDie ag.who home n
      ((d, s'.poisoned home n), s')
  | .host home => ((s.seenBytes ag.who home n, false), s.request ag.who home)

/-- The line as it was before an acquire from which a load at a place takes its bytes. -/
def State.earlyAt (ag : Agent) (p : Place) (n : Nat) (cls : BitVec 4) (s : State) : Option (Nat × EarlyLine) :=
  match p with
  | .device pa _ true => (s.earlyLine ag.who pa n cls).map fun e => (pa, e)
  | _ => none

/-- A load of n bytes at a place: the bytes, whether they are poisoned, and the state. -/
def State.loadAt (ag : Agent) (p : Place) (n : Nat) (hints : Hints) (s : State) : (List Byte × Bool) × State :=
  match s.earlyAt ag p n hints.cls with
  | some (pa, e) =>
    ((e.line.data (pa % 128) n, e.line.marked (pa % 128) n),
      (s.modCore ag.core (Core.bump 5 1)).onHart (Hart.takeEarly hints.cls pa n e))
  | none =>
    let (r, s') := s.loadNow ag p n hints
    (r, s'.passEarly ag p n hints.cls)

/-- The last-use drop of an access (R234). -/
def State.dropAfter (ag : Agent) (p : Place) (last : Bool) (s : State) : State :=
  match p with
  | .device pa _ true => if last then s.dropLine (ag.core / 16) pa else s
  | _ => s

/-- Check 6 and the load at a place: the bytes, or the poisoned-data fault (R240). -/
def loadPlace (k : Access) (va : Word) (p : Place) (n : Nat) (hints : Hints) : M (List Byte) := do
  let s ← get
  let ((d, bad), s') := s.loadAt (s.agentOf s.hart) p n hints
  set s'
  if bad then trap k.code 0x0C va
  else
    modify fun s => s.dropAfter (s.agentOf s.hart) p hints.last
    return d

/-- A load of n bytes at a VA under every check of R243. -/
def loadVa (k : Access) (va : Word) (n : Nat) (hints : Hints) : M (List Byte) := do
  aligned k va n
  let p ← placeFor k va n
  watchAddress k va n
  loadPlace k va p n hints

/-! ## Stores -/

/-- How a store reaches memory: as its place says, written through to the die (R272), or as a reader-count store
with its count (R236). -/
inductive StoreMode where
  | plain
  | through
  | reader (count : BitVec 6)
  deriving DecidableEq, Repr

/-- A store that performs in a cluster cache touches the wake lines of its cluster's harts on its block, under either
name of the block: R260 names the aliases for writes at the die alone, and the model takes a store in the cache alike
(log 69). -/
def State.touchCluster (c home : Nat) (s : State) : State :=
  s.mapHarts fun h =>
    match h.wake with
    | some w =>
      if h.cluster = c ∧ w.place = .device (home / 128) then { h with wake := some { w with touched := true } }
      else h
    | none => h

/-- The cluster's copy of a line, if present, takes bytes that go on to the die; it is a hit (R234, R236, R240, R272,
R364). -/
def State.updateCopy (ag : Agent) (pa : Nat) (data : List Byte) (prio : BitVec 2) (s : State) : State :=
  let c := ag.core / 16
  let s := s.modCore ag.core (Core.bump (if (s.lineAt c pa).isSome then 5 else 6) 1)
  let s := if (s.lineAt c pa).isSome then s.storeLocal ag.who (.line c pa) data.length else s
  match s.lineAt c pa with
  | some l => s.putLine c ((l.store (pa % 128) data false none).hitAt prio)
  | none => s

/-- The hart that an agent is, with its core; none for the engines and the package's own agents. -/
def Agent.storer (ag : Agent) : Option (HartName × Nat) :=
  match ag.who with
  | .hart n core => some (n, core)
  | _ => none

/-- A cached store of bytes of one line in a class (R234, R267). -/
def State.storeCached (ag : Agent) (pa home : Nat) (data : List Byte) (cls : BitVec 4) (prio : BitVec 2)
    (s : State) : State :=
  let c := ag.core / 16
  let s := s.modCore ag.core (Core.bump (if (s.lineAt c pa).isSome then 5 else 6) 1)
  let s := s.storeLocal ag.who (.line c pa) data.length
  match s.lineAt c pa with
  | none =>
    if prio = 3 ∨ s.cacheless c then s.writeDie ag.who (cellsFrom home data)
    else
      let l := (Line.empty (lineOf pa) prio).store (pa % 128) data true ag.storer
      (((s.noteInside c pa home data.length).makeRoom c pa).putLine c { l with classes := 1#16 <<< cls.toNat }).touchCluster c home
  | some l =>
    let l := (l.store (pa % 128) data true ag.storer).hitAt prio
    ((s.noteInside c pa home data.length).putLine c { l with classes := l.classes ||| (1#16 <<< cls.toNat) }).touchCluster c home

/-- A store of bytes at a place; the hints and the reader mode of an uncached access have no effect on its cluster's
cache, whose line it passes (R234, R236). -/
def State.storeNow (ag : Agent) (p : Place) (data : List Byte) (cls : BitVec 4) (prio : BitVec 2) (mode : StoreMode)
    (s : State) : State :=
  match p with
  | .tcm core off => s.writeTcm ag.who core off data
  | .scratch key off => s.writeScratch ag.who key off data
  | .host home => s.putHost ag.who home data
  | .device pa home cached =>
    let cells := cellsFrom home data
    let plain (s : State) : State :=
      if cached then s.storeCached ag pa home data cls prio else (s.passCache ag pa).writeDie ag.who cells
    let onCopy (s : State) : State := if cached then s.updateCopy ag pa data prio else s.passCache ag pa
    match mode with
    | .plain => plain s
    | .through => (onCopy s).writeDie ag.who cells
    | .reader count =>
      if count = 0 ∨ !isHbmHome home then plain s else (onCopy s).writeReader ag.who count cells

/-- A store of bytes at a place. -/
def State.storeAt (ag : Agent) (p : Place) (data : List Byte) (cls : BitVec 4) (prio : BitVec 2) (mode : StoreMode)
    (s : State) : State :=
  (s.storeNow ag p data cls prio mode).passEarly ag p data.length cls

/-- The store of bytes at a place, and its last-use drop. -/
def storePlace (p : Place) (data : List Byte) (cls : BitVec 4) (hints : Hints) (mode : StoreMode) : M Unit :=
  modify fun s =>
    let ag := s.agentOf s.hart
    (s.storeAt ag p data cls hints.prio mode).dropAfter ag p hints.last

/-- A store of bytes at a VA under every check of R243. -/
def storeVa (va : Word) (data : List Byte) (cls : BitVec 4) (hints : Hints) : M Unit := do
  aligned .store va data.length
  let p ← placeFor .store va data.length
  watchAddress .store va data.length
  storePlace p data cls hints .plain

/-! ## Fetch -/

/-- The word that a fetch reads from memory, whether it is poisoned, and the state. -/
def State.readWord (p : Place) (s : State) : (BitVec 32 × Bool) × State :=
  match p with
  | .device pa home _ =>
    let (d, s') := s.readDie s.me home 4
    ((wordOfBytes (s.underDirty s.hart.cluster pa d), s'.poisoned home 4), s')
  | .host home => ((wordOfBytes (s.seenBytes s.me home 4), false), s.request s.me home)
  | _ => ((0, false), s)

/-- The home address of a place that words are fetched from. -/
def Place.home? (p : Place) : Option Nat :=
  match p with
  | .device _ home _ | .host home => some home
  | .tcm _ _ | .scratch _ _ => none

/-- The word that a fetch which reads memory finds: what stands there, or what the hart's cluster had there before a write
that no FENCE.I of the hart follows, the hart's own or another's (R38; log 10). -/
def State.foundWord (s : State) (p : Place) (va : Word) (w : BitVec 32) : BitVec 32 :=
  let old := (s.priors.drop s.hart.fenced).filter fun k => k.view.admits s.hart.cluster && some k.home == p.home?
  (old[Config.whichPrior s.steps va.toNat]?).elim w PriorWord.word

/-- A word that a hart has fetched. -/
def Hart.holdWord (va : Word) (w : BitVec 32) (h : Hart) : Hart :=
  { h with ibuf := ⟨va, w⟩ :: h.ibuf.filter fun f => f.va != va }

/-- A fetch at a VA: the word, or the fetch fault (R24, R38). A word fetched before may be returned in place of
what memory now holds (log 10). -/
def fetchWord (va : Word) : M (BitVec 32) := do
  let p ← placeFor .fetch va 4
  let s ← get
  let ((w, bad), s') := s.readWord p
  set s'
  if bad then trap 4 0x0C va
  else
    let found := s.foundWord p va w
    match s.hart.ibuf.find? fun f => f.va == va with
    | some f =>
      if f.word = w then return w
      else if Config.keepsFetched s.steps va.toNat then return f.word
      else
        onHart (Hart.holdWord va found)
        return found
    | none =>
      onHart (Hart.holdWord va found)
      return found

/-! ## Engines and the package's own agents -/

/-- A read of n bytes of one line by an engine: each byte with its poison, or the fault code. -/
def State.engineRead (ag : Agent) (k : Access) (va : Word) (n : Nat) (s : State) :
    Except (BitVec 8) (List (Byte × Bool)) × State :=
  match resolve ag [] k va n s with
  | (.error c, s) => (.error c, s)
  | (.ok (p, _), s) =>
    match p with
    | .device _ home _ =>
      let (d, s) := s.readDie ag.who home n
      (.ok (d.mapIdx fun i b => (b, s.poisoned (home + i) 1)), s)
    | .tcm core off =>
      let (d, s) := s.readTcm ag.who core off n
      (.ok (d.mapIdx fun i b => (b, marked (s.core core).tcmPoison (off + i) 1)), s)
    | .scratch key off =>
      let (d, s) := s.readScratch ag.who key off n
      (.ok (d.mapIdx fun i b => (b, marked (s.gang key).scratchPoison (off + i) 1)), s)
    | .host home => (.ok ((s.seenBytes ag.who home n).map fun b => (b, false)), s.request ag.who home)

/-- A write of bytes of one aligned 64-byte block by an engine, with the poison that it carries. -/
def State.engineWrite (ag : Agent) (va : Word) (data : List Byte) (bad : List Nat) (s : State) :
    Except (BitVec 8) Unit × State :=
  match resolve ag [] .store va data.length s with
  | (.error c, s) => (.error c, s)
  | (.ok (p, _), s) =>
    let marks (base : Nat) : List Nat := (bad.map fun i => granuleOf (base + i)).eraseDups
    match p with
    | .device _ home _ =>
      let s := s.writeDie ag.who (cellsFrom home data)
      (.ok (), (marks home).foldl (fun s g => s.mark g) s)
    | .scratch key off =>
      let s := s.writeScratch ag.who key off data
      (.ok (), s.modGang key fun g => { g with scratchPoison := (marks off ++ g.scratchPoison).eraseDups })
    | .tcm core off =>
      let s := s.writeTcm ag.who core off data
      (.ok (), s.modCore core fun c => { c with tcmPoison := (marks off ++ c.tcmPoison).eraseDups })
    | .host home => (.ok (), s.putHost ag.who home data)

end Sys2Proof.Machine
end

