-- ==== Sys2Proof/Machine/Scoreboard.lean ====
section
/-! DEFINITION. The scalar registers that a word reads and writes (R28 and the entries), the tokens that hold them
back (R290), and which hart a core issues for (R207). -/

namespace Sys2Proof.Machine

/-- The scalar registers that a word reads: one arm a major. -/
def scalarReads (p : Parts) : List (BitVec 5) :=
  let c := p.bits 11 5
  match p.major.toNat with
  | 0x01 | 0x08 | 0x0B | 0x1C => [p.b, c]
  | 0x09 => if p.bits 6 5 = 4 ∨ p.bits 6 5 = 5 ∨ p.bits 6 5 = 6 then [p.b] else [p.b, c]
  | 0x02 | 0x03 | 0x04 | 0x05 => [p.b]
  | 0x0A => if p.bits 0 11 = 7 ∨ p.bits 0 11 = 8 then [p.a, p.b, c] else [p.b, c]
  | 0x0C | 0x0D => [p.a, p.b]
  | 0x0F => if p.bits 0 11 = 1 then [p.b, 2] else if p.bits 0 11 = 2 then [2] else [p.b]
  | 0x10 | 0x11 => [p.b]
  | 0x12 | 0x13 => [p.a, p.b]
  | 0x14 => if (p.bits 0 4).toNat < 8 ∨ p.bits 0 4 = 0xC ∨ p.bits 0 4 = 0xD then [p.b, c] else [p.a, p.b, c]
  | 0x15 => if p.bits 0 4 = 9 then [p.a, p.b, c] else [p.b, c]
  | 0x16 => [p.b]
  | 0x17 => [p.b, c]
  | 0x18 => [p.b]
  | 0x1B => [p.b]
  | 0x1E => if p.bits 13 3 = 2 then [p.a, p.b] else [p.b]
  | 0x20 => if p.bits 6 2 = 0 then [p.b] else []
  | 0x22 | 0x25 => [c]
  | 0x30 | 0x31 => [p.b]
  | 0x32 | 0x33 => [p.b, c]
  | 0x34 | 0x35 => [p.b]
  | 0x36 => if p.bits 4 4 = 0 then [p.b, c] else []
  | 0x39 => [p.b, c]
  | 0x3C => [p.a, p.b, c]
  | 0x3D => if p.bits 0 11 = 1 then [] else [p.b]
  | 0x3E => [p.b]
  | _ => []

/-- The scalar registers that a word writes. -/
def scalarWrites (p : Parts) : List (BitVec 5) :=
  match p.major.toNat with
  | 0x01 | 0x02 | 0x03 | 0x04 | 0x05 | 0x06 | 0x07 | 0x08 | 0x09 | 0x0A | 0x0B | 0x0E | 0x10 | 0x11 | 0x15
  | 0x18 | 0x1C | 0x1D | 0x20 | 0x2C | 0x3C | 0x3D | 0x3E => [p.a]
  | 0x0F => if p.bits 0 11 = 0 then [p.a] else if p.bits 0 11 = 1 ∨ p.bits 0 11 = 2 then [2] else []
  | 0x14 => if (p.bits 0 4).toNat < 8 ∨ p.bits 0 4 = 0xC ∨ p.bits 0 4 = 0xD then [p.a] else []
  | 0x16 => if p.bits 0 11 = 0x10 then [p.a] else []
  | 0x17 => if p.bits 0 11 = 1 then [p.a] else []
  | 0x1B => if p.bits 0 11 = 1 then [p.a] else []
  | 0x36 => if p.bits 4 4 = 0 then [p.a] else []
  | _ => []

/-- A word of a vector load or of a matrix operand load, whose replies a forced stop may abandon (R339); a load from a
stream port (bit 15 of its form) awaits no replies (R315, R317). -/
def vectorLoadWord (w : BitVec 32) : Bool :=
  let major := (w.extractLsb' 26 6).toNat
  (major == 0x30 && !w.getLsbD 15) || major == 0x32 || major == 0x34 || major == 0x39

/-- The levels whose stride steps follow body word k - 1 of the current pass, as the sequencer takes them (R93). -/
def Sequencer.strideLevels (q : Sequencer) : Nat → ActiveLoop → Nat → List Nat
  | fuel, l, k =>
    if (List.range' k (l.body.length - k)).any fun j => q.runs l j then []
    else
      match fuel, q.openLevel l with
      | fuel + 1, some level =>
        let left := q.counts[0].toNat - 1 - l.index[0].toNat
        let times := if level = 0 ∧ ¬ q.runsMiddle l then left else 1
        level :: Sequencer.strideLevels q fuel (l.up level times) 0
      | _, _ => []

/-- The levels whose stride steps a LOOP takes itself, before its first body word that runs (R93); none where it runs no
body or is illegal. -/
def Hart.loopLevels (w : BitVec 32) (h : Hart) : List Nat :=
  let p := partsOfWord w
  let depth := (p.bits 6 3).toNat + 1
  if p.major ≠ 0x1E ∨ p.bits 13 3 ≠ 3 ∨ h.sup.stat.lp ∨ (h.priv = .firmware ∧ h.fw.stat.lp) ∨
      (List.range depth).any (fun j => h.seqr.counts.toList.getD j 0 == 0) then []
  else
    h.seqr.strideLevels 8
      ⟨h.pc + 4, List.replicate ((p.bits 0 6).toNat + 1) 0, depth, Vector.replicate 6 0, 0, false, []⟩ 0

/-- The slot registers that the stride steps at the end of a word read and write: the steps are part of the last body word
of the pass (R95), and of the LOOP where no word of its first pass runs. -/
def Hart.strideRegs (w : BitVec 32) (h : Hart) : List (BitVec 5) :=
  let levels := match h.looping with
    | some l => if h.pc = l.base + BitVec.ofNat 64 (4 * l.pos) then h.seqr.strideLevels 8 l (l.pos + 1) else []
    | none => h.loopLevels w
  levels.flatMap fun j => [(h.seqr.slot0.toList.getD j ⟨0, 0⟩).reg, (h.seqr.slot1.toList.getD j ⟨0, 0⟩).reg]

/-- A pending token holds a word back that reads or writes its register, its stride steps included (R290). -/
def Hart.heldBack (h : Hart) (w : BitVec 32) : Bool :=
  let p := partsOfWord w
  (scalarReads p ++ scalarWrites p ++ h.strideRegs w).any fun r => h.pending.contains r

/-- The held faults of a hart clear when the first instruction that reads their token retires (R304). -/
def Hart.clearFaults (reads : List (BitVec 5)) (h : Hart) : Hart :=
  if h.eq.toList.all fun q => q.faultToken.isNone then h
  else { h with eq := h.eq.map fun q =>
      match q.faultToken with
      | some r => if reads.contains r then { q with fault := false, code := 0, faultToken := none } else q
      | none => q }

/-- Tokens that are overwritten before anything has read them: the faults held for them wait for a read that cannot
come (R304; log 50). -/
def Hart.forgetTokens (writes : List (BitVec 5)) (h : Hart) : Hart :=
  if h.eq.toList.all fun q => q.faultToken.isNone then h
  else { h with eq := h.eq.map fun q =>
      match q.faultToken with
      | some r => if writes.contains r then { q with faultToken := none } else q
      | none => q }

/-! ## Pending events -/

def State.timerPending (s : State) (h : Hart) : Bool := h.tie && decide (h.stimecmp.toNat ≤ s.time.toNat)

/-- An interrupt is pending: its pending bit and its enable are 1 (R327). -/
def State.interruptPending (s : State) (h : Hart) : Bool :=
  (h.eve && h.sevent != 0) || (h.swe && h.swp) || s.timerPending h

/-- A debug request is pending: a freeze that covers the hart, or an armed step (R261, R358). -/
def State.debugPending (s : State) (h : Hart) : Bool :=
  h.dbg.step || h.dbg.stepping || (!h.frozen && s.freezes.any fun f => freezeCovers f h.core)

/-- A pre-emption request is pending for a hart's gang (R327). -/
def State.prePending (s : State) (h : Hart) : Bool := (s.gang h.name.gang).pre.isSome

/-- The grace of a pending request has expired; its clock stands while a freeze covers the gang (R338, R342). After a
migrate trap there is none (R343). -/
def State.graceOver (s : State) (h : Hart) (r : PreReq) : Bool :=
  r.reason == 1 || decide (h.grace.toNat ≤ (r.heldSince.getD s.time - r.at_).toNat)

/-- What WLWAIT's code 2 and WFI wait for (R261, R337). -/
def State.wakePending (s : State) (h : Hart) : Bool :=
  s.interruptPending h || s.prePending h || s.debugPending h

/-- WLWAIT's limit has passed (R261). -/
def State.limitPassed (s : State) (start limit : Word) : Bool :=
  limit != BitVec.allOnes 64 && decide (limit.toNat ≤ (s.time - start).toNat)

/-- The code that a WLWAIT returns, none while it waits (R261). -/
def State.wakeCode (s : State) (h : Hart) (start limit : Word) : Option Word :=
  match h.wake with
  | none => some 3
  | some w =>
    if w.touched then some 0
    else if s.wakePending h then some 2
    else if s.limitPassed start limit then some 1
    else none

/-- The link that a hart's request waits for carries traffic again, or there is none (R374, R376). -/
def State.linkOpen (s : State) (h : Hart) : Bool := !(h.linkHold.any fun k => (s.link k.die k.link).shut)

/-- A hart that waits may issue its instruction again. -/
def State.waitOver (s : State) (h : Hart) : Bool :=
  match h.wait with
  | none => true
  | some (.wakeLine start limit) => (s.wakeCode h start limit).isSome
  | some .interrupt => s.wakePending h
  | some (.tick after) => s.hbeat != after
  | some (.flowing _) | some .broken => true
  | some _ => false

/-- A hart is held at its boundary: its trace records wait for slots under STALL (R361). -/
def Hart.stalled (h : Hart) : Bool := h.dbg.heldRecords != [] && !h.dbg.tmode

/-- A hart can issue (R171, R206, R338, R355, R358, R361). -/
def State.ready (s : State) (h : Hart) : Bool :=
  h.run == .running && ((!h.frozen && !s.chainFrozen h) || h.dbg.stepping) && s.waitOver h && s.linkOpen h &&
    !h.stalled

/-! ## Selection (R207) -/

/-- A hart issues before another: the less recent one, then the one that became resident earlier, then the lower
hartidx. -/
def Hart.before (a b : Hart) : Bool :=
  decide (a.issued < b.issued) || (a.issued == b.issued &&
    (decide (a.joined < b.joined) || (a.joined == b.joined && decide (a.hartidx.toNat ≤ b.hartidx.toNat))))

/-- The hart that goes first. -/
def firstOf : List Hart → Option Hart
  | [] => none
  | h :: t =>
    match firstOf t with
    | none => some h
    | some k => some (if h.before k then h else k)

/-- A new window: every resident hart of a core receives its weight as credit (R207). -/
def State.window (c : Nat) (s : State) : State :=
  (s.mapHarts fun h => if h.core = c then { h with credit := s.weight h } else h).modCore c fun k =>
    { k with issues := 0 }

/-- The hart that a core issues for. A window has 16 cycles, so credit beyond 16 issues is not used; at a window that
is used up, time passes to the next one. -/
def State.pick (c : Nat) (s : State) : Option State :=
  let s := if 16 ≤ (s.core c).issues then s.window c else s
  let can (s : State) : List Hart := s.harts.filter fun h => h.core == c && s.ready h
  match firstOf ((can s).filter fun h => decide (0 < h.credit)) with
  | some h => some (s.focus h.name)
  | none =>
    let s := s.window c
    (firstOf ((can s).filter fun h => decide (0 < h.credit))).map fun h => s.focus h.name

end Sys2Proof.Machine
end

