-- ==== Sys2Proof/Machine/MemScalar.lean ====
section
/-! DEFINITION. Scalar loads and stores, with the acquire and release forms (R96, R243 to R248, R272). -/

namespace Sys2Proof.Machine

/-- A scalar load (R246, R247): n bytes at an address, extended to 64 bits. -/
def scalarLoad (d : BitVec 5) (va : Hart → Word) (n : Nat) (ext : Nat → Word) (hints : Hints) (s : State) : Out :=
  run (do
    let data ← loadVa .load (va (← hart)) n hints
    onHart fun h => (h.wx d (ext (natOfBytes data))).retire) s

/-- A scalar store of the low n bytes of a register (R246, R247). -/
def scalarStore (d : BitVec 5) (va : Hart → Word) (n : Nat) (cls : BitVec 4) (hints : Hints) (s : State) : Out :=
  run (do
    let h ← hart
    storeVa (va h) (bytesOf n (h.rx d).toNat) cls hints
    retire) s

/-- The address of the Scalar memory form (R29). -/
def offsetVa (a : BitVec 5) (o : BitVec 12) (h : Hart) : Word := h.rx a + o.signExtend 64

/-- The address of major 0x14 (R32). -/
def indexedVa (a b : BitVec 5) (h : Hart) : Word := h.rx a + h.rx b

/-- Sign and zero extension of an n-byte value. -/
def sext8 (x : Nat) : Word := (BitVec.ofNat 8 x).signExtend 64
def sext16 (x : Nat) : Word := (BitVec.ofNat 16 x).signExtend 64
def sext32 (x : Nat) : Word := (BitVec.ofNat 32 x).signExtend 64
def zext (x : Nat) : Word := BitVec.ofNat 64 x

/-- LD (R96). -/
def execLd (d a : BitVec 5) (c : BitVec 4) (o : BitVec 12) (s : State) : Out :=
  scalarLoad d (offsetVa a o) 8 zext ⟨0, false, c⟩ s

/-- LW (R96). -/
def execLw (d a : BitVec 5) (c : BitVec 4) (o : BitVec 12) (s : State) : Out :=
  scalarLoad d (offsetVa a o) 4 sext32 ⟨0, false, c⟩ s

/-- SD (R96). -/
def execSd (d a : BitVec 5) (c : BitVec 4) (o : BitVec 12) (s : State) : Out :=
  scalarStore d (offsetVa a o) 8 c Hints.none s

/-- SW (R96). -/
def execSw (d a : BitVec 5) (c : BitVec 4) (o : BitVec 12) (s : State) : Out :=
  scalarStore d (offsetVa a o) 4 c Hints.none s

/-- The hints of the fields h and l, with the class (R247). -/
def hintsOf (h : BitVec 2) (l : BitVec 1) (c : BitVec 4) : Hints := ⟨h, l == 1, c⟩

/-- LB (R247). -/
def execLb (d a b : BitVec 5) (c : BitVec 4) (h : BitVec 2) (l : BitVec 1) (s : State) : Out :=
  scalarLoad d (indexedVa a b) 1 sext8 (hintsOf h l c) s

/-- LBU (R247). -/
def execLbu (d a b : BitVec 5) (c : BitVec 4) (h : BitVec 2) (l : BitVec 1) (s : State) : Out :=
  scalarLoad d (indexedVa a b) 1 zext (hintsOf h l c) s

/-- LH (R247). -/
def execLh (d a b : BitVec 5) (c : BitVec 4) (h : BitVec 2) (l : BitVec 1) (s : State) : Out :=
  scalarLoad d (indexedVa a b) 2 sext16 (hintsOf h l c) s

/-- LHU (R247). -/
def execLhu (d a b : BitVec 5) (c : BitVec 4) (h : BitVec 2) (l : BitVec 1) (s : State) : Out :=
  scalarLoad d (indexedVa a b) 2 zext (hintsOf h l c) s

/-- LWX (R247). -/
def execLwx (d a b : BitVec 5) (c : BitVec 4) (h : BitVec 2) (l : BitVec 1) (s : State) : Out :=
  scalarLoad d (indexedVa a b) 4 sext32 (hintsOf h l c) s

/-- LWUX (R247). -/
def execLwux (d a b : BitVec 5) (c : BitVec 4) (h : BitVec 2) (l : BitVec 1) (s : State) : Out :=
  scalarLoad d (indexedVa a b) 4 zext (hintsOf h l c) s

/-- LDX (R247). -/
def execLdx (d a b : BitVec 5) (c : BitVec 4) (h : BitVec 2) (l : BitVec 1) (s : State) : Out :=
  scalarLoad d (indexedVa a b) 8 zext (hintsOf h l c) s

/-- SB (R247). -/
def execSb (d a b : BitVec 5) (c : BitVec 4) (h : BitVec 2) (l : BitVec 1) (s : State) : Out :=
  scalarStore d (indexedVa a b) 1 c (hintsOf h l c) s

/-- SH (R247). -/
def execSh (d a b : BitVec 5) (c : BitVec 4) (h : BitVec 2) (l : BitVec 1) (s : State) : Out :=
  scalarStore d (indexedVa a b) 2 c (hintsOf h l c) s

/-- SWX (R247). -/
def execSwx (d a b : BitVec 5) (c : BitVec 4) (h : BitVec 2) (l : BitVec 1) (s : State) : Out :=
  scalarStore d (indexedVa a b) 4 c (hintsOf h l c) s

/-- SDX (R247). -/
def execSdx (d a b : BitVec 5) (c : BitVec 4) (h : BitVec 2) (l : BitVec 1) (s : State) : Out :=
  scalarStore d (indexedVa a b) 8 c (hintsOf h l c) s

/-! ## Acquire and release forms (R248, R272) -/

/-- A scope reaches beyond the cluster at a place: package or system scope, which TCM and the scratchpad clamp
(R248, R266). -/
def beyondCluster (p : Place) (scope : BitVec 2) : Bool :=
  match p with
  | .tcm _ _ | .scratch _ _ => false
  | .device _ _ _ | .host _ => decide (2 ≤ scope.toNat)

/-- The bytes of an acquire load beyond the cluster on cached device memory: each from the cluster cache where it is
dirty there, else from the die, with the mark of the place it comes from (R240, R272); a line that is there is hit
(R234). -/
def State.loadDirtyFirst (who : Requester) (c pa home n : Nat) (s : State) : (List Byte × Bool) × State :=
  let hit := (s.lineAt c pa).any fun l => (List.range n).all fun j => (l.byte (pa % 128 + j)).dirty
  let s := (s.bump (if hit then 5 else 6) 1).readLocal who (.line c pa) n
  let l := (s.lineAt c pa).getD (Line.empty (lineOf pa) 0)
  let i := pa % 128
  let s := if (s.lineAt c pa).isSome then s.putLine c (l.hitAt 0) else s
  if (List.range n).all fun j => (l.byte (i + j)).dirty then ((l.data i n, l.marked i n), s)
  else
    let (d, s) := s.readDie who home n
    ((s.underDirty c pa d, (List.range n).any fun j =>
      if (l.byte (i + j)).dirty then l.marked (i + j) 1 else s.poisoned (home + j) 1), s)

/-- The clean bytes of a range in a cluster's cache are older than what an acquire load has read at the die (R269). -/
def State.forgetClean (c pa n : Nat) (s : State) : State :=
  match s.lineAt c pa with
  | some l =>
    let stale := (List.range' (pa % 128) n).filter fun j => (l.byte j).held && !(l.byte j).dirty
    if stale = [] then s else s.setLine c (stale.foldl (fun l j => l.forget j 1) l)
  | none => s

/-- LW.AQ and LD.AQ (R272). -/
def acquireLoad (d a b : BitVec 5) (c : BitVec 4) (scope : BitVec 2) (n : Nat) (ext : Nat → Word) (s : State) : Out := run (do
  let va := indexedVa a b (← hart)
  aligned .load va n
  let p ← placeFor .load va n
  watchAddress .load va n
  let data ←
    match p with
    | .device pa home true =>
      if 2 ≤ scope.toNat then
        let s ← get
        let ((data, bad), s') := s.loadDirtyFirst s.me s.hart.cluster pa home n
        set ((s'.passEarly (s.agentOf s.hart) p n c).forgetClean s.hart.cluster pa n)
        if bad then trap 1 0x0C va
        pure data
      else loadPlace .load va p n ⟨0, false, c⟩
    | _ => loadPlace .load va p n ⟨0, false, c⟩
  modify fun s => if beyondCluster p scope then s.acquireFor (1#16 <<< c.toNat) else s
  onHart fun h => (h.wx d (ext (natOfBytes data))).retire) s

/-- SW.RL and SD.RL (R272). -/
def releaseStore (d a b : BitVec 5) (c : BitVec 4) (scope : BitVec 2) (n : Nat) (s : State) : Out := run (do
  let h ← hart
  let va := indexedVa a b h
  aligned .store va n
  let p ← placeFor .store va n
  watchAddress .store va n
  modify fun s => if beyondCluster p scope then s.release s.me s.hart.cluster (1#16 <<< c.toNat) else s
  let mode : StoreMode :=
    match p with
    | .device _ _ true => if 2 ≤ scope.toNat then .through else .plain
    | _ => .plain
  storePlace p (bytesOf n (h.rx d).toNat) c Hints.none mode
  retire) s

/-- LW.AQ (R272). -/
def execLwAq (d a b : BitVec 5) (c : BitVec 4) (scope : BitVec 2) (s : State) : Out :=
  acquireLoad d a b c scope 4 sext32 s

/-- LD.AQ (R272). -/
def execLdAq (d a b : BitVec 5) (c : BitVec 4) (scope : BitVec 2) (s : State) : Out :=
  acquireLoad d a b c scope 8 zext s

/-- SW.RL (R272). -/
def execSwRl (d a b : BitVec 5) (c : BitVec 4) (scope : BitVec 2) (s : State) : Out := releaseStore d a b c scope 4 s

/-- SD.RL (R272). -/
def execSdRl (d a b : BitVec 5) (c : BitVec 4) (scope : BitVec 2) (s : State) : Out := releaseStore d a b c scope 8 s

end Sys2Proof.Machine
end

