-- ==== Sys2Proof/Machine/ScalarInt.lean ====
section
/-! DEFINITION. Integer arithmetic, logic, shifts, comparisons, multiplication, division and bit manipulation on scalar
registers (R74, R75, R77, R78). -/

namespace Sys2Proof.Machine

/-- A scalar result is written and the instruction retires (R73). -/
def scalarWrite (d : BitVec 5) (f : Hart → Word) (s : State) : Out :=
  .next (s.onHart fun h => (h.wx d (f h)).retire)

/-- An operation of two scalar registers. -/
def scalarOp (f : Word → Word → Word) (d a b : BitVec 5) (s : State) : Out :=
  scalarWrite d (fun h => f (h.rx a) (h.rx b)) s

/-- An operation of one scalar register. -/
def scalarUn (f : Word → Word) (d a : BitVec 5) (s : State) : Out := scalarWrite d (fun h => f (h.rx a)) s

/-- 1 or 0. -/
def flagWord (b : Bool) : Word := if b then 1 else 0

/-- The shift amount of a register: its bits [5:0] (R74). -/
def shamt (w : Word) : Nat := w.toNat % 64

/-- Signed and unsigned minimum and maximum of width n. -/
def sminBv {n : Nat} (x y : BitVec n) : BitVec n := if x.slt y then x else y
def smaxBv {n : Nat} (x y : BitVec n) : BitVec n := if x.slt y then y else x
def uminBv {n : Nat} (x y : BitVec n) : BitVec n := if x.ult y then x else y
def umaxBv {n : Nat} (x y : BitVec n) : BitVec n := if x.ult y then y else x

/-- The high half of an exact product (R77). -/
def highProduct (n : Nat) (x y : Int) : BitVec n := BitVec.ofInt n (x * y / (2 ^ n : Nat))

/-- Signed and unsigned quotient and remainder with the borderline cases of R77. -/
def divS {n : Nat} (x y : BitVec n) : BitVec n :=
  if y = 0 then BitVec.allOnes n else BitVec.ofInt n (x.toInt.tdiv y.toInt)
def divU {n : Nat} (x y : BitVec n) : BitVec n :=
  if y = 0 then BitVec.allOnes n else BitVec.ofNat n (x.toNat / y.toNat)
def remS {n : Nat} (x y : BitVec n) : BitVec n := if y = 0 then x else BitVec.ofInt n (x.toInt.tmod y.toInt)
def remU {n : Nat} (x y : BitVec n) : BitVec n := if y = 0 then x else BitVec.ofNat n (x.toNat % y.toNat)

/-- The number of leading zeros of the low n bits. -/
def leadingZeros : Nat → Word → Nat
  | 0, _ => 0
  | n + 1, w => if w.getLsbD n then 0 else 1 + leadingZeros n w

/-- The number of trailing zeros from bit k on, n bits left. -/
def trailingZeros : Nat → Nat → Word → Nat
  | 0, _, _ => 0
  | n + 1, k, w => if w.getLsbD k then 0 else 1 + trailingZeros n (k + 1) w

/-- The number of ones among the low n bits. -/
def onesCount : Nat → Word → Nat
  | 0, _ => 0
  | n + 1, w => (if w.getLsbD n then 1 else 0) + onesCount n w

/-- The eight bytes in reverse order. -/
def reverseBytes (w : Word) : Word :=
  w.extractLsb' 0 8 ++ w.extractLsb' 8 8 ++ w.extractLsb' 16 8 ++ w.extractLsb' 24 8 ++
    w.extractLsb' 32 8 ++ w.extractLsb' 40 8 ++ w.extractLsb' 48 8 ++ w.extractLsb' 56 8

/-- Sign extension of the low n bits. -/
def sextLow (n : Nat) (w : Word) : Word := (w.setWidth n).signExtend 64

/-- Zero extension of the low n bits. -/
def zextLow (n : Nat) (w : Word) : Word := (w.setWidth n).setWidth 64

/-- The upper part that LHI and LPC place: sext(imm16) << 16 (R75). -/
def upperImm (i : BitVec 16) : Word := i.signExtend 64 <<< 16

/-- ADD (R74). -/
def execAdd (d a b : BitVec 5) (s : State) : Out := scalarOp (fun x y => x + y) d a b s

/-- SUB (R74). -/
def execSub (d a b : BitVec 5) (s : State) : Out := scalarOp (fun x y => x - y) d a b s

/-- AND (R74). -/
def execAnd (d a b : BitVec 5) (s : State) : Out := scalarOp (fun x y => x &&& y) d a b s

/-- OR (R74). -/
def execOr (d a b : BitVec 5) (s : State) : Out := scalarOp (fun x y => x ||| y) d a b s

/-- XOR (R74). -/
def execXor (d a b : BitVec 5) (s : State) : Out := scalarOp (fun x y => x ^^^ y) d a b s

/-- SLL (R74). -/
def execSll (d a b : BitVec 5) (s : State) : Out := scalarOp (fun x y => x <<< shamt y) d a b s

/-- SRL (R74). -/
def execSrl (d a b : BitVec 5) (s : State) : Out := scalarOp (fun x y => x >>> shamt y) d a b s

/-- SRA (R74). -/
def execSra (d a b : BitVec 5) (s : State) : Out := scalarOp (fun x y => x.sshiftRight (shamt y)) d a b s

/-- SLT (R74). -/
def execSlt (d a b : BitVec 5) (s : State) : Out := scalarOp (fun x y => flagWord (x.slt y)) d a b s

/-- SLTU (R74). -/
def execSltu (d a b : BitVec 5) (s : State) : Out := scalarOp (fun x y => flagWord (x.ult y)) d a b s

/-- MIN (R74). -/
def execMin (d a b : BitVec 5) (s : State) : Out := scalarOp (fun x y => sminBv x y) d a b s

/-- MAX (R74). -/
def execMax (d a b : BitVec 5) (s : State) : Out := scalarOp (fun x y => smaxBv x y) d a b s

/-- MINU (R74). -/
def execMinu (d a b : BitVec 5) (s : State) : Out := scalarOp (fun x y => uminBv x y) d a b s

/-- MAXU (R74). -/
def execMaxu (d a b : BitVec 5) (s : State) : Out := scalarOp (fun x y => umaxBv x y) d a b s

/-- MUL (R77). -/
def execMul (d a b : BitVec 5) (s : State) : Out := scalarOp (fun x y => x * y) d a b s

/-- MULH (R77). -/
def execMulh (d a b : BitVec 5) (s : State) : Out := scalarOp (fun x y => highProduct 64 x.toInt y.toInt) d a b s

/-- MULHU (R77). -/
def execMulhu (d a b : BitVec 5) (s : State) : Out := scalarOp (fun x y => highProduct 64 (Int.ofNat x.toNat) (Int.ofNat y.toNat)) d a b s

/-- MULHSU (R77). -/
def execMulhsu (d a b : BitVec 5) (s : State) : Out := scalarOp (fun x y => highProduct 64 x.toInt (Int.ofNat y.toNat)) d a b s

/-- DIV (R77). -/
def execDiv (d a b : BitVec 5) (s : State) : Out := scalarOp (fun x y => divS x y) d a b s

/-- DIVU (R77). -/
def execDivu (d a b : BitVec 5) (s : State) : Out := scalarOp (fun x y => divU x y) d a b s

/-- REM (R77). -/
def execRem (d a b : BitVec 5) (s : State) : Out := scalarOp (fun x y => remS x y) d a b s

/-- REMU (R77). -/
def execRemu (d a b : BitVec 5) (s : State) : Out := scalarOp (fun x y => remU x y) d a b s

/-- ANDN (R78). -/
def execAndn (d a b : BitVec 5) (s : State) : Out := scalarOp (fun x y => x &&& ~~~y) d a b s

/-- ORN (R78). -/
def execOrn (d a b : BitVec 5) (s : State) : Out := scalarOp (fun x y => x ||| ~~~y) d a b s

/-- XNOR (R78). -/
def execXnor (d a b : BitVec 5) (s : State) : Out := scalarOp (fun x y => ~~~(x ^^^ y)) d a b s

/-- ROL (R78). -/
def execRol (d a b : BitVec 5) (s : State) : Out := scalarOp (fun x y => x.rotateLeft (shamt y)) d a b s

/-- ROR (R78). -/
def execRor (d a b : BitVec 5) (s : State) : Out := scalarOp (fun x y => x.rotateRight (shamt y)) d a b s

/-- ADDI (R75). -/
def execAddi (d a : BitVec 5) (i : BitVec 16) (s : State) : Out :=
  scalarUn (fun x => x + i.signExtend 64) d a s

/-- ANDI (R75). -/
def execAndi (d a : BitVec 5) (i : BitVec 16) (s : State) : Out :=
  scalarUn (fun x => x &&& i.setWidth 64) d a s

/-- ORI (R75). -/
def execOri (d a : BitVec 5) (i : BitVec 16) (s : State) : Out :=
  scalarUn (fun x => x ||| i.setWidth 64) d a s

/-- XORI (R75). -/
def execXori (d a : BitVec 5) (i : BitVec 16) (s : State) : Out :=
  scalarUn (fun x => x ^^^ i.setWidth 64) d a s

/-- LHI (R75). -/
def execLhi (d : BitVec 5) (i : BitVec 16) (s : State) : Out := scalarWrite d (fun _ => upperImm i) s

/-- LPC (R75): pc is the address of the LPC. -/
def execLpc (d : BitVec 5) (i : BitVec 16) (s : State) : Out :=
  scalarWrite d (fun h => h.pc + upperImm i) s

/-- SLLI (R78). -/
def execSlli (d a : BitVec 5) (i : BitVec 6) (s : State) : Out :=
  scalarUn (fun x => x <<< i.toNat) d a s

/-- SRLI (R78). -/
def execSrli (d a : BitVec 5) (i : BitVec 6) (s : State) : Out :=
  scalarUn (fun x => x >>> i.toNat) d a s

/-- SRAI (R78). -/
def execSrai (d a : BitVec 5) (i : BitVec 6) (s : State) : Out :=
  scalarUn (fun x => x.sshiftRight i.toNat) d a s

/-- RORI (R78). -/
def execRori (d a : BitVec 5) (i : BitVec 6) (s : State) : Out :=
  scalarUn (fun x => x.rotateRight i.toNat) d a s

/-- SLTI (R78). -/
def execSlti (d a : BitVec 5) (i : BitVec 11) (s : State) : Out :=
  scalarUn (fun x => flagWord (x.slt (i.signExtend 64))) d a s

/-- SLTIU (R78). -/
def execSltiu (d a : BitVec 5) (i : BitVec 11) (s : State) : Out :=
  scalarUn (fun x => flagWord (x.ult (i.signExtend 64))) d a s

/-- SEQI (R78). -/
def execSeqi (d a : BitVec 5) (i : BitVec 11) (s : State) : Out :=
  scalarUn (fun x => flagWord (x == i.signExtend 64)) d a s

/-- CLZ (R78). -/
def execClz (d a : BitVec 5) (s : State) : Out := scalarUn (fun x => BitVec.ofNat 64 (leadingZeros 64 x)) d a s

/-- CTZ (R78). -/
def execCtz (d a : BitVec 5) (s : State) : Out := scalarUn (fun x => BitVec.ofNat 64 (trailingZeros 64 0 x)) d a s

/-- CPOP (R78). -/
def execCpop (d a : BitVec 5) (s : State) : Out := scalarUn (fun x => BitVec.ofNat 64 (onesCount 64 x)) d a s

/-- REV8 (R78). -/
def execRev8 (d a : BitVec 5) (s : State) : Out := scalarUn (fun x => reverseBytes x) d a s

/-- BREV (R78). -/
def execBrev (d a : BitVec 5) (s : State) : Out := scalarUn (fun x => x.reverse) d a s

/-- SEXT.B (R78). -/
def execSextB (d a : BitVec 5) (s : State) : Out := scalarUn (fun x => sextLow 8 x) d a s

/-- SEXT.H (R78). -/
def execSextH (d a : BitVec 5) (s : State) : Out := scalarUn (fun x => sextLow 16 x) d a s

/-- SEXT.W (R78). -/
def execSextW (d a : BitVec 5) (s : State) : Out := scalarUn (fun x => sextLow 32 x) d a s

/-- ZEXT.W (R78). -/
def execZextW (d a : BitVec 5) (s : State) : Out := scalarUn (fun x => zextLow 32 x) d a s

end Sys2Proof.Machine
end

