-- ==== Sys2Proof/Machine/Atomics.lean ====
section
/-! DEFINITION. Scalar atomics (R249 to R251). -/

namespace Sys2Proof.Machine

/-- The old value of an atomic at a place and the state after it; where a granule is poisoned, nothing is written
(R250, R251). -/
def State.atomicNow (ag : Agent) (p : Place) (n : Nat) (f : Nat → Nat) (s : State) : Except Unit Nat × State :=
  match p with
  | .tcm core off =>
    let (d, s) := s.readTcm ag.who core off n
    if marked (s.core core).tcmPoison off n then (.error (), s)
    else (.ok (natOfBytes d), s.writeTcm ag.who core off (bytesOf n (f (natOfBytes d))))
  | .scratch key off =>
    let s := s.readLocal ag.who (.scratch key off) n
    if marked (s.gang key).scratchPoison off n then (.error (), s)
    else
      let (d, s) := s.readScratch ag.who key off n
      (.ok (natOfBytes d), s.writeScratch ag.who key off (bytesOf n (f (natOfBytes d))))
  | .device pa home _ =>
    let s := s.evict ag.who (ag.core / 16) pa
    if (s.readErrors ag.who home n).poisoned home n then (.error (), (s.readDie ag.who home n).2)
    else
      let (o, s) := s.atomicDie ag.who home n f
      (.ok o, s)
  | .host _ => (.error (), s)

/-- The same, in a class. -/
def State.atomicAt (ag : Agent) (p : Place) (n : Nat) (cls : BitVec 4) (f : Nat → Nat) (s : State) :
    Except Unit Nat × State :=
  let (r, s) := s.atomicNow ag p n f
  (r, s.passEarly ag p n cls)

/-- An atomic of n bytes (R249): the checks of R243, host memory refused, the old value to x[A]. -/
def atomic (d a b : BitVec 5) (cls : BitVec 4) (w : BitVec 1) (f32 : BitVec 32 → BitVec 32 → BitVec 32 → BitVec 32)
    (f64 : BitVec 64 → BitVec 64 → BitVec 64 → BitVec 64) (s : State) : Out := run (do
  let h ← hart
  let va := h.rx a
  let n := if w = 1 then 8 else 4
  aligned .atomic va n
  let p ← placeFor .atomic va n
  match p with
  | .host _ => trap 3 0x09 va
  | _ => pure ()
  watchAddress .atomic va n
  let c := h.rx b
  let e := h.rx d
  let new (o : Nat) : Nat :=
    if w = 1 then (f64 (BitVec.ofNat 64 o) c e).toNat
    else (f32 (BitVec.ofNat 32 o) (c.setWidth 32) (e.setWidth 32)).toNat
  let s ← get
  let (r, s) := s.atomicAt (s.agentOf s.hart) p n cls new
  set s
  match r with
  | .error _ => trap 3 0x0C va
  | .ok o => onHart fun h => (h.wx d (if w = 1 then zext o else sext32 o)).retire) s

/-- AMOSWAP (R249). -/
def execAmoswap (d a b : BitVec 5) (c : BitVec 4) (w : BitVec 1) (s : State) : Out :=
  atomic d a b c w (fun _ c _ => c) (fun _ c _ => c) s

/-- AMOADD (R249). -/
def execAmoadd (d a b : BitVec 5) (c : BitVec 4) (w : BitVec 1) (s : State) : Out :=
  atomic d a b c w (fun o c _ => o + c) (fun o c _ => o + c) s

/-- AMOAND (R249). -/
def execAmoand (d a b : BitVec 5) (c : BitVec 4) (w : BitVec 1) (s : State) : Out :=
  atomic d a b c w (fun o c _ => o &&& c) (fun o c _ => o &&& c) s

/-- AMOOR (R249). -/
def execAmoor (d a b : BitVec 5) (c : BitVec 4) (w : BitVec 1) (s : State) : Out :=
  atomic d a b c w (fun o c _ => o ||| c) (fun o c _ => o ||| c) s

/-- AMOXOR (R249). -/
def execAmoxor (d a b : BitVec 5) (c : BitVec 4) (w : BitVec 1) (s : State) : Out :=
  atomic d a b c w (fun o c _ => o ^^^ c) (fun o c _ => o ^^^ c) s

/-- AMOMIN (R249). -/
def execAmomin (d a b : BitVec 5) (c : BitVec 4) (w : BitVec 1) (s : State) : Out :=
  atomic d a b c w (fun o c _ => sminBv o c) (fun o c _ => sminBv o c) s

/-- AMOMAX (R249). -/
def execAmomax (d a b : BitVec 5) (c : BitVec 4) (w : BitVec 1) (s : State) : Out :=
  atomic d a b c w (fun o c _ => smaxBv o c) (fun o c _ => smaxBv o c) s

/-- AMOMINU (R249). -/
def execAmominu (d a b : BitVec 5) (c : BitVec 4) (w : BitVec 1) (s : State) : Out :=
  atomic d a b c w (fun o c _ => uminBv o c) (fun o c _ => uminBv o c) s

/-- AMOMAXU (R249). -/
def execAmomaxu (d a b : BitVec 5) (c : BitVec 4) (w : BitVec 1) (s : State) : Out :=
  atomic d a b c w (fun o c _ => umaxBv o c) (fun o c _ => umaxBv o c) s

/-- AMOCAS (R249): the old value is written back where it differs from x[A]. -/
def execAmocas (d a b : BitVec 5) (c : BitVec 4) (w : BitVec 1) (s : State) : Out :=
  atomic d a b c w (fun o c e => if o = e then c else o) (fun o c e => if o = e then c else o) s

end Sys2Proof.Machine
end

