-- ==== Sys2Proof/Machine/Records.lean ====
section
/-! DEFINITION. Continuation records, context entries and queue descriptors (R195 to R201, R395 to R398), and what
enqueues and joins a record (R210, R211, R399). -/

namespace Sys2Proof.Machine

/-! ## The continuation record -/

/-- The fields of a continuation record (R197). -/
structure Record where
  code : Word
  frame : Word
  stab : Word
  ex1 : BitVec 20
  ey1 : BitVec 20
  ez1 : BitVec 20
  join : BitVec 32
  w1 : BitVec 4
  s1 : BitVec 3
  mat : Bool
  rcap : BitVec 4
  prio : BitVec 3
  hn : Bool
  lmin : BitVec 2
  lmax : BitVec 2
  scr : BitVec 11
  tcm : BitVec 7
  next : Word
  pcl : BitVec 48
  st : BitVec 2
  reservedClear : Bool
  deriving DecidableEq, Repr

/-- The record of 64 bytes (R197). -/
def recordOf (d : List Byte) : Record :=
  let r := BitVec.ofNat 512 (natOfBytes d)
  { code := r.extractLsb' 0 64, frame := r.extractLsb' 64 64, stab := r.extractLsb' 128 64
    ex1 := r.extractLsb' 192 20, ey1 := r.extractLsb' 212 20, ez1 := r.extractLsb' 232 20
    join := r.extractLsb' 256 32, w1 := r.extractLsb' 288 4, s1 := r.extractLsb' 292 3, mat := r.getLsbD 295
    rcap := r.extractLsb' 296 4, prio := r.extractLsb' 300 3, hn := r.getLsbD 303
    lmin := r.extractLsb' 304 2, lmax := r.extractLsb' 306 2, scr := r.extractLsb' 320 11
    tcm := r.extractLsb' 331 7, next := r.extractLsb' 384 64, pcl := r.extractLsb' 448 48
    st := r.extractLsb' 496 2
    reservedClear := r.extractLsb' 252 4 == 0 && r.extractLsb' 308 12 == 0 && r.extractLsb' 338 46 == 0 &&
      r.extractLsb' 498 14 == 0 }

/-- W, S and the gangs of the grid (R195). -/
def Record.width (r : Record) : Nat := r.w1.toNat + 1
def Record.stages (r : Record) : Nat := r.s1.toNat + 1
def Record.gangs (r : Record) : Nat := (r.ex1.toNat + 1) * (r.ey1.toNat + 1) * (r.ez1.toNat + 1)

/-- A malformed record (R198). -/
def Record.malformed (r : Record) : Bool :=
  (r.stab == 0 && r.code.extractLsb' 0 2 != 0) || r.stab.extractLsb' 0 6 != 0 ||
    decide (16 < r.width * r.stages) || decide (r.lmax.toNat < r.lmin.toNat) ||
    decide (1024 < r.scr.toNat) || decide (64 < r.tcm.toNat) || !r.reservedClear

/-! ## The context table (R395, R396) -/

/-- The fields of a context entry (R396). -/
structure ContextEntry where
  xlat : Xlat
  trapvec : Word
  gtbase : Word
  stimecmp : Word
  abandon : BitVec 16
  grace : BitVec 32
  savebase : Word
  savesize : Word
  dmbase : Word
  cring : Word
  cnum : BitVec 16
  deriving DecidableEq, Repr

/-- The context entry of 128 bytes (R396). -/
def contextOf (d : List Byte) : ContextEntry :=
  let r := BitVec.ofNat 1024 (natOfBytes d)
  { xlat := ⟨r.getLsbD 0, r.extractLsb' 4 12, r.extractLsb' 16 32⟩, trapvec := r.extractLsb' 64 64
    gtbase := r.extractLsb' 128 64, stimecmp := r.extractLsb' 192 64, abandon := r.extractLsb' 256 16
    grace := r.extractLsb' 272 32, savebase := r.extractLsb' 320 64, savesize := r.extractLsb' 384 64
    dmbase := r.extractLsb' 448 64, cring := r.extractLsb' 512 64, cnum := r.extractLsb' 576 16 }

/-- Consecutive PAs in runs of one 4 KiB granule, which lie together in memory even in the hashed alias (R227). -/
def paRuns : Nat → Nat → Nat → List (Nat × Nat)
  | 0, _, _ => []
  | fuel + 1, pa, n =>
    if n = 0 then []
    else
      let k := min n (4096 - pa % 4096)
      (pa, k) :: paRuns fuel (pa + k) (n - k)

/-- The granule runs of n bytes at a PA. -/
def runsAt (pa n : Nat) : List (Nat × Nat) := paRuns (n / 4096 + 2) pa n

/-- The package reads one run of bytes of device memory; bytes at an address that the map refuses read zero (log 21). -/
def State.readRun (who : Requester) (r : Nat × Nat) (s : State) : List Byte × State :=
  match s.homeOf r.1 with
  | some a => s.readDieAll who a r.2
  | none => (List.replicate r.2 0, s)

/-- The package reads bytes of device memory at a PA. -/
def State.readPa (who : Requester) (pa n : Nat) (s : State) : List Byte × State :=
  (runsAt pa n).foldl (fun (d, s) r =>
    let (e, s) := s.readRun who r
    (d ++ e, s)) ([], s)

/-- The package writes one run of bytes of memory; nothing is written at an address that the map refuses (log 21). -/
def State.writeRun (who : Requester) (pa : Nat) (data : List Byte) (s : State) : State :=
  match s.homeOf pa with
  | some a =>
    if isHostHome a then s.putHost who a data
    else s.writeDieAll who (cellsFrom a data)
  | none => s

/-- The package writes bytes of memory at a PA. -/
def State.writePa (who : Requester) (pa : Nat) (data : List Byte) (s : State) : State :=
  (runsAt pa data.length).foldl (fun s r => s.writeRun who r.1 ((data.drop (r.1 - pa)).take r.2)) s

/-- The hardware reads the entry of a context (R395). -/
def State.contextEntry (ctx : Nat) (s : State) : ContextEntry × State :=
  let (d, s) := s.readPa .queueManager (s.control.ctxbase.toNat + 128 * ctx) 128
  (contextOf d, s)

/-- The agent of the schedulers and the I/O die for a context: its translation, at supervisor level (log 21). -/
def packageAgent (who : Requester) (x : Xlat) : Agent :=
  { who := who, core := 0, gang := 0, scr := 0, xlat := x, priv := .supervisor, tcmLo := 0, tcmHi := 0 }

/-! ## The queue table (R398) -/

/-- The fields of a queue descriptor (R398). -/
structure QueueEntry where
  en : Bool
  ceil : BitVec 3
  ctx : BitVec 6
  base : BitVec 52
  slots : BitVec 32
  rej : BitVec 24
  head : Word
  tail : Word
  deriving DecidableEq, Repr

/-- The descriptor of 32 bytes (R398). -/
def queueOf (d : List Byte) : QueueEntry :=
  let r := BitVec.ofNat 256 (natOfBytes d)
  { en := r.getLsbD 0, ceil := r.extractLsb' 1 3, ctx := r.extractLsb' 4 6, base := r.extractLsb' 12 52
    slots := r.extractLsb' 64 32, rej := r.extractLsb' 104 24, head := r.extractLsb' 128 64
    tail := r.extractLsb' 192 64 }

/-- The PA of a queue's descriptor. -/
def State.queuePa (s : State) (q : Nat) : Nat := s.control.qtbase.toNat + 32 * q

/-- The host queue manager reads a descriptor. -/
def State.queueEntry (q : Nat) (s : State) : QueueEntry × State :=
  let (d, s) := s.readPa .queueManager (s.queuePa q) 32
  (queueOf d, s)

/-- A queue number is in range and its queue is enabled and owned by a context (R210, R398). -/
def QueueEntry.usable (e : QueueEntry) (q : Word) (ctx : Nat) : Bool :=
  q.extractLsb' 17 47 == 0 && e.en && e.ctx.toNat == ctx

/-! ## Enqueueing (R210) -/

/-- The records queued on a spawn queue. -/
def State.spawned (s : State) (cluster : Nat) : Nat :=
  (s.launches.filter fun (l : Launch) => decide (l.queue = .spawn cluster ∧ l.queued)).length

/-- The new launch of a record (R200, R210): eligible from now when join is 0. -/
def State.newLaunch (rec : Word) (a ctx : Nat) (queue : QueueRef) (ceil : Nat) (r : Record) (s : State) : State :=
  let l : Launch :=
    { key := s.nextKey, record := rec, pa := a, ctx := ctx, queue := queue, ceil := ceil
      elig := if r.join = 0 then some s.time else none, next := 0, queued := true, total := r.gangs, ended := 0
      clusters := 0, latest := 0, held := [], doubleTrap := false, first := [] }
  { s with launches := s.launches ++ [l], nextKey := s.nextKey + 1 }

/-- The atomic part of R210 at the record's memory die: the status and the state. The cluster's bit joins pcl
where a hart enqueues. -/
def State.enqueueAt (who : Requester) (rec : Word) (a ctx : Nat) (queue : QueueRef) (bit : BitVec 48) (s : State) :
    Nat × State :=
  let (d, s) := s.readDie who a 64
  let r := recordOf d
  if r.st = 1 ∨ r.st = 2 then (4, s)
  else
    match queue with
    | .spawn c =>
      if s.spawned c ≥ 256 then (1, s)
      else
        let s := s.writeDie who (cellsFrom (a + 56) (bytesOf 8 ((1#64 <<< 48) ||| (r.pcl ||| bit).setWidth 64).toNat))
        (0, s.newLaunch rec a ctx queue 7 r)
    | .hardware q =>
      let (e, s) := s.queueEntry q
      if e.tail - e.head = e.slots.setWidth 64 then (1, s)
      else
        let s := s.writeDie who (cellsFrom (a + 56) (bytesOf 8 ((1#64 <<< 48) ||| (r.pcl ||| bit).setWidth 64).toNat))
        let slot := e.tail.toNat % (max 1 e.slots.toNat)
        let s := s.writePa .queueManager (e.base.toNat * 4096 + 8 * slot) (bytesOf 8 rec.toNat)
        let s := s.writePa .queueManager (s.queuePa q + 24) (bytesOf 8 (e.tail + 1).toNat)
        (0, s.newLaunch rec a ctx queue e.ceil.toNat r)

/-! ## Joining (R211) -/

/-- The atomic part of R211 at a record's home address: the new value of join, or none where it was 0. The JOIN
that brings it to 0 makes the queued record eligible from now on (R200). -/
def State.joinAt (who : Requester) (a : Nat) (bits : BitVec 48) (s : State) : Option (BitVec 32) × State :=
  let (d, s) := s.readDie who a 64
  let r := recordOf d
  if r.join = 0 then (none, s)
  else
    let j := r.join - 1
    let s := s.writeDie who (cellsFrom (a + 32) (bytesOf 4 j.toNat) ++
      cellsFrom (a + 56) (bytesOf 6 (r.pcl ||| bits).toNat))
    if j = 0 then
      (some j, { s with launches := s.launches.map fun (l : Launch) =>
        if l.pa = a ∧ l.queued then { l with elig := some s.time } else l })
    else (some j, s)

/-- An address of a context translated for the package's own agents: the home of a byte of device memory; none where the
address does not translate to one (log 60). -/
def State.contextHome (who : Requester) (x : Xlat) (va : Word) (n : Nat) (s : State) : Option Nat × State :=
  match resolve (packageAgent who x) [] .atomic va n s with
  | (.ok (.device _ home _, _), s) => (some home, s)
  | (_, s) => (none, s)

end Sys2Proof.Machine
end

