-- ==== Sys2Proof/Machine/Order.lean ====
section
/-! DEFINITION. The order in which the cluster schedulers see records, and since when each has stood first (R201, R202). -/

namespace Sys2Proof.Machine

/-- The cluster's die has every capability of a record (R202). -/
def Record.capable (r : Record) (cluster : Nat) : Bool := r.rcap &&& ~~~(capmask cluster) == 0

/-! ## The order of records (R201) -/

/-- What stands in a scheduler's order: a record that waits for its next gang, or a resumption entry (R341). -/
inductive Candidate where
  | launch (l : Launch)
  | saved (v : Saved)
  deriving DecidableEq, Repr

/-- The record of a launch as the dies hold it. -/
def State.recordAt (s : State) (pa : Nat) : Record := recordOf (s.dieBytes pa 64)

/-- The launch of a saved gang. -/
def State.launchOf (s : State) (g : Gang) : Option Launch := s.launches.find? fun (l : Launch) => g.launch == some l.key

/-- Base priority, eligibility time, queue number and record address of a candidate. A resumption entry has its launch's
queue number, or 0 where it has no launch (log 57). -/
def Candidate.keys (s : State) (c : Candidate) : Nat × Nat × Nat × Nat :=
  let queueNo (q : QueueRef) : Nat := match q with
    | .hardware n => n
    | .spawn n => 131072 + n
  match c with
  | .launch l => (min (s.recordAt l.pa).prio.toNat l.ceil, (l.elig.getD 0).toNat, queueNo l.queue, l.record.toNat)
  | .saved v =>
    (v.gang.basePrio, v.elig.toNat, (s.launchOf v.gang).elim 0 fun (l : Launch) => queueNo l.queue, v.gang.record.toNat)

/-- The effective priority (R201). -/
def State.effective (s : State) (base elig : Nat) : Nat := min 7 (base + (s.time.toNat - elig) / 65536)

/-- A candidate stands before another (R201). A record some of whose gangs are placed keeps its keys, so that one of a
higher effective priority goes ahead of it (R205; log 58). -/
def State.ahead (s : State) (a b : Candidate) : Bool :=
  let (pa, ta, qa, ra) := a.keys s
  let (pb, tb, qb, rb) := b.keys s
  let ea := s.effective pa ta
  let eb := s.effective pb tb
  decide (eb < ea ∨ (ea = eb ∧ (ta < tb ∨ (ta = tb ∧ (qa < qb ∨ (qa = qb ∧ ra < rb))))))

/-- The candidates that a scheduler sees (R202): every scheduler sees every resumption entry (R341; log 57). -/
def State.candidates (s : State) (cluster : Nat) : List Candidate :=
  ((s.launches.filter fun (l : Launch) =>
      l.queued && l.elig.isSome &&
        (match l.queue with
          | .hardware _ => true
          | .spawn c => c == cluster)).map Candidate.launch) ++ s.saved.map Candidate.saved

/-- A launch stands first in the order of a scheduler whose cluster meets its capability mask (R202). -/
def State.standsFirst (s : State) (cluster : Nat) (l : Launch) : Bool :=
  let all := s.candidates cluster
  all.contains (.launch l) && (s.recordAt l.pa).capable cluster && all.all fun d => !s.ahead d (.launch l)

/-- Since when a launch has stood first in the order of each scheduler, at the present time (R202). -/
def State.firstSince (s : State) (l : Launch) : List (Nat × Word) :=
  ((List.range Config.clusters).filter fun c => s.standsFirst c l).map fun c =>
    (c, ((l.first.find? fun p => p.1 == c).map Prod.snd).getD s.time)

/-- Each scheduler counts for how long the record that is first in its order has stood there. -/
def State.noteFirst (s : State) : State :=
  { s with launches := s.launches.map fun (l : Launch) => { l with first := s.firstSince l } }

end Sys2Proof.Machine
end

