-- ==== Sys2Proof/Machine/Issue.lean ====
section
/-! DEFINITION. What a step does around an instruction: the boundary events of R325, the checks of R24 before the
instruction, the records after it, and the passing of time. -/

namespace Sys2Proof.Machine

/-! ## Time (R21, R22, R363; log 3) -/

/-- A word of a scalar load. -/
def scalarLoadWord (w : BitVec 32) : Bool :=
  let major := (w.extractLsb' 26 6).toNat
  let f := (w.extractLsb' 0 4).toNat
  major == 0x10 || major == 0x11 || (major == 0x14 && (decide (f < 8) || f == 0xC || f == 0xD))

/-- A hart goes on with the instruction that it has issued: no freeze holds it, but for its step. -/
def Hart.active? (h : Hart) : Bool := h.run == .running && (!h.frozen || h.dbg.stepping)

/-- A hart is held by a stream-port stall (R315, R363). -/
def Hart.portHeld (h : Hart) : Bool :=
  h.active? && match h.wait with
    | some (.port _) => true
    | _ => false

/-- A hart's load that has issued awaits its data: from a chained copy, or over a link that carries nothing now (R295,
R363, R374). -/
def Hart.awaitsLoad (h : Hart) : Bool :=
  h.active? && (h.partLoad.isSome ||
    (h.linkHold.any LinkHold.issued && (scalarLoadWord h.word || vectorLoadWord h.word)))

/-- A hart can use an edge: it waits at no WLWAIT, WFI or BAR, has credit, keeps no records under STALL, and no freeze
holds it (R363). -/
def Hart.runnable (h : Hart) : Bool :=
  h.active? && !h.stalled && h.credit != 0 && match h.wait with
    | some .barrier | some (.wakeLine _ _) | some .interrupt => false
    | _ => true

/-- The class of edges on which the lanes and the array rest (R363): stream-bound where a stream port holds a hart;
memory-bound where a load waits; with no hart that is runnable the core is idle; otherwise one of the others, which is
free. -/
def restClass (k : Fin 6) (hs : List Hart) : Fin 6 :=
  if hs.any Hart.portHeld then 1
  else if hs.any Hart.awaitsLoad then 2
  else if !hs.any Hart.runnable then 5
  else if k = 0 ∨ k = 1 then 5
  else k

/-- Of n edges from edge j of a hold on, those with an even number (R426). -/
def evenEdges (j n : Nat) : Nat := (j + n + 1) / 2 - (j + 1) / 2

/-- Of the next n edges of a core, those on which its lanes and its array may act (R426): each of a stretch, of the hold
that follows it or runs already the even ones, and each after the hold. -/
def Core.openEdges (n : Nat) (c : Core) : Nat :=
  let stretch := min n c.droopStretch
  let left := if c.droopStretch = 0 then c.droopHold else 64
  let held := min (n - stretch) left
  stretch + evenEdges (64 - left) held + (n - stretch - held)

/-- Of the next n edges of a core, those on which a group commits or the array takes a step (R363), where lanes and array
are at work: of the groups and steps that are done one an open edge. -/
def Core.busyEdges (works : Bool) (n : Nat) (c : Core) : Nat := if works then min c.work (c.openEdges n) else 0

/-- A slip counter counts edges. -/
def Core.slide (cls : Fin 6) (n : Nat) (c : Core) : Core :=
  { c with slip := c.slip.set cls.val (c.slip[cls.val] + BitVec.ofNat 48 n) cls.isLt }

/-- A core sees n clock edges, each in one class (R22, R363); the stretch of a droop alarm runs out and the 64 edges of
its hold follow (R426). -/
def Core.seeEdges (works : Bool) (k : Fin 6) (hs : List Hart) (n : Nat) (c : Core) : Core :=
  let busy := c.busyEdges works n
  let c' := (c.slide 0 busy).slide (restClass k hs) (n - busy)
  { c' with
      cycle := c.cycle + BitVec.ofNat 64 n, work := c.work - busy, droopStretch := c.droopStretch - n
      droopHold := if c.droopStretch ≠ 0 ∧ c.droopStretch ≤ n then 64 - (n - c.droopStretch)
        else if c.droopStretch = 0 then c.droopHold - n
        else c.droopHold }

/-- The edges of a step; with no resident hart the clock is gated, and they are not counted (R22). -/
def Core.passEdges (draw c : Nat) (hs : List Hart) (k : Core) : Core :=
  if hs = [] then k
  else k.seeEdges (Config.lanesWork draw c) (Config.slipClass draw c) hs (Config.stepEdges draw c).toNat

/-- The resident harts of a core; one brought back for its engine queues alone holds no seat there (R22, R212, R338). -/
def State.residents (s : State) (c : Nat) : List Hart :=
  s.harts.filter fun h => h.core == c && h.resident && !h.seatless

/-- Time passes, and the step is counted; the schedulers count on (R202). Every die reads the one time of the package
(R21; log 53). -/
def State.tick (s : State) : State :=
  State.noteFirst { s with
    steps := s.steps + 1, time := timeAfter s.time (Config.stepNs s.steps).toNat
    cores := s.cores.mapIdx fun c k => k.passEdges s.steps c (s.residents c) }

/-! ## Boundary events (R325) -/

/-- An enabled breakpoint at pc (R351). -/
def Hart.breakpointHit (h : Hart) : Option Nat :=
  (List.range 4).find? fun u =>
    let b := h.dbg.dbp.toList.getD u 0
    b.getLsbD 0 && b.extractLsb' 2 62 == h.pc.extractLsb' 2 62

/-- The interrupt-enable bit that governs a level (R325; at firmware level the firmware copy, log 14). -/
def Hart.interruptsOn (h : Hart) : Bool := if h.priv = .firmware then h.fw.stat.ie else h.sup.stat.ie

/-- The interrupt that is taken first: event, software, timer; its code and trap value (R323, R324, R325). -/
def State.interruptDue (s : State) (h : Hart) : Option (BitVec 8 × Word) :=
  if !h.interruptsOn then none
  else if h.eve && h.sevent != 0 then some (3, h.sevent.setWidth 64)
  else if h.swe && h.swp then some (2, 0)
  else if s.timerPending h then some (1, 0)
  else none

/-- The enabled breakpoint that fires at the current hart's boundary (R351). -/
def Hart.breakpointDue (h : Hart) : Option Nat := if h.dbg.passBreak then none else h.breakpointHit

/-- The pre-emption stop that is due at the current hart's boundary (R338); the request waits while a freeze covers the
hart (R342). -/
def State.stopDue (s : State) : Option StopKind :=
  match s.myGang.pre with
  | none => none
  | some r =>
    if s.freezes.any fun f => freezeCovers f s.hart.core then none
    else if s.hart.quiet then some .quiet
    else if s.graceOver s.hart r then some .forced
    else none

/-- A freeze is about to stop the current hart (R325, R354). -/
def State.debugDue (s : State) : Bool := !s.hart.dbg.stepping && s.freezes.any fun f => freezeCovers f s.hart.core

/-- The instruction at pc has issued and goes on: a WLWAIT or a WFI that waits retires before any event is taken (R261,
R337), a load some of whose groups have committed completes (R295), a multiply some of whose steps are done continues
(R194), and a forced stop that lands inside the instruction finds it in flight (R339). -/
def Hart.inFlight (h : Hart) : Bool :=
  h.stopAt.isSome || h.partLoad.isSome || h.arrayAt != 0 || match h.wait with
    | some (.wakeLine _ _) | some .interrupt => true
    | _ => false

/-- The boundary events of R325, in order. -/
def boundary : M Unit := do
  let s ← get
  if s.hart.inFlight then pure ()
  else
    match s.hart.breakpointDue with
    | some u =>
      modify (State.ownStop 1 (BitVec.ofNat 2 u))
      endHere
    | none =>
      match s.stopDue with
      | some how =>
        modify (State.stopSelf how)
        endHere
      | none =>
        match s.interruptDue s.hart with
        | some (code, tval) =>
          modify (State.takeTrap true 0 code tval)
          endHere
        | none => pure ()

/-! ## The word that issues -/

/-- The fetch of n body words from an address. -/
def fetchBody : Nat → Word → M (List (BitVec 32))
  | 0, _ => pure []
  | n + 1, va => do
    let w ← fetchWord va
    let t ← fetchBody n (va + 4)
    return w :: t

/-- The places at which two bodies differ. -/
def changedWords (old new : List (BitVec 32)) : List Nat :=
  (List.range old.length).filter fun k => old[k]? != new[k]?

/-- A loop that a resumption brought back fetches its body again from base before it replays a word (R95). A word that
software has changed meanwhile, against R95, is noted and has the outcome of R2 (breachWord). A fault of this fetch is
taken at the word at pc, with the loop suspended: the spec names no place for it (log 71). -/
def refetchBody (l : ActiveLoop) : M ActiveLoop := do
  if !l.stale then return l
  let body ← fetchBody l.body.length l.base
  let l := { l with stale := false, changed := changedWords l.body body }
  onHart fun h => { h with seqr := { h.seqr with loop := some l } }
  return l

/-- The word at pc: a word of the running loop's body, or a fetched one (R24, R95). -/
def issueWord : M (BitVec 32) := do
  let h ← hart
  if h.pc.extractLsb' 0 2 ≠ 0 then trap 4 0x01 h.pc
  else
    match h.looping with
    | some l =>
      let l ← refetchBody l
      if h.pc = l.base + BitVec.ofNat 64 (4 * l.pos) then return l.body.getD l.pos 0
      else fetchWord h.pc
    | none => fetchWord h.pc

/-- The classes in which the last instruction went past an acquire are ordered for the next one (R268; log 72). -/
def EarlyLine.close (e : EarlyLine) : EarlyLine := { e with closed := e.closed ||| e.closing, closing := 0 }

/-- An issue starts: the word is noted, a vprog of another address is cleared (R110), the wait that is over is kept
for the instruction to see, and the boundary before it is past (R338). -/
def Hart.begin (w : BitVec 32) (h : Hart) : Hart :=
  { h with word := w, early := h.early.map EarlyLine.close, vprog := if h.pc = h.vprogPc then h.vprog else 0, fate := .none, quiet := false
           touched := if h.pc = h.vprogPc then h.touched else []
           linkHold := if h.linkHold.any LinkHold.issued then h.linkHold else none
           dbg := { h.dbg with passBreak := false } }

/-- The vector registers that a preferred point has left unspecified hold a value of this issue's own (R3, R129; log 31). -/
def State.drawLost (s : State) : State :=
  if s.hart.unsure = [] then s
  else
    let byte (r i k : Nat) : Byte := s.permittedByte s.me (Config.lostByte s.steps (256 * r + i) k)
    let word (r i : Nat) : Word := BitVec.ofNat 64 (natOfBytes ((List.range 8).map (byte r i)))
    let lost (r : Nat) : Vector Word 256 := Vector.ofFn fun i : Fin 256 => word r i.val
    s.onHart fun h =>
      { h with v := Vector.ofFn fun r : Fin 32 => if h.unsure.contains r.val then lost r.val else h.v[r] }

/-- A vector or matrix word names a register: within a group, or a panel, of its fields (log 64). -/
def namesReg (w : BitVec 32) (g r : Nat) : Bool :=
  let major := (w.extractLsb' 26 6).toNat
  let n := if 0x36 ≤ major then 16 else g
  decide (0x20 ≤ major ∧ major ≤ 0x3A) &&
    [w.extractLsb' 21 5, w.extractLsb' 16 5, w.extractLsb' 11 5].any fun f => decide (f.toNat ≤ r ∧ r < f.toNat + n)

/-- An instruction meets the errors of the vector registers that it names (R239, R240). -/
def State.meetRegisters (w : BitVec 32) (s : State) : State :=
  if s.localErrors = [] then s
  else
    let met (e : LocalGranule × Bool) : Bool := match e.1 with
      | .register h r _ => h == s.hart.name && namesReg w (s.hart.vtype.elim 1 fun t => 2 ^ t.lg.toNat) r
      | _ => false
    (s.localErrors.filter met).foldl (fun t e => t.meetLocal 1 s.me e)
      { s with localErrors := s.localErrors.filter fun e => !met e }

/-- Everything before the instruction: boundary events, the fetch, the scoreboard, the errors of the registers. The answer
is the word. -/
def prepare : M (BitVec 32) := do
  boundary
  let w ← issueWord
  onHart (Hart.begin w)
  if (← hart).heldBack w then waitFor .engine
  modify fun s => s.drawLost.meetRegisters w
  return w

/-! ## After the instruction -/

/-- A word transfers control when it retires: a taken branch, a jump, CALL.V, RET.V, GATE or GRET (R362). -/
def transfers (h : Hart) (w : BitVec 32) : Bool :=
  let p := partsOfWord w
  match p.major.toNat with
  | 0x0C => h.rx p.a == h.rx p.b
  | 0x0D => h.rx p.a != h.rx p.b
  | 0x0E | 0x0F | 0x1A => true
  | _ => false

/-- The records of a retired instruction (R361, R362): a branch record, the record of a new ring entry, sync
records. The instret of a branch record is the count before the transfer itself: the spec does not say whether it counts
(log 79). -/
def State.traceRetired (before : State) (w : BitVec 32) (s : State) : State :=
  if !s.hart.dbg.tren then s
  else
    let at_ := before.hart.instret
    let s := if transfers before.hart w then s.traceAt at_ 2 0 s.hart.pc at_ 0 else s
    let s := if (s.core s.hart.core).rhead ≠ (before.core s.hart.core).rhead then
        match (s.core s.hart.core).ring.head? with
        | some e =>
          s.traceAt at_ 3 (e.words[0].extractLsb' 20 3) (e.words[1].extractLsb' 0 32 ++ e.words[0].extractLsb' 32 32)
            e.words[2] e.words[3]
        | none => s
      else s
    let s := s.onHart fun h => { h with dbg := { h.dbg with sinceSync := h.dbg.sinceSync + 1 } }
    if !before.hart.dbg.tren || s.hart.dbg.sinceSync == 0 then s.traceSync else s

/-- A stepped hart's step ends when its instruction retires or enters a handler (R358); a step stop records skid 0
(R367). -/
def State.endStep (s : State) : State :=
  if !s.hart.dbg.stepping then s
  else if s.hart.fate = .retired then s.debugStop 5 0 0
  else if s.hart.fate = .trapped then s.debugStop 9 0 0
  else s

/-- What an instruction that retired records: the trace, the held faults whose tokens it has read, its stride steps
included, and the tokens that it has overwritten unread (R304). -/
def State.noteRetired (before : State) (w : BitVec 32) (s : State) : State :=
  if before.hart.retired < s.hart.retired then
    let p := partsOfWord w
    let step := before.hart.strideRegs w
    (State.traceRetired before w s).onHart fun h =>
      (h.clearFaults (scalarReads p ++ step)).forgetTokens (scalarWrites p)
  else s

/-- An issue uses a cycle of the window and a credit of the hart (R207). -/
def State.charge (s : State) : State :=
  (s.onHart fun h => { h with credit := h.credit - 1, issued := s.steps + 1 }).modCore s.hart.core fun c =>
    { c with issues := c.issues + 1 }

/-- What an instruction's fate records: the trace, the held faults it clears, the credit it used, the end of a
step. -/
def State.settle (before : State) (w : BitVec 32) (s : State) : State := (State.noteRetired before w s).charge.endStep

/-- The hart waits for a link since some time, what its instruction waits for besides as it stands; no breakpoint fires
again for an instruction that has issued (R351), and the boundary before the instruction is past (R338). -/
def Hart.awaitLink (issued : Option (BitVec 32)) (link : Nat × Nat) (now : Word) (h : Hart) : Hart :=
  { h with linkHold := some ⟨link.1, link.2, (h.linkHold.map LinkHold.since).getD now, issued.isSome⟩
           word := issued.getD h.word, stopAt := none, quiet := false, fate := .waiting
           dbg := { h.dbg with passBreak := issued.isSome || h.dbg.passBreak } }

/-- A request met a link that carries nothing: what the step did is not taken, and the hart waits for the link with its
instruction, or its fetch, in progress (R374, R376; log 48). -/
def State.holdFor (start : State) (issued : Option (BitVec 32)) (link : Nat × Nat) : State :=
  { start.onHart (Hart.awaitLink issued link start.time) with held := none }

/-- Everything after an instruction that issued in a state, and the time it took. -/
def State.finish (start before : State) (w : BitVec 32) (s : State) : State :=
  match s.held with
  | some link => (start.holdFor (some w) link).tick
  | none => (State.settle before w s).tick

/-- Everything after a boundary event, a failed fetch or a pending token, which issue nothing. -/
def State.finishEarly (start s : State) : State :=
  match s.held with
  | some link => (start.holdFor none link).tick
  | none => s.endStep.tick

/-! ## Loads that a stop discards (R245, R257) -/

/-- The ring and the counts of retired vector instructions and committed groups as they stood before a discarded load
(R359, R364). -/
def Core.unretire (before after : Core) : Core :=
  { after with ring := before.ring, rhead := before.rhead, work := before.work
               hpmctr := Vector.ofFn fun i : Fin 8 =>
                 if after.hpmevt[i] = 1 ∨ after.hpmevt[i] = 2 then before.hpmctr[i] else after.hpmctr[i] }

/-- What is left of a load whose reads have performed and whose reply or effect on registers is discarded: the hart as it
stood before it, and nothing of it retired. -/
def State.withoutReply (before after : State) : State :=
  ({ after with hart := { before.hart with tlb := after.hart.tlb, ibuf := after.hart.ibuf, dbg := after.hart.dbg } } :
    State).modCore before.hart.core (Core.unretire (before.core before.hart.core))

/-- A load that has run to its end may be discarded with its reads performed: a scalar load whose reply a forced stop
abandons (R245), and a vector load that the broadcast of a freeze meets (R257), which of the two sides of the load the
stop falls on being free. -/
def State.landed (before : State) (w : BitVec 32) (after : State) : State :=
  let h := before.hart
  if after.hart.fate ≠ .retired then after
  else
    match h.stopAt with
    | some ⟨_, some _⟩ =>
      if scalarLoadWord w then ((State.withoutReply before after).stopSelf .forced).bump 7 1 else after
    | _ =>
      if vectorLoadWord w && !h.frozen && (before.freezes.any fun f => freezeCovers f h.core) &&
          Config.loadDiscarded before.steps h.core then
        let s := State.withoutReply before after
        let (cause, unit) := s.hart.dbg.causeDue.getD (8, 0)
        s.debugStop cause unit s.hart.skidNow
      else after

/-! ## A loop's body that software has changed (R95, R2) -/

/-- The word at pc is one of a loop's body that software has changed while the loop was suspended. -/
def Hart.breached (h : Hart) : Bool :=
  match h.looping with
  | some l => l.changed.contains l.pos && h.pc == l.base + BitVec.ofNat 64 (4 * l.pos)
  | none => false

/-- The addresses of memory whose bytes two states hold otherwise. -/
def changedCells (m n : List Host.Cell) : List Nat :=
  ((m.filter fun c => Memory.get n c.1 != c.2) ++ (n.filter fun c => Memory.get m c.1 != c.2)).map Prod.fst

/-- The PAs of the bytes that a cluster's cache holds dirty in one state and not so in another. -/
def dirtiedCells (c : Nat) (before after : State) : List Nat :=
  (after.cluster c).lines.flatMap fun l =>
    (l.dirty.filter fun i => (before.lineAt c l.base).map (Line.byte · i) != some (l.byte i)).map (l.base + ·)

/-- A line without the bytes at some PAs. -/
def Line.without (pas : List Nat) (l : Line) : Line :=
  pas.foldl (fun l pa => if lineOf pa = l.base then l.forget (pa % 128) 1 else l) l

/-- R95 names no outcome for a body that software changes while its loop is suspended, so that R2's holds for each changed
word: from the state before the word and the one that the word as LOOP fetched it would leave, the destinations that it
names, scalar registers, vector registers, mask registers and bytes of memory, hold unspecified values, nothing else
changes, and the word retires (log 71). -/
def State.breachWord (w : BitVec 32) (before after : State) : State :=
  let h := before.hart
  let k := after.hart
  let named := scalarWrites (partsOfWord w)
  let byte (r i : Nat) : Byte := before.permittedByte before.me (Config.breachedByte before.steps r i)
  let word (r : Nat) : Word := BitVec.ofNat 64 (natOfBytes ((List.range 8).map (byte r)))
  let dirtied := dirtiedCells h.cluster before after
  let lost := changedCells before.mem after.mem ++ dirtied.filterMap before.homeOf
  let s := before.modCluster h.cluster fun c => { c with lines := c.lines.map (Line.without dirtied) }
  ({ s with loose := lost ++ s.loose.filter fun a => !lost.contains a } : State).onHart fun _ => Hart.retire
    { h with
        x := Vector.ofFn fun r : Fin 32 =>
          if r.val ≠ 0 ∧ (named.contains (BitVec.ofNat 5 r.val) ∨ k.x[r] ≠ h.x[r]) then word r.val else h.x[r]
        m := Vector.ofFn fun r : Fin 8 =>
          if k.m[r] ≠ h.m[r] then Vector.ofFn fun i : Fin 512 => word (100 + 512 * r.val + i.val) else h.m[r]
        unsure := (List.range 32).filter fun r => h.unsure.contains r || k.v[r]? != h.v[r]? }

/-- What an issued word leaves: its instruction's state, but where software has changed the word against R95. -/
def State.outcome (before : State) (w : BitVec 32) (after : State) : State :=
  if before.hart.breached then State.breachWord w before after else State.landed before w after

/-- One issue of a core for the hart that R207 chooses; with none ready, time passes. -/
def coreStep (dec : BitVec 32 → Option Instr) (ex : Instr → State → Out) (c : Nat) (s : State) : Out :=
  match s.pick c with
  | none => .next s.tick
  | some s =>
    match prepare s with
    | .error _ t => .next (State.finishEarly s t)
    | .ok w t =>
      match dec w with
      | none => .next (State.finish s t w (t.takeTrap false 0 0x05 (w.setWidth 64)))
      | some i =>
        match ex i t with
        | .next u => .next (State.finish s t w (State.outcome t w u))
        | .fault r => .fault r
        | .refused r => .refused r

end Sys2Proof.Machine
end

