-- ==== Sys2Proof/Machine/Background.lean ====
section
/-! DEFINITION. What the package does beneath the harts: heartbeat ticks, evictions, scrubbing, the channels' schedulers
(R21, R235, R239, R267, R278, R380 to R382), links (R374 to R377), the droop governor (R426, R427). -/

namespace Sys2Proof.Machine

/-! ## Ticks, evictions, background work of the dies -/

/-- The granule that a place lies in. -/
def granuleStart (g : LocalGranule) : LocalGranule :=
  match g with
  | .tcm core off => .tcm core (granuleOf off)
  | .scratch gang off => .scratch gang (granuleOf off)
  | .line cluster pa => .line cluster (granuleOf pa)
  | .register h reg off => .register h reg (granuleOf off)

/-- HEARTBEAT_TICK (R278, R279). -/
def execHeartbeatTick (s : State) : Out := .next { s with hbeat := s.hbeat + 1 }

/-- CACHE_EVICTION (R234, R235, R236, R267): cluster caches are numbered 0 to 47, the memory-side caches of the dies 48 to
55, where a reader-count line becomes ordinary (log 8). The line that its set gives up is written back and goes; another
is written back, which an eviction may do at any time. -/
def execCacheEviction (cluster line : Nat) (s : State) : Out :=
  if cluster < Config.clusters then
    if ((s.cluster cluster).victim (lineOf line)).map Line.base = some (lineOf line) then
      .next (s.evict (.cache cluster) cluster line)
    else .next (s.writeBack (.cache cluster) cluster line)
  else
    match s.homeOf line with
    | some a => if homeDie a + 48 = cluster then .next (s.ordinaryLine (lineOf a)) else .next s
    | none => .next s

/-- COMPACTION (R238, R382): free sectors move, by a read and a write in the background class; no sector is won or lost
and no value changes. -/
def execCompaction (die : Nat) (s : State) : Out :=
  .next ((s.requestBackground die (Config.poolChannel s.steps die).val).requestBackground die
    (Config.poolChannel s.steps (die + 8)).val)

/-- What a scrub of a granule finds, or what arises after it (R239, R240; log 64). -/
def State.scrub (k g : Nat) (finding : ScrubFinding) (s : State) : State :=
  match finding with
  | .clean => s
  | .corrected => s.meetError 1 (.background k) (g, true)
  | .uncorrectable => s.meetError 1 (.background k) (g, false)
  | .arises c => { s with errors := (g, c) :: s.errors.filter fun e => e.1 != g }
  | .elsewhere place c =>
    let g := granuleStart place
    { s with localErrors := (g, c) :: s.localErrors.filter fun e => e.1 != g }

/-- PATROL_SCRUB (R239, R240, R382): a granule is read in the background class, which meets an error that it has; a
corrected one is written back and counted, an uncorrectable one is marked and recorded, once. -/
def execPatrolScrub (pa : Nat) (finding : ScrubFinding) (s : State) : Out :=
  match s.homeOf pa with
  | none => .next s
  | some a =>
    let k := homeDie a
    if 8 ≤ k then .next s
    else .next (((s.request (.background k) a).readErrors (.background k) (granuleOf a) 32).scrub k (granuleOf a) finding)

/-- LATCH_PARITY_ERROR (R239, R332). -/
def execLatchParityError (req : Nat) (latch : BitVec 64) (s : State) : Out :=
  .next (s.logCheck 5 (BitVec.ofNat 11 req) 0 latch)

/-- HBM_REFRESH (R382): it delays requests and changes nothing else. -/
def execHbmRefresh (_die _bank : Nat) (s : State) : Out := .next s

/-- HBM_CALIBRATION (R382): it delays requests and changes nothing else. -/
def execHbmCalibration (_die _channel : Nat) (s : State) : Out := .next s

/-- TELEMETRY_SAMPLING (R382): a reading of the die's sensors, which the next telemetry line carries as its operand,
by one line in the background class. -/
def execTelemetrySampling (die : Nat) (s : State) : Out :=
  .next (s.requestBackground die (Config.poolChannel s.steps die).val)

/-! ## The channel scheduler (R380) -/

/-- The first waiting request of a class. -/
def firstOfClass (c : BitVec 2) (l : List ChannelRequest) : Option ChannelRequest := l.find? fun r => r.cls == c

/-- The request of the earliest stamp, the first to arrive among equal ones. -/
def earliestStamp : List ChannelRequest → Option ChannelRequest
  | [] => none
  | r :: t =>
    match earliestStamp t with
    | none => some r
    | some q => some (if earlier q.stamp r.stamp then q else r)

/-- Within a class: requests with deadlines in stamp order, then the others in arrival order (R380). -/
def pickInClass (c : BitVec 2) (l : List ChannelRequest) : Option ChannelRequest :=
  let mine := l.filter fun r => r.cls == c
  match earliestStamp (mine.filter fun r => r.off != 0) with
  | some r => some r
  | none => mine.head?

/-- Slots that class 2 and class 3 still have to receive in the window. -/
def Channel.owed (q : Channel) : Nat × Nat :=
  (if (firstOfClass 2 q.waiting).isSome then 4 - q.floor2 else 0,
   if (firstOfClass 3 q.waiting).isSome then 1 - q.floor3 else 0)

/-- The next request of a channel (R380): a floor slot where the window leaves no other room for it, or where the
scheduler gives it earlier, which is free; else the lowest class. Where slots are owed to both classes, that of class 2
goes first, which R380 does not say (log 36). -/
def Channel.next (early : Bool) (q : Channel) : Option ChannelRequest :=
  let (o2, o3) := q.owed
  if o2 + o3 ≠ 0 ∧ (early ∨ 32 - q.slot ≤ o2 + o3) then
    firstOfClass (if o2 ≠ 0 then 2 else 3) q.waiting
  else
    match pickInClass 0 q.waiting, pickInClass 1 q.waiting, pickInClass 2 q.waiting with
    | some r, _, _ => some r
    | none, some r, _ => some r
    | none, none, some r => some r
    | none, none, none => pickInClass 3 q.waiting

/-- The channel after the service of a request. -/
def Channel.served (q : Channel) (r : ChannelRequest) : Channel :=
  let last := q.slot + 1 = 32
  { waiting := q.waiting.erase r
    slot := if last then 0 else q.slot + 1
    floor2 := if last then 0 else if r.cls = 2 then q.floor2 + 1 else q.floor2
    floor3 := if last then 0 else if r.cls = 3 then q.floor3 + 1 else q.floor3 }

/-- CHANNEL_SERVICE (R380, R381): a channel serves its next request, which counts a miss if it is late. -/
def execChannelService (die channel : Nat) (s : State) : Out :=
  match (s.die die).channels[channel]? with
  | none => .next s
  | some q =>
    match q.next (Config.floorSlotNow s.steps channel) with
    | none => .next s
    | some r =>
      .next (s.modDie die fun d =>
        { d with channels := d.channels.setIfInBounds channel (q.served r)
                 misses := Die.serve (stampOf s.time 0) r d.misses })

/-! ## Links (R374 to R377) -/

/-- The other end of a ring link, with its number there (R377). -/
def ringPeer (die l : Nat) : Option (Nat × Nat) :=
  if l = 0 then some ((die + 7) % 8, 1) else if l = 1 then some ((die + 1) % 8, 0) else none

/-- A change at one end of a link. -/
def State.modEnd (die l : Nat) (f : Link → Link) (s : State) : State :=
  s.modDie die fun d => { d with links := d.links.setIfInBounds l (f (d.links.toList.getD l Link.reset)) }

/-- A change of the link itself, which both ends of a ring link show. -/
def State.modLink (die l : Nat) (f : Link → Link) (s : State) : State :=
  let s := s.modEnd die l f
  match ringPeer die l with
  | some (k, m) => s.modEnd k m f
  | none => s

/-- A window may open: none is open, and the last one closed 2 µs ago (R374). -/
def Link.mayOpen (k : Link) (now : Word) : Bool :=
  !k.train && !k.failed && (decide (2000 ≤ (now - k.closed).toNat) || k.closed == 0)

/-- The traffic of an interval fits in half the flit slots of the next lower gear (R374): gear g has 8 (g + 1) GT/s, so
that of the slots of gear g the gear below it has g of every g + 1. -/
def Link.fitsBelow (k : Link) (busy slots : Nat) : Bool := decide (2 * busy * (k.gear.toNat + 1) ≤ slots * k.gear.toNat)

/-- The gear that the policy chooses at the end of an interval (R374, R377). -/
def Link.nextGear (k : Link) (busy slots : Nat) : BitVec 2 :=
  if k.gfloor = k.gceil then k.gceil
  else if slots ≠ 0 ∧ 3 * slots ≤ 4 * busy ∧ k.gear.toNat < k.gceil.toNat then k.gear + 1
  else if 4 * busy < slots ∧ k.gfloor.toNat < k.gear.toNat ∧ k.fitsBelow busy slots = true then k.gear - 1
  else k.gear

/-- LINK_GEAR_STEP (R374): at the end of an interval of so many flit slots a direction, of which so many carried a flit
each way, the busier direction decides; a step changes the gear, is counted and opens a retraining window. -/
def execLinkGearStep (die l sent slots received : Nat) (s : State) : Out :=
  let k := s.link die l
  let g := k.nextGear (max sent received) slots
  if k.mayOpen s.time ∧ g ≠ k.gear then
    .next (s.modLink die l fun k => { k with gear := g, steps := k.steps + 1, train := true })
  else .next s

/-- LINK_CALIBRATION (R374). -/
def execLinkCalibration (die l : Nat) (s : State) : Out :=
  if (s.link die l).mayOpen s.time then .next (s.modLink die l fun k => { k with train := true }) else .next s

/-- LINK_WINDOW_END (R374). -/
def execLinkWindowEnd (die l : Nat) (s : State) : Out :=
  if (s.link die l).train then .next (s.modLink die l fun k => { k with train := false, closed := s.time })
  else .next s

/-- FLIT_REPLAY (R375): this end requested a replay; the flits arrive in their order all the same. -/
def execFlitReplay (die l : Nat) (s : State) : Out :=
  .next (s.modEnd die l fun k => { k with replays := k.replays + 1 })

/-- The status word of a link's end (R377). -/
def Link.word (k : Link) : Word :=
  k.replays ++ k.steps ++ BitVec.ofBool k.failed ++ BitVec.ofBool k.train ++ k.gceil ++ k.gfloor ++ k.gear

/-- LINK_FULL_RETRAIN (R376): a request has had no acknowledgement for 64 µs, which the event says (log 48). The eighth failure in a row marks the link as failed and notifies firmware and host. -/
def execLinkFullRetrain (die l : Nat) (success : Bool) (s : State) : Out :=
  let k := s.link die l
  if k.failed then .next s
  else if success then .next (s.modLink die l fun k => { k with retrains := 0 })
  else if k.retrains + 1 < 8 then .next (s.modLink die l fun k => { k with retrains := k.retrains + 1 })
  else
    let s := s.modLink die l fun k => { k with retrains := 8, failed := true }
    .next (({ s with fevent := s.fevent ||| 1 } : State).send (.msix 0 4))

/-- A write of a link's status word (R377): gfloor and gceil, which a ring link has once for both its ends (log 63); on a
failed link firmware's write retrains it (R429). -/
def State.writeLink (die l : Nat) (w : Word) (s : State) : State :=
  let lo := w.extractLsb' 2 2
  let hi := w.extractLsb' 4 2
  let s := s.modLink die l fun k => { k with gfloor := lo, gceil := if hi.toNat < lo.toNat then lo else hi }
  if (s.link die l).failed then
    s.modLink die l fun k => { k with failed := false, retrains := 0, train := true }
  else s

/-! ## The droop governor -/

/-- DROOP_ALARM (R426, R364): six stretched edges begin, or begin again, and the alarm is counted. -/
def execDroopAlarm (core : Nat) (s : State) : Out :=
  .next (s.modCore core fun c =>
    Core.bump 9 1 { c with droopStretch := 6, droopHold := 0, droops := c.droops + 1 })

/-- DROOP_HOLD_END (R426): the edges that are left of a hold pass. -/
def execDroopHoldEnd (core : Nat) (s : State) : Out :=
  let hs := s.residents core
  if hs = [] then .next s
  else
    .next (s.modCore core fun c =>
      c.seeEdges (Config.lanesWork s.steps core) (Config.slipClass s.steps core) hs c.droopHold)

/-- POWER_LIMIT_CHECK (R427): the mean power of a millisecond against plimit. -/
def execPowerLimitCheck (meanMilliwatts : Nat) (s : State) : Out :=
  let w := s.plimit.toNat
  if 1000 * w < meanMilliwatts then
    .next (({ s with wmax := BitVec.ofNat 5 (max (s.wmax.toNat - 1) 1), fevent := s.fevent ||| 2 } : State).send
      (.msix 0 7))
  else if meanMilliwatts < 950 * w then .next { s with wmax := BitVec.ofNat 5 (min (s.wmax.toNat + 1) 16) }
  else .next s

end Sys2Proof.Machine
end

