-- ==== Sys2Proof/Machine/Operands.lean ====
section
/-! DEFINITION. The operands of vector instructions: type state and geometry (R102, R103), elements of register groups,
mask bits and element classes (R105, R106, R107), the limits on register fields (R37, R117, R118, R120), the drive
through element groups (R108, R110, R122, R123), and the end of a vector instruction with its ring entry (R359). -/

namespace Sys2Proof.Machine

/-! ## Type state -/

/-- The width code of R102. -/
def Ew.code (e : Ew) : BitVec 3 :=
  match e with
  | .e4 => 0
  | .e8 => 1
  | .e16 => 2
  | .e32 => 3
  | .e64 => 4

/-- The width of a code; 5 to 7 name none. -/
def ewOf (c : BitVec 3) : Option Ew :=
  if c = 0 then some .e4 else if c = 1 then some .e8 else if c = 2 then some .e16
  else if c = 3 then some .e32 else if c = 4 then some .e64 else none

/-- Bits of an element. -/
def Ew.bits (e : Ew) : Nat :=
  match e with
  | .e4 => 4
  | .e8 => 8
  | .e16 => 16
  | .e32 => 32
  | .e64 => 64

/-- The width of twice the bits. -/
def Ew.wider (e : Ew) : Option Ew :=
  match e with
  | .e4 => some .e8
  | .e8 => some .e16
  | .e16 => some .e32
  | .e32 => some .e64
  | .e64 => none

/-- Registers of a group, g = 2^lg (R102). -/
def TypeState.g (t : TypeState) : Nat := 2 ^ t.lg.toNat

/-- vtype (R102): the unset value is 0x8000. -/
def vtypeWord (t : Option TypeState) : Word :=
  match t with
  | none => 0x8000
  | some t => 0#58 ++ t.lg ++ 0#1 ++ t.ew.code

/-- A defined type of 16 bits (R86): the unset value, or a defined state. -/
def definedType (w : BitVec 16) : Option (Option TypeState) :=
  if w = 0x8000 then some none
  else if w.extractLsb' 6 10 = 0 ∧ w.getLsbD 3 = false then
    (ewOf (w.extractLsb' 0 3)).map fun e => some ⟨e, w.extractLsb' 4 2⟩
  else none

/-- VLMAX (R103). -/
def vlmax (g : Grant) (t : TypeState) : Nat := t.g * 512 * g.lanes / t.ew.bits

/-- Every vector register is unspecified after a preferred pre-emption point, until it is written (R129; log 31). -/
def Hart.loseRegisters (h : Hart) : Hart := { h with unsure := List.range 32 }

/-- The length and type step of SETVL (R127): a request is cut to VLMAX; the unset value gives length 0 (R86). -/
def Hart.setType (req : Nat) (t : Option TypeState) (h : Hart) : Hart :=
  match t with
  | none => { h with vtype := none, vl := 0, vprog := 0 }
  | some t => { h with vtype := some t, vl := BitVec.ofNat 32 (min req (vlmax h.grant t)), vprog := 0 }

/-- A pre-emption request stops the hart at a preferred point (R129, R338); none is taken in matrix mode, nor while a
freeze covers the hart (R342). -/
def preemptPoint : M Unit := do
  let s ← get
  if s.myGang.pre.isSome && s.hart.mode.isNone && !s.freezes.any fun f => freezeCovers f s.hart.core then
    onHart (Hart.stop .preferred)
    endHere

/-! ## Registers, elements, masks -/

/-- A register of zeros. -/
def zeroReg : Vector Word 256 := Vector.replicate 256 0

/-- A word of a vector register. -/
def Hart.vword (h : Hart) (r w : Nat) : Word := (h.v[r]?.getD zeroReg)[w]?.getD 0

/-- A word of a vector register written: the register is no longer unspecified (R129). -/
def Hart.setVword (r w : Nat) (x : Word) (h : Hart) : Hart :=
  { h with v := h.v.setIfInBounds r ((h.v[r]?.getD zeroReg).setIfInBounds w x), unsure := h.unsure.filter (· != r) }

/-- The low n bits of a word. -/
def lowBits (n : Nat) (w : Word) : Word := w &&& (BitVec.allOnes 64 >>> (64 - n))

/-- n bits of a word from a position. -/
def takeBits (w : Word) (at_ n : Nat) : Word := lowBits n (w >>> at_)

/-- n bits of a word replaced from a position. -/
def placeBits (w : Word) (at_ n : Nat) (x : Word) : Word :=
  (w &&& ~~~(lowBits n (BitVec.allOnes 64) <<< at_)) ||| (lowBits n x <<< at_)

/-- Bits of one vector register (R103). -/
def Hart.regBits (h : Hart) : Nat := 512 * h.grant.lanes

/-- Element i, n bits wide, of the group that starts at a register (R103). -/
def Hart.elem (h : Hart) (n r i : Nat) : Word :=
  let b := i * n
  let j := b % h.regBits
  takeBits (h.vword (r + b / h.regBits) (j / 64)) (j % 64) n

/-- Element i, n bits wide, written. -/
def Hart.setElem (n r i : Nat) (x : Word) (h : Hart) : Hart :=
  let b := i * n
  let j := b % h.regBits
  let reg := r + b / h.regBits
  h.setVword reg (j / 64) (placeBits (h.vword reg (j / 64)) (j % 64) n x)

/-- A bit of a mask register; m0 reads ones (R105). -/
def Hart.mbit (h : Hart) (k i : Nat) : Bool :=
  k == 0 || (((h.m[k]?.getD maskOnes)[i / 64]?.getD 0).getLsbD (i % 64))

/-- A bit of a mask register written; m0 is never written (R105). -/
def Hart.setMbit (k i : Nat) (b : Bool) (h : Hart) : Hart :=
  if k = 0 then h
  else
    let reg := h.m[k]?.getD maskOnes
    let w := reg[i / 64]?.getD 0
    { h with m := h.m.setIfInBounds k (reg.setIfInBounds (i / 64)
        (placeBits w (i % 64) 1 (if b then 1 else 0))) }

/-- The effective mask of element i under a mask field (R106). -/
def Hart.em (h : Hart) (f : BitVec 3) (i : Nat) : Bool := h.mbit f.toNat i && h.mbit h.mid.toNat i

/-- Element i is active (R107). -/
def Hart.active (h : Hart) (f : BitVec 3) (i : Nat) : Bool := decide (i < h.vl.toNat) && h.em f i

/-- What a destination element that is not active becomes: its own value, or zero (R107). -/
def Hart.zeroes (h : Hart) (i : Nat) : Bool :=
  if i < h.vl.toNat then h.mmode.getLsbD 0 else h.mmode.getLsbD 1

/-! ## Limits on register fields (R34 condition 4) -/

/-- Condition 6 of R34 and matrix mode's limit (R121) are checked by the callers; this is the type state. -/
def typeState : M TypeState := do
  match (← hart).vtype with
  | some t => return t
  | none => illegal

/-- A group of n registers that starts at a field: the field is a multiple of n, and the group has at most 16
registers (R37, R118). -/
def groupOk (r : BitVec 5) (n : Nat) : Bool := n != 0 && r.toNat % n == 0 && decide (n ≤ 16)

/-- Two groups share a register. -/
def overlaps (a na b nb : Nat) : Bool := decide (a < b + nb ∧ b < a + na)

/-- A mask register field (R117). -/
def maskOk (r : BitVec 5) : Bool := decide (r.toNat < 8)

/-- A mask destination field (R105, R117). -/
def maskDstOk (r : BitVec 5) : Bool := maskOk r && r != 0

/-- The mode check of R121, after the checks of R34. -/
def vectorModeOnly : M Unit := do require ((← hart).mode.isNone)

/-! ## The drive through element groups -/

/-- The register files as they stood before the oldest group whose replies a forced stop abandons, with that group. -/
structure Kept where
  group : Nat
  v : Vector (Vector Word 256) 32
  m : Vector (Vector Word 512) 8

/-- The register files to keep before group e commits: from the oldest group with an abandoned reply on, a forced stop
discards what the load wrote. -/
def Hart.keptAt (h : Hart) (e : Nat) : Option Kept :=
  match h.stopAt with
  | some ⟨_, some g⟩ => if vectorLoadWord h.word && decide (g ≤ e) then some ⟨e, h.v, h.m⟩ else none
  | _ => none

/-- vprog and the register files at a forced stop before group e: at the oldest group with an abandoned reply, whose
destinations and those of later groups are as they were, else at e (R110, R257). -/
def Hart.stoppedAt (e : Nat) (kept : Option Kept) (h : Hart) : Hart :=
  match kept with
  | none => { h with vprog := BitVec.ofNat 7 e, vprogPc := h.pc }
  | some k => { h with vprog := BitVec.ofNat 7 k.group, vprogPc := h.pc, v := k.v, m := k.m }

/-- The forced stop of the current hart inside a vector instruction before group e (R110, R339). -/
def State.stopInside (e : Nat) (kept : Option Kept) (s : State) : State :=
  let s := (s.stopSelf .forced).onHart (Hart.stoppedAt e kept)
  match kept with
  | some k => (s.bump 7 1).modCore s.hart.core (Core.uncount 2 (e - k.group))
  | none => s

/-- Sets of u element groups from group e on, a number of sets left, each committed whole by its body; a forced stop
that lets k more sets commit stops the hart with vprog at the next one, or at the oldest whose replies are abandoned
(R108, R110, R142, R339; log 16). Every group that commits is counted (R364). -/
def setsFrom (u : Nat) (body : Nat → M Unit) : Nat → Nat → Option Kept → M Unit
  | 0, e, kept => do
    if kept.isSome then
      modify (State.stopInside e kept)
      endHere
  | left + 1, e, kept => do
    let h ← hart
    let kept := kept.orElse fun _ => h.keptAt e
    match h.stopAt with
    | some ⟨0, _⟩ => do
      modify (State.stopInside e kept)
      endHere
    | some ⟨k + 1, o⟩ => onHart fun h => { h with stopAt := some ⟨k, o⟩ }
    | none => pure ()
    body e
    modify (State.bump 2 u)
    setsFrom u body left (e + u) kept

/-- The sets of a vector instruction from vprog.start on (R110, R122, R142). -/
def runSets (u count : Nat) (body : Nat → M Unit) : M Unit := do
  let start := (← hart).vprog.toNat
  setsFrom u body ((count - start) / u) start none

/-- The groups of a vector instruction from vprog.start on (R110, R122). -/
def runGroups (count : Nat) (body : Nat → M Unit) : M Unit := runSets 1 count body

/-- Elements of one element group at a width: 64 × G / width (R103). -/
def Hart.perGroup (h : Hart) (bits : Nat) : Nat := 64 * h.grant.lanes / bits

/-- The elements of group e at a width. -/
def Hart.groupElems (h : Hart) (bits e : Nat) : List Nat :=
  List.range' (e * h.perGroup bits) (h.perGroup bits)

/-- A list of elements visited in order. -/
def forElems (f : Nat → M Unit) : List Nat → M Unit
  | [] => pure ()
  | i :: t => do
    f i
    forElems f t

/-! ## The end of a vector instruction -/

/-- The ring entry of a retired vector instruction (R359), counted by events 1 (R364). -/
def State.pushRing (pop : Nat) (first last : Word) (s : State) : State :=
  let h := s.hart
  let major := h.word.extractLsb' 26 6
  let mem := decide (0x30 ≤ major.toNat ∧ major.toNat ≤ 0x35)
  let ew : BitVec 3 := match h.vtype with
    | some t => t.ew.code
    | none => 0
  (s.modCore h.core fun c =>
    let q := c.rhead + 1
    let w0 : Word := h.vl ++ 0#2 ++ major ++ BitVec.ofBool mem ++ ew ++ h.hartidx ++ q
    { c with rhead := q
             ring := (⟨h.name.gang, #v[w0, BitVec.ofNat 64 pop, first, last, h.pc]⟩ :: c.ring).take 64 }).bump 1 1

/-- The elements below vl of groups from vprog.start on that are active. -/
def Hart.popFrom (h : Hart) (act : Hart → Nat → Bool) (bits start : Nat) : Nat :=
  ((List.range h.vl.toNat).filter fun i => decide (start * h.perGroup bits ≤ i) && act h i).length

/-- A vector instruction that accessed no memory retires. -/
def retireVec (pop : Nat) : M Unit := do
  modify (State.pushRing pop 0 0)
  retire

end Sys2Proof.Machine
end

