-- ==== Sys2Proof/Machine/Control.lean ====
section
/-! DEFINITION. Branches, jumps, calls that carry vector state, gate calls, and the loop sequencer (R82 to R95). -/

namespace Sys2Proof.Machine

/-- A branch: to pc + sext(offset16) × 4 when taken, else to the next word (R29, R82). -/
def branch (taken : Hart → Bool) (o : BitVec 16) (s : State) : Out :=
  .next (s.onHart fun h => if taken h then h.retireTo (h.pc + (o.signExtend 64 <<< 2)) else h.retire)

/-- BEQ (R82). -/
def execBeq (a b : BitVec 5) (o : BitVec 16) (s : State) : Out := branch (fun h => h.rx a == h.rx b) o s

/-- BNE (R82). -/
def execBne (a b : BitVec 5) (o : BitVec 16) (s : State) : Out := branch (fun h => h.rx a != h.rx b) o s

/-- JAL (R29, R83). -/
def execJal (d : BitVec 5) (o : BitVec 21) (s : State) : Out :=
  .next (s.onHart fun h => (h.wx d (h.pc + 4)).retireTo (h.pc + (o.signExtend 64 <<< 2)))

/-- JALR (R83): the target is read before the link is written. -/
def execJalr (d a : BitVec 5) (s : State) : Out :=
  .next (s.onHart fun h => (h.wx d (h.pc + 4)).retireTo (h.rx a))

/-! ## CALL.V and RET.V -/

/-- The vector-state word (R84). -/
def Hart.vectorStateWord (h : Hart) : Word :=
  0#11 ++ h.mmode ++ h.mid ++ (vtypeWord h.vtype).setWidth 16 ++ h.vl

/-- CALL.V (R85). -/
def execCallV (a : BitVec 5) (s : State) : Out := run (do
  let h ← hart
  let sp := h.rx 2
  if sp.extractLsb' 0 4 ≠ 0 then trap 2 0x08 (sp - 16)
  else
    let p ← placeFor .store (sp - 16) 8
    watchAddress .store (sp - 16) 8
    let q ← placeFor .store (sp - 8) 8
    watchAddress .store (sp - 8) 8
    storePlace p (bytesOf 8 (h.pc + 4).toNat) 0 Hints.none .plain
    storePlace q (bytesOf 8 h.vectorStateWord.toNat) 0 Hints.none .plain
    onHart fun k => (k.wx 2 (sp - 16)).retireTo (h.rx a)) s

/-- RET.V (R86). -/
def execRetV (s : State) : Out := run (do
  preemptPoint
  let h ← hart
  let sp := h.rx 2
  if sp.extractLsb' 0 4 ≠ 0 then trap 1 0x08 sp
  else
    let r ← loadVa .load sp 8 Hints.none
    let d ← loadVa .load (sp + 8) 8 Hints.none
    let w := BitVec.ofNat 64 (natOfBytes d)
    match definedType (w.extractLsb' 32 16) with
    | none => illegal
    | some t =>
      require (w.extractLsb' 53 11 == 0)
      onHart fun k => ({ (k.loseRegisters.setType (w.extractLsb' 0 32).toNat t) with
        mid := w.extractLsb' 48 3, mmode := w.extractLsb' 51 2 }.wx 2 (sp + 16)).retireTo
          (BitVec.ofNat 64 (natOfBytes r))) s

/-! ## Gates -/

/-- GATE (R89): the entry is read at the memory die, untranslated. -/
def execGate (k : BitVec 8) (s : State) : Out := run (do
  let h ← hart
  if h.gated then trap 0 0x0D (k.setWidth 64)
  else
    let pa := h.gtbase.toNat * 4096 + 16 * k.toNat
    let s ← get
    match s.homeOf pa with
    | none => trap 1 0x09 (BitVec.ofNat 64 pa)
    | some a =>
      let (d, s') := s.readDie s.me a 16
      set s'
      if s'.poisoned a 16 then trap 1 0x0C (BitVec.ofNat 64 pa)
      else
        let e := BitVec.ofNat 128 (natOfBytes d)
        let level := e.extractLsb' 65 2
        match privOf level with
        | none => trap 0 0x0D (k.setWidth 64)
        | some p =>
          if e.getLsbD 64 = false ∨ e.extractLsb' 69 59 ≠ 0 ∨ level = 0 ∨ level < h.priv.code then
            trap 0 0x0D (k.setWidth 64)
          else
            onHart fun h => { h.retireTo (e.extractLsb' 0 64) with
              gate := ⟨h.pc + 4, h.priv.code, h.mmode⟩, priv := p, gated := true
              mmode := e.extractLsb' 67 2 }) s

/-- GRET (R90). A gate link whose level encoding is 0b10 names no level (R16): the instruction is illegal then
(log 19). -/
def execGret (s : State) : Out := run (do
  let h ← hart
  require h.gated
  match privOf h.gate.priv with
  | none => illegal
  | some p => onHart fun h => { h.retireTo h.gate.pc with priv := p, mmode := h.gate.mmode, gated := false }) s

/-! ## The loop sequencer -/

/-- LCOUNT, LSTRIDE, LFLAGS and LOOP are illegal within a body (R92, R94) and while sstat.lp is 1, at firmware
level fstat.lp also (R330, R328). -/
def sequencerFree : M Unit := do
  let h ← hart
  require (h.looping.isNone && !h.sup.stat.lp && !(h.priv == .firmware && h.fw.stat.lp))

/-- LCOUNT (R92). -/
def execLcount (a : BitVec 5) (l : BitVec 3) (s : State) : Out := run (do
  sequencerFree
  onHart fun h =>
    { h with seqr := { h.seqr with counts := h.seqr.counts.setIfInBounds l.toNat ((h.rx a).setWidth 32) } }
  retire) s

/-- LSTRIDE (R92): slot s of level l names a register and a stride. -/
def execLstride (d a : BitVec 5) (slot : BitVec 1) (l : BitVec 3) (s : State) : Out := run (do
  sequencerFree
  onHart fun h =>
    let e : StrideSlot := ⟨d, h.rx a⟩
    if slot = 0 then { h with seqr := { h.seqr with slot0 := h.seqr.slot0.setIfInBounds l.toNat e } }
    else { h with seqr := { h.seqr with slot1 := h.seqr.slot1.setIfInBounds l.toNat e } }
  retire) s

/-- LFLAGS (R92). -/
def execLflags (d a : BitVec 5) (s : State) : Out := run (do
  sequencerFree
  onHart fun h => { h with seqr := { h.seqr with first := h.rx d, last := h.rx a } }
  retire) s

/-- A body word that makes its LOOP trap (R94), found by major and function: jumps, calls, GATE, the sequencer's
own words, and the words whose entries are not allowed in a body. -/
def forbiddenInBody (w : BitVec 32) : Bool :=
  let m := (w.extractLsb' 26 6).toNat
  let f := w.extractLsb' 0 11
  decide ((0x0C ≤ m ∧ m ≤ 0x0F) ∨ m = 0x1A ∨ m = 0x1E) ||
    (m == 0x19 && (f == 0 || f == 2 || f == 3)) || (m == 0x1C && (f == 3 || f == 4))

/-- LOOP (R93): g is D − 1 and n is n − 1. It retires once, before its first body word. -/
def execLoop (g : BitVec 3) (n : BitVec 6) (s : State) : Out := run (do
  sequencerFree
  let h ← hart
  let base := h.pc + 4
  let body ← fetchBody (n.toNat + 1) base
  require (!body.any forbiddenInBody)
  let depth := g.toNat + 1
  if (List.range depth).any fun j => h.seqr.counts.toList.getD j 0 == 0 then
    onHart fun h => { h.retireTo (base + BitVec.ofNat 64 (4 * body.length)) with seqr := Sequencer.reset }
  else
    onHart fun h =>
      Hart.loopFrom 8 { h.count with seqr := { h.seqr with suspended := false } } ⟨base, body, depth, Vector.replicate 6 0, 0, false, []⟩ 0) s

end Sys2Proof.Machine
end

