-- ==== Sys2Proof/Machine/Csr.lean ====
section
/-! DEFINITION. The CSRs: what each number reads as, what a write at each level stores, and the CSR instructions (R17 to
R20, R33, R97, and the chapters that assign the numbers). -/

namespace Sys2Proof.Machine

/-! ## Words of registers -/

/-- fflags (R67). -/
def Hart.fflagsWord (h : Hart) : Word := 0#41 ++ h.flagEn ++ 0#9 ++ h.flags

/-- gangxyz (R20). -/
def gangWord (x y z : BitVec 20) : Word := 0#4 ++ z ++ y ++ x

/-- sstat and fstat (R327). -/
def TrapStat.word (t : TrapStat) : Word :=
  0#50 ++ BitVec.ofBool t.nest ++ BitVec.ofBool t.ie ++ BitVec.ofBool t.pie ++ t.pvprog ++ BitVec.ofBool t.lp ++
    BitVec.ofBool t.pgated ++ t.ppriv

/-- sstat and fstat from a word (R327). -/
def trapStatOf (w : Word) : TrapStat :=
  { ppriv := w.extractLsb' 0 2, pgated := w.getLsbD 2, lp := w.getLsbD 3, pvprog := w.extractLsb' 4 7
    pie := w.getLsbD 11, ie := w.getLsbD 12, nest := w.getLsbD 13 }

/-- mode (R154). -/
def Hart.modeWord (h : Hart) : Word :=
  match h.mode with
  | none => 0
  | some m => 0#57 ++ BitVec.ofBool m.held ++ m.pos ++ m.chn ++ (if m.flow = .rs then 1#1 else 0#1) ++ 1#1

/-- xlat (R229). -/
def Xlat.word (x : Xlat) : Word := 0#16 ++ x.root ++ x.asid ++ 0#3 ++ BitVec.ofBool x.en
def xlatOf (w : Word) : Xlat := ⟨w.getLsbD 0, w.extractLsb' 4 12, w.extractLsb' 16 32⟩

/-- The engine is performing the operation at the head of a queue (R289): it has begun to move data, or to walk. -/
def EngineQueue.busy (q : EngineQueue) : Bool :=
  match q.ops.head? with
  | none => false
  | some o => o.run.isSome || match o.work with
    | .chain _ started _ _ => started
    | _ => false

/-- qstat_q (R289): depth, busy, the held fault. -/
def EngineQueue.statWord (q : EngineQueue) : Word :=
  q.faultSeq ++ q.code ++ 0#1 ++ BitVec.ofBool q.fault ++ BitVec.ofBool q.busy ++ BitVec.ofNat 5 q.ops.length

/-- dctl (R350). -/
def DebugRegs.ctlWord (d : DebugRegs) : Word :=
  0#58 ++ d.scope ++ BitVec.ofBool d.tmode ++ BitVec.ofBool d.tren ++ BitVec.ofBool d.step ++ BitVec.ofBool d.ebk

/-- sstat_k: the state of a stream slot (R319). -/
def streamWord (t : Option Stream) : Word :=
  match t with
  | none => 0
  | some t =>
    0#14 ++ BitVec.ofBool t.frz ++ BitVec.ofInt 17 t.integ ++ t.ch ++ t.ph ++ 1#1 ++ BitVec.ofNat 23 t.buf.length

/-- The slot whose stream has an end at a port of a hart, and whether it is the producer end (R306). -/
def Gang.portOf (g : Gang) (idx port : Nat) : Option (Nat × Bool) :=
  (List.range 16).findSome? fun k =>
    match g.streams.toList.getD k none with
    | none => none
    | some t =>
      if t.ph.toNat = idx ∧ t.pp.toNat = port then some (k, true)
      else if t.ch.toNat = idx ∧ t.cp.toNat = port then some (k, false)
      else none

/-- sqbind (R319). -/
def bindWord (g : Gang) (idx : Nat) : Word :=
  (List.range 16).foldl (fun w p =>
    match g.portOf idx p with
    | some (_, prod) => w ||| (1#64 <<< p) ||| (if prod then 1#64 <<< (16 + p) else 0)
    | none => w) 0

/-- sqid (R319). -/
def portIdWord (g : Gang) (idx : Nat) : Word :=
  (List.range 16).foldl (fun w p =>
    match g.portOf idx p with
    | some (k, _) => w ||| (BitVec.ofNat 64 k <<< (4 * p))
    | none => w) 0

/-- The floor and the ceiling of a hart's weight (R310). -/
def Gang.floorOf (g : Gang) (idx : Nat) : Nat :=
  g.streams.toList.foldl (fun m t =>
    match t with
    | some t => if t.ph.toNat = idx ∨ t.ch.toNat = idx then max m t.wf else m
    | none => m) 1
def Gang.ceilingOf (g : Gang) (idx : Nat) : Nat :=
  g.streams.toList.foldl (fun m t =>
    match t with
    | some t => if t.ph.toNat = idx ∨ t.ch.toNat = idx then min m t.wc else m
    | none => m) 16

/-- A weight accumulator within a hart's limits (R310). -/
def Gang.clampWq (g : Gang) (idx : Nat) (wq : Int) : BitVec 13 :=
  BitVec.ofInt 13 (min (max wq (256 * g.floorOf idx)) (256 * g.ceilingOf idx))

/-! ## Reading -/

/-- The word of a CSR in 0x000 to 0x1FF. -/
def csrHart (h : Hart) (s : State) (n : Nat) : Option Word :=
  match n with
  | 0x000 => some h.hstat
  | 0x001 => some h.fflagsWord
  | 0x002 => some (h.srgen.setWidth 64)
  | 0x020 => some s.time
  | 0x021 => some (s.core h.core).cycle
  | 0x022 => some h.instret
  | 0x030 => some (h.hartidx.setWidth 64)
  | 0x031 => some (h.stage.setWidth 64)
  | 0x032 => some (gangWord h.gx h.gy h.gz)
  | 0x033 => some ((capmask h.cluster).setWidth 64)
  | 0x100 => some (h.vl.setWidth 64)
  | 0x101 => some (vtypeWord h.vtype)
  | 0x102 => some (BitVec.ofNat 64 h.grant.lanes)
  | 0x103 => some (h.vprog.setWidth 64)
  | 0x104 => some (0#59 ++ h.mmode ++ h.mid)
  | 0x105 => some (0#32 ++ BitVec.ofNat 16 (64 * h.grant.lanes) ++ BitVec.ofNat 16 h.dq.length)
  | 0x106 => some (BitVec.ofNat 64 (64 * h.grant.lanes))
  | 0x110 => some (0#35 ++ h.tile.k ++ 0#2 ++ h.tile.n ++ h.tile.m)
  | 0x111 => some h.modeWord
  | 0x112 => some ((s.core h.core).mrow.setWidth 64)
  | 0x113 => some (0#56 ++ h.mchain.head ++ h.mchain.pos ++ h.mchain.len)
  | _ => if 0x010 ≤ n ∧ n < 0x018 then some ((h.fm.toList.getD (n - 0x010) 0).setWidth 64) else none

/-- The word of a CSR in 0x200 to 0x2FF. -/
def csrMemory (h : Hart) (s : State) (n : Nat) : Option Word :=
  match n with
  | 0x200 => some (0#33 ++ h.moff ++ 0#14 ++ h.msc)
  | 0x201 => some (h.rcount.setWidth 64)
  | 0x210 => some h.xlat.word
  | 0x218 => some (s.msplit.setWidth 64)
  | 0x219 => some s.cpool
  | 0x2C0 => some s.hbeat
  | _ =>
    if 0x220 ≤ n ∧ n < 0x228 then some ((s.die (n - 0x220)).cpfree.setWidth 64)
    else if 0x228 ≤ n ∧ n < 0x230 then some ((s.die (n - 0x228)).cplow.setWidth 64)
    else if 0x240 ≤ n ∧ n < 0x2B8 then
      some ((h.tm.toList.getD ((n - 0x240) / 8) tensorMapReset).toList.getD ((n - 0x240) % 8) 0)
    else none

/-- The word of a CSR in 0x300 to 0x3FF. -/
def csrEngine (h : Hart) (s : State) (n : Nat) : Option Word :=
  let q (k : Nat) : EngineQueue := h.eq.toList.getD k EngineQueue.reset
  let g := s.gang h.name.gang
  if 0x300 ≤ n ∧ n < 0x304 then some (q (n - 0x300)).cstamp
  else if 0x308 ≤ n ∧ n < 0x30C then some ((q (n - 0x308)).cseq.setWidth 64)
  else if 0x310 ≤ n ∧ n < 0x314 then some (q (n - 0x310)).statWord
  else if 0x318 ≤ n ∧ n < 0x31C then some (q (n - 0x318)).qfadr
  else if n = 0x340 then some (g.bctlU.setWidth 64)
  else if n = 0x341 then some (0#43 ++ BitVec.ofNat 5 (h.wq.toNat / 256) ++ 0#3 ++ h.wq)
  else if 0x350 ≤ n ∧ n < 0x360 then some (streamWord (g.streams.toList.getD (n - 0x350) none))
  else if n = 0x360 then some (bindWord g h.name.idx)
  else if n = 0x361 then some (portIdWord g h.name.idx)
  else none

/-- The word of a CSR in 0x400 to 0x4FF. -/
def csrDebug (h : Hart) (s : State) (n : Nat) : Option Word :=
  let k := s.core h.core
  let c := s.cluster h.cluster
  match n with
  | 0x400 => some h.dbg.ctlWord
  | 0x401 => some h.dbg.dpc
  | 0x402 => some h.dcause
  | 0x420 => some (k.rhead.setWidth 64)
  | 0x430 => some (0#8 ++ c.traceDrop ++ BitVec.ofNat 8 c.trace.length)
  | _ =>
    if 0x404 ≤ n ∧ n < 0x408 then some (h.dbg.dbp.toList.getD (n - 0x404) 0)
    else if 0x408 ≤ n ∧ n < 0x410 then
      if n % 2 = 0 then some (h.dbg.dwa.toList.getD ((n - 0x408) / 2) 0)
      else some ((h.dbg.dwc.toList.getD ((n - 0x408) / 2) 0).setWidth 64)
    else if 0x410 ≤ n ∧ n < 0x418 then
      if n % 2 = 0 then some (c.dta.toList.getD ((n - 0x410) / 2) 0)
      else some ((c.dtc.toList.getD ((n - 0x410) / 2) 0).setWidth 64)
    else if 0x440 ≤ n ∧ n < 0x446 then some ((k.slip.toList.getD (n - 0x440) 0).setWidth 64)
    else if 0x450 ≤ n ∧ n < 0x458 then some ((k.hpmevt.toList.getD (n - 0x450) 0).setWidth 64)
    else if 0x458 ≤ n ∧ n < 0x460 then some ((k.hpmctr.toList.getD (n - 0x458) 0).setWidth 64)
    else if 0x460 ≤ n ∧ n < 0x468 then some ((s.die (n - 0x460)).rcovf.setWidth 64)
    else if 0x468 ≤ n ∧ n < 0x470 then some ((s.die (n - 0x468)).rcund.setWidth 64)
    else none

/-- sint (R327). -/
def State.sintWord (s : State) (h : Hart) : Word :=
  0#53 ++ BitVec.ofBool (h.sevent != 0) ++ BitVec.ofBool h.swp ++ BitVec.ofBool (h.stimecmp.toNat ≤ s.time.toNat) ++
    0#5 ++ BitVec.ofBool h.eve ++ BitVec.ofBool h.swe ++ BitVec.ofBool h.tie

/-- spend (R327): a request that waits for save room is not delivered (R397). -/
def State.spendWord (s : State) (h : Hart) : Word :=
  match (s.gang h.name.gang).pre with
  | some r => 0#62 ++ BitVec.ofBool (s.graceOver h r) ++ 1#1
  | none => 0

/-- The word of a supervisor CSR (R326, R327). -/
def csrSupervisor (h : Hart) (s : State) (n : Nat) : Option Word :=
  match n with
  | 0x800 => some (h.trapvec ++ 0#2)
  | 0x801 => some (h.abandon.setWidth 64)
  | 0x802 => some (h.grace.setWidth 64)
  | 0x803 => some (h.gtbase ++ 0#12)
  | 0x804 => some h.sup.cause
  | 0x805 => some h.sup.epc
  | 0x806 => some h.sup.tval
  | 0x807 => some h.sup.stat.word
  | 0x808 => some h.sscratch
  | 0x809 => some (s.sintWord h)
  | 0x80A => some (h.sevent.setWidth 64)
  | 0x80B => some h.stimecmp
  | 0x80C => some h.gate.pc
  | 0x80D => some (0#60 ++ h.gate.mmode ++ h.gate.priv)
  | 0x80E => some (s.spendWord h)
  | _ => none

/-- The word of a firmware CSR (R425). The chapter assigns 0xC00 to 0xC0C and lists nothing at 0xC06 and 0xC07: they
are taken as unassigned (log 52). -/
def csrFirmware (h : Hart) (s : State) (n : Nat) : Option Word :=
  match n with
  | 0xC00 => some (h.fvec ++ 0#2)
  | 0xC01 => some h.fw.cause
  | 0xC02 => some h.fw.epc
  | 0xC03 => some h.fw.tval
  | 0xC04 => some h.fw.stat.word
  | 0xC05 => some (s.fevent.setWidth 64)
  | 0xC08 => some (0#58 ++ BitVec.ofBool ((s.core h.core).droopHold != 0) ++ s.wmax)
  | 0xC09 => some ((s.core h.core).droops.setWidth 64)
  | 0xC0A => some (s.plimit.setWidth 64)
  | 0xC0B => some (s.mclogBase ++ 0#4 ++ s.mclogUnits)
  | 0xC0C => some s.bootdesc
  | _ => none

/-- The word of a CSR of a hart; none for a number that no chapter assigns (R18). -/
def csrRead (h : Hart) (s : State) (c : BitVec 12) : Option Word :=
  let n := c.toNat
  if n < 0x200 then csrHart h s n
  else if n < 0x300 then csrMemory h s n
  else if n < 0x400 then csrEngine h s n
  else if n < 0x500 then csrDebug h s n
  else if n < 0x800 then none
  else if n < 0xC00 then csrSupervisor h s n
  else csrFirmware h s n

/-! ## Writing -/

/-- A write to a user-level hart CSR (R19, R20, R61, R65, R67, R106, R378, R229). -/
def csrWriteHart (n : Nat) (w : Word) (h : Hart) : Hart :=
  match n with
  | 0x001 => { h with flags := w.extractLsb' 0 7, flagEn := w.extractLsb' 16 7 }
  | 0x002 => { h with srgen := if w.extractLsb' 0 32 = 0 then 1 else w.extractLsb' 0 32 }
  | 0x104 => { h with mid := w.extractLsb' 0 3, mmode := w.extractLsb' 3 2 }
  | 0x200 => { h with msc := w.extractLsb' 0 2, moff := w.extractLsb' 16 15 }
  | 0x201 => { h with rcount := w.extractLsb' 0 6 }
  | _ => if 0x010 ≤ n ∧ n < 0x018 then { h with fm := h.fm.setIfInBounds (n - 0x010) (w.extractLsb' 0 24) } else h

/-- The writable bits of a word of a tensor-map slot (R241). -/
def tensorMapMask (word : Nat) : Word :=
  match word with
  | 1 => 0xFFFFFFFF0000000F#64
  | 3 | 7 => 0x00000000FFFFFFFF#64
  | _ => BitVec.allOnes 64

/-- A watchpoint control's length field: a write above 16 stores 16 (R350). -/
def clampLen (w : BitVec 8) : BitVec 8 := if (w.extractLsb' 3 5).toNat ≤ 16 then w else 16#5 ++ w.extractLsb' 0 3

/-- dctl as a write leaves it (R350). -/
def DebugRegs.writeCtl (w : Word) (d : DebugRegs) : DebugRegs :=
  { d with ebk := w.getLsbD 0, step := w.getLsbD 1, tren := w.getLsbD 2, tmode := w.getLsbD 3
           scope := if w.extractLsb' 4 2 = 3 then 0 else w.extractLsb' 4 2 }

/-- A write to a debug CSR that supervisor writes (R349, R350); the gang of the writer is noted with dta. -/
def csrWriteDebug (n : Nat) (w : Word) (s : State) : State :=
  let h := s.hart
  let onDbg (f : DebugRegs → DebugRegs) : State := s.onHart fun h => { h with dbg := f h.dbg }
  if n = 0x400 then onDbg (DebugRegs.writeCtl w)
  else if n = 0x401 then onDbg fun d => { d with dpc := w }
  else if 0x404 ≤ n ∧ n < 0x408 then onDbg fun d => { d with dbp := d.dbp.setIfInBounds (n - 0x404) (w &&& ~~~2#64) }
  else if 0x408 ≤ n ∧ n < 0x410 then
    if n % 2 = 0 then onDbg fun d => { d with dwa := d.dwa.setIfInBounds ((n - 0x408) / 2) w }
    else onDbg fun d => { d with dwc := d.dwc.setIfInBounds ((n - 0x408) / 2) (clampLen (w.extractLsb' 0 8)) }
  else if 0x410 ≤ n ∧ n < 0x418 then
    let u := (n - 0x410) / 2
    if n % 2 = 0 then
      s.modCluster h.cluster fun c =>
        { c with dta := c.dta.setIfInBounds u w, dtGang := c.dtGang.setIfInBounds u h.name.gang }
    else
      let scope : BitVec 2 := if w.extractLsb' 9 2 = 3 then 0 else w.extractLsb' 9 2
      s.modCluster h.cluster fun c =>
        { c with dtc := c.dtc.setIfInBounds u (scope ++ w.extractLsb' 8 1 ++ clampLen (w.extractLsb' 0 8)) }
  else if 0x440 ≤ n ∧ n < 0x446 then
    s.modCore h.core fun k => { k with slip := k.slip.setIfInBounds (n - 0x440) (w.extractLsb' 0 48) }
  else if 0x450 ≤ n ∧ n < 0x458 then
    s.modCore h.core fun k => { k with hpmevt := k.hpmevt.setIfInBounds (n - 0x450) (w.extractLsb' 0 8) }
  else if 0x458 ≤ n ∧ n < 0x460 then
    s.modCore h.core fun k => { k with hpmctr := k.hpmctr.setIfInBounds (n - 0x458) (w.extractLsb' 0 48) }
  else if 0x460 ≤ n ∧ n < 0x468 then s.modDie (n - 0x460) fun d => { d with rcovf := w.extractLsb' 0 48 }
  else if 0x468 ≤ n ∧ n < 0x470 then s.modDie (n - 0x468) fun d => { d with rcund := w.extractLsb' 0 48 }
  else s

/-- A write to xlat discards every translation the hart holds (R229, R231). -/
def Hart.writeXlat (w : Word) (h : Hart) : Hart := { h with xlat := xlatOf w, tlb := [] }

/-- A status word that software writes: its vprog field belongs to no trap of this bank any more (R110; log 13). -/
def TrapBank.writeStat (w : Word) (b : TrapBank) : TrapBank := { b with stat := trapStatOf w, vpc := none }

/-- A write to a supervisor CSR (R327). -/
def csrWriteSupervisor (n : Nat) (w : Word) (h : Hart) : Hart :=
  match n with
  | 0x800 => { h with trapvec := w.extractLsb' 2 62 }
  | 0x801 => { h with abandon := if (w.extractLsb' 0 16).toNat < 64 then 64 else w.extractLsb' 0 16 }
  | 0x802 => { h with grace := w.extractLsb' 0 32 }
  | 0x803 => { h with gtbase := w.extractLsb' 12 52 }
  | 0x804 => { h with sup := { h.sup with cause := w &&& 0x8000000000000FFF#64 } }
  | 0x805 => { h with sup := { h.sup with epc := w } }
  | 0x806 => { h with sup := { h.sup with tval := w } }
  | 0x807 => { h with sup := h.sup.writeStat w }
  | 0x808 => { h with sscratch := w }
  | 0x809 => { h with tie := w.getLsbD 0, swe := w.getLsbD 1, eve := w.getLsbD 2, swp := h.swp && !w.getLsbD 9 }
  | 0x80A => { h with sevent := h.sevent &&& ~~~(w.extractLsb' 0 9) }
  | 0x80B => { h with stimecmp := w }
  | 0x80C => { h with gate := { h.gate with pc := w } }
  | 0x80D => { h with gate := { h.gate with priv := w.extractLsb' 0 2, mmode := w.extractLsb' 2 2 } }
  | _ => h

/-- A sector pool field: 49 to 255 store 48 (R229). -/
def clampPools (w : Word) : Word :=
  (List.range 8).foldl (fun a k =>
    let c := (w >>> (8 * k)).toNat % 256
    a ||| (BitVec.ofNat 64 (min c 48) <<< (8 * k))) 0

/-- A slice field above 12 stores 12 (R229 gives 0 to 12; log 20). -/
def clampSplits (w : BitVec 32) : BitVec 32 :=
  (List.range 8).foldl (fun a k =>
    let c := (w >>> (4 * k)).toNat % 16
    a ||| (BitVec.ofNat 32 (min c 12) <<< (4 * k))) 0

/-- A flash whose configuration block firmware has rewritten from a byte on (R229, R428). -/
def Flash.rewrite (at_ : Nat) (w : Word) (f : Flash) : Flash :=
  { f with block := f.block.take at_ ++ bytesOf 8 w.toNat ++ f.block.drop (at_ + 8), rewritten := true }

/-- A firmware write of msplit or cpool: the configuration block for the next reset, msplit in its first word and cpool in
its second (R229, R428; log 12). -/
def State.writeConfig (pool : Bool) (w : Word) (s : State) : State :=
  if pool then { s with nextCpool := clampPools w, flash := s.flash.rewrite 8 (clampPools w) }
  else
    let v := clampSplits (w.extractLsb' 0 32)
    { s with nextMsplit := v, flash := s.flash.rewrite 0 (v.setWidth 64) }

/-- A write to a firmware CSR (R425). -/
def csrWriteFirmware (n : Nat) (w : Word) (s : State) : State :=
  match n with
  | 0xC00 => s.onHart fun h => { h with fvec := w.extractLsb' 2 62 }
  | 0xC01 => s.onHart fun h => { h with fw := { h.fw with cause := w &&& 0x8000000000000FFF#64 } }
  | 0xC02 => s.onHart fun h => { h with fw := { h.fw with epc := w } }
  | 0xC03 => s.onHart fun h => { h with fw := { h.fw with tval := w } }
  | 0xC04 => s.onHart fun h => { h with fw := h.fw.writeStat w }
  | 0xC05 => { s with fevent := s.fevent &&& ~~~(w.extractLsb' 0 2) }
  | 0xC0A =>
    let v := (w.extractLsb' 0 11).toNat
    { s with plimit := BitVec.ofNat 11 (min (max v 400) 1950) }
  | 0xC0B =>
    { s with mclogUnits := if w.extractLsb' 0 8 = 0 then 1 else w.extractLsb' 0 8, mclogBase := w.extractLsb' 12 52 }
  | _ => s

/-- A write to an engine or stream CSR (R289, R319). -/
def csrWriteEngine (sup : Bool) (n : Nat) (w : Word) (s : State) : State :=
  if 0x300 ≤ n ∧ n < 0x304 then
    s.onHart fun h =>
      let q := h.eq.toList.getD (n - 0x300) EngineQueue.reset
      { h with eq := h.eq.setIfInBounds (n - 0x300) { q with cstamp := w } }
  else if !sup then s
  else if n = 0x340 then s.modGang s.hart.name.gang fun g => { g with bctlU := w.extractLsb' 0 2 }
  else if n = 0x341 then
    s.onHart fun h => { h with wq := s.myGang.clampWq h.name.idx (Int.ofNat (w.extractLsb' 0 13).toNat) }
  else s

/-- A write to a CSR at a level; a field that is read-only at the level keeps its value (R17, R19). -/
def csrWrite (p : Priv) (c : BitVec 12) (w : Word) (s : State) : State :=
  let n := c.toNat
  let sup := p != .user
  if n < 0x200 then
    if n = 0x022 then if sup then s.onHart fun h => { h with instret := w } else s
    else s.onHart (csrWriteHart n w)
  else if n < 0x300 then
    if n = 0x210 then if sup then s.onHart (Hart.writeXlat w) else s
    else if n = 0x218 then if p = .firmware then s.writeConfig false w else s
    else if n = 0x219 then if p = .firmware then s.writeConfig true w else s
    else if 0x228 ≤ n ∧ n < 0x230 then
      if sup then (s.modDie (n - 0x228) fun d => { d with cplow := w.extractLsb' 0 32 }).lowWater (n - 0x228) else s
    else if 0x240 ≤ n ∧ n < 0x2B8 then
      s.onHart fun h =>
        let slot := (h.tm.toList.getD ((n - 0x240) / 8) tensorMapReset).setIfInBounds ((n - 0x240) % 8)
          (w &&& tensorMapMask ((n - 0x240) % 8))
        { h with tm := h.tm.setIfInBounds ((n - 0x240) / 8) slot }
    else s.onHart (csrWriteHart n w)
  else if n < 0x400 then csrWriteEngine sup n w s
  else if n < 0x500 then if sup then csrWriteDebug n w s else s
  else if n < 0x800 then s
  else if n < 0xC00 then
    s.onHart (csrWriteSupervisor n w)
  else csrWriteFirmware n w s

/-! ## The instructions (R33, R97) -/

/-- The lowest level of a CSR number (R17). -/
def csrLevel (c : BitVec 12) : Priv :=
  if c.extractLsb' 10 2 = 3 then .firmware else if c.extractLsb' 10 2 = 2 then .supervisor else .user

/-- A CSR instruction: the checks of R17, the old value to x[A], the write if there is one. A write of instret
stands as written: its instruction is not counted (R23). -/
def csrAccess (d : BitVec 5) (c : BitVec 12) (write : Option (Hart → Word → Word)) (s : State) : Out := run (do
  let s ← get
  match csrRead s.hart s c with
  | none => illegal
  | some old =>
    requirePriv (csrLevel c)
    match write with
    | none => pure ()
    | some f => modify (csrWrite s.hart.priv c (f s.hart old))
    onHart (Hart.wx d old)
    retire
    if c = 0x022 ∧ write.isSome ∧ s.hart.priv ≠ .user then
      onHart fun h => { h with instret := h.instret - 1 }) s

/-- CSRRW (R33). -/
def execCsrrw (d a : BitVec 5) (c : BitVec 12) (s : State) : Out := csrAccess d c (some fun h _ => h.rx a) s

/-- CSRRS (R33): no write with B = 0. -/
def execCsrrs (d a : BitVec 5) (c : BitVec 12) (s : State) : Out :=
  csrAccess d c (if a = 0 then none else some fun h old => old ||| h.rx a) s

/-- CSRRC (R33): no write with B = 0. -/
def execCsrrc (d a : BitVec 5) (c : BitVec 12) (s : State) : Out :=
  csrAccess d c (if a = 0 then none else some fun h old => old &&& ~~~(h.rx a)) s

/-- CSRR (R33). -/
def execCsrr (d : BitVec 5) (c : BitVec 12) (s : State) : Out := csrAccess d c none s

end Sys2Proof.Machine
end

