-- ==== Sys2Proof/Machine/Debug.lean ====
section
/-! DEFINITION. EBREAK, RRING and TMARK (R351, R360, R362). -/

namespace Sys2Proof.Machine

/-- EBREAK (R351): with dctl.ebk it retires and the hart stops after it with cause 4. -/
def execEbreak (s : State) : Out := run (do
  require (← hart).dbg.ebk
  retire
  modify (State.ownStop 4 0)) s

/-- The word that RRING returns (R360). -/
def State.ringWord (s : State) (seq : BitVec 16) (k : Nat) : Word :=
  match (s.core s.hart.core).ring.find? fun e => (e.words[0]).extractLsb' 0 16 == seq with
  | none => BitVec.allOnes 64
  | some e => if e.gang = s.hart.name.gang then e.words.toList.getD k 0 else 0

/-- RRING (R360). -/
def execRring (d a k : BitVec 5) (s : State) : Out := run (do
  require (decide (k.toNat ≤ 4))
  let s ← get
  onHart (Hart.wx d (s.ringWord ((s.hart.rx a).setWidth 16) k.toNat))
  retire) s

/-- TMARK (R362). -/
def execTmark (a : BitVec 5) (s : State) : Out := run (do
  modify fun s => s.trace 4 0 (s.hart.rx a) s.hart.pc 0
  retire) s

end Sys2Proof.Machine
end

