-- ==== Sys2Proof/Machine/Streams.lean ====
section
/-! DEFINITION. Streams: the stream table, SOPEN, SCLOSE, SAVAIL, the stream-port forms of VLD and VST, and the
Bridle update (R306 to R319). -/

namespace Sys2Proof.Machine

/-! ## The stream table -/

/-- An open stream of a slot. -/
def Gang.stream (g : Gang) (k : Nat) : Option Stream := g.streams.toList.getD k none

/-- The open streams. -/
def Gang.openStreams (g : Gang) : List Stream := g.streams.toList.filterMap id

/-- Capacity in bytes and occupancy (R306). -/
def Stream.size (t : Stream) : Nat := 256 * t.cap
def Stream.occ (t : Stream) : Nat := t.buf.length

/-- A stream ends at a hart. -/
def Stream.endsAt (t : Stream) (idx : Nat) : Bool := t.ph.toNat == idx || t.ch.toNat == idx

/-- The stream that a set-up record of 64 bytes describes, and whether its reserved bits are clear (R308). -/
def streamOf (d : List Byte) : Stream × Bool :=
  let r := BitVec.ofNat 512 (natOfBytes d)
  let f (lo n : Nat) : Nat := (r.extractLsb' lo n).toNat
  ({ ph := r.extractLsb' 0 4, pp := r.extractLsb' 4 4, ch := r.extractLsb' 8 4, cp := r.extractLsb' 12 4
     boff := f 16 14, cap := f 32 14, mx := f 48 16, spt := f 64 8, kp := f 72 8, ki := f 80 8, icl := f 88 16
     wf := f 104 4 + 1, wc := f 108 4 + 1, buf := [], integ := 0, frz := false },
   f 30 2 == 0 && f 46 2 == 0 && f 112 400 == 0)

/-! ## The stability rules (R313) -/

/-- Rows Shape, Buffer, Ports of R313. -/
def Gang.shapeOk (g : Gang) (t : Stream) (clear : Bool) : Bool :=
  t.ph != t.ch && decide (t.ph.toNat < g.w * g.stages) && decide (t.ch.toNat < g.w * g.stages) && clear &&
    decide (1 ≤ t.spt) && decide (1 ≤ t.cap) && decide (1 ≤ t.mx ∧ t.mx ≤ 16384) && decide (t.mx ≤ t.size) &&
    decide (t.wf ≤ t.wc)
def Gang.bufferOk (g : Gang) (t : Stream) : Bool :=
  decide (256 * (t.boff + t.cap) ≤ g.scr * 4096) &&
    g.openStreams.all fun u => decide (t.boff + t.cap ≤ u.boff ∨ u.boff + u.cap ≤ t.boff)
def Gang.portsFree (g : Gang) (t : Stream) : Bool :=
  (g.portOf t.ph.toNat t.pp.toNat).isNone && (g.portOf t.ch.toNat t.cp.toNat).isNone

/-- Row Proportional: for each hart, the sum of kp over its streams. -/
def proportionalOk (all : List Stream) : Bool :=
  (List.range 16).all fun h =>
    decide (((all.filter fun t => t.endsAt h).foldl (fun n t => n + t.kp) 0) ≤ 256)

/-- Row Integral, for the new stream. -/
def integralOk (t : Stream) : Bool := decide (8 * t.ki ≤ t.kp ∧ t.ki * t.icl ≤ 65536)

/-- The harts that a set of harts reaches in n edges of the coupling graph or fewer. -/
def reaches (all : List Stream) : Nat → List Nat → List Nat
  | 0, r => r
  | n + 1, r =>
    reaches all n ((r ++ (all.filter fun t => r.contains t.ph.toNat).map fun t => t.ch.toNat).eraseDups)

/-- Row Cycles: a stream lies on a directed cycle when its consumer reaches its producer. -/
def cyclesOk (all : List Stream) : Bool :=
  all.all fun t =>
    !(reaches all 16 [t.ch.toNat]).contains t.ph.toNat || decide (4 * t.mx ≤ t.size)

/-- Row Weights: for each hart, floor and ceiling over its streams. -/
def weightsOk (all : List Stream) : Bool :=
  (List.range 16).all fun h =>
    let mine := all.filter fun t => t.endsAt h
    decide ((mine.foldl (fun m t => max m t.wf) 1) ≤ (mine.foldl (fun m t => min m t.wc) 16))

/-- The status of R313, 0 when every row holds. -/
def Gang.openStatus (g : Gang) (t : Stream) (clear : Bool) : Nat :=
  let all := g.openStreams ++ [t]
  if !g.shapeOk t clear then 2
  else if !g.bufferOk t then 9
  else if !g.portsFree t then 3
  else if !proportionalOk all then 5
  else if !integralOk t then 6
  else if !cyclesOk all then 7
  else if !weightsOk all then 8
  else 0

/-! ## SOPEN, SCLOSE, SAVAIL (R314) -/

/-- The lowest free slot. -/
def Gang.freeSlot (g : Gang) : Option Nat := (List.range 16).find? fun k => (g.stream k).isNone

/-- The weights of an end hart at an opening (R314): w where it had no stream, then within its new limits. -/
def State.startWeight (key idx : Nat) (first : Bool) (s : State) : State :=
  let g := s.gang key
  s.modHart ⟨key, idx⟩ fun h =>
    let wq := if first then 256 * (h.wq.toNat / 256) else h.wq.toNat
    { h with wq := g.clampWq idx (Int.ofNat wq) }

/-- A stream is opened in a slot. -/
def State.openStream (key k : Nat) (t : Stream) (s : State) : State :=
  let g := s.gang key
  let first (idx : Nat) : Bool := g.openStreams.all fun u => !u.endsAt idx
  let s := s.modGang key fun g => { g with streams := g.streams.setIfInBounds k (some t) }
  (s.startWeight key t.ph.toNat (first t.ph.toNat)).startWeight key t.ch.toNat (first t.ch.toNat)

/-- SOPEN (R314). -/
def execSopen (d a : BitVec 5) (s : State) : Out := run (do
  let r := (← hart).rx a
  let result (w : Nat) : M Unit := onHart fun h => (h.wx d (BitVec.ofNat 64 w)).retire
  if r.extractLsb' 0 6 ≠ 0 then result 2
  else
    let data ← loadVa .load r 64 Hints.none
    let (t, clear) := streamOf data
    let g := (← get).myGang
    match g.freeSlot with
    | none => result 1
    | some k =>
      let st := g.openStatus t clear
      if st ≠ 0 then result st
      else
        modify (State.openStream g.key k t)
        result (256 * k)) s

/-- A stream closes (R314): its bytes become unspecified, and the harts whose port instruction is at it find it
broken. -/
def State.closeStream (key k : Nat) (t : Stream) (s : State) : State :=
  let lo := 256 * t.boff
  (s.modGang key fun g =>
    { g with
      streams := g.streams.setIfInBounds k none
      scratch := g.scratch.filter fun c => !decide (lo ≤ c.1 ∧ c.1 < lo + t.size) }).mapHarts fun h =>
    if h.name.gang = key ∧ (h.wait = some (.port k) ∨ h.wait = some (.flowing k)) then { h with wait := some .broken }
    else h

/-- SCLOSE (R314). -/
def execSclose (d a : BitVec 5) (s : State) : Out := run (do
  let s ← get
  let k := (s.hart.rx a).toNat % 16
  match s.myGang.stream k with
  | none => onHart fun h => (h.wx d (BitVec.allOnes 64)).retire
  | some t =>
    modify (State.closeStream s.hart.name.gang k t)
    onHart fun h => (h.wx d (BitVec.ofNat 64 t.occ)).retire) s

/-- What SAVAIL returns (R314). -/
def Gang.available (g : Gang) (idx port : Nat) : Word :=
  match g.portOf idx port with
  | none => BitVec.allOnes 64
  | some (k, producer) =>
    match g.stream k with
    | none => BitVec.allOnes 64
    | some t => BitVec.ofNat 64 (if producer then t.size - t.occ else t.occ)

/-- SAVAIL (R314). -/
def execSavail (d p : BitVec 5) (s : State) : Out := run (do
  require (decide (p.toNat < 16))
  let s ← get
  onHart fun h => (h.wx d (s.myGang.available h.name.idx p.toNat)).retire) s

/-! ## The stream-port forms (R315) -/

/-- The bytes of elements 0 to n − 1 of a group, packed as in memory (R48, R253); the spare half of a last byte is
unspecified. -/
def Hart.packElems (h : Hart) (spare : Nat → Byte) (ew : Ew) (r n : Nat) : List Byte :=
  if ew = .e4 then
    (List.range ((n + 1) / 2)).map fun j =>
      let hi : Word := if 2 * j + 1 < n then h.elem 4 r (2 * j + 1) else (spare j).setWidth 64
      BitVec.ofNat 8 ((h.elem 4 r (2 * j)).toNat + 16 * (hi.toNat % 16))
  else (List.range n).flatMap fun i => bytesOf (ew.bits / 8) (h.elem ew.bits r i).toNat

/-- Element i of packed bytes. -/
def unpackElem (ew : Ew) (d : List Byte) (i : Nat) : Word :=
  if ew = .e4 then BitVec.ofNat 64 ((d.getD (i / 2) 0).toNat / (if i % 2 = 0 then 1 else 16) % 16)
  else BitVec.ofNat 64 (natOfBytes ((d.drop (i * (ew.bits / 8))).take (ew.bits / 8)))

/-- The other end of a stream has exited. -/
def Gang.otherGone (g : Gang) (t : Stream) (producer : Bool) : Bool :=
  g.exited.contains (if producer then t.ch.toNat else t.ph.toNat)

/-- n bytes can move at an end of a stream (R315). -/
def Stream.canMove (t : Stream) (producer : Bool) (n : Nat) : Bool :=
  if producer then decide (t.occ + n ≤ t.size) else decide (n ≤ t.occ)

/-- The bytes that a port instruction of a hart moves (R315). -/
def Hart.portBytes (h : Hart) : Nat :=
  match h.vtype with
  | some t => (h.vl.toNat * t.ew.bits + 7) / 8
  | none => 0

/-- The stall of a hart ends once its bytes can move, or breaks where the other end has exited and they never can
(R315). -/
def Gang.rouse (g : Gang) (h : Hart) : Hart :=
  match h.wait with
  | some (.port k) =>
    match g.stream k with
    | some t =>
      let producer := t.ph.toNat == h.name.idx
      if t.canMove producer h.portBytes then { h with wait := some (.flowing k) }
      else if g.otherGone t producer then { h with wait := some .broken }
      else h
    | none => { h with wait := some .broken }
  | _ => h

/-- The stalls of a gang's harts that are over end. -/
def State.rousePorts (key : Nat) (s : State) : State :=
  s.mapHarts fun h => if h.name.gang = key then (s.gang key).rouse h else h

/-- The checks and the stall of R315: the slot and the stream, once n bytes can move. -/
def portReady (port n : Nat) (producer : Bool) : M (Nat × Stream) := do
  let s ← get
  let g := s.myGang
  if s.hart.wait = some .broken then trap 0 0x0E (BitVec.ofNat 64 port)
  match g.portOf s.hart.name.idx port with
  | none => illegal
  | some (k, p) =>
    match g.stream k with
    | none => illegal
    | some t =>
      require (p == producer && decide (n ≤ t.mx))
      if t.canMove producer n then return (k, t)
      else if g.otherGone t producer then trap 0 0x0E (BitVec.ofNat 64 port)
      else
        if s.hart.wait.isNone then modify (State.bump 10 1)
        waitFor (.port k)

/-- The runs of a buffer in which the n bytes of a put or a take lie: from one place on, and on from the buffer's start
(R306; log 61). -/
def Stream.runs (draw : Nat) (t : Stream) (n : Nat) : List (Nat × Nat) :=
  let lo := 256 * t.boff
  let at_ := Config.portSpot draw lo % t.size
  [(lo + at_, min n (t.size - at_)), (lo, n - (t.size - at_))]

/-- The banks see the bytes that a port instruction of the current hart moves: a put touches wake lines (R260), and the
target-side units of the scratchpad compare both (R353). -/
def State.atBanks (key : Nat) (t : Stream) (n : Nat) (producer : Bool) (s : State) : State :=
  (t.runs s.steps n).foldl (fun s r =>
    let s := if producer then s.touchScratch key r.1 r.2 else s
    s.watchScratch s.me (s.gang key).cluster key r.1 r.2 (!producer) producer) s

/-- The granules in which the bytes of a put lie: the errors of those written in part are met, and those written whole are
new (R239, R240). -/
def State.putGranules (key : Nat) (t : Stream) (n : Nat) (s : State) : State :=
  (t.runs s.steps n).foldl (fun s r =>
    (s.storeLocal s.me (.scratch key r.1) r.2).modGang key fun g =>
      { g with scratchPoison := g.scratchPoison.filter fun p => !coveredBy r.1 r.2 p }) s

/-- The errors of the granules in which the bytes of a take lie are met. -/
def State.takeGranules (key : Nat) (t : Stream) (n : Nat) (s : State) : State :=
  (t.runs s.steps n).foldl (fun s r => s.readLocal s.me (.scratch key r.1) r.2) s

/-- The first byte of a take that lies in a marked granule. -/
def State.badTake (s : State) (key : Nat) (t : Stream) (n : Nat) : Option Nat :=
  (t.runs s.steps n).findSome? fun r =>
    (List.range' r.1 r.2).find? fun off => marked (s.gang key).scratchPoison off 1

/-- The bytes in a stream's buffer change, and the stalls that this ends are over. -/
def State.setBuffer (key k : Nat) (buf : List Byte) (s : State) : State :=
  (s.modGang key fun g =>
    { g with streams := g.streams.setIfInBounds k ((g.stream k).map fun t => { t with buf := buf }) }).rousePorts key

/-- The end of a port instruction: every group commits and its ring entry is made. -/
def portRetire (lg : BitVec 2) (n : Nat) : M Unit := do
  modify (State.bump 2 (8 * 2 ^ lg.toNat))
  retireVec n

/-- VST to a stream port (R315). -/
def execVstSq (d : BitVec 5) (n : BitVec 4) (s : State) : Out := run (do
  let t ← typeState
  require (groupOk d t.g)
  let h ← hart
  let vl := h.vl.toNat
  if vl = 0 then retireVec 0
  else
    let bytes := (vl * t.ew.bits + 7) / 8
    let (k, st) ← portReady n.toNat bytes true
    let s ← get
    let spare (j : Nat) : Byte := s.permittedByte s.me (Config.spareHalf s.steps j)
    set (((s.putGranules h.name.gang st bytes).setBuffer h.name.gang k (st.buf ++ h.packElems spare t.ew d.toNat vl)).atBanks
      h.name.gang st bytes true)
    portRetire t.lg vl) s

/-- VLD from a stream port (R315). It takes nothing where a byte lies in a poisoned granule, and faults there as a whole
(R240, R317; log 61); the take orders the hart's later accesses (R316). -/
def execVldSq (d : BitVec 5) (n : BitVec 4) (s : State) : Out := run (do
  let t ← typeState
  require (groupOk d t.g)
  let h ← hart
  let vl := h.vl.toNat
  if vl = 0 then retireVec 0
  else
    let bytes := (vl * t.ew.bits + 7) / 8
    let (k, st) ← portReady n.toNat bytes false
    modify (State.takeGranules h.name.gang st bytes)
    match (← get).badTake h.name.gang st bytes with
    | some off => trap 1 0x0C (BitVec.ofNat 64 (0x7FFFFFFF000000 + off))
    | none => pure ()
    modify fun s => (s.setBuffer h.name.gang k (st.buf.drop bytes)).atBanks h.name.gang st bytes false
    onHart fun h => { h with early := [] }
    let data := st.buf.take bytes
    onHart fun h =>
      let h := (List.range vl).foldl (fun h i => h.setElem t.ew.bits d.toNat i (unpackElem t.ew data i)) h
      if h.mmode.getLsbD 1 then
        (List.range' vl (vlmax h.grant t - vl)).foldl (fun h i => h.setElem t.ew.bits d.toNat i 0) h
      else h
    portRetire t.lg vl) s

/-- STREAM_PORT_WAKE (R315): the stall of a hart ends once data or room is there, and its port instruction performs at
its next issue. -/
def execStreamPortWake (n : HartName) (s : State) : Out := .next (s.modHart n ((s.gang n.gang).rouse))

/-! ## The Bridle update (R311) -/

/-- The reference edges between two updates (R319). -/
def bridleEdges (u : BitVec 2) : Nat := if u = 0 then 256 else if u = 1 then 128 else if u = 2 then 512 else 1024

/-- A stream is sampled: both end harts are resident and neither is stopped for a save nor frozen. -/
def State.sampled (s : State) (key : Nat) (t : Stream) : Bool :=
  [t.ph.toNat, t.ch.toNat].all fun i =>
    match s.findHart ⟨key, i⟩ with
    | some h => h.run == .running && !h.frozen
    | none => false

/-- An end of the stream of a slot waits on it: its stall has not ended. -/
def State.waitedOn (s : State) (key slot : Nat) : Bool :=
  s.harts.any fun h => decide (h.name.gang = key ∧ h.wait = some (.port slot))

/-- The error of a sampled stream. -/
def Stream.error (t : Stream) : Int := (256 * t.occ / t.size : Nat) - (t.spt : Int)

/-- The integrator of a sampled stream moves. -/
def State.integrates (s : State) (key slot : Nat) (t : Stream) : Bool :=
  t.occ != 0 && t.occ != t.size && !s.waitedOn key slot

/-- A stream after an update, and its move of weight. -/
def State.updateStream (s : State) (key slot : Nat) (t : Stream) : Stream × Int :=
  if !s.sampled key t then ({ t with frz := true }, 0)
  else
    let e := t.error
    let t := if s.integrates key slot t then
        { t with integ := min (max (t.integ + e) (-(t.icl : Int))) t.icl, frz := false }
      else { t with frz := true }
    (t, ((t.kp : Int) * e + (t.ki : Int) * t.integ) / 16)

/-- The weight of a hart after an update. A hart with no open stream is never changed (R312). -/
def Gang.moveWeight (g : Gang) (moves : List (Stream × Int)) (h : Hart) : Hart :=
  if h.name.gang ≠ g.key ∨ (g.openStreams.all fun t => !t.endsAt h.name.idx) then h
  else
    let sum (f : Stream → BitVec 4) : Int :=
      (moves.filter fun m => (f m.1).toNat == h.name.idx).foldl (fun a m => a + m.2) 0
    { h with wq := g.clampWq h.name.idx ((h.wq.toNat : Int) - sum Stream.ph + sum Stream.ch) }

/-- The cores at which a stream ends: those of its producer and of its consumer (R310). -/
def State.endCores (s : State) (key : Nat) (t : Stream) : List Nat :=
  ([t.ph, t.ch].filterMap fun i => (s.findHart ⟨key, i.toNat⟩).map Hart.core).eraseDups

/-- An update that froze an integrator of a sampled stream is counted once at each core where the stream ends (R364,
event 11). -/
def State.countFrozen (key : Nat) (moves : List (Stream × Int)) (s : State) : State :=
  (moves.filter fun m => m.1.frz).foldl (fun s m =>
    (s.endCores key m.1).foldl (fun s c => s.modCore c (Core.bump 11 1)) s) s

/-- BRIDLE_UPDATE (R311). -/
def execBridleUpdate (key : Nat) (s : State) : Out :=
  let g := s.gang key
  let moved := (List.range 16).filterMap fun k => (g.stream k).map fun t => (k, s.updateStream key k t)
  let moves := moved.map Prod.snd
  let s' := s.modGang key fun g =>
    { g with refEdges := g.refEdges + bridleEdges g.bctlU
             streams := moved.foldl (fun v m => v.setIfInBounds m.1 (some m.2.1)) g.streams }
  .next ((s'.mapHarts (g.moveWeight moves)).countFrozen key (moves.filter fun m => s.sampled key m.1))

end Sys2Proof.Machine
end

