-- ==== Sys2Proof/Machine/System.lean ====
section
/-! DEFINITION. TRET, TFENCE, ECALL and WFI (R333 to R337). -/

namespace Sys2Proof.Machine

/-- TRET (R334). -/
def execTret (s : State) : Out := run (do
  requirePriv .supervisor
  tret) s

/-- The check of TFENCE, which EXIT makes too (R335, R212). -/
def arithmeticCheck : M Unit := do
  let h ← hart
  if h.flags &&& h.flagEn ≠ 0 then trap 0 0x0F ((h.flags &&& h.flagEn).setWidth 64)

/-- TFENCE (R335). -/
def execTfence (s : State) : Out := run (do
  arithmeticCheck
  retire) s

/-- ECALL (R336). -/
def execEcall (s : State) : Out := run (do
  if (← hart).priv = .firmware then illegal else trap 0 0x10 0) s

/-- WFI (R337): the boundary after it is a quiet stop (R338). -/
def execWfi (s : State) : Out := run (do
  requirePriv .supervisor
  let s ← get
  if s.wakePending s.hart then onHart fun h => { h.retire with quiet := true }
  else waitFor .interrupt) s

end Sys2Proof.Machine
end

