-- ==== Sys2Proof/Machine/Gangs.lean ====
section
/-! DEFINITION. ENQ, SPAWN, JOIN, EXIT, YIELD, the barriers and GINFO (R209 to R217). -/

namespace Sys2Proof.Machine

/-! ## Enqueueing (R210) -/

/-- The status is written and the instruction retires. -/
def statusIs (d : BitVec 5) (n : Nat) : M Unit := onHart fun h => (h.wx d (BitVec.ofNat 64 n)).retire

/-- The place and the header of a record that ENQ or SPAWN names, under every check of R243. -/
def readRecord (r : Word) : M (Place × Record) := do
  let p ← placeFor .load r 64
  watchAddress .load r 64
  let d ← loadPlace .load r p 64 Hints.none
  return (p, recordOf d)

/-- The bit of a cluster in pcl (R210). -/
def clusterBit (c : Nat) : BitVec 48 := 1#48 <<< c

/-- The last part of R210: the issuing cluster's bytes of the record's line are written back, then the record is
queued at its memory die. -/
def enqueue (d : BitVec 5) (r : Word) (p : Place) (queue : QueueRef) : M Unit := do
  match p with
  | .device pa home _ =>
    let s ← get
    let s := s.evict s.me s.hart.cluster pa
    let (n, s) := s.enqueueAt s.me r home s.myGang.ctx queue (clusterBit s.hart.cluster)
    set s
    statusIs d n
  | _ => statusIs d 2

/-- ENQ (R210). -/
def execEnq (d a b : BitVec 5) (s : State) : Out := run (do
  let h ← hart
  let r := h.rx a
  if r.extractLsb' 0 6 ≠ 0 then statusIs d 2
  else
    let (p, hdr) ← readRecord r
    if !p.isDevice then statusIs d 2
    else
      let q := h.rx b
      let s ← get
      let (e, s) := s.queueEntry (q.toNat % 131072)
      set s
      if !e.usable q s.myGang.ctx then statusIs d 3
      else if hdr.malformed then statusIs d 2
      else enqueue d r p (.hardware q.toNat)) s

/-- SPAWN (R210). -/
def execSpawn (d a : BitVec 5) (s : State) : Out := run (do
  let h ← hart
  let r := h.rx a
  if r.extractLsb' 0 6 ≠ 0 then statusIs d 2
  else
    let (p, hdr) ← readRecord r
    if !p.isDevice then statusIs d 2
    else if hdr.rcap &&& ~~~(capmask h.cluster) ≠ 0 then statusIs d 3
    else if hdr.malformed then statusIs d 2
    else enqueue d r p (.spawn h.cluster)) s

/-- JOIN (R211). It faults where either granule of the record is poisoned, though it changes only the second
(log 59). -/
def execJoin (d a : BitVec 5) (s : State) : Out := run (do
  let h ← hart
  let r := h.rx a
  if r.extractLsb' 0 6 ≠ 0 then trap 3 0x08 r
  else
    match ← placeFor .atomic r 64 with
    | .device pa home _ =>
      let s ← get
      let s := s.evict s.me s.hart.cluster pa
      if (s.readErrors s.me home 64).poisoned home 64 then
        set (s.readDie s.me home 64).2
        trap 3 0x0C r
      else
        let (j, s) := (s.readErrors s.me home 64).joinAt s.me home (clusterBit h.cluster)
        set s
        match j with
        | none => onHart fun h => (h.wx d (BitVec.allOnes 64)).retire
        | some j => onHart fun h => (h.wx d (j.setWidth 64)).retire
    | _ => trap 3 0x09 r) s

/-! ## Barriers (R216) -/

/-- A hart of a gang has arrived at a generation of the gang barrier, or has exited. -/
def State.atGangBarrier (s : State) (g : Gang) (idx : Nat) : Bool :=
  g.exited.contains idx ||
    s.harts.any fun h => decide (h.name = ⟨g.key, idx⟩ ∧ h.arrGang = some g.barGen)

/-- The same at the barrier of a stage. -/
def State.atStageBarrier (s : State) (g : Gang) (stage idx : Nat) : Bool :=
  g.exited.contains idx ||
    s.harts.any fun h => decide (h.name = ⟨g.key, idx⟩ ∧ h.arrStage = some (g.stageGen.toList.getD stage 0))

/-- The waits of a gang's harts at barriers end; a hart whose barrier is not complete waits again. -/
def State.wakeBarriers (key : Nat) (s : State) : State :=
  s.mapHarts fun h => if h.name.gang = key ∧ h.wait = some .barrier then { h with wait := none } else h

/-- The gang barrier completes when a hart has arrived and every other has arrived or exited. -/
def State.completeGangBarrier (key : Nat) (s : State) : State :=
  let g := s.gang key
  let ids := List.range (g.w * g.stages)
  if (ids.any fun i => !g.exited.contains i) && ids.all (s.atGangBarrier g) then
    (s.modGang key fun g => { g with barGen := g.barGen + 1 }).wakeBarriers key
  else s

/-- The barrier of a stage completes in the same way. -/
def State.completeStageBarrier (key : Nat) (s : State) (stage : Nat) : State :=
  let g := s.gang key
  let ids := List.range' (stage * g.w) g.w
  if (ids.any fun i => !g.exited.contains i) && ids.all (s.atStageBarrier g stage) then
    (s.modGang key fun g =>
      { g with stageGen := g.stageGen.setIfInBounds stage (g.stageGen.toList.getD stage 0 + 1) }).wakeBarriers key
  else s

/-- Every barrier of a gang that is complete completes. -/
def State.completeBarriers (key : Nat) (s : State) : State :=
  (List.range (s.gang key).stages).foldl (State.completeStageBarrier key) (s.completeGangBarrier key)

/-- BAR (R216): the arrival is recorded once a generation; the instruction retires when the generation is
complete, and orders the hart's later accesses (R274). -/
def execBar (s : State) : Out := run (do
  let s ← get
  let g := s.myGang
  if s.hart.arrGang.isNone then
    onHart fun h => { h with arrGang := some g.barGen }
    modify (State.completeBarriers g.key)
  let s ← get
  if (s.hart.arrGang.getD 0) < s.myGang.barGen then onHart fun h => { h.retire with arrGang := none, early := [] }
  else waitFor .barrier) s

/-- The generation count of the barrier of the current hart's stage. -/
def State.myStageGen (s : State) : Nat := s.myGang.stageGen.toList.getD s.hart.stage.toNat 0

/-- BAR.S (R216). -/
def execBarS (s : State) : Out := run (do
  let s ← get
  if s.hart.arrStage.isNone then
    onHart fun h => { h with arrStage := some s.myStageGen }
    modify (State.completeBarriers s.hart.name.gang)
  let s ← get
  if (s.hart.arrStage.getD 0) < s.myStageGen then onHart fun h => { h.retire with arrStage := none, early := [] }
  else waitFor .barrier) s

/-! ## EXIT, YIELD, GINFO -/

/-- The end of the current hart (R212): it counts as arrived at every barrier, and its gang ends with its last
hart. -/
def State.exitHart (s : State) : State :=
  let n := s.hart.name
  let s := (s.onHart Hart.discard).modGang n.gang fun g => { g with exited := n.idx :: g.exited }
  let s := (s.completeBarriers n.gang).rousePorts n.gang
  let g := s.gang n.gang
  if (List.range (g.w * g.stages)).all fun i => g.exited.contains i then s.endGang n.gang false else s

/-- EXIT (R212): it does not retire. -/
def execExit (s : State) : Out := run (do
  require (!(← hart).gated)
  arithmeticCheck
  modify State.exitHart) s

/-- YIELD (R213). -/
def execYield (s : State) : Out := run (do
  preemptPoint
  onHart fun h => { h.retire with credit := 0 }) s

/-- What GINFO returns (R217). -/
def Gang.info (g : Gang) (k : Nat) : Word :=
  if k = 0 then BitVec.ofNat 64 (g.w + 256 * g.stages)
  else if k = 1 then 0#4 ++ g.ez1 ++ g.ey1 ++ g.ex1
  else g.record

/-- GINFO (R217). -/
def execGinfo (d k : BitVec 5) (s : State) : Out := run (do
  require (decide (k.toNat ≤ 2))
  let g := (← get).myGang
  onHart fun h => (h.wx d (g.info k.toNat)).retire) s

end Sys2Proof.Machine
end

