-- ==== Sys2Proof/Machine/Monitor.lean ====
section
/-! DEFINITION. Wake lines, posted reader counts and cache control (R259 to R263). -/

namespace Sys2Proof.Machine

/-- WLARM (R260). -/
def execWlarm (a : BitVec 5) (s : State) : Out := run (do
  let va := (← hart).rx a
  match ← placeFor .load va 1 with
  | .scratch key off => onHart fun h => { h with wake := some ⟨.scratch key (off / 128), false⟩ }
  | .device _ home _ => onHart fun h => { h with wake := some ⟨.device (home / 128), false⟩ }
  | .tcm _ _ | .host _ => trap 1 0x09 va
  retire) s

/-- The time at which a WLWAIT issued (R261). -/
def Hart.waitStart (h : Hart) (now : Word) : Word :=
  match h.wait with
  | some (.wakeLine start _) => start
  | _ => now

/-- WLWAIT (R261): 0 clears the touched bit; the boundary after a return of 2 is a quiet stop (R338). -/
def execWlwait (d b : BitVec 5) (s : State) : Out := run (do
  let s ← get
  let h := s.hart
  let start := h.waitStart s.time
  match s.wakeCode h start (h.rx b) with
  | none => waitFor (.wakeLine start (h.rx b))
  | some code =>
    onHart fun h => { (h.wx d code).retire with
      quiet := code == 2
      wake := if code = 0 then h.wake.map fun w => { w with touched := false } else h.wake }) s

/-- RC.POST (R262). -/
def execRcPost (a b : BitVec 5) (s : State) : Out := run (do
  let h ← hart
  match ← placeFor .store (h.rx a) 1 with
  | .device pa home _ =>
    modify fun s => (s.writeBack s.me s.hart.cluster pa).postReaders s.me home (h.rx b).toNat
  | _ => pure ()
  retire) s

/-- CHINT (R263): a failed check makes it retire with no effect. The check asks for rd, and a line that is present is used
by it, as by an access: the rule says neither (log 69). -/
def execChint (a p : BitVec 5) (s : State) : Out := run (do
  require (decide (p.toNat ≤ 3))
  let h ← hart
  match ← tryPlace .load (h.rx a) 1 with
  | .ok (.device pa home true) =>
    modify fun s =>
      match s.lineAt h.cluster pa with
      | some l => s.putLine h.cluster { l with prio := p.setWidth 2 }
      | none => if p = 3 ∨ s.cacheless h.cluster then s else s.fill s.me h.cluster pa home (p.setWidth 2)
  | _ => pure ()
  retire) s

/-- CWB (R263). -/
def execCwb (a : BitVec 5) (s : State) : Out := run (do
  let h ← hart
  match ← placeFor .load (h.rx a) 1 with
  | .device pa _ true => modify fun s => s.writeBack s.me h.cluster pa
  | _ => pure ()
  retire) s

/-- CDROP (R263). -/
def execCdrop (a : BitVec 5) (s : State) : Out := run (do
  let h ← hart
  match ← placeFor .store (h.rx a) 1 with
  | .device pa _ true => modify fun s => s.dropLine h.cluster pa
  | _ => pure ()
  retire) s

end Sys2Proof.Machine
end

