-- ==== Sys2Proof/Machine/Engines.lean ====
section
/-! DEFINITION. Copy engines: COPY, FILL, CHAIN and QFENCE, and the engine's own actions (R288 to R305). -/

namespace Sys2Proof.Machine

/-! ## Issue -/

/-- A token register (R290). -/
def tokenOk (r : BitVec 5) : Bool := decide (12 ≤ r.toNat ∧ r.toNat ≤ 19)

/-- mclass of a hart as a word (R378). -/
def Hart.mclass (h : Hart) : Word := 0#33 ++ h.moff ++ 0#14 ++ h.msc

/-- Queue q of a hart. -/
def Hart.queue (h : Hart) (q : Nat) : EngineQueue := h.eq.toList.getD q EngineQueue.reset
def Hart.setQueue (q : Nat) (f : EngineQueue → EngineQueue) (h : Hart) : Hart :=
  { h with eq := h.eq.setIfInBounds q (f (h.queue q)) }

/-- The hart waits while a queue holds 16 operations (R288, R293). -/
def queueRoom (q : Nat) : M Unit := do
  if 16 ≤ ((← hart).queue q).ops.length then waitFor .engine

/-- A chained copy (R295). -/
def EngineWork.isChained (w : EngineWork) : Bool :=
  match w with
  | .copy _ _ _ c => c
  | _ => false

/-- The chained copy of a hart in flight. -/
def Hart.chainedCopy (h : Hart) : Option EngineOp :=
  (h.eq.toList.flatMap fun q => q.ops).find? fun o => o.work.isChained

/-- A range of n bytes shares a byte with the destination bytes of an operation that have still to be written (R295). -/
def EngineOp.owes (o : EngineOp) (va n : Nat) : Bool :=
  match o.run, o.work with
  | some r, _ =>
    (r.left.any fun c => decide (va < c.1 + c.2 ∧ c.1 < va + n)) ||
      r.words.any fun w => decide (va < w.va + w.data.length ∧ w.va < va + n)
  | none, .copy dst _ len _ => decide (va < dst.toNat + len.toNat ∧ dst.toNat < va + n)
  | none, _ => false

/-- An operation is placed on a queue and the instruction retires: its token is pending (R290, R293). -/
def place (q : Nat) (token : BitVec 5) (work : EngineWork) (seq : BitVec 48) (stamp : Option Word) : M Unit :=
  modify fun s => s.onHart fun h =>
    let op : EngineOp :=
      { work := work, ord := h.placed, seq := seq, token := token, stamp := stamp, xlat := h.xlat, priv := h.priv
        mclass := h.mclass, issued := s.time, run := none }
    { (h.setQueue q fun k => { k with ops := k.ops ++ [op] }).retire with
        placed := h.placed + 1, pending := token :: h.pending }

/-- The next sequence number of a queue (R289). -/
def nextSeq (q : Nat) : M (BitVec 48) := do
  let n := ((← hart).queue q).cseq + 1
  onHart (Hart.setQueue q fun k => { k with cseq := n })
  return n

/-- The stamp address of an inline operation (R293). -/
def inlineStamp (st : BitVec 1) (q : Nat) : M (Option Word) := do
  if st = 0 then return none
  else
    let a := ((← hart).queue q).cstamp
    if a.extractLsb' 0 3 ≠ 0 then trap 2 0x08 a
    return some a

/-- A destination that lies in host memory: a chained copy to it behaves as an unchained one (R295). Of a destination that
lies there in part, or whose mapping changes later, the spec says nothing: its first 8 bytes at issue decide (log 81). -/
def State.inHost (s : State) (va : Word) : Bool :=
  match (resolve (s.agentOf s.hart) [] .store va 8 s).1 with
  | .ok (.host _, _) => true
  | _ => false

/-- COPY (R292, R293). A misaligned operand reports its own address, a misaligned length dst (log 22). -/
def execCopy (d a b : BitVec 5) (ch st : BitVec 1) (q : BitVec 2) (s : State) : Out := run (do
  require (tokenOk d)
  queueRoom q.toNat
  let h ← hart
  let dst := h.rx a
  let src := h.rx b
  let len : BitVec 32 := (h.rx d).setWidth 32
  require (!(a == d) && !(b == d))
  if dst.extractLsb' 0 3 ≠ 0 ∨ len.extractLsb' 0 3 ≠ 0 then trap 2 0x08 dst
  if src.extractLsb' 0 3 ≠ 0 then trap 1 0x08 src
  let stamp ← inlineStamp st q.toNat
  let chained := ch == 1 && !(← get).inHost dst
  if ch = 1 ∧ h.chainedCopy.isSome then waitFor .engine
  place q.toNat d (.copy dst src len chained) (← nextSeq q.toNat) stamp) s

/-- FILL (R292, R293). -/
def execFill (d a b : BitVec 5) (st : BitVec 1) (q : BitVec 2) (s : State) : Out := run (do
  require (tokenOk d)
  queueRoom q.toNat
  let h ← hart
  let dst := h.rx a
  let len : BitVec 32 := (h.rx d).setWidth 32
  require (!(a == d))
  if dst.extractLsb' 0 3 ≠ 0 ∨ len.extractLsb' 0 3 ≠ 0 then trap 2 0x08 dst
  let stamp ← inlineStamp st q.toNat
  place q.toNat d (.fill dst (h.rx b) len) (← nextSeq q.toNat) stamp) s

/-- CHAIN (R297). -/
def execChain (d a q : BitVec 5) (s : State) : Out := run (do
  require (tokenOk d && decide (q.toNat ≤ 3))
  queueRoom q.toNat
  let head := (← hart).rx a
  if head.extractLsb' 0 6 ≠ 0 then trap 1 0x08 head
  place q.toNat d (.chain head false 0 none) 0 none) s

/-- QFENCE (R299). -/
def execQfence (d : BitVec 5) (k : BitVec 4) (q : BitVec 5) (s : State) : Out := run (do
  require (tokenOk d && decide (q.toNat ≤ 3))
  queueRoom q.toNat
  place q.toNat d (.fence k) (← nextSeq q.toNat) none) s

/-! ## The engine's accesses -/

/-- On whose behalf an engine performs an operation (R288). -/
def State.engineAgent (s : State) (h : Hart) (o : EngineOp) : Agent :=
  { s.agentOf h with who := .engine h.name h.cluster o.mclass o.issued, xlat := o.xlat, priv := o.priv }

/-- A range of n bytes from an address, cut at multiples of a size: addresses and lengths. -/
def pieces (unit : Nat) : Nat → Nat → Nat → List (Nat × Nat)
  | 0, _, _ => []
  | fuel + 1, a, n =>
    if n = 0 then []
    else
      let k := min n (unit - a % unit)
      (a, k) :: pieces unit fuel (a + k) (n - k)

def cut (unit a n : Nat) : List (Nat × Nat) := pieces unit (n / unit + 2) a n

/-- The place of a VA for the engine's cache actions, in a page that may be read or written. -/
def State.anyPlace (ag : Agent) (va : Word) (s : State) : Option Place :=
  match (resolve ag [] .load va 1 s).1, (resolve ag [] .store va 1 s).1 with
  | .ok (p, _), _ => some p
  | .error _, .ok (p, _) => some p
  | .error _, .error _ => none

/-- The cluster's dirty bytes of the line that holds a VA are written back; its clean bytes are invalidated where
asked (R294). -/
def State.flushVa (ag : Agent) (drop : Bool) (va : Word) (s : State) : State :=
  match s.anyPlace ag va with
  | some (.device pa _ _) =>
    if drop then s.invalidateRange (ag.core / 16) pa 1 else s.writeBack ag.who (ag.core / 16) pa
  | _ => s

/-- The same for every line over a range of n bytes. -/
def State.flushRange (ag : Agent) (drop : Bool) (va : Word) (n : Nat) (s : State) : State :=
  (cut 128 va.toNat n).foldl (fun s c => s.flushVa ag drop (BitVec.ofNat 64 c.1)) s

/-- The source bytes of a chunk, each with its poison; the fault names the VA that failed. -/
def State.gatherBytes (ag : Agent) : List (Nat × Nat) → State → Except Word (List (Byte × Bool)) × State
  | [], s => (.ok [], s)
  | (a, n) :: t, s =>
    let va := BitVec.ofNat 64 a
    match s.engineRead ag .load va n with
    | (.error _, s) => (.error va, s)
    | (.ok d, s) =>
      match State.gatherBytes ag t s with
      | (.error e, s) => (.error e, s)
      | (.ok r, s) => (.ok (d ++ r), s)

/-- The positions of poisoned bytes. -/
def badBytes (d : List (Byte × Bool)) : List Nat := (List.range d.length).filter fun i => (d.getD i (0, false)).2

/-- Where the data of an operation come from: a source, or a pattern. -/
inductive DataSource where
  | src (va : Word)
  | pattern (w : Word)
  deriving DecidableEq, Repr

/-- What an operation moves: its data, its destination, its length, and whether its chunks ascend (R294, R295). -/
structure Move where
  data : DataSource
  dst : Word
  len : Nat
  ordered : Bool
  deriving DecidableEq, Repr

/-- The source bytes of a chunk (R294): FILL reads no memory. -/
def State.chunkData (ag : Agent) (mv : Move) (c : Nat × Nat) (s : State) :
    Except Word (List (Byte × Bool)) × State :=
  match mv.data with
  | .src src => s.gatherBytes ag (cut 128 (src + BitVec.ofNat 64 (c.1 - mv.dst.toNat)).toNat c.2)
  | .pattern w => (.ok ((List.range c.2).map fun i => (BitVec.ofNat 8 ((w >>> (8 * (i % 8))).toNat), false)), s)

/-- The aligned 8-byte words of a chunk (R270). -/
def chunkWords (c : Nat × Nat) (d : List (Byte × Bool)) : List EngineWord :=
  (cut 8 c.1 c.2).map fun w =>
    let b := (d.drop (w.1 - c.1)).take w.2
    ⟨w.1, b.map Prod.fst, badBytes b⟩

/-- The granules that lie whole in a chunk of a place. -/
def wholeGranules (at_ n : Nat) : List Nat :=
  (cut 32 at_ n).filterMap fun g => if g.2 = 32 then some g.1 else none

/-- An error of a granule that a chunk writes whole goes with the old data: until the chunk is written the granule is
marked if the code does not correct it (R239, R240). -/
def State.renew (home n : Nat) (s : State) : State :=
  let mine (e : Nat × Bool) : Bool := (wholeGranules home n).contains e.1
  (s.errors.filter fun e => mine e && !e.2).foldl (fun s e => s.mark e.1)
    { s with errors := s.errors.filter fun e => !mine e }

/-- The marks after a chunk: a granule that it wrote whole is marked just where it received poison (R240, R304). -/
def State.settleMarks (ag : Agent) (c : Nat × Nat) (spoiled : List Nat) (s : State) : State :=
  let clear (base : Nat) : List Nat :=
    (wholeGranules base c.2).filter fun g => !spoiled.contains (c.1 + (g - base))
  match (resolve ag [] .store (BitVec.ofNat 64 c.1) c.2 s).1 with
  | .ok (.device _ home _, _) => { s with poison := s.poison.filter fun g => !(clear home).contains g }
  | .ok (.scratch key off, _) => s.modGang key fun g =>
      { g with scratchPoison := g.scratchPoison.filter fun p => !(clear off).contains p }
  | .ok (.tcm core off, _) => s.modCore core fun k =>
      { k with tcmPoison := k.tcmPoison.filter fun p => !(clear off).contains p }
  | _ => s

/-- The next chunk begins: its source is read and its destination is translated; the VA of a fault. -/
def State.beginChunk (ag : Agent) (mv : Move) (c : Nat × Nat) (left : List (Nat × Nat)) (bad : Bool) (s : State) :
    Except Word EngineRun × State :=
  match s.chunkData ag mv c with
  | (.error va, s) => (.error va, s)
  | (.ok d, s) =>
    match resolve ag [] .store (BitVec.ofNat 64 c.1) c.2 s with
    | (.error _, s) => (.error (BitVec.ofNat 64 c.1), s)
    | (.ok (p, _), s) =>
      let s := match p with
        | .device _ home _ => s.renew home c.2
        | _ => s
      (.ok ⟨left, chunkWords c d, c, ((badBytes d).map fun i => granuleOf (c.1 + i)).eraseDups,
        bad || badBytes d != []⟩, s)

/-- A word of the current chunk is written whole (R270); with the last one the chunk's marks settle. -/
def State.writeWord (ag : Agent) (r : EngineRun) (w : EngineWord) (rest : List EngineWord) (s : State) :
    Except Word EngineRun × State :=
  match s.engineWrite ag (BitVec.ofNat 64 w.va) w.data w.bad with
  | (.error _, s) => (.error (BitVec.ofNat 64 w.va), s)
  | (.ok _, s) =>
    (.ok { r with words := rest }, if rest = [] then s.settleMarks ag r.chunk r.spoiled else s)

/-- A word of a chained copy that has been written is what the cluster's next load of it reads: the clean bytes of its
line go (R295). -/
def State.showWord (ag : Agent) (mv : Move) (w : EngineWord) (s : State) : State :=
  if mv.ordered then s.flushVa ag true (BitVec.ofNat 64 w.va) else s

/-- One step of an operation's data (R283, R294, R303): a word of the current chunk, else the next chunk; which of the
words, and of the chunks where they need not ascend, is free. None where every chunk is written. -/
def State.moveOn (ag : Agent) (mv : Move) (r : EngineRun) (s : State) : Option (Except Word EngineRun × State) :=
  match r.words with
  | w :: ws =>
    let k := Config.nextWord s.steps % (ws.length + 1)
    let (e, s) := s.writeWord ag r (r.words.getD k w) (r.words.eraseIdx k)
    some (e, s.showWord ag mv (r.words.getD k w))
  | [] =>
    match r.left with
    | [] => none
    | c :: cs =>
      let k := if mv.ordered then 0 else Config.nextChunk s.steps % (cs.length + 1)
      some (s.beginChunk ag mv (r.left.getD k c) (r.left.eraseIdx k) r.bad)

/-- An operation begins (R294): the dirty bytes of the lines over its source and its destination are written back. -/
def State.beginMove (ag : Agent) (mv : Move) (s : State) : State :=
  let s := match mv.data with
    | .src src => s.flushRange ag false src mv.len
    | .pattern _ => s
  s.flushRange ag false mv.dst mv.len

/-- Every chunk is to be written. -/
def Move.start (mv : Move) : EngineRun := ⟨cut 64 mv.dst.toNat mv.len, [], (0, 0), [], false⟩

/-- The value of n bytes of a gang's scratchpad is unspecified until they are written, as if nothing had written them
(R3). -/
def Gang.loosen (off n : Nat) (g : Gang) : Gang := { g with scratch := (List.range' off n).foldl cellDrop g.scratch }

/-- The value of n bytes of a core's TCM is unspecified until they are written (R3). -/
def Core.loosen (off n : Nat) (c : Core) : Core :=
  { c with tcmLoose := List.range' off n ++ c.tcmLoose.filter fun a => !decide (off ≤ a ∧ a < off + n) }

/-- The value of n bytes from a VA that an agent may write is unspecified until they are written. -/
def State.loosenVa (ag : Agent) (va : Word) (n : Nat) (s : State) : State :=
  match (resolve ag [] .store va n s).1 with
  | .ok (.device _ home _, _) | .ok (.host home, _) => s.loosen home n
  | .ok (.scratch key off, _) => s.modGang key (Gang.loosen off n)
  | .ok (.tcm core off, _) => s.modCore core (Core.loosen off n)
  | .error _ => s

/-- Overlapping ranges leave every destination word unspecified (R303); marks stay. -/
def State.scramble (ag : Agent) (mv : Move) (s : State) : State :=
  (cut 8 mv.dst.toNat mv.len).foldl (fun t c => t.loosenVa ag (BitVec.ofNat 64 c.1) c.2) s

/-- The source and the destination of a copy share a byte. -/
def Move.overlaps (mv : Move) : Bool :=
  match mv.data with
  | .src src => decide (0 < mv.len ∧ src.toNat < mv.dst.toNat + mv.len ∧ mv.dst.toNat < src.toNat + mv.len)
  | .pattern _ => false

/-- The stamp of an operation (R291): status 1 where the word cannot be written. -/
def State.stamp (ag : Agent) (va : Word) (seq : BitVec 48) (s : State) : Option Word × State :=
  match (resolve ag [] .store va 8 s).1 with
  | .ok (.device _ _ _, _) | .ok (.scratch _ _, _) =>
    match (s.flushVa ag false va).engineWrite ag va (bytesOf 8 seq.toNat) [] with
    | (.ok _, s) => (none, s.flushVa ag true va)
    | (.error _, s) => (some va, s)
  | _ => (some va, s)

/-- The end of an operation whose data are written (R291, R294): the clean bytes of the destination's lines are
invalidated, then the stamp; the status, and the VA of a fault. -/
def State.conclude (ag : Agent) (mv : Move) (bad : Bool) (stamp : Option Word) (seq : BitVec 48) (s : State) :
    (Nat × Word) × State :=
  let s := if mv.overlaps then s.scramble ag mv else s
  let s := s.flushRange ag true mv.dst mv.len
  let status := if bad then 2 else 0
  match stamp with
  | none => ((status, 0), s)
  | some a =>
    match s.stamp ag a seq with
    | (none, s) => ((status, 0), s)
    | (some a, s) => ((1, a), s)

/-- What a step of an operation comes to: it goes on, or it ends with a status and the VA of a fault. -/
inductive Moved where
  | going (r : EngineRun)
  | ended (status : Nat) (va : Word)
  deriving DecidableEq, Repr

/-- One step of an operation (R294, R304): it begins, moves data, or ends. -/
def State.perform (ag : Agent) (mv : Move) (run : Option EngineRun) (stamp : Option Word) (seq : BitVec 48) (s : State) :
    Moved × State :=
  match run with
  | none => (.going mv.start, s.beginMove ag mv)
  | some r =>
    match s.moveOn ag mv r with
    | some (.ok r, s) => (.going r, s)
    | some (.error va, s) => (.ended 1 va, s)
    | none =>
      let ((status, va), s) := s.conclude ag mv r.bad stamp seq
      (.ended status va, s)

/-! ## The end of an operation -/

/-- A token value (R290). -/
def tokenValue (seq : BitVec 48) (status : Nat) : Word := 0#8 ++ BitVec.ofNat 8 status ++ seq

/-- The token is written and its register is no longer pending, a token that it held before being gone (R304); an exited
hart's tokens are discarded (R305). The hart's later loads are ordered after it (R302; log 72). -/
def Hart.writeToken (r : BitVec 5) (w : Word) (h : Hart) : Hart :=
  if h.run = .exited then h
  else { (h.wx r w).forgetTokens [r] with early := [], pending := h.pending.erase r, wait := if h.wait = some .engine then none else h.wait }

/-- A fault of an operation is held (R304). -/
def EngineQueue.holdFault (token : BitVec 5) (status : Nat) (seq : BitVec 48) (va : Word) (k : EngineQueue) :
    EngineQueue :=
  if status = 1 ∨ status = 3 then
    { k with fault := true, code := BitVec.ofNat 8 status, faultSeq := seq, faultToken := some token, qfadr := va }
  else k

/-- The operation at the head of a queue ends with a status (R290, R304). -/
def State.endOperation (n : HartName) (q : Nat) (token : BitVec 5) (seq : BitVec 48) (status : Nat) (va : Word)
    (s : State) : State :=
  s.modHart n fun h =>
    ((h.setQueue q fun k => { k with ops := k.ops.drop 1 }).writeToken token (tokenValue seq status)).setQueue q
      (EngineQueue.holdFault token status seq va)

/-- A chunk of the operation has been begun and not ended. -/
def EngineOp.inChunk (o : EngineOp) : Bool :=
  match o.run with
  | some r => r.words != []
  | none => false

/-- The head of a queue, where the engine can advance it: the hart is resident, and no freeze covers its cluster
unless the hart is stepping or a chunk is to be ended (R305, R354). -/
def State.engineHead (s : State) (n : HartName) (q : Nat) : Option (Hart × EngineOp) :=
  match s.findHart n with
  | none => none
  | some h =>
    match (h.queue q).ops.head? with
    | none => none
    | some o =>
      if (s.freezes.any fun f => freezeCovers f h.core) && !h.dbg.stepping && !o.inChunk then none else some (h, o)

/-- The operation at the head of a queue goes on; a load that waits for its bytes looks again (R295). -/
def State.setHead (n : HartName) (q : Nat) (f : EngineOp → EngineOp) (s : State) : State :=
  s.modHart n fun h =>
    { h.setQueue q fun k => { k with ops := match k.ops with
        | o :: t => f o :: t
        | [] => [] } with
      wait := if h.wait = some .engine then none else h.wait }

/-- What an inline operation moves; none for a chain or a fence. -/
def EngineWork.move (w : EngineWork) : Option Move :=
  match w with
  | .copy dst src len c => some ⟨.src src, dst, len.toNat, c⟩
  | .fill dst w len => some ⟨.pattern w, dst, len.toNat, false⟩
  | .chain _ _ _ _ | .fence _ => none

/-- ENGINE_OPERATION (R294): the copy or fill at the head of a queue takes its next step, by its chunks and their words
to its stamp and its token (log 50); with none there, nothing happens. -/
def execEngineOperation (n : HartName) (q : Nat) (s : State) : Out :=
  match s.engineHead n q with
  | none => .next s
  | some (h, o) =>
    match o.work.move with
    | none => .next s
    | some mv =>
      match s.perform (s.engineAgent h o) mv o.run o.stamp o.seq with
      | (.going r, s) => .next (s.setHead n q fun o => { o with run := some r })
      | (.ended status va, s) => .next (s.endOperation n q o.token o.seq status va)

/-! ## Queue fences (R300) -/

/-- The operations of the joined queues that were placed before a fence have completed. -/
def Hart.joined? (h : Hart) (q : Nat) (mask : BitVec 4) (ord : Nat) : Bool :=
  (List.range 4).all fun j => !mask.getLsbD j || j == q || (h.queue j).ops.all fun o => decide (ord ≤ o.ord)

/-- QUEUE_FENCE (R300). -/
def execQueueFence (n : HartName) (q : Nat) (s : State) : Out :=
  match s.engineHead n q with
  | some (h, o) =>
    match o.work with
    | .fence k => if h.joined? q k o.ord then .next (s.endOperation n q o.token o.seq 0 0) else .next s
    | _ => .next s
  | none => .next s

/-! ## Chains (R296, R298) -/

/-- A transfer record (R296). -/
structure Transfer where
  src : Word
  dst : Word
  len : BitVec 32
  kind : BitVec 2
  st : Bool
  own : Bool
  fmask : BitVec 4
  saddr : Word
  next : Word
  reservedClear : Bool
  deriving DecidableEq, Repr

/-- The transfer record of 64 bytes (R296). -/
def transferOf (d : List Byte) : Transfer :=
  let r := BitVec.ofNat 512 (natOfBytes d)
  { src := r.extractLsb' 0 64, dst := r.extractLsb' 64 64, len := r.extractLsb' 128 32, kind := r.extractLsb' 160 2
    st := r.getLsbD 162, own := r.getLsbD 163, fmask := r.extractLsb' 164 4, saddr := r.extractLsb' 192 64
    next := r.extractLsb' 256 64
    reservedClear := r.extractLsb' 168 24 == 0 && r.extractLsb' 376 136 == 0 }

/-- A malformed transfer record (R296). -/
def Transfer.malformed (t : Transfer) : Bool :=
  t.kind == 3 || !t.reservedClear || t.next.extractLsb' 0 6 != 0 ||
    (t.kind == 0 && t.src.extractLsb' 0 3 != 0) ||
    ((t.kind == 0 || t.kind == 1) && (t.dst.extractLsb' 0 3 != 0 || t.len.extractLsb' 0 3 != 0)) ||
    (t.st && t.saddr.extractLsb' 0 3 != 0)

/-- The engine's writes into a record that it has finished with: seq and status, then own ← 0 (R298); the VA of the word
that faulted, if one did (R289). -/
def State.finishRecord (ag : Agent) (r : Word) (d : List Byte) (seq : BitVec 48) (status : Nat) (s : State) :
    Option Word × State :=
  match s.engineWrite ag (r + 40) (bytesOf 7 (seq.toNat + 2 ^ 48 * status)) [] with
  | (.error _, s) => (some (r + 40), s)
  | (.ok _, s) =>
    match s.engineWrite ag (r + 20) [d.getD 20 0 &&& 0xF7] [] with
    | (.error _, s) => (some (r + 16), s)
    | (.ok _, s) => (none, s.flushVa ag true r)

/-- What a record moves (R296); a queue fence moves nothing. -/
def Transfer.move (t : Transfer) : Move :=
  if t.kind = 0 then ⟨.src t.src, t.dst, t.len.toNat, false⟩
  else if t.kind = 1 then ⟨.pattern t.src, t.dst, t.len.toNat, false⟩
  else ⟨.pattern 0, 0, 0, false⟩

/-- The chain at the head of a queue stands at a record, with its last number and, where it has reached the record, the
record's own. -/
def State.chainAt (n : HartName) (q : Nat) (r : Word) (last : BitVec 48) (reached : Option (BitVec 48 × List Byte))
    (s : State) : State :=
  s.setHead n q fun o => { o with work := .chain r true last reached, run := none }

/-- The record at r, where it can be read whole and unpoisoned from device memory (R296, R298). -/
def State.readTransfer (ag : Agent) (r : Word) (s : State) : Option (List Byte) × State :=
  match (resolve ag [] .load r 64 s).1 with
  | .ok (.device _ _ _, _) =>
    match (s.flushVa ag false r).engineRead ag .load r 64 with
    | (.ok d, s) => (if badBytes d = [] then some (d.map Prod.fst) else none, s)
    | (.error _, s) => (none, s)
  | _ => (none, s)

/-- The walk reaches record r, or ends before it (R298): a record that the engine owns takes the next number of the
queue as it is reached. One that cannot be read took none: the fault's sequence number is the last one reached
(log 70). -/
def State.reachRecord (n : HartName) (q : Nat) (h : Hart) (o : EngineOp) (r : Word) (last : BitVec 48) (s : State) :
    State :=
  if r = 0 then s.endOperation n q o.token last 0 0
  else
    match s.readTransfer (s.engineAgent h o) r with
    | (none, s) => s.endOperation n q o.token last 1 r
    | (some d, s) =>
      if !(transferOf d).own then s.endOperation n q o.token last 0 0
      else
        let seq := (h.queue q).cseq + 1
        (s.modHart n (Hart.setQueue q fun k => { k with cseq := seq })).chainAt n q r seq (some (seq, d))

/-- The engine has finished with a record (R298, R290): its status goes into the record, and the walk goes on or the chain
ends; a record that cannot be written ends it with status 1. Where the record was malformed or its data had faulted
already, that first fault stays the chain's: the spec does not say which (log 82). -/
def State.leaveRecord (n : HartName) (q : Nat) (h : Hart) (o : EngineOp) (r : Word) (d : List Byte) (seq : BitVec 48)
    (status : Nat) (va : Word) (s : State) : State :=
  match s.finishRecord (s.engineAgent h o) r d seq status with
  | (some at_, s) => if status = 1 ∨ status = 3 then s.endOperation n q o.token seq status va
      else s.endOperation n q o.token seq 1 at_
  | (none, s) => if status ≠ 0 then s.endOperation n q o.token seq status va
      else s.chainAt n q (transferOf d).next seq none

/-- One step at a record that the walk has reached (R298): a malformed one ends the chain, a queue fence waits for the
queues that it joins, a copy or a fill takes its next step. -/
def State.atRecord (n : HartName) (q : Nat) (h : Hart) (o : EngineOp) (r : Word) (d : List Byte) (seq : BitVec 48)
    (s : State) : State :=
  let t := transferOf d
  if t.malformed then s.leaveRecord n q h o r d seq 3 r
  else if t.kind = 2 ∧ !h.joined? q t.fmask o.ord then s
  else
    match s.perform (s.engineAgent h o) t.move o.run (if t.st then some t.saddr else none) seq with
    | (.going run, s) => s.setHead n q fun o => { o with run := some run }
    | (.ended status va, s) => s.leaveRecord n q h o r d seq status va

/-- CHAIN_RECORD (R298): the chain at the head of a queue reaches its next record, or takes the next step at the one that
it has reached (log 50); the chain ends where no record is left. -/
def execChainRecord (n : HartName) (q : Nat) (s : State) : Out :=
  match s.engineHead n q with
  | some (h, o) =>
    match o.work with
    | .chain r started last none =>
      .next (s.reachRecord n q h o r (if started then last else (h.queue q).cseq))
    | .chain r _ _ (some (seq, d)) => .next (s.atRecord n q h o r d seq)
    | _ => .next s
  | none => .next s

end Sys2Proof.Machine
end

