-- ==== Sys2Proof/Machine/Sched.lean ====
section
/-! DEFINITION. The cluster schedulers: the order of records, placing and starting gangs, holds, pre-emption
requests, and the end of harts and launches (R200 to R207, R212, R214, R397, R401). -/

namespace Sys2Proof.Machine

/-! ## What lies on a core (R205) -/

/-- What one resident hart takes of its core. -/
structure Seat where
  lanes : Nat
  tcmBase : Nat
  tcmUnits : Nat
  mat : Bool
  deriving DecidableEq, Repr

/-- The seat of a hart. -/
def Hart.seat (h : Hart) : Seat := ⟨h.grant.lanes, h.tcmBase, h.tcmUnits, h.matrixFlag⟩

/-- The seats taken on a core; an exited hart that a resumption brought back takes none (R99, R212). -/
def State.seats (s : State) (core : Nat) : List Seat :=
  (s.harts.filter fun h => h.core == core && h.resident && !h.seatless).map Hart.seat

/-- The lanes left on a core. -/
def lanesLeft (seats : List Seat) : Nat := 32 - seats.foldl (fun n t => n + t.lanes) 0

/-- A range of TCM units is free. -/
def unitsFree (seats : List Seat) (base n : Nat) : Bool :=
  decide (base + n ≤ 64) && seats.all fun t =>
    decide (base + n ≤ t.tcmBase ∨ t.tcmBase + t.tcmUnits ≤ base ∨ t.tcmUnits = 0 ∨ n = 0)

/-- The grants of the codes (R197). -/
def grantOf (code : Nat) : Grant := if code = 0 then .l8 else if code = 1 then .l16 else if code = 2 then .l24 else .l32

/-- The seat that a hart of a record finds beside others (R205): the largest grant that fits, and the first free
TCM units. -/
def Record.fit (r : Record) (seats : List Seat) : Option Seat :=
  if 4 ≤ seats.length ∨ seats.any Seat.mat then none
  else if r.mat then if seats = [] then some ⟨32, 0, r.tcm.toNat, true⟩ else none
  else
    match ([3, 2, 1, 0].filter fun k => decide (r.lmin.toNat ≤ k ∧ k ≤ r.lmax.toNat)).find? fun k =>
        decide ((grantOf k).lanes ≤ lanesLeft seats),
      (List.range 65).find? fun b => unitsFree seats b r.tcm.toNat with
    | some k, some b => some ⟨(grantOf k).lanes, b, r.tcm.toNat, false⟩
    | _, _ => none

/-- How many harts of a record fit beside others on one core, up to n. -/
def Record.room (r : Record) : Nat → List Seat → Nat
  | 0, _ => 0
  | n + 1, seats =>
    match r.fit seats with
    | some t => 1 + r.room n (t :: seats)
    | none => 0

/-- The seats of harts placed one after another on the cores of a list. -/
def Record.seatAll (r : Record) (s : State) : List (Nat × Seat) → List Nat → Option (List (Nat × Seat))
  | done, [] => some done
  | done, c :: t =>
    match r.fit (s.seats c ++ (done.filter fun p => p.1 == c).map Prod.snd) with
    | some seat => r.seatAll s (done ++ [(c, seat)]) t
    | none => none

/-- The next gang of a record fits on a cluster now (R202). -/
def State.fits (s : State) (cluster : Nat) (r : Record) : Bool :=
  r.capable cluster && decide (r.scr.toNat ≤ s.scratchLeft cluster) && decide (r.width * r.stages ≤ 16) &&
    decide (r.width * r.stages ≤
      (List.range 16).foldl (fun n c => n + r.room 4 (s.seats (16 * cluster + c))) 0)

/-! ## What can be placed (R202) -/

/-- The seat of a saved hart on a core: its TCM units at their offset, its grant (R205, R101). -/
def savedSeat (seats : List Seat) (h : Hart) (g : Grant) : Option Seat :=
  if 4 ≤ seats.length ∨ seats.any Seat.mat ∨ (h.matrixFlag ∧ seats ≠ []) ∨ lanesLeft seats < g.lanes ∨
      !unitsFree seats h.tcmBase h.tcmUnits then none
  else some ⟨g.lanes, h.tcmBase, h.tcmUnits, h.matrixFlag⟩

/-- The harts of a saved gang that need a core: those that have not exited. -/
def Saved.live (v : Saved) : List Hart := v.harts.filter fun h => h.run != .exited && h.run != .gone

/-- The grants of a saved gang may change: every hart stopped at a preferred point (R101, R387). -/
def Saved.regrants (v : Saved) : Bool := v.live.all fun h => h.run == .stopped .preferred

/-- The record that a saved gang was launched by (R341). -/
def State.recordOfSaved (s : State) (v : Saved) : Record := s.recordAt v.gang.recordPa

/-- The grants that a resumption may give a hart, the smallest first: its own, or where the grant may change each that
the record allows and whose deferral queue holds its records (R101, R205, R421). -/
def Hart.grants (free : Bool) (r : Record) (h : Hart) : List Grant :=
  if !free || h.matrixFlag then [h.grant]
  else ([0, 1, 2, 3].filter fun k => decide (r.lmin.toNat ≤ k ∧ k ≤ r.lmax.toNat ∧
    h.dq.length ≤ 64 * (grantOf k).lanes)).map grantOf

/-- Saved harts all find seats on the cores of a cluster (R202, R205). -/
def State.allSeated (s : State) (cluster : Nat) (free : Bool) (r : Record) : List (Nat × Seat) → List Hart → Bool
  | _, [] => true
  | done, h :: t =>
    match (h.grants free r).head? with
    | none => false
    | some g =>
      (List.range' (16 * cluster) 16).any fun c =>
        match savedSeat (s.seats c ++ (done.filter fun p => p.1 == c).map Prod.snd) h g with
        | some seat => s.allSeated cluster free r ((c, seat) :: done) t
        | none => false

/-- A saved gang may go to a cluster (R346, R386): class A where a migrate trap or an image of version 0x0002 asks
for it. -/
def State.mayResume (s : State) (cluster : Nat) (v : Saved) : Bool :=
  (classA cluster || (v.classB && v.reason == 0)) && (s.recordOfSaved v).capable cluster

/-- A candidate can be placed on a cluster now. -/
def State.canPlace (s : State) (cluster : Nat) (c : Candidate) : Bool :=
  match c with
  | .launch l => s.fits cluster (s.recordAt l.pa)
  | .saved v =>
    s.mayResume cluster v && decide (v.gang.scr ≤ s.scratchLeft cluster) &&
      s.allSeated cluster v.regrants (s.recordOfSaved v) [] v.live

/-- A held record bars a cluster from later records (R202). A resumption entry is none: R202 speaks of records alone, so
that one that stands first and cannot be placed is never held, though it stands ahead of the records behind it (the model's
choice, log 74). -/
def State.bars (s : State) (cluster : Nat) (c : Candidate) : Bool :=
  match c with
  | .launch l => l.held != [] && (s.recordAt l.pa).capable cluster
  | .saved _ => false

/-- A candidate is the first that its cluster can place, and no held record bars it (R202). -/
def State.isNext (s : State) (cluster : Nat) (c : Candidate) : Bool :=
  s.canPlace cluster c &&
    (s.candidates cluster).all fun d => !s.ahead d c || (!s.canPlace cluster d && !s.bars cluster d)

/-- The first placeable record of a cluster's order. -/
def State.nextLaunch (s : State) (cluster : Nat) : Option Launch :=
  s.launches.find? fun (l : Launch) =>
    (s.candidates cluster).contains (.launch l) && s.isNext cluster (.launch l)

/-- A freeze stops the scheduler of a cluster (R354). -/
def State.schedulerFrozen (s : State) (cluster : Nat) : Bool := s.freezes.any fun f => freezeCovers f (16 * cluster)

/-- The boot has failed, and no hart starts (R428). -/
def State.bootFailed (s : State) : Bool := s.control.bootFailure != 0

/-- A scheduler places gangs: no freeze covers its cluster, no checkpoint runs and the boot has not failed (R354, R428,
R432). -/
def State.schedules (s : State) (cluster : Nat) : Bool :=
  decide (cluster < Config.clusters) && s.checkpoint.isNone && !s.schedulerFrozen cluster && !s.bootFailed

/-! ## Placing a gang (R205, R214, R224, R232) -/

/-- A read by a scheduler at an address of a context, at the memory die (log 56); bytes that cannot be read are zero
(log 21). -/
def State.contextBytes (who : Requester) (x : Xlat) (va : Word) (n : Nat) (s : State) : List Byte × State :=
  match resolve (packageAgent who x) [] .load va n s with
  | (.ok (.device _ home _, _), s) => s.readDie who home n
  | (.ok (.host home, _), s) => (s.seenBytes who home n, s.request who home)
  | (_, s) => (List.replicate n 0, s)

/-- A scheduler's read of a record, or of an image, reaches its dies (R370, R372): what it does there. -/
def State.readRecord (cluster pa : Nat) (s : State) : State := (s.readDie (.scheduler cluster) pa 64).2
def State.readImage (cluster : Nat) (v : Saved) (s : State) : State := (s.readPa (.scheduler cluster) v.image v.size).2

/-- The entry address of a stage (R196). -/
def State.entryOf (who : Requester) (x : Xlat) (r : Record) (stage : Nat) (s : State) : Word × State :=
  if r.stab = 0 then (r.code, s)
  else
    let (d, s) := s.contextBytes who x (r.stab + BitVec.ofNat 64 (8 * stage)) 8 
    (BitVec.ofNat 64 (natOfBytes d), s)

/-- The TCM units of a seat read zero when they are allotted (R224). -/
def Core.clearUnits (t : Seat) (c : Core) : Core :=
  let lo := t.tcmBase * 4096
  let hi := lo + t.tcmUnits * 4096
  { c with tcm := c.tcm.filter fun b => !decide (lo ≤ b.1 ∧ b.1 < hi)
           tcmPoison := c.tcmPoison.filter fun g => !decide (lo ≤ g ∧ g < hi)
           tcmLoose := c.tcmLoose.filter fun a => !decide (lo ≤ a ∧ a < hi) }

/-- A hart as a launch resets and loads it (R25, R206, R396, R310). Its vector registers, which R25 leaves out, hold
zeros, the model's choice (log 6). -/
def launchedHart (n : HartName) (core : Nat) (seat : Seat) (r : Record) (rec : Word) (e : ContextEntry)
    (entry : Word) (g : Gang) (wmax : Nat) (now : Nat) : Hart :=
  let grant := if seat.lanes = 8 then Grant.l8 else if seat.lanes = 16 then .l16
    else if seat.lanes = 24 then .l24 else .l32
  let sp : Word := if seat.tcmUnits = 0 then 0
    else 0x007FFFFFFFFC0000#64 + BitVec.ofNat 64 ((seat.tcmBase + seat.tcmUnits) * 4096)
  let h : Hart :=
    { Hart.reset with
        name := n, core := core, run := .placed, pc := entry, priv := .user
        hartidx := BitVec.ofNat 4 n.idx, stage := BitVec.ofNat 3 (n.idx / r.width), gx := g.gx, gy := g.gy, gz := g.gz
        grant := grant, matrixFlag := r.mat, xlat := e.xlat
        trapvec := e.trapvec.extractLsb' 2 62, gtbase := e.gtbase.extractLsb' 12 52, stimecmp := e.stimecmp
        abandon := if e.abandon.toNat < 64 then 64 else e.abandon, grace := e.grace
        sup := { TrapBank.reset with stat := { TrapStat.reset with ie := true } }
        wq := BitVec.ofNat 13 (128 * seat.lanes), credit := min (seat.lanes / 2) wmax, joined := now
        tcmBase := seat.tcmBase, tcmUnits := seat.tcmUnits }
  ((h.wx 4 r.frame).wx 5 rec).wx 2 sp

/-- The harts of a placement, in index order. -/
def State.launchHarts (who : Requester) (g : Gang) (r : Record) (rec : Word) (e : ContextEntry) :
    List (Nat × Seat) → Nat → State → List Hart × State
  | [], _, s => ([], s)
  | (core, seat) :: t, i, s =>
    let (entry, s) := s.entryOf who e.xlat r (i / r.width)
    let s := s.modCore core (Core.clearUnits seat)
    let (hs, s) := State.launchHarts who g r rec e t (i + 1) s
    (launchedHart ⟨g.key, i⟩ core seat r rec e entry g s.wmax.toNat s.steps :: hs, s)

/-- Harts join the residents, with every word that stands as it was left (log 10): the first becomes the current one where
no resident hart is left. -/
def State.takeIn (hs : List Hart) (s : State) : State :=
  match hs.map fun h => { h with fenced := s.priors.length } with
  | [] => s
  | h :: t =>
    if s.hart.run = .gone ∧ s.parked = [] then { s with hart := h, parked := t }
    else { s with parked := s.parked ++ h :: t }

/-- The gang at place k of a grid (R205). -/
def Record.gangAt (r : Record) (l : Launch) (key cluster order : Nat) : Gang :=
  let ex := r.ex1.toNat + 1
  let ey := r.ey1.toNat + 1
  { Gang.reset with
      key := key, launch := some l.key, record := l.record, recordPa := l.pa
      gx := BitVec.ofNat 20 (l.next % ex), gy := BitVec.ofNat 20 (l.next / ex % ey)
      gz := BitVec.ofNat 20 (l.next / ex / ey), ex1 := r.ex1, ey1 := r.ey1, ez1 := r.ez1
      w := r.width, stages := r.stages, cluster := cluster, scr := r.scr.toNat, ctx := l.ctx
      basePrio := min r.prio.toNat l.ceil, order := order }

/-- The lines in the units that a gang reserves are written back and go (R232): which they are is a free choice, but no
more stay than the units that are left hold. -/
def State.displace (cluster scr : Nat) (s : State) : State :=
  if scr = 0 then s
  else
    let all := (s.cluster cluster).lines
    let there (l : Line) : Bool := Config.lineDisplaced s.steps l.base
    let more := (all.filter fun l => !there l).drop (32 * (s.scratchLeft cluster - scr))
    (all.filter there ++ more).foldl (fun s l => s.evict (.cache cluster) cluster l.base) s

/-- The write-backs of a placement (R214, R232): every dirty line of the other predecessor clusters; then, where a
predecessor lies elsewhere, the clean bytes of this cluster go; then the lines in the reserved units. -/
def State.placementFlush (cluster scr : Nat) (pcl : BitVec 48) (s : State) : State :=
  let others := (List.range Config.clusters).filter fun c => pcl.getLsbD c && c != cluster
  let s := others.foldl (fun s c => s.releaseAll (.cache c) c) s
  let s := if others = [] then s else s.acquire cluster
  s.displace cluster scr

/-- st of a record is written (R197). -/
def State.writeSt (who : Requester) (pa : Nat) (st : BitVec 2) (s : State) : State :=
  let old := (s.dieByte (pa + 62))
  s.writeDie who [(pa + 62, (old &&& 0xFC) ||| st.setWidth 8)]

/-- The record leaves its queue at the placement of its last gang (R205, R398). -/
def State.leaveQueue (l : Launch) (s : State) : State :=
  match l.queue with
  | .spawn _ => s
  | .hardware q =>
    let (e, s) := s.queueEntry q
    s.writePa .queueManager (s.queuePa q + 16) (bytesOf 8 (e.head + 1).toNat)

/-- What the placement of a gang of a launch does to the counts of R202: its own start afresh, and where the launch was
held those of every other record too. -/
def Launch.afresh (l k : Launch) : Launch := if l.held ≠ [] ∨ l.key = k.key then { k with first := [] } else k

/-- The placement of the next gang of a launch on the given cores of a cluster. -/
def State.placeGang (cluster : Nat) (l : Launch) (seats : List (Nat × Seat)) (s : State) : State :=
  let who : Requester := .scheduler cluster
  let (d, s) := s.readDie who l.pa 64
  let r := recordOf d
  let (e, s) := s.contextEntry l.ctx
  let g := r.gangAt l s.nextKey cluster s.steps
  let s := s.placementFlush cluster g.scr r.pcl
  let (hs, s) := s.launchHarts who g r l.record e seats 0
  let last := decide (r.gangs ≤ l.next + 1)
  let s := if l.next = 0 then s.writeSt who l.pa 2 else s
  let s := { s with
    gangs := s.gangs ++ [g], nextKey := s.nextKey + 1
    launches := s.launches.map fun (k : Launch) =>
      let k := l.afresh k
      if k.key = l.key then
        { k with next := k.next + 1, queued := !last, total := r.gangs, held := []
                 clusters := k.clusters ||| clusterBit cluster, latest := cluster }
      else k }
  let s := if last then s.leaveQueue l else s
  s.takeIn hs

/-- GANG_PLACEMENT (R201, R202, R205): the scheduler of a cluster places the next gang of the first record of its
order that it can place, on the cores that it chose (log 8). -/
def execGangPlacement (cluster : Nat) (cores : List Nat) (s : State) : Out :=
  if !s.schedules cluster then .next s
  else
    match s.nextLaunch cluster with
    | none => .next s
    | some l =>
      let r := s.recordAt l.pa
      if cores.length ≠ r.width * r.stages ∨ cores.any fun c => decide (16 ≤ c) then .next s
      else
        match r.seatAll s [] (cores.map fun c => 16 * cluster + c) with
        | none => .next s
        | some seats => .next (s.placeGang cluster l seats)

/-- GANG_START (R206): once every hart of a gang is resident they start together; a frozen scheduler starts none
(R354), nor does a package whose boot has failed (R428). -/
def execGangStart (key : Nat) (s : State) : Out :=
  let g := s.gang key
  if !s.schedulerFrozen g.cluster && !s.bootFailed && (List.range (g.w * g.stages)).all fun i =>
      s.harts.any fun h => decide (h.name = ⟨key, i⟩ ∧ h.run = .placed) then
    .next (s.mapHarts fun h => if h.name.gang = key ∧ h.run = .placed then { h with run := .running } else h)
  else .next s

/-- RECORD_HOLD (R202): the record that has stood first in a scheduler's order for 65 536 ns, placed nowhere in that
time, becomes held; a frozen scheduler holds none (R354). -/
def execRecordHold (cluster : Nat) (s : State) : Out :=
  if s.schedulerFrozen cluster then .next s
  else
    .next { s with launches := s.launches.map fun (l : Launch) =>
      match l.first.find? fun p => p.1 == cluster with
      | some (_, since) =>
        if s.standsFirst cluster l ∧ 65536 ≤ (s.time - since).toNat ∧ ¬ l.held.contains cluster then
          { l with held := cluster :: l.held }
        else l
      | none => l }

/-- ISSUE_WINDOW (R207). -/
def execIssueWindow (core : Nat) (s : State) : Out := .next (s.window core)

/-- BARRIER_COMPLETE (R216). -/
def execBarrierComplete (key : Nat) (s : State) : Out := .next (s.completeBarriers key)

/-! ## Save room and pre-emption requests (R203, R338, R397) -/

/-- Bytes of a hart's section in a save image (R345); a hart that stopped at a preferred point leaves its vector
registers out. -/
def Hart.sectionSize (h : Hart) : Nat :=
  let g := h.grant.lanes
  1280 + (if h.run = .stopped .preferred then 0 else 2048 * g) + 1024 * g + (40 * h.dq.length + 63) / 64 * 64 +
    4096 * h.tcmUnits + (if h.mode.isSome then 16384 else 0)

/-- Bytes of a gang's image (R345). -/
def State.imageSize (s : State) (g : Gang) : Nat :=
  4096 + (s.harts.filter fun h => h.name.gang == g.key && h.resident && h.run != .exited).foldl
    (fun n h => n + h.sectionSize) 0 + 4096 * g.scr

/-- The first place in a save region where an image of n bytes fits among the images there (R397). -/
def firstPlace (images : List (Nat × Nat)) (base size n : Nat) : Option Nat :=
  ((base :: images.map fun i => i.1 + i.2).filter fun a =>
    decide (base ≤ a ∧ a + n ≤ base + size) &&
      images.all fun i => decide (a + n ≤ i.1 ∨ i.1 + i.2 ≤ a)).foldl
    (fun best a => match best with
      | none => some a
      | some b => some (min a b)) none

/-- The images in a save region once the pre-emptions that have begun there are saved too, each in the first place that
it finds. -/
def State.imagesWith (s : State) (base size : Nat) : List Gang → List (Nat × Nat) → List (Nat × Nat)
  | [], images => images
  | g :: t, images =>
    let n := s.imageSize g
    s.imagesWith base size t
      (match firstPlace images base size n with
        | some a => (a, n) :: images
        | none => images)

/-- Where a gang's image fits in its context's save region beside the images there, and the state after the read of the
context's entry (R370, R397). -/
def State.savePlace (s : State) (g : Gang) : Option Nat × State :=
  let (e, t) := s.contextEntry g.ctx
  (firstPlace ((s.saved.filter fun v => v.gang.ctx == g.ctx).map fun v => (v.image, v.size))
    e.savebase.toNat e.savesize.toNat (s.imageSize g), t)

/-- There is room for a gang's image beside the images in its context's save region and those of the pre-emptions that
have begun: none is begun whose image does not fit (R397). -/
def State.saveRoom (s : State) (g : Gang) : Bool :=
  let e := (s.contextEntry g.ctx).1
  let base := e.savebase.toNat
  let size := e.savesize.toNat
  let begun := s.gangs.filter fun k => k.ctx == g.ctx && k.pre.isSome && k.key != g.key
  let saved := (s.saved.filter fun v => v.gang.ctx == g.ctx).map fun v => (v.image, v.size)
  (firstPlace (s.imagesWith base size begun saved) base size (s.imageSize g)).isSome

/-- A pre-emption request reaches a gang (R338, R342): the earlier deadline stands. -/
def State.requestPreempt (key : Nat) (s : State) : State :=
  s.modGang key fun g =>
    match g.pre with
    | some _ => g
    | none => { g with pre := some (s.newRequest g 0), waitRoom := false }

/-- The victims of a record on a cluster (R203), in order; a gang that is asked already is none. -/
def State.victims (s : State) (cluster base : Nat) : List Gang :=
  let all := s.gangs.filter fun g =>
    g.cluster == cluster && decide (g.basePrio < base) && !g.ended && g.pre.isNone && s.saveRoom g
  all.mergeSort fun a b => decide (a.basePrio < b.basePrio ∨ (a.basePrio = b.basePrio ∧ b.order ≤ a.order))

/-- The state without a gang: what its save would free. -/
def State.without (s : State) (key : Nat) : State :=
  { s with
      gangs := s.gangs.filter fun g => g.key != key
      parked := s.parked.filter fun h => h.name.gang != key
      hart := if s.hart.name.gang = key then { s.hart with run := .gone } else s.hart }

/-- The state once the gangs of a cluster that are asked to stop have gone. -/
def State.withoutAsked (s : State) (cluster : Nat) : State :=
  (s.gangs.filter fun g => g.cluster == cluster && g.pre.isSome).foldl (fun s g => s.without g.key) s

/-- The victims that must be asked, one after another, before a record's next gang fits; none where even all do not
suffice. A victim whose image no longer fits once those before it are asked is passed over (R203, R397). -/
def State.clear (cluster : Nat) (r : Record) : List Gang → State → Option (List Gang)
  | vs, s =>
    if (s.withoutAsked cluster).fits cluster r then some []
    else
      match vs with
      | [] => none
      | g :: t =>
        if s.saveRoom g then (State.clear cluster r t (s.requestPreempt g.key)).map fun l => g :: l
        else State.clear cluster r t s

/-- The victims of a record on a capable cluster. -/
def State.clearing (s : State) (r : Record) (base cluster : Nat) : Option (List Gang) :=
  if r.capable cluster then State.clear cluster r (s.victims cluster base) s else none

/-- The harts of a list of gangs: all that each was launched with, those that have exited among them, of which R203 says
nothing (the model's choice, log 75). -/
def hartsOf (gs : List Gang) : Nat := gs.foldl (fun n g => n + g.w * g.stages) 0

/-- The clusters whose schedulers read a launch's queue (R200): of a spawn queue its own alone. -/
def Launch.readers (l : Launch) : List Nat :=
  match l.queue with
  | .hardware _ => List.range Config.clusters
  | .spawn c => [c]

/-- A record asks for pre-emption: base priority 6 or 7, eligible, not placeable on any cluster that reads its queue, and
on none of them are the gangs that must go for it asked already (R203). -/
def State.urgent (s : State) (l : Launch) : Bool :=
  let r := s.recordAt l.pa
  l.queued && l.elig.isSome && decide (6 ≤ min r.prio.toNat l.ceil) &&
    l.readers.all fun c => !s.fits c r && !(s.withoutAsked c).fits c r

/-- The gangs that a cluster is to be asked for by a record: the cluster is one, of those that read its queue, that needs
the fewest victim harts. -/
def State.asks (s : State) (cluster : Nat) (l : Launch) : Option (List Gang) :=
  let r := s.recordAt l.pa
  let base := min r.prio.toNat l.ceil
  match if l.readers.contains cluster then s.clearing r base cluster else none with
  | none => none
  | some vs =>
    if l.readers.all fun c =>
        match s.clearing r base c with
        | some ws => decide (hartsOf vs ≤ hartsOf ws)
        | none => true
    then some vs
    else none

/-- SCHEDULER_PREEMPT_REQUEST (R203) on the cluster that was chosen; a frozen scheduler asks nothing (R354). Of several
records that ask for it at one time the one that was enqueued first is served: R203 gives no order among them
(log 85). -/
def execSchedulerPreemptRequest (cluster : Nat) (s : State) : Out :=
  if s.schedulerFrozen cluster then .next s
  else
    match (s.launches.filter s.urgent).findSome? (s.asks cluster) with
    | some vs =>
      .next (vs.foldl (fun s g => s.requestPreempt g.key) s)
    | none => .next s

/-- PREEMPT_DELIVERY (R397): a request that waited for save room reaches its gang once there is room. -/
def execPreemptDelivery (key : Nat) (s : State) : Out :=
  let g := s.gang key
  if g.waitRoom ∧ g.pre.isNone ∧ s.saveRoom g = true then .next (s.requestPreempt key) else .next s

/-! ## The end of harts and launches (R212, R214, R401) -/

/-- A gang leaves its cores: its harts are resident no more, and the network of its cluster holds no data for it
(R25, R169). -/
def State.removeGang (key : Nat) (s : State) : State :=
  let rest := s.parked.filter fun h => h.name.gang != key
  let s := s.modCluster (s.gang key).cluster fun k => { k with multicast := k.multicast.filter fun m => m.gang != key }
  let s := { s with gangs := s.gangs.filter fun g => g.key != key }
  if s.hart.name.gang ≠ key then { s with parked := rest }
  else
    match rest with
    | h :: t => { s with hart := h, parked := t }
    | [] => { s with hart := { s.hart with run := .gone }, parked := [] }

/-- HART_RESOURCE_RELEASE (R212): an exited hart whose engine queues are empty frees its core; the gang goes with
its last hart, and its scratch footprint with it. -/
def execHartResourceRelease (n : HartName) (s : State) : Out :=
  match s.findHart n with
  | some h =>
    if h.run = .exited ∧ (h.eq.toList.all fun q => q.ops.isEmpty) = true then
      let s := s.modHart n fun h => { h with run := .gone }
      if s.harts.all fun k => k.name.gang != n.gang || k.run == .gone then .next (s.removeGang n.gang) else .next s
    else .next s
  | none => .next s

/-- A notification joins the ring of its context (R401): the record and the time of step 2. -/
def State.notify (ctx : Nat) (rec : Word) (s : State) : State :=
  let entry := (rec, s.time)
  if s.rings.any fun p => p.1 == ctx then
    { s with rings := s.rings.map fun p =>
        if p.1 = ctx then (p.1, { p.2 with waiting := p.2.waiting ++ [entry] }) else p }
  else { s with rings := s.rings ++ [(ctx, ⟨0, 0, 0, [entry]⟩)] }

/-- END_OF_LAUNCH (R214): when every gang of a launch has ended and left its cores; the scheduler of the cluster that
placed or resumed one of its gangs last acts (log 56). A next that names no record to
decrement (it does not translate to device memory, or is not a multiple of 64 bytes) is left alone (log 60). -/
def execEndOfLaunch (key : Nat) (s : State) : Out :=
  match s.launches.find? fun (l : Launch) => l.key == key with
  | none => .next s
  | some l =>
    if l.queued ∨ l.ended ≠ l.total ∨ (s.gangs.any fun g => g.launch == some key) = true then .next s
    else
      let who : Requester := .scheduler l.latest
      let r := s.recordAt l.pa
      let s := s.readRecord l.latest l.pa
      let hn := r.hn || l.doubleTrap
      let ran := (List.range Config.clusters).filter fun c => l.clusters.getLsbD c
      let s := if hn then ran.foldl (fun s c => s.releaseAll (.cache c) c) s else s
      let s := s.writeSt who l.pa 3
      let s := if hn then s.notify l.ctx l.record else s
      let s :=
        if r.next = 0 ∨ r.next.extractLsb' 0 6 ≠ 0 then s
        else
          let (e, s) := s.contextEntry l.ctx
          match s.contextHome who e.xlat r.next 64 with
          | (some a, s) => (s.joinAt who a l.clusters).2
          | (none, s) => s
      .next { s with launches := s.launches.filter fun (k : Launch) => k.key != key }

/-- COMPLETION_ENTRY (R401): the entry is written when the ring has room, then vector 0 is signalled. -/
def execCompletionEntry (ctx : Nat) (s : State) : Out :=
  match s.rings.find? fun p => p.1 == ctx with
  | none => .next s
  | some (_, ring) =>
    match ring.waiting with
    | [] => .next s
    | (rec, time) :: rest =>
      let (e, s) := s.contextEntry ctx
      let n := e.cnum.toNat + 1
      if (ring.producer + 1) % n = ring.consumer % n then .next s
      else
        let phase : Word := if ring.wraps % 2 = 0 then 1 else 0
        let data := bytesOf 8 ((rec &&& ~~~63#64) ||| phase).toNat ++ bytesOf 8 time.toNat
        let s := s.writePa .host (0x800000000000 + (e.cring.toNat + 16 * ring.producer) % 0x800000000000) data
        let next := ring.producer + 1
        let ring := { ring with
          producer := if next = n then 0 else next, wraps := if next = n then ring.wraps + 1 else ring.wraps
          waiting := rest }
        .next (({ s with rings := s.rings.map fun p => if p.1 = ctx then (ctx, ring) else p } : State).send
          (.msix ctx 0))

end Sys2Proof.Machine
end

