-- ==== Sys2Proof/Machine/Save.lean ====
section
/-! DEFINITION. Interrupt entry and the timer, forced stops, saving a gang and resuming it, and the waits that end
as events (R325, R331, R337 to R347, R385 to R389). -/

namespace Sys2Proof.Machine

/-! ## Interrupts (R325, R331) -/

/-- INTERRUPT_ENTRY (R325, R328): the interrupt that is due at a hart is taken, where no debug stop and no pre-emption
stop comes first. One that waits in an instruction has not retired it; a WLWAIT or a WFI retires before it (R261,
R337). -/
def execInterruptEntry (n : HartName) (s : State) : Out :=
  .next (s.asHart n fun s =>
    let h := s.hart
    if h.run ≠ .running ∨ h.frozen ∨ s.debugDue ∨ h.breakpointDue.isSome ∨ s.stopDue.isSome ∨ h.inFlight ∨ h.stalled then s
    else
      match s.interruptDue s.hart with
      | some (code, tval) => s.takeTrap true 0 code tval
      | none => s)

/-- TIMER_INTERRUPT (R331): time reaches the compare values that lie within the given nanoseconds; it never falls
(R21). -/
def execTimerInterrupt (ns : Nat) (s : State) : Out :=
  .next { s with time := timeAfter s.time ns }

/-! ## Forced stops (R338, R339) -/

/-- FORCED_STOP (R339): the grace period is over. A wait ends at once. Otherwise, with groups left to commit, the next
instruction counts as in flight: a vector instruction commits that many groups and stops there, a multiply takes that many
array steps (log 16). -/
def execForcedStop (n : HartName) (groups : Nat) (s : State) : Out :=
  .next (s.asHart n fun s =>
    if s.hart.run ≠ .running ∨ s.hart.frozen ∨ s.stopDue ≠ some .forced then s
    else if groups = 0 ∨ s.hart.wait.isSome = true ∨ s.hart.linkHold.isSome = true then s.stopSelf .forced
    else s.onHart fun h => { h with stopAt := some ⟨groups, none⟩ })

/-- REPLY_ABANDON (R339, R110, R245): of the load in flight at a forced stop the replies from a group on are
abandoned. -/
def execReplyAbandon (n : HartName) (group : Nat) (s : State) : Out :=
  .next (s.asHart n (State.onHart fun h => { h with stopAt := h.stopAt.map fun k => { k with oldest := some group } }))

/-! ## The save image (R344, R345) -/

/-- The bytes of a list of words. -/
def wordBytes (l : List Word) : List Byte := l.flatMap fun w => bytesOf 8 w.toNat

/-- n bytes that the image gives no meaning to a reader. -/
def opaqueBytes (draw from_ n : Nat) : List Byte := (List.range n).map fun i => Config.imageByte draw (from_ + i)

/-- The hart-context CSRs in increasing number (R345). -/
def contextCsrs : List (BitVec 12) :=
  [0x001, 0x002, 0x010, 0x011, 0x012, 0x013, 0x014, 0x015, 0x016, 0x017, 0x022, 0x030, 0x031, 0x032, 0x100, 0x101,
   0x103, 0x104, 0x105, 0x110, 0x111, 0x113, 0x200, 0x201, 0x210] ++ (List.range 120).map (fun i => BitVec.ofNat 12 (0x240 + i)) ++
  [0x300, 0x301, 0x302, 0x303, 0x308, 0x309, 0x30A,
   0x30B, 0x310, 0x311, 0x312, 0x313, 0x318, 0x319, 0x31A, 0x31B, 0x341, 0x400, 0x401, 0x402, 0x404, 0x405, 0x406,
   0x407, 0x408, 0x409, 0x40A, 0x40B, 0x40C, 0x40D, 0x40E, 0x40F] ++
  [0x800, 0x801, 0x802, 0x803, 0x804, 0x805, 0x806, 0x807, 0x808, 0x809, 0x80A, 0x80B, 0x80C, 0x80D, 0x80E, 0xC00,
   0xC01, 0xC02, 0xC03, 0xC04]

/-- The words of the sequencer in an image: counts, slots, masks, and of a loop its base, depth, indices and position. -/
def Sequencer.words (q : Sequencer) : List Word :=
  q.counts.toList.map (BitVec.setWidth 64) ++
    (q.slot0.toList ++ q.slot1.toList).flatMap (fun t => [t.reg.setWidth 64, t.stride]) ++ [q.first, q.last] ++
    match q.loop with
    | some l =>
      [l.base, BitVec.ofNat 64 l.depth] ++ l.index.toList.map (BitVec.setWidth 64) ++
        [BitVec.ofNat 64 (l.pos + 2 ^ 16 * l.body.length + 2 ^ 32 * q.suspended.toNat)]
    | none => List.replicate 9 0

/-- The scalar part of a section (R345): what lies past its 1 024 bytes is left to the opaque part (log 23). -/
def State.scalarPart (s : State) (h : Hart) : List Byte :=
  (wordBytes ((0 :: h.x.toList.drop 1) ++ [h.pc, h.hstat] ++ contextCsrs.map (fun c => (csrRead h s c).getD 0) ++
    h.seqr.words ++ h.tm.toList.flatMap Vector.toList ++
    [h.gate.pc, h.gate.priv.setWidth 64, h.gate.mmode.setWidth 64])).take 1024

/-- The first word of a deferral record in an image (R345): index, width and value count. -/
def Deferred.head (r : Deferred) : Word :=
  BitVec.ofNat 64 (r.index.toNat + 2 ^ 32 * r.ew.code.toNat + 2 ^ 35 * ((r.values.length - 1) % 4))

/-- A deferral record in an image (R345). -/
def Deferred.bytes (r : Deferred) : List Byte :=
  wordBytes (r.head :: (List.range 4).map fun i => r.values.getD i 0)

/-- The section of a hart, as the saving scheduler reads it (R345). -/
def State.section_ (s : State) (who : Requester) (h : Hart) (draw from_ : Nat) : List Byte :=
  let g := h.grant.lanes
  let regs := if h.run = .stopped .preferred then []
    else h.v.toList.flatMap fun r => wordBytes (r.toList.take (8 * g))
  let masks := h.m.toList.flatMap fun r => wordBytes (r.toList.take (16 * g))
  let dq := h.dq.flatMap Deferred.bytes
  let pad := List.replicate ((64 - dq.length % 64) % 64) 0
  let tcm := (List.range (4096 * h.tcmUnits)).map fun i => s.seenTcm who h.core (4096 * h.tcmBase + i)
  s.scalarPart h ++ regs ++ masks ++ dq ++ pad ++ tcm ++
    opaqueBytes draw (from_ + 65536) (256 + if h.mode.isSome then 16384 else 0)

/-- The sections of harts one after another from an offset, with their directory entries. -/
def State.sections (s : State) (who : Requester) (draw : Nat) : List Hart → Nat → List Byte × List (Nat × Word)
  | [], _ => ([], [])
  | h :: t, off =>
    let b := s.section_ who h draw off
    let (r, dir) := s.sections who draw t (off + b.length)
    (b ++ r, (h.name.idx, BitVec.ofNat 64 (off + 2 ^ 32 * (b.length / 64))) :: dir)

/-- The header of an image (R344). -/
def imageHeader (g : Gang) (reason : BitVec 4) (mh : Nat) (size : Nat) (now : Word) : List Byte :=
  let version : Nat := if classA g.cluster then 2 else 1
  bytesOf 8 (version + 2 ^ 16 * (g.w * g.stages - 1) + 2 ^ 20 * reason.toNat + 2 ^ 24 * mh +
    2 ^ 32 * (size / 64)) ++
    wordBytes [g.record, gangWord g.gx g.gy g.gz, now, 0, 0, 0, 0]

/-- The image of a gang (R344, R345). The directory's entry of a hart that has exited, which has no section, is zero:
neither rule says so (log 86). -/
def State.image (s : State) (g : Gang) (hs : List Hart) (reason : BitVec 4) (mh : Nat) : List Byte :=
  let who : Requester := .scheduler g.cluster
  let (body, dir) := s.sections who s.steps hs 4096
  let scratch := (List.range (4096 * g.scr)).map fun i => s.scratchByte who g i
  let entries := wordBytes ((List.range 16).map fun i => ((dir.find? fun e => e.1 == i).map Prod.snd).getD 0)
  imageHeader g reason mh (4096 + body.length + scratch.length) s.time ++ entries ++
    opaqueBytes s.steps 192 3904 ++ body ++ scratch

/-! ## The save (R341) -/

/-- The harts of a gang in index order. -/
def State.gangHarts (s : State) (g : Gang) : List Hart :=
  (List.range (g.w * g.stages)).filterMap fun i => s.findHart ⟨g.key, i⟩

/-- A hart that will not hold up its gang's save: stopped, exited or gone. -/
def Hart.settled (h : Hart) : Bool :=
  match h.run with
  | .stopped _ | .exited | .gone => true
  | .placed | .running => false

/-- The lowest hart index that took a migrate trap (R385). -/
def migrator (hs : List Hart) : Option Nat := (hs.find? Hart.migrating).map fun h => h.name.idx

/-- The firmware copies that a migration's image holds for hart mh (R385). -/
def Hart.noteMigration (mh : Option Nat) (h : Hart) : Hart :=
  if mh = some h.name.idx then
    { h with fw := { h.fw with cause := causeWord false 0 0x07, epc := h.pc, tval := h.word.setWidth 64 } }
  else h

/-- A save reads a hart's TCM allotment and the vector registers that its section holds, whose errors it meets (R239,
R345). -/
def State.readSection (who : Requester) (h : Hart) (s : State) : State :=
  let s := s.readLocal who (.tcm h.core (4096 * h.tcmBase)) (4096 * h.tcmUnits)
  if h.run = .stopped .preferred then s
  else (List.range 32).foldl (fun s r => s.readLocal who (.register h.name r 0) (64 * h.grant.lanes)) s

/-- The gang is saved at a place of its region: the release, the image, and the entry for its resumption (R341). -/
def State.saveAt (g : Gang) (r : PreReq) (at_ : Nat) (s : State) : State :=
  let who : Requester := .scheduler g.cluster
  let s := s.releaseAll who g.cluster
  let mh := migrator (s.gangHarts g)
  let hs := (s.gangHarts g).map (Hart.noteMigration mh)
  let live := hs.filter fun h => h.run != .exited && h.run != .gone
  let s := (live.foldl (fun s h => s.readSection who h) s).readLocal who (.scratch g.key 0) (4096 * g.scr)
  let g := s.gang g.key
  let bytes := s.image g live r.reason (mh.getD 0)
  let s := s.writePa who at_ bytes
  let marks := live.flatMap fun h =>
    ((s.core h.core).tcmPoison.filter fun p =>
      decide (4096 * h.tcmBase ≤ p ∧ p < 4096 * (h.tcmBase + h.tcmUnits))).map fun p => (h.name.idx, p)
  let v : Saved :=
    { gang := { g with pre := none, waitRoom := false }, harts := hs, tcmMarks := marks, image := at_, size := bytes.length
      bytes := bytes, reason := r.reason, classB := !classA g.cluster, elig := s.time }
  ({ s with saved := s.saved ++ [v] } : State).removeGang g.key |>.settlePree g.key

/-- GANG_SAVE (R341, R397): the last hart of the gang has stopped and its engine queues stand at chunk boundaries
(R305). A gang that a migrate trap stopped and whose image has no room signals vector 1 once, to the PF and to the
function of its context (R402, R419; log 39), and stays. -/
def execGangSave (key : Nat) (s : State) : Out :=
  let g := s.gang key
  match g.pre with
  | none => .next s
  | some r =>
    let hs := s.gangHarts g
    if hs = [] ∨ !hs.all Hart.settled ∨ !(hs.any fun h => h.run != .exited && h.run != .gone) ∨
        (hs.any fun h => h.eq.toList.any fun q => q.ops.any EngineOp.inChunk) ∨
        (s.freezes.any fun f => freezeCovers f (16 * g.cluster)) then .next s
    else
      let (place, t) := s.savePlace g
      match place with
      | some a => .next (t.saveAt g r a)
      | none =>
        if g.waitRoom ∨ r.reason ≠ 1 then .next s
        else
          let s := t
          let s := (s.modGang key fun g => { g with waitRoom := true }).send (.msix 0 1)
          .next (if g.ctx = 0 then s else s.send (.msix g.ctx 1))

/-! ## Resumption (R347, R387, R388) -/

/-- The bytes of an image as its region holds them. -/
def State.imageBytes (s : State) (v : Saved) : List Byte :=
  (runsAt v.image v.size).flatMap fun r =>
    match s.homeOf r.1 with
    | some a => s.dieBytes a r.2
    | none => List.replicate r.2 0

/-! What a resumption from a modified image leaves is unspecified within the gang's own context (R346): everything that
the image holds is free but what ties the gang to its context: its names, level, translation and tables. -/

/-- A free operation of an engine queue, under the hart's own translation and level. -/
def alteredOp (x : Xlat) (p : Priv) (w : Nat → Word) : EngineOp :=
  let work : EngineWork := match (w 0).toNat % 4 with
    | 0 => .copy (w 1) (w 2) ((w 3).setWidth 32) ((w 0).getLsbD 2)
    | 1 => .fill (w 1) (w 2) ((w 3).setWidth 32)
    | 2 => .chain (w 1) false 0 none
    | _ => .fence ((w 1).setWidth 4)
  { work := work, ord := (w 4).toNat, seq := (w 5).setWidth 48, token := (w 6).setWidth 5
    stamp := if (w 7).getLsbD 0 then some (w 8) else none, xlat := x, priv := p
    mclass := w 9 &&& 0x7FFF0003#64, issued := w 10, run := none }

/-- A free engine queue, with at most the operations that it has room for (R288, R293). -/
def alteredEngine (x : Xlat) (p : Priv) (w : Nat → Word) : EngineQueue :=
  { cstamp := w 0, cseq := (w 1).setWidth 48, fault := (w 2).getLsbD 0, code := (w 3).setWidth 8
    faultSeq := (w 4).setWidth 48, faultToken := if (w 5).getLsbD 0 then some ((w 6).setWidth 5) else none, qfadr := w 7
    ops := (List.range ((w 8).toNat % 17)).map fun i => alteredOp x p fun j => w (9 + 11 * i + j) }

/-- A free sequencer; its loop, if any, has to fetch its body again. -/
def Sequencer.altered (w : Nat → Word) : Sequencer :=
  let slot (i : Nat) : StrideSlot := ⟨(w i).setWidth 5, w (i + 1)⟩
  { counts := Vector.ofFn fun i : Fin 6 => (w i.val).setWidth 32
    slot0 := Vector.ofFn fun i : Fin 6 => slot (10 + 2 * i.val), slot1 := Vector.ofFn fun i : Fin 6 => slot (30 + 2 * i.val)
    first := w 50, last := w 51, suspended := (w 52).getLsbD 0
    loop := if (w 53).getLsbD 0 then
        let n := 1 + (w 54).toNat % 64
        some { base := w 55, body := List.replicate n 0, depth := 1 + (w 56).toNat % 6
               index := Vector.ofFn fun i : Fin 6 => (w (57 + i.val)).setWidth 32, pos := (w 63).toNat % n, stale := true
               changed := [] }
      else none }

/-- A free trap bank, whose status brings back a level of at most that of the bank. -/
def alteredBank (firmware : Bool) (w : Nat → Word) : TrapBank :=
  { cause := w 0, epc := w 1, tval := w 2, vpc := none
    stat := ⟨if firmware then (w 3).extractLsb' 0 2 else (w 3).extractLsb' 0 1 |>.setWidth 2, (w 3).getLsbD 2, (w 3).getLsbD 3, (w 3).extractLsb' 4 7, (w 3).getLsbD 11,
      (w 3).getLsbD 12, (w 3).getLsbD 13⟩ }

/-- A free deferral queue, which the grant holds. -/
def alteredQueue (lanes : Nat) (w : Nat → Word) : List Deferred :=
  (List.range ((w 0).toNat % (64 * lanes + 1))).map fun i =>
    let j := 8 * i
    ⟨(w (j + 1)).setWidth 32, (ewOf ((w (j + 2)).setWidth 3)).getD .e64,
      (List.range (1 + (w (j + 3)).toNat % 4)).map fun k => w (j + 4 + k)⟩

/-- Free debug CSRs, but for the bits that the spec keeps zero, and with EBREAK and every unit off, whose stops would
freeze other contexts (R346, R354); the model's own records of a step or a stop stay. -/
def DebugRegs.altered (w : Nat → Word) (d : DebugRegs) : DebugRegs :=
  let ctl (c : Word) : BitVec 8 :=
    (if 16 < (c.extractLsb' 3 5).toNat then 0b10000#5 ++ c.extractLsb' 0 3 else c.setWidth 8) &&& ~~~1#8
  { d with
      ebk := false, step := (w 0).getLsbD 1, tren := (w 0).getLsbD 2, tmode := (w 0).getLsbD 3
      scope := if (w 0).extractLsb' 4 2 = 3 then 0 else (w 0).extractLsb' 4 2
      dpc := w 1, cause := (w 2).setWidth 4, unit := (w 2).extractLsb' 4 2, skid := (w 2).extractLsb' 8 16
      dbp := Vector.ofFn fun i : Fin 4 => w (3 + i.val) &&& ~~~3#64, dwa := Vector.ofFn fun i : Fin 4 => w (7 + i.val)
      dwc := Vector.ofFn fun i : Fin 4 => ctl (w (11 + i.val)) }

/-- The state of a hart that a modified image leaves (R346). -/
def Hart.scramble (draw : Nat) (h : Hart) : Hart :=
  let at_ (base i : Nat) : Word := Config.alteredWord draw h.name.idx (base + i)
  let w (i : Nat) : Word := at_ 0 i
  let vt : Option TypeState :=
    if (w 40).getLsbD 0 then none
    else some ⟨(ewOf ((w 40).extractLsb' 1 3)).getD .e64, (w 40).extractLsb' 4 2⟩
  { h with
      pc := w 0, x := Vector.ofFn fun i : Fin 32 => if i = 0 then 0 else w (1 + i.val), gated := (w 39).getLsbD 0
      flags := (w 41).setWidth 7, flagEn := (w 42).setWidth 7, srgen := (w 43).setWidth 32, instret := w 44
      fm := Vector.ofFn fun i : Fin 8 => (w (50 + i.val)).setWidth 24
      mid := (w 45).setWidth 3, mmode := (w 46).setWidth 2, vprog := (w 48).setWidth 7, vprogPc := w 49, vtype := vt
      vl := BitVec.ofNat 32 (match vt with
        | some t => (w 47).toNat % (vlmax h.grant t + 1)
        | none => 0)
      v := Vector.ofFn fun r : Fin 32 => Vector.ofFn fun i : Fin 256 => at_ 10000 (256 * r.val + i.val)
      m := Vector.ofFn fun r : Fin 8 =>
        if r = 0 then maskOnes else Vector.ofFn fun i : Fin 512 => at_ 20000 (512 * r.val + i.val)
      dq := alteredQueue h.grant.lanes (at_ 1000000)
      mode := if h.matrixFlag && (w 60).getLsbD 0 then
          some ⟨if (w 60).getLsbD 1 then .ws else .rs, (w 60).extractLsb' 2 2, (w 60).extractLsb' 4 2, (w 60).getLsbD 6⟩
        else none
      mchain := ⟨(w 61).extractLsb' 0 2, (w 61).extractLsb' 2 2, (w 61).extractLsb' 4 4⟩
      tile := ⟨(w 62).extractLsb' 0 8, (w 62).extractLsb' 8 6, (w 62).extractLsb' 16 13⟩
      cells := Vector.ofFn fun i : Fin 512 => at_ 30000 i.val, heldFlags := (w 63).setWidth 7
      msc := (w 64).setWidth 2, moff := (w 65).setWidth 15, rcount := (w 66).setWidth 6
      tm := Vector.ofFn fun k : Fin 15 => Vector.ofFn fun i : Fin 8 =>
        at_ 31000 (8 * k.val + i.val) &&& tensorMapMask i.val
      seqr := Sequencer.altered (at_ 32000), gate := { h.gate with pc := w 67, mmode := (w 68).setWidth 2 }
      sup := alteredBank false (at_ 33000), fw := alteredBank true (at_ 34000), sscratch := w 69
      trapvec := (w 117).setWidth 62
      hartidx := (w 119).setWidth 4, stage := (w 120).setWidth 3
      gx := (w 121).setWidth 20, gy := (w 122).setWidth 20, gz := (w 123).setWidth 20
      tie := (w 70).getLsbD 0, swe := (w 70).getLsbD 1, eve := (w 70).getLsbD 2, swp := (w 70).getLsbD 3
      sevent := (w 71).setWidth 9, stimecmp := w 72
      eq := Vector.ofFn fun k : Fin 4 => alteredEngine h.xlat h.priv (at_ (40000 + 5000 * k.val))
      placed := (w 124).toNat, unsure := []
      pending := ((List.range' 1 31).filter fun r => (w (73 + r)).getLsbD 0).map (BitVec.ofNat 5)
      abandon := if ((w 111).extractLsb' 0 16).toNat < 64 then 64 else (w 111).extractLsb' 0 16
      grace := (w 111).extractLsb' 16 32, dbg := h.dbg.altered (at_ 35000)
      arrGang := if (w 112).getLsbD 0 then some (w 113).toNat else none
      arrStage := if (w 112).getLsbD 1 then some (w 114).toNat else none
      arrayAt := if (w 115).getLsbD 0 then (w 116).toNat else 0, vprogs := []
      wq := if (w 110).toNat % 4097 < 256 then 256 else BitVec.ofNat 13 ((w 110).toNat % 4097) }

/-- A free stream, its buffer in the gang's scratchpad of scr units: the record's fields, the
bytes in the buffer and the integrator. -/
def alteredStream (scr : Nat) (w : Nat → Word) : Stream :=
  let units := max 1 (16 * scr)
  let cap := 1 + (w 0).toNat % units
  let icl := (w 1).toNat % 65536
  { ph := (w 2).extractLsb' 0 4, pp := (w 2).extractLsb' 4 4, ch := (w 2).extractLsb' 8 4, cp := (w 2).extractLsb' 12 4
    boff := (w 3).toNat % (units - cap + 1), cap := cap, mx := (w 4).toNat % 65536, spt := (w 5).toNat % 256
    kp := (w 6).toNat % 256, ki := (w 7).toNat % 256, icl := icl, wf := (w 8).toNat % 32, wc := (w 9).toNat % 32
    buf := (List.range ((w 10).toNat % (256 * cap + 1))).map fun i => (w (12 + i)).setWidth 8
    integ := min (max (w 11).toInt (-(icl : Int))) icl, frz := (w 11).getLsbD 0 }

/-- The context of a gang that a modified image leaves (R346): its streams, its barriers and its scratchpad. -/
def Gang.scramble (draw : Nat) (g : Gang) : Gang :=
  let at_ (base i : Nat) : Word := Config.alteredWord draw 16 (base + i)
  { g with
      scratch := [], scratchPoison := []
      barGen := (at_ 0 0).toNat, stageGen := Vector.ofFn fun i : Fin 8 => (at_ 0 (1 + i.val)).toNat
      bctlU := (at_ 0 9).setWidth 2
      gx := (at_ 0 10).setWidth 20, gy := (at_ 0 11).setWidth 20, gz := (at_ 0 12).setWidth 20
      streams := Vector.ofFn fun k : Fin 16 =>
        if g.scr = 0 ∨ (at_ 0 (16 + k.val)).getLsbD 0 then none
        else some (alteredStream g.scr (at_ (10000000 * (k.val + 1)))) }

/-- A hart as a resumption restores it (R347, R388): its waits and wake line gone, what it fetched and translated
forgotten, a loop's body to be fetched again (R95); vector registers that were not saved are unspecified (R129), and mask
bits above the smaller grant are zero (R130). vl is as it was saved, though a smaller grant may have a smaller VLMAX
(log 55). An exited hart comes back for its engine queues alone. Of the chunks of an engine operation that were written
before the save none is written again, which R305 allows but does not ask for (the model's choice, log 50). -/
def Hart.resume (core : Nat) (grant : Grant) (weight now : Nat) (h : Hart) : Hart :=
  if h.run = .exited ∨ h.run = .gone then { h with core := core, seatless := true }
  else
    let kept := 16 * min h.grant.lanes grant.lanes
    { h with
        core := core, run := .running, frozen := false, wake := none, wait := none, linkHold := none, partLoad := none
        tlb := [], ibuf := [], early := [], migrating := false, quiet := false, stopAt := none, fate := .none, credit := weight, issued := 0, joined := now
        seqr := { h.seqr with loop := h.seqr.loop.map fun l => { l with stale := true } }
        grant := grant, unsure := if h.run = .stopped .preferred then List.range 32 else h.unsure
        m := Vector.ofFn fun r : Fin 8 =>
          if r = 0 then h.m[r] else Vector.ofFn fun i : Fin 512 => if i.val < kept then h.m[r][i] else 0 }

/-- The places of a resumption: each live hart's core and grant. -/
structure Seating where
  core : Nat
  grant : Grant
  deriving DecidableEq, Repr

/-- The seats of a resumption on the given cores with the given grant codes; grants stand unless every hart stopped
at a preferred point (R101, R205). -/
def State.reseat (s : State) (cluster : Nat) (free : Bool) (r : Record) :
    List (Nat × Seat) → List Hart → List (Nat × Nat) → Option (List (HartName × Seating))
  | _, [], [] => some []
  | done, h :: t, (c, code) :: rest =>
    let g := if free then grantOf code else h.grant
    let core := 16 * cluster + c
    if 16 ≤ c ∨ g ∉ h.grants free r then none
    else
      match savedSeat (s.seats core ++ (done.filter fun p => p.1 == core).map Prod.snd) h g with
      | none => none
      | some seat =>
        (s.reseat cluster free r ((core, seat) :: done) t rest).map fun l => (h.name, ⟨core, g⟩) :: l
  | _, _, _ => none

/-- TCM contents and their poison marks go with a hart to its new core (R224, R240). -/
def State.moveTcm (h : Hart) (saved : List Byte) (marks : List Nat) (core : Nat) (s : State) : State :=
  s.modCore core fun c =>
    let k := c.clearUnits ⟨0, h.tcmBase, h.tcmUnits, false⟩
    { k with tcm := Memory.putAll k.tcm (cellsFrom (4096 * h.tcmBase) saved), tcmPoison := marks ++ k.tcmPoison }

/-- The TCM bytes of a hart in its image: they follow the deferral queue of its section (R345). -/
def Saved.tcmBytes (v : Saved) (h : Hart) : List Byte :=
  let before := (v.live.takeWhile fun k => k.name != h.name).foldl (fun n k => n + k.sectionSize) 4096
  let g := h.grant.lanes
  let at_ := before + 1024 + (if h.run = .stopped .preferred then 0 else 2048 * g) + 1024 * g +
    (40 * h.dq.length + 63) / 64 * 64
  (v.bytes.drop at_).take (4096 * h.tcmUnits)

/-- Tokens that collectives wrote while the gang was saved (R416). -/
def State.lateTokens (key : Nat) (s : State) : State :=
  let mine := s.late.filter fun t => t.owner.gang == key
  mine.foldl (fun s t => s.modHart t.owner (Hart.writeToken t.reg t.value))
    { s with late := s.late.filter fun t => t.owner.gang != key }

/-- The harts of a saved gang at their places, their TCM with them; where the image was modified all of it is free
(R346). -/
def State.bringBack (cluster : Nat) (v : Saved) (same : Bool) (seats : List (HartName × Seating)) (s : State) :
    List Hart × State :=
  let hs := v.harts.map fun h =>
    let h := if same then h else h.scramble s.steps
    let seat := ((seats.find? fun p => p.1 == h.name).map Prod.snd).getD ⟨16 * cluster, h.grant⟩
    h.resume seat.core seat.grant (min (h.wq.toNat / 256) s.wmax.toNat) s.steps
  let tcm (h : Hart) : List Byte :=
    if same then v.tcmBytes h
    else (List.range (4096 * h.tcmUnits)).map fun i => (Config.alteredWord s.steps h.name.idx (2000000 + i)).setWidth 8
  let marks (h : Hart) : List Nat :=
    if same then (v.tcmMarks.filter fun p => p.1 == h.name.idx).map Prod.snd else []
  (hs, v.live.foldl (fun s h =>
    match seats.find? fun p => p.1 == h.name with
    | some (_, seat) => s.moveTcm h (tcm h) (marks h) seat.core
    | none => s) s)

/-- The restored gang starts on its cluster (R347): the lines in the units that it reserves go (R232), the acquire
completes, its launch counts the cluster (R214), the harts start together, each that traces with a sync record. -/
def State.restore (cluster : Nat) (v : Saved) (seats : List (HartName × Seating)) (s : State) : State :=
  let same := s.imageBytes v == v.bytes
  let s := (s.readImage cluster v).displace cluster v.gang.scr
  let (hs, s) := s.bringBack cluster v same seats
  let g := { (if same then v.gang else v.gang.scramble s.steps) with cluster := cluster, order := s.steps, refEdges := 0 }
  let s := { s with
    gangs := s.gangs ++ [g], saved := s.saved.filter fun u => u.gang.key != g.key
    launches := s.launches.map fun (l : Launch) =>
      if g.launch = some l.key then { l with clusters := l.clusters ||| clusterBit cluster, latest := cluster } else l }
  let s := ((s.acquire cluster).takeIn hs).lateTokens g.key
  seats.foldl (fun s p => s.asHart p.1 State.traceSync) s

/-- An image whose header or directory fails its check is not resumed (R347). What becomes of the rest of its launch the
spec does not say: the model drops it whole, so that gangs not yet placed never run and the launch has no end (log 87). -/
def State.rejectImage (cluster : Nat) (v : Saved) (s : State) : State :=
  let s := (s.readImage cluster v).writeSt (.scheduler cluster) v.gang.recordPa 3
  let s := s.logCheck 7 (Requester.scheduler cluster).id v.gang.record 0
  { s with saved := s.saved.filter fun u => u.gang.key != v.gang.key
           launches := s.launches.filter fun (l : Launch) => v.gang.launch != some l.key }

/-- RESUMPTION (R347): the resumption entry of a gang is placed on the given cores of a cluster, with the given
grants where they may change (log 8). -/
def execResumption (cluster gang : Nat) (cores grants : List Nat) (s : State) : Out :=
  match s.saved.find? fun v => v.gang.key == gang with
  | none => .next s
  | some v =>
    if !s.schedules cluster ∨ !s.isNext cluster (.saved v) then .next s
    else if (s.imageBytes v).take 192 ≠ v.bytes.take 192 then .next (s.rejectImage cluster v)
    else
      match s.reseat cluster v.regrants (s.recordOfSaved v) [] v.live (cores.zip grants) with
      | none => .next s
      | some seats => .next (s.restore cluster v seats)

/-! ## Waits that end (R261, R337) -/

/-- A waiting hart issues its instruction again, as one issue. -/
def State.reissue (f : BitVec 32 → State → Out) (s : State) : State :=
  let w := s.hart.word
  match f w s with
  | .next t => (State.noteRetired s w t).endStep
  | _ => s

/-- WLWAIT_RETURN (R261): a waiting WLWAIT whose condition holds returns. -/
def execWlwaitReturn (n : HartName) (s : State) : Out :=
  .next (s.asHart n fun s =>
    match s.hart.wait with
    | some (.wakeLine start limit) =>
      if s.hart.run = .running ∧ !s.hart.frozen ∧ (s.wakeCode s.hart start limit).isSome then
        s.reissue fun w => execWlwait (w.extractLsb' 21 5) (w.extractLsb' 11 5)
      else s
    | _ => s)

/-- WFI_RETURN (R337): a waiting WFI whose condition holds retires. -/
def execWfiReturn (n : HartName) (s : State) : Out :=
  .next (s.asHart n fun s =>
    if s.hart.wait = some .interrupt ∧ s.hart.run = .running ∧ !s.hart.frozen ∧ s.wakePending s.hart then
      s.reissue fun _ => execWfi
    else s)

end Sys2Proof.Machine
end

