-- ==== Sys2Proof/Machine/DebugPort.lean ====
section
/-! DEFINITION. The debugger's side: halt requests, freezes, resumes, single-step, the debug port (R349 to R358), and
the trace buffer as records leave it (R361, R362). -/

namespace Sys2Proof.Machine

/-! ## Freezing (R351, R354 to R356) -/

/-- HALT_REQUEST (R351): the harts of the scope that no earlier stop has reached will record cause 7, and the freeze of
the scope starts. -/
def execHaltRequest (scope : FreezeScope) (s : State) : Out :=
  .next ((s.mapHarts (Hart.noteCause scope 7 0)).startFreeze scope)

/-- BREAKPOINT (R351): the hart, about to issue at an enabled breakpoint, stops. -/
def execBreakpoint (n : HartName) (s : State) : Out :=
  .next (s.asHart n fun s =>
    let h := s.hart
    if h.run = .running ∧ (!h.frozen || h.dbg.stepping) ∧ h.wait.isNone ∧ h.linkHold.isNone ∧ !h.inFlight then
      match h.breakpointDue with
      | some u => s.ownStop 1 (BitVec.ofNat 2 u)
      | none => s
    else s)

/-- A WLWAIT or a WFI in progress sees the debug request and retires (R355). -/
def State.leaveWait (s : State) : State :=
  match s.hart.wait with
  | some (.wakeLine _ _) =>
    let w := s.hart.word
    s.reissue fun _ => execWlwait (w.extractLsb' 21 5) (w.extractLsb' 11 5)
  | some .interrupt => s.reissue fun _ => execWfi
  | _ => s

/-- The current hart stops for the freeze that reaches it, with the cause that waits for it (R350, R353, R355). Where a
halt request meets a breakpoint that is due, the breakpoint stops the hart (R351). -/
def State.freezeHere (s : State) : State :=
  let s := if s.hart.run = .running then s.leaveWait else s
  let (cause, unit) := s.hart.dbg.causeDue.getD (8, 0)
  match s.hart.breakpointDue with
  | some u =>
    if cause = 7 ∧ s.hart.run = .running ∧ s.hart.wait.isNone then s.ownStop 1 (BitVec.ofNat 2 u)
    else s.debugStop cause unit s.hart.skidNow
  | none => s.debugStop cause unit s.hart.skidNow

/-- A hart that a broadcast stops at a core: one there, or a partner in its chain, whose arrays stop together (R171). One
that continues a multiply stops once that has completed (R194). -/
def State.stopsAt (s : State) (core : Nat) (h : Hart) : Bool :=
  h.resident && h.run != .exited && !h.frozen && !(h.run == .running && h.arrayAt != 0) && (h.core == core || s.harts.any fun k => k.core == core && k.chainedTo h)

/-- FREEZE (R355): a broadcast reaches a core, and every hart there that has not stopped stops. -/
def execFreeze (core : Nat) (s : State) : Out :=
  if s.freezes.any fun f => freezeCovers f core then
    .next ((s.harts.filter (s.stopsAt core)).foldl (fun s h => s.asHart h.name State.freezeHere) s)
  else .next s

/-! ## Resuming and single-step (R357, R358) -/

/-- Every core of one scope lies in another. -/
def scopeWithin (f g : FreezeScope) : Bool :=
  (List.range Config.cores).all fun c => !freezeCovers f c || freezeCovers g c

/-- The current hart starts at its dpc, an instruction at which it waited from its start (R216, R281, R317); no
breakpoint fires for its first instruction (R350, R351). -/
def Hart.start (step : Bool) (h : Hart) : Hart :=
  { h with
      pc := h.dbg.dpc, frozen := step, fate := .none, wait := none, linkHold := none, partLoad := none, stopAt := none
      dbg := { h.dbg with stepping := step, passBreak := true, skidFrom := none, causeDue := none } }

/-- The current hart is released, with its sync record (R362). -/
def State.release1 (step : Bool) (s : State) : State := (s.onHart (Hart.start step)).traceSync

/-- The grace clock of a gang that no freeze covers runs on from where it stood (R342, R357). -/
def Gang.runClock (left : List FreezeScope) (now : Word) (g : Gang) : Gang :=
  if left.any fun f => freezeCovers f (16 * g.cluster) then g
  else { g with pre := g.pre.map fun r =>
      match r.heldSince with
      | some t => { r with at_ := r.at_ + (now - t), heldSince := none }
      | none => r }

/-- A hart that the broadcast of an ended freeze has not reached forgets its firing. -/
def Hart.forgetStop (left : List FreezeScope) (h : Hart) : Hart :=
  if h.frozen || left.any fun f => freezeCovers f h.core then h
  else { h with dbg := { h.dbg with skidFrom := none, causeDue := none } }

/-- A clock that stood since a time runs on: what it counts from moves by the time that it stood. -/
def clockOn (since now from_ : Word) : Word := from_ + (now - (if from_.toNat < since.toNat then since else from_))

/-- The link time-outs of a port run on (R357, R408). -/
def Port.runOn (since now : Word) (p : Port) : Port :=
  { p with lastAllowance := clockOn since now p.lastAllowance
           unacked := p.unacked.map fun u => { u with at_ := clockOn since now u.at_ } }

/-- Where neither a freeze of the package nor a checkpoint holds the scale-out ports, their clocks run on. -/
def State.freePorts (s : State) : State :=
  match s.portsHeld with
  | none => s
  | some t =>
    if s.freezes.contains .package || s.copying then s
    else { s with portsHeld := none, ports := s.ports.map (Port.runOn t s.time) }

/-- The freezes within a scope end (R357). -/
def State.thaw (left : List FreezeScope) (s : State) : State :=
  (({ s with freezes := left, gangs := s.gangs.map (Gang.runClock left s.time) } : State).mapHarts
    (Hart.forgetStop left)).freePorts

/-- DEBUG_RESUME (R357, R358): with an armed step in the scope its harts are released for one instruction; without,
the freezes within the scope end and every hart that no other freeze covers goes on. -/
def execDebugResume (scope : FreezeScope) (s : State) : Out :=
  let mine := s.harts.filter fun h => freezeCovers scope h.core && h.frozen && h.resident && h.run != .exited
  if mine.any fun h => h.dbg.step then
    let steps := mine.filter fun h => h.dbg.step && h.run == .running && !h.dbg.stepping
    .next (steps.foldl (fun s h => s.asHart h.name (State.release1 true)) s)
  else
    let left := s.freezes.filter fun f => !scopeWithin f scope
    .next ((mine.filter fun h => !left.any fun f => freezeCovers f h.core).foldl
      (fun s h => s.asHart h.name (State.release1 false)) (s.thaw left))

/-- STEP_COMPLETE (R358): a stepped hart whose instruction has retired or trapped stops again. -/
def execStepComplete (n : HartName) (s : State) : Out := .next (s.asHart n State.endStep)

/-- The hart's instruction has issued and waits, be it for a link that its access met; one whose fetch waits has not. -/
def Hart.issuedWaits (h : Hart) : Bool :=
  match h.linkHold with
  | some l => l.issued
  | none => h.wait.isSome

/-- STEP_TIMEOUT (R358): the stepped instruction has issued and waits (R367): the hart stops at it with cause 6; a BAR
keeps its arrival. -/
def execStepTimeout (n : HartName) (s : State) : Out :=
  .next (s.asHart n fun s => if s.hart.dbg.stepping && s.hart.issuedWaits then s.debugStop 6 0 0 else s)

/-! ## The trace buffer (R361, R362) -/

/-- The oldest record of a cluster leaves the package. -/
def State.traceOut (cluster : Nat) (s : State) : State :=
  match (s.cluster cluster).trace with
  | [] => s
  | r :: t => (s.modCluster cluster fun k => { k with trace := t }).send (.trace r)

/-- A record enters a cluster's buffer. -/
def State.putRecord (cluster : Nat) (r : TraceRecord) (s : State) : State :=
  s.modCluster cluster fun k => { k with trace := k.trace ++ [r] }

/-- The oldest record that waits for a slot is written. -/
def State.writeHeld (s : State) : State :=
  match s.hart.dbg.heldRecords with
  | [] => s
  | r :: t =>
    (s.putRecord s.hart.cluster r).onHart fun h => { h with dbg := { h.dbg with heldRecords := t } }

/-- The gap record of the current hart is written, and its sync record takes the slot that frees next (R361, R362). -/
def State.writeGap (s : State) : State :=
  let h := s.hart
  match h.dbg.dropped with
  | none => s
  | some (first, n) =>
    let sync : TraceRecord := ⟨#v[traceHeader h 1 0 s.time, h.pc, h.instret, h.hstat]⟩
    (s.putRecord h.cluster ⟨#v[traceHeader h 5 0 s.time, first, n, 0]⟩).onHart fun h =>
      { h with dbg := { h.dbg with dropped := none, heldRecords := h.dbg.heldRecords ++ [sync], sinceSync := 0 } }

/-- A free slot of a cluster's buffer is taken (R361): by the sync record that follows a gap, by a gap record, by a record
that a STALL hold keeps. -/
def State.fillSlot (cluster : Nat) (s : State) : State :=
  let mine := s.harts.filter fun h => h.cluster == cluster
  if 128 ≤ (s.cluster cluster).trace.length then s
  else
    match mine.find? fun h => h.dbg.heldRecords != [] && h.dbg.tmode with
    | some h => s.asHart h.name State.writeHeld
    | none =>
      match mine.find? fun h => h.dbg.dropped.isSome with
      | some h => s.asHart h.name State.writeGap
      | none =>
        match mine.find? fun h => h.dbg.heldRecords != [] with
        | some h => s.asHart h.name State.writeHeld
        | none => s

/-- TRACE_STALL_RELEASE (R361): a slot frees, and a record that waits for it is written. -/
def execTraceStallRelease (cluster : Nat) (s : State) : Out := .next ((s.traceOut cluster).fillSlot cluster)

/-- TRACE_GAP_RECORD (R361): two slots free, for a hart's gap record and the sync record after it. -/
def execTraceGapRecord (cluster : Nat) (s : State) : Out :=
  .next ((((s.traceOut cluster).fillSlot cluster).traceOut cluster).fillSlot cluster)

/-! ## The debug port (R350) -/

/-- The harts of a core in the order in which they became resident: its slots. -/
def State.slots (s : State) (core : Nat) : List Hart :=
  (s.harts.filter fun h => h.core == core && h.resident && h.run != .exited).mergeSort fun a b =>
    decide (a.joined < b.joined ∨ (a.joined = b.joined ∧ a.hartidx.toNat ≤ b.hartidx.toNat))

/-! The words of the sequencer, of the deferral records and of matrix mode that the port names are laid out as the model
chooses (log 62). -/

/-- Matrix mode, the chain setting, the tile and the held flags of a hart in one word. -/
def Hart.matrixWord (h : Hart) : Word :=
  let mode : BitVec 8 := match h.mode with
    | some m => 0#1 ++ BitVec.ofBool m.held ++ m.pos ++ m.chn ++ BitVec.ofBool (m.flow == .rs) ++ 1#1
    | none => 0
  0#9 ++ h.heldFlags ++ 0#3 ++ h.tile.k ++ 0#2 ++ h.tile.n ++ h.tile.m ++ h.mchain.head ++ h.mchain.pos ++ h.mchain.len ++ mode

/-- The same word written; a hart without the matrix flag has no matrix mode. -/
def Hart.setMatrix (w : Word) (h : Hart) : Hart :=
  { h with
      mode := if w.getLsbD 0 && h.matrixFlag then
          some ⟨if w.getLsbD 1 then .rs else .ws, w.extractLsb' 2 2, w.extractLsb' 4 2, w.getLsbD 6⟩
        else none
      mchain := ⟨w.extractLsb' 8 2, w.extractLsb' 10 2, w.extractLsb' 12 4⟩
      tile := ⟨w.extractLsb' 16 8, w.extractLsb' 24 6, w.extractLsb' 32 13⟩, heldFlags := w.extractLsb' 48 7 }

/-- A word of a running loop written. -/
def ActiveLoop.putWord (i : Nat) (w : Word) (l : ActiveLoop) : ActiveLoop :=
  if i = 0 then { l with base := w }
  else if i = 1 then { l with depth := min w.toNat 6 }
  else if i < 8 then { l with index := l.index.setIfInBounds (i - 2) (w.setWidth 32) }
  else { l with pos := min (w.toNat % 65536) (l.body.length - 1) }

/-- A word of the sequencer written. -/
def Sequencer.putWord (i : Nat) (w : Word) (q : Sequencer) : Sequencer :=
  let put (t : StrideSlot) : StrideSlot := if i % 2 = 0 then { t with reg := w.setWidth 5 } else { t with stride := w }
  if i < 6 then { q with counts := q.counts.setIfInBounds i (w.setWidth 32) }
  else if i < 18 then
    { q with slot0 := q.slot0.setIfInBounds ((i - 6) / 2) (put (q.slot0.toList.getD ((i - 6) / 2) ⟨0, 0⟩)) }
  else if i < 30 then
    { q with slot1 := q.slot1.setIfInBounds ((i - 18) / 2) (put (q.slot1.toList.getD ((i - 18) / 2) ⟨0, 0⟩)) }
  else if i = 30 then { q with first := w }
  else if i = 31 then { q with last := w }
  else if i < 41 then
    { q with loop := q.loop.map (ActiveLoop.putWord (i - 32) w)
             suspended := if i = 40 then w.getLsbD 32 && q.loop.isSome else q.suspended }
  else q

/-- A word of a deferral record written. -/
def Deferred.putWord (i : Nat) (w : Word) (r : Deferred) : Deferred :=
  if i = 0 then { r with index := w.setWidth 32, ew := (ewOf (w.extractLsb' 32 3)).getD r.ew }
  else { r with values := r.values.set (i - 1) w }

/-- The wake line of a hart in a word: armed, touched, at a scratchpad or a die, and the number of its block. -/
def Hart.wakeWord (h : Hart) : Word :=
  match h.wake with
  | none => 0
  | some w =>
    let (scratch, block) : Bool × Nat := match w.place with
      | .scratch _ b => (true, b)
      | .device b => (false, b)
    BitVec.ofNat 64 (1 + 2 * w.touched.toNat + 4 * scratch.toNat + 8 * block)

/-- The same word written; a block of a scratchpad is one of the hart's gang. -/
def Hart.setWake (w : Word) (h : Hart) : Hart :=
  let block := w.toNat / 8
  { h with wake :=
      if w.getLsbD 0 then some ⟨if w.getLsbD 2 then .scratch h.name.gang block else .device block, w.getLsbD 1⟩
      else none }

/-- The pending tokens of a hart, bit by register. -/
def Hart.pendingWord (h : Hart) : Word := h.pending.foldl (fun w r => w ||| (1#64 <<< r.toNat)) 0

/-- The translation and the level of a queued operation in a word. -/
def EngineOp.agentWord (o : EngineOp) : Word := 0#16 ++ o.xlat.root ++ o.xlat.asid ++ 0#1 ++ o.priv.code ++ BitVec.ofBool o.xlat.en

/-- The words of a queued engine operation: its kind with the token, its number, what it works on, its stamp, its service
class with the time of its issue, its translation with its level, and its place among the hart's operations. -/
def EngineOp.words (o : EngineOp) : List Word :=
  let (kind, a, b, n) : Nat × Word × Word × Word := match o.work with
    | .copy d s n c => (if c then 1 else 0, d, s, n.setWidth 64)
    | .fill d p n => (2, d, p, n.setWidth 64)
    | .chain r _ last _ => (3, r, last.setWidth 64, 0)
    | .fence m => (4, m.setWidth 64, 0, 0)
  [BitVec.ofNat 64 (kind + 256 * o.token.toNat), o.seq.setWidth 64, a, b, n, o.stamp.getD 0, o.mclass, o.issued,
    o.agentWord, BitVec.ofNat 64 o.ord]

/-- A word of a queued engine operation written; its kind stays. -/
def EngineOp.putWord (i : Nat) (w : Word) (o : EngineOp) : EngineOp :=
  if i = 0 then { o with token := w.extractLsb' 8 5 }
  else if i = 1 then { o with seq := w.setWidth 48 }
  else if i = 5 then { o with stamp := if w = 0 then none else some w }
  else if i = 6 then { o with mclass := w }
  else if i = 7 then { o with issued := w }
  else if i = 8 then
    { o with xlat := ⟨w.getLsbD 0, w.extractLsb' 4 12, w.extractLsb' 16 32⟩, priv := (privOf (w.extractLsb' 1 2)).getD o.priv }
  else if i = 9 then { o with ord := w.toNat }
  else
    { o with work := match o.work with
        | .copy d s n c =>
          .copy (if i = 2 then w else d) (if i = 3 then w else s) (if i = 4 then w.setWidth 32 else n) c
        | .fill d p n => .fill (if i = 2 then w else d) (if i = 3 then w else p) (if i = 4 then w.setWidth 32 else n)
        | .chain r started last reached =>
          .chain (if i = 2 then w else r) started (if i = 3 then w.setWidth 48 else last) reached
        | .fence m => .fence (if i = 2 then w.setWidth 4 else m) }

/-- The words of an operation's progress: a header with the counts of what follows, the current chunk, the chunks not begun,
the words of the current chunk not written, and its granules that receive poison; the header is 0 where nothing has
begun. -/
def EngineOp.runWords (o : EngineOp) : List Word :=
  let word (n : Nat) : Word := BitVec.ofNat 64 n
  match o.run with
  | none => [0]
  | some r =>
    [word (r.left.length + 2 ^ 32 * r.words.length + 2 ^ 40 * r.spoiled.length + 2 ^ 48 * r.bad.toNat + 2 ^ 49),
        word r.chunk.1, word r.chunk.2] ++
      (r.left.flatMap fun c => [word c.1, word c.2]) ++
      (r.words.flatMap fun w => [word w.va, word w.data.length, word (natOfBytes w.data),
        w.bad.foldl (fun m i => m ||| (1#64 <<< i)) 0]) ++ r.spoiled.map word

/-- The progress that words describe. -/
def runOfWords (l : List Word) : Option EngineRun :=
  let n (i : Nat) : Nat := (l.getD i 0).toNat
  let some_ (k : Nat) : List Nat := List.range (min k l.length)
  let left := n 0 % 2 ^ 32
  let words := n 0 / 2 ^ 32 % 256
  let spoiled := n 0 / 2 ^ 40 % 256
  if n 0 / 2 ^ 49 % 2 = 0 then none
  else
    some
      { chunk := (n 1, n 2), bad := n 0 / 2 ^ 48 % 2 == 1
        left := (some_ left).map fun i => (n (3 + 2 * i), n (4 + 2 * i))
        words := (some_ words).map fun i =>
          let at_ := 3 + 2 * left + 4 * i
          ⟨n at_, bytesOf (min 8 (n (at_ + 1))) (n (at_ + 2)), (List.range 8).filter fun j => (l.getD (at_ + 3) 0).getLsbD j⟩
        spoiled := (some_ spoiled).map fun i => n (3 + 2 * left + 4 * words + i) }

/-- A word of an operation's progress written. -/
def EngineOp.putRun (i : Nat) (w : Word) (o : EngineOp) : EngineOp := { o with run := runOfWords (o.runWords.set i w) }

/-- The words of the record that a chain stands at: whether it has started and has reached it, with the record's number,
and the record; zeros for another operation. -/
def EngineOp.recordWords (o : EngineOp) : List Word :=
  match o.work with
  | .chain _ started _ none => [BitVec.ofNat 64 started.toNat]
  | .chain _ started _ (some (seq, d)) =>
    (seq ++ 0#14 ++ 1#1 ++ BitVec.ofBool started) :: (List.range 8).map fun k => BitVec.ofNat 64 (natOfBytes ((d.drop (8 * k)).take 8))
  | _ => []

/-- A word of a chain's record written. -/
def EngineOp.putRecord (i : Nat) (w : Word) (o : EngineOp) : EngineOp :=
  match o.work with
  | .chain r _ last _ =>
    let l := o.recordWords.set i w
    let head := l.headD 0
    let data := (List.range 8).flatMap fun k => bytesOf 8 (l.getD (k + 1) 0).toNat
    { o with work := .chain r (head.getLsbD 0) last (if head.getLsbD 1 then some (head.extractLsb' 16 48, data) else none) }
  | _ => o

/-- The barriers at which a hart has arrived: bit 0 that of its gang, bit 1 that of its stage. -/
def Hart.arrivalWord (h : Hart) : Word :=
  BitVec.ofNat 64 (h.arrGang.isSome.toNat + 2 * h.arrStage.isSome.toNat)

/-- The arrivals of the current hart written, each at the generation of now; a barrier that they complete completes
(R216). -/
def State.putArrivals (w : Word) (s : State) : State :=
  (s.onHart fun h =>
    { h with arrGang := if w.getLsbD 0 then some (h.arrGang.getD s.myGang.barGen) else none
             arrStage := if w.getLsbD 1 then some (h.arrStage.getD s.myStageGen) else none }).completeBarriers
    s.hart.name.gang

/-- A word of a queue's operation at a place. -/
def EngineQueue.opWord (words : EngineOp → List Word) (q : EngineQueue) (op i : Nat) : Word :=
  match q.ops[op]? with
  | some o => (words o).getD i 0
  | none => 0

/-- A word of a hart's TCM allotment. -/
def State.allotmentWord (s : State) (h : Hart) (i : Nat) : Word :=
  if 512 * h.tcmUnits ≤ i then 0
  else BitVec.ofNat 64 (natOfBytes ((List.range 8).map fun j => s.seenTcm .host h.core (4096 * h.tcmBase + 8 * i + j)))

/-- What a port read of a hart's part returns; a number that no chapter assigns reads zero. -/
def State.portWord (s : State) (h : Hart) (r : PortReg) : Word :=
  match r with
  | .csr n => (csrRead h s n).getD 0
  | .x r => h.rx r
  | .pc => h.pc
  | .vWord r w => h.vword r.toNat w
  | .mWord r w => if r = 0 then BitVec.allOnes 64 else (h.m.toList.getD r.toNat maskOnes).toList.getD w 0
  | .vl => h.vl.setWidth 64
  | .vtype => vtypeWord h.vtype
  | .vprog => h.vprog.setWidth 64
  | .cell i => h.cells.toList.getD i 0
  | .sequencer i => h.seqr.words.getD i 0
  | .body i => ((h.seqr.loop.elim 0 fun (l : ActiveLoop) => l.body.getD i 0)).setWidth 64
  | .deferred i k => ((h.dq[i]?.map fun r => (r.head :: r.values).getD k 0)).getD 0
  | .matrix => h.matrixWord
  | .gatePc => h.gate.pc
  | .gateLevel => h.gate.mmode.setWidth 62 ++ h.gate.priv
  | .tcmRange => BitVec.ofNat 64 (h.tcmBase + 2 ^ 32 * h.tcmUnits)
  | .tcm i => s.allotmentWord h i
  | .wakeLine => h.wakeWord
  | .pending => h.pendingWord
  | .engineOp q k i => (h.queue q).opWord EngineOp.words k i
  | .engineRun q k i => (h.queue q).opWord EngineOp.runWords k i
  | .engineRecord q k i => (h.queue q).opWord EngineOp.recordWords k i
  | .arrivals => h.arrivalWord
  | .progress => BitVec.ofNat 64 h.arrayAt

/-- What a port write does to a part of a hart that is no CSR; pc is also where the hart resumes. -/
def Hart.portPut (reg : PortReg) (w : Word) (h : Hart) : Hart :=
  match reg with
  | .csr _ => h
  | .x r => h.wx r w
  | .pc => { h with pc := w, wait := none, linkHold := none, arrayAt := 0, dbg := { h.dbg with dpc := w } }
  | .vWord r i => h.setVword r.toNat i w
  | .mWord r i =>
    if r = 0 then h
    else { h with m := h.m.setIfInBounds r.toNat ((h.m.toList.getD r.toNat maskOnes).setIfInBounds i w) }
  | .vl => { h with vl := BitVec.ofNat 32 (min w.toNat ((h.vtype.map (vlmax h.grant)).getD 0)) }
  | .vtype =>
    match definedType (w.setWidth 16) with
    | some t => { h with vtype := t, vl := BitVec.ofNat 32 (min h.vl.toNat ((t.map (vlmax h.grant)).getD 0)) }
    | none => h
  | .vprog => { h with vprog := w.setWidth 7, vprogPc := h.pc }
  | .cell i => { h with cells := h.cells.setIfInBounds i w }
  | .sequencer i => { h with seqr := h.seqr.putWord i w }
  | .body i => { h with seqr := { h.seqr with loop := h.seqr.loop.map fun l => { l with body := l.body.set i (w.setWidth 32) } } }
  | .deferred i k => { h with dq := h.dq.modify i (Deferred.putWord k w) }
  | .matrix => h.setMatrix w
  | .gatePc => { h with gate := { h.gate with pc := w } }
  | .gateLevel => { h with gate := { h.gate with priv := w.setWidth 2, mmode := w.extractLsb' 2 2 } }
  | .tcmRange | .tcm _ => h
  | .wakeLine => h.setWake w
  | .pending => { h with pending := (List.range 32).filterMap fun r => if w.getLsbD r then some (BitVec.ofNat 5 r) else none }
  | .engineOp q k i => h.setQueue q fun e => { e with ops := e.ops.modify k (EngineOp.putWord i w) }
  | .engineRun q k i => h.setQueue q fun e => { e with ops := e.ops.modify k (EngineOp.putRun i w) }
  | .engineRecord q k i => h.setQueue q fun e => { e with ops := e.ops.modify k (EngineOp.putRecord i w) }
  | .arrivals => h
  | .progress => { h with arrayAt := w.toNat }

/-- A word of the current hart's TCM allotment written. -/
def State.putAllotment (i : Nat) (w : Word) (s : State) : State :=
  let h := s.hart
  if 512 * h.tcmUnits ≤ i then s
  else s.modCore h.core fun c =>
    let at_ := 4096 * h.tcmBase + 8 * i
    { c with tcm := Memory.putAll c.tcm (cellsFrom at_ (bytesOf 8 w.toNat))
             tcmLoose := c.tcmLoose.filter fun a => !decide (at_ ≤ a ∧ a < at_ + 8) }

/-- What a port write does to the current hart: a CSR write at firmware level, or the part written; where its TCM
allotment lies is the scheduler's. Where it sets tren a sync record follows (R362). -/
def State.portPut (reg : PortReg) (w : Word) (s : State) : State :=
  let t := match reg with
    | .csr n => csrWrite .firmware n w s
    | .tcm i => s.putAllotment i w
    | .arrivals => s.putArrivals w
    | r => s.onHart (Hart.portPut r w)
  if !s.hart.dbg.tren && t.hart.dbg.tren then t.traceSync else t

/-- DEBUG_PORT_WRITE (R350): it performs only on a frozen hart, and not on one that issues for its step. -/
def execDebugPortWrite (core slot : Nat) (reg : PortReg) (value : BitVec 64) (s : State) : Out :=
  match (s.slots core)[slot]? with
  | some h =>
    if h.frozen && !(h.dbg.stepping && h.run == .running) then .next (s.asHart h.name (State.portPut reg value)) else .next s
  | none => .next s

end Sys2Proof.Machine
end

