-- ==== Sys2Proof/Machine/Fences.lean ====
section
/-! DEFINITION. Fences (R276 to R281): the cache actions of releases and acquires, the heartbeat fence and the
instruction-fetch fence. -/

namespace Sys2Proof.Machine

/-- The class set that a fence names (R277). -/
def Hart.fenceSet (h : Hart) (a : BitVec 5) : BitVec 16 := if a = 0 then 0xFFFF else (h.rx a).setWidth 16

/-- A class-mask fence (R277): the actions of R266 at package and system scope. An empty set has no effect. -/
def classFence (rl aq : Bool) (a : BitVec 5) (scope : BitVec 2) (s : State) : Out :=
  let k := s.hart.fenceSet a
  let c := s.hart.cluster
  let s := if rl && k != 0 && decide (2 ≤ scope.toNat) then s.release s.me c k else s
  let s := if aq && k != 0 && decide (2 ≤ scope.toNat) then s.acquireFor k else s
  .next (s.onHart Hart.retire)

/-- FENCE.AQ (R277). -/
def execFenceAq (a : BitVec 5) (scope : BitVec 2) (s : State) : Out := classFence false true a scope s

/-- FENCE.RL (R277). -/
def execFenceRl (a : BitVec 5) (scope : BitVec 2) (s : State) : Out := classFence true false a scope s

/-- FENCE (R277). -/
def execFence (a : BitVec 5) (scope : BitVec 2) (s : State) : Out := classFence true true a scope s

/-- An acquire of every class by the current hart at package or system scope (R266, R271). -/
def State.acquireAll (s : State) : State := s.acquireFor 0xFFFF

/-- FENCE.SC (R278): the release and the acquire, then the first tick after them. What the cluster filled meanwhile is
acquired again at the tick: it may have been read before a store that an earlier fence's tick orders before it. -/
def execFenceSc (d : BitVec 5) (s : State) : Out := run (do
  match (← hart).wait with
  | some (.tick after) => do
    let s ← get
    if s.hbeat = after then waitFor (.tick after)
    else
      modify State.acquireAll
      onHart fun h => (h.wx d (after + 1)).retire
  | _ => do
    modify fun s => (s.releaseAll s.me s.hart.cluster).acquireAll
    waitFor (.tick (← get).hbeat)) s

/-- FENCE.I (R280): the acquire at package scope, every fetched word is forgotten, and no word that a write has replaced
before is found again. The release at cluster scope has no cache action (R266). -/
def execFenceI (s : State) : Out :=
  .next (s.acquireAll.onHart fun h => { h.retire with ibuf := [], fenced := s.priors.length })

end Sys2Proof.Machine
end

