-- ==== Sys2Proof/Machine/HostPort.lean ====
section
/-! DEFINITION. The host port: doorbells and context registers, BAR2, the ordering point, the register window and the
debug port's reads (R350, R392 to R405). -/

namespace Sys2Proof.Machine

/-! ## Doorbells (R399) -/

/-- The record that a doorbell names, as ENQ finds it in its context (R210): status 2, or its home. -/
def State.doorbellRecord (ctx : Nat) (rec : Word) (s : State) : Except Nat Nat × State :=
  if rec.extractLsb' 0 6 ≠ 0 then (.error 2, s)
  else
    let (e, s) := s.contextEntry ctx
    match resolve (packageAgent .queueManager e.xlat) [] .load rec 64 s with
    | (.ok (.device _ home _, _), s) => (.ok home, s)
    | (_, s) => (.error 2, s)

/-- The status of a doorbell of a queue that its function owns (R210): the queue manager reads the record's header as ENQ
does, and a poisoned record faults (log 39). -/
def State.doorbellStatus (q : Nat) (e : QueueEntry) (rec : Word) (s : State) : Nat × State :=
  match s.doorbellRecord e.ctx.toNat rec with
  | (.error n, s) => (n, s)
  | (.ok home, s) =>
    if !e.en then (3, s)
    else
      let (d, s) := s.readDie .queueManager home 64
      if s.poisoned home 64 ∨ (recordOf d).malformed then (2, s)
      else s.enqueueAt .queueManager rec home e.ctx.toNat (.hardware q) 0

/-- A doorbell applied (R393, R399): of a queue of another context it is discarded; else its status goes to last, and
one that is not 0 counts in rej and signals vector 2. -/
def State.applyDoorbell (fn q : Nat) (rec : Word) (s : State) : State :=
  if 131072 ≤ q then s
  else
    let (e, s) := s.queueEntry q
    if e.ctx.toNat ≠ fn then s
    else
      let (n, s) := s.doorbellStatus q e rec
      let rej := if n = 0 then e.rej else e.rej + 1
      let s := s.writePa .queueManager (s.queuePa q + 12) (bytesOf 1 n ++ bytesOf 3 rej.toNat)
      if n = 0 then s else s.send (.msix fn 2)

/-! ## Context registers (R400) -/

/-- The gangs of a context that a write names: of one record, or all. -/
def State.named (ctx : Nat) (rec : Word) (s : State) : List Gang :=
  s.gangs.filter fun g => g.launch.isSome && g.ctx == ctx && !g.ended && (rec == 0 || g.record == rec)

/-- A pre-emption that the host asks for: delivered where the image fits, else it waits at the scheduler (R397). -/
def State.askPreempt (s : State) (g : Gang) : State :=
  if s.saveRoom g then s.requestPreempt g.key
  else s.modGang g.key fun g => if g.pre.isSome then g else { g with waitRoom := true }

/-- An address lies in a context: it translates to a byte of device memory there (R400). -/
def State.inContext (ctx : Nat) (v : Word) (s : State) : Bool × State :=
  let (e, s) := s.contextEntry ctx
  match resolve (packageAgent .queueManager e.xlat) [] .load v 1 s with
  | (.ok (.device _ _ _, _), s) => (true, s)
  | (_, s) => (false, s)

/-- A write of pree applied (R400): one that names no gang signals at once, and one of a record outside the context does
nothing. -/
def State.applyPree (fn : Nat) (v : Word) (s : State) : State :=
  let gs := s.named fn v
  let (here, s) := if v = 0 then (true, s) else s.inContext fn v
  if !here then s
  else if gs = [] then s.send (.msix fn (if fn = 0 then 8 else 3))
  else gs.foldl State.askPreempt { s with pree := s.pree ++ [⟨fn, gs.map Gang.key⟩] }

/-- A write of swint applied (R400). -/
def State.applySwint (fn : Nat) (v : Word) (s : State) : State :=
  let keys := (s.named fn v).map Gang.key
  s.mapHarts fun h => if keys.contains h.name.gang && h.resident then { h with swp := true } else h

/-- A write of chead applied (R400). -/
def State.applyChead (ctx : Nat) (v : Word) (s : State) : State :=
  let (e, s) := s.contextEntry ctx
  let i := v.toNat % (e.cnum.toNat + 1)
  if s.rings.any fun p => p.1 == ctx then
    { s with rings := s.rings.map fun p => if p.1 = ctx then (ctx, { p.2 with consumer := i }) else p }
  else { s with rings := s.rings ++ [(ctx, ⟨0, 0, i, []⟩)] }

/-! ## Writes of queue descriptors (R398) -/

/-- The queue and the byte of its descriptor that lie at a home address, under either name of the byte. -/
def State.descriptorAt (s : State) (a : Nat) : Option (Nat × Nat) :=
  let base := s.control.qtbase.toNat
  let names := a :: if isHbmHome a then [0x8000000000 + aliasOf (homeDie a) (a % 0x1000000000)] else []
  (names.find? fun p => decide (base ≤ p ∧ p < base + 32 * 131072)).map fun p => ((p - base) / 32, (p - base) % 32)

/-- The queue of a number is enabled (R398). -/
def State.queueOn (s : State) (q : Nat) : Bool :=
  (s.homeOf (s.queuePa q)).any fun a => (s.dieByte a).getLsbD 0

/-- The bytes of runs at PAs, each with the queue and the place in its descriptor where it lies in one. -/
def State.descriptorBytes (s : State) (pieces : List (Nat × List Byte)) : List ((Nat × Nat) × Byte) :=
  pieces.flatMap fun p =>
    match s.homeOf p.1 with
    | some a => (p.2.mapIdx fun i b => (s.descriptorAt (a + i)).map fun d => (d, b)).filterMap id
    | none => []

/-- The queues whose descriptors a write of runs of bytes may change (R398): those that are disabled, and those that it
disables itself (log 67). -/
def State.mayChange (s : State) (pieces : List (Nat × List Byte)) : List Nat :=
  let bytes := s.descriptorBytes pieces
  (bytes.map fun c => c.1.1).eraseDups.filter fun q =>
    !s.queueOn q || bytes.any fun c => c.1 == (q, 0) && !c.2.getLsbD 0

/-- A byte that a host write of bytes at a home address leaves (R398): of a descriptor the read-only bytes stay, and of one
that the write may not change each byte written holds an unspecified value (R2; log 67). -/
def State.guardByte (s : State) (may : List Nat) (a i : Nat) (b : Byte) : Byte :=
  match s.descriptorAt (a + i) with
  | none => b
  | some (q, o) =>
    let old := s.dieByte (a + i)
    if 12 ≤ o then old
    else if !may.contains q then s.permittedByte .host (Config.breachByte s.steps (a + i))
    else if o = 1 then (b &&& 0xF3) ||| (old &&& 0x0C)
    else b

/-- The bytes that a host write leaves. -/
def State.guarded (s : State) (may : List Nat) (a : Nat) (data : List Byte) : List Byte := data.mapIdx (s.guardByte may a)

/-- The queues that a write of bytes at a home address enables. -/
def State.enables (s : State) (a : Nat) (data : List Byte) : List Nat :=
  (data.zipIdx.filter fun c => c.1.getLsbD 0 && !(s.dieByte (a + c.2)).getLsbD 0).filterMap fun c =>
    match s.descriptorAt (a + c.2) with
    | some (q, 0) => some q
    | _ => none

/-- A write of en = 1 clears head, tail, last and rej, and with them the queue's records (R398). -/
def State.clearQueue (q : Nat) (s : State) : State :=
  let s := s.writePa .queueManager (s.queuePa q + 12) (List.replicate 20 0)
  let kept := s.launches.filter fun (l : Launch) => !(l.queue == .hardware q && l.queued && l.next == 0)
  let leave (l : Launch) : Launch :=
    if l.queue = .hardware q ∧ l.queued then { l with queued := false, total := l.next } else l
  { s with launches := kept.map leave }

/-- Every cache of the package writes back (R432 step 3). -/
def State.settleCaches (s : State) : State :=
  let s := (List.range Config.clusters).foldl (fun s c => s.releaseAll (.cache c) c) s
  (List.range 8).foldl (fun s k => (s.die k).readers.foldl (fun s l => s.ordinaryLine l.base) s) s

/-- The bytes of die-named HBM that a host write changes while a checkpoint copies are noted, word by word, as they were
(R432). -/
def State.noteCrossed (a n : Nat) (s : State) : State :=
  { s with crossed := s.crossed ++
      ((cut 8 a n).filter fun r => isHbmHome r.1).map fun r =>
        (r.1, (List.range r.2).map fun i => Memory.get s.mem (r.1 + i)) }

/-- A host write of bytes of one granule run at a home address of device memory. -/
def State.hostStore (may : List Nat) (a : Nat) (data : List Byte) (s : State) : State :=
  let s := if s.copying then s.noteCrossed a data.length else s
  (s.enables a data).foldl (fun s q => s.clearQueue q) (s.writeDieAll .host (cellsFrom a (s.guarded may a data)))

/-- A host write of bytes at a PA of device memory. -/
def State.hostWrite (may : List Nat) (pa : Nat) (data : List Byte) (s : State) : State :=
  (runsAt pa data.length).foldl (fun s r =>
    match s.homeOf r.1 with
    | some a => s.hostStore may a ((data.drop (r.1 - pa)).take r.2)
    | none => s) s

/-! ## The register window (R393) -/

/-- A port's restart bits (R409). -/
def State.restartPorts (ports : BitVec 16) (s : State) : State :=
  let all := s.ports.mapIdx fun p k =>
    if ports.getLsbD p ∧ k.lost then { k with lost := false, discarding := false, lastAllowance := s.time } else k
  { s with ports := all }

/-- A checkpoint starts (R432): schedulers place nothing more, and every gang is pre-empted. -/
def State.startCheckpoint (work : CheckpointWork) (s : State) : State :=
  if s.checkpoint.isSome then s
  else
    (s.gangs.filter fun g => g.launch.isSome && !g.ended).foldl State.askPreempt
      { s with checkpoint := some ⟨work, false⟩, crossed := [] }

/-- A write of a miss counter (R381). -/
def State.writeMiss (die id : Nat) (w : BitVec 32) (s : State) : State :=
  s.modDie die fun d => { d with misses := (id, w) :: d.misses.filter fun m => m.1 != id }

/-- A miss counter (R381). -/
def State.miss (s : State) (die id : Nat) : BitVec 32 :=
  (((s.die die).misses.find? fun m => m.1 == id).map Prod.snd).getD 0

/-- The place of a word of a function's MSI-X table (R393, R402; log 65). -/
def msixPlace (fn off : Nat) : Option Nat :=
  let base := if fn = 0 then 0x400000 else 0x40000
  if base ≤ off ∧ off < base + 16 * (if fn = 0 then 9 else 4) ∧ fn < 64 then some ((off - base) / 8) else none

/-- A write of the PF's device control, and of its status blocks (R377, R381, R393, R431 to R433); other offsets discard
the write. -/
def State.writeControl (off : Nat) (v : Word) (s : State) : State :=
  if off = 0x00 then { s with control := { s.control with qtbase := v } }
  else if off = 0x08 then { s with control := { s.control with ctxbase := v } }
  else if off = 0x10 then s.restartPorts (v.extractLsb' 0 16)
  else if off = 0x18 then
    s.startCheckpoint (if v.getLsbD 0 then .restore (v &&& ~~~0xFFFF#64) else .save (v &&& ~~~0xFFFF#64))
  else if off = 0x20 then
    if s.attesting then s else { s with attesting := true, control := { s.control with attestation := v } }
  else if off = 0x38 then { s with control := { s.control with telbase := v } }
  else if 0x200000 ≤ off ∧ off < 0x280000 then
    let die := (off - 0x200000) / 0x10000
    let o := off % 0x10000
    if o < 0x2000 ∧ o % 4 = 0 then s.writeMiss die (o / 4) (v.extractLsb' 0 32)
    else if 0x2000 ≤ o ∧ o < 0x2180 ∧ o % 64 = 0 then s.writeLink die ((o - 0x2000) / 64) v
    else s
  else s

/-- A write of a function's register window. -/
def State.writeWindow (fn off : Nat) (v : Word) (s : State) : State :=
  match msixPlace fn off with
  | some k => { s with msix := (fn, k, v) :: s.msix.filter fun p => !(p.1 == fn && p.2.1 == k) }
  | none => if fn = 0 then s.writeControl off v else s

/-- What the PF's device control and status blocks read (R8, R377, R381, R393); the registers that start an action read
zero (log 65). -/
def State.readControl (s : State) (off : Nat) : Word :=
  if off = 0x00 then s.control.qtbase
  else if off = 0x08 then s.control.ctxbase
  else if off = 0x28 then s.control.status
  else if off = 0x38 then s.control.telbase
  else if 0x200000 ≤ off ∧ off < 0x280000 then
    let die := (off - 0x200000) / 0x10000
    let o := off % 0x10000
    if o < 0x2000 then s.miss die (o / 4 + 1) ++ s.miss die (o / 4)
    else if 0x2000 ≤ o ∧ o < 0x2180 ∧ o % 64 = 0 then (s.link die ((o - 0x2000) / 64)).word
    else 0
  else 0

/-- What 8 aligned bytes of a function's register window read (R393, R400): after a failed boot the failing step alone
(R428); a doorbell reads zero, chead the consumer index. -/
def State.windowWord (s : State) (fn off : Nat) : Word :=
  if s.control.bootFailure ≠ 0 then (if fn = 0 ∧ off = 0x30 then s.control.bootFailure else 0)
  else
    match msixPlace fn off with
    | some k => ((s.msix.find? fun p => p.1 == fn && p.2.1 == k).map fun p => p.2.2).getD 0
    | none =>
      if off = 0x1010 then BitVec.ofNat 64 (((s.rings.find? fun p => p.1 == fn).map fun p => p.2.consumer).getD 0)
      else if fn = 0 then s.readControl off
      else 0

/-! ## The ordering point (R403, R404) -/

/-- A stream by number: 0 the host's, 1 + p that of scale-out port p. -/
def State.stream (s : State) (k : Nat) : Inbound :=
  if k = 0 then s.inbound else s.portStreams.toList.getD (k - 1) ⟨0, [], []⟩

/-- A stream replaced. -/
def State.setStream (k : Nat) (i : Inbound) (s : State) : State :=
  if k = 0 then { s with inbound := i } else { s with portStreams := s.portStreams.setIfInBounds (k - 1) i }

/-- What a route does when it performs. -/
def State.performRoute (r : Route) (s : State) : State :=
  match r.work with
  | .write pieces may => pieces.foldl (fun s p => s.hostWrite (may.getD (s.mayChange pieces)) p.1 p.2) s
  | .doorbell fn q rec => s.applyDoorbell fn q rec
  | .pree ctx v => s.applyPree ctx v
  | .swint ctx v => s.applySwint ctx v
  | .chead ctx v => s.applyChead ctx v
  | .register fn off v => s.writeWindow fn off v

/-- A route may be sent: every earlier one, of another write, to another die has been acknowledged; to the I/O die,
every earlier one (R404). -/
def Route.maySend (all : List Route) (r : Route) : Bool :=
  all.all fun q => decide (r.number ≤ q.number) || (q.die == r.die && r.die != 8)

/-- The next action of the I/O die for a stream: a route to itself that nothing holds performs, other routes are
sent. -/
def State.sendRoutes (k : Nat) : Nat → State → State
  | 0, s => s
  | fuel + 1, s =>
    let all := (s.stream k).routes
    let marked := all.map fun r => if r.die ≠ 8 ∧ r.maySend all then { r with sent := true } else r
    let s := s.setStream k { s.stream k with routes := marked }
    match all.find? fun r => r.die == 8 && r.maySend all with
    | none => s
    | some r =>
      let rest := marked.erase r
      State.sendRoutes k fuel ((s.setStream k { s.stream k with routes := rest }).performRoute r)

/-- Bytes of device memory through BAR2: every byte maps there (R394). -/
def State.inDevice (s : State) (pa n : Nat) : Bool :=
  (List.range n).all fun i =>
    match s.target (pa + i) with
    | some t => t.isDevice
    | none => false

/-- A host AtomicOp on a value (R392). -/
def hostAtomic (op : HostAtomic) (bits : Nat) (operand compare : Word) (old : Nat) : Nat :=
  let m := 2 ^ bits
  match op with
  | .fetchAdd => (old + operand.toNat) % m
  | .swap => operand.toNat % m
  | .cas => if old = compare.toNat % m then operand.toNat % m else old

/-- A host read of device memory, or an AtomicOp, performs at the die with an answer (R394); what lies outside device
memory is an unsupported request. Two points of it the spec does not settle (log 83): an AtomicOp at an address that is no
multiple of its size is an unsupported request, and a read of a poisoned granule, or an AtomicOp, which writes nothing
there (R250, R251), answers the bytes that the granule holds. -/
def State.performMemory (fn pa size : Nat) (op : Option (HostAtomic × Word × Word)) (s : State) : State :=
  match s.homeOf pa with
  | none => s.send (.unsupported fn)
  | some a =>
    if !s.inDevice pa size then s.send (.unsupported fn)
    else
      match op with
      | some (op, x, y) =>
        if pa % size ≠ 0 then s.send (.unsupported fn)
        else if (s.readErrors .host a size).poisoned a size then
          let (d, s) := s.readDie .host a size
          s.send (.atomicData fn (BitVec.ofNat 64 (natOfBytes d)))
        else
          let new (old : Nat) : List Byte := bytesOf size (hostAtomic op (8 * size) x y old)
          let on := s.enables a (new (natOfBytes (s.dieBytes a size)))
          let may (old : Nat) : List Nat := s.mayChange [(pa, new old)]
          let (old, s) := s.atomicDie .host a size fun old => natOfBytes (s.guarded (may old) a (new old))
          (on.foldl (fun s q => s.clearQueue q) s).send (.atomicData fn (BitVec.ofNat 64 old))
      | none =>
        let (d, s) := s.readPa .host pa size
        s.send (.readData fn d)

/-- A host read performs. -/
def State.performRead (r : WaitingRead) (s : State) : State :=
  match r.work with
  | .memory pa size op => s.performMemory r.fn pa size op
  | .window off => s.send (.readData r.fn (bytesOf 8 (s.windowWord r.fn off).toNat))

/-- Reads of the host's stream whose earlier posted writes are all acknowledged are sent (R404). -/
def State.sendReads (s : State) : State :=
  let ready := s.inbound.reads.filter fun r => s.inbound.routes.all fun q => decide (r.after ≤ q.number)
  let left := s.inbound.reads.filter fun r => !ready.contains r
  ready.foldl (fun s r => s.performRead r) { s with inbound := { s.inbound with reads := left } }

/-- Everything of a stream that the I/O die can send now. -/
def State.pump (k : Nat) (s : State) : State := (s.sendRoutes k ((s.stream k).routes.length + 1)).sendReads

/-- A posted write joins the host's stream with its routes (R403). -/
def State.post (works : List (Nat × RouteWork)) (s : State) : State :=
  let n := s.inbound.nextNumber
  let routes := s.inbound.routes ++ works.map fun w => ⟨n, w.1, w.2, false⟩
  ({ s with inbound := { s.inbound with nextNumber := n + 1, routes := routes } } : State).pump 0

/-- A read joins the host's stream. -/
def State.await (fn : Nat) (work : ReadWork) (s : State) : State :=
  let reads := s.inbound.reads ++ [⟨fn, work, s.inbound.nextNumber⟩]
  ({ s with inbound := { s.inbound with reads := reads } } : State).pump 0

/-- A function's BAR2 holds n bytes at an offset (R394; log 66). -/
def inBar2 (fn off n : Nat) : Bool := decide (off + n ≤ 2 ^ (30 + (Config.bar2Size fn).val))

/-- The device PA of an offset in BAR2 (R394). -/
def State.bar2 (fn off : Nat) (s : State) : Nat × State :=
  let (e, s) := s.contextEntry fn
  (e.dmbase.toNat + off, s)

/-- The words of a write, which are seen apart (R270), each with its die. -/
def State.dieRuns (s : State) (pa : Nat) (data : List Byte) : List (Nat × Nat × List Byte) :=
  (cut 8 pa data.length).map fun r =>
    (((s.homeOf r.1).map homeDie).getD 8, r.1, (data.drop (r.1 - pa)).take r.2)

/-- The routes of a write: one for each memory die that it touches (R403). -/
def State.routesOf (s : State) (pa : Nat) (data : List Byte) : List (Nat × RouteWork) :=
  let runs := s.dieRuns pa data
  ((List.range 8).filter fun k => runs.any fun r => r.1 == k).map fun k =>
    (k, .write ((runs.filter fun r => r.1 == k).map Prod.snd) none)

/-- BAR2_WRITE (R394, R403): a write that reaches outside device memory is discarded. -/
def execBar2Write (fn off : Nat) (data : List (BitVec 8)) (s : State) : Out :=
  if !inBar2 fn off data.length then .next s
  else
    let (pa, s) := s.bar2 fn off
    if s.inDevice pa data.length ∧ data ≠ [] then .next (s.post (s.routesOf pa data)) else .next s

/-- BAR2_READ (R394, R404). -/
def execBar2Read (fn off size : Nat) (s : State) : Out :=
  if !inBar2 fn off size then .next s
  else
    let (pa, s) := s.bar2 fn off
    .next (s.await fn (.memory pa size none))

/-- HOST_ATOMICOP (R392, R394). -/
def execHostAtomicop (fn off : Nat) (op : HostAtomic) (wide : Bool) (operand compare : BitVec 64) (s : State) : Out :=
  let n := if wide then 8 else 4
  if !inBar2 fn off n then .next s
  else
    let (pa, s) := s.bar2 fn off
    .next (s.await fn (.memory pa n (some (op, operand, compare))))

/-- QUEUE_DOORBELL (R399): a route to the I/O die. -/
def execQueueDoorbell (fn q : Nat) (record : BitVec 64) (s : State) : Out :=
  .next (s.post [(8, .doorbell fn q record)])

/-- PREE (R400). -/
def execPree (fn : Nat) (v : BitVec 64) (s : State) : Out := .next (s.post [(8, .pree fn v)])

/-- SWINT (R400). -/
def execSwint (fn : Nat) (v : BitVec 64) (s : State) : Out := .next (s.post [(8, .swint fn v)])

/-- CHEAD (R400). -/
def execChead (fn : Nat) (v : BitVec 64) (s : State) : Out := .next (s.post [(8, .chead fn v)])

/-- The piece of a route that is written next, which is free, and what is left of the route; none where it is the last.
Which descriptors its write may change is settled with its first word. -/
def Route.next (k : Nat) (s : State) (r : Route) : Route × Option Route :=
  match r.work with
  | .write (p :: q :: t) may =>
    let i := k % (t.length + 2)
    let may := some (may.getD (s.mayChange (p :: q :: t)))
    ({ r with work := .write [(p :: q :: t).getD i p] may }, some { r with work := .write ((p :: q :: t).eraseIdx i) may })
  | _ => (r, none)

/-- INBOUND_ROUTE_ACK (R270, R403, R404): the oldest route of a stream that was sent to a die performs there, one word at
a time; with the last one it is acknowledged. -/
def execInboundRouteAck (stream die : Nat) (s : State) : Out :=
  let i := s.stream stream
  match i.routes.find? fun r => r.die == die && r.sent && decide (r.die < 8) with
  | none => .next s
  | some r =>
    match r.next (Config.nextWord s.steps) s with
    | (w, some left) =>
      .next ((s.setStream stream { i with routes := i.routes.map fun q => if q = r then left else q }).performRoute w)
    | (w, none) => .next (((s.setStream stream { i with routes := i.routes.erase r }).performRoute w).pump stream)

/-! ## Registers (R393) -/

/-- PORT_RESTART (R409): a posted write of device control. -/
def execPortRestart (ports : BitVec 16) (s : State) : Out := .next (s.post [(8, .register 0 0x10 (ports.setWidth 64))])

/-- CHECKPOINT_SAVE (R432): a posted write of device control; the host address is aligned to 64 KiB. -/
def execCheckpointSave (dest : BitVec 64) (s : State) : Out :=
  .next (s.post [(8, .register 0 0x18 (dest &&& ~~~0xFFFF#64))])

/-- CHECKPOINT_RESTORE (R432). -/
def execCheckpointRestore (source : BitVec 64) (s : State) : Out :=
  .next (s.post [(8, .register 0 0x18 ((source &&& ~~~0xFFFF#64) ||| 1))])

/-- ATTESTATION_REQUEST (R431): discarded while a report is being made. -/
def execAttestationRequest (buffer : BitVec 64) (s : State) : Out := .next (s.post [(8, .register 0 0x20 buffer)])

/-- REGISTER_WRITE (R8, R377, R381, R393, R403): a function writes a word of its register window, a posted write to the
I/O die. -/
def execRegisterWrite (place : WindowPlace) (value : BitVec 64) (s : State) : Out :=
  .next (s.post [(8, .register place.fn place.off value)])

/-- DEBUG_PORT_READ (R350, R393): a part of a hart, where a slot with no resident hart reads zero; or the aligned 8 bytes of
a function's register window, a host read. -/
def execDebugPortRead (core slot : Nat) (target : PortTarget) (s : State) : Out :=
  match target with
  | .reg reg =>
    .next (s.send (.portValue (match (s.slots core)[slot]? with
      | some h => s.portWord h reg
      | none => 0)))
  | .window place => .next (s.await place.fn (.window (place.off / 8 * 8)))

/-- XLAT_WRITE (R229, R231). -/
def execXlatWrite (n : HartName) (value : BitVec 64) (s : State) : Out := .next (s.modHart n (Hart.writeXlat value))

/-- CONFIG_BLOCK_WRITE (R229, R428). -/
def execConfigBlockWrite (pool : Bool) (value : BitVec 64) (s : State) : Out := .next (s.writeConfig pool value)

end Sys2Proof.Machine
end

