-- ==== Sys2Proof/Machine/Shake.lean ====
section
/-! DEFINITION. SHAKE256, by which the Scarab engine digests the firmware and the configuration block and on which its
signatures rest (R430, R431). The spec names the function and FIPS 202 defines it (log 76). -/

namespace Sys2Proof.Machine

/-- The 200 bytes that the sponge holds, as 25 words in rows of five. -/
abbrev Sponge := List Word

/-- The word in a column and a row, both counted round. -/
def Sponge.word (a : Sponge) (column row : Nat) : Word := a.getD (5 * (row % 5) + column % 5) 0

/-- The XOR of a column's words. -/
def Sponge.parity (a : Sponge) (column : Nat) : Word :=
  [0, 1, 2, 3, 4].foldl (fun w row => w ^^^ a.word column row) 0

/-- The linear part inside the columns: each word takes the parities of the two columns beside its own. -/
def Sponge.diffuse (a : Sponge) : Sponge :=
  let p := [0, 1, 2, 3, 4].map a.parity
  a.mapIdx fun i w => w ^^^ p.getD ((i + 4) % 5) 0 ^^^ (p.getD ((i + 1) % 5) 0).rotateLeft 1

/-- One step of the walk over the 24 words beside the first, which starts at column 1 of row 0: the word there, turned by a
triangular number, goes to the next place. -/
def Sponge.walk (a : Sponge) (p : (Nat × Nat) × Sponge) (t : Nat) : (Nat × Nat) × Sponge :=
  let ((column, row), b) := p
  let next := (2 * column + 3 * row) % 5
  ((row, next), b.set (5 * next + row) ((a.word column row).rotateLeft ((t + 1) * (t + 2) / 2 % 64)))

/-- The words turned and moved. -/
def Sponge.scatter (a : Sponge) : Sponge := ((List.range 24).foldl a.walk ((1, 0), a)).2

/-- The part that is not linear, inside the rows. -/
def Sponge.mix (a : Sponge) : Sponge :=
  a.mapIdx fun i w => w ^^^ (~~~a.word (i + 1) (i / 5) &&& a.word (i + 2) (i / 5))

/-- n bits of the register of eight bits whose feedback is x^8 + x^6 + x^5 + x^4 + 1. -/
def feedbackBits : Nat → Nat → List Bool
  | 0, _ => []
  | n + 1, r => r.testBit 0 :: feedbackBits n (if 128 ≤ r then Nat.xor (2 * r) 0x171 else 2 * r)

/-- The constant of a round: its seven bits of the register stand at the places 2^j - 1. -/
def roundWord (bits : List Bool) : Word :=
  bits.zipIdx.foldl (fun w b => if b.1 then w ||| 1#64 <<< (2 ^ b.2 - 1) else w) 0

/-- The round constants. -/
def roundWords : List Word :=
  (List.range 24).map fun i => roundWord (((feedbackBits 168 1).drop (7 * i)).take 7)

/-- One round. -/
def Sponge.round (a : Sponge) (c : Word) : Sponge := (a.diffuse.scatter.mix).modify 0 (· ^^^ c)

/-- The permutation of FIPS 202. -/
def Sponge.permute (a : Sponge) : Sponge := roundWords.foldl Sponge.round a

/-- A block of 136 bytes goes in. -/
def Sponge.take (a : Sponge) (block : List Byte) : Sponge :=
  Sponge.permute (a.mapIdx fun i w => w ^^^ BitVec.ofNat 64 (natOfBytes ((block.drop (8 * i)).take 8)))

/-- Whole blocks of a message: its end carries the bits 1111 of SHAKE, then a 1, zeros and the last 1. -/
def shakeBlocks : Nat → List Byte → List (List Byte)
  | 0, _ => []
  | n + 1, d =>
    if 136 ≤ d.length then d.take 136 :: shakeBlocks n (d.drop 136)
    else [(d ++ [0x1F] ++ List.replicate (135 - d.length) 0).modify 135 (· ||| 0x80)]

/-- The first n bytes of SHAKE256 of a message, n at most 136. -/
def shake256 (n : Nat) (d : List Byte) : List Byte :=
  let a := (shakeBlocks (d.length / 136 + 1) d).foldl Sponge.take (List.replicate 25 0)
  (a.flatMap fun w => bytesOf 8 w.toNat).take n

end Sys2Proof.Machine
end

