-- ==== Sys2Proof/Machine/Signature.lean ====
section
/-! DEFINITION. SLH-DSA-SHAKE-256s, the signatures of firmware, configuration, identity and attestation (R430). The spec
names the scheme and its parameter set, and FIPS 205 defines them (log 76): hashes of 32 bytes, 22 trees of height 14 that
sign a message's digest once, and 8 layers of trees of height 8 above them, whose leaves sign 67 digits of four bits. -/

namespace Sys2Proof.Machine

/-- A number as n bytes, highest first. -/
def bytesUp (n w : Nat) : List Byte := (bytesOf n w).reverse

/-- The number that bytes hold, highest first. -/
def natOfUp (d : List Byte) : Nat := natOfBytes d.reverse

/-- Where in the structure a hash is taken: the layer, the tree there, the kind of use and three more numbers. -/
structure HashPlace where
  layer : Nat
  tree : Nat
  kind : Nat
  a : Nat
  b : Nat
  c : Nat
  deriving DecidableEq, Repr

/-- The 32 bytes of a place. -/
def HashPlace.bytes (p : HashPlace) : List Byte :=
  bytesUp 4 p.layer ++ bytesUp 12 p.tree ++ bytesUp 4 p.kind ++ bytesUp 4 p.a ++ bytesUp 4 p.b ++ bytesUp 4 p.c

/-- A private key; its last two parts are the public key. -/
structure SigningKey where
  secret : List Byte
  forMessages : List Byte
  seed : List Byte
  root : List Byte
  deriving DecidableEq, Repr

/-- The hash of bytes at a place. -/
def hashAt (seed : List Byte) (p : HashPlace) (m : List Byte) : List Byte := shake256 32 (seed ++ p.bytes ++ m)

/-! ## Trees of hashes -/

/-- Node i at a height, from the leaves and the join of two nodes. -/
def treeNode (leaf : Nat → List Byte) (join : Nat → Nat → List Byte → List Byte) : Nat → Nat → List Byte
  | 0, i => leaf i
  | z + 1, i => join (z + 1) i (treeNode leaf join z (2 * i) ++ treeNode leaf join z (2 * i + 1))

/-- The nodes beside the way from leaf i up. -/
def treePath (leaf : Nat → List Byte) (join : Nat → Nat → List Byte → List Byte) (height i : Nat) : List (List Byte) :=
  (List.range height).map fun z => treeNode leaf join z (Nat.xor (i / 2 ^ z) 1)

/-- The root to which a node at height z leads with the nodes beside its way. -/
def climb (join : Nat → Nat → List Byte → List Byte) : Nat → Nat → List Byte → List (List Byte) → List Byte
  | _, _, node, [] => node
  | z, i, node, b :: t =>
    climb join (z + 1) (i / 2) (join (z + 1) (i / 2) (if i % 2 = 0 then node ++ b else b ++ node)) t

/-! ## Chains that sign digits -/

/-- A hash applied n times, the first time as step i. -/
def hashChain (seed : List Byte) (p : HashPlace) : Nat → Nat → List Byte → List Byte
  | 0, _, x => x
  | n + 1, i, x => hashChain seed p n (i + 1) (hashAt seed { p with c := i } x)

/-- The digits of 32 bytes, with three for the sum of what each lacks to 15. -/
def digitsOf (m : List Byte) : List Nat :=
  let l := m.flatMap fun b => [b.toNat / 16, b.toNat % 16]
  let rest := l.foldl (fun n v => n + (15 - v)) 0
  l ++ [rest / 256, rest / 16 % 16, rest % 16]

/-- The place of chain k of a leaf of a tree. -/
def chainPlace (layer tree leaf k : Nat) : HashPlace := ⟨layer, tree, 0, leaf, k, 0⟩

/-- The value with which chain k of a leaf starts. -/
def SigningKey.chainStart (key : SigningKey) (layer tree leaf k : Nat) : List Byte :=
  hashAt key.seed ⟨layer, tree, 5, leaf, k, 0⟩ key.secret

/-- A leaf from the ends of its chains. -/
def leafOf (seed : List Byte) (layer tree leaf : Nat) (ends : List (List Byte)) : List Byte :=
  hashAt seed ⟨layer, tree, 1, leaf, 0, 0⟩ ends.flatten

/-- A leaf of a tree of a layer. -/
def SigningKey.leaf (key : SigningKey) (layer tree i : Nat) : List Byte :=
  leafOf key.seed layer tree i ((List.range 67).map fun k =>
    hashChain key.seed (chainPlace layer tree i k) 15 0 (key.chainStart layer tree i k))

/-- Two nodes of a tree of a layer joined. -/
def joinOf (seed : List Byte) (layer tree z i : Nat) (m : List Byte) : List Byte :=
  hashAt seed ⟨layer, tree, 2, 0, z, i⟩ m

/-- The parts of a tree's signature of 32 bytes with leaf i: the chains at their digits, then the way up. -/
def SigningKey.signInTree (key : SigningKey) (layer tree i : Nat) (m : List Byte) : List (List Byte) :=
  ((digitsOf m).mapIdx fun k v => hashChain key.seed (chainPlace layer tree i k) v 0 (key.chainStart layer tree i k)) ++
    treePath (key.leaf layer tree) (joinOf key.seed layer tree) 8 i

/-- The root to which a tree's signature leads. -/
def rootOfTree (seed : List Byte) (layer tree i : Nat) (m : List Byte) (parts : List (List Byte)) : List Byte :=
  let ends := (digitsOf m).mapIdx fun k v => hashChain seed (chainPlace layer tree i k) (15 - v) v (parts.getD k [])
  climb (joinOf seed layer tree) 0 i (leafOf seed layer tree i ends) (parts.drop 67)

/-! ## The layers -/

/-- The signatures of n layers from a layer up. -/
def SigningKey.signLayers (key : SigningKey) : Nat → Nat → Nat → Nat → List Byte → List (List Byte)
  | 0, _, _, _, _ => []
  | n + 1, layer, tree, i, m =>
    let parts := key.signInTree layer tree i m
    parts ++ key.signLayers n (layer + 1) (tree / 256) (tree % 256) (rootOfTree key.seed layer tree i m parts)

/-- The root to which the signatures of n layers lead. -/
def rootOfLayers (seed : List Byte) : Nat → Nat → Nat → Nat → List Byte → List (List Byte) → List Byte
  | 0, _, _, _, m, _ => m
  | n + 1, layer, tree, i, m, parts =>
    rootOfLayers seed n (layer + 1) (tree / 256) (tree % 256) (rootOfTree seed layer tree i m (parts.take 75))
      (parts.drop 75)

/-! ## The trees that sign a digest -/

/-- Where a message's digest sends its signature: 22 leaf numbers of 14 bits, the tree and the leaf of the lowest layer. -/
structure Aim where
  leaves : List Nat
  tree : Nat
  leaf : Nat
  deriving DecidableEq, Repr

/-- The aim of a digest of 47 bytes. -/
def aimOf (d : List Byte) : Aim :=
  let x := natOfUp (d.take 39)
  { leaves := (List.range 22).map fun i => x / 2 ^ (298 - 14 * i) % 2 ^ 14
    tree := natOfUp ((d.drop 39).take 7), leaf := natOfUp (d.drop 46) }

/-- The value behind leaf i of the digest's trees. -/
def SigningKey.digestSecret (key : SigningKey) (t : Aim) (i : Nat) : List Byte :=
  hashAt key.seed ⟨0, t.tree, 6, t.leaf, 0, i⟩ key.secret

/-- A leaf, and the join of two nodes, of the digest's trees. -/
def digestLeaf (seed : List Byte) (t : Aim) (i : Nat) (x : List Byte) : List Byte := hashAt seed ⟨0, t.tree, 3, t.leaf, 0, i⟩ x
def digestJoin (seed : List Byte) (t : Aim) (z i : Nat) (m : List Byte) : List Byte :=
  hashAt seed ⟨0, t.tree, 3, t.leaf, z, i⟩ m

/-- The parts by which the digest's trees sign: for each the value behind its leaf and the way up. -/
def SigningKey.signDigest (key : SigningKey) (t : Aim) : List (List Byte) :=
  (t.leaves.mapIdx fun k v =>
    let i := k * 2 ^ 14 + v
    key.digestSecret t i ::
      treePath (fun i => digestLeaf key.seed t i (key.digestSecret t i)) (digestJoin key.seed t) 14 i).flatten

/-- The bytes to which those parts lead, which the lowest layer signs. -/
def rootOfDigest (seed : List Byte) (t : Aim) (parts : List (List Byte)) : List Byte :=
  hashAt seed ⟨0, t.tree, 4, t.leaf, 0, 0⟩ (t.leaves.mapIdx fun k v =>
    let i := k * 2 ^ 14 + v
    let mine := (parts.drop (15 * k)).take 15
    climb (digestJoin seed t) 0 i (digestLeaf seed t i (mine.headD [])) mine.tail).flatten

/-! ## Signing and verifying -/

/-- The bytes of a message that are signed: with no context string. -/
def framed (m : List Byte) : List Byte := [0, 0] ++ m

/-- The key of three secret values: its root is that of the topmost tree. -/
def signingKey (secret forMessages seed : List Byte) : SigningKey :=
  let key : SigningKey := ⟨secret, forMessages, seed, []⟩
  { key with root := treeNode (key.leaf 7 0) (joinOf seed 7 0) 8 0 }

/-- The public half of a key. -/
def SigningKey.public (key : SigningKey) : List Byte := key.seed ++ key.root

/-- A signature of a message with 32 bytes drawn for it. -/
def SigningKey.sign (key : SigningKey) (drawn m : List Byte) : List Byte :=
  let r := shake256 32 (key.forMessages ++ drawn ++ framed m)
  let t := aimOf (shake256 47 (r ++ key.seed ++ key.root ++ framed m))
  let own := key.signDigest t
  r ++ own.flatten ++ (key.signLayers 8 0 t.tree t.leaf (rootOfDigest key.seed t own)).flatten

/-- n parts of 32 bytes. -/
def partsOf : Nat → List Byte → List (List Byte)
  | 0, _ => []
  | n + 1, d => d.take 32 :: partsOf n (d.drop 32)

/-- Bytes in a signature (R430). -/
def signatureSize : Nat := 29792

/-- A signature of a message is good under a public key. -/
def verifies (key m signature : List Byte) : Bool :=
  if signature.length ≠ signatureSize ∨ key.length ≠ 64 then false
  else
    let seed := key.take 32
    let t := aimOf (shake256 47 (signature.take 32 ++ key ++ framed m))
    let parts := partsOf 930 (signature.drop 32)
    rootOfLayers seed 8 0 t.tree t.leaf (rootOfDigest seed t (parts.take 330)) (parts.drop 330) == key.drop 32

end Sys2Proof.Machine
end

