-- ==== Sys2Proof/Machine/Management.lean ====
section
/-! DEFINITION. Package reset and boot, attestation, checkpoints, telemetry and the management sideband (R25, R428 to
R434). -/

namespace Sys2Proof.Machine

/-! ## Package reset (R428) -/

/-- Host memory, which no reset of the package touches. -/
def hostCells (m : List Host.Cell) : List Host.Cell := m.filter fun c => isHostHome c.1

/-- Memory with bytes at a home address. -/
def placeBytes (m : List Host.Cell) (a : Nat) (d : List Byte) : List Host.Cell := Memory.putAll m (cellsFrom a d)

/-- A word of eight bytes in a list of bytes. -/
def wordIn (d : List Byte) (at_ : Nat) : Word := BitVec.ofNat 64 (natOfBytes ((d.drop at_).take 8))

/-- The security version of the image, in the first word of its header, and what the configuration block sets, in its
first two words: the spec gives neither layout (log 12). -/
def Flash.version (f : Flash) : Word := wordIn f.header 0
def Flash.msplit (f : Flash) : BitVec 32 := (wordIn f.block 0).setWidth 32
def Flash.cpool (f : Flash) : Word := wordIn f.block 8

/-- The configuration block is taken: it verifies under the vendor key, or firmware has rewritten it, for which R229 asks no
new signature (log 76). -/
def Flash.blockTaken (f : Flash) (vendor : List Byte) : Bool := f.rewritten || verifies vendor f.block f.blockSignature

/-- The step of R428 that fails, 0 for none: verification and version, then the configuration block. -/
def Flash.failure (f : Flash) (vendor : List Byte) (fuses : Word) : Nat :=
  if !verifies vendor f.header f.headerSignature || decide (f.version.toNat < fuses.toNat) then 2
  else if !f.blockTaken vendor || decide (f.msplit.toNat % 16 < 2) then 3
  else 0

/-- PACKAGE_RESET (R25, R428, R430): the boot hart starts at the boot vector over the copied code; a failed boot starts
no hart and shows its step. An image that verifies raises the fuses to its version. What lies outside the package, the
flash, the fuses, the Scarab engine's seed and vendor key, and the model's own counters stay. -/
def execPackageReset (s : State) : Out :=
  let n := s.flash.failure s.keys.vendor s.fuses
  let raised := if s.fuses.toNat < s.flash.version.toNat then s.flash.version else s.fuses
  let r : State :=
    { State.reset with
        agenda := s.agenda, steps := s.steps, outbox := s.outbox, mem := hostCells s.mem, flash := s.flash
        attached := s.attached, keys := s.keys
        fuses := if n = 2 then s.fuses else raised }
  if n ≠ 0 then
    .next { r with
      control := { r.control with bootFailure := BitVec.ofNat 64 n }, hart := { r.hart with run := .gone } }
  else
    .next { r with
      mem := placeBytes r.mem 0x10000001000 s.flash.code
      msplit := s.flash.msplit, cpool := s.flash.cpool, nextMsplit := s.flash.msplit, nextCpool := s.flash.cpool
      dies := r.dies.mapIdx fun k d =>
        { d with cpfree := BitVec.ofNat 32 (poolSectors ((s.flash.cpool >>> (8 * k)).toNat % 256)) } }

/-! ## Attestation (R431) -/

/-- A list of bytes cut or filled with zeros to n. -/
def sized (n : Nat) (d : List Byte) : List Byte := (d ++ List.replicate (n - d.length) 0).take n

/-- The device identity key pair, derived from the fused seed (R430). -/
def ScarabKeys.identity (k : ScarabKeys) : SigningKey :=
  let part (i : Nat) : List Byte := (List.range' (32 * i) 32).map (Config.identityByte k.seed)
  signingKey (part 0) (part 1) (part 2)

/-- What a report says (R431): the SHAKE256 digests of the firmware, its header and its code, and of the configuration
block, the security version, the nonce and the time. -/
def State.reportOn (s : State) (nonce : List Byte) : List Byte :=
  shake256 64 (s.flash.header ++ s.flash.code) ++ shake256 64 s.flash.block ++ bytesOf 8 s.fuses.toNat ++ nonce ++
    bytesOf 8 s.time.toNat

/-- ATTESTATION_REPORT (R430, R431): the report, with the signature over it by the identity key, goes into the buffer from
offset 64, then vector 6 is signalled. What the signature draws is the event's (log 8). -/
def execAttestationReport (report : ScarabReport) (s : State) : Out :=
  if !s.attesting then .next s
  else
    let pa := s.control.attestation.toNat
    let (nonce, s) := s.readPa .scarab pa 32
    let said := s.reportOn nonce
    let data := said ++ s.keys.identity.sign (sized 32 report.random) said
    .next (({ s.writePa .scarab (pa + 64) data with attesting := false } : State).send (.msix 0 6))

/-! ## Checkpoint (R432) -/

/-- Die-named HBM in PA order: 512 GiB. -/
def hbmSize : Nat := 0x8000000000

/-- Cells of a range moved to another place, in place of what was there. -/
def moveCells (m : List Host.Cell) (from_ target n : Nat) : List Host.Cell :=
  let moved := (m.filter fun c => decide (from_ ≤ c.1 ∧ c.1 < from_ + n)).map fun c => (c.1 - from_ + target, c.2)
  Memory.putAll (m.filter fun c => !decide (target ≤ c.1 ∧ c.1 < target + n)) moved

/-- The words that a host write has changed during a copy, of which a free choice takes some (R270, R432): the bytes
changed, as they were. -/
def State.crossedBy (s : State) : List (Nat × List Byte) :=
  (s.crossed.zipIdx.filter fun x => Config.copyPast s.steps x.1.1 x.2).map Prod.fst

/-- The copy of a save takes such bytes as they were. -/
def State.copyOut (target : Nat) (s : State) : State :=
  let old (m : List Host.Cell) (x : Nat × List Byte) : List Host.Cell := Memory.putAll m (cellsFrom (target + x.1) x.2)
  { s with mem := s.crossedBy.foldl old (moveCells s.mem 0 target hbmSize) }

/-- The copy of a restore leaves such bytes as the host wrote them. What reader counts and errors said of the old
contents is over. -/
def State.copyIn (source : Nat) (s : State) : State :=
  let new (m : List Host.Cell) (x : Nat × List Byte) : List Host.Cell :=
    Memory.putAll m (x.2.mapIdx fun i _ => (x.1 + i, Memory.get s.mem (x.1 + i)))
  { s with
      mem := s.crossedBy.foldl new (moveCells s.mem source 0 hbmSize)
      poison := s.poison.filter fun g => !isHbmHome g, errors := s.errors.filter fun e => !isHbmHome e.1
      dies := s.dies.map fun d => { d with dropped := [] } }

/-- The copy crosses every die's link to the I/O die, and waits where one carries nothing (R376, R429). -/
def State.meetHostLinks (s : State) : State := s.meetLinks ⟨(List.range 8).map fun k => (k, 5), 0⟩

/-- A target-side unit watches addresses of HBM, under one name or the other. -/
def watchesHbm (addr : Word) (ctl : BitVec 11) : Bool :=
  decide (addr.toNat / 2 ^ min (ctl.extractLsb' 3 5).toNat 16 * 2 ^ min (ctl.extractLsb' 3 5).toNat 16 < 0x10000000000)

/-- The target-side units look at a checkpoint's copy, which reads or writes all of HBM at its dies (R353, R432). -/
def State.watchCopy (ld st : Bool) (s : State) : State :=
  (s.clusters.zipIdx).foldl (fun s p => (List.range 4).foldl (fun s u =>
    let ctl := p.1.dtc.toList.getD u 0
    if ctl.getLsbD 0 && !ctl.getLsbD 8 && ((ld && ctl.getLsbD 1) || (st && ctl.getLsbD 2)) &&
        watchesHbm (p.1.dta.toList.getD u 0) ctl then
      s.fire .host p.2 u (ctl.extractLsb' 9 2)
    else s) s) s

/-- CHECKPOINT_COMPLETE (R432): once every gang has left its cores, the caches write back and the collective engine holds;
then HBM is copied, the status word, whose value the spec does not give, is written, vector 6 signalled, and scheduling
resumes, the scale-out ports with it. -/
def execCheckpointComplete (s : State) : Out :=
  match s.checkpoint with
  | none => .next s
  | some k =>
    if s.gangs.any fun g => g.launch.isSome then .next s
    else if !k.holding then
      .next { s.settleCaches with checkpoint := some { k with holding := true }, portsHeld := s.portsSince }
    else
      let s := s.meetHostLinks
      let host (w : Word) : Nat := 0x800000000000 + w.toNat % 0x800000000000
      let s :=
        match k.work with
        | .save w => (s.copyOut (host w)).watchCopy true false
        | .restore w => (s.copyIn (host w)).watchCopy false true
      let control := { s.control with status := Config.checkpointStatus s.steps }
      .next ((({ s with checkpoint := none, crossed := [], control := control } : State).freePorts).send (.msix 0 6))

/-! ## Telemetry and the sideband (R433, R434) -/

/-- n words of four bytes. -/
def words32 (n : Nat) (l : List (BitVec 32)) : List Byte := (List.range n).flatMap fun i => bytesOf 4 (l.getD i 0).toNat

/-- A telemetry line (R433). -/
def State.telemetry (s : State) (r : TelemetryReadings) : List Byte :=
  sized 128 (bytesOf 8 s.time.toNat ++ bytesOf 4 r.packagePower.toNat ++ words32 6 r.computePower ++
    words32 8 r.memoryPower ++ sized 12 r.temperatures ++
    bytesOf 8 (s.cores.foldl (fun n c => n + c.droops.toNat) 0))

/-- TELEMETRY_LINE (R433): the readings are the event's (log 8). The I/O die keeps the line for the sideband (R434). -/
def execTelemetryLine (readings : TelemetryReadings) (s : State) : Out :=
  let at_ := s.control.telbase.toNat + 128 * (s.telemetryCount % 1024)
  let line := s.telemetry readings
  .next { s.writePa .host at_ line with telemetryCount := s.telemetryCount + 1, telemetryLatest := line }

/-- Bytes at a PA as memory holds them. The sideband reads them with no request: R370 names no requester for its reads
(log 78). -/
def State.lookPa (s : State) (pa n : Nat) : List Byte :=
  match s.homeOf pa with
  | some a => s.dieBytes a n
  | none => List.replicate n 0

/-- SMBUS_READ_TELEMETRY (R434): the latest line, whatever memory now holds where it was written. -/
def execSmbusReadTelemetry (s : State) : Out := .next (s.send (.smbus s.telemetryLatest))

/-- SMBUS_READ_MC_RECORD (R332, R434): an index past the log is not acknowledged, nor is a command code that the table of
R434 does not hold. -/
def execSmbusReadMcRecord (n : SmbusRead) (s : State) : Out :=
  match n with
  | .record n =>
    if n < 128 * (max 1 s.mclogUnits.toNat) then
      .next (s.send (.smbus (s.lookPa (s.mclogBase.toNat * 4096 + 32 * n) 32)))
    else .next (s.send .smbusNotAcknowledged)
  | .command code =>
    if code = 1 then .next (s.send (.smbus s.telemetryLatest))
    else if code = 2 then .next (s.send (.smbus (s.lookPa (s.mclogBase.toNat * 4096) 32)))
    else if code = 3 then .next (s.send (.smbus (bytesOf 8 s.control.bootFailure.toNat)))
    else .next (s.send .smbusNotAcknowledged)

/-- SMBUS_READ_BOOT_FAILURE (R434). -/
def execSmbusReadBootFailure (s : State) : Out := .next (s.send (.smbus (bytesOf 8 s.control.bootFailure.toNat)))

end Sys2Proof.Machine
end

