-- ==== Sys2Proof/Machine/Flags.lean ====
section
/-! DEFINITION. The sticky flags (R67), what an instruction raises (R68), and the stochastic generator (R65, R66). -/

namespace Sys2Proof.Machine

/-- Flag bits of fflags (R67). -/
abbrev FlagSet := BitVec 7

def flagNX : FlagSet := 1
def flagUF : FlagSet := 2
def flagOF : FlagSet := 4
def flagDZ : FlagSet := 8
def flagNV : FlagSet := 16
def flagSAT : FlagSet := 32
def flagRSVD : FlagSet := 64

/-- A flag if a condition holds. -/
def flagIf (b : Bool) (f : FlagSet) : FlagSet := if b then f else 0

/-- Flags are ORed into fflags: instructions only set them (R67). -/
def Hart.raise (f : FlagSet) (h : Hart) : Hart := { h with flags := h.flags ||| f }

/-- The current hart raises flags. -/
def raise (f : FlagSet) : M Unit := onHart (Hart.raise f)

/-- A value with the flags that making it raised: the flags are kept, the value answered. -/
def raising {α : Type} (r : α × FlagSet) : M α := do
  raise r.2
  return r.1

/-! ## The stochastic generator -/

/-- One step of the generator (R65). -/
def srStep (s : BitVec 32) : BitVec 32 :=
  (s <<< 1) ||| (BitVec.ofBool (s.getLsbD 31 ^^ s.getLsbD 21 ^^ s.getLsbD 1 ^^ s.getLsbD 0)).setWidth 32

/-- A number of steps of the generator. -/
def srSteps : Nat → BitVec 32 → BitVec 32
  | 0, s => s
  | n + 1, s => srSteps n (srStep s)

/-- One draw where a descriptor asks for stochastic rounding (R65, R66). -/
def drawIf (sr : Bool) : M (Option (BitVec 32)) := do
  if sr then
    let r := srSteps 32 (← hart).srgen
    onHart fun h => { h with srgen := r }
    return some r
  else return none

end Sys2Proof.Machine
end

