-- ==== Sys2Proof/Machine/Formats.lean ====
section
/-! DEFINITION. Number formats (R45 to R60): format codes and layouts, the exact value that the bits of an element
stand for, format descriptors and the combinations that every instruction rejects (R61, R62), and the capability
gate on formats (R35). -/

namespace Sys2Proof.Machine

/-! ## Formats -/

/-- The formats of R45; code 15 is none. -/
inductive Fmt where
  | int8
  | uint8
  | int16
  | int32
  | int64
  | int4
  | lns6
  | e4m3
  | e5m2
  | fp16
  | bf16
  | fp32
  | fp64
  | block
  | uint4
  deriving DecidableEq, Repr

/-- The format of a code (R45). -/
def fmtOf (c : BitVec 4) : Option Fmt :=
  match c.toNat with
  | 0 => some .int8
  | 1 => some .uint8
  | 2 => some .int16
  | 3 => some .int32
  | 4 => some .int64
  | 5 => some .int4
  | 6 => some .lns6
  | 7 => some .e4m3
  | 8 => some .e5m2
  | 9 => some .fp16
  | 10 => some .bf16
  | 11 => some .fp32
  | 12 => some .fp64
  | 13 => some .block
  | 14 => some .uint4
  | _ => none

/-- Bits of an element in a register: an LNS6 element has an 8-bit container (R57). A block-scaled operand counts as
its element format, which its callers name. -/
def Fmt.width (f : Fmt) : Nat :=
  match f with
  | .int4 | .uint4 => 4
  | .int8 | .uint8 | .lns6 | .e4m3 | .e5m2 | .block => 8
  | .int16 | .fp16 | .bf16 => 16
  | .int32 | .fp32 => 32
  | .int64 | .fp64 => 64

/-- A floating-point layout: exponent bits, fraction bits, bias, the largest finite magnitude code, the infinity's
code, the canonical NaN (R49, R50). -/
structure Layout where
  eb : Nat
  mb : Nat
  bias : Nat
  top : Nat
  inf : Option Nat
  nan : Nat
  deriving DecidableEq, Repr

/-- The floating-point layout of a format (R49, R50). -/
def Fmt.layout (f : Fmt) : Option Layout :=
  match f with
  | .e4m3 => some ⟨4, 3, 7, 0x7E, none, 0x7F⟩
  | .e5m2 => some ⟨5, 2, 15, 0x7B, some 0x7C, 0x7E⟩
  | .fp16 => some ⟨5, 10, 15, 0x7BFF, some 0x7C00, 0x7E00⟩
  | .bf16 => some ⟨8, 7, 127, 0x7F7F, some 0x7F80, 0x7FC0⟩
  | .fp32 => some ⟨8, 23, 127, 0x7F7FFFFF, some 0x7F800000, 0x7FC00000⟩
  | .fp64 => some ⟨11, 52, 1023, 0x7FEFFFFFFFFFFFFF, some 0x7FF0000000000000, 0x7FF8000000000000⟩
  | _ => none

def Fmt.isFloat (f : Fmt) : Bool := f.layout.isSome

/-- The range of an integer format (R46, R47). -/
def Fmt.range (f : Fmt) : Option (Int × Int) :=
  match f with
  | .int8 => some (-128, 127)
  | .uint8 => some (0, 255)
  | .int16 => some (-32768, 32767)
  | .int32 => some (-2147483648, 2147483647)
  | .int64 => some (-9223372036854775808, 9223372036854775807)
  | .int4 => some (-7, 7)
  | .uint4 => some (0, 15)
  | _ => none

def Fmt.isInt (f : Fmt) : Bool := f.range.isSome

/-- Bits of a magnitude: the element without its sign. -/
def Layout.magBits (l : Layout) : Nat := l.eb + l.mb

/-- The exponent of the unit in the last place of the smallest values. -/
def Layout.least (l : Layout) : Int := 1 - (l.bias : Int) - (l.mb : Int)

/-- The element of a sign and a magnitude code. -/
def Layout.word (l : Layout) (neg : Bool) (mag : Nat) : Word :=
  BitVec.ofNat 64 (mag + if neg then 2 ^ l.magBits else 0)

/-! ## Values -/

/-- The exact value of an operand: NaN (NaR too), an infinity, or a number (−1)^neg × m × 2^e; a zero has a sign. -/
inductive Val where
  | nan
  | inf (neg : Bool)
  | num (neg : Bool) (m : Nat) (e : Int)
  deriving DecidableEq, Repr

/-- The value of an integer. -/
def Val.ofInt (x : Int) : Val := .num (decide (x < 0)) x.natAbs 0

/-- Positive zero. -/
def Val.zero : Val := .num false 0 0

def Val.neg (v : Val) : Val :=
  match v with
  | .nan => .nan
  | .inf s => .inf (!s)
  | .num s m e => .num (!s) m e

def Val.isNan (v : Val) : Bool :=
  match v with
  | .nan => true
  | _ => false

/-- A value times a power of two (R58). -/
def Val.scale (v : Val) (k : Int) : Val :=
  match v with
  | .num s m e => .num s m (e + k)
  | v => v

/-- The value of a floating-point element (R49, R50). -/
def Layout.value (l : Layout) (w : Nat) : Val :=
  let neg := w.testBit l.magBits
  let mag := w % 2 ^ l.magBits
  if l.inf = some mag then .inf neg
  else if l.top < mag then .nan
  else if mag / 2 ^ l.mb = 0 then .num neg mag l.least
  else .num neg (2 ^ l.mb + mag % 2 ^ l.mb) (l.least + (mag / 2 ^ l.mb : Nat) - 1)

/-- The table of R54, 15 fraction bits. -/
def lnsTable (f : Nat) : Nat :=
  if f % 4 = 0 then 0x8000 else if f % 4 = 1 then 0x9837 else if f % 4 = 2 then 0xB505 else 0xD745

/-- The value of an LNS6 code (R53); bits above the code are ignored (R57). A zero has no sign: it counts as +0. -/
def lnsValue (w : Nat) : Val :=
  let c := w % 64
  if c = 0 then .zero
  else if c = 32 then .nan
  else .num (c.testBit 5) (lnsTable c) ((c % 32 / 4 : Nat) - 19)

/-- The value of an element and the flags that reading it raises: the INT4 code 0b1000 reads 0 and sets RSVD (R47).
`block` reads no value of its own. -/
def Fmt.value (f : Fmt) (w : Word) : Val × FlagSet :=
  match f with
  | .int4 =>
    if w.extractLsb' 0 4 = 8#4 then (.zero, flagRSVD) else (.ofInt (w.extractLsb' 0 4).toInt, 0)
  | .uint4 => (.ofInt (w.extractLsb' 0 4).toNat, 0)
  | .int8 => (.ofInt (w.extractLsb' 0 8).toInt, 0)
  | .uint8 => (.ofInt (w.extractLsb' 0 8).toNat, 0)
  | .int16 => (.ofInt (w.extractLsb' 0 16).toInt, 0)
  | .int32 => (.ofInt (w.extractLsb' 0 32).toInt, 0)
  | .int64 => (.ofInt w.toInt, 0)
  | .lns6 => (lnsValue w.toNat, 0)
  | f =>
    match f.layout with
    | some l => (l.value (w.toNat % 2 ^ (l.magBits + 1)), 0)
    | none => (.nan, 0)

/-- The value of an element of a block under its scale byte (R58). -/
def Fmt.blockValue (f : Fmt) (scale : Byte) (w : Word) : Val × FlagSet :=
  if scale = 0xFF then (.nan, 0)
  else
    let (v, fl) := f.value w
    (v.scale ((scale.toNat : Int) - 127), fl)

/-! ## Exact operations on values -/

/-- Invalid: the canonical NaN and NV (R52). -/
def Val.invalid : Val × FlagSet := (.nan, flagNV)

/-- The exact product, with the sign that IEEE 754 gives it (R52). -/
def Val.mul (x y : Val) : Val × FlagSet :=
  match x, y with
  | .nan, _ => (.nan, 0)
  | _, .nan => (.nan, 0)
  | .inf s, .inf t => (.inf (s ^^ t), 0)
  | .inf s, .num t m _ => if m = 0 then Val.invalid else (.inf (s ^^ t), 0)
  | .num s m _, .inf t => if m = 0 then Val.invalid else (.inf (s ^^ t), 0)
  | .num s m e, .num t n f => (.num (s ^^ t) (m * n) (e + f), 0)

/-- m × 2^e as an integer in units of 2^base, base at most e. -/
def shifted (neg : Bool) (m : Nat) (e base : Int) : Int :=
  let x : Nat := m * 2 ^ (e - base).toNat
  if neg then -(x : Int) else x

/-- The least exponent of the numbers of a list, or a bound. -/
def leastExp : Int → List Val → Int
  | b, [] => b
  | b, .num _ m e :: t => leastExp (if m = 0 then b else min b e) t
  | b, _ :: t => leastExp b t

/-- The exact sum of the numbers of a list in units of 2^base. -/
def sumAt (base : Int) : List Val → Int
  | [] => 0
  | .num s m e :: t => (if m = 0 then 0 else shifted s m e base) + sumAt base t
  | _ :: t => sumAt base t

/-- Every term is a zero of a sign. -/
def allZeros (s : Bool) (l : List Val) : Bool :=
  l.all fun v => match v with
    | .num t m _ => m == 0 && t == s
    | _ => false

/-- The exact sum of terms (R52): a NaN term gives NaN; infinities of opposite sign give NaN and NV (log 15); a zero
sum takes the sign of R52 under the round field. -/
def Val.sum (round : BitVec 2) (l : List Val) : Val × FlagSet :=
  let pos := l.contains (.inf false)
  let neg := l.contains (.inf true)
  if pos && neg then Val.invalid
  else if l.any Val.isNan then (.nan, 0)
  else if pos then (.inf false, 0)
  else if neg then (.inf true, 0)
  else
    let base := leastExp 0 l
    let x := sumAt base l
    if x ≠ 0 then (.num (decide (x < 0)) x.natAbs base, 0)
    else if allZeros true l then (.num true 0 0, 0)
    else if allZeros false l then (.num false 0 0, 0)
    else (.num (round == 2) 0 0, 0)

/-- The order of two values, none with a NaN; −0 equals +0 (R81). -/
def Val.cmp (x y : Val) : Option Ordering :=
  match x, y with
  | .nan, _ => none
  | _, .nan => none
  | .inf s, .inf t => some (if s = t then .eq else if s then .lt else .gt)
  | .inf s, .num _ _ _ => some (if s then .lt else .gt)
  | .num _ _ _, .inf t => some (if t then .gt else .lt)
  | .num s m e, .num t n f =>
    let base := min e f
    some (compare (shifted s m e base) (shifted t n f base))

/-! ## Descriptors (R61, R62) -/

/-- A format descriptor (R61). -/
structure Desc where
  a : BitVec 4
  b : BitVec 4
  d : BitVec 4
  round : BitVec 2
  sat : Bool
  sr : Bool
  block : BitVec 4
  sparse : BitVec 4
  deriving DecidableEq, Repr

/-- The descriptor of a format register (R61). -/
def descOf (w : BitVec 24) : Desc :=
  { a := w.extractLsb' 0 4, b := w.extractLsb' 4 4, d := w.extractLsb' 8 4, round := w.extractLsb' 12 2
    sat := w.getLsbD 14, sr := w.getLsbD 15, block := w.extractLsb' 16 4, sparse := w.extractLsb' 20 4 }

/-- The descriptor that an fm selector names. -/
def Hart.desc (h : Hart) (f : BitVec 3) : Desc := descOf (h.fm.toList.getD f.toNat 0)

/-- A format field holds 13. -/
def Desc.scaled (q : Desc) : Bool := q.a == 13 || q.b == 13 || q.d == 13

/-- The element formats of blocks (R58). -/
def blockElement (c : BitVec 4) : Bool := c == 0 || c == 5 || c == 6 || c == 7 || c == 8 || c == 14

/-- Stochastic rounding applies to a destination (R62). -/
def Desc.srDst (q : Desc) : Bool :=
  q.d == 9 || q.d == 10 || q.d == 7 || q.d == 8 || (q.d == 13 && (q.block == 7 || q.block == 8))

/-- The descriptor passes what condition 5 of R34 asks of every instruction: no code 15, and R62. `rounds` says that
the instruction rounds a result into its destination format, `matrix` that it is a matrix instruction. -/
def Desc.common (q : Desc) (rounds matrix : Bool) : Bool :=
  q.a != 15 && q.b != 15 && q.d != 15 &&
    (if q.scaled then blockElement q.block else q.block == 0) &&
    (q.sparse == 0 || (matrix && (q.sparse == 2 || q.sparse == 3 || q.sparse == 4 || q.sparse == 6))) &&
    (!(q.sr && rounds) || q.srDst)

/-- A code names LNS6, INT4 or UINT4. -/
def lnsCode (c : BitVec 4) : Bool := c == 6 || c == 5 || c == 14

/-- Row [1] of R35. -/
def Desc.lns (q : Desc) : Bool :=
  lnsCode q.a || lnsCode q.b || lnsCode q.d || (q.scaled && lnsCode q.block)

/-- Row [0] of R35. -/
def Desc.f64 (q : Desc) : Bool := q.a == 12 || q.b == 12 || q.d == 12

/-- The element format of a field: the block's where the field holds 13. -/
def Desc.elem (q : Desc) (c : BitVec 4) : BitVec 4 := if c = 13 then q.block else c

/-- Capability-gated for want of a bit of capmask: the migrate trap (R35, condition 7 of R34). -/
def gate (bit : Nat) (b : Bool) : M Unit := do
  let h ← hart
  if b && !(capmask h.cluster).getLsbD bit then trapWord 0x07

end Sys2Proof.Machine
end

