-- ==== Sys2Proof/Machine/Rounding.lean ====
section
/-! DEFINITION. Rounding once to a destination format (R52, R63 to R65), conversions to integers and to LNS6
(R56, R64), quotients and square roots, and the choice of a block's scale (R59). -/

namespace Sys2Proof.Machine

/-- How a result is rounded: the round field, the saturate bit, and the draw where rounding is stochastic. -/
structure Rnd where
  mode : BitVec 2
  sat : Bool
  draw : Option (BitVec 32)
  deriving DecidableEq, Repr

/-- The rounding of a descriptor with a draw. -/
def Desc.rnd (q : Desc) (draw : Option (BitVec 32)) : Rnd := ⟨q.round, q.sat, draw⟩

/-- Whether a discarded part of a magnitude raises it by one unit: `rest` of 2^n, plus something less than one
more when `more` (R63, R65). -/
def roundsUp (r : Rnd) (neg odd : Bool) (rest n : Nat) (more : Bool) : Bool :=
  match r.draw with
  | some d => decide (2 ^ 32 ≤ rest * 2 ^ 32 / 2 ^ n + d.toNat)
  | none =>
    let inexact := rest != 0 || more
    match r.mode.toNat with
    | 0 => decide (2 ^ n < 2 * rest) || (2 * rest == 2 ^ n && (more || odd))
    | 1 => false
    | 2 => inexact && neg
    | _ => inexact && !neg

/-- The magnitude m × 2^e, or a little more when `more`, rounded to a multiple of 2^u: the multiple, and whether
something was discarded. -/
def roundAt (r : Rnd) (neg : Bool) (m : Nat) (e u : Int) (more : Bool) : Nat × Bool :=
  if e < u then
    let n := (u - e).toNat
    let q := m / 2 ^ n
    let rest := m % 2 ^ n
    (q + (if roundsUp r neg (q % 2 == 1) rest n more then 1 else 0), rest != 0 || more)
  else
    let q := m * 2 ^ (e - u).toNat
    (q + (if roundsUp r neg (q % 2 == 1) 0 0 more then 1 else 0), more)

/-- The result of an overflow without saturation (R64): under E4M3 the NaN, else the mode's IEEE result. -/
def Layout.overflow (l : Layout) (r : Rnd) (neg : Bool) : Word :=
  match l.inf with
  | none => BitVec.ofNat 64 l.nan
  | some inf =>
    let toInf := match r.mode.toNat with
      | 0 => true
      | 1 => false
      | 2 => neg
      | _ => !neg
    l.word neg (if toInf then inf else l.top)

/-- A magnitude rounded to a floating-point format (R63 to R65); tininess is detected after rounding. -/
def Layout.round (l : Layout) (r : Rnd) (neg : Bool) (m : Nat) (e : Int) (more : Bool) : Word × FlagSet :=
  if m = 0 then (l.word neg 0, 0)
  else
    let size := e + (Nat.log2 m : Int)
    let free := size - (l.mb : Int)
    let u := max free l.least
    let (t, inexact) := roundAt r neg m e u more
    let mag := t + (u - l.least).toNat * 2 ^ l.mb
    if l.top < mag then
      if r.sat then (l.word neg l.top, flagOF ||| flagNX ||| flagSAT)
      else (l.overflow r neg, flagOF ||| flagNX)
    else
      let unbounded := (roundAt r neg m e free more).1
      let tiny := decide (free < l.least) &&
        !(decide (free + 1 = l.least) && decide (2 ^ (l.mb + 1) ≤ unbounded))
      (l.word neg mag, flagIf inexact flagNX ||| flagIf (tiny && inexact) flagUF)

/-- An infinite result delivered in a floating-point format (R64). -/
def Layout.infinite (l : Layout) (sat neg : Bool) : Word × FlagSet :=
  match l.inf with
  | some inf => (l.word neg inf, 0)
  | none =>
    if sat then (l.word neg l.top, flagOF ||| flagSAT) else (BitVec.ofNat 64 l.nan, flagOF)

/-! ## Integers -/

/-- An integer as an element of w bits. -/
def intWord (w : Nat) (x : Int) : Word := lowBits w (BitVec.ofInt 64 x)

/-- An arithmetic result in an integer format (R64): wrapped, or clamped under sat; 4-bit results clamp always
(R47). -/
def Fmt.arith (f : Fmt) (sat : Bool) (x : Int) : Word × FlagSet :=
  match f.range with
  | none => (0, 0)
  | some (lo, hi) =>
    if sat || f == .int4 || f == .uint4 then
      let y := max lo (min x hi)
      (intWord f.width y, flagIf (x != y) flagSAT)
    else (intWord f.width x, 0)

/-- A rounded magnitude converted to an integer format (R64): clamped, NX where the integer differs. -/
def Fmt.toInt (f : Fmt) (r : Rnd) (neg : Bool) (m : Nat) (e : Int) (more : Bool) : Word × FlagSet :=
  match f.range with
  | none => (0, 0)
  | some (lo, hi) =>
    let (t, inexact) := roundAt r neg m e 0 more
    let x : Int := if neg then -(t : Int) else t
    let y := max lo (min x hi)
    (intWord f.width y, flagIf (inexact || x != y) flagNX ||| flagIf (x != y) flagSAT)

/-- An infinity converted to an integer format (R64). -/
def Fmt.infToInt (f : Fmt) (neg : Bool) : Word × FlagSet :=
  match f.range with
  | none => (0, 0)
  | some (lo, hi) => (intWord f.width (if neg then lo else hi), flagNX ||| flagSAT)

/-! ## LNS6 -/

/-- The magnitude of candidate L in units of 2^−19; candidate 0 is zero (R53, R56). -/
def lnsMag (l : Nat) : Nat := if l = 0 then 0 else lnsTable l * 2 ^ (l / 4)

/-- An LNS6 code of a sign and L; zero carries no sign. -/
def lnsCodeOf (neg : Bool) (l : Nat) : Word := if l = 0 then 0 else BitVec.ofNat 64 (l + if neg then 32 else 0)

/-- The greatest candidate whose magnitude is at most m × 2^e (R56). -/
def lnsFloor (m : Nat) (e : Int) : Nat → Nat
  | 0 => 0
  | l + 1 => if shifted false (lnsMag (l + 1)) (-19) (min e (-19)) ≤ shifted false m e (min e (-19)) then l + 1
      else lnsFloor m e l

/-- A magnitude converted to LNS6 (R56). -/
def lnsRound (r : Rnd) (neg : Bool) (m : Nat) (e : Int) : Word × FlagSet :=
  let base := min e (-20)
  let x := shifted false m e base
  let c (l : Nat) : Int := shifted false (lnsMag l) (-19) base
  if c 31 < x then (lnsCodeOf neg 31, flagOF ||| flagSAT ||| flagNX)
  else
    let l := lnsFloor m e 31
    if c l = x then (lnsCodeOf neg l, 0)
    else
      let up := match r.mode.toNat with
        | 0 => decide (c l + c (l + 1) < 2 * x) || (2 * x == c l + c (l + 1) && l % 2 == 1)
        | 1 => false
        | 2 => neg
        | _ => !neg
      let k := if up then l + 1 else l
      (lnsCodeOf neg k, flagNX ||| flagIf (k == 0) flagUF)

/-- The LNS6 product of two codes (R55). -/
def lnsProduct (x y : Word) : Word × FlagSet :=
  let a := x.toNat % 64
  let b := y.toNat % 64
  if a = 32 ∨ b = 32 then (32, 0)
  else if a = 0 ∨ b = 0 then (0, 0)
  else
    let neg := a.testBit 5 ^^ b.testBit 5
    let l : Int := (a % 32 : Nat) + (b % 32 : Nat) - 16
    if 31 < l then (lnsCodeOf neg 31, flagOF ||| flagSAT ||| flagNX)
    else if l < 1 then (0, flagUF ||| flagNX)
    else (lnsCodeOf neg l.toNat, 0)

/-- The linear value of the product of two codes in a dot product (R56): a zero gives +0. -/
def lnsTerm (x y : Word) : Val :=
  let a := x.toNat % 64
  let b := y.toNat % 64
  if a = 32 ∨ b = 32 then .nan
  else if a = 0 ∨ b = 0 then .zero
  else
    let l := a % 32 + b % 32
    .num (a.testBit 5 ^^ b.testBit 5) (lnsTable l * 2 ^ (l / 4)) (-23)

/-! ## Delivery -/

/-- A magnitude delivered in a format: rounded once (R63). -/
def Fmt.deliverMag (f : Fmt) (r : Rnd) (neg : Bool) (m : Nat) (e : Int) (more : Bool) : Word × FlagSet :=
  match f.layout with
  | some l => l.round r neg m e more
  | none => if f = .lns6 then lnsRound r neg m e else f.toInt r neg m e more

/-- An exact value delivered in a format: the result and the flags of R63 and R64. A NaN is the canonical NaN of
the destination (R51): as a conversion to an integer it is 0 with NV (R64), to LNS6 it is NaR with NV (R56). -/
def Fmt.deliver (f : Fmt) (r : Rnd) (v : Val) : Word × FlagSet :=
  match v with
  | .num s m e => f.deliverMag r s m e false
  | .inf s =>
    match f.layout with
    | some l => l.infinite r.sat s
    | none => if f = .lns6 then (lnsCodeOf s 31, flagOF) else f.infToInt s
  | .nan =>
    match f.layout with
    | some l => (BitVec.ofNat 64 l.nan, 0)
    | none => if f = .lns6 then (32, flagNV) else (0, flagNV)

/-- A value with its flags delivered. -/
def Fmt.deliverWith (f : Fmt) (r : Rnd) (v : Val × FlagSet) : Word × FlagSet :=
  let (w, fl) := f.deliver r v.1
  (w, fl ||| v.2)

/-- A result that is an operand itself: a NaN is the canonical one of the format (R51). -/
def Fmt.canonical (f : Fmt) (w : Word) : Word :=
  if (f.value w).1.isNan then (f.deliver ⟨0, false, none⟩ .nan).1 else w

/-! ## Quotients and roots

An inexact quotient or root is kept to more than 128 bits and a mark that something more was discarded, which
decides every rounding of R63 and R65 as the exact value does. -/

/-- A quotient of magnitudes delivered. -/
def Fmt.deliverQuotient (f : Fmt) (r : Rnd) (neg : Bool) (m : Nat) (e : Int) (n : Nat) (k : Int) : Word × FlagSet :=
  let x := m * 2 ^ 256
  f.deliverMag r neg (x / n) (e - k - 256) (x % n != 0)

/-- Division (R80): its special cases, then the quotient. -/
def Fmt.divide (f : Fmt) (r : Rnd) (x y : Val) : Word × FlagSet :=
  match x, y with
  | .nan, _ => f.deliver r .nan
  | _, .nan => f.deliver r .nan
  | .inf _, .inf _ => f.deliverWith r Val.invalid
  | .inf s, .num t _ _ => f.deliver r (.inf (s ^^ t))
  | .num s _ _, .inf t => f.deliver r (.num (s ^^ t) 0 0)
  | .num s m e, .num t n k =>
    if n = 0 then
      if m = 0 then f.deliverWith r Val.invalid else f.deliverWith r (.inf (s ^^ t), flagDZ)
    else f.deliverQuotient r (s ^^ t) m e n k

/-- The greatest number below 2^k whose square, added to a square found so far, stays within n. -/
def rootFrom (n : Nat) : Nat → Nat → Nat
  | 0, x => x
  | k + 1, x => rootFrom n k (if (x + 2 ^ k) * (x + 2 ^ k) ≤ n then x + 2 ^ k else x)

/-- The integer square root. -/
def root (n : Nat) : Nat := rootFrom n (Nat.log2 n / 2 + 1) 0

/-- The square root of m × 2^e, m positive, delivered: the operand is taken at an even exponent with at least 256
bits. -/
def Fmt.deliverRoot (f : Fmt) (r : Rnd) (m : Nat) (e : Int) : Word × FlagSet :=
  let odd := e % 2
  let x := m * 2 ^ (odd.toNat + 256)
  let y := root x
  f.deliverMag r false y ((e - odd) / 2 - 128) (y * y != x)

/-- Square root (R80). -/
def Fmt.sqrt (f : Fmt) (r : Rnd) (v : Val) : Word × FlagSet :=
  match v with
  | .nan => f.deliver r .nan
  | .inf s => if s then f.deliverWith r Val.invalid else f.deliver r (.inf false)
  | .num s m e =>
    if m = 0 then f.deliver r (.num s 0 0)
    else if s then f.deliverWith r Val.invalid
    else f.deliverRoot r m e

/-! ## Blocks (R59) -/

/-- emax of an element format (R59). -/
def Fmt.emax (f : Fmt) : Int :=
  match f with
  | .int8 => 6
  | .int4 => 2
  | .uint4 => 3
  | .lns6 => 3
  | .e4m3 => 8
  | .e5m2 => 15
  | _ => 0

/-- The floor of log2 of the largest magnitude among values; none where every one is zero. -/
def topExponent : List Val → Option Int
  | [] => none
  | .num _ m e :: t =>
    if m = 0 then topExponent t
    else
      let x := e + (Nat.log2 m : Int)
      match topExponent t with
      | none => some x
      | some y => some (max x y)
  | _ :: t => topExponent t

/-- The scale byte of a block (R59) and whether the block is a NaN block. -/
def Fmt.blockScale (f : Fmt) (l : List Val) : Byte × FlagSet :=
  if l.any fun v => match v with | .num _ _ _ => false | _ => true then (0xFF, flagNV)
  else
    match topExponent l with
    | none => (0, 0)
    | some x => (BitVec.ofInt 8 (max (-127) (min (x - f.emax) 127) + 127), 0)

/-- An element of a block under its scale byte (R59): always saturated; zero in a NaN block; a negative value in a
UINT4 block is 0 with SAT, whatever it rounds to. -/
def Fmt.blockElem (f : Fmt) (r : Rnd) (scale : Byte) (v : Val) : Word × FlagSet :=
  if scale = 0xFF then (0, 0)
  else
    match f, v with
    | .uint4, .num true (_ + 1) _ => (0, flagNX ||| flagSAT)
    | _, _ => f.deliver { r with sat := true } (v.scale (127 - (scale.toNat : Int)))

end Sys2Proof.Machine
end

