-- ==== Sys2Proof/Machine/Matrix.lean ====
section
/-! DEFINITION. Matrix mode (R153 to R175): panels and the cell image, tile grants, mode changes and chains, drains,
and the instructions of majors 0x36 and 0x38 (R176 to R189). -/

namespace Sys2Proof.Machine

/-! ## Formats and layouts -/

/-- The dot depth of a source element format; 0 for a format that is no source (R69, R158). -/
def Fmt.depth (f : Fmt) : Nat :=
  match f with
  | .fp32 | .fp64 => 1
  | .bf16 | .fp16 => 4
  | .e4m3 | .e5m2 | .int8 | .uint8 => 8
  | .int4 | .uint4 | .lns6 => 16
  | _ => 0

/-- The depth of the element format that a format field names (R158). -/
def Desc.depthOf (q : Desc) (c : BitVec 4) : Nat :=
  match fmtOf (q.elem c) with
  | some f => f.depth
  | none => 0

/-- A panel layout: row slots and chunk slots P, elements in a slot and their width, registers and their alignment
(R160, R161, R189). -/
structure Panel where
  p : Nat
  per : Nat
  bits : Nat
  regs : Nat
  align : Nat
  deriving DecidableEq, Repr

/-- The panel of a source format (R161). -/
def Fmt.panel (f : Fmt) : Panel :=
  let p := if f = .fp64 then 16 else 32
  let n := p * p * f.depth * f.width / 16384
  ⟨p, f.depth, f.width, n, n⟩

/-- The panel of sparse values of N kept values a group, of the dense operand beside it, and of metadata (R189). -/
def sparsePanel (n : Nat) : Panel := ⟨32, 4 * n, 4, n, if n = 2 then 2 else if n = 6 then 8 else 4⟩
def sparseDensePanel : Panel := ⟨32, 48, 4, 12, 4⟩
def metadataPanel : Panel := ⟨32, 4, 32, 8, 8⟩

/-- The panel of the A side or the B side of a descriptor (R161, R189). -/
def Desc.panel (q : Desc) (sideB : Bool) : Panel :=
  if q.sparse ≠ 0 then (if sideB then sparseDensePanel else sparsePanel q.sparse.toNat)
  else ((fmtOf (q.elem (if sideB then q.b else q.a))).getD .block).panel

/-- An operand's limit: aligned, and inside the registers (condition 4 of R34). A sparse panel of 3, 6 or 12 registers is
aligned as R189's column says, to 4, 8 or 4, although R192 and R193 say a multiple of the register count: the model's
choice between the two (log 73). -/
def Panel.ok (p : Panel) (r : BitVec 5) : Bool :=
  p.align != 0 && r.toNat % p.align == 0 && decide (r.toNat + p.regs ≤ 32)

/-- The element of a panel in slot s of row r (R160). -/
def Panel.at_ (p : Panel) (r s t : Nat) : Nat := (r * p.p + s) * p.per + t

/-- The slot of chunk c of row r (R160). -/
def Panel.slot (p : Panel) (c r : Nat) : Nat := (c + r) % p.p

/-! ## Descriptors (R186, R189, R190) -/

/-- The dense table without its block row (R186). -/
def Desc.denseRow (q : Desc) : Bool :=
  (q.a == 11 && q.b == 11 && q.d == 11) || (q.a == 12 && q.b == 12 && q.d == 12) ||
  ((q.a == 10 || q.a == 9) && (q.b == 10 || q.b == 9) && q.d == 11) ||
  ((q.a == 7 || q.a == 8) && (q.b == 7 || q.b == 8) && q.d == 11) ||
  ((q.a == 0 || q.a == 1) && (q.b == 0 || q.b == 1) && q.d == 3) ||
  ((q.a == 5 || q.a == 14) && (q.b == 5 || q.b == 14) && q.d == 3) ||
  (q.a == 6 && q.b == 6 && q.d == 11)

/-- The block row (R186): both sources of the class of the block's element format. -/
def Desc.blockRow (q : Desc) : Bool :=
  (q.a == 13 || q.b == 13) && q.d == 11 && q.depthOf q.a == q.depthOf q.block && q.depthOf q.b == q.depthOf q.block

/-- What MMA accepts (R186) beyond sr = 0. -/
def Desc.dense (q : Desc) : Bool := q.sparse == 0 && (q.denseRow || q.blockRow)

/-- What SMMA accepts (R189) beyond sr = 0. -/
def Desc.sparseOk (q : Desc) : Bool :=
  q.sparse != 0 && q.block == 0 && (q.a == 5 || q.a == 14) && (q.b == 5 || q.b == 14) && q.d == 3

/-- The source side that an operand load reads (R190): of the dense table, or of the sparse one, whose block is 0
(R189). -/
def Desc.sideOk (q : Desc) (sideB : Bool) : Bool :=
  let c := if sideB then q.b else q.a
  if q.sparse ≠ 0 then q.block == 0 && (c == 5 || c == 14) else decide (q.depthOf c ≠ 0)

/-- The gates of major 0x36 (R35): its FP64 descriptors are not gated (R165). -/
def tileGate (q : Desc) : M Unit := do
  gate 1 q.lns
  gate 2 (q.sparse != 0)

/-- The gates of majors 0x37 to 0x3A (R35). -/
def matrixGate (q : Desc) (spm : Bool) : M Unit := do
  gate 0 q.f64
  gate 1 q.lns
  gate 2 (spm || q.sparse != 0)

/-! ## Tile limits (R165) -/

/-- Limits on M, N and K. -/
structure Limits where
  m : Nat
  n : Nat
  k : Nat
  deriving DecidableEq, Repr

/-- The limits of a dataflow, a chain length n, rows r of an array and dense positions in one row's chunks (R165). -/
def limitsOf (flow : Dataflow) (n r row : Nat) : Limits :=
  match flow with
  | .rs => ⟨r * n, r, row⟩
  | .ws => ⟨r, r, row * n⟩

/-- Rows of the array for a format: 16 fused rows for FP64 (R158). -/
def rowsOf (fp64 : Bool) : Nat := if fp64 then 16 else 32

/-- Dense positions in the chunks of one row (R165). -/
def Desc.rowPositions (q : Desc) (fp64 : Bool) (side : BitVec 4) : Nat :=
  if q.sparse ≠ 0 then 1536 else rowsOf fp64 * q.depthOf side

/-- The limits of a multiply's descriptor (R165). -/
def Desc.limits (q : Desc) (m : MatrixMode) : Limits :=
  limitsOf m.flow (m.chn.toNat + 1) (rowsOf (q.d == 12)) (q.rowPositions (q.d == 12) q.a)

/-- A granted tile exceeds limits (R166). -/
def Tile.exceeds (t : Tile) (l : Limits) : Bool := decide (l.m < t.m.toNat ∨ l.n < t.n.toNat ∨ l.k < t.k.toNat)

/-- tile (R165). -/
def Tile.word (t : Tile) : Word := 0#35 ++ t.k ++ 0#2 ++ t.n ++ t.m

/-! ## Checks of R177 -/

/-- Matrix mode. -/
def inMatrix : M MatrixMode := do
  match (← hart).mode with
  | some m => return m
  | none => illegal

/-- Matrix mode, RS. -/
def inResult : M Unit := do
  let m ← inMatrix
  require (m.flow == .rs)

/-! ## The cell image (R163, R178) -/

/-- The words of a register pair. -/
def Hart.pair (h : Hart) (r : Nat) : Vector Word 512 :=
  Vector.ofFn fun i : Fin 512 => h.vword (r + i.val / 256) (i.val % 256)

/-- A word of an image. -/
def imageWord (w : Vector Word 512) (i : Nat) : Word := w[i]?.getD 0

/-- The word and the bit of cell (i, j) (R163). -/
def cellPlace (fp64 : Bool) (i j : Nat) : Nat × Nat :=
  if fp64 then (i / 8 * 256 + i % 8 * 16 + j, 0) else ((i * 32 + j) / 2, (i * 32 + j) % 2 * 32)

/-- The element of cell (i, j). -/
def cellOf (fp64 : Bool) (c : Vector Word 512) (i j : Nat) : Word :=
  let p := cellPlace fp64 i j
  if fp64 then imageWord c p.1 else takeBits (imageWord c p.1) p.2 32

/-- An image with cell (i, j) written. -/
def putCell (fp64 : Bool) (i j : Nat) (w : Word) (c : Vector Word 512) : Vector Word 512 :=
  let p := cellPlace fp64 i j
  c.setIfInBounds p.1 (if fp64 then w else placeBits (imageWord c p.1) p.2 32 w)

/-- The bytes that no FP64 tile covers become zero (R163, R178). -/
def clearUncovered (w : Vector Word 512) : Vector Word 512 :=
  Vector.ofFn fun i : Fin 512 => if 128 ≤ i.val % 256 then 0 else w[i]

/-! ## Tile and mode control -/

/-- SETTILE (R180). -/
def execSettile (d a b : BitVec 5) (f : BitVec 3) (s : State) : Out := run (do
  let _ ← typeState
  let q := (← hart).desc f
  require (q.common false true && (q.dense || q.sparseOk))
  tileGate q
  let m ← inMatrix
  let h ← hart
  let l := q.limits m
  let req := h.rx a
  let t : Tile :=
    { m := BitVec.ofNat 8 (min (req.extractLsb' 0 32).toNat l.m)
      n := BitVec.ofNat 6 (min (req.extractLsb' 32 32).toNat l.n)
      k := BitVec.ofNat 13 (min (h.rx b).toNat l.k) }
  onHart fun h => { h.wx d t.word with tile := t }
  retire) s

/-- A hart enters matrix mode (R155, R181): the cells are zeroed or loaded, the tile is zero. -/
def Hart.enterMatrix (flow : Dataflow) (load : Option Nat) (h : Hart) : Hart :=
  { h with
      mode := some ⟨flow, h.mchain.len, h.mchain.pos, false⟩
      tile := ⟨0, 0, 0⟩
      heldFlags := 0
      cells := match load with
        | some r => h.pair r
        | none => Vector.replicate 512 0 }

/-- The dataflow that MODE.M's df bit names (R179). -/
def flowOf (s : BitVec 1) : Dataflow := if s = 1 then .rs else .ws

/-- MODE.M (R153, R155, R170, R181): a chained one waits for its partners. -/
def execModeM (d : BitVec 5) (l s : BitVec 1) (st : State) : Out := run (do
  let _ ← typeState
  require (d.toNat % 2 == 0 && !(l == 1 && s == 0) && !(l == 0 && d != 0))
  let h ← hart
  require (h.mode.isNone && h.matrixFlag)
  if h.mchain.len ≠ 0 then waitFor .chain
  onHart (Hart.enterMatrix (flowOf s) (if l = 1 then some d.toNat else none))
  retire) st

/-! ## Chains (R170, R171, R183) -/

/-- A hart that waits at an instruction of some majors for the partners of its chain, and is not held by a freeze. -/
def Hart.waitsAt (majors : List Nat) (h : Hart) : Bool :=
  h.wait == some .chain && h.run == .running && (!h.frozen || h.dbg.stepping) &&
    majors.contains (h.word.extractLsb' 26 6).toNat

/-- The df bit of a MODE.M word (R179). -/
def flowBit (w : BitVec 32) : Bool := w.getLsbD 0

/-- The settings of members that name one head do not contradict each other (R170, R183): one length and one dataflow,
positions apart, and position 0 is the head's. -/
def settingsMeet (l : List Hart) : Bool :=
  l.all fun h =>
    ((h.mchain.pos == 0) == (h.hartidx == h.mchain.head)) &&
      l.all fun k => k.mchain.len == h.mchain.len && flowBit k.word == flowBit h.word &&
        (k.name == h.name || k.mchain.pos != h.mchain.pos)

/-- The settings of the members that wait agree (R170, R183): they meet, and every position of the chain is there. -/
def agree (l : List Hart) : Bool :=
  match l with
  | [] => false
  | h :: _ => settingsMeet l && l.length == h.mchain.len.toNat + 1

/-- A waiting MODE.M of the current hart completes, or traps. -/
def State.rendezvousOne (ok : Bool) (before : State) : State :=
  let w := before.hart.word
  let s :=
    if ok then
      before.onHart fun h =>
        (h.enterMatrix (if flowBit w then .rs else .ws)
          (if w.getLsbD 1 then some (w.extractLsb' 21 5).toNat else none)).retire
    else before.takeTrap false 0 0x05 (w.setWidth 64)
  (State.noteRetired before w s).endStep

/-- The harts of a gang that wait at a chained MODE.M (R170). -/
def State.chaining (s : State) (gang : Nat) : List Hart :=
  s.harts.filter fun k => k.waitsAt [0x36] && k.name.gang == gang

/-- Those of waiting harts that name one head. -/
def underHead (head : BitVec 4) (l : List Hart) : List Hart := l.filter fun k => k.mchain.head == head

/-- A hart is one of a list. -/
def Hart.among (l : List Hart) (h : Hart) : Bool := l.any fun k => k.name == h.name

/-- The harts of a gang that have not exited. -/
def State.living (s : State) (gang : Nat) : List Hart :=
  s.harts.filter fun k => k.name.gang == gang && k.run != .exited && k.run != .gone

/-- The harts that can still come to a MODE.M: those that wait at none, and the waiting members of a chain that can still
form: its members that wait agree, and of those that can come there are enough for the rest, its head among them unless it
waits too. -/
def canCome (w : List Hart) : Nat → List Hart → List Hart
  | 0, free => free
  | n + 1, free => canCome w n (free ++ w.filter fun h =>
      let l := underHead h.mchain.head w
      !h.among free && settingsMeet l && ((l ++ free).any fun k => k.hartidx == h.mchain.head) &&
        decide (h.mchain.len.toNat < l.length + free.length))

/-- Harts of a list that name one head, or one of them the other as its head, with some of a list, and so on. -/
def linkedTo (bad : List Hart) : Nat → List Hart → List Hart
  | 0, l => l
  | n + 1, l => linkedTo bad n (bad.filter fun k => k.among l || l.any fun c =>
      k.mchain.head == c.mchain.head || k.mchain.head == c.hartidx || c.mchain.head == k.hartidx)

/-- The members of a chain whose settings disagree (R170, R183). No chain can form for a waiting hart whose setting
contradicts itself or that of another of its head, or for which too few harts, or not its head, can still come. Once as
many such harts as the chain has members are linked by the heads that they name, they are its members; so are all of them
where no other hart of the gang is left. A hart whose own chain can still form, and which has another place in a chain of
the same length, may be a member beside them: which one the rule does not tell (log 27). -/
def State.disagreeing (s : State) (w : List Hart) (h : Hart) : List Hart :=
  let living := s.living h.name.gang
  let free := canCome w 16 (living.filter fun k => !k.among w)
  let bad := w.filter fun k => !k.among free
  if !h.among bad then []
  else if bad.length = living.length then bad
  else
    let l := linkedTo bad 16 [h]
    let all := l ++ w.filter fun k =>
      k.among free && !agree (underHead k.mchain.head w) && Config.chainMate s.steps k.name.idx &&
        l.any fun c => k.mchain.len == c.mchain.len && k.mchain.pos != c.mchain.pos
    if h.mchain.len.toNat < all.length then all else []

/-- CHAIN_RENDEZVOUS (R170, R183): when the members that a hart's setting names wait and agree, their MODE.M complete
together; when they wait and disagree, be it in the head alone, each of them traps. -/
def execChainRendezvous (n : HartName) (s : State) : Out :=
  .next (match s.findHart n with
    | none => s
    | some h =>
      let w := s.chaining n.gang
      let l := underHead h.mchain.head w
      if !h.waitsAt [0x36] then s
      else if agree l then l.foldl (fun s k => s.asHart k.name (State.rendezvousOne true)) s
      else (s.disagreeing w h).foldl (fun s k => s.asHart k.name (State.rendezvousOne false)) s)

/-- MCHAIN (R183). -/
def execMchain (l p hd : BitVec 5) (s : State) : Out := run (do
  let _ ← typeState
  require (decide (l.toNat ≤ 3 ∧ p.toNat ≤ l.toNat ∧ hd.toNat ≤ 15))
  require (← hart).mode.isNone
  onHart fun h => { h with mchain := ⟨l.setWidth 2, p.setWidth 2, hd.setWidth 4⟩ }
  retire) s

/-- MSYNC (R184): every earlier matrix instruction has completed when it issues. -/
def execMsync (s : State) : Out := run (do
  let _ ← typeState
  retire) s

/-! ## Drains (R173, R181, R182) -/

/-- The words of one element group at G = 32 written from a register on. -/
def Hart.putGroup (r e : Nat) (f : Nat → Word) (h : Hart) : Hart :=
  (List.range 32).foldl (fun h u => h.setVword (r + e / 8) (e % 8 * 32 + u) (f (32 * e + u))) h

/-- The flags that the cells hold are ORed in, and the cells are no longer held (R187, R181). -/
def Hart.settleCells (h : Hart) : Hart :=
  { h with flags := h.flags ||| h.heldFlags, heldFlags := 0,
           mode := h.mode.map fun m => { m with held := false } }

/-- The drain of the cells into a pair (R173). -/
def drainPair (r : Nat) : M Unit := do
  let c := (← hart).cells
  runGroups 16 fun e => onHart (Hart.putGroup r e (imageWord c))
  onHart Hart.settleCells

/-- MODE.V (R155, R181). -/
def execModeV (d : BitVec 5) (s : State) : Out := run (do
  let _ ← typeState
  require (d.toNat % 2 == 0)
  match (← hart).mode with
  | some m => if m.flow = .rs then drainPair d.toNat
  | none => pure ()
  onHart fun h => { h with mode := none, mchain := ⟨0, 0, 0⟩ }
  retire) s

/-- MDRAIN (R181). -/
def execMdrain (d : BitVec 5) (s : State) : Out := run (do
  let _ ← typeState
  require (d.toNat % 2 == 0)
  inResult
  drainPair d.toNat
  retire) s

/-- The pairs of MDRAIN.N (R182). -/
def Desc.narrows (q : Desc) : Bool :=
  (q.a == 11 && (q.d == 10 || q.d == 9 || q.d == 7 || q.d == 8)) || (q.a == 3 && (q.d == 2 || q.d == 0)) ||
    (q.a == 12 && q.d == 11)

/-- One accumulator converted to the narrow destination (R182). -/
def narrowCell (a d : Fmt) (q : Desc) (w : Word) : M Word := do
  match d.range with
  | some _ => raising (d.arith q.sat (w.extractLsb' 0 32).toInt)
  | none =>
    let r ← drawIf q.sr
    raising (d.deliverWith (q.rnd r) (a.value w))

/-- The elements of one group of a narrowing drain, in row-major order. -/
def narrowGroup (a d : Fmt) (q : Desc) (c : Vector Word 512) (r e : Nat) : M Unit := do
  let side := rowsOf (a == .fp64)
  let per := 2048 / d.width
  onHart (Hart.putGroup r e fun _ => 0)
  forElems (fun x => do
      let w ← narrowCell a d q (cellOf (a == .fp64) c (x / side) (x % side))
      onHart (Hart.setElem d.width r x w))
    ((List.range' (e * per) per).filter fun x => decide (x < side * side))

/-- MDRAIN.N (R182). -/
def execMdrainN (d : BitVec 5) (f : BitVec 3) (s : State) : Out := run (do
  let _ ← typeState
  let q := (← hart).desc f
  require (q.common true true && q.sparse == 0 && q.narrows)
  tileGate q
  inResult
  let c := (← hart).cells
  match fmtOf q.a, fmtOf q.d with
  | some a, some n =>
    runGroups 8 (narrowGroup a n q c d.toNat)
    onHart Hart.settleCells
    retire
  | _, _ => illegal) s

/-! ## One step of a cell (R69 to R71) -/

/-- The exact sum of integer terms. -/
def integerSum (l : List Val) : Int := sumAt 0 l

/-- One step of R69: the accumulator and the terms of a chunk, rounded once. -/
def Desc.cellStep (q : Desc) (d : Fmt) (acc : Word) (terms : List Val) : Word × FlagSet :=
  if d.isInt then d.arith q.sat (integerSum ((d.value acc).1 :: terms))
  else d.deliverWith (q.rnd none) (Val.sum q.round ((d.value acc).1 :: terms))

/-- The steps of chunks in increasing c (R70). -/
def Desc.cellSteps (q : Desc) (d : Fmt) : List (List Val × FlagSet) → Word → Word × FlagSet
  | [], acc => (acc, 0)
  | (terms, fl) :: t, acc =>
    let (w, f1) := q.cellStep d acc terms
    let (w', f2) := q.cellSteps d t w
    (w', fl ||| f1 ||| f2)

/-- A scale byte applied to a value (R58). -/
def Val.under (v : Val) (scale : Option Byte) : Val :=
  match scale with
  | none => v
  | some e => if e = 0xFF then .nan else v.scale ((e.toNat : Int) - 127)

/-- A source element: its format, its bits and its scale. -/
structure Source where
  fmt : Fmt
  word : Word
  scale : Option Byte
  deriving DecidableEq, Repr

/-- The exact product of two source elements (R69, R71, R56). A code 0b1000 of INT4 sets RSVD in a NaN block also (log 45). -/
def product (x y : Source) : Val × FlagSet :=
  if x.fmt = .lns6 ∧ y.fmt = .lns6 then (((lnsTerm x.word y.word).under x.scale).under y.scale, 0)
  else
    let (u, f) := x.fmt.value x.word
    let (v, g) := y.fmt.value y.word
    let (p, e) := (u.under x.scale).mul (v.under y.scale)
    (p, f ||| g ||| e)

/-- The products of a chunk with the flags that they raise. -/
def products : List (Source × Source) → List Val × FlagSet
  | [] => ([], 0)
  | (x, y) :: t =>
    let (v, f) := product x y
    let (l, g) := products t
    (v :: l, f ||| g)

/-! ## Operands of a multiply -/

/-- The panels that a multiply's word names: A, B, and the metadata of a sparse one (R185, R189). -/
structure Panels where
  a : Nat
  b : Nat
  q : Nat
  deriving DecidableEq, Repr

/-- The panels of the word that a hart waits at. -/
def Hart.panels (h : Hart) : Panels :=
  ⟨(h.word.extractLsb' 16 5).toNat, (h.word.extractLsb' 11 5).toNat, 8 * (h.word.extractLsb' 0 2).toNat⟩

/-- A member's panel registers with the hart that holds them. -/
structure Member where
  hart : Hart
  pan : Panels
  deriving DecidableEq, Repr

/-- Element t of chunk c in row r of the A side or the B side (R160, R162): `local` is the K position counted in the
member's own chunks. -/
def Member.source (m : Member) (q : Desc) (sideB : Bool) (r c t : Nat) : Source :=
  let code := if sideB then q.b else q.a
  let f := (fmtOf (q.elem code)).getD .block
  let p := q.panel sideB
  let reg := if sideB then m.pan.b else m.pan.a
  let at_ := c % p.p * p.per + t
  { fmt := f
    word := m.hart.elem p.bits reg (p.at_ r (p.slot c r) t)
    scale := if code = 13 then some ((m.hart.elem 8 (reg + p.regs) (r * p.per + at_ / 32)).setWidth 8) else none }

/-- The terms of dense chunk c (R70): a short last chunk has absent terms. -/
def denseChunk (q : Desc) (k : Nat) (a b : Member) (i j c : Nat) : List Val × FlagSet :=
  let d := (q.panel false).per
  products (((List.range d).filter fun t => decide (c * d + t < k)).map fun t =>
    (a.source q false i c t, b.source q true j c t))

/-- The positions of a group's metadata (R60). -/
def groupPositions (n : Nat) (w : Word) : List Nat := (List.range n).map fun j => (takeBits w (4 * j) 4).toNat

/-- Positions rise strictly and lie below 12 (R60). -/
def positionsOk : List Nat → Bool
  | [] => true
  | [x] => decide (x < 12)
  | x :: y :: t => decide (x < y) && positionsOk (y :: t)

/-- The terms of group g of sparse chunk c (R60, R71, R189): a malformed group reads as zeros and sets RSVD. -/
def sparseGroup (q : Desc) (k : Nat) (a b : Member) (i j c g : Nat) : List Val × FlagSet :=
  let n := q.sparse.toNat
  let pos := groupPositions n (a.hart.elem 32 a.pan.q (metadataPanel.at_ i (metadataPanel.slot c i) g))
  if 48 * c + 12 * g < k then
    if positionsOk pos then
      products ((pos.zipIdx.filter fun x => decide (48 * c + 12 * g + x.1 < k)).map fun x =>
        (a.source q false i c (g * n + x.2), b.source q true j c (12 * g + x.1)))
    else ([], flagRSVD)
  else ([], 0)

/-- The terms of sparse chunk c: four groups (R71). -/
def sparseChunk (q : Desc) (k : Nat) (a b : Member) (i j c : Nat) : List Val × FlagSet :=
  (List.range 4).foldl (fun (l : List Val × FlagSet) g =>
    let (t, f) := sparseGroup q k a b i j c g
    (l.1 ++ t, l.2 ||| f)) ([], 0)

/-- The terms of chunk c of cell (i, j). -/
def chunkTerms (q : Desc) (k : Nat) (a b : Member) (i j c : Nat) : List Val × FlagSet :=
  if q.sparse = 0 then denseChunk q k a b i j c else sparseChunk q k a b i j c

/-- Chunks of K positions (R187, R189). -/
def Desc.chunks (q : Desc) (k : Nat) : Nat :=
  let d := if q.sparse = 0 then (q.panel false).per else 48
  (k + d - 1) / d

/-- A multiply over an image (R187): rows and columns of the granted tile; positions outside keep their values (R166),
uncovered bytes of an FP64 tile become zero (R178). -/
def multiply (q : Desc) (d : Fmt) (rows cols : Nat) (zero : Bool) (terms : Nat → Nat → List (List Val × FlagSet))
    (c : Vector Word 512) : Vector Word 512 × FlagSet :=
  let wide := d == .fp64
  let r := (List.range rows).foldl (fun acc i => (List.range cols).foldl (fun (acc : Vector Word 512 × FlagSet) j =>
    let (w, f) := q.cellSteps d (terms i j) (if zero then 0 else cellOf wide acc.1 i j)
    (putCell wide i j w acc.1, acc.2 ||| f)) acc) (c, (0 : FlagSet))
  if wide then (clearUncovered r.1, r.2) else r

/-- The RS multiply of a member, the B panel being the head's (R171, R187). -/
def Hart.multiplyRs (q : Desc) (d : Fmt) (m : MatrixMode) (own head : Member) (h : Hart) : Hart :=
  let r := rowsOf (d == .fp64)
  let k := h.tile.k.toNat
  let (c, fl) := multiply q d (min r (h.tile.m.toNat - r * m.pos.toNat)) h.tile.n.toNat false
    (fun i j => (List.range (q.chunks k)).map (chunkTerms q k own head i j)) h.cells
  { h with cells := c, heldFlags := h.heldFlags ||| fl, mode := some { m with held := true } }

/-- The WS multiply of the head (R171, R187): chunk c is its owner's. -/
def Hart.multiplyWs (q : Desc) (d : Fmt) (acc : Nat) (zi : Bool) (owner : Nat → Member) (h : Hart) : Hart :=
  let r := rowsOf (d == .fp64)
  let k := h.tile.k.toNat
  let (c, fl) := multiply q d h.tile.m.toNat h.tile.n.toNat zi
    (fun i j => (List.range (q.chunks k)).map fun c => chunkTerms q k (owner (c / r)) (owner (c / r)) i j c)
    (h.pair acc)
  ((List.range 16).foldl (fun h e => h.putGroup acc e (imageWord c)) h).raise fl

/-- A member that a list holds at a chain position, or another one. -/
def memberAt (l : List Member) (p : Nat) (other : Member) : Member :=
  (l.find? fun m => (m.hart.mode.map fun x => x.pos.toNat == p).getD false).getD other

/-- The rows of a multiply's tile that a member computes: all of them in WS, its own in RS (R187). -/
def Desc.memberRows (q : Desc) (m : MatrixMode) (t : Tile) : Nat :=
  match m.flow with
  | .ws => t.m.toNat
  | .rs => min (rowsOf (q.d == 12)) (t.m.toNat - rowsOf (q.d == 12) * m.pos.toNat)

/-- The array steps of a member's multiply (R164, R188): chunk c of cell (i, j) at step c + i + j. -/
def Desc.steps (q : Desc) (m : MatrixMode) (t : Tile) : Nat :=
  if q.memberRows m t = 0 then 0 else q.chunks t.k.toNat + q.memberRows m t + t.n.toNat - 2

/-- The array steps that are left of a hart's multiply. -/
def Hart.stepsLeft (h : Hart) (q : Desc) : Nat := h.mode.elim 0 fun m => q.steps m h.tile - h.arrayAt

/-- The descriptor of the multiply at which a hart waits. -/
def Hart.waitingDesc (h : Hart) : Desc := h.desc (h.word.extractLsb' 8 3)

/-- A forced stop freezes the arrays of a chain at a step boundary, some steps on (R339), each with the steps that are
left for it: the steps done go into the save image with the cells, and the multiply, none of whose results is written,
continues with the steps that are left (R194, R340). -/
def State.freezeArray (steps : Nat) (members : List (HartName × Nat)) (s : State) : State :=
  (members.foldl (fun s p => s.asHart p.1 fun s =>
    (s.bump 3 (min steps p.2)).onHart fun h => { h with arrayAt := h.arrayAt + min steps p.2, vprog := 0 }) s).stopSelf
      .forced

/-- The effect of a multiply on the current hart, a member of a chain whose members are listed (R187). -/
def State.multiplyOne (q : Desc) (d : Fmt) (acc : Nat) (zi : Bool) (own : Member) (l : List Member) (s : State) : State :=
  let s := s.bump 3 (s.hart.stepsLeft q)
  match s.hart.mode with
  | none => s
  | some m =>
    if m.flow = .rs then s.onHart (Hart.multiplyRs q d m own (memberAt l 0 own))
    else if m.pos = 0 then
      (s.onHart (Hart.multiplyWs q d acc zi (fun p => memberAt l p own))).bump 2 16
    else s

/-- A waiting multiply of another member performs and retires (R171). -/
def State.multiplyOther (l : List Member) (before : State) : State :=
  let h := before.hart
  let w := h.word
  let q := h.waitingDesc
  let zi := if (w.extractLsb' 26 6).toNat = 0x38 then w.getLsbD 2 else w.getLsbD 0
  match fmtOf q.d with
  | none => before
  | some d =>
    let s := before.multiplyOne q d (w.extractLsb' 21 5).toNat zi ⟨h, h.panels⟩ l
    (State.noteRetired before w (s.onHart Hart.retire)).endStep

/-- What MMA and SMMA share after their checks (R166, R171, R187): a chained step runs only when every member has
issued its multiply. A forced stop lands inside it after the array steps that its event names (log 16). -/
def multiplyAll (q : Desc) (acc : BitVec 5) (pan : Panels) (zi : Bool) : M Unit := do
  let m ← inMatrix
  require (!(zi && m.flow == .rs))
  let h ← hart
  require (!h.tile.exceeds (q.limits m))
  match fmtOf q.d with
  | none => illegal
  | some d =>
    if h.tile.m = 0 ∨ h.tile.n = 0 ∨ h.tile.k = 0 then retire
    else
      let s ← get
      let others := s.parked.filter fun k => h.chainedTo k && k.waitsAt [0x37, 0x38]
      if others.length < m.chn.toNat then waitFor .chain
      match h.stopAt with
      | some k =>
        let members := (h.name, h.stepsLeft q) :: others.map fun k => (k.name, k.stepsLeft k.waitingDesc)
        if members.any fun p => decide (k.left < p.2) then
          modify (State.freezeArray k.left members)
          endHere
      | none => pure ()
      let own : Member := ⟨h, pan⟩
      let l := own :: others.map fun k => ⟨k, k.panels⟩
      modify (State.multiplyOne q d acc.toNat zi own l)
      retire
      modify fun s => others.foldl (fun s k => s.asHart k.name (State.multiplyOther l)) s

/-- Registers from a first one on with their number, as an operand. -/
abbrev Range := Nat × Nat

/-- Two operands share no register. -/
def disjoint (x y : Range) : Bool := !overlaps x.1 x.2 y.1 y.2

/-- The registers of a source of MMA: its panel and, where it is block-scaled, the scale register after it (R185). -/
def Desc.sourceRegs (q : Desc) (sideB : Bool) (r : BitVec 5) : Range :=
  (r.toNat, (q.panel sideB).regs + if (if sideB then q.b else q.a) = 13 then 1 else 0)

/-- MMA (R185 to R187). -/
def execMma (d a b : BitVec 5) (f : BitVec 3) (z : BitVec 1) (s : State) : Out := run (do
  let _ ← typeState
  let q := (← hart).desc f
  require (q.common true true && !q.sr && q.dense)
  let ra := q.sourceRegs false a
  let rb := q.sourceRegs true b
  require (d.toNat % 2 == 0 && (q.panel false).ok a && (q.panel true).ok b && decide (ra.1 + ra.2 ≤ 32) &&
    decide (rb.1 + rb.2 ≤ 32) && disjoint (d.toNat, 2) ra && disjoint (d.toNat, 2) rb)
  matrixGate q false
  multiplyAll q d ⟨a.toNat, b.toNat, 0⟩ (z == 1)) s

/-- SMMA (R189). -/
def execSmma (d a b : BitVec 5) (f : BitVec 3) (z : BitVec 1) (k : BitVec 2) (s : State) : Out := run (do
  let _ ← typeState
  let q := (← hart).desc f
  require (q.common true true && !q.sr && q.sparseOk)
  let ra : Range := (a.toNat, (q.panel false).regs)
  let rb : Range := (b.toNat, 12)
  let rq : Range := (8 * k.toNat, 8)
  require (d.toNat % 2 == 0 && (q.panel false).ok a && (q.panel true).ok b &&
    disjoint (d.toNat, 2) ra && disjoint (d.toNat, 2) rb && disjoint (d.toNat, 2) rq && disjoint ra rb && disjoint ra rq &&
    disjoint rb rq)
  matrixGate q true
  multiplyAll q d ⟨a.toNat, b.toNat, 8 * k.toNat⟩ (z == 1)) s

/-! ## Accumulator zero and deskew (R193) -/

/-- Group e of a pair becomes zero: as many words as the hart has lanes (R103). -/
def Hart.zeroGroup (r e : Nat) (h : Hart) : Hart :=
  let g := h.grant.lanes
  (List.range g).foldl (fun h u => h.setVword (r + e / 8) (e % 8 * g + u) 0) h

/-- MZERO (R193). -/
def execMzero (d : BitVec 5) (s : State) : Out := run (do
  let _ ← typeState
  require (d.toNat % 2 == 0)
  runGroups 16 fun e => onHart (Hart.zeroGroup d.toNat e)
  retire) s

/-- MZEROC (R193). -/
def execMzeroc (s : State) : Out := run (do
  let _ ← typeState
  inResult
  onHart fun h =>
    { h with cells := Vector.replicate 512 0, heldFlags := 0, mode := h.mode.map fun m => { m with held := false } }
  retire) s

/-- A word of a panel whose elements a function gives by row, slot and place in the slot. -/
def Panel.wordFrom (p : Panel) (f : Nat → Nat → Nat → Word) (g : Nat) : Word :=
  (List.range (64 / p.bits)).foldl (fun w u =>
    let x := g * (64 / p.bits) + u
    let s := x / p.per
    placeBits w (u * p.bits) p.bits (f (s / p.p) (s % p.p) (x % p.per))) 0

/-- MSKEW and MDSKEW (R193): slot c of row r moves to slot (c + r) mod P, or back. Bits [7:6] of an LNS6 container are
ignored and written zero (R57); a 4-bit code moves as it is, with no flag (log 45). -/
def skew (back : Bool) (d a : BitVec 5) (f : BitVec 3) (side : BitVec 1) : M Unit := do
  let _ ← typeState
  let q := (← hart).desc f
  require (q.common false true && q.sideOk (side == 1))
  let p := q.panel (side == 1)
  require (p.ok d && p.ok a && disjoint (d.toNat, p.regs) (a.toNat, p.regs))
  matrixGate q false
  require ((← hart).grant == .l32)
  let h ← hart
  let used := if q.elem (if side == 1 then q.b else q.a) = 6 then 6 else p.bits
  let move (r s t : Nat) : Word :=
    lowBits used (h.elem p.bits a.toNat (p.at_ r ((if back then s + r else s + p.p - r % p.p) % p.p) t))
  runGroups (8 * p.regs) fun e => onHart (Hart.putGroup d.toNat e (p.wordFrom move))
  retire

/-- MSKEW (R193). -/
def execMskew (d a : BitVec 5) (f : BitVec 3) (k : BitVec 1) (s : State) : Out := run (skew false d a f k) s

/-- MDSKEW (R193). -/
def execMdskew (d a : BitVec 5) (f : BitVec 3) (k : BitVec 1) (s : State) : Out := run (skew true d a f k) s

end Sys2Proof.Machine
end

