-- ==== Sys2Proof/Machine/MatrixLoad.lean ====
section
/-! DEFINITION. The operand loads of major 0x39 from the TCMs of a cluster, and multicast (R168, R169, R190 to R192). -/

namespace Sys2Proof.Machine

/-- x[C] of an operand load (R190). -/
structure LoadWord where
  stride : Nat
  src : BitVec 4
  peer : Bool
  mcast : BitVec 16
  deriving DecidableEq, Repr

def loadWordOf (w : Word) : LoadWord :=
  { stride := (w.extractLsb' 0 20).toNat, src := w.extractLsb' 32 4, peer := w.getLsbD 36, mcast := w.extractLsb' 48 16 }

/-- First byte and length of the memory rows that a load reads. -/
abbrev Spans := List (Nat × Nat)

/-- The TCM window address of a byte offset (R192, R223). -/
def tcmAddress (off : Nat) : Word := BitVec.ofNat 64 (0x7FFFFFFFFC0000 + off)

/-- A TCM unit is allotted to a hart of a gang (R224); the units of one that had exited before its gang was saved are
free. -/
def State.allotted (s : State) (core gang u : Nat) : Bool :=
  s.harts.any fun h =>
    h.core == core && h.name.gang == gang && h.resident && !h.seatless && decide (h.tcmBase ≤ u ∧ u < h.tcmBase + h.tcmUnits)

/-- Bytes of a TCM as major 0x39 reads them: units of other gangs read as zero (R224). -/
def State.readPeer (s : State) (core gang off n : Nat) : List Byte :=
  (List.range n).map fun i => if s.allotted core gang ((off + i) / 4096) then s.seenTcm s.me core (off + i) else 0

/-- A range that major 0x39 reads has a poisoned granule in a unit allotted to the gang (R224, R240). -/
def State.peerMarked (s : State) (core gang off n : Nat) : Bool :=
  (s.core core).tcmPoison.any fun g =>
    decide (g < off + n ∧ off < g + 32) && s.allotted core gang (g / 4096)

/-- The core that a load reads (R168, R190); none where no hart of the gang is there. -/
def State.sourceCore (s : State) (l : LoadWord) : Option Nat :=
  if !l.peer then some s.hart.core
  else
    match s.findHart ⟨s.hart.name.gang, l.src.toNat⟩ with
    | some h => if h.resident ∧ h.run ≠ .exited ∧ h.cluster = s.hart.cluster then some h.core else none
    | none => none

/-- The mask of a multicast load is in order: its own bit is there and every bit names a hart of the gang (R192). -/
def State.mcastOk (s : State) (l : LoadWord) : Bool :=
  l.mcast == 0 ||
    (l.mcast.getLsbD s.hart.hartidx.toNat &&
      decide (l.mcast.toNat < 2 ^ (s.myGang.w * s.myGang.stages)))

/-- The checks of R192 that follow those of the encoding, in order; `over` says that the granted tile exceeds the
limits of the load's own descriptor. The answer is the source core. -/
def loadChecks (off : Word) (l : LoadWord) (spans : Spans) (above : Bool) : M Nat := do
  if off.toNat % 8 ≠ 0 ∨ l.stride % 8 ≠ 0 then trap 5 0x08 (tcmAddress off.toNat)
  match spans.find? fun p => decide (0 < p.2 ∧ 262144 < p.1 + p.2) with
  | some p => trap 5 0x09 (tcmAddress p.1)
  | none =>
    let s ← get
    match s.sourceCore l with
    | none => trap 5 0x09 (tcmAddress off.toNat)
    | some core =>
      require (s.mcastOk l)
      require (!above)
      return core

/-- Bytes that major 0x39 reads meet the errors of their granules (R239). -/
def State.meetPeer (s : State) (core gang off n : Nat) : State :=
  if s.localErrors = [] then s
  else
    ((List.range 64).filter fun u => s.allotted core gang u && decide (off < 4096 * u + 4096 ∧ 4096 * u < off + n)).foldl
      (fun t u =>
        let lo := max off (4096 * u)
        t.readLocal s.me (.tcm core lo) (min (off + n) (4096 * u + 4096) - lo)) s

/-- Checks before any group: one that fails leaves vprog = 0 (R192). -/
def atStart {α : Type} (checks : M α) : M α := do
  let start := (← hart).vprog
  onHart fun h => { h with vprog := 0 }
  let a ← checks
  onHart fun h => { h with vprog := start }
  return a

/-- Watchpoints on the rows' bytes (R352), then poison (R240). -/
def watchRows (core : Nat) (spans : Spans) : M Unit := do
  forSpans (fun p => watchAddress .matrix (tcmAddress p.1) p.2) spans
  forSpans (fun p => do
    modify fun s => s.meetPeer core s.hart.name.gang p.1 p.2
    let s ← get
    if s.peerMarked core s.hart.name.gang p.1 p.2 then trap 5 0x0C (tcmAddress p.1)) spans
where
  forSpans (f : Nat × Nat → M Unit) : Spans → M Unit
    | [] => pure ()
    | p :: t => do
      if p.2 ≠ 0 then f p
      forSpans f t

/-- The rows read now (R192). -/
def State.rowsNow (s : State) (core : Nat) (spans : Spans) : List (List Byte) :=
  spans.map fun p => s.readPeer core s.hart.name.gang p.1 p.2

/-- The rows that a load receives: its own read, or for a multicast load data that the cluster network holds from
the first issue of a load of the same gang, mask, source and rows that this member has not issued yet (R169). A member
that issues it again starts afresh; data that every member has received are not held. -/
def readRows (core : Nat) (l : LoadWord) (spans : Spans) : M (List (List Byte)) := do
  let s ← get
  let now := s.rowsNow core spans
  let me : BitVec 16 := 1#16 <<< s.hart.hartidx.toNat
  if l.mcast = 0 then return now
  else
    let k := s.hart.cluster
    let same (m : Multicast) : Bool :=
      m.gang == s.hart.name.gang && m.source == core && m.mask == l.mcast && m.spans == spans
    let others := (s.cluster k).multicast.filter fun m => !same m
    match (s.cluster k).multicast.find? fun m => same m && m.done &&& me == 0 with
    | some m =>
      let m := { m with done := m.done ||| me }
      modify fun s => s.modCluster k fun c => { c with multicast := if m.done = m.mask then others else m :: others }
      if Config.takesHeld s.steps core then return splitRows m.data spans else return now
    | none =>
      let held := if l.mcast = me then others else ⟨s.hart.name.gang, core, spans, l.mcast, me, now.flatten⟩ :: others
      modify fun s => s.modCluster k fun c => { c with multicast := held }
      return now
where
  splitRows (d : List Byte) : Spans → List (List Byte)
    | [] => []
    | p :: t => d.take p.2 :: splitRows (d.drop p.2) t

/-- MULTICAST_RELEASE (R169): the network of a cluster releases the data that it holds. -/
def execMulticastRelease (cluster : Nat) (s : State) : Out :=
  .next (s.modCluster cluster fun c => { c with multicast := [] })

/-- What fills a panel: the layout in registers, the bits of an element in memory, whether a row is whole chunks, and
the rows (R191). -/
structure Fill where
  pan : Panel
  membits : Nat
  whole : Bool
  rows : Nat
  deriving DecidableEq, Repr

/-- n bits of a row of bytes from a bit. -/
def rowBits (d : List Byte) (at_ n : Nat) : Word :=
  lowBits n (BitVec.ofNat 64 (natOfBytes ((d.drop (at_ / 8)).take 9) / 2 ^ (at_ % 8)))

/-- Elements of one memory row, K positions granted (R191): all of them, or those of ceil(k / 48) chunks. -/
def Fill.elems (f : Fill) (k : Nat) : Nat := if f.whole then (k + 47) / 48 * f.pan.per else k

/-- Bytes of a number of elements: LNS6 codes come in groups of four (R57). -/
def Fill.bytes (f : Fill) (n : Nat) : Nat :=
  if f.membits = 6 then (n + 3) / 4 * 3 else (n * f.membits + 7) / 8

/-- The bytes that a load reads: of each row, the elements of the hart's own chunks (R171, R191). -/
def Fill.spans (f : Fill) (off stride k pos : Nat) : Spans :=
  let own := f.pan.p * f.pan.per
  let skip := own * pos
  (List.range f.rows).map fun r => (off + r * stride + f.bytes skip, f.bytes (min own (f.elems k - skip)))

/-- The word of a panel that a load writes (R160, R191): a 4-bit code is copied as it is, with no flag (log 45). -/
def Fill.word (f : Fill) (k pos : Nat) (rows : List (List Byte)) : Nat → Word :=
  let own := f.pan.p * f.pan.per
  let n := min own (f.elems k - own * pos)
  f.pan.wordFrom fun r s t =>
    let c := (s + f.pan.p - r % f.pan.p) % f.pan.p
    let x := c * f.pan.per + t
    if r < f.rows ∧ x < n then rowBits (rows.getD r []) (x * f.membits) f.membits else 0

/-- A load of a panel (R190 to R192), its encoding checked. -/
def loadPanel (d a b : BitVec 5) (fill : MatrixMode → Hart → Fill) (lim : MatrixMode → Limits) : M Unit := do
  let m ← inMatrix
  let h ← hart
  let off := h.rx a
  let l := loadWordOf (h.rx b)
  let f := fill m h
  let k := h.tile.k.toNat
  let pos := if m.flow = .ws then m.pos.toNat else 0
  let spans := f.spans off.toNat l.stride k pos
  let core ← atStart (loadChecks off l spans (h.tile.exceeds (lim m)))
  watchRows core spans
  let rows ← readRows core l spans
  runGroups (8 * f.pan.regs) fun e => onHart (Hart.putGroup d.toNat e (f.word k pos rows))
  retire

/-- The limits of R165 under one source side. -/
def Desc.sideLimits (q : Desc) (sideB : Bool) (m : MatrixMode) : Limits :=
  let c := if sideB then q.b else q.a
  limitsOf m.flow (m.chn.toNat + 1) (rowsOf (c == 12)) (q.rowPositions (c == 12) c)

/-- The rows of A that a hart's panel holds (R191): in a chained RS array its own share. -/
def Hart.sideRows (h : Hart) (m : MatrixMode) (r : Nat) : Nat :=
  if m.flow = .rs then min r (h.tile.m.toNat - r * m.pos.toNat) else h.tile.m.toNat

/-- Bits of an element in memory: LNS6 codes are packed (R57, R191). -/
def Desc.memBits (q : Desc) (c : BitVec 4) : Nat :=
  match fmtOf (q.elem c) with
  | some .lns6 => 6
  | some f => f.width
  | none => 8

/-- MLD.A (R190, R191). -/
def execMldA (d a b : BitVec 5) (f : BitVec 3) (s : State) : Out := run (do
  let _ ← typeState
  let q := (← hart).desc f
  require (q.common false true && q.sideOk false)
  atStart (require ((q.panel false).ok d))
  matrixGate q false
  loadPanel d a b
    (fun m h => ⟨q.panel false, q.memBits q.a, q.sparse != 0, h.sideRows m (q.panel false).p⟩)
    (q.sideLimits false)) s

/-- MLD.B (R190, R191). -/
def execMldB (d a b : BitVec 5) (f : BitVec 3) (s : State) : Out := run (do
  let _ ← typeState
  let q := (← hart).desc f
  require (q.common false true && q.sideOk true)
  atStart (require ((q.panel true).ok d))
  matrixGate q false
  loadPanel d a b (fun _ h => ⟨q.panel true, q.memBits q.b, false, h.tile.n.toNat⟩) (q.sideLimits true)) s

/-- MLD.M (R190, R191): tile.m rows, of which the panel has 32 (log 46). -/
def execMldM (d a b : BitVec 5) (f : BitVec 3) (s : State) : Out := run (do
  let _ ← typeState
  let q := (← hart).desc f
  require (q.common false true && q.sparse != 0)
  atStart (require (metadataPanel.ok d))
  matrixGate q false
  loadPanel d a b (fun _ h => ⟨metadataPanel, 32, true, min 32 h.tile.m.toNat⟩)
    (fun m => limitsOf m.flow (m.chn.toNat + 1) 32 1536)) s

/-- MLD.R (R190, R191): whole registers, unskewed. -/
def execMldR (d a b : BitVec 5) (n : BitVec 4) (s : State) : Out := run (do
  let _ ← typeState
  let regs := n.toNat + 1
  atStart (require (decide (d.toNat + regs ≤ 32)))
  let h ← hart
  let off := h.rx a
  let l := loadWordOf (h.rx b)
  let size := 64 * h.grant.lanes
  let spans : Spans := [(off.toNat, regs * size)]
  let core ← atStart (loadChecks off l spans false)
  watchRows core spans
  let rows ← readRows core l spans
  let per := h.grant.lanes
  runGroups (8 * regs) fun e =>
    onHart fun h => (List.range per).foldl (fun h u =>
      h.setElem 64 d.toNat (e * per + u) (rowBits (rows.headD []) (64 * (e * per + u)) 64)) h
  retire) s

end Sys2Proof.Machine
end

