-- ==== Sys2Proof/Machine/Vector.lean ====
section
/-! DEFINITION. What the vector instructions share: the limits of an entry on its operands (R117 to R120), the body of
R122 over element groups, and the three kinds of destination. -/

namespace Sys2Proof.Machine

/-! ## Limits -/

/-- A vector operand: its first register, its registers, and its element width in bits. -/
structure Operand where
  reg : BitVec 5
  count : Nat
  bits : Nat
  deriving DecidableEq, Repr

/-- The operand of width w that starts at a field, under a type state (R118). -/
def TypeState.operand (t : TypeState) (reg : BitVec 5) (w : Nat) : Operand := ⟨reg, t.g * w / t.ew.bits, w⟩

/-- A single register (R117). -/
def single (reg : BitVec 5) (w : Nat) : Operand := ⟨reg, 1, w⟩

/-- A group's limit: aligned to its size, at most 16 registers (R37, R118). -/
def Operand.ok (o : Operand) : Bool := groupOk o.reg o.count

/-- Two operands share a register. -/
def Operand.meets (o p : Operand) : Bool := overlaps o.reg.toNat o.count p.reg.toNat p.count

/-- The overlap rule of element-wise and width-changing instructions: a destination meets no source of another
width (R120). -/
def Operand.clear (d s : Operand) : Bool := d.bits == s.bits || !d.meets s

/-- ew 0 is accepted only where a table says so (R119). -/
def TypeState.notEw0 (t : TypeState) : Bool := t.ew != .e4

/-- The registers of the widest of some operands, the first of them where widths are equal; its elements lie in 8 groups
a register (R122). -/
def widest : List Operand → Nat × Nat
  | [] => (0, 0)
  | o :: l => if (widest l).1 ≤ o.bits then (o.bits, o.count) else widest l

/-- The checks that follow those of a word's encoding: the gate on LNS6, INT4 and UINT4 (R35, R152), then matrix
mode (R121). -/
def vectorGate (lns : Bool) : M Unit := do
  gate 1 lns
  vectorModeOnly

/-! ## Destinations -/

/-- Where an instruction writes its elements: a register group at a width, or a mask register (R107). -/
inductive Dest where
  | vec (bits reg : Nat)
  | mask (reg : Nat)
  deriving DecidableEq, Repr

/-- The destination that an operand is. -/
def Operand.dest (o : Operand) : Dest := .vec o.bits o.reg.toNat

/-- A destination element, or mask bit, written. -/
def Hart.put (t : Dest) (i : Nat) (w : Word) (h : Hart) : Hart :=
  match t with
  | .vec n r => h.setElem n r i w
  | .mask k => h.setMbit k i (w.getLsbD 0)

/-- What a destination element outside the active ones becomes: below `len` masked-off, from there on tail (R107). -/
def Hart.putOff (t : Dest) (len i : Nat) (h : Hart) : Hart :=
  if (if i < len then h.mmode.getLsbD 0 else h.mmode.getLsbD 1) then h.put t i 0 else h

/-! ## The body of R122 -/

/-- Element i: computed and written where it is active, else as mmode says. An operation that answers none leaves
its element. -/
def elementStep (t : Dest) (len : Nat) (act : Hart → Nat → Bool) (op : Nat → M (Option Word)) (i : Nat) : M Unit := do
  let h ← hart
  if i < len && act h i then
    match ← op i with
    | some w => onHart fun h => h.put t i w
    | none => pure ()
  else onHart fun h => h.putOff t len i

/-- The element groups of an instruction whose widest operand is `wide`, its elements below `len` active where
`act` says, its elements from `stop` on no part of it. -/
def overGroups (wide : Nat × Nat) (t : Dest) (len stop : Nat) (act : Hart → Nat → Bool)
    (op : Nat → M (Option Word)) : M Unit := do
  let h ← hart
  let pop := h.popFrom act wide.1 h.vprog.toNat
  runGroups (8 * wide.2) fun e =>
    forElems (elementStep t len act op) ((h.groupElems wide.1 e).filter fun i => decide (i < stop))
  retireVec pop

/-- An element-wise instruction (R122): nothing but retirement at vl = 0 (R104). -/
def elementwise (wide : Nat × Nat) (t : Dest) (act : Hart → Nat → Bool) (op : Nat → M (Option Word)) : M Unit := do
  let h ← hart
  if h.vl = 0 then retireVec 0
  else
    match h.vtype with
    | none => illegal
    | some ty => overGroups wide t h.vl.toNat (vlmax h.grant ty) act op

/-- The activity of a mask field (R106). -/
def underMask (m : BitVec 3) (h : Hart) (i : Nat) : Bool := h.em m i

/-- The activity that m(mid) alone governs (R132, R148). -/
def underMid (h : Hart) (i : Nat) : Bool := h.mbit h.mid.toNat i

/-! ## Elements as numbers -/

/-- The signed value of an element of n bits. -/
def signed (n : Nat) (w : Word) : Int :=
  if w.toNat < 2 ^ (n - 1) then w.toNat else (w.toNat : Int) - (2 ^ n : Nat)

/-- An integer as an element of n bits. -/
def wrapTo (n : Nat) (x : Int) : Word := lowBits n (BitVec.ofInt 64 x)

/-- A Boolean as a mask bit. -/
def bitWord (b : Bool) : Word := if b then 1 else 0

end Sys2Proof.Machine
end

