-- ==== Sys2Proof/Machine/MemVector.lean ====
section
/-! DEFINITION. Vector loads and stores: unit-stride, strided, indexed, six-bit and tensor-map forms (R241, R242, R252
to R257). -/

namespace Sys2Proof.Machine

/-! ## Where an element lies -/

/-- What element i of a vector memory instruction accesses: nothing (a load gives 0), nothing because its address
is out of bounds, or a field of bits in consecutive pieces of n bytes, from an offset in bits. -/
inductive Elem where
  | none
  | fault (va : Word)
  | at (pieces : List Word) (n off : Nat)
  deriving DecidableEq, Repr

/-- A form of a vector memory instruction: the bits of an element in memory, whether check 1 of R243 applies, and the
place of each element. -/
structure Form where
  bits : Nat
  align : Bool
  place : Nat → Elem

/-- The address of element i, containers of SEW bits at a distance of each other (R253). -/
def containers (n : Nat) (va : Nat → Word) : Form := ⟨n, true, fun i => .at [va i] (n / 8) 0⟩

/-- Unit stride (R253): dense, 4-bit elements two to a byte. -/
def unitForm (t : TypeState) (base : Word) : Form :=
  if t.ew = .e4 then ⟨4, false, fun i => .at [base + BitVec.ofNat 64 (i / 2)] 1 (4 * (i % 2))⟩
  else containers t.ew.bits fun i => base + BitVec.ofNat 64 (i * (t.ew.bits / 8))

/-- Strided (R253). -/
def stridedForm (t : TypeState) (base stride : Word) : Form :=
  containers t.ew.bits fun i => base + BitVec.ofNat 64 i * stride

/-- Indexed (R253): the index group has elements of SEW bits. -/
def indexedForm (t : TypeState) (h : Hart) (base : Word) (c : BitVec 5) : Form :=
  containers t.ew.bits fun i => base + h.elem t.ew.bits c.toNat i

/-- Six-bit (R57, R255): an element's code lies in the three bytes of its group, each checked alone. -/
def sixForm (base : Word) : Form :=
  ⟨6, false, fun i =>
    let group := base + BitVec.ofNat 64 (3 * (i / 4))
    .at [group, group + 1, group + 2] 1 (6 * (i % 4))⟩

/-! ## Tensor maps (R241, R242) -/

/-- A tensor-map descriptor. -/
structure TensorMap where
  base : Word
  dims : Nat
  oob : BitVec 2
  ext : List Nat
  stride : List Int
  box : List Nat
  step : List Nat
  reservedClear : Bool
  deriving DecidableEq, Repr

/-- A descriptor's fields (R241). -/
def tensorMapOf (w : Vector Word 8) : TensorMap :=
  { base := w[0], dims := (w[1].extractLsb' 0 2).toNat + 1, oob := w[1].extractLsb' 2 2
    ext := [(w[1].extractLsb' 32 32).toNat, (w[2].extractLsb' 0 32).toNat, (w[2].extractLsb' 32 32).toNat,
      (w[3].extractLsb' 0 32).toNat]
    stride := [(w[4].extractLsb' 0 32).toInt, (w[4].extractLsb' 32 32).toInt, (w[5].extractLsb' 0 32).toInt,
      (w[5].extractLsb' 32 32).toInt]
    box := (List.range 4).map fun d => (w[6].extractLsb' (16 * d) 16).toNat
    step := (List.range 4).map fun d => (w[7].extractLsb' (8 * d) 8).toNat
    reservedClear := w[1].extractLsb' 4 28 == 0 && w[3].extractLsb' 32 32 == 0 && w[7].extractLsb' 32 32 == 0 }

/-- The checks of R242 that make an access illegal. -/
def TensorMap.illegal (t : TensorMap) : Bool :=
  t.oob == 3 || !t.reservedClear ||
    (List.range t.dims).any fun d => t.ext.getD d 0 == 0 || t.box.getD d 0 == 0 || t.step.getD d 0 == 0

/-- base or a used stride is no multiple of n bytes (R242). -/
def TensorMap.misaligned (t : TensorMap) (n : Nat) : Bool :=
  t.base.toNat % n != 0 || (List.range t.dims).any fun d => t.stride.getD d 0 % (n : Int) != 0

/-- The window coordinates of element i in the dimensions from d on, and what is left over (R242). -/
def TensorMap.window (t : TensorMap) : Nat → Nat → Nat → List Nat × Nat
  | 0, _, n => ([], n)
  | left + 1, d, n =>
    let b := t.box.getD d 1
    let (w, r) := t.window left (d + 1) (n / b)
    (n % b :: w, r)

/-- The address of coordinates (R242). -/
def TensorMap.address (t : TensorMap) (c : List Int) : Word :=
  t.base + BitVec.ofInt 64 ((List.range t.dims).foldl (fun a d => a + c.getD d 0 * t.stride.getD d 0) 0)

/-- Where element i lies for an origin (R242). -/
def TensorMap.elem (t : TensorMap) (origin : Word) (store : Bool) (n i : Nat) : Elem :=
  let (w, rest) := t.window t.dims 0 i
  if rest ≠ 0 then .none
  else
    let c : List Int := (List.range t.dims).map fun d =>
      (origin.extractLsb' (16 * d) 16).toInt + (w.getD d 0 : Int) * (t.step.getD d 0 : Int)
    let outside := (List.range t.dims).any fun d =>
      decide (c.getD d 0 < 0 ∨ (t.ext.getD d 0 : Int) ≤ c.getD d 0)
    if !outside then .at [t.address c] (n / 8) 0
    else if t.oob = 0 then .none
    else if t.oob = 1 then
      if store then .none
      else .at [t.address ((List.range t.dims).map fun d => min (max (c.getD d 0) 0) ((t.ext.getD d 0 : Int) - 1))]
        (n / 8) 0
    else .fault (t.address c)

/-! ## Checks of a group -/

/-- A piece of an element that has passed its checks: its place, its VA. -/
abbrev Piece := Place × Word

/-- An element of a group that has passed its checks. -/
structure Placed where
  index : Nat
  pieces : List Piece
  n : Nat
  off : Nat
  deriving DecidableEq, Repr

/-- Checks 1 to 3 of R243 for the pieces of an element: the places, or the code and the VA of the failure. -/
def placePieces (k : Access) (align : Bool) (n : Nat) : List Word → M (Except (BitVec 8 × Word) (List Piece))
  | [] => pure (.ok [])
  | va :: rest => do
    if align && va.toNat % n != 0 then return .error (0x08, va)
    match ← tryPlace k va n with
    | .error c => return .error (c, va)
    | .ok p =>
      match ← placePieces k align n rest with
      | .error e => return .error e
      | .ok l => return .ok ((p, va) :: l)

/-- The active elements of a list that access memory, placed up to the first that fails (R254). -/
def placeElems (k : Access) (f : Form) : List Nat → M (Except (BitVec 8 × Word) (List Placed))
  | [] => pure (.ok [])
  | i :: rest => do
    match f.place i with
    | .none => placeElems k f rest
    | .fault va => return .error (0x09, va)
    | .at vas n off =>
      match ← placePieces k f.align n vas with
      | .error e => return .error e
      | .ok l =>
        match ← placeElems k f rest with
        | .error e => return .error e
        | .ok r => return .ok (⟨i, l, n, off⟩ :: r)

/-- A precise fault in group e (R110, R254), where the load may have waited in an earlier one. -/
def faultIn {α : Type} (e : Nat) (k : Access) (code : BitVec 8) (va : Word) : M α := do
  onHart fun h => { h with vprog := BitVec.ofNat 7 e, vprogPc := h.pc, partLoad := none }
  trap k.code code va

/-- The address-side watchpoint that an element hits. -/
def Hart.watchElem (h : Hart) (k : Access) (f : Form) (i : Nat) : Option Nat :=
  match f.place i with
  | .at vas n _ => vas.findSome? fun va => h.watchHit k va.toNat n
  | _ => none

/-- The watchpoints of R352 look at the active elements in order, before any group commits: a hit stops the hart;
an element whose checks fail ends the search, and traps in its group. -/
def watchElems (k : Access) (f : Form) : List Nat → M Unit
  | [] => pure ()
  | i :: rest => do
    match ← placeElems k f [i] with
    | .error _ => pure ()
    | .ok _ =>
      match (← hart).watchElem k f i with
      | some u =>
        modify (State.ownStop 2 (BitVec.ofNat 2 u))
        endHere
      | none => watchElems k f rest

/-- Some address-side watchpoint of a hart is enabled. -/
def Hart.watching (h : Hart) : Bool := h.dbg.dwc.toList.any fun c => c.getLsbD 0

/-- The scratchpad passes of a group beyond the first (R233): the largest count of distinct words in a bank, less
one. -/
def passesBeyond (l : List Placed) : Nat :=
  let words := (l.flatMap fun p => p.pieces.filterMap fun x =>
    match x.1 with
    | .scratch _ off => some (off / 8)
    | _ => none).eraseDups
  ((words.map fun w => (words.filter fun v => v % 128 == w % 128).length).foldl max 1) - 1

/-- The active elements of group e at SEW. -/
def Hart.activeIn (h : Hart) (m : BitVec 3) (n e : Nat) : List Nat := (h.groupElems n e).filter fun i => h.active m i

/-- A cached line is noted as touched by the instruction (R234). -/
def Hart.touch (p : Place) (h : Hart) : Hart :=
  match p with
  | .device pa _ true => if h.touched.contains (lineOf pa) then h else { h with touched := lineOf pa :: h.touched }
  | _ => h

/-- The cluster-cache lines that the active elements of the instruction touched, in its earlier issues too, are dropped
(R234, R256). -/
def dropTouched : M Unit := modify fun s => s.hart.touched.foldl (fun s pa => s.dropLine s.hart.cluster pa) s

/-- The elements from vprog.start on that are active. -/
def Hart.activeFrom (h : Hart) (m : BitVec 3) (n : Nat) : List Nat :=
  (List.range h.vl.toNat).filter fun i => decide (h.vprog.toNat * h.perGroup n ≤ i) && h.em m i

/-- The end of a vector memory instruction: the last-use drop of every line that its active elements touched, of groups
before vprog.start also; the ring entry with the VAs of the first and the last element that accessed memory (R359);
retirement. -/
def retireMem (f : Form) (last : Bool) (l : List Nat) : M Unit := do
  if last then dropTouched
  let vas := l.filterMap fun i =>
    match f.place i with
    | .at (va :: _) _ _ => some va
    | _ => none
  modify (State.pushRing l.length (vas.headD 0) (vas.getLastD 0))
  retire

/-! ## Loads -/

/-- The bytes of a piece, and whether they are poisoned. -/
def readPiece (n : Nat) (hints : Hints) (p : Piece) : M (List Byte × Bool) := do
  let s ← get
  let (d, s') := s.loadAt (s.agentOf s.hart) p.1 n hints
  set s'
  return d

/-- Piece j of an element, n bytes long, holds some of its bits. -/
def holdsBits (bits off n j : Nat) : Bool := decide (8 * n * j < off + bits ∧ off < 8 * n * (j + 1))

/-- The bytes of the pieces of an element of group e from piece j on: those that hold its bits are read, each once
(R254); poison is a failed check (R240, R254). -/
def readPieces (e bits off n : Nat) (hints : Hints) : Nat → List Piece → M (List Byte)
  | _, [] => pure []
  | j, p :: rest => do
    if holdsBits bits off n j then
      let (d, bad) ← readPiece n hints p
      if bad then faultIn e .load 0x0C p.2
      onHart (Hart.touch p.1)
      return d ++ (← readPieces e bits off n hints (j + 1) rest)
    else return List.replicate n 0 ++ (← readPieces e bits off n hints (j + 1) rest)

/-- The values of the elements of a group. -/
def readElems (e bits : Nat) (hints : Hints) : List Placed → M (List (Nat × Word))
  | [] => pure []
  | p :: rest => do
    let d ← readPieces e bits p.off p.n hints 0 p.pieces
    return (p.index, lowBits bits (BitVec.ofNat 64 (natOfBytes d / 2 ^ p.off))) :: (← readElems e bits hints rest)

/-- An element reads a byte that a chained copy in flight has still to write (R295). The load waits for its own bytes
and never for the token (log 51). -/
def Hart.waitsForCopy (h : Hart) (f : Form) (l : List Nat) : Bool :=
  match h.chainedCopy with
  | some o =>
    l.any fun i =>
      match f.place i with
      | .at vas n _ => vas.any fun va => o.owes va.toNat n
      | _ => false
  | none => false

/-- The load waits before group e, the groups before it committed; the vector registers as they stood before the load are
kept with it. -/
def Hart.partAt (e : Nat) (before : Vector (Vector Word 256) 32) (h : Hart) : Hart :=
  { h with partLoad := some ⟨e, h.partLoad.elim before PartLoad.before⟩ }

/-- The group at which an issue of a load starts: where it waited within, else vprog.start. -/
def Hart.loadStart (h : Hart) : Nat := h.partLoad.elim h.vprog.toNat PartLoad.group

/-- The element groups of n-bit elements that hold an element below vl. -/
def Hart.liveGroups (h : Hart) (n : Nat) : Nat := (h.vl.toNat + h.perGroup n - 1) / h.perGroup n

/-- The groups of a load or store from a start on. Those that hold no element below vl access nothing and commit with the
last that does: a forced stop falls before them or after the instruction (R419; log 80). -/
def groupsFrom (start count live : Nat) (body : Nat → M Unit) : M Unit := do
  setsFrom 1 body (min live count - start) start none
  onHart fun h => { h with stopAt := none }
  let rest := max start (min live count)
  setsFrom 1 body (count - rest) rest none

/-- Group e of a load (R254), which waits for the bytes of a chained copy that it reads (R295). -/
def loadGroup (f : Form) (n : Nat) (d : BitVec 5) (m : BitVec 3) (hints : Hints) (before : Vector (Vector Word 256) 32)
    (e : Nat) : M Unit := do
  let h ← hart
  if h.waitsForCopy f (h.activeIn m n e) then
    onHart (Hart.partAt e before)
    waitFor .engine
  match ← placeElems .load f (h.activeIn m n e) with
  | .error (c, va) => faultIn e .load c va
  | .ok l =>
    modify (State.bump 4 (passesBeyond l))
    let vals ← readElems e f.bits hints l
    onHart fun h =>
      let h := (h.groupElems n e).foldl (fun h i =>
        if h.active m i then h.setElem n d.toNat i 0 else h.putOff (.vec n d.toNat) h.vl.toNat i) h
      vals.foldl (fun h v => h.setElem n d.toNat v.1 v.2) h

/-- A vector load (R254). -/
def vectorLoad (form : TypeState → Hart → M Form) (ok : TypeState → Bool) (d : BitVec 5) (c : BitVec 4) (e : BitVec 2)
    (l : BitVec 1) (m : BitVec 3) (s : State) : Out := run (do
  let t ← typeState
  require (groupOk d t.g && ok t)
  let h ← hart
  if h.vl = 0 then retireVec 0
  else
    let f ← form t h
    let n := t.ew.bits
    let elems := h.activeFrom m n
    if h.watching then watchElems .load f elems
    groupsFrom h.loadStart (8 * t.g) (h.liveGroups n) (loadGroup f n d m ⟨e, false, c⟩ h.v)
    retireMem f (l == 1) elems) s

/-! ## Stores -/

/-- A byte that a store group writes: its place, the bits written, their values. -/
structure ByteWrite where
  place : Place
  mask : Byte
  val : Byte
  deriving DecidableEq, Repr

/-- The place some bytes on. -/
def Place.plus (p : Place) (j : Nat) : Place :=
  match p with
  | .tcm core off => .tcm core (off + j)
  | .scratch gang off => .scratch gang (off + j)
  | .device pa home cached => .device (pa + j) (home + j) cached
  | .host home => .host (home + j)

/-- The bytes that an element writes: its value in its field of bits (R48, R57, R253). -/
def Placed.writes (p : Placed) (bits : Nat) (w : Word) : List ByteWrite :=
  let mask := bytesOf (p.n * p.pieces.length) ((2 ^ bits - 1) * 2 ^ p.off)
  let vals := bytesOf (p.n * p.pieces.length) (w.toNat % 2 ^ bits * 2 ^ p.off)
  (List.range (p.n * p.pieces.length)).filterMap fun j =>
    match p.pieces[j / p.n]? with
    | some (q, _) => if mask.getD j 0 = 0 then none else some ⟨q.plus (j % p.n), mask.getD j 0, vals.getD j 0⟩
    | none => none

/-- Writes of one byte that follow each other become one (R254). -/
def mergeBytes : List ByteWrite → List ByteWrite
  | [] => []
  | w :: t =>
    match mergeBytes t with
    | v :: r =>
      if v.place = w.place then ⟨w.place, w.mask ||| v.mask, (w.val &&& ~~~v.mask) ||| (v.val &&& v.mask)⟩ :: r
      else w :: v :: r
    | [] => [w]

/-- A byte as it stands where a store performs; looking at it is no read (R254). A reader-count store performs at the die
(R236), where the byte is the die's, but for one that the hart's own cluster holds dirty, which is the latest write of its
location (R269). -/
def State.peek (s : State) (mode : StoreMode) (p : Place) : Byte :=
  match p with
  | .tcm core off => s.seenTcm s.me core off
  | .scratch key off => s.scratchByte s.me (s.gang key) off
  | .host home => (s.seenBytes s.me home 1).headD 0
  | .device pa home cached =>
    let atDie := match mode with
      | .reader count => count != 0 && isHbmHome home
      | _ => false
    let held := (s.lineAt s.hart.cluster pa).map fun l => l.byte (pa % 128)
    match held with
    | some b => if b.dirty || (cached && b.held && !atDie) then b.val else (s.seenBytes s.me home 1).headD 0
    | none => (s.seenBytes s.me home 1).headD 0

/-- The offset within its 128-byte block at which a place lies. -/
def Place.inBlock (p : Place) : Nat :=
  match p with
  | .tcm _ off => off % 128
  | .scratch _ off => off % 128
  | .device pa _ _ => pa % 128
  | .host home => home % 128

/-- Whole bytes that follow each other in a block, each run to be stored at once; a byte written in part stands
alone. -/
def runsOf : List ByteWrite → List (Place × Bool × List ByteWrite)
  | [] => []
  | w :: t =>
    let whole := w.mask == 0xFF
    match runsOf t with
    | (p, true, r) :: rest =>
      if whole && p == w.place.plus 1 && p.inBlock != 0 then (w.place, true, w :: r) :: rest
      else (w.place, whole, [w]) :: (p, true, r) :: rest
    | rest => (w.place, whole, [w]) :: rest

/-- The run of a store performed. -/
def storeRun (c : BitVec 4) (prio : BitVec 2) (mode : StoreMode) (r : Place × Bool × List ByteWrite) : M Unit :=
  modify fun s =>
    let data := r.2.2.map fun w => (w.val &&& w.mask) ||| (if r.2.1 then 0 else s.peek mode r.1 &&& ~~~w.mask)
    s.storeAt (s.agentOf s.hart) r.1 data c prio mode

/-- Group e of a store (R254): every check before any write, writes in element order. -/
def storeGroup (f : Form) (n : Nat) (d : BitVec 5) (m : BitVec 3) (c : BitVec 4) (prio : BitVec 2) (mode : StoreMode)
    (e : Nat) : M Unit := do
  let h ← hart
  match ← placeElems .store f (h.activeIn m n e) with
  | .error (code, va) => faultIn e .store code va
  | .ok l =>
    modify (State.bump 4 (passesBeyond l))
    let writes := mergeBytes (l.flatMap fun p => p.writes f.bits (h.elem n d.toNat p.index))
    (runsOf writes).forM (storeRun c prio mode)
    onHart fun h => writes.foldl (fun h w => h.touch w.place) h

/-- A vector store (R254, R256): the count of a reader-count store is read at issue. -/
def vectorStore (form : TypeState → Hart → M Form) (ok : TypeState → Bool) (d : BitVec 5) (c : BitVec 4) (e : BitVec 2)
    (l r : BitVec 1) (m : BitVec 3) (s : State) : Out := run (do
  let t ← typeState
  require (groupOk d t.g && ok t)
  let h ← hart
  if h.vl = 0 then retireVec 0
  else
    let f ← form t h
    let n := t.ew.bits
    let elems := h.activeFrom m n
    if h.watching then watchElems .store f elems
    groupsFrom h.vprog.toNat (8 * t.g) (h.liveGroups n) (storeGroup f n d m c e (if r = 1 then .reader h.rcount else .plain))
    retireMem f (l == 1) elems) s

/-! ## The forms -/

/-- The tensor map of a slot, under the checks of R242. -/
def tensorForm (slot : BitVec 4) (b : BitVec 5) (k : Access) (t : TypeState) (h : Hart) : M Form := do
  let q := tensorMapOf (h.tm.toList.getD (slot.toNat - 1) tensorMapReset)
  let n := t.ew.bits
  require (!q.illegal)
  if q.misaligned (n / 8) then trap k.code 0x08 q.base
  return ⟨n, true, q.elem (h.rx b) (k == .store) n⟩

/-- SEW is 8 (R255). -/
def TypeState.isE8 (t : TypeState) : Bool := t.ew == .e8

/-- VLD, unit stride (R253, R254). -/
def execVld (d a : BitVec 5) (c : BitVec 4) (e : BitVec 2) (l : BitVec 1) (m : BitVec 3) (s : State) : Out :=
  vectorLoad (fun t h => pure (unitForm t (h.rx a))) (fun _ => true) d c e l m s

/-- VST, unit stride (R253, R254). -/
def execVst (d a : BitVec 5) (c : BitVec 4) (e : BitVec 2) (l r : BitVec 1) (m : BitVec 3) (s : State) : Out :=
  vectorStore (fun t h => pure (unitForm t (h.rx a))) (fun _ => true) d c e l r m s

/-- VLD through a tensor map (R242). -/
def execVldTmap (d a : BitVec 5) (t : BitVec 4) (c : BitVec 4) (e : BitVec 2) (l : BitVec 1) (m : BitVec 3)
    (s : State) : Out := vectorLoad (tensorForm t a .load) TypeState.notEw0 d c e l m s

/-- VST through a tensor map (R242). -/
def execVstTmap (d a : BitVec 5) (t : BitVec 4) (c : BitVec 4) (e : BitVec 2) (l r : BitVec 1) (m : BitVec 3)
    (s : State) : Out := vectorStore (tensorForm t a .store) TypeState.notEw0 d c e l r m s

/-- VLDS (R253). -/
def execVlds (d a b : BitVec 5) (c : BitVec 4) (e : BitVec 2) (l : BitVec 1) (m : BitVec 3) (s : State) : Out :=
  vectorLoad (fun t h => pure (stridedForm t (h.rx a) (h.rx b))) TypeState.notEw0 d c e l m s

/-- VSTS (R253). -/
def execVsts (d a b : BitVec 5) (c : BitVec 4) (e : BitVec 2) (l r : BitVec 1) (m : BitVec 3) (s : State) : Out :=
  vectorStore (fun t h => pure (stridedForm t (h.rx a) (h.rx b))) TypeState.notEw0 d c e l r m s

/-- VLD.P6 (R255). -/
def execVldP6 (d a : BitVec 5) (c : BitVec 4) (e : BitVec 2) (l : BitVec 1) (m : BitVec 3) (s : State) : Out :=
  vectorLoad (fun _ h => pure (sixForm (h.rx a))) TypeState.isE8 d c e l m s

/-- VST.P6 (R255). -/
def execVstP6 (d a : BitVec 5) (c : BitVec 4) (e : BitVec 2) (l r : BitVec 1) (m : BitVec 3) (s : State) : Out :=
  vectorStore (fun _ h => pure (sixForm (h.rx a))) TypeState.isE8 d c e l r m s

/-- VLDX (R253): the index group must not overlap vA. -/
def execVldx (d a b : BitVec 5) (c : BitVec 4) (e : BitVec 2) (l : BitVec 1) (m : BitVec 3) (s : State) : Out :=
  vectorLoad (fun t h => pure (indexedForm t h (h.rx a) b))
    (fun t => t.notEw0 && groupOk b t.g && !overlaps d.toNat t.g b.toNat t.g) d c e l m s

/-- VSTX (R253). -/
def execVstx (d a b : BitVec 5) (c : BitVec 4) (e : BitVec 2) (l r : BitVec 1) (m : BitVec 3) (s : State) : Out :=
  vectorStore (fun t h => pure (indexedForm t h (h.rx a) b)) (fun t => t.notEw0 && groupOk b t.g) d c e l r m s

end Sys2Proof.Machine
end

