-- ==== Sys2Proof/Machine/Transcendental.lean ====
section
/-! DEFINITION. The transcendental functions (R143 to R145). The exact value of an irrational result is enclosed
between two fixed-point numbers of 256 fraction bits; where both ends round alike the result is that rounding, since
rounding is monotone. Ends that round apart at that precision would leave the result free (log 24). -/

namespace Sys2Proof.Machine

/-- Fraction bits of the fixed-point numbers. -/
def fixBits : Nat := 256

/-- One in fixed point. -/
def fixOne : Nat := 2 ^ fixBits

/-- The bound on the error of the enclosures, in units of 2^−256: each series below has fewer than 300 terms, each
short of its value by less than 300 units, and an argument's reduction by a multiple below 2^12 of a constant short
by less than 300 units adds less than 2^21. -/
def fixError : Nat := 2 ^ 24

/-- The sum of the first n terms of z / (2k + 1), z falling by the factor num / den, from term k on. -/
def oddSeries (num den : Nat) : Nat → Nat → Nat → Nat
  | 0, _, _ => 0
  | n + 1, k, z => z / (2 * k + 1) + oddSeries num den n (k + 1) (z * num / den)

/-- ln 2 = 2 artanh(1/3). -/
def lnTwo : Nat := 2 * oddSeries 1 9 170 0 (fixOne / 3)

/-- The sum of the terms of the exponential series of r (a fixed-point number), from term k on. -/
def expSeries (r : Nat) : Nat → Nat → Nat → Nat
  | 0, _, _ => 0
  | n + 1, k, t => t + expSeries r n (k + 1) (t * r / (fixOne * (k + 1)))

/-- e^r for r from 0 to 1. -/
def fixExp (r : Nat) : Nat := expSeries r 80 0 fixOne

/-- A number as a fixed-point number, bits below 2^−256 dropped. -/
def fixOf (neg : Bool) (m : Nat) (e : Int) : Int :=
  let x : Nat := if e + (fixBits : Int) < 0 then m / 2 ^ (-(e + (fixBits : Int))).toNat
    else m * 2 ^ (e + (fixBits : Int)).toNat
  if neg then -(x : Int) else x

/-- e^t as a fixed-point number times a power of two: the fraction, from 1 to 2, and the exponent. -/
def expOf (t : Int) : Nat × Int := (fixExp (t % (lnTwo : Int)).toNat, t / (lnTwo : Int))

/-- 2^t likewise. -/
def exp2Of (t : Int) : Nat × Int :=
  (fixExp ((t % (fixOne : Int)).toNat * lnTwo / fixOne), t / (fixOne : Int))

/-- The logarithm to base 2 of m × 2^e as a fixed-point number, m positive. -/
def log2Of (m : Nat) (e : Int) : Int :=
  let n := Nat.log2 m
  let p := 2 ^ n
  let z := (m - p) * fixOne / (m + p)
  let ln := 2 * oddSeries ((m - p) * (m - p)) ((m + p) * (m + p)) 170 0 z
  (e + (n : Int)) * (fixOne : Int) + ((ln * fixOne / lnTwo : Nat) : Int)

/-- The rounding of an irrational magnitude near y × 2^e: of both ends of its enclosure, or free where they round
apart (log 24). -/
def Fmt.deliverNear (f : Fmt) (r : Rnd) (draw key : Nat) (neg : Bool) (y : Nat) (e : Int) : Word × FlagSet :=
  let lo := f.deliverMag r neg (y - fixError) e true
  let hi := f.deliverMag r neg (y + fixError) e true
  if lo = hi then lo else (lowBits f.width (Config.nearResult draw key), flagNX)

/-- A magnitude as the largest of a bound: beyond it, every accepted format rounds the bound's result as the true
one (the result lies beyond overflow, below half the least subnormal, or next to 1). -/
def capMag (bound m : Nat) (e : Int) : Nat × Int :=
  if shifted false m e (min e 0) ≤ shifted false bound 0 (min e 0) then (m, e) else (bound, 0)

/-- 2^b of a non-zero number (R144): exact for an integer. -/
def Fmt.exp2 (f : Fmt) (r : Rnd) (draw key : Nat) (neg : Bool) (m : Nat) (e : Int) : Word × FlagSet :=
  let (m, e) := capMag 2000 m e
  let whole := decide (0 ≤ e) || m % 2 ^ (-e).toNat == 0
  let (y, k) := exp2Of (fixOf neg m e)
  if whole then f.deliverMag r false 1 k false else f.deliverNear r draw key false y (k - fixBits)

/-- e^b of a non-zero number (R144). -/
def Fmt.exp (f : Fmt) (r : Rnd) (draw key : Nat) (neg : Bool) (m : Nat) (e : Int) : Word × FlagSet :=
  let (m, e) := capMag 1400 m e
  let (y, k) := expOf (fixOf neg m e)
  f.deliverNear r draw key false y (k - fixBits)

/-- log2 b of a positive number (R144, R145): exact for a power of two, +0 for 1. -/
def Fmt.log2 (f : Fmt) (r : Rnd) (draw key : Nat) (m : Nat) (e : Int) : Word × FlagSet :=
  if 2 ^ Nat.log2 m = m then f.deliver r (Val.ofInt (e + (Nat.log2 m : Int)))
  else
    let y := log2Of m e
    f.deliverNear r draw key (decide (y < 0)) y.natAbs (-fixBits)

/-- 1 / √b of a positive number (R144): b is taken at an even exponent. -/
def Fmt.rsqrt (f : Fmt) (r : Rnd) (m : Nat) (e : Int) : Word × FlagSet :=
  let odd := e % 2
  let n := m * 2 ^ odd.toNat
  let y := root (2 ^ 512 / n)
  f.deliverMag r false y (-((e - odd) / 2) - 256) (y * y * n != 2 ^ 512)

/-- tanh b of a non-zero number (R144). Below 2^−40 the value lies below b by less than 2^−80 of it. -/
def Fmt.tanh (f : Fmt) (r : Rnd) (draw key : Nat) (neg : Bool) (m : Nat) (e : Int) : Word × FlagSet :=
  if e + (Nat.log2 m : Int) < -40 then f.deliverMag r neg (m * 2 ^ 80 - 1) (e - 80) true
  else
    let (m, e) := capMag 60 m e
    let (y, k) := expOf (fixOf true (2 * m) e)
    let t := y / 2 ^ (-k).toNat
    f.deliverNear r draw key neg ((fixOne - t) * fixOne / (fixOne + t)) (-fixBits)

/-- 1 / (1 + e^−b) of a non-zero number (R144): from e^−|b|, which is at most 1. -/
def Fmt.sigm (f : Fmt) (r : Rnd) (draw key : Nat) (neg : Bool) (m : Nat) (e : Int) : Word × FlagSet :=
  let (m, e) := capMag (if neg then 1400 else 60) m e
  let (y, k) := expOf (fixOf true m e)
  let d := fixOne + y / 2 ^ (-k).toNat
  if neg then f.deliverNear r draw key false (y * fixOne / d) (k - fixBits)
  else f.deliverNear r draw key false (fixOne * fixOne / d) (-fixBits)

/-- The functions of R143. -/
inductive Transcendental where
  | exp2
  | exp
  | log2
  | recip
  | rsqrt
  | tanh
  | sigm
  deriving DecidableEq, Repr

/-- The number 1. -/
def Val.one : Val := .num false 1 0

/-- A transcendental of a value (R144, R145). -/
def Fmt.transcendental (f : Fmt) (t : Transcendental) (r : Rnd) (draw key : Nat) (v : Val) : Word × FlagSet :=
  match v with
  | .nan => f.deliver r .nan
  | .inf s =>
    match t with
    | .exp2 | .exp => f.deliver r (if s then .zero else .inf false)
    | .log2 => if s then f.deliverWith r Val.invalid else f.deliver r (.inf false)
    | .recip => f.deliver r (.num s 0 0)
    | .rsqrt => if s then f.deliverWith r Val.invalid else f.deliver r .zero
    | .tanh => f.deliver r (.num s 1 0)
    | .sigm => f.deliver r (if s then .zero else .one)
  | .num s m e =>
    if m = 0 then
      match t with
      | .exp2 | .exp => f.deliver r .one
      | .log2 => f.deliverWith r (.inf true, flagDZ)
      | .recip | .rsqrt => f.deliverWith r (.inf s, flagDZ)
      | .tanh => f.deliver r (.num s 0 0)
      | .sigm => f.deliver r (.num false 1 (-1))
    else
      match t with
      | .exp2 => f.exp2 r draw key s m e
      | .exp => f.exp r draw key s m e
      | .log2 => if s then f.deliverWith r Val.invalid else f.log2 r draw key m e
      | .recip => f.deliverQuotient r s 1 0 m e
      | .rsqrt => if s then f.deliverWith r Val.invalid else f.rsqrt r m e
      | .tanh => f.tanh r draw key s m e
      | .sigm => f.sigm r draw key s m e

end Sys2Proof.Machine
end

