-- ==== Sys2Proof/Machine/FloatOps.lean ====
section
/-! DEFINITION. The floating-point operations that scalar and vector instructions share (R80, R81, R136, R138): on
exact values, each rounded once to its destination. -/

namespace Sys2Proof.Machine

/-- B + C (R80). -/
def Fmt.add (f : Fmt) (r : Rnd) (x y : Val) : Word × FlagSet := f.deliverWith r (Val.sum r.mode [x, y])

/-- B − C (R80). -/
def Fmt.sub (f : Fmt) (r : Rnd) (x y : Val) : Word × FlagSet := f.deliverWith r (Val.sum r.mode [x, y.neg])

/-- B × C (R80). -/
def Fmt.mul (f : Fmt) (r : Rnd) (x y : Val) : Word × FlagSet := f.deliverWith r (x.mul y)

/-- Z + B × C, or with the product's sign inverted: one rounding; an invalid product gives NaN and NV even with a
NaN addend (R80, R139). -/
def Fmt.fused (f : Fmt) (r : Rnd) (minus : Bool) (x y z : Val) : Word × FlagSet :=
  let (p, fl) := x.mul y
  if fl ≠ 0 then f.deliverWith r (.nan, fl)
  else f.deliverWith r (Val.sum r.mode [if minus then p.neg else p, z])

/-- A value has its sign set; a NaN counts as positive. -/
def Val.negative (v : Val) : Bool :=
  match v with
  | .nan => false
  | .inf s => s
  | .num s _ _ => s

/-- The smaller or the larger of two values (R80): −0 lies below +0, one NaN gives the other operand. -/
def Val.pick (least : Bool) (x y : Val) : Val :=
  match x.cmp y with
  | none => if x.isNan then y else x
  | some .lt => if least then x else y
  | some .gt => if least then y else x
  | some .eq => if x.negative == least then x else y

/-- FMIN and FMAX (R80): the selected value is rounded; NV is never set. -/
def Fmt.least (f : Fmt) (r : Rnd) (x y : Val) : Word × FlagSet := f.deliver r (x.pick true y)
def Fmt.greatest (f : Fmt) (r : Rnd) (x y : Val) : Word × FlagSet := f.deliver r (x.pick false y)

/-- The comparisons of R81 and R136. -/
inductive Compare where
  | eq
  | ne
  | lt
  | le
  | gt
  | ge
  deriving DecidableEq, Repr

/-- A comparison: a NaN operand gives false (true for `ne`), with NV except for `eq` and `ne` (R81, R138). -/
def Compare.holds (c : Compare) (x y : Val) : Bool × FlagSet :=
  match x.cmp y with
  | none =>
    match c with
    | .eq => (false, 0)
    | .ne => (true, 0)
    | _ => (false, flagNV)
  | some o =>
    match c with
    | .eq => (o == .eq, 0)
    | .ne => (o != .eq, 0)
    | .lt => (o == .lt, 0)
    | .le => (o != .gt, 0)
    | .gt => (o == .gt, 0)
    | .ge => (o != .lt, 0)

/-- The class mask of a value of a layout (R81). -/
def Layout.classOf (l : Layout) (v : Val) : Word :=
  match v with
  | .nan => 256
  | .inf s => if s then 1 else 128
  | .num s m _ =>
    if m = 0 then (if s then 8 else 16)
    else if m < 2 ^ l.mb then (if s then 4 else 32)
    else if s then 2 else 64

/-- The class mask of an element (R81). -/
def Fmt.classMask (f : Fmt) (w : Word) : Word :=
  match f.layout with
  | some l => l.classOf (f.value w).1
  | none => 0

/-- An element with its sign bit set as given; a NaN gives the canonical NaN (R81, R138). -/
def Fmt.withSign (f : Fmt) (w : Word) (sign : Bool) : Word :=
  match f.layout with
  | none => 0
  | some l =>
    if (f.value w).1.isNan then BitVec.ofNat 64 l.nan
    else l.word sign (w.toNat % 2 ^ l.magBits)

/-- The sign bit of an element. -/
def Fmt.signBit (f : Fmt) (w : Word) : Bool := w.getLsbD (f.width - 1)

end Sys2Proof.Machine
end

