-- ==== Sys2Proof/Machine/ScalarFloat.lean ====
section
/-! DEFINITION. Scalar floating-point arithmetic, comparison and conversion (R79 to R81), under fm0. -/

namespace Sys2Proof.Machine

/-- The floating format of a field that an instruction uses: a code from 7 to 12 (R79). -/
def floatField (c : BitVec 4) : M Fmt :=
  match fmtOf c with
  | some f => if f.isFloat then pure f else illegal
  | none => illegal

/-- The integer format of a field that an instruction uses: a code from 0 to 4 (R79). -/
def intField (c : BitVec 4) : M Fmt :=
  match fmtOf c with
  | some f => if c.toNat ≤ 4 then pure f else illegal
  | none => illegal

/-- fm0, accepted by a scalar instruction (R79). -/
def scalarDesc (rounds : Bool) : M Desc := do
  let q := (← hart).desc 0
  require (q.common rounds false && q.block == 0)
  return q

/-- A result with its flags goes to a scalar register and the instruction retires (R80). -/
def floatWrite (d : BitVec 5) (r : Word × FlagSet) : M Unit := do
  let w ← raising r
  onHart fun h => (h.wx d w).retire

/-- An arithmetic function of B and C (R80). -/
def floatBinary (op : Fmt → Rnd → Val → Val → Word × FlagSet) (d a b : BitVec 5) (s : State) : Out := run (do
  let q ← scalarDesc true
  let fa ← floatField q.a
  let fb ← floatField q.b
  let fd ← floatField q.d
  let h ← hart
  let dr ← drawIf q.sr
  floatWrite d (op fd (q.rnd dr) (fa.value (h.rx a)).1 (fb.value (h.rx b)).1)) s

/-- FADD (R80). -/
def execFadd (d a b : BitVec 5) (s : State) : Out := floatBinary Fmt.add d a b s

/-- FSUB (R80). -/
def execFsub (d a b : BitVec 5) (s : State) : Out := floatBinary Fmt.sub d a b s

/-- FMUL (R80). -/
def execFmul (d a b : BitVec 5) (s : State) : Out := floatBinary Fmt.mul d a b s

/-- FDIV (R80). -/
def execFdiv (d a b : BitVec 5) (s : State) : Out := floatBinary Fmt.divide d a b s

/-- FMIN (R80). -/
def execFmin (d a b : BitVec 5) (s : State) : Out := floatBinary Fmt.least d a b s

/-- FMAX (R80). -/
def execFmax (d a b : BitVec 5) (s : State) : Out := floatBinary Fmt.greatest d a b s

/-- FMA and FNMA: the addend is read in format d (R80). -/
def floatFused (minus : Bool) (d a b : BitVec 5) (s : State) : Out := run (do
  let q ← scalarDesc true
  let fa ← floatField q.a
  let fb ← floatField q.b
  let fd ← floatField q.d
  let h ← hart
  let dr ← drawIf q.sr
  floatWrite d (fd.fused (q.rnd dr) minus (fa.value (h.rx a)).1 (fb.value (h.rx b)).1 (fd.value (h.rx d)).1)) s

/-- FMA (R80). -/
def execFma (d a b : BitVec 5) (s : State) : Out := floatFused false d a b s

/-- FNMA (R80). -/
def execFnma (d a b : BitVec 5) (s : State) : Out := floatFused true d a b s

/-- A function of B from one format to another (R80, R81). -/
def floatUnary (src dst : BitVec 4 → M Fmt) (op : Fmt → Fmt → Rnd → Word → Word × FlagSet) (d a : BitVec 5)
    (s : State) : Out := run (do
  let q ← scalarDesc true
  let fa ← src q.a
  let fd ← dst q.d
  let h ← hart
  let dr ← drawIf q.sr
  floatWrite d (op fa fd (q.rnd dr) (h.rx a))) s

/-- FSQRT (R80). -/
def execFsqrt (d a : BitVec 5) (s : State) : Out :=
  floatUnary floatField floatField (fun fa fd r w => fd.sqrt r (fa.value w).1) d a s

/-- FCVT.F.F (R81): a NaN sets no flag. -/
def execFcvtFF (d a : BitVec 5) (s : State) : Out :=
  floatUnary floatField floatField (fun fa fd r w => fd.deliver r (fa.value w).1) d a s

/-- An integer result of a format as a scalar (R81): sign-extended, UINT8 zero-extended. -/
def Fmt.extend (f : Fmt) (w : Word) : Word :=
  if f = .uint8 then lowBits 8 w
  else if w.getLsbD (f.width - 1) then w ||| ~~~ lowBits f.width (BitVec.allOnes 64) else lowBits f.width w

/-- FCVT.I.F (R81). -/
def execFcvtIF (d a : BitVec 5) (s : State) : Out :=
  floatUnary floatField intField (fun fa fd r w =>
    let (x, fl) := fd.deliver r (fa.value w).1
    (fd.extend x, fl)) d a s

/-- FCVT.F.I (R81). -/
def execFcvtFI (d a : BitVec 5) (s : State) : Out :=
  floatUnary intField floatField (fun fa fd r w => fd.deliver r (fa.value w).1) d a s

/-- A comparison of B and C (R81). -/
def floatCompare (c : Compare) (d a b : BitVec 5) (s : State) : Out := run (do
  let q ← scalarDesc false
  let fa ← floatField q.a
  let fb ← floatField q.b
  let h ← hart
  let (x, fl) := c.holds (fa.value (h.rx a)).1 (fb.value (h.rx b)).1
  floatWrite d (if x then 1 else 0, fl)) s

/-- FEQ (R81). -/
def execFeq (d a b : BitVec 5) (s : State) : Out := floatCompare .eq d a b s

/-- FLT (R81). -/
def execFlt (d a b : BitVec 5) (s : State) : Out := floatCompare .lt d a b s

/-- FLE (R81). -/
def execFle (d a b : BitVec 5) (s : State) : Out := floatCompare .le d a b s

/-- FCLASS (R81). -/
def execFclass (d a : BitVec 5) (s : State) : Out := run (do
  let q ← scalarDesc false
  let fa ← floatField q.a
  let h ← hart
  floatWrite d (fa.classMask (h.rx a), 0)) s

/-- FNEG and FABS (R81): d must equal a; no flag. -/
def floatSign (sign : Bool → Bool) (d a : BitVec 5) (s : State) : Out := run (do
  let q ← scalarDesc false
  let fa ← floatField q.a
  require (q.d == q.a)
  let h ← hart
  floatWrite d (fa.withSign (h.rx a) (sign (fa.signBit (h.rx a))), 0)) s

/-- FNEG (R81). -/
def execFneg (d a : BitVec 5) (s : State) : Out := floatSign (fun b => !b) d a s

/-- FABS (R81). -/
def execFabs (d a : BitVec 5) (s : State) : Out := floatSign (fun _ => false) d a s

end Sys2Proof.Machine
end

