-- ==== Sys2Proof/Machine/ScaleOut.lean ====
section
/-! DEFINITION. Scale-out ports (R406 to R409) and collectives (R410 to R416). -/

namespace Sys2Proof.Machine

/-! ## Ports -/

/-- A scale-out port. -/
def State.port (s : State) (p : Nat) : Port := s.ports.toList.getD p Port.reset
def State.modPort (p : Nat) (f : Port → Port) (s : State) : State :=
  { s with ports := s.ports.setIfInBounds p (f (s.port p)) }

/-- Units of a data frame (R407). -/
def frameUnits (f : ScaleFrame) : Nat := (f.payload.length + 255) / 256

/-- The scale-out ports and the collective engine stand: the package is frozen (R354, R408), or a checkpoint holds them
as a freeze does from its step 4 on (R432). -/
def State.packageFrozen (s : State) : Bool := s.freezes.contains .package || s.copying

/-- DATA_FRAME (R406, R407): accepted into the buffer in its order; a frame that fails its CRC falls, and every later
one up to its resend. -/
def execDataFrame (port : Nat) (frame : ScaleFrame) (crcGood : Bool) (s : State) : Out :=
  .next (s.modPort port fun p =>
    if p.lost then p
    else if !crcGood then { p with discarding := true }
    else if frame.sequence ≠ p.expected ∨ 256 < p.buffered + frameUnits frame then p
    else
      { p with discarding := false, expected := p.expected + 1, frames := p.frames ++ [frame]
               buffered := p.buffered + frameUnits frame, accepted := p.accepted + BitVec.ofNat 32 (frameUnits frame) })

/-- The grant of the peer allows a frame of n more units (R407). -/
def Port.allows (p : Port) (n : Nat) : Bool :=
  !p.lost && decide ((p.grant - (p.sent + BitVec.ofNat 32 n)).toNat < 2 ^ 31)

/-- Queued frames go out in order as far as the grant allows (R407); a frozen device sends none (R408). -/
def State.sendQueued (port : Nat) : Nat → State → State
  | 0, s => s
  | fuel + 1, s =>
    let p := s.port port
    match p.queued with
    | [] => s
    | f :: t =>
      if s.packageFrozen || !p.allows (frameUnits f) then s
      else
        let f := { f with sequence := p.nextSent }
        let after := p.sent + BitVec.ofNat 32 (frameUnits f)
        State.sendQueued port fuel ((s.modPort port fun p =>
          { p with sent := after, nextSent := p.nextSent + 1, queued := t
                   unacked := p.unacked ++ [⟨after, f, s.time⟩] }).send (.frame port f))

/-- Every queued frame of a port that the grant allows goes out. -/
def State.pumpPort (port : Nat) (s : State) : State := s.sendQueued port (s.port port).queued.length

/-- ALLOWANCE_FRAME (R407): the peer's grant and acknowledgement; frames that waited for the grant go out. -/
def execAllowanceFrame (port : Nat) (grant ack : BitVec 32) (s : State) : Out :=
  let now := s.time
  .next ((s.modPort port fun p =>
    if p.lost then p
    else { p with grant := grant, acked := ack, lastAllowance := now
                  unacked := p.unacked.filter fun u => decide (2 ^ 31 ≤ (ack - u.after).toNat) }).pumpPort port)

/-- Frames at the head of a buffer that a number of released units covers. -/
def releaseFrames : Nat → List ScaleFrame → List ScaleFrame
  | _, [] => []
  | n, f :: t => if frameUnits f ≤ n then releaseFrames (n - frameUnits f) t else f :: t

/-- ALLOWANCE_SEND (R407, R408): units of the buffer are released, none while frozen, and the grant for the 256 units
of the buffer goes out with the acknowledgement. -/
def execAllowanceSend (port released : Nat) (s : State) : Out :=
  let n := if s.packageFrozen then 0 else min released (s.port port).buffered
  let s := s.modPort port fun p =>
    { p with released := p.released + BitVec.ofNat 32 n, buffered := p.buffered - n, frames := releaseFrames n p.frames }
  let p := s.port port
  .next (if p.lost then s else s.send (.allowance port (p.released + 256) p.accepted))

/-- FRAME_RESEND (R406, R407): 50 µs after the oldest frame that is not acknowledged was sent, it and every later one are
sent again, in order; a frozen device sends none (R408). -/
def execFrameResend (port : Nat) (s : State) : Out :=
  let p := s.port port
  match p.unacked with
  | [] => .next s
  | u :: _ =>
    if p.lost || s.packageFrozen || decide ((s.time - u.at_).toNat < 50000) then .next s
    else
      .next (p.unacked.foldl (fun s u => s.send (.frame port u.frame)) (s.modPort port fun p =>
        { p with unacked := p.unacked.map fun u => { u with at_ := s.time } }))

/-- A data frame joins its port's queue, and goes out once the grant allows it (R407). -/
def State.sendFrame (port : Nat) (f : ScaleFrame) (s : State) : State :=
  (s.modPort port fun p => { p with queued := p.queued ++ [f] }).pumpPort port

/-! ## Descriptors of collectives (R410, R412) -/

/-- The fields of a collective descriptor (R410). -/
structure CollDesc where
  op : BitVec 2
  sf : BitVec 4
  df : BitVec 4
  ef : BitVec 4
  count : Nat
  src : Word
  dst : Word
  scl : Word
  parts : Nat
  rank : Nat
  nxt : Nat
  prv : Nat
  gid : BitVec 32
  stamp : Word
  reservedClear : Bool
  deriving DecidableEq, Repr

def collDescOf (w : Vector Word 8) : CollDesc :=
  { op := w[0].extractLsb' 0 2, sf := w[0].extractLsb' 4 4, df := w[0].extractLsb' 8 4, ef := w[0].extractLsb' 12 4
    count := (w[0].extractLsb' 32 32).toNat, src := w[1], dst := w[2], scl := w[3]
    parts := (w[4].extractLsb' 0 12).toNat + 1, rank := (w[4].extractLsb' 12 12).toNat
    nxt := (w[4].extractLsb' 24 4).toNat, prv := (w[4].extractLsb' 28 4).toNat, gid := w[4].extractLsb' 32 32
    stamp := w[5]
    reservedClear := w[0].extractLsb' 16 16 == 0 && w[6] == 0 && w[7] == 0 }

/-- The formats that a mode and an op accept (R412). -/
def CollDesc.formatsOk (d : CollDesc) (exact_ : Bool) : Bool :=
  if 2 ≤ d.op.toNat then d.sf != 13 && d.sf != 15 && d.df == d.sf
  else if exact_ then
    (d.sf == 11 || d.sf == 10 || d.sf == 9 ||
      (d.sf == 13 && (d.ef == 0 || d.ef == 7 || d.ef == 8) && d.count % 32 == 0)) && (d.df == 11 || d.df == 10)
  else (d.sf == 11 || d.sf == 10 || d.sf == 12 || d.sf == 3) && d.df == d.sf

/-- The descriptor takes part (R412). -/
def CollDesc.ok (d : CollDesc) (exact_ : Bool) : Bool :=
  d.reservedClear && decide (d.rank < d.parts) && d.formatsOk exact_

/-! ## COLL and COLL.X (R411) -/

/-- The next sequence number of a context's collectives. -/
def State.collNext (ctx : Nat) (s : State) : Nat := ((s.collSeq.find? fun p => p.1 == ctx).map Prod.snd).getD 1

/-- What the two instructions share. -/
def collective (exact_ : Bool) (d a : BitVec 5) : M Unit := do
  require (tokenOk d)
  gate 3 exact_
  let s ← get
  let ctx := s.myGang.ctx
  if 16 ≤ (s.collectives.filter fun c => c.ctx == ctx).length then waitFor .engine
  let va := (← hart).rx a
  let data ← loadVa .load va 64 Hints.none
  let w : Vector Word 8 := Vector.ofFn fun i : Fin 8 => BitVec.ofNat 64 (natOfBytes ((data.drop (8 * i.val)).take 8))
  let s ← get
  let n := s.collNext ctx
  set { s with collSeq := (ctx, n + 1) :: s.collSeq.filter fun p => p.1 != ctx }
  if (collDescOf w).ok exact_ then
    modify fun s =>
      let h := s.hart
      let s := s.releaseAll s.me h.cluster
      let c : Collective := ⟨n, ctx, h.name, d, exact_, w, h.xlat, h.priv⟩
      { s with collectives := s.collectives ++ [c] }
    onHart fun h => { h with pending := d :: h.pending }
  else onHart (Hart.wx d (tokenValue (BitVec.ofNat 48 n) 3))
  retire

/-- COLL (R411). -/
def execColl (d a : BitVec 5) (s : State) : Out := run (collective false d a) s

/-- COLL.X (R411). -/
def execCollX (d a : BitVec 5) (s : State) : Out := run (collective true d a) s

/-! ## The elements of a collective -/

/-- The agent that the collective engine is for a collective: the owner's translation at COLL (R410); no local
region. -/
def Collective.agent (c : Collective) (s : State) : Agent :=
  { packageAgent .collective c.xlat with
      priv := c.priv, core := ((s.findHart c.owner).map Hart.core).getD 0 }

/-- Bits of an element in memory (R48, R57). -/
def CollDesc.bits (d : CollDesc) : Nat :=
  match fmtOf (if d.sf = 13 then d.ef else d.sf) with
  | some .lns6 => 6
  | some f => f.width
  | none => 8

/-- Bytes of a number of elements: LNS6 codes come in groups of four. -/
def CollDesc.bytes (d : CollDesc) (n : Nat) : Nat := if d.bits = 6 then (n + 3) / 4 * 3 else (n * d.bits + 7) / 8

/-- n bits from a bit of a list of bytes. -/
def bitsAt (d : List Byte) (at_ n : Nat) : Word :=
  lowBits n (BitVec.ofNat 64 (natOfBytes ((d.drop (at_ / 8)).take 9) / 2 ^ (at_ % 8)))

/-- One participant's contribution: raw elements, scale bytes, and the bytes of its elements and of its scales that lie in
poisoned granules. -/
structure Contribution where
  elems : List Word
  scales : List Byte
  bad : List Nat
  badScales : List Nat
  deriving DecidableEq, Repr

/-- Element i takes a byte from a poisoned granule: its own, or its block's scale (R411). -/
def CollDesc.badElem (d : CollDesc) (c : Contribution) (i : Nat) : Bool :=
  c.bad.any (fun b => decide (i * d.bits / 8 ≤ b ∧ b ≤ (i * d.bits + d.bits - 1) / 8)) || c.badScales.contains (i / 32)

/-- An address is a multiple of an element's bytes; elements narrower than a byte may lie anywhere (R243). -/
def elementAligned (va : Word) (bits : Nat) : Bool := decide (va.toNat % max 1 (bits / 8) = 0)

/-- The source and the destination of a collective are aligned to their elements (R243, R410). -/
def CollDesc.alignedFor (d : CollDesc) (dst : Nat) : Bool := elementAligned d.src d.bits && elementAligned d.dst dst

/-- The device's own contribution, none where an address faults (R410). -/
def CollDesc.gather (d : CollDesc) (ag : Agent) (s : State) : Option Contribution × State :=
  match s.gatherBytes ag (cut 128 d.src.toNat (d.bytes d.count)) with
  | (.error _, s) => (none, s)
  | (.ok data, s) =>
    let bytes := data.map Prod.fst
    let elems := (List.range d.count).map fun i => bitsAt bytes (i * d.bits) d.bits
    if d.sf ≠ 13 then (some ⟨elems, [], badBytes data, []⟩, s)
    else
      match s.gatherBytes ag (cut 128 d.scl.toNat (d.count / 32)) with
      | (.error _, s) => (none, s)
      | (.ok scl, s) => (some ⟨elems, scl.map Prod.fst, badBytes data, badBytes scl⟩, s)

/-- The value of element i of a contribution (R58, R414). -/
def CollDesc.value (d : CollDesc) (c : Contribution) (i : Nat) : Val :=
  let w := c.elems.getD i 0
  match fmtOf (if d.sf = 13 then d.ef else d.sf) with
  | none => .nan
  | some f => if d.sf = 13 then (f.blockValue (c.scales.getD (i / 32) 0) w).1 else (f.value w).1

/-- Round to nearest, ties to even, without saturation (R414, R415). -/
def collRound : Rnd := ⟨0, false, none⟩

/-- The exact sum of element i (R414). -/
def CollDesc.exactSum (d : CollDesc) (df : Fmt) (l : List Contribution) (i : Nat) : Word × FlagSet :=
  let vs := l.map fun c => d.value c i
  if vs.any Val.isNan then df.deliver collRound .nan
  else df.deliverWith collRound (Val.sum 0 vs)

/-- One combination of the ring (R415). -/
def combine (df : Fmt) (x y : Word) : Word × FlagSet :=
  if df.isInt then df.arith false (sumAt 0 [(df.value x).1, (df.value y).1])
  else df.deliverWith collRound (Val.sum 0 [(df.value x).1, (df.value y).1])

/-- The sum of element i around the ring (R413, R415); that of one participant is its element, of which a NaN is the
canonical one (R51). -/
def CollDesc.ringSum (d : CollDesc) (df : Fmt) (l : List Contribution) (i : Nat) : Word × FlagSet :=
  let j := i / ((d.count + d.parts - 1) / d.parts)
  let x (k : Nat) : Word := (((l[(j + k) % d.parts]?).map fun c => c.elems.getD i 0).getD 0)
  (List.range' 2 (d.parts - 1)).foldl (fun (r : Word × FlagSet) k =>
    let (w, f) := combine df r.1 (x k)
    (w, r.2 ||| f)) (if df.isInt then x 1 else df.canonical (x 1), 0)

/-- The elements that this device writes, by position in its destination: each names a rank, where bits are copied,
and an element (R412, R413). -/
def CollDesc.written (d : CollDesc) : List (Nat × Nat) :=
  let c := (d.count + d.parts - 1) / d.parts
  match d.op.toNat with
  | 0 => (List.range d.count).map fun i => (0, i)
  | 1 => (List.range' (d.rank * c) (min c (d.count - d.rank * c))).map fun i => (0, i)
  | 2 => (List.range d.parts).flatMap fun p => (List.range d.count).map fun i => (p, i)
  | _ => (List.range d.count).map fun i => (0, i)

/-- One written element with its flags. -/
def CollDesc.result (d : CollDesc) (exact_ : Bool) (df : Fmt) (l : List Contribution) (x : Nat × Nat) : Word × FlagSet :=
  if 2 ≤ d.op.toNat then ((((l[x.1]?).map fun c => c.elems.getD x.2 0).getD 0), 0)
  else if exact_ then d.exactSum df l x.2 else d.ringSum df l x.2

/-- The bytes of the destination that poison at some input spoils (R411), for the element x written in place k of the
destination, w bits wide: of a copy those that receive bits of a poisoned granule, of a sum all of the element's. -/
def CollDesc.spoils (d : CollDesc) (l : List Contribution) (w : Nat) (x : (Nat × Nat) × Nat) : List Nat :=
  let k := x.2 * w
  if 2 ≤ d.op.toNat then
    match l[x.1.1]? with
    | some c => ((List.range w).filter fun t => c.bad.contains ((x.1.2 * w + t) / 8)).map fun t => (k + t) / 8
    | none => []
  else if l.any fun c => d.badElem c x.1.2 then List.range' (k / 8) ((k + w - 1) / 8 - k / 8 + 1)
  else []

/-- Elements of a width as a list of bytes. -/
def packElems (bits : Nat) (l : List Word) : List Byte :=
  let n := l.length
  let x : Nat := l.zipIdx.foldl (fun a p => a + p.1.toNat % 2 ^ bits * 2 ^ (bits * p.2)) 0
  bytesOf (if bits = 6 then (n + 3) / 4 * 3 else (n * bits + 7) / 8) x

/-- Bytes written to a range in pieces of 64-byte blocks, with the positions of poisoned bytes; false at the first
fault. -/
def State.scatter (ag : Agent) (dst : Word) (data : List Byte) (bad : List Nat) :
    List (Nat × Nat) → State → Bool × State
  | [], s => (true, s)
  | (a, n) :: t, s =>
    let off := a - dst.toNat
    let va := BitVec.ofNat 64 a
    let mine := (bad.filter fun b => decide (off ≤ b ∧ b < off + n)).map fun b => b - off
    match (s.flushVa ag false va).engineWrite ag va ((data.drop off).take n) mine with
    | (.error _, s) => (false, s)
    | (.ok _, s) => State.scatter ag dst data bad t (s.flushVa ag true va)

/-! ## The end of a collective (R411, R416) -/

/-- The token of a collective: sequence number, status, and the flags NX, OF and NV (R411). -/
def collToken (seq : Nat) (status : Nat) (f : FlagSet) : Word :=
  tokenValue (BitVec.ofNat 48 seq) status ||| (BitVec.ofBool (f.getLsbD 0)).setWidth 64 <<< 56 |||
    (BitVec.ofBool (f.getLsbD 2)).setWidth 64 <<< 57 ||| (BitVec.ofBool (f.getLsbD 4)).setWidth 64 <<< 58

/-- A collective ends: its token is written, or kept for a gang that a save has taken (R416); harts that wait for room
in their context try again. -/
def State.endCollective (c : Collective) (status : Nat) (f : FlagSet) (s : State) : State :=
  let w := collToken c.seq status f
  let s := { s with collectives := s.collectives.erase c }
  let s :=
    if (s.findHart c.owner).isSome then s.modHart c.owner (Hart.writeToken c.token w)
    else if s.saved.any fun v => v.gang.key == c.owner.gang then { s with late := s.late ++ [⟨c.owner, c.token, w⟩] }
    else s
  s.mapHarts fun h => if h.wait = some .engine then { h with wait := none } else h

/-- The stamp of a collective (R411): none is asked for, or it is written; a misaligned one faults (R243). -/
def State.collStamp (ag : Agent) (va : Word) (seq : Nat) (s : State) : Bool × State :=
  if va = 0 then (true, s)
  else if va.toNat % 8 ≠ 0 then (false, s)
  else
    let (ok, s) := s.scatter ag va (bytesOf 8 seq) [] (cut 64 va.toNat 8)
    (ok, s)

/-- The data frames of a collective: the device's own elements in segments of 4 KiB, with the poison marks of their
32-byte units (R406; log 32). -/
def State.sendSource (d : CollDesc) (own : Contribution) (s : State) : State :=
  if d.parts = 1 then s
  else
    let data := packElems d.bits own.elems
    (List.range ((data.length + 4095) / 4096)).foldl (fun s k =>
      let part := (data.drop (4096 * k)).take 4096
      let marks := (List.range ((part.length + 31) / 32)).map fun u =>
        own.bad.any fun b => decide (4096 * k + 32 * u ≤ b ∧ b < 4096 * k + 32 * u + 32)
      s.sendFrame d.nxt ⟨d.gid, d.op, 0, 4096 * k, part, marks⟩) s

/-- The contributions of all ranks, the own one in its place. -/
def contributions (d : CollDesc) (own : Contribution) (peers : PeerInputs) : List Contribution :=
  (List.range d.parts).map fun p =>
    if p = d.rank then own
    else
      ⟨peers.elements.getD p [], peers.scales.getD p [], peers.poisoned.getD p [], peers.poisonedScales.getD p []⟩

/-- A collective performs, with what its peers contribute. -/
def State.performCollective (c : Collective) (peers : PeerInputs) (s : State) : State :=
  let d := collDescOf c.desc
  let ag := c.agent s
  match if d.alignedFor (if 2 ≤ d.op.toNat then d.bits else (fmtOf d.df).elim 8 Fmt.width) then d.gather ag s else (none, s),
    fmtOf d.df with
  | (none, s), _ => s.endCollective c 1 0
  | (_, s), none => s.endCollective c 3 0
  | (some own, s), some df =>
    let s := s.sendSource d own
    let l := contributions d own peers
    let xs := d.written
    let rs := xs.map (d.result c.exact df l)
    let bits := if 2 ≤ d.op.toNat then d.bits else df.width
    let data := packElems bits (rs.map Prod.fst)
    let bad := (xs.zipIdx.flatMap (d.spoils l bits)).eraseDups
    let flags := rs.foldl (fun f r => f ||| r.2) 0
    match s.scatter ag d.dst data bad (cut 64 d.dst.toNat data.length) with
    | (false, s) => s.endCollective c 1 0
    | (true, s) =>
      match s.collStamp ag d.stamp c.seq with
      | (false, s) => s.endCollective c 1 0
      | (true, s) => s.endCollective c (if bad = [] then 0 else 2) flags

/-- COLLECTIVE_COMPLETE (R411 to R416): the collective of a place in the list of those in flight ends: with status 5
where a port of it is lost, with status 4 where a peer's descriptor disagrees. A frozen engine, and one that a
checkpoint holds, keeps it. -/
def execCollectiveComplete (coll : Nat) (peers : PeerInputs) (s : State) : Out :=
  match s.collectives[coll]? with
  | none => .next s
  | some c =>
    let d := collDescOf c.desc
    if s.packageFrozen then .next s
    else if decide (d.parts ≠ 1) && ((s.port d.nxt).lost || (s.port d.prv).lost) then .next (s.endCollective c 5 0)
    else if !peers.agrees then .next (s.endCollective c 4 0)
    else .next (s.performCollective c peers)

/-- PORT_LOST (R409): after 10 ms without an allowance frame, and not by a freeze; every collective that uses the port
ends with status 5. -/
def execPortLost (port : Nat) (s : State) : Out :=
  let p := s.port port
  if p.lost ∨ s.packageFrozen = true ∨ (s.time - p.lastAllowance).toNat < 10000000 then .next s
  else
    let s := s.modPort port fun p => { p with lost := true }
    let users := s.collectives.filter fun c =>
      let d := collDescOf c.desc
      decide (d.parts ≠ 1) && (d.nxt == port || d.prv == port)
    .next ((users.foldl (fun s c => s.endCollective c 5 0) s).send (.msix 0 5))

end Sys2Proof.Machine
end

