-- ==== Sys2Proof/Machine/VectorInt.lean ====
section
/-! DEFINITION. SETVL (R125 to R129) and the integer vector instructions of majors 0x21 to 0x23 (R131 to R135). -/

namespace Sys2Proof.Machine

/-! ## SETVL -/

/-- The effect of SETVL (R127): matrix mode is checked first, then the pre-emption point where live is 0. The ring
entry holds vl and the type at issue (R359). -/
def setvl (d : BitVec 5) (req : Hart → Nat) (g : BitVec 2) (l : BitVec 1) (e : BitVec 3) (s : State) : Out := run (do
  vectorModeOnly
  if l = 0 then preemptPoint
  match ewOf e with
  | none => illegal
  | some ew =>
    modify (State.pushRing 0 0 0)
    onHart fun h =>
      let k := (if l = 0 then h.loseRegisters else h).setType (req h) (some ⟨ew, g⟩)
      (k.wx d (k.vl.setWidth 64)).retire) s

/-- SETVL (R127). -/
def execSetvl (d a : BitVec 5) (g : BitVec 2) (l : BitVec 1) (e : BitVec 3) (s : State) : Out :=
  setvl d (fun h => (h.rx a).toNat) g l e s

/-- SETVLMAX (R127). -/
def execSetvlmax (d : BitVec 5) (g : BitVec 2) (l : BitVec 1) (e : BitVec 3) (s : State) : Out :=
  setvl d (fun _ => 2 ^ 64 - 1) g l e s

/-- SETVLI (R127). -/
def execSetvli (d : BitVec 5) (n : BitVec 8) (g : BitVec 2) (l : BitVec 1) (e : BitVec 3) (s : State) : Out :=
  setvl d (fun _ => n.toNat) g l e s

/-! ## Majors 0x21 and 0x22 -/

/-- An operation of elements of n bits. -/
abbrev ElemOp := Nat → Word → Word → Word

/-- The second operand of a two-source instruction: element i of a group, or the low bits of a scalar register. -/
inductive Second where
  | vec (reg : BitVec 5)
  | scalar (reg : BitVec 5)
  deriving DecidableEq, Repr

/-- The value of a second operand. -/
def Second.read (c : Second) (h : Hart) (n i : Nat) : Word :=
  match c with
  | .vec r => h.elem n r.toNat i
  | .scalar r => lowBits n (h.rx r)

/-- The limit of a second operand. -/
def Second.ok (c : Second) (t : TypeState) : Bool :=
  match c with
  | .vec r => groupOk r t.g
  | .scalar _ => true

/-- A same-width instruction of elements b and c to a register group (R131). -/
def intOp (op : ElemOp) (ew0 : Bool) (d a : BitVec 5) (c : Second) (m : BitVec 3) (s : State) : Out := run (do
  let t ← typeState
  require (groupOk d t.g && groupOk a t.g && c.ok t && (ew0 || t.notEw0))
  vectorModeOnly
  let n := t.ew.bits
  elementwise (n, t.g) (.vec n d.toNat) (underMask m) fun i => do
    let h ← hart
    return some (op n (h.elem n a.toNat i) (c.read h n i))) s

/-- A comparison of elements b and c to a mask register (R131). -/
def intCompare (op : Nat → Word → Word → Bool) (d a : BitVec 5) (c : Second) (m : BitVec 3) (s : State) : Out := run (do
  let t ← typeState
  require (maskDstOk d && groupOk a t.g && c.ok t && t.notEw0)
  vectorModeOnly
  let n := t.ew.bits
  elementwise (n, t.g) (.mask d.toNat) (underMask m) fun i => do
    let h ← hart
    return some (bitWord (op n (h.elem n a.toNat i) (c.read h n i)))) s

/-- VMERGE (R132): m(f) selects, m(mid) masks. -/
def vmerge (d a : BitVec 5) (c : Second) (m : BitVec 3) (s : State) : Out := run (do
  let t ← typeState
  require (groupOk d t.g && groupOk a t.g && c.ok t)
  vectorModeOnly
  let n := t.ew.bits
  elementwise (n, t.g) (.vec n d.toNat) underMid fun i => do
    let h ← hart
    return some (if h.mbit m.toNat i then h.elem n a.toNat i else c.read h n i)) s

/-- Sum, difference and reverse difference modulo 2^n. -/
def elemAdd : ElemOp := fun n b c => lowBits n (b + c)
def elemSub : ElemOp := fun n b c => lowBits n (b - c)
def elemRsub : ElemOp := fun n b c => lowBits n (c - b)
def elemAnd : ElemOp := fun _ b c => b &&& c
def elemOr : ElemOp := fun _ b c => b ||| c
def elemXor : ElemOp := fun _ b c => b ^^^ c

/-- Shifts by the low log2(n) bits of c. -/
def elemSll : ElemOp := fun n b c => lowBits n (b <<< (c.toNat % n))
def elemSrl : ElemOp := fun n b c => b >>> (c.toNat % n)
def elemSra : ElemOp := fun n b c => wrapTo n (signed n b / (2 ^ (c.toNat % n) : Nat))

/-- Minima and maxima. -/
def elemMin : ElemOp := fun n b c => if signed n b < signed n c then b else c
def elemMax : ElemOp := fun n b c => if signed n b < signed n c then c else b
def elemMinu : ElemOp := fun _ b c => if b.toNat < c.toNat then b else c
def elemMaxu : ElemOp := fun _ b c => if b.toNat < c.toNat then c else b

/-- Comparisons. -/
def elemEq (_ : Nat) (b c : Word) : Bool := b == c
def elemNe (_ : Nat) (b c : Word) : Bool := b != c
def elemLt (n : Nat) (b c : Word) : Bool := decide (signed n b < signed n c)
def elemLtu (_ : Nat) (b c : Word) : Bool := decide (b.toNat < c.toNat)
def elemLe (n : Nat) (b c : Word) : Bool := decide (signed n b ≤ signed n c)
def elemLeu (_ : Nat) (b c : Word) : Bool := decide (b.toNat ≤ c.toNat)
def elemGt (n : Nat) (b c : Word) : Bool := decide (signed n c < signed n b)
def elemGtu (_ : Nat) (b c : Word) : Bool := decide (c.toNat < b.toNat)

/-- VADD (R131). -/
def execVadd (d a b : BitVec 5) (m : BitVec 3) (s : State) : Out := intOp elemAdd false d a (.vec b) m s

/-- VSUB (R131). -/
def execVsub (d a b : BitVec 5) (m : BitVec 3) (s : State) : Out := intOp elemSub false d a (.vec b) m s

/-- VAND (R131). -/
def execVand (d a b : BitVec 5) (m : BitVec 3) (s : State) : Out := intOp elemAnd false d a (.vec b) m s

/-- VOR (R131). -/
def execVor (d a b : BitVec 5) (m : BitVec 3) (s : State) : Out := intOp elemOr false d a (.vec b) m s

/-- VXOR (R131). -/
def execVxor (d a b : BitVec 5) (m : BitVec 3) (s : State) : Out := intOp elemXor false d a (.vec b) m s

/-- VSLL (R131). -/
def execVsll (d a b : BitVec 5) (m : BitVec 3) (s : State) : Out := intOp elemSll false d a (.vec b) m s

/-- VSRL (R131). -/
def execVsrl (d a b : BitVec 5) (m : BitVec 3) (s : State) : Out := intOp elemSrl false d a (.vec b) m s

/-- VSRA (R131). -/
def execVsra (d a b : BitVec 5) (m : BitVec 3) (s : State) : Out := intOp elemSra false d a (.vec b) m s

/-- VMIN (R131). -/
def execVmin (d a b : BitVec 5) (m : BitVec 3) (s : State) : Out := intOp elemMin false d a (.vec b) m s

/-- VMAX (R131). -/
def execVmax (d a b : BitVec 5) (m : BitVec 3) (s : State) : Out := intOp elemMax false d a (.vec b) m s

/-- VMINU (R131). -/
def execVminu (d a b : BitVec 5) (m : BitVec 3) (s : State) : Out := intOp elemMinu false d a (.vec b) m s

/-- VMAXU (R131). -/
def execVmaxu (d a b : BitVec 5) (m : BitVec 3) (s : State) : Out := intOp elemMaxu false d a (.vec b) m s

/-- VMSEQ (R131). -/
def execVmseq (d a b : BitVec 5) (m : BitVec 3) (s : State) : Out := intCompare elemEq d a (.vec b) m s

/-- VMSNE (R131). -/
def execVmsne (d a b : BitVec 5) (m : BitVec 3) (s : State) : Out := intCompare elemNe d a (.vec b) m s

/-- VMSLT (R131). -/
def execVmslt (d a b : BitVec 5) (m : BitVec 3) (s : State) : Out := intCompare elemLt d a (.vec b) m s

/-- VMSLTU (R131). -/
def execVmsltu (d a b : BitVec 5) (m : BitVec 3) (s : State) : Out := intCompare elemLtu d a (.vec b) m s

/-- VMSLE (R131). -/
def execVmsle (d a b : BitVec 5) (m : BitVec 3) (s : State) : Out := intCompare elemLe d a (.vec b) m s

/-- VMSLEU (R131). -/
def execVmsleu (d a b : BitVec 5) (m : BitVec 3) (s : State) : Out := intCompare elemLeu d a (.vec b) m s

/-- VADD.X (R131). -/
def execVaddX (d a b : BitVec 5) (m : BitVec 3) (s : State) : Out := intOp elemAdd false d a (.scalar b) m s

/-- VSUB.X (R131). -/
def execVsubX (d a b : BitVec 5) (m : BitVec 3) (s : State) : Out := intOp elemSub false d a (.scalar b) m s

/-- VAND.X (R131). -/
def execVandX (d a b : BitVec 5) (m : BitVec 3) (s : State) : Out := intOp elemAnd false d a (.scalar b) m s

/-- VOR.X (R131). -/
def execVorX (d a b : BitVec 5) (m : BitVec 3) (s : State) : Out := intOp elemOr false d a (.scalar b) m s

/-- VXOR.X (R131). -/
def execVxorX (d a b : BitVec 5) (m : BitVec 3) (s : State) : Out := intOp elemXor false d a (.scalar b) m s

/-- VSLL.X (R131). -/
def execVsllX (d a b : BitVec 5) (m : BitVec 3) (s : State) : Out := intOp elemSll false d a (.scalar b) m s

/-- VSRL.X (R131). -/
def execVsrlX (d a b : BitVec 5) (m : BitVec 3) (s : State) : Out := intOp elemSrl false d a (.scalar b) m s

/-- VSRA.X (R131). -/
def execVsraX (d a b : BitVec 5) (m : BitVec 3) (s : State) : Out := intOp elemSra false d a (.scalar b) m s

/-- VMIN.X (R131). -/
def execVminX (d a b : BitVec 5) (m : BitVec 3) (s : State) : Out := intOp elemMin false d a (.scalar b) m s

/-- VMAX.X (R131). -/
def execVmaxX (d a b : BitVec 5) (m : BitVec 3) (s : State) : Out := intOp elemMax false d a (.scalar b) m s

/-- VMINU.X (R131). -/
def execVminuX (d a b : BitVec 5) (m : BitVec 3) (s : State) : Out := intOp elemMinu false d a (.scalar b) m s

/-- VMAXU.X (R131). -/
def execVmaxuX (d a b : BitVec 5) (m : BitVec 3) (s : State) : Out := intOp elemMaxu false d a (.scalar b) m s

/-- VRSUB.X (R131). -/
def execVrsubX (d a b : BitVec 5) (m : BitVec 3) (s : State) : Out := intOp elemRsub false d a (.scalar b) m s

/-- VMSEQ.X (R131). -/
def execVmseqX (d a b : BitVec 5) (m : BitVec 3) (s : State) : Out := intCompare elemEq d a (.scalar b) m s

/-- VMSNE.X (R131). -/
def execVmsneX (d a b : BitVec 5) (m : BitVec 3) (s : State) : Out := intCompare elemNe d a (.scalar b) m s

/-- VMSLT.X (R131). -/
def execVmsltX (d a b : BitVec 5) (m : BitVec 3) (s : State) : Out := intCompare elemLt d a (.scalar b) m s

/-- VMSLTU.X (R131). -/
def execVmsltuX (d a b : BitVec 5) (m : BitVec 3) (s : State) : Out := intCompare elemLtu d a (.scalar b) m s

/-- VMSLE.X (R131). -/
def execVmsleX (d a b : BitVec 5) (m : BitVec 3) (s : State) : Out := intCompare elemLe d a (.scalar b) m s

/-- VMSLEU.X (R131). -/
def execVmsleuX (d a b : BitVec 5) (m : BitVec 3) (s : State) : Out := intCompare elemLeu d a (.scalar b) m s

/-- VMSGT.X (R131). -/
def execVmsgtX (d a b : BitVec 5) (m : BitVec 3) (s : State) : Out := intCompare elemGt d a (.scalar b) m s

/-- VMSGTU.X (R131). -/
def execVmsgtuX (d a b : BitVec 5) (m : BitVec 3) (s : State) : Out := intCompare elemGtu d a (.scalar b) m s

/-- VMERGE (R132). -/
def execVmerge (d a b : BitVec 5) (m : BitVec 3) (s : State) : Out := vmerge d a (.vec b) m s

/-- VMERGE.X (R132). -/
def execVmergeX (d a b : BitVec 5) (m : BitVec 3) (s : State) : Out := vmerge d a (.scalar b) m s

/-- VMV.V.V (R131). -/
def execVmvVV (d a : BitVec 5) (m : BitVec 3) (s : State) : Out :=
  intOp (fun _ b _ => b) true d a (.scalar 0) m s

/-- VMV.V.X (R131). -/
def execVmvVX (d b : BitVec 5) (m : BitVec 3) (s : State) : Out :=
  intOp (fun _ _ c => c) true d 0 (.scalar b) m s

/-- VMV.S.X (R132): the destination length is 1, every later element follows the tail rule. -/
def execVmvSX (d b : BitVec 5) (m : BitVec 3) (s : State) : Out := run (do
  let t ← typeState
  require (groupOk d t.g)
  vectorModeOnly
  let h ← hart
  let n := t.ew.bits
  if h.vl = 0 then retireVec 0
  else overGroups (n, t.g) (.vec n d.toNat) 1 (vlmax h.grant t) (fun h i => i == 0 && h.em m 0) fun _ => do
    return some (lowBits n ((← hart).rx b))) s

/-! ## Major 0x23 -/

/-- What element i of a major-0x23 instruction is: from its own old value, b and c. -/
abbrev MulOp := Nat → Word → Word → Word → Word × FlagSet

/-- A same-width instruction of major 0x23 (R133). -/
def mulOp (lns : Bool) (op : MulOp) (d a b : BitVec 5) (m : BitVec 3) : M Unit := do
  let t ← typeState
  require (groupOk d t.g && groupOk a t.g && groupOk b t.g && t.notEw0)
  vectorGate lns
  let n := t.ew.bits
  elementwise (n, t.g) (.vec n d.toNat) (underMask m) fun i => do
    let h ← hart
    return some (← raising (op n (h.elem n d.toNat i) (h.elem n a.toNat i) (h.elem n b.toNat i)))

/-- A widening instruction of major 0x23: the destination is twice as wide (R118, R133). -/
def wideOp (lns : Bool) (op : MulOp) (d a b : BitVec 5) (m : BitVec 3) : M Unit := do
  let t ← typeState
  let n := t.ew.bits
  let od := t.operand d (2 * n)
  let oa := t.operand a n
  let ob := t.operand b n
  require (decide (n ≤ 32) && t.notEw0 && od.ok && oa.ok && ob.ok && od.clear oa && od.clear ob)
  vectorGate lns
  elementwise (2 * n, od.count) od.dest (underMask m) fun i => do
    let h ← hart
    return some (← raising (op n (h.elem (2 * n) d.toNat i) (h.elem n a.toNat i) (h.elem n b.toNat i)))

/-- A narrowing instruction of major 0x23: b is twice as wide (R118, R133). -/
def narrowOp (lns : Bool) (op : MulOp) (d a b : BitVec 5) (m : BitVec 3) : M Unit := do
  let t ← typeState
  let n := t.ew.bits
  let od := t.operand d n
  let oa := t.operand a (2 * n)
  let ob := t.operand b n
  require (decide (n ≤ 32) && t.notEw0 && od.ok && oa.ok && ob.ok && od.clear oa)
  vectorGate lns
  elementwise (2 * n, oa.count) od.dest (underMask m) fun i => do
    let h ← hart
    return some (← raising (op n 0 (h.elem (2 * n) a.toNat i) (h.elem n b.toNat i)))

/-- An operation that raises nothing. -/
def quiet (op : Nat → Word → Word → Word → Word) : MulOp := fun n v b c => (op n v b c, 0)

/-- Quotients and remainders with the borderline cases of R135. -/
def elemDiv (n : Nat) (b c : Word) : Word :=
  if c = 0 then lowBits n (BitVec.allOnes 64) else wrapTo n ((signed n b).tdiv (signed n c))
def elemDivu (n : Nat) (b c : Word) : Word :=
  if c = 0 then lowBits n (BitVec.allOnes 64) else wrapTo n (b.toNat / c.toNat : Nat)
def elemRem (n : Nat) (b c : Word) : Word :=
  if c = 0 then b else wrapTo n ((signed n b).tmod (signed n c))
def elemRemu (n : Nat) (b c : Word) : Word := if c = 0 then b else wrapTo n (b.toNat % c.toNat : Nat)

/-- A result outside its range is replaced by the nearest bound, with SAT (R134). -/
def clampTo (n : Nat) (lo hi x : Int) : Word × FlagSet :=
  let y := max lo (min x hi)
  (wrapTo n y, flagIf (x != y) flagSAT)

/-- Clamped to the signed or the unsigned range of n bits. -/
def clampS (n : Nat) (x : Int) : Word × FlagSet := clampTo n (-(2 ^ (n - 1) : Nat)) ((2 ^ (n - 1) : Nat) - 1) x
def clampU (n : Nat) (x : Int) : Word × FlagSet := clampTo n 0 ((2 ^ n : Nat) - 1) x

/-- RShift (R134): v / 2^k rounded to an integer under the round field. -/
def rshift (round : BitVec 2) (v : Int) (k : Nat) : Int :=
  let neg := decide (v < 0)
  let q := (roundAt ⟨round, false, none⟩ neg v.natAbs 0 k false).1
  if neg then -(q : Int) else q

/-- VMUL to VREMU, VMACC, VNMSAC, VWMUL to VNSRA, VSADD to VSSUBU take no format (R133). -/
def execVmul (d a b : BitVec 5) (m : BitVec 3) (s : State) : Out :=
  run (mulOp false (quiet fun n _ b c => lowBits n (b * c)) d a b m) s

/-- VMULH (R133). -/
def execVmulh (d a b : BitVec 5) (m : BitVec 3) (s : State) : Out :=
  run (mulOp false (quiet fun n _ b c => wrapTo n (signed n b * signed n c / (2 ^ n : Nat))) d a b m) s

/-- VMULHU (R133). -/
def execVmulhu (d a b : BitVec 5) (m : BitVec 3) (s : State) : Out :=
  run (mulOp false (quiet fun n _ b c => wrapTo n (b.toNat * c.toNat / 2 ^ n : Nat)) d a b m) s

/-- VMULHSU (R133). -/
def execVmulhsu (d a b : BitVec 5) (m : BitVec 3) (s : State) : Out :=
  run (mulOp false (quiet fun n _ b c => wrapTo n (signed n b * (c.toNat : Int) / (2 ^ n : Nat))) d a b m) s

/-- VDIV (R133, R135). -/
def execVdiv (d a b : BitVec 5) (m : BitVec 3) (s : State) : Out :=
  run (mulOp false (quiet fun n _ b c => elemDiv n b c) d a b m) s

/-- VDIVU (R133, R135). -/
def execVdivu (d a b : BitVec 5) (m : BitVec 3) (s : State) : Out :=
  run (mulOp false (quiet fun n _ b c => elemDivu n b c) d a b m) s

/-- VREM (R133, R135). -/
def execVrem (d a b : BitVec 5) (m : BitVec 3) (s : State) : Out :=
  run (mulOp false (quiet fun n _ b c => elemRem n b c) d a b m) s

/-- VREMU (R133, R135). -/
def execVremu (d a b : BitVec 5) (m : BitVec 3) (s : State) : Out :=
  run (mulOp false (quiet fun n _ b c => elemRemu n b c) d a b m) s

/-- VMACC (R133). -/
def execVmacc (d a b : BitVec 5) (m : BitVec 3) (s : State) : Out :=
  run (mulOp false (quiet fun n v b c => lowBits n (v + b * c)) d a b m) s

/-- VNMSAC (R133). -/
def execVnmsac (d a b : BitVec 5) (m : BitVec 3) (s : State) : Out :=
  run (mulOp false (quiet fun n v b c => lowBits n (v - b * c)) d a b m) s

/-- VWMUL (R133). -/
def execVwmul (d a b : BitVec 5) (m : BitVec 3) (s : State) : Out :=
  run (wideOp false (quiet fun n _ b c => wrapTo (2 * n) (signed n b * signed n c)) d a b m) s

/-- VWMULU (R133). -/
def execVwmulu (d a b : BitVec 5) (m : BitVec 3) (s : State) : Out :=
  run (wideOp false (quiet fun n _ b c => wrapTo (2 * n) (b.toNat * c.toNat : Nat)) d a b m) s

/-- VWMACC (R133). -/
def execVwmacc (d a b : BitVec 5) (m : BitVec 3) (s : State) : Out :=
  run (wideOp false (quiet fun n v b c => wrapTo (2 * n) ((v.toNat : Int) + signed n b * signed n c)) d a b m) s

/-- VWMACCU (R133). -/
def execVwmaccu (d a b : BitVec 5) (m : BitVec 3) (s : State) : Out :=
  run (wideOp false (quiet fun n v b c => wrapTo (2 * n) (v.toNat + b.toNat * c.toNat : Nat)) d a b m) s

/-- VNSRL (R133). -/
def execVnsrl (d a b : BitVec 5) (m : BitVec 3) (s : State) : Out :=
  run (narrowOp false (quiet fun n _ b c => lowBits n (b >>> (c.toNat % (2 * n)))) d a b m) s

/-- VNSRA (R133). -/
def execVnsra (d a b : BitVec 5) (m : BitVec 3) (s : State) : Out :=
  run (narrowOp false (quiet fun n _ b c => wrapTo n (signed (2 * n) b / (2 ^ (c.toNat % (2 * n)) : Nat))) d a b m) s

/-- VSADD (R133, R134). -/
def execVsadd (d a b : BitVec 5) (m : BitVec 3) (s : State) : Out :=
  run (mulOp false (fun n _ b c => clampS n (signed n b + signed n c)) d a b m) s

/-- VSADDU (R133, R134). -/
def execVsaddu (d a b : BitVec 5) (m : BitVec 3) (s : State) : Out :=
  run (mulOp false (fun n _ b c => clampU n (b.toNat + c.toNat : Nat)) d a b m) s

/-- VSSUB (R133, R134). -/
def execVssub (d a b : BitVec 5) (m : BitVec 3) (s : State) : Out :=
  run (mulOp false (fun n _ b c => clampS n (signed n b - signed n c)) d a b m) s

/-- VSSUBU (R133, R134). -/
def execVssubu (d a b : BitVec 5) (m : BitVec 3) (s : State) : Out :=
  run (mulOp false (fun n _ b c => clampU n ((b.toNat : Int) - c.toNat)) d a b m) s

/-- A "round only" instruction (R62, R134): it uses the round field of its descriptor alone, and any of its fields
counts for the gate of R35. -/
def roundedOp (body : Bool → MulOp → M Unit) (op : BitVec 2 → MulOp) (f : BitVec 3) (s : State) : Out := run (do
  let q := (← hart).desc f
  require (q.common false false)
  body q.lns (op q.round)) s

/-- VSMUL (R133, R134). -/
def execVsmul (d a b : BitVec 5) (f m : BitVec 3) (s : State) : Out :=
  roundedOp (fun g op => mulOp g op d a b m)
    (fun round n _ b c => clampS n (rshift round (signed n b * signed n c) (n - 1))) f s

/-- VSSRL (R133, R134). -/
def execVssrl (d a b : BitVec 5) (f m : BitVec 3) (s : State) : Out :=
  roundedOp (fun g op => mulOp g op d a b m)
    (fun round => quiet fun n _ b c => wrapTo n (rshift round b.toNat (c.toNat % n))) f s

/-- VSSRA (R133, R134). -/
def execVssra (d a b : BitVec 5) (f m : BitVec 3) (s : State) : Out :=
  roundedOp (fun g op => mulOp g op d a b m)
    (fun round => quiet fun n _ b c => wrapTo n (rshift round (signed n b) (c.toNat % n))) f s

/-- VNCLIP (R133, R134). -/
def execVnclip (d a b : BitVec 5) (f m : BitVec 3) (s : State) : Out :=
  roundedOp (fun g op => narrowOp g op d a b m)
    (fun round n _ b c => clampS n (rshift round (signed (2 * n) b) (c.toNat % (2 * n)))) f s

/-- VNCLIPU (R133, R134). -/
def execVnclipu (d a b : BitVec 5) (f m : BitVec 3) (s : State) : Out :=
  roundedOp (fun g op => narrowOp g op d a b m)
    (fun round n _ b c => clampU n (rshift round b.toNat (c.toNat % (2 * n)))) f s

end Sys2Proof.Machine
end

