-- ==== Sys2Proof/Machine/VectorFloat.lean ====
section
/-! DEFINITION. Floating-point vector instructions of majors 0x24 to 0x27 and 0x2B (R136 to R145). -/

namespace Sys2Proof.Machine

/-! ## Descriptors -/

/-- The set F of R137: FP16, BF16, FP32 and FP64. -/
def wideFloat (c : BitVec 4) : Bool := decide (9 ≤ c.toNat ∧ c.toNat ≤ 12)

/-- The format of a code that the entry has accepted. -/
def fmtOr (c : BitVec 4) : Fmt := (fmtOf c).getD .fp64

/-- a, b and d are one format of F of width SEW (R137, R139). -/
def Desc.oneFloat (q : Desc) (n : Nat) : Bool :=
  q.a == q.b && q.b == q.d && wideFloat q.a && (fmtOr q.a).width == n

/-- a and b are one format of F of width SEW (R137). -/
def Desc.twoFloats (q : Desc) (n : Nat) : Bool := q.a == q.b && wideFloat q.a && (fmtOr q.a).width == n

/-- LNS6 in every field, SEW = 8 (R137). -/
def Desc.allLns (q : Desc) (n : Nat) : Bool := q.a == 6 && q.b == 6 && q.d == 6 && n == 8

/-! ## Majors 0x24 and 0x25 -/

/-- What an element of b and an element of c give. -/
abbrev FloatOp := Fmt → Rnd → Word → Word → Word × FlagSet

/-- An operation on exact values. -/
def onValues (op : Fmt → Rnd → Val → Val → Word × FlagSet) : FloatOp :=
  fun f r b c => op f r (f.value b).1 (f.value c).1

/-- A same-width floating-point instruction to a register group (R122, R136 to R138): `rounds` says that it rounds
into d, and so draws (R62, R66). -/
def floatOp (accept : Desc → Nat → Bool) (rounds : Bool) (op : FloatOp) (d a : BitVec 5) (c : Second) (f m : BitVec 3)
    (s : State) : Out := run (do
  let t ← typeState
  let q := (← hart).desc f
  let n := t.ew.bits
  require (q.common rounds false && accept q n && t.notEw0 && groupOk d t.g && groupOk a t.g && c.ok t)
  vectorGate q.lns
  elementwise (n, t.g) (.vec n d.toNat) (underMask m) fun i => do
    let h ← hart
    let dr ← drawIf (rounds && q.sr)
    return some (← raising (op (fmtOr q.a) (q.rnd dr) (h.elem n a.toNat i) (c.read h n i)))) s

/-- An arithmetic function of 0x24 and 0x25. -/
def floatArith (op : Fmt → Rnd → Val → Val → Word × FlagSet) (d a : BitVec 5) (c : Second) (f m : BitVec 3)
    (s : State) : Out := floatOp Desc.oneFloat true (onValues op) d a c f m s

/-- The product, LNS6 products among them (R137, R138). -/
def vectorMul : FloatOp := fun f r b c => if f = .lns6 then lnsProduct b c else onValues Fmt.mul f r b c

/-- A product instruction of 0x24 and 0x25. -/
def floatMul (d a : BitVec 5) (c : Second) (f m : BitVec 3) (s : State) : Out :=
  floatOp (fun q n => q.oneFloat n || q.allLns n) true vectorMul d a c f m s

/-- A sign injection (R136, R138): the magnitude of b with a sign of both. -/
def floatSignOp (sign : Bool → Bool → Bool) (d a : BitVec 5) (c : Second) (f m : BitVec 3) (s : State) : Out :=
  floatOp Desc.oneFloat false (fun f _ b c => (f.withSign b (sign (f.signBit b) (f.signBit c)), 0)) d a c f m s

/-- A comparison to a mask register (R136 to R138). -/
def floatMask (op : Compare) (d a : BitVec 5) (c : Second) (f m : BitVec 3) (s : State) : Out := run (do
  let t ← typeState
  let q := (← hart).desc f
  let n := t.ew.bits
  require (q.common false false && q.twoFloats n && t.notEw0 && maskDstOk d && groupOk a t.g && c.ok t)
  vectorGate q.lns
  elementwise (n, t.g) (.mask d.toNat) (underMask m) fun i => do
    let h ← hart
    let x ← raising (op.holds ((fmtOr q.a).value (h.elem n a.toNat i)).1 ((fmtOr q.b).value (c.read h n i)).1)
    return some (bitWord x)) s

/-- Signs of R136. -/
def signOfC (_ c : Bool) : Bool := c
def signNotC (_ c : Bool) : Bool := !c
def signXor (b c : Bool) : Bool := b ^^ c

/-- VFADD (R136, R138). -/
def execVfadd (d a b : BitVec 5) (f m : BitVec 3) (s : State) : Out := floatArith Fmt.add d a (.vec b) f m s

/-- VFSUB (R136, R138). -/
def execVfsub (d a b : BitVec 5) (f m : BitVec 3) (s : State) : Out := floatArith Fmt.sub d a (.vec b) f m s

/-- VFMUL (R136, R138). -/
def execVfmul (d a b : BitVec 5) (f m : BitVec 3) (s : State) : Out := floatMul d a (.vec b) f m s

/-- VFDIV (R136, R138). -/
def execVfdiv (d a b : BitVec 5) (f m : BitVec 3) (s : State) : Out := floatArith Fmt.divide d a (.vec b) f m s

/-- VFMIN (R136, R138). -/
def execVfmin (d a b : BitVec 5) (f m : BitVec 3) (s : State) : Out := floatArith Fmt.least d a (.vec b) f m s

/-- VFMAX (R136, R138). -/
def execVfmax (d a b : BitVec 5) (f m : BitVec 3) (s : State) : Out := floatArith Fmt.greatest d a (.vec b) f m s

/-- VFSGNJ (R136, R138). -/
def execVfsgnj (d a b : BitVec 5) (f m : BitVec 3) (s : State) : Out := floatSignOp signOfC d a (.vec b) f m s

/-- VFSGNJN (R136, R138). -/
def execVfsgnjn (d a b : BitVec 5) (f m : BitVec 3) (s : State) : Out := floatSignOp signNotC d a (.vec b) f m s

/-- VFSGNJX (R136, R138). -/
def execVfsgnjx (d a b : BitVec 5) (f m : BitVec 3) (s : State) : Out := floatSignOp signXor d a (.vec b) f m s

/-- VMFEQ (R136, R138). -/
def execVmfeq (d a b : BitVec 5) (f m : BitVec 3) (s : State) : Out := floatMask .eq d a (.vec b) f m s

/-- VMFLT (R136, R138). -/
def execVmflt (d a b : BitVec 5) (f m : BitVec 3) (s : State) : Out := floatMask .lt d a (.vec b) f m s

/-- VMFLE (R136, R138). -/
def execVmfle (d a b : BitVec 5) (f m : BitVec 3) (s : State) : Out := floatMask .le d a (.vec b) f m s

/-- VMFNE (R136, R138). -/
def execVmfne (d a b : BitVec 5) (f m : BitVec 3) (s : State) : Out := floatMask .ne d a (.vec b) f m s

/-- VFADD.F (R136, R138). -/
def execVfaddF (d a b : BitVec 5) (f m : BitVec 3) (s : State) : Out := floatArith Fmt.add d a (.scalar b) f m s

/-- VFSUB.F (R136, R138). -/
def execVfsubF (d a b : BitVec 5) (f m : BitVec 3) (s : State) : Out := floatArith Fmt.sub d a (.scalar b) f m s

/-- VFMUL.F (R136, R138). -/
def execVfmulF (d a b : BitVec 5) (f m : BitVec 3) (s : State) : Out := floatMul d a (.scalar b) f m s

/-- VFDIV.F (R136, R138). -/
def execVfdivF (d a b : BitVec 5) (f m : BitVec 3) (s : State) : Out := floatArith Fmt.divide d a (.scalar b) f m s

/-- VFMIN.F (R136, R138). -/
def execVfminF (d a b : BitVec 5) (f m : BitVec 3) (s : State) : Out := floatArith Fmt.least d a (.scalar b) f m s

/-- VFMAX.F (R136, R138). -/
def execVfmaxF (d a b : BitVec 5) (f m : BitVec 3) (s : State) : Out := floatArith Fmt.greatest d a (.scalar b) f m s

/-- VFSGNJ.F (R136, R138). -/
def execVfsgnjF (d a b : BitVec 5) (f m : BitVec 3) (s : State) : Out := floatSignOp signOfC d a (.scalar b) f m s

/-- VFSGNJN.F (R136, R138). -/
def execVfsgnjnF (d a b : BitVec 5) (f m : BitVec 3) (s : State) : Out := floatSignOp signNotC d a (.scalar b) f m s

/-- VFSGNJX.F (R136, R138). -/
def execVfsgnjxF (d a b : BitVec 5) (f m : BitVec 3) (s : State) : Out := floatSignOp signXor d a (.scalar b) f m s

/-- VMFEQ.F (R136, R138). -/
def execVmfeqF (d a b : BitVec 5) (f m : BitVec 3) (s : State) : Out := floatMask .eq d a (.scalar b) f m s

/-- VMFLT.F (R136, R138). -/
def execVmfltF (d a b : BitVec 5) (f m : BitVec 3) (s : State) : Out := floatMask .lt d a (.scalar b) f m s

/-- VMFLE.F (R136, R138). -/
def execVmfleF (d a b : BitVec 5) (f m : BitVec 3) (s : State) : Out := floatMask .le d a (.scalar b) f m s

/-- VMFNE.F (R136, R138). -/
def execVmfneF (d a b : BitVec 5) (f m : BitVec 3) (s : State) : Out := floatMask .ne d a (.scalar b) f m s

/-- VFRSUB.F (R136, R138). -/
def execVfrsubF (d a b : BitVec 5) (f m : BitVec 3) (s : State) : Out := floatArith (fun x r b c => x.sub r c b) d a (.scalar b) f m s

/-- VFRDIV.F (R136, R138). -/
def execVfrdivF (d a b : BitVec 5) (f m : BitVec 3) (s : State) : Out := floatArith (fun x r b c => x.divide r c b) d a (.scalar b) f m s

/-- VMFGT.F (R136, R138). -/
def execVmfgtF (d a b : BitVec 5) (f m : BitVec 3) (s : State) : Out := floatMask .gt d a (.scalar b) f m s

/-- VMFGE.F (R136, R138). -/
def execVmfgeF (d a b : BitVec 5) (f m : BitVec 3) (s : State) : Out := floatMask .ge d a (.scalar b) f m s

/-- VFSQRT (R136, R138). -/
def execVfsqrt (d a : BitVec 5) (f m : BitVec 3) (s : State) : Out :=
  floatOp Desc.oneFloat true
    (fun f r b _ => f.sqrt r (f.value b).1) d a (.scalar 0) f m s

/-- VFCLASS (R136, R137). -/
def execVfclass (d a : BitVec 5) (f m : BitVec 3) (s : State) : Out :=
  floatOp (fun q n => wideFloat q.a && (fmtOr q.a).width == n) false (fun f _ b _ => (f.classMask b, 0))
    d a (.scalar 0) f m s

/-! ## Major 0x26 -/

/-- A same-width fused multiply-add of vA, b and c (R139). -/
def fusedOp (op : Fmt → Rnd → Val → Val → Val → Word × FlagSet) (d a b : BitVec 5) (f m : BitVec 3) (s : State) :
    Out := run (do
  let t ← typeState
  let q := (← hart).desc f
  let n := t.ew.bits
  require (q.common true false && q.oneFloat n && t.notEw0 && groupOk d t.g && groupOk a t.g && groupOk b t.g)
  vectorGate q.lns
  let x := fmtOr q.a
  elementwise (n, t.g) (.vec n d.toNat) (underMask m) fun i => do
    let h ← hart
    let dr ← drawIf q.sr
    return some (← raising (op x (q.rnd dr) (x.value (h.elem n d.toNat i)).1 (x.value (h.elem n a.toNat i)).1
      (x.value (h.elem n b.toNat i)).1))) s

/-- VFMACC (R139): b × c + vA[i]. -/
def execVfmacc (d a b : BitVec 5) (f m : BitVec 3) (s : State) : Out :=
  fusedOp (fun x r v b c => x.fused r false b c v) d a b f m s

/-- VFNMSAC (R139): vA[i] − b × c. -/
def execVfnmsac (d a b : BitVec 5) (f m : BitVec 3) (s : State) : Out :=
  fusedOp (fun x r v b c => x.fused r true b c v) d a b f m s

/-- VFMADD (R139): vA[i] × b + c. -/
def execVfmadd (d a b : BitVec 5) (f m : BitVec 3) (s : State) : Out :=
  fusedOp (fun x r v b c => x.fused r false v b c) d a b f m s

/-- VFMSUB (R139): vA[i] × b − c. -/
def execVfmsub (d a b : BitVec 5) (f m : BitVec 3) (s : State) : Out :=
  fusedOp (fun x r v b c => x.fused r false v b c.neg) d a b f m s

/-- The widening pairs of R139 and R147. -/
def widens (src dst : BitVec 4) : Bool := (src == 9 && dst == 11) || (src == 10 && dst == 11) || (src == 11 && dst == 12)

/-- A widening fused multiply-add (R139). -/
def wideFused (minus : Bool) (d a b : BitVec 5) (f m : BitVec 3) (s : State) : Out := run (do
  let t ← typeState
  let q := (← hart).desc f
  let n := t.ew.bits
  let x := fmtOr q.a
  let y := fmtOr q.d
  let od := t.operand d (2 * n)
  let oa := t.operand a n
  let ob := t.operand b n
  require (q.common true false && q.a == q.b && widens q.a q.d && x.width == n && od.ok && oa.ok && ob.ok &&
    od.clear oa && od.clear ob)
  vectorGate q.lns
  elementwise (2 * n, od.count) od.dest (underMask m) fun i => do
    let h ← hart
    let dr ← drawIf q.sr
    return some (← raising (y.fused (q.rnd dr) minus (x.value (h.elem n a.toNat i)).1 (x.value (h.elem n b.toNat i)).1
      (y.value (h.elem (2 * n) d.toNat i)).1))) s

/-- VFWMACC (R139). -/
def execVfwmacc (d a b : BitVec 5) (f m : BitVec 3) (s : State) : Out := wideFused false d a b f m s

/-- VFWNMSAC (R139). -/
def execVfwnmsac (d a b : BitVec 5) (f m : BitVec 3) (s : State) : Out := wideFused true d a b f m s

/-! ## Major 0x27 -/

/-- A conversion of each element from fm.a to fm.d (R140): the narrower width is SEW (R118). -/
def convert (accept : Fmt → Fmt → Bool) (op : Fmt → Fmt → Bool → Rnd → Word → Word × FlagSet) (d a : BitVec 5)
    (f m : BitVec 3) (s : State) : Out := run (do
  let t ← typeState
  let q := (← hart).desc f
  let x := fmtOr q.a
  let y := fmtOr q.d
  let od := t.operand d y.width
  let oa := t.operand a x.width
  require (q.common true false && accept x y && min x.width y.width == t.ew.bits && od.ok && oa.ok && od.clear oa)
  vectorGate q.lns
  elementwise (max x.width y.width, max od.count oa.count) od.dest (underMask m) fun i => do
    let h ← hart
    let dr ← drawIf q.sr
    return some (← raising (op x y q.sat (q.rnd dr) (h.elem x.width a.toNat i)))) s

/-- Reading and delivering an element. -/
def Fmt.convertTo (x y : Fmt) (r : Rnd) (w : Word) : Word × FlagSet :=
  let (v, fl) := x.value w
  let (z, gl) := y.deliver r v
  (z, fl ||| gl)

/-- The integer of a value. -/
def Val.toInt (v : Val) : Int :=
  match v with
  | .num s m e => shifted s m e 0
  | _ => 0

/-- VFCVT.F.F (R140). -/
def execVfcvtFF (d a : BitVec 5) (f m : BitVec 3) (s : State) : Out :=
  convert (fun x y => (x.isFloat || x == .lns6) && (y.isFloat || y == .lns6)) (fun x y _ r w => x.convertTo y r w)
    d a f m s

/-- VFCVT.I.F (R140). -/
def execVfcvtIF (d a : BitVec 5) (f m : BitVec 3) (s : State) : Out :=
  convert (fun x y => x.isFloat && y.isInt) (fun x y _ r w => x.convertTo y r w) d a f m s

/-- VFCVT.F.I (R140). -/
def execVfcvtFI (d a : BitVec 5) (f m : BitVec 3) (s : State) : Out :=
  convert (fun x y => x.isInt && y.isFloat) (fun x y _ r w => x.convertTo y r w) d a f m s

/-- VICVT (R140): the arithmetic row of R64. -/
def execVicvt (d a : BitVec 5) (f m : BitVec 3) (s : State) : Out :=
  convert (fun x y => x.isInt && y.isInt)
    (fun x y sat _ w =>
      let (v, fl) := x.value w
      let (z, gl) := y.arith sat v.toInt
      (z, fl ||| gl)) d a f m s

/-! ## Block conversions (R142) -/

/-- The element groups of a set (R142). -/
def Hart.setGroups (h : Hart) (w : Nat) : Nat := 32 / Nat.gcd 32 (h.perGroup w)

/-- The elements of a set of groups. -/
def Hart.setElems (h : Hart) (w e : Nat) : List Nat :=
  List.range' (e * h.perGroup w) (h.setGroups w * h.perGroup w)

/-- The scale byte of block j, at element 32j, chosen by R59 from its active elements, and written; 0 for a block
with no element below vl, whose byte is left as it is. -/
def chooseScale (x y : Fmt) (a b : BitVec 5) (m : BitVec 3) (j : Nat) : M Byte := do
  let h ← hart
  if 32 * j < h.vl.toNat then
    let vals := (List.range' (32 * j) 32).map fun i =>
      if h.active m i then (x.value (h.elem x.width a.toNat i)).1 else Val.zero
    let k ← raising (y.blockScale vals)
    onHart fun h => h.setElem 8 b.toNat j (k.setWidth 64)
    return k
  else return 0

/-- VCVT.BLK (R142). -/
def execVcvtBlk (d a b : BitVec 5) (f m : BitVec 3) (s : State) : Out := run (do
  let t ← typeState
  let q := (← hart).desc f
  let x := fmtOr q.a
  let y := fmtOr q.block
  let od := t.operand d y.width
  let oa := t.operand a x.width
  let ob := single b 8
  require (q.common true false && (q.a == 9 || q.a == 10 || q.a == 11) && q.d == 13 && y.width == t.ew.bits &&
    od.ok && oa.ok && od.clear oa && !ob.meets oa)
  vectorGate q.lns
  let h ← hart
  if h.vl = 0 then retireVec 0
  else
    let pop := h.popFrom (underMask m) x.width h.vprog.toNat
    runSets (h.setGroups x.width) (8 * oa.count) fun e => do
      let elems := h.setElems x.width e
      let first := elems.headD 0
      let scales ← (List.range' (first / 32) (elems.length / 32)).mapM (chooseScale x y a b m)
      forElems (elementStep od.dest h.vl.toNat (underMask m) fun i => do
        let h ← hart
        let dr ← drawIf q.sr
        let scale := scales.getD (i / 32 - first / 32) 0
        return some (← raising (y.blockElem (q.rnd dr) scale (x.value (h.elem x.width a.toNat i)).1))) elems
    retireVec pop) s

/-- VCVT.UNBLK (R142). -/
def execVcvtUnblk (d a b : BitVec 5) (f m : BitVec 3) (s : State) : Out := run (do
  let t ← typeState
  let q := (← hart).desc f
  let x := fmtOr q.block
  let y := fmtOr q.d
  let od := t.operand d y.width
  let oa := t.operand a x.width
  let ob := single b 8
  require (q.common true false && q.a == 13 && wideFloat q.d && x.width == t.ew.bits && od.ok && oa.ok &&
    od.clear oa && !ob.meets oa && !ob.meets od)
  vectorGate q.lns
  let h ← hart
  if h.vl = 0 then retireVec 0
  else
    let pop := h.popFrom (underMask m) y.width h.vprog.toNat
    runSets (h.setGroups y.width) (8 * od.count) fun e =>
      forElems (elementStep od.dest h.vl.toNat (underMask m) fun i => do
        let h ← hart
        let dr ← drawIf q.sr
        let scale : Byte := (h.elem 8 b.toNat (i / 32)).setWidth 8
        let v ← raising (x.blockValue scale (h.elem x.width a.toNat i))
        return some (← raising (y.deliver (q.rnd dr) v))) (h.setElems y.width e)
    retireVec pop) s

/-! ## Major 0x2B -/

/-- A transcendental (R143 to R145). -/
def transcendentalOp (fn : Transcendental) (d a : BitVec 5) (f m : BitVec 3) (s : State) : Out := run (do
  let t ← typeState
  let q := (← hart).desc f
  let x := fmtOr q.a
  let n := t.ew.bits
  require (q.common true false && q.a == q.d && (q.a == 9 || q.a == 10 || q.a == 11) && x.width == n &&
    groupOk d t.g && groupOk a t.g)
  vectorGate q.lns
  elementwise (n, t.g) (.vec n d.toNat) (underMask m) fun i => do
    let s ← get
    let dr ← drawIf q.sr
    return some (← raising (x.transcendental fn (q.rnd dr) s.steps i (x.value (s.hart.elem n a.toNat i)).1))) s

/-- VEXP2 (R143). -/
def execVexp2 (d a : BitVec 5) (f m : BitVec 3) (s : State) : Out := transcendentalOp .exp2 d a f m s

/-- VEXP (R143). -/
def execVexp (d a : BitVec 5) (f m : BitVec 3) (s : State) : Out := transcendentalOp .exp d a f m s

/-- VLOG2 (R143). -/
def execVlog2 (d a : BitVec 5) (f m : BitVec 3) (s : State) : Out := transcendentalOp .log2 d a f m s

/-- VRECIP (R143). -/
def execVrecip (d a : BitVec 5) (f m : BitVec 3) (s : State) : Out := transcendentalOp .recip d a f m s

/-- VRSQRT (R143). -/
def execVrsqrt (d a : BitVec 5) (f m : BitVec 3) (s : State) : Out := transcendentalOp .rsqrt d a f m s

/-- VTANH (R143). -/
def execVtanh (d a : BitVec 5) (f m : BitVec 3) (s : State) : Out := transcendentalOp .tanh d a f m s

/-- VSIGM (R143). -/
def execVsigm (d a : BitVec 5) (f m : BitVec 3) (s : State) : Out := transcendentalOp .sigm d a f m s

end Sys2Proof.Machine
end

