-- ==== Sys2Proof/Machine/VectorPerm.lean ====
section
/-! DEFINITION. Reductions, slides and permutes, compress and expand, mask instructions, transfers, and the deferral
queue (R72, R111, R112, R141, R146 to R151). -/

namespace Sys2Proof.Machine

/-! ## Reductions -/

/-- One level of the tree of R72. -/
def pairUp (c : Word → Word → M Word) : List (Option Word) → M (List (Option Word))
  | x :: y :: t => do
    let z ← match x, y with
      | none, y => pure y
      | x, none => pure x
      | some a, some b => do
        let r ← c a b
        pure (some r)
    return z :: (← pairUp c t)
  | l => pure l

/-- The tree of R72: sixteen levels reach the root of the longest vector. -/
def tree (c : Word → Word → M Word) : Nat → List (Option Word) → M (Option Word)
  | 0, l => pure (l.headD none)
  | n + 1, l => do
    if l.length ≤ 1 then return l.headD none
    tree c n (← pairUp c l)

/-- A reduction of elements of n bits into element 0, w bits wide, of a register (R146, R147); the tail of that
single register follows the tail rule. With no active element the initial value is the result, of which a NaN is the
canonical one (R51, R72; log 54). -/
def reduce (t : TypeState) (w : Nat) (leaf whole : Word → Word) (c : Word → Word → M Word) (d a b : BitVec 5)
    (m : BitVec 3) : M Unit := do
  let h ← hart
  let n := t.ew.bits
  if h.vl = 0 then retireVec 0
  else
    let leaves := (List.range h.vl.toNat).map fun i =>
      if h.em m i then some (leaf (h.elem n a.toNat i)) else none
    let init := h.elem w b.toNat 0
    runGroups 1 fun _ => do
      let r ← match ← tree c 16 leaves with
        | none => pure (whole init)
        | some x => c init x
      onHart fun h => h.setElem w d.toNat 0 r
      onHart fun h => (List.range' 1 (min (vlmax h.grant t) (h.regBits / w) - 1)).foldl
        (fun h i => h.putOff (.vec w d.toNat) 1 i) h
    retireVec ((leaves.filter Option.isSome).length)

/-- The limits of a reduction: the destination meets neither the group nor the initial value's register (R120). -/
def reductionOk (t : TypeState) (d a b : BitVec 5) : Bool :=
  groupOk a t.g && !overlaps d.toNat 1 a.toNat t.g && d != b

/-- An integer reduction (R146). -/
def intReduce (op : ElemOp) (d a b : BitVec 5) (m : BitVec 3) (s : State) : Out := run (do
  let t ← typeState
  require (t.notEw0 && reductionOk t d a b)
  vectorModeOnly
  let n := t.ew.bits
  reduce t n id id (fun x y => pure (op n x y)) d a b m) s

/-- A widening integer sum (R146). -/
def wideReduce (leaf : Nat → Word → Word) (d a b : BitVec 5) (m : BitVec 3) (s : State) : Out := run (do
  let t ← typeState
  let n := t.ew.bits
  require (t.notEw0 && decide (n ≤ 32) && reductionOk t d a b)
  vectorModeOnly
  reduce t (2 * n) (leaf n) id (fun x y => pure (elemAdd (2 * n) x y)) d a b m) s

/-- VREDSUM (R146). -/
def execVredsum (d a b : BitVec 5) (m : BitVec 3) (s : State) : Out := intReduce elemAdd d a b m s

/-- VREDAND (R146). -/
def execVredand (d a b : BitVec 5) (m : BitVec 3) (s : State) : Out := intReduce elemAnd d a b m s

/-- VREDOR (R146). -/
def execVredor (d a b : BitVec 5) (m : BitVec 3) (s : State) : Out := intReduce elemOr d a b m s

/-- VREDXOR (R146). -/
def execVredxor (d a b : BitVec 5) (m : BitVec 3) (s : State) : Out := intReduce elemXor d a b m s

/-- VREDMIN (R146). -/
def execVredmin (d a b : BitVec 5) (m : BitVec 3) (s : State) : Out := intReduce elemMin d a b m s

/-- VREDMAX (R146). -/
def execVredmax (d a b : BitVec 5) (m : BitVec 3) (s : State) : Out := intReduce elemMax d a b m s

/-- VREDMINU (R146). -/
def execVredminu (d a b : BitVec 5) (m : BitVec 3) (s : State) : Out := intReduce elemMinu d a b m s

/-- VREDMAXU (R146). -/
def execVredmaxu (d a b : BitVec 5) (m : BitVec 3) (s : State) : Out := intReduce elemMaxu d a b m s

/-- VWREDSUM (R146): sign-extended elements. -/
def execVwredsum (d a b : BitVec 5) (m : BitVec 3) (s : State) : Out :=
  wideReduce (fun n x => wrapTo (2 * n) (signed n x)) d a b m s

/-- VWREDSUMU (R146): zero-extended elements. -/
def execVwredsumu (d a b : BitVec 5) (m : BitVec 3) (s : State) : Out := wideReduce (fun _ x => x) d a b m s

/-- A floating-point reduction (R146, R147): leaves converted to d exactly, one rounding a Combine, never
stochastic. -/
def floatReduce (op : Fmt → Rnd → Val → Val → Word × FlagSet) (d a b : BitVec 5) (f m : BitVec 3) (s : State) :
    Out := run (do
  let t ← typeState
  let q := (← hart).desc f
  let x := fmtOr q.a
  let y := fmtOr q.d
  require (q.common true false && !q.sr && x.width == t.ew.bits && reductionOk t d a b &&
    ((q.a == q.d && wideFloat q.a) || widens q.a q.d))
  vectorGate q.lns
  let r := q.rnd none
  reduce t y.width (fun w => if q.a = q.d then w else (y.deliver r (x.value w).1).1)
    y.canonical (fun u v => raising (op y r (y.value u).1 (y.value v).1)) d a b m) s

/-- VFREDSUM (R146). -/
def execVfredsum (d a b : BitVec 5) (f m : BitVec 3) (s : State) : Out := floatReduce Fmt.add d a b f m s

/-- VFREDMIN (R146). -/
def execVfredmin (d a b : BitVec 5) (f m : BitVec 3) (s : State) : Out := floatReduce Fmt.least d a b f m s

/-- VFREDMAX (R146). -/
def execVfredmax (d a b : BitVec 5) (f m : BitVec 3) (s : State) : Out := floatReduce Fmt.greatest d a b f m s

/-! ## Slides and permutes (R141) -/

/-- A cross-element instruction that picks each active element from the group vB (R141): neither the destination nor
an index group meets a source (R120). -/
def permute (d a : BitVec 5) (index : TypeState → List Operand) (allowed : TypeState → Bool) (m : BitVec 3)
    (pick : Hart → Nat → Nat → Nat → Option Word) (s : State) : Out := run (do
  let t ← typeState
  let n := t.ew.bits
  let od := t.operand d n
  let oa := t.operand a n
  let ix := index t
  require (allowed t && od.ok && oa.ok && !od.meets oa &&
    ix.all fun o => o.ok && !od.meets o)
  vectorModeOnly
  let wide := widest (od :: ix)
  elementwise wide od.dest (underMask m) fun i => do
    let h ← hart
    return pick h n (vlmax h.grant t) i) s

/-- VSLIDEUP by an amount. -/
def slideUp (a : BitVec 5) (k : Nat) (h : Hart) (n i : Nat) : Option Word :=
  if k ≤ i then some (h.elem n a.toNat (i - k)) else none

/-- VSLIDEDOWN by an amount. -/
def slideDown (a : BitVec 5) (k : Nat) (h : Hart) (n top i : Nat) : Option Word :=
  some (if i + k < top then h.elem n a.toNat (i + k) else 0)

/-- No index group. -/
def noIndex (_ : TypeState) : List Operand := []

/-- VSLIDEUP.X (R141). -/
def execVslideupX (d a b : BitVec 5) (m : BitVec 3) (s : State) : Out :=
  permute d a noIndex (fun _ => true) m (fun h n _ i => slideUp a (h.rx b).toNat h n i) s

/-- VSLIDEDOWN.X (R141). -/
def execVslidedownX (d a b : BitVec 5) (m : BitVec 3) (s : State) : Out :=
  permute d a noIndex (fun _ => true) m (fun h n top i => slideDown a (h.rx b).toNat h n top i) s

/-- VSLIDE1UP.X (R141). -/
def execVslide1upX (d a b : BitVec 5) (m : BitVec 3) (s : State) : Out :=
  permute d a noIndex (fun _ => true) m
    (fun h n _ i => some (if i = 0 then lowBits n (h.rx b) else h.elem n a.toNat (i - 1))) s

/-- VSLIDE1DOWN.X (R141). -/
def execVslide1downX (d a b : BitVec 5) (m : BitVec 3) (s : State) : Out :=
  permute d a noIndex (fun _ => true) m
    (fun h n _ i => some (if i + 1 = h.vl.toNat then lowBits n (h.rx b) else h.elem n a.toNat (i + 1))) s

/-- The element of vB that an index names (R141). -/
def gathered (a : BitVec 5) (h : Hart) (n top : Nat) (j : Word) : Option Word :=
  some (if j.toNat < top then h.elem n a.toNat j.toNat else 0)

/-- An index group meets no source (R120). -/
def apart (a b : BitVec 5) (t : TypeState) (w : Nat) : Bool :=
  !(t.operand b w).meets (t.operand a t.ew.bits)

/-- VGATHER (R141). -/
def execVgather (d a b : BitVec 5) (m : BitVec 3) (s : State) : Out :=
  permute d a (fun t => [t.operand b t.ew.bits]) (fun t => apart a b t t.ew.bits) m
    (fun h n top i => gathered a h n top (h.elem n b.toNat i)) s

/-- VGATHERE16 (R141): SEW must be 4 or 8. -/
def execVgathere16 (d a b : BitVec 5) (m : BitVec 3) (s : State) : Out :=
  permute d a (fun t => [t.operand b 16]) (fun t => decide (t.ew.bits ≤ 8) && apart a b t 16) m
    (fun h n top i => gathered a h n top (h.elem 16 b.toNat i)) s

/-- VSLIDEUP.V (R141): the amount is element 0 of vC. -/
def execVslideupV (d a b : BitVec 5) (m : BitVec 3) (s : State) : Out :=
  permute d a (fun t => [single b t.ew.bits]) (fun _ => true) m
    (fun h n _ i => slideUp a (h.elem n b.toNat 0).toNat h n i) s

/-- VSLIDEDOWN.V (R141). -/
def execVslidedownV (d a b : BitVec 5) (m : BitVec 3) (s : State) : Out :=
  permute d a (fun t => [single b t.ew.bits]) (fun _ => true) m
    (fun h n top i => slideDown a (h.elem n b.toNat 0).toNat h n top i) s

/-- VREV (R141). -/
def execVrev (d a : BitVec 5) (m : BitVec 3) (s : State) : Out :=
  permute d a noIndex (fun _ => true) m (fun h n _ i => some (h.elem n a.toNat (h.vl.toNat - 1 - i))) s

/-! ## Compress, expand, index and count (R148) -/

/-- The indices of the active elements, in ascending order. -/
def Hart.actives (h : Hart) (m : BitVec 3) : List Nat := (List.range h.vl.toNat).filter fun i => h.em m i

/-- For each element the number of marked ones below it. -/
def marksBelow : Nat → List Bool → List Nat
  | _, [] => []
  | n, b :: t => n :: marksBelow (if b then n + 1 else n) t

/-- VCOMPRESS (R148): positions from the count on follow the tail rule. -/
def execVcompress (d a : BitVec 5) (m : BitVec 3) (s : State) : Out := run (do
  let t ← typeState
  require (groupOk d t.g && groupOk a t.g && !overlaps d.toNat t.g a.toNat t.g)
  vectorModeOnly
  let h ← hart
  let n := t.ew.bits
  if h.vl = 0 then retireVec 0
  else
    let vals := ((h.actives m).map fun i => h.elem n a.toNat i).toArray
    let pop := h.popFrom (underMask m) n h.vprog.toNat
    runGroups (8 * t.g) fun e =>
      forElems (fun j => onHart fun h =>
        if j < vals.size then h.setElem n d.toNat j (vals[j]?.getD 0) else h.putOff (.vec n d.toNat) 0 j)
        (h.groupElems n e)
    retireVec pop) s

/-- VEXPAND (R148). -/
def execVexpand (d a : BitVec 5) (m : BitVec 3) (s : State) : Out := run (do
  let t ← typeState
  require (groupOk d t.g && groupOk a t.g && !overlaps d.toNat t.g a.toNat t.g)
  vectorModeOnly
  let h ← hart
  let n := t.ew.bits
  let below := (marksBelow 0 ((List.range h.vl.toNat).map fun i => h.em m i)).toArray
  elementwise (n, t.g) (.vec n d.toNat) (underMask m) fun i => do
    return some ((← hart).elem n a.toNat (below[i]?.getD 0))) s

/-- VID (R148). -/
def execVid (d : BitVec 5) (m : BitVec 3) (s : State) : Out := run (do
  let t ← typeState
  require (groupOk d t.g)
  vectorModeOnly
  let n := t.ew.bits
  elementwise (n, t.g) (.vec n d.toNat) (underMask m) fun i => return some (wrapTo n (i : Int))) s

/-- VIOTA (R148). -/
def execViota (d a : BitVec 5) (m : BitVec 3) (s : State) : Out := run (do
  let t ← typeState
  require (groupOk d t.g && maskOk a && t.notEw0)
  vectorModeOnly
  let h ← hart
  let n := t.ew.bits
  let below := (marksBelow 0 ((List.range h.vl.toNat).map fun i => h.mbit a.toNat i && h.em m i)).toArray
  elementwise (n, t.g) (.vec n d.toNat) (underMask m) fun i => return some (wrapTo n (below[i]?.getD 0 : Nat))) s

/-! ## Mask instructions (R148) -/

/-- Mask logic (R148). -/
def maskLogic (op : Bool → Bool → Bool) (d a b : BitVec 5) (s : State) : Out := run (do
  let t ← typeState
  require (maskDstOk d && maskOk a && maskOk b)
  vectorModeOnly
  elementwise (t.ew.bits, t.g) (.mask d.toNat) underMid fun i => do
    let h ← hart
    return some (bitWord (op (h.mbit a.toNat i) (h.mbit b.toNat i)))) s

/-- VMAND (R148). -/
def execVmand (d a b : BitVec 5) (s : State) : Out := maskLogic (fun x y => x && y) d a b s

/-- VMOR (R148). -/
def execVmor (d a b : BitVec 5) (s : State) : Out := maskLogic (fun x y => x || y) d a b s

/-- VMXOR (R148). -/
def execVmxor (d a b : BitVec 5) (s : State) : Out := maskLogic (fun x y => x ^^ y) d a b s

/-- VMANDN (R148). -/
def execVmandn (d a b : BitVec 5) (s : State) : Out := maskLogic (fun x y => x && !y) d a b s

/-- VMORN (R148). -/
def execVmorn (d a b : BitVec 5) (s : State) : Out := maskLogic (fun x y => x || !y) d a b s

/-- VMNAND (R148). -/
def execVmnand (d a b : BitVec 5) (s : State) : Out := maskLogic (fun x y => !(x && y)) d a b s

/-- VMNOR (R148). -/
def execVmnor (d a b : BitVec 5) (s : State) : Out := maskLogic (fun x y => !(x || y)) d a b s

/-- VMXNOR (R148). -/
def execVmxnor (d a b : BitVec 5) (s : State) : Out := maskLogic (fun x y => !(x ^^ y)) d a b s

/-- A word of a mask register; m0 reads ones (R105). -/
def Hart.mword (h : Hart) (k w : Nat) : Word :=
  if k = 0 then BitVec.allOnes 64 else (h.m[k]?.getD maskOnes)[w]?.getD 0

/-- VMMV.M.V (R148): the registers whole. -/
def execVmmvMV (d a : BitVec 5) (s : State) : Out := run (do
  let _ ← typeState
  require (maskDstOk d && !a.getLsbD 0)
  vectorModeOnly
  onHart fun h =>
    let half := 8 * h.grant.lanes
    let reg : Vector Word 512 := Vector.ofFn fun i : Fin 512 =>
      if i.val < half then h.vword a.toNat i.val
      else if i.val < 2 * half then h.vword (a.toNat + 1) (i.val - half)
      else 0
    { h with m := h.m.setIfInBounds d.toNat reg }
  modify (State.bump 2 16)
  retireVec 0) s

/-- VMMV.V.M (R148). -/
def execVmmvVM (d a : BitVec 5) (s : State) : Out := run (do
  let _ ← typeState
  require (!d.getLsbD 0 && maskOk a)
  vectorModeOnly
  onHart fun h =>
    let half := 8 * h.grant.lanes
    (List.range half).foldl (fun k w =>
      (k.setVword d.toNat w (h.mword a.toNat w)).setVword (d.toNat + 1) w (h.mword a.toNat (half + w))) h
  modify (State.bump 2 16)
  retireVec 0) s

/-- VMSEL (R148). -/
def execVmsel (i j : BitVec 5) (s : State) : Out := run (do
  let _ ← typeState
  require (decide (i.toNat ≤ 7) && decide (j.toNat ≤ 3))
  vectorModeOnly
  onHart fun h => { h with mid := i.setWidth 3, mmode := j.setWidth 2 }
  retireVec 0) s

/-! ## Transfers (R149) -/

/-- A transfer writes a scalar register. -/
def transferTo (d : BitVec 5) (w : Word) (pop : Nat) : M Unit := do
  onHart fun h => h.wx d w
  retireVec pop

/-- VMV.X.S and VMV.X.SU (R149): element 0, extended. -/
def moveFirst (ext : Nat → Word → Word) (d a : BitVec 5) (s : State) : Out := run (do
  let t ← typeState
  vectorModeOnly
  let h ← hart
  transferTo d (ext t.ew.bits (h.elem t.ew.bits a.toNat 0)) 0) s

/-- VMV.X.S (R149). -/
def execVmvXS (d a : BitVec 5) (s : State) : Out := moveFirst (fun n w => BitVec.ofInt 64 (signed n w)) d a s

/-- VMV.X.SU (R149). -/
def execVmvXSu (d a : BitVec 5) (s : State) : Out := moveFirst (fun _ w => w) d a s

/-- The active elements whose bit in m(B) is 1. -/
def Hart.marked (h : Hart) (k : BitVec 5) (m : BitVec 3) : List Nat :=
  (h.actives m).filter fun i => h.mbit k.toNat i

/-- VCPOP.M (R149). -/
def execVcpopM (d a : BitVec 5) (m : BitVec 3) (s : State) : Out := run (do
  let _ ← typeState
  require (maskOk a)
  vectorModeOnly
  let h ← hart
  transferTo d (BitVec.ofNat 64 (h.marked a m).length) (h.actives m).length) s

/-- VFIRST.M (R149). -/
def execVfirstM (d a : BitVec 5) (m : BitVec 3) (s : State) : Out := run (do
  let _ ← typeState
  require (maskOk a)
  vectorModeOnly
  let h ← hart
  transferTo d (match h.marked a m with | [] => BitVec.allOnes 64 | i :: _ => BitVec.ofNat 64 i)
    (h.actives m).length) s

/-! ## The deferral queue (R111, R112, R150, R151) -/

/-- The capacity of the deferral queue (R111). -/
def Hart.queueRoom (h : Hart) : Nat := 64 * h.grant.lanes

/-- The first registers of the groups from vB to vC. -/
def groupsNamed (g : Nat) (b c : BitVec 5) : List Nat :=
  (List.range ((c.toNat - b.toNat) / g + 1)).map fun k => b.toNat + k * g

/-- The limits on vB and vC (R150, R151): at most four groups. -/
def groupsOk (g : Nat) (b c : BitVec 5) : Bool :=
  groupOk b g && groupOk c g && decide (b.toNat ≤ c.toNat) && decide ((c.toNat - b.toNat) / g < 4)

/-- VDEFER (R150): an active element is appended where there is room, and its mask bit says whether it was not. -/
def execVdefer (d a b : BitVec 5) (m : BitVec 3) (s : State) : Out := run (do
  let t ← typeState
  require (maskDstOk d && groupsOk t.g a b)
  vectorModeOnly
  let n := t.ew.bits
  elementwise (n, t.g) (.mask d.toNat) (underMask m) fun i => do
    let h ← hart
    if h.dq.length < h.queueRoom then
      let rec_ : Deferred := ⟨BitVec.ofNat 32 i, t.ew, (groupsNamed t.g a b).map fun r => h.elem n r i⟩
      onHart fun h => { h with dq := h.dq ++ [rec_] }
      modify (State.bump 8 1)
      return some 0
    else return some 1) s

/-- An element of a VDRAIN (R151): the record at the head, if its width is the current one, else as masked-off. -/
def drainElement (t : TypeState) (w : Nat) (d : BitVec 5) (groups : List Nat) (len i : Nat) (h : Hart) : Hart :=
  let n := t.ew.bits
  let off (h : Hart) : Hart :=
    groups.foldl (fun h r => h.putOff (.vec n r) len i) (h.putOff (.vec w d.toNat) len i)
  if i < len then
    match h.dq with
    | r :: rest =>
      if r.ew = t.ew then
        groups.zipIdx.foldl (fun h g => h.setElem n g.1 i (r.values.getD g.2 0))
          (({ h with dq := rest } : Hart).setElem w d.toNat i (lowBits w (r.index.setWidth 64)))
      else off h
    | [] => off h
  else off h

/-- VDRAIN (R151): its sources are the records, so that its destinations may meet one another. -/
def execVdrain (d a b : BitVec 5) (s : State) : Out := run (do
  let t ← typeState
  let w := max t.ew.bits 16
  let od := t.operand d w
  require (t.notEw0 && od.ok && groupsOk t.g a b)
  vectorModeOnly
  let h ← hart
  if h.vl = 0 then retireVec 0
  else
    runGroups (8 * od.count) fun e =>
      forElems (fun i => onHart (drainElement t w d (groupsNamed t.g a b) h.vl.toNat i)) (h.groupElems w e)
    let left := (← hart).dq.length
    retireVec (h.dq.length - left)) s

end Sys2Proof.Machine
end

