-- ==== Sys2Proof/Machine/Dispatch.lean ====
section
/-! DEFINITION. The meaning of every instruction and event: one direct call an arm. -/

namespace Sys2Proof.Machine

/-- What an instruction, or an event of the package, does to the state. -/
def exec (i : Instr) (s : State) : Host.Outcome State Fault Refusal :=
  match i with
  | .add d a b => Sys2Proof.Machine.execAdd d a b s
  | .sub d a b => Sys2Proof.Machine.execSub d a b s
  | .and d a b => Sys2Proof.Machine.execAnd d a b s
  | .or d a b => Sys2Proof.Machine.execOr d a b s
  | .xor d a b => Sys2Proof.Machine.execXor d a b s
  | .sll d a b => Sys2Proof.Machine.execSll d a b s
  | .srl d a b => Sys2Proof.Machine.execSrl d a b s
  | .sra d a b => Sys2Proof.Machine.execSra d a b s
  | .slt d a b => Sys2Proof.Machine.execSlt d a b s
  | .sltu d a b => Sys2Proof.Machine.execSltu d a b s
  | .min d a b => Sys2Proof.Machine.execMin d a b s
  | .max d a b => Sys2Proof.Machine.execMax d a b s
  | .minu d a b => Sys2Proof.Machine.execMinu d a b s
  | .maxu d a b => Sys2Proof.Machine.execMaxu d a b s
  | .addi d a wi => Sys2Proof.Machine.execAddi d a wi s
  | .andi d a wi => Sys2Proof.Machine.execAndi d a wi s
  | .ori d a wi => Sys2Proof.Machine.execOri d a wi s
  | .xori d a wi => Sys2Proof.Machine.execXori d a wi s
  | .lhi d wi => Sys2Proof.Machine.execLhi d wi s
  | .lpc d wi => Sys2Proof.Machine.execLpc d wi s
  | .mul d a b => Sys2Proof.Machine.execMul d a b s
  | .mulh d a b => Sys2Proof.Machine.execMulh d a b s
  | .mulhu d a b => Sys2Proof.Machine.execMulhu d a b s
  | .mulhsu d a b => Sys2Proof.Machine.execMulhsu d a b s
  | .div d a b => Sys2Proof.Machine.execDiv d a b s
  | .divu d a b => Sys2Proof.Machine.execDivu d a b s
  | .rem d a b => Sys2Proof.Machine.execRem d a b s
  | .remu d a b => Sys2Proof.Machine.execRemu d a b s
  | .slli d a ws => Sys2Proof.Machine.execSlli d a ws s
  | .srli d a ws => Sys2Proof.Machine.execSrli d a ws s
  | .srai d a ws => Sys2Proof.Machine.execSrai d a ws s
  | .rori d a ws => Sys2Proof.Machine.execRori d a ws s
  | .slti d a wi => Sys2Proof.Machine.execSlti d a wi s
  | .sltiu d a wi => Sys2Proof.Machine.execSltiu d a wi s
  | .seqi d a wi => Sys2Proof.Machine.execSeqi d a wi s
  | .clz d a => Sys2Proof.Machine.execClz d a s
  | .ctz d a => Sys2Proof.Machine.execCtz d a s
  | .cpop d a => Sys2Proof.Machine.execCpop d a s
  | .rev8 d a => Sys2Proof.Machine.execRev8 d a s
  | .brev d a => Sys2Proof.Machine.execBrev d a s
  | .sextB d a => Sys2Proof.Machine.execSextB d a s
  | .sextH d a => Sys2Proof.Machine.execSextH d a s
  | .sextW d a => Sys2Proof.Machine.execSextW d a s
  | .zextW d a => Sys2Proof.Machine.execZextW d a s
  | .andn d a b => Sys2Proof.Machine.execAndn d a b s
  | .orn d a b => Sys2Proof.Machine.execOrn d a b s
  | .xnor d a b => Sys2Proof.Machine.execXnor d a b s
  | .rol d a b => Sys2Proof.Machine.execRol d a b s
  | .ror d a b => Sys2Proof.Machine.execRor d a b s
  | .fadd d a b => Sys2Proof.Machine.execFadd d a b s
  | .fsub d a b => Sys2Proof.Machine.execFsub d a b s
  | .fmul d a b => Sys2Proof.Machine.execFmul d a b s
  | .fdiv d a b => Sys2Proof.Machine.execFdiv d a b s
  | .fsqrt d a => Sys2Proof.Machine.execFsqrt d a s
  | .fmin d a b => Sys2Proof.Machine.execFmin d a b s
  | .fmax d a b => Sys2Proof.Machine.execFmax d a b s
  | .fma d a b => Sys2Proof.Machine.execFma d a b s
  | .fnma d a b => Sys2Proof.Machine.execFnma d a b s
  | .feq d a b => Sys2Proof.Machine.execFeq d a b s
  | .flt d a b => Sys2Proof.Machine.execFlt d a b s
  | .fle d a b => Sys2Proof.Machine.execFle d a b s
  | .fclass d a => Sys2Proof.Machine.execFclass d a s
  | .fcvtFF d a => Sys2Proof.Machine.execFcvtFF d a s
  | .fcvtIF d a => Sys2Proof.Machine.execFcvtIF d a s
  | .fcvtFI d a => Sys2Proof.Machine.execFcvtFI d a s
  | .fneg d a => Sys2Proof.Machine.execFneg d a s
  | .fabs d a => Sys2Proof.Machine.execFabs d a s
  | .beq a b o => Sys2Proof.Machine.execBeq a b o s
  | .bne a b o => Sys2Proof.Machine.execBne a b o s
  | .jal d o => Sys2Proof.Machine.execJal d o s
  | .jalr d a => Sys2Proof.Machine.execJalr d a s
  | .callV a => Sys2Proof.Machine.execCallV a s
  | .retV => Sys2Proof.Machine.execRetV s
  | .gret => Sys2Proof.Machine.execGret s
  | .ld d a c o => Sys2Proof.Machine.execLd d a c o s
  | .lw d a c o => Sys2Proof.Machine.execLw d a c o s
  | .sd d a c o => Sys2Proof.Machine.execSd d a c o s
  | .sw d a c o => Sys2Proof.Machine.execSw d a c o s
  | .lb d a b c h l => Sys2Proof.Machine.execLb d a b c h l s
  | .lbu d a b c h l => Sys2Proof.Machine.execLbu d a b c h l s
  | .lh d a b c h l => Sys2Proof.Machine.execLh d a b c h l s
  | .lhu d a b c h l => Sys2Proof.Machine.execLhu d a b c h l s
  | .lwx d a b c h l => Sys2Proof.Machine.execLwx d a b c h l s
  | .lwux d a b c h l => Sys2Proof.Machine.execLwux d a b c h l s
  | .ldx d a b c h l => Sys2Proof.Machine.execLdx d a b c h l s
  | .sb d a b c h l => Sys2Proof.Machine.execSb d a b c h l s
  | .sh d a b c h l => Sys2Proof.Machine.execSh d a b c h l s
  | .swx d a b c h l => Sys2Proof.Machine.execSwx d a b c h l s
  | .sdx d a b c h l => Sys2Proof.Machine.execSdx d a b c h l s
  | .lwAq d a b c ws => Sys2Proof.Machine.execLwAq d a b c ws s
  | .ldAq d a b c ws => Sys2Proof.Machine.execLdAq d a b c ws s
  | .swRl d a b c ws => Sys2Proof.Machine.execSwRl d a b c ws s
  | .sdRl d a b c ws => Sys2Proof.Machine.execSdRl d a b c ws s
  | .amoswap d a b c w => Sys2Proof.Machine.execAmoswap d a b c w s
  | .amoadd d a b c w => Sys2Proof.Machine.execAmoadd d a b c w s
  | .amoand d a b c w => Sys2Proof.Machine.execAmoand d a b c w s
  | .amoor d a b c w => Sys2Proof.Machine.execAmoor d a b c w s
  | .amoxor d a b c w => Sys2Proof.Machine.execAmoxor d a b c w s
  | .amomin d a b c w => Sys2Proof.Machine.execAmomin d a b c w s
  | .amomax d a b c w => Sys2Proof.Machine.execAmomax d a b c w s
  | .amominu d a b c w => Sys2Proof.Machine.execAmominu d a b c w s
  | .amomaxu d a b c w => Sys2Proof.Machine.execAmomaxu d a b c w s
  | .amocas d a b c w => Sys2Proof.Machine.execAmocas d a b c w s
  | .fenceAq a ws => Sys2Proof.Machine.execFenceAq a ws s
  | .fenceRl a ws => Sys2Proof.Machine.execFenceRl a ws s
  | .fence a ws => Sys2Proof.Machine.execFence a ws s
  | .fenceSc d => Sys2Proof.Machine.execFenceSc d s
  | .fenceI => Sys2Proof.Machine.execFenceI s
  | .wlarm a => Sys2Proof.Machine.execWlarm a s
  | .wlwait d b => Sys2Proof.Machine.execWlwait d b s
  | .rcPost a b => Sys2Proof.Machine.execRcPost a b s
  | .chint a p => Sys2Proof.Machine.execChint a p s
  | .cwb a => Sys2Proof.Machine.execCwb a s
  | .cdrop a => Sys2Proof.Machine.execCdrop a s
  | .csrrw d a ws => Sys2Proof.Machine.execCsrrw d a ws s
  | .csrrs d a ws => Sys2Proof.Machine.execCsrrs d a ws s
  | .csrrc d a ws => Sys2Proof.Machine.execCsrrc d a ws s
  | .csrr d ws => Sys2Proof.Machine.execCsrr d ws s
  | .tret => Sys2Proof.Machine.execTret s
  | .tfence => Sys2Proof.Machine.execTfence s
  | .ecall => Sys2Proof.Machine.execEcall s
  | .wfi => Sys2Proof.Machine.execWfi s
  | .gate k => Sys2Proof.Machine.execGate k s
  | .ebreak => Sys2Proof.Machine.execEbreak s
  | .rring d a k => Sys2Proof.Machine.execRring d a k s
  | .tmark a => Sys2Proof.Machine.execTmark a s
  | .enq d a b => Sys2Proof.Machine.execEnq d a b s
  | .spawn d a => Sys2Proof.Machine.execSpawn d a s
  | .join d a => Sys2Proof.Machine.execJoin d a s
  | .exit => Sys2Proof.Machine.execExit s
  | .yield => Sys2Proof.Machine.execYield s
  | .bar => Sys2Proof.Machine.execBar s
  | .barS => Sys2Proof.Machine.execBarS s
  | .ginfo d k => Sys2Proof.Machine.execGinfo d k s
  | .lcount a l => Sys2Proof.Machine.execLcount a l s
  | .lstride d a ws l => Sys2Proof.Machine.execLstride d a ws l s
  | .lflags d a => Sys2Proof.Machine.execLflags d a s
  | .loop g n => Sys2Proof.Machine.execLoop g n s
  | .vdefer d a b m => Sys2Proof.Machine.execVdefer d a b m s
  | .vdrain d a b => Sys2Proof.Machine.execVdrain d a b s
  | .setvl d a g l e => Sys2Proof.Machine.execSetvl d a g l e s
  | .setvlmax d g l e => Sys2Proof.Machine.execSetvlmax d g l e s
  | .setvli d n g l e => Sys2Proof.Machine.execSetvli d n g l e s
  | .vadd d a b m => Sys2Proof.Machine.execVadd d a b m s
  | .vsub d a b m => Sys2Proof.Machine.execVsub d a b m s
  | .vand d a b m => Sys2Proof.Machine.execVand d a b m s
  | .vor d a b m => Sys2Proof.Machine.execVor d a b m s
  | .vxor d a b m => Sys2Proof.Machine.execVxor d a b m s
  | .vsll d a b m => Sys2Proof.Machine.execVsll d a b m s
  | .vsrl d a b m => Sys2Proof.Machine.execVsrl d a b m s
  | .vsra d a b m => Sys2Proof.Machine.execVsra d a b m s
  | .vmin d a b m => Sys2Proof.Machine.execVmin d a b m s
  | .vmax d a b m => Sys2Proof.Machine.execVmax d a b m s
  | .vminu d a b m => Sys2Proof.Machine.execVminu d a b m s
  | .vmaxu d a b m => Sys2Proof.Machine.execVmaxu d a b m s
  | .vmseq d a b m => Sys2Proof.Machine.execVmseq d a b m s
  | .vmsne d a b m => Sys2Proof.Machine.execVmsne d a b m s
  | .vmslt d a b m => Sys2Proof.Machine.execVmslt d a b m s
  | .vmsltu d a b m => Sys2Proof.Machine.execVmsltu d a b m s
  | .vmsle d a b m => Sys2Proof.Machine.execVmsle d a b m s
  | .vmsleu d a b m => Sys2Proof.Machine.execVmsleu d a b m s
  | .vmerge d a b m => Sys2Proof.Machine.execVmerge d a b m s
  | .vmvVV d a m => Sys2Proof.Machine.execVmvVV d a m s
  | .vaddX d a b m => Sys2Proof.Machine.execVaddX d a b m s
  | .vsubX d a b m => Sys2Proof.Machine.execVsubX d a b m s
  | .vandX d a b m => Sys2Proof.Machine.execVandX d a b m s
  | .vorX d a b m => Sys2Proof.Machine.execVorX d a b m s
  | .vxorX d a b m => Sys2Proof.Machine.execVxorX d a b m s
  | .vsllX d a b m => Sys2Proof.Machine.execVsllX d a b m s
  | .vsrlX d a b m => Sys2Proof.Machine.execVsrlX d a b m s
  | .vsraX d a b m => Sys2Proof.Machine.execVsraX d a b m s
  | .vminX d a b m => Sys2Proof.Machine.execVminX d a b m s
  | .vmaxX d a b m => Sys2Proof.Machine.execVmaxX d a b m s
  | .vminuX d a b m => Sys2Proof.Machine.execVminuX d a b m s
  | .vmaxuX d a b m => Sys2Proof.Machine.execVmaxuX d a b m s
  | .vmseqX d a b m => Sys2Proof.Machine.execVmseqX d a b m s
  | .vmsneX d a b m => Sys2Proof.Machine.execVmsneX d a b m s
  | .vmsltX d a b m => Sys2Proof.Machine.execVmsltX d a b m s
  | .vmsltuX d a b m => Sys2Proof.Machine.execVmsltuX d a b m s
  | .vmsleX d a b m => Sys2Proof.Machine.execVmsleX d a b m s
  | .vmsleuX d a b m => Sys2Proof.Machine.execVmsleuX d a b m s
  | .vmergeX d a b m => Sys2Proof.Machine.execVmergeX d a b m s
  | .vmvVX d b m => Sys2Proof.Machine.execVmvVX d b m s
  | .vrsubX d a b m => Sys2Proof.Machine.execVrsubX d a b m s
  | .vmsgtX d a b m => Sys2Proof.Machine.execVmsgtX d a b m s
  | .vmsgtuX d a b m => Sys2Proof.Machine.execVmsgtuX d a b m s
  | .vmvSX d b m => Sys2Proof.Machine.execVmvSX d b m s
  | .vslideupX d a b m => Sys2Proof.Machine.execVslideupX d a b m s
  | .vslidedownX d a b m => Sys2Proof.Machine.execVslidedownX d a b m s
  | .vslide1upX d a b m => Sys2Proof.Machine.execVslide1upX d a b m s
  | .vslide1downX d a b m => Sys2Proof.Machine.execVslide1downX d a b m s
  | .vmul d a b m => Sys2Proof.Machine.execVmul d a b m s
  | .vmulh d a b m => Sys2Proof.Machine.execVmulh d a b m s
  | .vmulhu d a b m => Sys2Proof.Machine.execVmulhu d a b m s
  | .vmulhsu d a b m => Sys2Proof.Machine.execVmulhsu d a b m s
  | .vdiv d a b m => Sys2Proof.Machine.execVdiv d a b m s
  | .vdivu d a b m => Sys2Proof.Machine.execVdivu d a b m s
  | .vrem d a b m => Sys2Proof.Machine.execVrem d a b m s
  | .vremu d a b m => Sys2Proof.Machine.execVremu d a b m s
  | .vmacc d a b m => Sys2Proof.Machine.execVmacc d a b m s
  | .vnmsac d a b m => Sys2Proof.Machine.execVnmsac d a b m s
  | .vwmul d a b m => Sys2Proof.Machine.execVwmul d a b m s
  | .vwmulu d a b m => Sys2Proof.Machine.execVwmulu d a b m s
  | .vwmacc d a b m => Sys2Proof.Machine.execVwmacc d a b m s
  | .vwmaccu d a b m => Sys2Proof.Machine.execVwmaccu d a b m s
  | .vnsrl d a b m => Sys2Proof.Machine.execVnsrl d a b m s
  | .vnsra d a b m => Sys2Proof.Machine.execVnsra d a b m s
  | .vsadd d a b m => Sys2Proof.Machine.execVsadd d a b m s
  | .vsaddu d a b m => Sys2Proof.Machine.execVsaddu d a b m s
  | .vssub d a b m => Sys2Proof.Machine.execVssub d a b m s
  | .vssubu d a b m => Sys2Proof.Machine.execVssubu d a b m s
  | .vsmul d a b f m => Sys2Proof.Machine.execVsmul d a b f m s
  | .vssrl d a b f m => Sys2Proof.Machine.execVssrl d a b f m s
  | .vssra d a b f m => Sys2Proof.Machine.execVssra d a b f m s
  | .vnclip d a b f m => Sys2Proof.Machine.execVnclip d a b f m s
  | .vnclipu d a b f m => Sys2Proof.Machine.execVnclipu d a b f m s
  | .vfadd d a b f m => Sys2Proof.Machine.execVfadd d a b f m s
  | .vfsub d a b f m => Sys2Proof.Machine.execVfsub d a b f m s
  | .vfmul d a b f m => Sys2Proof.Machine.execVfmul d a b f m s
  | .vfdiv d a b f m => Sys2Proof.Machine.execVfdiv d a b f m s
  | .vfsqrt d a f m => Sys2Proof.Machine.execVfsqrt d a f m s
  | .vfmin d a b f m => Sys2Proof.Machine.execVfmin d a b f m s
  | .vfmax d a b f m => Sys2Proof.Machine.execVfmax d a b f m s
  | .vfsgnj d a b f m => Sys2Proof.Machine.execVfsgnj d a b f m s
  | .vfsgnjn d a b f m => Sys2Proof.Machine.execVfsgnjn d a b f m s
  | .vfsgnjx d a b f m => Sys2Proof.Machine.execVfsgnjx d a b f m s
  | .vmfeq d a b f m => Sys2Proof.Machine.execVmfeq d a b f m s
  | .vmflt d a b f m => Sys2Proof.Machine.execVmflt d a b f m s
  | .vmfle d a b f m => Sys2Proof.Machine.execVmfle d a b f m s
  | .vmfne d a b f m => Sys2Proof.Machine.execVmfne d a b f m s
  | .vfclass d a f m => Sys2Proof.Machine.execVfclass d a f m s
  | .vfaddF d a b f m => Sys2Proof.Machine.execVfaddF d a b f m s
  | .vfsubF d a b f m => Sys2Proof.Machine.execVfsubF d a b f m s
  | .vfmulF d a b f m => Sys2Proof.Machine.execVfmulF d a b f m s
  | .vfdivF d a b f m => Sys2Proof.Machine.execVfdivF d a b f m s
  | .vfminF d a b f m => Sys2Proof.Machine.execVfminF d a b f m s
  | .vfmaxF d a b f m => Sys2Proof.Machine.execVfmaxF d a b f m s
  | .vfsgnjF d a b f m => Sys2Proof.Machine.execVfsgnjF d a b f m s
  | .vfsgnjnF d a b f m => Sys2Proof.Machine.execVfsgnjnF d a b f m s
  | .vfsgnjxF d a b f m => Sys2Proof.Machine.execVfsgnjxF d a b f m s
  | .vmfeqF d a b f m => Sys2Proof.Machine.execVmfeqF d a b f m s
  | .vmfltF d a b f m => Sys2Proof.Machine.execVmfltF d a b f m s
  | .vmfleF d a b f m => Sys2Proof.Machine.execVmfleF d a b f m s
  | .vmfneF d a b f m => Sys2Proof.Machine.execVmfneF d a b f m s
  | .vfrsubF d a b f m => Sys2Proof.Machine.execVfrsubF d a b f m s
  | .vfrdivF d a b f m => Sys2Proof.Machine.execVfrdivF d a b f m s
  | .vmfgtF d a b f m => Sys2Proof.Machine.execVmfgtF d a b f m s
  | .vmfgeF d a b f m => Sys2Proof.Machine.execVmfgeF d a b f m s
  | .vfmacc d a b f m => Sys2Proof.Machine.execVfmacc d a b f m s
  | .vfnmsac d a b f m => Sys2Proof.Machine.execVfnmsac d a b f m s
  | .vfmadd d a b f m => Sys2Proof.Machine.execVfmadd d a b f m s
  | .vfmsub d a b f m => Sys2Proof.Machine.execVfmsub d a b f m s
  | .vfwmacc d a b f m => Sys2Proof.Machine.execVfwmacc d a b f m s
  | .vfwnmsac d a b f m => Sys2Proof.Machine.execVfwnmsac d a b f m s
  | .vfcvtFF d a f m => Sys2Proof.Machine.execVfcvtFF d a f m s
  | .vfcvtIF d a f m => Sys2Proof.Machine.execVfcvtIF d a f m s
  | .vfcvtFI d a f m => Sys2Proof.Machine.execVfcvtFI d a f m s
  | .vicvt d a f m => Sys2Proof.Machine.execVicvt d a f m s
  | .vcvtBlk d a b f m => Sys2Proof.Machine.execVcvtBlk d a b f m s
  | .vcvtUnblk d a b f m => Sys2Proof.Machine.execVcvtUnblk d a b f m s
  | .vredsum d a b m => Sys2Proof.Machine.execVredsum d a b m s
  | .vredand d a b m => Sys2Proof.Machine.execVredand d a b m s
  | .vredor d a b m => Sys2Proof.Machine.execVredor d a b m s
  | .vredxor d a b m => Sys2Proof.Machine.execVredxor d a b m s
  | .vredmin d a b m => Sys2Proof.Machine.execVredmin d a b m s
  | .vredmax d a b m => Sys2Proof.Machine.execVredmax d a b m s
  | .vredminu d a b m => Sys2Proof.Machine.execVredminu d a b m s
  | .vredmaxu d a b m => Sys2Proof.Machine.execVredmaxu d a b m s
  | .vwredsum d a b m => Sys2Proof.Machine.execVwredsum d a b m s
  | .vwredsumu d a b m => Sys2Proof.Machine.execVwredsumu d a b m s
  | .vfredsum d a b f m => Sys2Proof.Machine.execVfredsum d a b f m s
  | .vfredmin d a b f m => Sys2Proof.Machine.execVfredmin d a b f m s
  | .vfredmax d a b f m => Sys2Proof.Machine.execVfredmax d a b f m s
  | .vgather d a b m => Sys2Proof.Machine.execVgather d a b m s
  | .vgathere16 d a b m => Sys2Proof.Machine.execVgathere16 d a b m s
  | .vslideupV d a b m => Sys2Proof.Machine.execVslideupV d a b m s
  | .vslidedownV d a b m => Sys2Proof.Machine.execVslidedownV d a b m s
  | .vrev d a m => Sys2Proof.Machine.execVrev d a m s
  | .vcompress d a m => Sys2Proof.Machine.execVcompress d a m s
  | .vexpand d a m => Sys2Proof.Machine.execVexpand d a m s
  | .vid d m => Sys2Proof.Machine.execVid d m s
  | .viota d a m => Sys2Proof.Machine.execViota d a m s
  | .vmand d a b => Sys2Proof.Machine.execVmand d a b s
  | .vmor d a b => Sys2Proof.Machine.execVmor d a b s
  | .vmxor d a b => Sys2Proof.Machine.execVmxor d a b s
  | .vmandn d a b => Sys2Proof.Machine.execVmandn d a b s
  | .vmorn d a b => Sys2Proof.Machine.execVmorn d a b s
  | .vmnand d a b => Sys2Proof.Machine.execVmnand d a b s
  | .vmnor d a b => Sys2Proof.Machine.execVmnor d a b s
  | .vmxnor d a b => Sys2Proof.Machine.execVmxnor d a b s
  | .vmmvMV d a => Sys2Proof.Machine.execVmmvMV d a s
  | .vmmvVM d a => Sys2Proof.Machine.execVmmvVM d a s
  | .vmsel wi j => Sys2Proof.Machine.execVmsel wi j s
  | .vexp2 d a f m => Sys2Proof.Machine.execVexp2 d a f m s
  | .vexp d a f m => Sys2Proof.Machine.execVexp d a f m s
  | .vlog2 d a f m => Sys2Proof.Machine.execVlog2 d a f m s
  | .vrecip d a f m => Sys2Proof.Machine.execVrecip d a f m s
  | .vrsqrt d a f m => Sys2Proof.Machine.execVrsqrt d a f m s
  | .vtanh d a f m => Sys2Proof.Machine.execVtanh d a f m s
  | .vsigm d a f m => Sys2Proof.Machine.execVsigm d a f m s
  | .vmvXS d a => Sys2Proof.Machine.execVmvXS d a s
  | .vmvXSu d a => Sys2Proof.Machine.execVmvXSu d a s
  | .vcpopM d a m => Sys2Proof.Machine.execVcpopM d a m s
  | .vfirstM d a m => Sys2Proof.Machine.execVfirstM d a m s
  | .vld d a c e l m => Sys2Proof.Machine.execVld d a c e l m s
  | .vldTmap d a t c e l m => Sys2Proof.Machine.execVldTmap d a t c e l m s
  | .vldSq d n => Sys2Proof.Machine.execVldSq d n s
  | .vst d a c e l r m => Sys2Proof.Machine.execVst d a c e l r m s
  | .vstTmap d a t c e l r m => Sys2Proof.Machine.execVstTmap d a t c e l r m s
  | .vstSq d n => Sys2Proof.Machine.execVstSq d n s
  | .vlds d a b c e l m => Sys2Proof.Machine.execVlds d a b c e l m s
  | .vldP6 d a c e l m => Sys2Proof.Machine.execVldP6 d a c e l m s
  | .vsts d a b c e l r m => Sys2Proof.Machine.execVsts d a b c e l r m s
  | .vstP6 d a c e l r m => Sys2Proof.Machine.execVstP6 d a c e l r m s
  | .vldx d a b c e l m => Sys2Proof.Machine.execVldx d a b c e l m s
  | .vstx d a b c e l r m => Sys2Proof.Machine.execVstx d a b c e l r m s
  | .settile d a b f => Sys2Proof.Machine.execSettile d a b f s
  | .modeM d l ws => Sys2Proof.Machine.execModeM d l ws s
  | .modeV d => Sys2Proof.Machine.execModeV d s
  | .mdrain d => Sys2Proof.Machine.execMdrain d s
  | .mdrainN d f => Sys2Proof.Machine.execMdrainN d f s
  | .mchain l p h => Sys2Proof.Machine.execMchain l p h s
  | .msync => Sys2Proof.Machine.execMsync s
  | .mma d a b f z => Sys2Proof.Machine.execMma d a b f z s
  | .smma d a b f z q => Sys2Proof.Machine.execSmma d a b f z q s
  | .mldA d a b f => Sys2Proof.Machine.execMldA d a b f s
  | .mldB d a b f => Sys2Proof.Machine.execMldB d a b f s
  | .mldM d a b f => Sys2Proof.Machine.execMldM d a b f s
  | .mldR d a b n => Sys2Proof.Machine.execMldR d a b n s
  | .mzero d => Sys2Proof.Machine.execMzero d s
  | .mzeroc => Sys2Proof.Machine.execMzeroc s
  | .mskew d a f ws => Sys2Proof.Machine.execMskew d a f ws s
  | .mdskew d a f ws => Sys2Proof.Machine.execMdskew d a f ws s
  | .copy d a b h ws q => Sys2Proof.Machine.execCopy d a b h ws q s
  | .fill d a b ws q => Sys2Proof.Machine.execFill d a b ws q s
  | .chain d a q => Sys2Proof.Machine.execChain d a q s
  | .qfence d k q => Sys2Proof.Machine.execQfence d k q s
  | .sopen d a => Sys2Proof.Machine.execSopen d a s
  | .sclose d a => Sys2Proof.Machine.execSclose d a s
  | .savail d p => Sys2Proof.Machine.execSavail d p s
  | .coll d a => Sys2Proof.Machine.execColl d a s
  | .collX d a => Sys2Proof.Machine.execCollX d a s
  | .interruptEntry h => Sys2Proof.Machine.execInterruptEntry h s
  | .timerInterrupt ns => Sys2Proof.Machine.execTimerInterrupt ns s
  | .latchParityError req latch => Sys2Proof.Machine.execLatchParityError req latch s
  | .gangPlacement cluster cores => Sys2Proof.Machine.execGangPlacement cluster cores s
  | .gangStart gang => Sys2Proof.Machine.execGangStart gang s
  | .recordHold cluster => Sys2Proof.Machine.execRecordHold cluster s
  | .schedulerPreemptRequest cluster => Sys2Proof.Machine.execSchedulerPreemptRequest cluster s
  | .issueWindow core => Sys2Proof.Machine.execIssueWindow core s
  | .barrierComplete gang => Sys2Proof.Machine.execBarrierComplete gang s
  | .hartResourceRelease h => Sys2Proof.Machine.execHartResourceRelease h s
  | .endOfLaunch record => Sys2Proof.Machine.execEndOfLaunch record s
  | .completionEntry ctx => Sys2Proof.Machine.execCompletionEntry ctx s
  | .forcedStop h groups => Sys2Proof.Machine.execForcedStop h groups s
  | .replyAbandon h group => Sys2Proof.Machine.execReplyAbandon h group s
  | .gangSave gang => Sys2Proof.Machine.execGangSave gang s
  | .preemptDelivery gang => Sys2Proof.Machine.execPreemptDelivery gang s
  | .resumption cluster gang cores grants => Sys2Proof.Machine.execResumption cluster gang cores grants s
  | .chainRendezvous h => Sys2Proof.Machine.execChainRendezvous h s
  | .wlwaitReturn h => Sys2Proof.Machine.execWlwaitReturn h s
  | .wfiReturn h => Sys2Proof.Machine.execWfiReturn h s
  | .streamPortWake h => Sys2Proof.Machine.execStreamPortWake h s
  | .bridleUpdate gang => Sys2Proof.Machine.execBridleUpdate gang s
  | .multicastRelease cluster => Sys2Proof.Machine.execMulticastRelease cluster s
  | .heartbeatTick => Sys2Proof.Machine.execHeartbeatTick s
  | .cacheEviction cluster line => Sys2Proof.Machine.execCacheEviction cluster line s
  | .compaction die => Sys2Proof.Machine.execCompaction die s
  | .patrolScrub pa finding => Sys2Proof.Machine.execPatrolScrub pa finding s
  | .hbmRefresh die bank => Sys2Proof.Machine.execHbmRefresh die bank s
  | .hbmCalibration die channel => Sys2Proof.Machine.execHbmCalibration die channel s
  | .telemetrySampling die => Sys2Proof.Machine.execTelemetrySampling die s
  | .channelService die channel => Sys2Proof.Machine.execChannelService die channel s
  | .engineOperation h q => Sys2Proof.Machine.execEngineOperation h q s
  | .chainRecord h q => Sys2Proof.Machine.execChainRecord h q s
  | .queueFence h q => Sys2Proof.Machine.execQueueFence h q s
  | .collectiveComplete coll peers => Sys2Proof.Machine.execCollectiveComplete coll peers s
  | .haltRequest scope => Sys2Proof.Machine.execHaltRequest scope s
  | .breakpoint h => Sys2Proof.Machine.execBreakpoint h s
  | .freeze core => Sys2Proof.Machine.execFreeze core s
  | .debugResume scope => Sys2Proof.Machine.execDebugResume scope s
  | .stepComplete h => Sys2Proof.Machine.execStepComplete h s
  | .stepTimeout h => Sys2Proof.Machine.execStepTimeout h s
  | .traceStallRelease cluster => Sys2Proof.Machine.execTraceStallRelease cluster s
  | .traceGapRecord cluster => Sys2Proof.Machine.execTraceGapRecord cluster s
  | .debugPortRead core slot target => Sys2Proof.Machine.execDebugPortRead core slot target s
  | .debugPortWrite core slot reg value => Sys2Proof.Machine.execDebugPortWrite core slot reg value s
  | .queueDoorbell fn q record => Sys2Proof.Machine.execQueueDoorbell fn q record s
  | .pree fn v => Sys2Proof.Machine.execPree fn v s
  | .swint fn v => Sys2Proof.Machine.execSwint fn v s
  | .chead fn v => Sys2Proof.Machine.execChead fn v s
  | .bar2Write fn off data => Sys2Proof.Machine.execBar2Write fn off data s
  | .bar2Read fn off size => Sys2Proof.Machine.execBar2Read fn off size s
  | .hostAtomicop fn off op wide operand compare => Sys2Proof.Machine.execHostAtomicop fn off op wide operand compare s
  | .inboundRouteAck stream die => Sys2Proof.Machine.execInboundRouteAck stream die s
  | .portRestart ports => Sys2Proof.Machine.execPortRestart ports s
  | .checkpointSave dest => Sys2Proof.Machine.execCheckpointSave dest s
  | .checkpointRestore source => Sys2Proof.Machine.execCheckpointRestore source s
  | .checkpointComplete => Sys2Proof.Machine.execCheckpointComplete s
  | .attestationRequest buffer => Sys2Proof.Machine.execAttestationRequest buffer s
  | .attestationReport report => Sys2Proof.Machine.execAttestationReport report s
  | .xlatWrite h value => Sys2Proof.Machine.execXlatWrite h value s
  | .configBlockWrite pool value => Sys2Proof.Machine.execConfigBlockWrite pool value s
  | .registerWrite place value => Sys2Proof.Machine.execRegisterWrite place value s
  | .linkGearStep die link sent slots received => Sys2Proof.Machine.execLinkGearStep die link sent slots received s
  | .linkCalibration die link => Sys2Proof.Machine.execLinkCalibration die link s
  | .linkWindowEnd die link => Sys2Proof.Machine.execLinkWindowEnd die link s
  | .flitReplay die link => Sys2Proof.Machine.execFlitReplay die link s
  | .linkFullRetrain die link success => Sys2Proof.Machine.execLinkFullRetrain die link success s
  | .dataFrame port frame crcGood => Sys2Proof.Machine.execDataFrame port frame crcGood s
  | .allowanceFrame port grant ack => Sys2Proof.Machine.execAllowanceFrame port grant ack s
  | .allowanceSend port released => Sys2Proof.Machine.execAllowanceSend port released s
  | .frameResend port => Sys2Proof.Machine.execFrameResend port s
  | .portLost port => Sys2Proof.Machine.execPortLost port s
  | .packageReset => Sys2Proof.Machine.execPackageReset s
  | .droopAlarm core => Sys2Proof.Machine.execDroopAlarm core s
  | .droopHoldEnd core => Sys2Proof.Machine.execDroopHoldEnd core s
  | .powerLimitCheck meanMilliwatts => Sys2Proof.Machine.execPowerLimitCheck meanMilliwatts s
  | .telemetryLine readings => Sys2Proof.Machine.execTelemetryLine readings s
  | .smbusReadTelemetry => Sys2Proof.Machine.execSmbusReadTelemetry s
  | .smbusReadMcRecord n => Sys2Proof.Machine.execSmbusReadMcRecord n s
  | .smbusReadBootFailure => Sys2Proof.Machine.execSmbusReadBootFailure s

end Sys2Proof.Machine
end

