-- ==== Sys2Proof/Machine/Step.lean ====
section
/-! DEFINITION. One step of the package: the turn that the agenda names, or the current core's issue. -/

namespace Sys2Proof.Machine

/-- The end of an event of the package: one whose requests met a link that carries nothing has not happened yet (R374,
R376; log 48). -/
def State.eventDone (before s : State) : State :=
  match s.held with
  | some _ => before.tick
  | none => s.tick

/-- One step (R24, R207, R325; log 1). An agenda entry that names no event of the package lets time pass. -/
noncomputable def step (s : State) : Host.Outcome State Fault Refusal :=
  match s.agenda with
  | .event i :: rest =>
    if i.isEvent then
      match exec i { s with agenda := rest } with
      | .next t => .next (State.eventDone { s with agenda := rest } t)
      | .fault r => .fault r
      | .refused r => .refused r
    else .next (State.tick { s with agenda := rest })
  | .core c :: rest => coreStep decode exec c { s with agenda := rest }
  | [] => coreStep decode exec s.hart.core s

/-- The instruction of a word stored where the boot hart fetches next, every other part of the state as it was:
the word's bytes at the boot vector's home. -/
def State.withFetchWord (s : State) (nbits w : Nat) : State :=
  match s.homeOf s.hart.pc.toNat with
  | some a => { s with mem := Memory.putAll s.mem (cellsFrom a (bytesOf 4 (w % 2 ^ nbits))) }
  | none => s

end Sys2Proof.Machine
end

