-- ==== Sys2Proof/Safety.lean ====
section
/-! DEFINITION. What counts as a safe state and a safe run. -/

namespace Sys2Proof

open Machine

/-- Memory is in its canonical form: the invariant that every step keeps. -/
def Machine.State.wf (s : State) : Bool := Memory.wf s.mem

/-- A step goes on: it answers a next state. -/
def Machine.State.goesOn (s : State) : Prop := ∃ t, step s = .next t

end Sys2Proof
end

