-- ==== Sys2Proof/Certificates/Slice0/Obligations.lean ====
section
/-! DEFINITION. The statements of this row, and what they say things with. Where a title says that something is the
model's, the log entry named there has it. -/

namespace Sys2Proof.Claims

open Machine

/-! ## How an instruction ends -/

/-- The state after an instruction whose only effects are a change of the current hart and its retirement. -/
def after (f : Hart → Hart) (s : State) : State := s.onHart fun h => (f h).retire

/-- The state after an instruction that also sets pc. -/
def afterTo (target : Word) (f : Hart → Hart) (s : State) : State := s.onHart fun h => (f h).retireTo target

/-- The instruction retired. -/
def Retired (s t : State) : Prop := t.hart.fate = .retired ∧ t.hart.instret = s.hart.instret + 1

/-- A register that the stride steps of the running loop may write (R93). -/
def Strides (h : Hart) (r : BitVec 5) : Prop :=
  ∃ l, h.looping = some l ∧ ∃ k < l.depth,
    (h.seqr.slot0.toList.getD k ⟨0, 0⟩).reg = r ∨ (h.seqr.slot1.toList.getD k ⟨0, 0⟩).reg = r

/-- What an instruction that only writes a scalar register leaves unchanged: all but the hart; of the hart all but pc,
the scalar registers, instret and the model's own count beside it (log 17), vprog, the marks of a wait and the sequencer;
of the scalar registers all but the destination and the stride registers of a running loop; of the sequencer everything
where no loop runs; and every byte of memory, as a read of it gives it. -/
def ScalarFrame (d : BitVec 5) (s t : State) : Prop :=
  { t with hart := s.hart } = s ∧
  { t.hart with
      pc := s.hart.pc, x := s.hart.x, instret := s.hart.instret, retired := s.hart.retired, vprog := s.hart.vprog
      wait := s.hart.wait, linkHold := s.hart.linkHold, arrayAt := s.hart.arrayAt, partLoad := s.hart.partLoad
      touched := s.hart.touched, stopAt := s.hart.stopAt, quiet := s.hart.quiet, fate := s.hart.fate, seqr := s.hart.seqr
      dbg := { t.hart.dbg with passBreak := s.hart.dbg.passBreak } } = s.hart ∧
  (∀ r, r ≠ d → ¬ Strides s.hart r → t.hart.rx r = s.hart.rx r) ∧
  (s.hart.looping = none → t.hart.seqr = s.hart.seqr) ∧
  ∀ a, t.dieByte a = s.dieByte a

/-! ## Scalar results in the terms of the spec's tables -/

/-- 1 or 0. -/
def oneIf (p : Prop) [Decidable p] : Word := if p then 1 else 0

/-- Majors 0x01, 0x08 and the register forms of 0x09 (R74, R77, R78): x[A] from x[B] and x[C]. -/
def registerResults : List ((BitVec 5 → BitVec 5 → BitVec 5 → Instr) × (Word → Word → Word)) :=
  [(.add, fun b c => BitVec.ofInt 64 (b.toInt + c.toInt)),
   (.sub, fun b c => BitVec.ofInt 64 (b.toInt - c.toInt)),
   (.and, fun b c => b &&& c),
   (.or, fun b c => b ||| c),
   (.xor, fun b c => b ^^^ c),
   (.sll, fun b c => BitVec.ofNat 64 (b.toNat * 2 ^ (c.toNat % 64))),
   (.srl, fun b c => BitVec.ofNat 64 (b.toNat / 2 ^ (c.toNat % 64))),
   (.sra, fun b c => BitVec.ofInt 64 (b.toInt / (2 ^ (c.toNat % 64) : Nat))),
   (.slt, fun b c => oneIf (b.toInt < c.toInt)),
   (.sltu, fun b c => oneIf (b.toNat < c.toNat)),
   (.min, fun b c => BitVec.ofInt 64 (min b.toInt c.toInt)),
   (.max, fun b c => BitVec.ofInt 64 (max b.toInt c.toInt)),
   (.minu, fun b c => BitVec.ofNat 64 (min b.toNat c.toNat)),
   (.maxu, fun b c => BitVec.ofNat 64 (max b.toNat c.toNat)),
   (.mul, fun b c => BitVec.ofInt 64 (b.toInt * c.toInt)),
   (.mulh, fun b c => BitVec.ofInt 64 (b.toInt * c.toInt / (2 ^ 64 : Nat))),
   (.mulhu, fun b c => BitVec.ofNat 64 (b.toNat * c.toNat / 2 ^ 64)),
   (.mulhsu, fun b c => BitVec.ofInt 64 (b.toInt * (c.toNat : Int) / (2 ^ 64 : Nat))),
   (.div, fun b c =>
      if c = 0 then BitVec.ofInt 64 (-1)
      else if b.toInt = -(2 ^ 63 : Nat) ∧ c.toInt = -1 then BitVec.ofInt 64 (-(2 ^ 63 : Nat))
      else BitVec.ofInt 64 (b.toInt.tdiv c.toInt)),
   (.divu, fun b c => if c = 0 then 0xFFFFFFFFFFFFFFFF#64 else BitVec.ofNat 64 (b.toNat / c.toNat)),
   (.rem, fun b c =>
      if c = 0 then b
      else if b.toInt = -(2 ^ 63 : Nat) ∧ c.toInt = -1 then 0
      else BitVec.ofInt 64 (b.toInt.tmod c.toInt)),
   (.remu, fun b c => if c = 0 then b else BitVec.ofNat 64 (b.toNat % c.toNat)),
   (.andn, fun b c => b &&& ~~~c),
   (.orn, fun b c => b ||| ~~~c),
   (.xnor, fun b c => ~~~(b ^^^ c)),
   (.rol, fun b c => b <<< (c.toNat % 64) ||| b >>> (64 - c.toNat % 64)),
   (.ror, fun b c => b >>> (c.toNat % 64) ||| b <<< (64 - c.toNat % 64))]

/-- The one-source forms of major 0x09 (R78): x[A] from x[B]. -/
def bitResults : List ((BitVec 5 → BitVec 5 → Instr) × (Word → Word)) :=
  [(.clz, fun b => BitVec.ofNat 64 (((List.range 64).find? fun k => b.getLsbD (63 - k)).getD 64)),
   (.ctz, fun b => BitVec.ofNat 64 (((List.range 64).find? fun k => b.getLsbD k).getD 64)),
   (.cpop, fun b => BitVec.ofNat 64 ((List.range 64).filter fun k => b.getLsbD k).length),
   (.rev8, fun b => BitVec.ofNat 64 (natOfBytes (bytesOf 8 b.toNat).reverse)),
   (.brev, fun b => BitVec.ofNat 64 (((List.range 64).map fun k => if b.getLsbD k then 2 ^ (63 - k) else 0).sum)),
   (.sextB, fun b => BitVec.ofInt 64 (b.extractLsb' 0 8).toInt),
   (.sextH, fun b => BitVec.ofInt 64 (b.extractLsb' 0 16).toInt),
   (.sextW, fun b => BitVec.ofInt 64 (b.extractLsb' 0 32).toInt),
   (.zextW, fun b => BitVec.ofNat 64 (b.toNat % 2 ^ 32))]

/-- Majors 0x02 to 0x05 (R75): x[A] from x[B] and imm16. -/
def immediateResults : List ((BitVec 5 → BitVec 5 → BitVec 16 → Instr) × (Word → BitVec 16 → Word)) :=
  [(.addi, fun b i => BitVec.ofInt 64 (b.toInt + i.toInt)),
   (.andi, fun b i => b &&& BitVec.ofNat 64 i.toNat),
   (.ori, fun b i => b ||| BitVec.ofNat 64 i.toNat),
   (.xori, fun b i => b ^^^ BitVec.ofNat 64 i.toNat)]

/-- The shifts by an immediate (R78). -/
def shiftResults : List ((BitVec 5 → BitVec 5 → BitVec 6 → Instr) × (Word → BitVec 6 → Word)) :=
  [(.slli, fun b i => BitVec.ofNat 64 (b.toNat * 2 ^ i.toNat)),
   (.srli, fun b i => BitVec.ofNat 64 (b.toNat / 2 ^ i.toNat)),
   (.srai, fun b i => BitVec.ofInt 64 (b.toInt / (2 ^ i.toNat : Nat))),
   (.rori, fun b i => b >>> i.toNat ||| b <<< (64 - i.toNat))]

/-- The comparisons with imm11 (R78). -/
def compareResults : List ((BitVec 5 → BitVec 5 → BitVec 11 → Instr) × (Word → BitVec 11 → Word)) :=
  [(.slti, fun b i => oneIf (b.toInt < i.toInt)),
   (.sltiu, fun b i => oneIf (b.toNat < (BitVec.ofInt 64 i.toInt).toNat)),
   (.seqi, fun b i => oneIf (b.toInt = i.toInt))]

end Sys2Proof.Claims

/-- The two-source scalar instructions of majors 0x01, 0x08 and 0x09 (R74, R77, R78) complete in every state: x[A]
receives the value of the table (x0 discards it), and the instruction retires. -/
def Sys2Proof.Claims.RegisterArithmeticResults : Prop :=
  ∀ p ∈ Sys2Proof.Claims.registerResults, ∀ (d a b : BitVec 5) (s : Sys2Proof.Machine.State),
    Sys2Proof.Machine.exec (p.1 d a b) s =
      .next (Sys2Proof.Claims.after (Sys2Proof.Machine.Hart.wx d (p.2 (s.hart.rx a) (s.hart.rx b))) s)

/-- The one-source forms of major 0x09 (R78) complete in every state with the value of the table. -/
def Sys2Proof.Claims.BitManipulationResults : Prop :=
  ∀ p ∈ Sys2Proof.Claims.bitResults, ∀ (d a : BitVec 5) (s : Sys2Proof.Machine.State),
    Sys2Proof.Machine.exec (p.1 d a) s =
      .next (Sys2Proof.Claims.after (Sys2Proof.Machine.Hart.wx d (p.2 (s.hart.rx a))) s)

/-- The immediate forms of majors 0x02 to 0x07 and 0x09 (R75, R78) complete in every state: LHI gives imm16 × 2^16
sign-extended, LPC the address of the LPC plus that. -/
def Sys2Proof.Claims.ImmediateArithmeticResults : Prop :=
  ∀ (d a : BitVec 5) (s : Sys2Proof.Machine.State),
    (∀ p ∈ Sys2Proof.Claims.immediateResults, ∀ i : BitVec 16, Sys2Proof.Machine.exec (p.1 d a i) s =
      .next (Sys2Proof.Claims.after (Sys2Proof.Machine.Hart.wx d (p.2 (s.hart.rx a) i)) s)) ∧
    (∀ p ∈ Sys2Proof.Claims.shiftResults, ∀ i : BitVec 6, Sys2Proof.Machine.exec (p.1 d a i) s =
      .next (Sys2Proof.Claims.after (Sys2Proof.Machine.Hart.wx d (p.2 (s.hart.rx a) i)) s)) ∧
    (∀ p ∈ Sys2Proof.Claims.compareResults, ∀ i : BitVec 11, Sys2Proof.Machine.exec (p.1 d a i) s =
      .next (Sys2Proof.Claims.after (Sys2Proof.Machine.Hart.wx d (p.2 (s.hart.rx a) i)) s)) ∧
    (∀ i : BitVec 16, Sys2Proof.Machine.exec (.lhi d i) s =
      .next (Sys2Proof.Claims.after (Sys2Proof.Machine.Hart.wx d (BitVec.ofInt 64 (i.toInt * 65536))) s)) ∧
    ∀ i : BitVec 16, Sys2Proof.Machine.exec (.lpc d i) s =
      .next (Sys2Proof.Claims.after
        (Sys2Proof.Machine.Hart.wx d (BitVec.ofInt 64 (s.hart.pc.toNat + i.toInt * 65536))) s)

/-- The frame of every scalar integer instruction of majors 0x01 to 0x09 (R73, R74, R75, R77, R78): it writes x[A]
alone; a running loop's advance may write its stride registers (R93). -/
def Obligations.ScalarIntegerFrame : Prop :=
  ∀ (d a : BitVec 5) (s t : Sys2Proof.Machine.State),
    ((∃ p ∈ Sys2Proof.Claims.registerResults, ∃ b, Sys2Proof.Machine.exec (p.1 d a b) s = .next t) ∨
     (∃ p ∈ Sys2Proof.Claims.bitResults, Sys2Proof.Machine.exec (p.1 d a) s = .next t) ∨
     (∃ p ∈ Sys2Proof.Claims.immediateResults, ∃ i, Sys2Proof.Machine.exec (p.1 d a i) s = .next t) ∨
     (∃ p ∈ Sys2Proof.Claims.shiftResults, ∃ i, Sys2Proof.Machine.exec (p.1 d a i) s = .next t) ∨
     (∃ p ∈ Sys2Proof.Claims.compareResults, ∃ i, Sys2Proof.Machine.exec (p.1 d a i) s = .next t) ∨
     (∃ i, Sys2Proof.Machine.exec (.lhi d i) s = .next t) ∨
     (∃ i, Sys2Proof.Machine.exec (.lpc d i) s = .next t)) →
    Sys2Proof.Claims.ScalarFrame d s t

/-- The branches (R29, R82) complete in every state: taken, pc becomes the branch's address plus offset16 × 4; not
taken, the next word follows. Nothing else of the hart but what retirement changes is written. -/
def Sys2Proof.Claims.BranchesGoWhereTheySay : Prop :=
  ∀ (a b : BitVec 5) (o : BitVec 16) (s : Sys2Proof.Machine.State),
    (Sys2Proof.Machine.exec (.beq a b o) s =
      .next (if s.hart.rx a = s.hart.rx b
        then Sys2Proof.Claims.afterTo (BitVec.ofInt 64 (s.hart.pc.toNat + 4 * o.toInt)) id s
        else Sys2Proof.Claims.after id s)) ∧
    (Sys2Proof.Machine.exec (.bne a b o) s =
      .next (if s.hart.rx a = s.hart.rx b
        then Sys2Proof.Claims.after id s
        else Sys2Proof.Claims.afterTo (BitVec.ofInt 64 (s.hart.pc.toNat + 4 * o.toInt)) id s))

/-- JAL and JALR (R29, R83) complete in every state: x[A] receives pc + 4, JALR's target is read before it. -/
def Sys2Proof.Claims.JumpsLink : Prop :=
  ∀ (d a : BitVec 5) (o : BitVec 21) (s : Sys2Proof.Machine.State),
    Sys2Proof.Machine.exec (.jal d o) s =
      .next (Sys2Proof.Claims.afterTo (BitVec.ofInt 64 (s.hart.pc.toNat + 4 * o.toInt))
        (Sys2Proof.Machine.Hart.wx d (BitVec.ofNat 64 (s.hart.pc.toNat + 4))) s) ∧
    Sys2Proof.Machine.exec (.jalr d a) s =
      .next (Sys2Proof.Claims.afterTo (s.hart.rx a)
        (Sys2Proof.Machine.Hart.wx d (BitVec.ofNat 64 (s.hart.pc.toNat + 4))) s)

/-- Retirement outside a loop body (R23, R24, R110): instret counts the instruction, vprog becomes 0, pc advances by 4,
the registers and the sequencer stay. -/
def Sys2Proof.Claims.RetirementOutsideALoop : Prop :=
  ∀ h : Sys2Proof.Machine.Hart, h.looping = none →
    h.retire.instret = h.instret + 1 ∧ h.retire.vprog = 0 ∧ h.retire.pc = h.pc + 4 ∧ h.retire.x = h.x ∧
    h.retire.seqr = h.seqr ∧ h.retire.wait = none

namespace Sys2Proof.Claims

open Machine

/-! ## The machine around an instruction -/

/-- The state in which a step issues for a core: the agenda's first entry names it, or the current core goes on. -/
def Issues (s s0 : State) (c : Nat) : Prop :=
  (s.agenda = [] ∧ s0 = s ∧ c = s.hart.core) ∨ (∃ rest, s.agenda = .core c :: rest ∧ s0 = { s with agenda := rest })

/-- The entry of a synchronous trap is an ordinary one: neither a migrate trap nor a double trap (R328, R329, R343). -/
def EntersHandler (intr : Bool) (code : BitVec 8) (s : State) : Prop :=
  intr = true ∨ (code ≠ 0x07 ∧ (if s.hart.toFirmware intr code then s.hart.fw else s.hart.sup).stat.nest = false)

/-- A trap or an interrupt enters the firmware vector (R328). -/
def ToFirmware (intr : Bool) (code : BitVec 8) (h : Hart) : Prop :=
  h.priv = .firmware ∨ (intr = false ∧ (code = 0x07 ∨ code = 0x11 ∨ (code = 0x10 ∧ h.priv = .supervisor)))

/-- A hart waits in an instruction that runs from its start when it is stopped: a stream-port instruction or a chained
MODE.M (R174, R317). -/
def WaitsFromStart (h : Hart) : Prop :=
  h.wait = some .chain ∨ h.wait = some .broken ∨ ∃ k, h.wait = some (.port k) ∨ h.wait = some (.flowing k)

/-- The registers of the vector that a trap enters (R327, R328); the vprog that it saves is that of the instruction, 0 for
one that runs from its start (R317), or the groups that a load which waits within has committed (R110). -/
def SavedAt (intr : Bool) (acc : BitVec 4) (code : BitVec 8) (tval : Word) (h : Hart) (old new : TrapBank) : Prop :=
  new.cause = BitVec.ofNat 64 (2 ^ 63 * intr.toNat + 256 * acc.toNat + code.toNat) ∧ new.epc = h.pc ∧ new.tval = tval ∧
  new.stat.ppriv = h.priv.code ∧ new.stat.pgated = h.gated ∧ new.stat.lp = h.looping.isSome ∧
  (¬ WaitsFromStart h → h.partLoad = none → new.stat.pvprog = h.vprog) ∧ (WaitsFromStart h → new.stat.pvprog = 0) ∧
  (¬ WaitsFromStart h → ∀ p, h.partLoad = some p → new.stat.pvprog = BitVec.ofNat 7 p.group) ∧
  new.stat.pie = old.stat.ie ∧ new.stat.ie = false ∧ new.stat.nest = true

/-- What a trap entry never changes (R328). -/
def TrapKeeps (h k : Hart) : Prop :=
  k.x = h.x ∧ k.v = h.v ∧ k.m = h.m ∧ k.mid = h.mid ∧ k.mmode = h.mmode ∧ k.vl = h.vl ∧ k.vtype = h.vtype ∧
  k.mode = h.mode ∧ k.cells = h.cells ∧ k.flags = h.flags ∧ k.flagEn = h.flagEn ∧ k.srgen = h.srgen ∧
  k.instret = h.instret ∧ k.fm = h.fm ∧ k.dq = h.dq

/-- The condition of R325 under which no event of a debugger or a pre-emption comes first at a boundary: no breakpoint
fires, no pre-emption is requested, and no instruction is in flight (a WLWAIT or WFI that waits, a load or a multiply that is
partly done, or one that a forced stop lands in). -/
def OnlyInterrupts (s : State) : Prop :=
  (s.hart.dbg.passBreak = true ∨ s.hart.breakpointHit = none) ∧ s.myGang.pre = none ∧ s.hart.stopAt = none ∧
    s.hart.partLoad = none ∧ s.hart.arrayAt = 0 ∧
    s.hart.wait ≠ some .interrupt ∧ ∀ start limit, s.hart.wait ≠ some (.wakeLine start limit)

/-- No freeze covers the current hart (R354). -/
def Unfrozen (s : State) : Prop := ∀ f ∈ s.freezes, freezeCovers f s.hart.core = false

/-- The body of a loop is not replayed, and no boundary event is due (R325). -/
def PlainIssue (s : State) : Prop := OnlyInterrupts s ∧ s.interruptDue s.hart = none ∧ s.hart.looping = none

end Sys2Proof.Claims

/-- A step runs the decoded instruction (R24, R207): when the core's next hart has passed its boundary, its fetch and
its tokens with word w, and w decodes to i, the step is exec of i, followed by the discard of a load that a stop meets or by
what a loop's changed body word leaves (`outcome`; log 71), and by what ends an issue (`finish`); a word that decodes to nothing takes the illegal-instruction trap with the
word as its value (R34). Where no request met a closed link and no stop lands, that end is the instruction's records and the
passing of time. An issue that ends before its instruction ends with its trap or stop; with no hart ready time passes. An
event at the head of the agenda is that event's exec followed by time, once no link stands in its way. That an agenda names
who moves, one event a step, is the model's choice (log 1), and that a step whose requests meet a closed link (`held`) is not
taken is the model's too (log 48). -/
def Obligations.StepRunsTheDecodedInstruction : Prop :=
  (∀ (s s0 u t : Sys2Proof.Machine.State) (c : Nat) (w : BitVec 32), Sys2Proof.Claims.Issues s s0 c →
    s0.pick c = some u → Sys2Proof.Machine.prepare u = .ok w t →
    (∀ i v, Sys2Proof.decode w = some i → Sys2Proof.Machine.exec i t = .next v →
      Sys2Proof.Machine.step s =
        .next (Sys2Proof.Machine.State.finish u t w (Sys2Proof.Machine.State.outcome t w v)) ∧
      (v.held = none → t.hart.stopAt = none → t.freezes = [] → t.hart.breached = false → Sys2Proof.Machine.step s =
        .next (Sys2Proof.Machine.State.settle t w v).tick)) ∧
    (Sys2Proof.decode w = none → Sys2Proof.Machine.step s =
      .next (Sys2Proof.Machine.State.finish u t w (t.takeTrap false 0 0x05 (w.setWidth 64))))) ∧
  (∀ (s s0 u t : Sys2Proof.Machine.State) (c : Nat), Sys2Proof.Claims.Issues s s0 c →
    s0.pick c = some u → Sys2Proof.Machine.prepare u = .error () t →
    Sys2Proof.Machine.step s = .next (Sys2Proof.Machine.State.finishEarly u t)) ∧
  (∀ (s s0 : Sys2Proof.Machine.State) (c : Nat), Sys2Proof.Claims.Issues s s0 c → s0.pick c = none →
    Sys2Proof.Machine.step s = .next s0.tick) ∧
  (∀ (s v : Sys2Proof.Machine.State) (i : Sys2Proof.Instr) (rest : List Sys2Proof.Machine.Turn),
    s.agenda = .event i :: rest → i.isEvent = true → Sys2Proof.Machine.exec i { s with agenda := rest } = .next v →
    Sys2Proof.Machine.step s = .next (if v.held.isSome then { s with agenda := rest }.tick else v.tick))

/-- The word that issues is the one in memory (R24, R38): with translation off, no event due and no token pending, the
word at pc is the four bytes there, lowest address lowest, and the hart goes to its instruction with its registers and
memory as they were. -/
def Sys2Proof.Claims.FetchReadsTheBytesAtPc : Prop :=
  ∀ (s : Sys2Proof.Machine.State) (home : Nat) (cached : Bool) (w : BitVec 32),
    Sys2Proof.Claims.PlainIssue s → s.hart.pc.toNat % 4 = 0 → s.hart.pc.toNat < 0x1000000000000 →
    s.hart.xlat.en = false → s.placeOf s.hart.pc.toNat true = .ok (.device s.hart.pc.toNat home cached) →
    s.lineAt s.hart.cluster s.hart.pc.toNat = none → s.readerLine home = none →
    (s.die (Sys2Proof.Machine.homeDie home)).dropped = [] → s.poisoned home 4 = false →
    s.hart.ibuf = [] → s.priors = [] → s.loose = [] → s.hart.pending = [] → s.errors = [] → s.localErrors = [] →
    w = Sys2Proof.Machine.Memory.get s.mem (home + 3) ++ Sys2Proof.Machine.Memory.get s.mem (home + 2) ++
      Sys2Proof.Machine.Memory.get s.mem (home + 1) ++ Sys2Proof.Machine.Memory.get s.mem home →
    ∃ t, Sys2Proof.Machine.prepare s = .ok w t ∧ t.hart.word = w ∧ t.hart.pc = s.hart.pc ∧ t.hart.x = s.hart.x ∧
      t.mem = s.mem

/-- A misaligned pc takes the misaligned-fetch trap at that pc, before any fetch (R24, R83). -/
def Sys2Proof.Claims.MisalignedFetchTraps : Prop :=
  ∀ s : Sys2Proof.Machine.State, Sys2Proof.Claims.OnlyInterrupts s → s.interruptDue s.hart = none →
    s.hart.pc.toNat % 4 ≠ 0 →
    Sys2Proof.Machine.prepare s = .error () (s.takeTrap false 4 0x01 s.hart.pc)

/-- Every step from a state whose memory is canonical leaves it canonical: addresses strictly rising, no entry equal to
what an unlisted byte reads as. -/
def Obligations.StepsKeepMemoryCanonical : Prop :=
  ∀ s t : Sys2Proof.Machine.State, s.wf = true → Sys2Proof.Machine.step s = .next t → t.wf = true

/-- What a machine after reset holds (R14, R25, R428): the boot hart at firmware level in vector mode, its scalar
registers, counters and format registers at the values of the table of R25, fm0 at FP64; memory lists nothing and is
canonical. The boot vector's address is Config's (log 12); that memory is empty, every unlisted byte reading 0, is the
model's choice (log 4). -/
def Obligations.ResetHoldsTheTableOfR25 : Prop :=
  let h := Sys2Proof.Machine.State.reset.hart
  h.pc = Sys2Proof.Config.bootVector ∧ h.priv = .firmware ∧ (∀ r, h.rx r = 0) ∧
  h.fm.toList = [0x000CCC#24, 0, 0, 0, 0, 0, 0, 0] ∧ h.flags = 0 ∧ h.flagEn = 0 ∧ h.hartidx = 0 ∧ h.stage = 0 ∧
  h.gx = 0 ∧ h.gy = 0 ∧ h.gz = 0 ∧ h.vl = 0 ∧ h.vprog = 0 ∧ h.mode = none ∧ h.instret = 0 ∧ h.msc = 0 ∧ h.moff = 0 ∧
  h.rcount = 0 ∧ Sys2Proof.Machine.State.reset.mem = [] ∧ Sys2Proof.Machine.State.reset.wf = true

/-- Decoding the word of any well-formed instruction gives the instruction back, every operand at every value that its
encoding admits. -/
def Obligations.DecodingInvertsEncoding : Prop :=
  ∀ i : Sys2Proof.Instr, i.isEvent = false → i.wellFormed = true → Sys2Proof.decode (Sys2Proof.encode i) = some i

/-- Words that the spec writes out decode to the instructions they stand for: MODE.M, MODE.V, WLARM, LD.AQ, FENCE.RL,
FENCE.SC, FENCE.I, VMV.X.S, QFENCE, SLTI; the word of all zeros decodes to none. -/
def Obligations.SpecWordsDecode : Prop :=
  Sys2Proof.decode 0xD8000011#32 = some (.modeM 0 0 1) ∧
  Sys2Proof.decode 0xDA000020#32 = some (.modeV 16) ∧
  Sys2Proof.decode 0x5C150000#32 = some (.wlarm 21) ∧
  Sys2Proof.decode 0x5195006D#32 = some (.ldAq 12 21 0 0 3) ∧
  Sys2Proof.decode 0x580C000A#32 = some (.fenceRl 12 2) ∧
  Sys2Proof.decode 0x59A00010#32 = some (.fenceSc 13) ∧
  Sys2Proof.decode 0x58000020#32 = some .fenceI ∧
  Sys2Proof.decode 0xB1EA0000#32 = some (.vmvXS 15 10) ∧
  Sys2Proof.decode 0xF5E40001#32 = some (.qfence 15 4 0) ∧
  Sys2Proof.decode 0x2585F93D#32 = some (.slti 12 5 0x7FD) ∧
  Sys2Proof.decode 0#32 = none

/-- Taking a trap or an interrupt (R328): the registers of the vector it enters receive the cause, the pc and the
value, the level, the gating, the loop and vprog; the level rises, gating and vprog clear, pc goes to the vector's base,
a running loop is suspended; the other vector's registers, the registers and masks, the arithmetic state and memory
stay. That the saved lp tells of a loop that runs, 0 where it is already suspended, is the model's reading (log 30). -/
def Obligations.TrapEntrySavesAndVectors : Prop :=
  ∀ (s : Sys2Proof.Machine.State) (intr : Bool) (acc : BitVec 4) (code : BitVec 8) (tval : Sys2Proof.Word),
    Sys2Proof.Claims.EntersHandler intr code s →
    let t := s.takeTrap intr acc code tval
    (Sys2Proof.Claims.ToFirmware intr code s.hart →
      Sys2Proof.Claims.SavedAt intr acc code tval s.hart s.hart.fw t.hart.fw ∧ t.hart.sup = s.hart.sup ∧
      t.hart.priv = .firmware ∧ t.hart.pc = s.hart.fvec ++ 0#2) ∧
    (¬ Sys2Proof.Claims.ToFirmware intr code s.hart →
      Sys2Proof.Claims.SavedAt intr acc code tval s.hart s.hart.sup t.hart.sup ∧ t.hart.fw = s.hart.fw ∧
      t.hart.priv = .supervisor ∧ t.hart.pc = s.hart.trapvec ++ 0#2) ∧
    t.hart.gated = false ∧ t.hart.vprog = 0 ∧ t.hart.seqr.loop = s.hart.seqr.loop ∧
    t.hart.seqr.suspended = s.hart.seqr.loop.isSome ∧ Sys2Proof.Claims.TrapKeeps s.hart t.hart ∧ t.mem = s.mem ∧
    t.parked = s.parked

/-- A synchronous trap into a vector whose nest bit is 1 is a double trap (R329): the firmware copies name it and the
trapping instruction, the hart and its partners have exited, and the gang has ended without a save. -/
def Obligations.DoubleTrapEndsTheGang : Prop :=
  ∀ (s : Sys2Proof.Machine.State) (acc : BitVec 4) (code : BitVec 8) (tval : Sys2Proof.Word), code ≠ 0x07 →
    (if s.hart.toFirmware false code then s.hart.fw else s.hart.sup).stat.nest = true → s.hart.run ≠ .gone →
    (∃ g ∈ s.gangs, g.key = s.hart.name.gang) →
    let t := s.takeTrap false acc code tval
    t.hart.fw.cause = 0x11 ∧ t.hart.fw.epc = s.hart.pc ∧ t.hart.fw.tval = 0 ∧ t.hart.run = .exited ∧
    (∀ k ∈ t.harts, k.name.gang = s.hart.name.gang → k.run = .exited ∨ k.run = .gone) ∧
    (∀ g ∈ t.gangs, g.key = s.hart.name.gang → g.ended = true) ∧ t.saved = s.saved

/-- TRET (R334) from a level that may run it: the level, the gating, vprog and pc come back from the registers of the
vector it leaves, ie takes pie, nest and lp clear, a suspended loop whose body holds the saved pc goes on at that word,
otherwise an active lp resets the sequencer, and TRET retires; a saved level of 0b10, or above the hart's, is illegal. -/
def Obligations.TrapReturnRestores : Prop :=
  ∀ s : Sys2Proof.Machine.State, s.hart.priv ≠ .user →
    let b := if s.hart.priv = .firmware then s.hart.fw else s.hart.sup
    let low : Bool := b.stat.ppriv != 2 && decide (b.stat.ppriv.toNat ≤ s.hart.priv.code.toNat)
    (low = false → Sys2Proof.Machine.exec .tret s =
      .next (s.takeTrap false 0 0x05 (s.hart.word.setWidth 64))) ∧
    (low = true → ∃ t, Sys2Proof.Machine.exec .tret s = .next t ∧ Sys2Proof.Claims.Retired s t ∧
      t.hart.priv.code = b.stat.ppriv ∧ t.hart.gated = b.stat.pgated ∧ t.hart.vprog = b.stat.pvprog ∧
      t.hart.pc = b.epc ∧
      (if s.hart.priv = .firmware then t.hart.fw.stat else t.hart.sup.stat) =
        { b.stat with ie := b.stat.pie, nest := false, lp := false } ∧
      (b.stat.lp = false → t.hart.seqr = s.hart.seqr) ∧
      (b.stat.lp = true → ∀ l, s.hart.seqr.loop = some l → s.hart.seqr.suspended = true →
        ∀ k < l.body.length, b.epc = l.base + BitVec.ofNat 64 (4 * k) → l.body.length ≤ 64 →
          t.hart.seqr.suspended = false ∧ t.hart.seqr.loop = some { l with pos := k }) ∧
      (b.stat.lp = true → (∀ l, s.hart.seqr.loop = some l → ∀ k < l.body.length,
          b.epc ≠ l.base + BitVec.ofNat 64 (4 * k)) → t.hart.seqr = Sys2Proof.Machine.Sequencer.reset) ∧
      Sys2Proof.Claims.TrapKeeps s.hart { t.hart with instret := s.hart.instret } ∧ t.mem = s.mem)

/-- An interrupt is taken at a boundary (R323, R325): where neither a debug stop nor a pre-emption comes first and the
interrupt-enable bit of the hart's level is 1, an event comes before a software interrupt before the timer, and the
instruction at pc is not fetched. With the bit 0 none is taken. The firmware copy governs at firmware level (log 14). -/
def Obligations.InterruptsAreTakenInOrder : Prop :=
  ∀ s : Sys2Proof.Machine.State, Sys2Proof.Claims.OnlyInterrupts s →
    let on := if s.hart.priv = .firmware then s.hart.fw.stat.ie else s.hart.sup.stat.ie
    let event := s.hart.eve = true ∧ s.hart.sevent ≠ 0
    let software := s.hart.swe = true ∧ s.hart.swp = true
    let timer := s.hart.tie = true ∧ s.hart.stimecmp.toNat ≤ s.time.toNat
    (on = true → event →
      Sys2Proof.Machine.prepare s = .error () (s.takeTrap true 0 3 (s.hart.sevent.setWidth 64))) ∧
    (on = true → ¬ event → software → Sys2Proof.Machine.prepare s = .error () (s.takeTrap true 0 2 0)) ∧
    (on = true → ¬ event → ¬ software → timer → Sys2Proof.Machine.prepare s = .error () (s.takeTrap true 0 1 0)) ∧
    (on = false → s.interruptDue s.hart = none)

/-- The system instructions (R335, R336, R337): TFENCE traps with code 0x0F on an enabled flag, pc at it and no flag
changed, and retires otherwise; ECALL takes the trap of its level, at firmware level the illegal-instruction trap; WFI
retires where something that wakes it is pending and waits otherwise. Below supervisor level TRET and WFI take the
privilege trap. -/
def Obligations.SystemInstructions : Prop :=
  ∀ s : Sys2Proof.Machine.State,
    (s.hart.flags &&& s.hart.flagEn ≠ 0 → Sys2Proof.Machine.exec .tfence s =
      .next (s.takeTrap false 0 0x0F ((s.hart.flags &&& s.hart.flagEn).setWidth 64))) ∧
    (s.hart.flags &&& s.hart.flagEn = 0 → Sys2Proof.Machine.exec .tfence s = .next (Sys2Proof.Claims.after id s)) ∧
    (s.hart.priv ≠ .firmware → Sys2Proof.Machine.exec .ecall s = .next (s.takeTrap false 0 0x10 0)) ∧
    (s.hart.gated = false → s.hart.flags &&& s.hart.flagEn ≠ 0 → Sys2Proof.Machine.exec .exit s =
      .next (s.takeTrap false 0 0x0F ((s.hart.flags &&& s.hart.flagEn).setWidth 64))) ∧
    (s.hart.priv = .user → s.hart.sup.stat.nest = false → ∃ t, Sys2Proof.Machine.exec .ecall s = .next t ∧
      t.hart.priv = .supervisor ∧ t.hart.pc = s.hart.trapvec ++ 0#2 ∧ t.hart.sup.cause = 0x10 ∧
      t.hart.sup.epc = s.hart.pc ∧ t.hart.sup.tval = 0) ∧
    (s.hart.priv = .supervisor → s.hart.fw.stat.nest = false → ∃ t, Sys2Proof.Machine.exec .ecall s = .next t ∧
      t.hart.priv = .firmware ∧ t.hart.pc = s.hart.fvec ++ 0#2 ∧ t.hart.fw.cause = 0x10 ∧
      t.hart.fw.epc = s.hart.pc ∧ t.hart.fw.tval = 0 ∧ t.hart.sup = s.hart.sup) ∧
    (s.hart.priv = .firmware → Sys2Proof.Machine.exec .ecall s =
      .next (s.takeTrap false 0 0x05 (s.hart.word.setWidth 64))) ∧
    (s.hart.priv ≠ .user → s.wakePending s.hart = true → Sys2Proof.Machine.exec .wfi s =
      .next (s.onHart fun h => { h.retire with quiet := true })) ∧
    (s.hart.priv ≠ .user → s.wakePending s.hart = false → Sys2Proof.Machine.exec .wfi s =
      .next (s.onHart (Sys2Proof.Machine.Hart.await .interrupt))) ∧
    (s.hart.priv = .user → ∀ i ∈ [Sys2Proof.Instr.tret, .wfi], Sys2Proof.Machine.exec i s =
      .next (s.takeTrap false 0 0x06 (s.hart.word.setWidth 64))) ∧
    (s.wakePending s.hart = true ↔ (s.hart.eve = true ∧ s.hart.sevent ≠ 0) ∨ (s.hart.swe = true ∧ s.hart.swp = true) ∨
      (s.hart.tie = true ∧ s.hart.stimecmp.toNat ≤ s.time.toNat) ∨ s.myGang.pre ≠ none ∨ s.hart.dbg.step = true ∨
      s.hart.dbg.stepping = true ∨
      (s.hart.frozen = false ∧ ∃ f ∈ s.freezes, Sys2Proof.Machine.freezeCovers f s.hart.core = true))

namespace Sys2Proof.Claims

open Machine

/-! ## Accesses of the current hart -/

/-- An access of n bytes passes checks 2 and 3 of R243: its place, and the state after the translation that it walked,
which the hart then holds (R222, R230, R231). -/
def Reaches (k : Access) (va : Word) (n : Nat) (p : Place) (s s1 : State) : Prop :=
  ∃ tr s0, resolve (s.agentOf s.hart) s.hart.tlb k va n s = (.ok (p, tr), s0) ∧ s1 = s0.onHart (Hart.hold tr)

/-- No address-side watchpoint stops an access (R352). -/
def Unwatched (k : Access) (va : Word) (n : Nat) (s : State) : Prop := s.hart.watchHit k va.toNat n = none

/-- A load of n bytes at an aligned address passes every check of R243 and gives bytes: the state after it. -/
def Loads (va : Word) (n : Nat) (hints : Hints) (d : List Byte) (s t : State) : Prop :=
  va.toNat % n = 0 ∧ ∃ p s1 s2, Reaches .load va n p s s1 ∧ Unwatched .load va n s1 ∧
    s1.loadAt (s1.agentOf s1.hart) p n hints = ((d, false), s2) ∧ t = s2.dropAfter (s2.agentOf s2.hart) p hints.last

/-- A store of bytes at an aligned address passes every check of R243: the state after it. -/
def Stores (va : Word) (d : List Byte) (cls : BitVec 4) (hints : Hints) (s t : State) : Prop :=
  va.toNat % d.length = 0 ∧ ∃ p s1, Reaches .store va d.length p s s1 ∧ Unwatched .store va d.length s1 ∧
    t = (s1.storeAt (s1.agentOf s1.hart) p d cls hints.prio .plain).dropAfter
      ((s1.storeAt (s1.agentOf s1.hart) p d cls hints.prio .plain).agentOf
        (s1.storeAt (s1.agentOf s1.hart) p d cls hints.prio .plain).hart) p hints.last

/-- The eight bytes of a word, lowest first. -/
def wordBytes (w : Word) : List Byte := bytesOf 8 w.toNat

/-- The vector-state word of a hart (R84). -/
def stateWord (h : Hart) : Nat :=
  h.vl.toNat + 2 ^ 32 * (match h.vtype with
    | none => 0x8000
    | some t => t.ew.code.toNat + 16 * t.lg.toNat) + 2 ^ 48 * h.mid.toNat + 2 ^ 51 * h.mmode.toNat

/-- A body of a loop holds no word that R94 forbids: none of majors 0x0C to 0x0F, 0x1A and 0x1E, no TRET, ECALL or WFI
(R333), no EXIT or YIELD (R209). -/
def BodyAllowed (body : List (BitVec 32)) : Prop :=
  ∀ w ∈ body, let major := w.toNat / 2 ^ 26
    major ∉ [0x0C, 0x0D, 0x0E, 0x0F, 0x1A, 0x1E] ∧ (major = 0x19 → w.toNat % 2 ^ 11 ∉ [0, 2, 3]) ∧
      (major = 0x1C → w.toNat % 2 ^ 11 ∉ [3, 4])

end Sys2Proof.Claims

/-- CALL.V (R84, R85): with sp aligned to 16 and both stores reaching memory, pc + 4 and the vector-state word lie at
sp − 16 and sp − 8, sp falls by 16, and control goes to x[B]; a misaligned sp traps as a store at sp − 16. -/
def Sys2Proof.Claims.CallSavesTheVectorState : Prop :=
  ∀ (a : BitVec 5) (s : Sys2Proof.Machine.State),
    let sp := s.hart.rx 2
    (sp.toNat % 16 ≠ 0 → Sys2Proof.Machine.exec (.callV a) s = .next (s.takeTrap false 2 0x08 (sp - 16))) ∧
    (∀ p q s1 s2, sp.toNat % 16 = 0 → Sys2Proof.Claims.Reaches .store (sp - 16) 8 p s s1 →
      Sys2Proof.Claims.Unwatched .store (sp - 16) 8 s1 → Sys2Proof.Claims.Reaches .store (sp - 8) 8 q s1 s2 →
      Sys2Proof.Claims.Unwatched .store (sp - 8) 8 s2 →
      let s3 := s2.storeAt (s2.agentOf s2.hart) p (Sys2Proof.Claims.wordBytes (s.hart.pc + 4)) 0 0 .plain
      let s4 := s3.storeAt (s3.agentOf s3.hart) q
        (Sys2Proof.Machine.bytesOf 8 (Sys2Proof.Claims.stateWord s.hart)) 0 0 .plain
      Sys2Proof.Machine.exec (.callV a) s =
        .next (Sys2Proof.Claims.afterTo (s.hart.rx a) (Sys2Proof.Machine.Hart.wx 2 (sp - 16)) s4))

/-- RET.V (R86): where a pre-emption request is pending outside matrix mode and no freeze covers the hart (R342), it stops
at its preferred point with no effect; otherwise both words are read, a defined popped type and clear reserved
bits give back vl (cut to VLMAX), type, mask id and mask mode, sp rises by 16 and control goes to the popped address; an
undefined type or a reserved bit is illegal; a misaligned sp traps as a load at sp. Every vector register is unspecified
after it until it is written (R129; log 31). That RET.V completes in matrix mode is the model's reading (log 30). -/
def Sys2Proof.Claims.ReturnRestoresTheVectorState : Prop :=
  ∀ (s : Sys2Proof.Machine.State),
    let sp := s.hart.rx 2
    (s.myGang.pre ≠ none → s.hart.mode = none → Sys2Proof.Claims.Unfrozen s → Sys2Proof.Machine.exec .retV s =
      .next (s.onHart (Sys2Proof.Machine.Hart.stop .preferred))) ∧
    (s.myGang.pre = none ∨ s.hart.mode ≠ none ∨ ¬ Sys2Proof.Claims.Unfrozen s →
    (sp.toNat % 16 ≠ 0 → Sys2Proof.Machine.exec .retV s = .next (s.takeTrap false 1 0x08 sp)) ∧
    (∀ r d s1 s2, sp.toNat % 16 = 0 → Sys2Proof.Claims.Loads sp 8 Sys2Proof.Machine.Hints.none r s s1 →
      Sys2Proof.Claims.Loads (sp + 8) 8 Sys2Proof.Machine.Hints.none d s1 s2 →
      let w := Sys2Proof.Machine.natOfBytes d
      let ty := w / 2 ^ 32 % 2 ^ 16
      let back := Sys2Proof.Claims.afterTo (BitVec.ofNat 64 (Sys2Proof.Machine.natOfBytes r))
      (w < 2 ^ 53 → ty = 0x8000 → Sys2Proof.Machine.exec .retV s = .next (back (fun h =>
        { h with unsure := List.range 32, vl := 0, vtype := none, vprog := 0, mid := BitVec.ofNat 3 (w / 2 ^ 48),
                 mmode := BitVec.ofNat 2 (w / 2 ^ 51) }.wx 2 (sp + 16)) s2)) ∧
      (∀ t : Sys2Proof.Machine.TypeState, w < 2 ^ 53 → ty = t.ew.code.toNat + 16 * t.lg.toNat →
        Sys2Proof.Machine.exec .retV s = .next (back (fun h =>
          { h with unsure := List.range 32, vl := BitVec.ofNat 32 (min (w % 2 ^ 32) (Sys2Proof.Machine.vlmax h.grant t)), vtype := some t,
                   vprog := 0, mid := BitVec.ofNat 3 (w / 2 ^ 48), mmode := BitVec.ofNat 2 (w / 2 ^ 51) }.wx 2 (sp + 16))
          s2)) ∧
      ((2 ^ 53 ≤ w ∨ (ty ≠ 0x8000 ∧ ∀ t : Sys2Proof.Machine.TypeState, ty ≠ t.ew.code.toNat + 16 * t.lg.toNat)) →
        Sys2Proof.Machine.exec .retV s = .next (s2.takeTrap false 0 0x05 (s2.hart.word.setWidth 64)))))

/-- GATE (R89): inside gated code, or on an entry that is not valid, sets a reserved bit, or names no higher or equal
level of supervisor or firmware, it takes the gate fault with k; else the gate link keeps pc + 4, the level and the mask
mode, and the hart goes on at the entry's target, gated, at the entry's level and mask mode. -/
def Sys2Proof.Claims.GateEntersItsEntry : Prop :=
  ∀ (k : BitVec 8) (s : Sys2Proof.Machine.State),
    (s.hart.gated = true → Sys2Proof.Machine.exec (.gate k) s =
      .next (s.takeTrap false 0 0x0D (BitVec.ofNat 64 k.toNat))) ∧
    (s.hart.gated = false → s.homeOf (s.hart.gtbase.toNat * 4096 + 16 * k.toNat) = none →
      Sys2Proof.Machine.exec (.gate k) s =
        .next (s.takeTrap false 1 0x09 (BitVec.ofNat 64 (s.hart.gtbase.toNat * 4096 + 16 * k.toNat)))) ∧
    (∀ a d s1, s.hart.gated = false → s.homeOf (s.hart.gtbase.toNat * 4096 + 16 * k.toNat) = some a →
      s.readDie s.me a 16 = (d, s1) → s1.poisoned a 16 = false →
      let e := Sys2Proof.Machine.natOfBytes d
      let level := e / 2 ^ 65 % 4
      let good := e / 2 ^ 64 % 2 = 1 ∧ e < 2 ^ 69 ∧ (level = 1 ∨ level = 3) ∧ s.hart.priv.code.toNat ≤ level
      (¬ good → Sys2Proof.Machine.exec (.gate k) s = .next (s1.takeTrap false 0 0x0D (BitVec.ofNat 64 k.toNat))) ∧
      (good → Sys2Proof.Machine.exec (.gate k) s =
        .next (Sys2Proof.Claims.afterTo (BitVec.ofNat 64 (e % 2 ^ 64)) (fun h =>
          { h with gate := ⟨h.pc + 4, h.priv.code, h.mmode⟩, gated := true,
                   priv := if level = 1 then .supervisor else .firmware, mmode := BitVec.ofNat 2 (e / 2 ^ 67) }) s1)))

/-- GRET (R90) is illegal outside gated code; inside it the level, the mask mode and pc come from the gate link and the
gating clears. Its word is major 0x0F, function 3, every other field 0. -/
def Sys2Proof.Claims.GateReturnRestores : Prop :=
  Sys2Proof.encode .gret = 0x3C000003#32 ∧
  ∀ s : Sys2Proof.Machine.State,
    (s.hart.gated = false → Sys2Proof.Machine.exec .gret s =
      .next (s.takeTrap false 0 0x05 (s.hart.word.setWidth 64))) ∧
    ∀ p : Sys2Proof.Machine.Priv, s.hart.gated = true → s.hart.gate.priv = p.code →
      Sys2Proof.Machine.exec .gret s = .next (Sys2Proof.Claims.afterTo s.hart.gate.pc (fun h =>
        { h with priv := p, mmode := h.gate.mmode, gated := false }) s)

/-- LCOUNT, LSTRIDE and LFLAGS (R92) write their part of the sequencer; within a body, or while a suspended loop is
kept (R330), they are illegal; that at firmware level fstat.lp bars them too is the model's reading (log 30). Levels are
those that the encoding admits. -/
def Sys2Proof.Claims.LoopSetUpWritesTheSequencer : Prop :=
  ∀ (d a : BitVec 5) (slot : BitVec 1) (l : BitVec 3) (s : Sys2Proof.Machine.State), l.toNat < 6 →
    let free := s.hart.looping = none ∧ s.hart.sup.stat.lp = false ∧
      (s.hart.priv = .firmware → s.hart.fw.stat.lp = false)
    (free →
      (∃ t, Sys2Proof.Machine.exec (.lcount a l) s = .next t ∧ Sys2Proof.Claims.Retired s t ∧
        t.hart.pc = s.hart.pc + 4 ∧ ∀ k < 6, t.hart.seqr.counts.toList.getD k 0 =
          if k = l.toNat then BitVec.ofNat 32 (s.hart.rx a).toNat else s.hart.seqr.counts.toList.getD k 0) ∧
      (∃ t, Sys2Proof.Machine.exec (.lstride d a slot l) s = .next t ∧ Sys2Proof.Claims.Retired s t ∧
        t.hart.pc = s.hart.pc + 4 ∧ ∀ k < 6,
          t.hart.seqr.slot0.toList.getD k ⟨0, 0⟩ = (if k = l.toNat ∧ slot = 0 then ⟨d, s.hart.rx a⟩
            else s.hart.seqr.slot0.toList.getD k ⟨0, 0⟩) ∧
          t.hart.seqr.slot1.toList.getD k ⟨0, 0⟩ = (if k = l.toNat ∧ slot = 1 then ⟨d, s.hart.rx a⟩
            else s.hart.seqr.slot1.toList.getD k ⟨0, 0⟩)) ∧
      (Sys2Proof.Machine.exec (.lflags d a) s = .next (Sys2Proof.Claims.after (fun h =>
        { h with seqr := { h.seqr with first := h.rx d, last := h.rx a } }) s))) ∧
    (¬ free → ∀ i ∈ [Sys2Proof.Instr.lcount a l, .lstride d a slot l, .lflags d a], Sys2Proof.Machine.exec i s =
      .next (s.takeTrap false 0 0x05 (s.hart.word.setWidth 64)))

/-- LOOP (R93, R94): once its body is fetched, a forbidden word makes it illegal; a zero count among levels 0 to D − 1
skips the body and resets the sequencer; else it retires and the body runs at index 0 from the first word that runs
there. The premise on fstat.lp is the model's reading (log 30). -/
def Sys2Proof.Claims.LoopStartsItsBody : Prop :=
  ∀ (g : BitVec 3) (n : BitVec 6) (s s1 : Sys2Proof.Machine.State) (body : List (BitVec 32)), g.toNat < 6 →
    s.hart.looping = none → s.hart.sup.stat.lp = false → (s.hart.priv = .firmware → s.hart.fw.stat.lp = false) →
    Sys2Proof.Machine.fetchBody (n.toNat + 1) (s.hart.pc + 4) s = .ok body s1 →
    let base := s.hart.pc + 4
    let zero := ∃ k ≤ g.toNat, s.hart.seqr.counts.toList.getD k 0 = 0
    (¬ Sys2Proof.Claims.BodyAllowed body → Sys2Proof.Machine.exec (.loop g n) s =
      .next (s1.takeTrap false 0 0x05 (s1.hart.word.setWidth 64))) ∧
    (Sys2Proof.Claims.BodyAllowed body → zero → Sys2Proof.Machine.exec (.loop g n) s =
      .next (Sys2Proof.Claims.afterTo (base + BitVec.ofNat 64 (4 * body.length))
        (fun h => { h with seqr := Sys2Proof.Machine.Sequencer.reset }) s1)) ∧
    (Sys2Proof.Claims.BodyAllowed body → ¬ zero → ∀ k < body.length,
      (∀ j < k, s1.hart.seqr.first.getLsbD j = false ∧ s1.hart.seqr.last.getLsbD j = true ∧
        s1.hart.seqr.counts[0] ≠ 1) →
      (s1.hart.seqr.last.getLsbD k = false ∨ s1.hart.seqr.first.getLsbD k = true ∨ s1.hart.seqr.counts[0] = 1) →
      ∃ t, Sys2Proof.Machine.exec (.loop g n) s = .next t ∧ Sys2Proof.Claims.Retired s1 t ∧
        t.hart.pc = base + BitVec.ofNat 64 (4 * k) ∧ t.hart.x = s1.hart.x ∧ t.hart.seqr.suspended = false ∧
        t.hart.seqr.loop = some ⟨base, body, g.toNat + 1, Vector.replicate 6 0, k, false, []⟩)

/-- A word of a running body that retires (R93): the next word that runs in the same pass follows; at the end of a pass
the lowest level with passes left advances by its strides, and the pass restarts at the first word that runs; after the
last pass control goes on behind the body, and the sequencer is reset. Stated where every body word runs in every pass,
and, in its first clause, for any masks within a pass. -/
def Obligations.LoopReplaysItsBody : Prop :=
  ∀ (h : Sys2Proof.Machine.Hart) (l : Sys2Proof.Machine.ActiveLoop), h.looping = some l →
    h.pc = l.base + BitVec.ofNat 64 (4 * l.pos) →
    (∀ k < l.body.length, l.pos < k → h.seqr.runs l k = true → (∀ j, l.pos < j → j < k → h.seqr.runs l j = false) →
      h.retire.pc = l.base + BitVec.ofNat 64 (4 * k) ∧ h.retire.x = h.x ∧
      h.retire.seqr.loop = some { l with pos := k }) ∧
    (l.pos + 1 = l.body.length → h.seqr.first = 0 → h.seqr.last = 0 → ∀ k < l.depth, l.depth ≤ 6 →
      (∀ j < k, l.index.toList.getD j 0 = h.seqr.counts.toList.getD j 0 - 1) →
      l.index.toList.getD k 0 ≠ h.seqr.counts.toList.getD k 0 - 1 →
      let a := h.seqr.slot0.toList.getD k ⟨0, 0⟩
      let b := h.seqr.slot1.toList.getD k ⟨0, 0⟩
      h.retire.pc = l.base ∧
      (∃ m, h.retire.seqr.loop = some m ∧ m.pos = 0 ∧ m.body = l.body ∧ ∀ j < 6, m.index.toList.getD j 0 =
        if j < k then 0 else if j = k then l.index.toList.getD j 0 + 1 else l.index.toList.getD j 0) ∧
      (∀ r, h.retire.rx r = ((h.wx a.reg (h.rx a.reg + a.stride)).wx b.reg
        ((h.wx a.reg (h.rx a.reg + a.stride)).rx b.reg + b.stride)).rx r)) ∧
    (l.pos + 1 = l.body.length → h.seqr.first = 0 → h.seqr.last = 0 →
      (∀ j < l.depth, l.index.toList.getD j 0 = h.seqr.counts.toList.getD j 0 - 1) →
      h.retire.pc = l.base + BitVec.ofNat 64 (4 * l.body.length) ∧ h.retire.x = h.x ∧
      h.retire.seqr = Sys2Proof.Machine.Sequencer.reset)

namespace Sys2Proof.Claims

open Machine

/-! ## Scalar memory -/

/-- A number read as a signed number of w bits. -/
def signExtended (w x : Nat) : Word := BitVec.ofInt 64 (BitVec.ofNat w x).toInt

/-- The loads of major 0x14 (R247): bytes, and what they give. -/
def indexedLoads : List ((BitVec 5 → BitVec 5 → BitVec 5 → BitVec 4 → BitVec 2 → BitVec 1 → Instr) × Nat × (Nat → Word)) :=
  [(.lb, 1, signExtended 8), (.lbu, 1, BitVec.ofNat 64), (.lh, 2, signExtended 16), (.lhu, 2, BitVec.ofNat 64),
   (.lwx, 4, signExtended 32), (.lwux, 4, BitVec.ofNat 64), (.ldx, 8, BitVec.ofNat 64)]

/-- The stores of major 0x14 (R247) and their bytes. -/
def indexedStores : List ((BitVec 5 → BitVec 5 → BitVec 5 → BitVec 4 → BitVec 2 → BitVec 1 → Instr) × Nat) :=
  [(.sb, 1), (.sh, 2), (.swx, 4), (.sdx, 8)]

/-- The atomics (R249), by the new value from the old one, x[C] and x[A], in w bits. -/
def atomicResults : List ((BitVec 5 → BitVec 5 → BitVec 5 → BitVec 4 → BitVec 1 → Instr) ×
    ((w : Nat) → BitVec w → BitVec w → BitVec w → BitVec w)) :=
  [(.amoswap, fun _ _ c _ => c),
   (.amoadd, fun w o c _ => BitVec.ofNat w (o.toNat + c.toNat)),
   (.amoand, fun _ o c _ => o &&& c),
   (.amoor, fun _ o c _ => o ||| c),
   (.amoxor, fun _ o c _ => o ^^^ c),
   (.amomin, fun w o c _ => BitVec.ofInt w (min o.toInt c.toInt)),
   (.amomax, fun w o c _ => BitVec.ofInt w (max o.toInt c.toInt)),
   (.amominu, fun w o c _ => BitVec.ofNat w (min o.toNat c.toNat)),
   (.amomaxu, fun w o c _ => BitVec.ofNat w (max o.toNat c.toNat)),
   (.amocas, fun _ o c e => if o = e then c else o)]

/-- The address of the Scalar memory form (R29). -/
def offsetAddress (a : BitVec 5) (o : BitVec 12) (s : State) : Word := s.hart.rx a + BitVec.ofInt 64 o.toInt

/-- The address of major 0x14 (R32). -/
def indexedAddress (a b : BitVec 5) (s : State) : Word := s.hart.rx a + s.hart.rx b

/-- Bytes that an atomic's width field names (R249). -/
def atomicBytes (w : BitVec 1) : Nat := if w = 1 then 8 else 4

/-- Every scalar access: its instruction, its kind, its address, its bytes. -/
inductive Accesses (s : State) : Instr → Access → Word → Nat → Prop where
  | ld (d a c o) : Accesses s (.ld d a c o) .load (offsetAddress a o s) 8
  | lw (d a c o) : Accesses s (.lw d a c o) .load (offsetAddress a o s) 4
  | sd (d a c o) : Accesses s (.sd d a c o) .store (offsetAddress a o s) 8
  | sw (d a c o) : Accesses s (.sw d a c o) .store (offsetAddress a o s) 4
  | load (p) (h : p ∈ indexedLoads) (d a b c e l) : Accesses s (p.1 d a b c e l) .load (indexedAddress a b s) p.2.1
  | store (p) (h : p ∈ indexedStores) (d a b c e l) : Accesses s (p.1 d a b c e l) .store (indexedAddress a b s) p.2
  | lwAq (d a b c sc) : Accesses s (.lwAq d a b c sc) .load (indexedAddress a b s) 4
  | ldAq (d a b c sc) : Accesses s (.ldAq d a b c sc) .load (indexedAddress a b s) 8
  | swRl (d a b c sc) : Accesses s (.swRl d a b c sc) .store (indexedAddress a b s) 4
  | sdRl (d a b c sc) : Accesses s (.sdRl d a b c sc) .store (indexedAddress a b s) 8
  | atomic (p) (h : p ∈ atomicResults) (d a b c w) : Accesses s (p.1 d a b c w) .atomic (s.hart.rx a) (atomicBytes w)

/-- scause.acc (R324). -/
def accCode (k : Access) : BitVec 4 :=
  match k with
  | .load => 1
  | .store => 2
  | .atomic => 3
  | .fetch => 4
  | .matrix => 5

/-- The plain stores: instruction, address, register, bytes, class, hints. -/
inductive PlainStores (s : State) : Instr → Word → BitVec 5 → Nat → BitVec 4 → Hints → Prop where
  | sd (d a c o) : PlainStores s (.sd d a c o) (offsetAddress a o s) d 8 c ⟨0, false, 0⟩
  | sw (d a c o) : PlainStores s (.sw d a c o) (offsetAddress a o s) d 4 c ⟨0, false, 0⟩
  | indexed (p) (h : p ∈ indexedStores) (d a b c e l) :
      PlainStores s (p.1 d a b c e l) (indexedAddress a b s) d p.2 c ⟨e, l == 1, c⟩

/-- A place that the map gives, or one of the windows. -/
def Valid (s : State) (q : Place) : Prop :=
  match q with
  | .device pa _ c => s.placeOf pa c = .ok q
  | .host _ => ∃ pa, s.placeOf pa true = .ok q
  | .tcm _ _ | .scratch _ _ => True

/-- The value that a byte of memory has, as the current hart's cluster would return it: none where the spec leaves it
unspecified (R3, R212, R234, R303, R307). -/
def stands (s : State) (q : Place) : Option Byte :=
  let die := fun h : Nat => if s.loose.contains h then none else some (s.dieByte h)
  match q with
  | .tcm c o => if (s.core c).tcmLoose.contains o then none else some (Memory.get (s.core c).tcm o)
  | .scratch g o =>
    if (s.gang g).streams.toList.any fun t => (t.map fun t => t.covers o).getD false then none
    else cellGet (s.gang g).scratch o
  | .host h => die h
  | .device pa h cached =>
    match s.lineAt s.hart.cluster pa with
    | some l =>
      let b := l.byte (pa % 128)
      if b.dirty || (cached && b.held) then some b.val else die h
    | none => die h

/-- A byte of memory is as it was: it has the value that it had, which a read gives, or it has none still. -/
def SameByte (s t : State) (q : Place) : Prop :=
  stands t q = stands s q ∧ ∀ b, stands s q = some b → t.peek .plain q = b ∧ s.peek .plain q = b

/-- A place is none of the n bytes from another one. -/
def Apart (p : Place) (n : Nat) (q : Place) : Prop :=
  match p, q with
  | .tcm c o, .tcm c' o' => c ≠ c' ∨ o' < o ∨ o + n ≤ o'
  | .scratch g o, .scratch g' o' => g ≠ g' ∨ o' < o ∨ o + n ≤ o'
  | .device _ h _, .device _ h' _ => h' < h ∨ h + n ≤ h'
  | .host h, .host h' => h' < h ∨ h + n ≤ h'
  | _, _ => True

/-- A cluster's cache takes a line of an address without giving one up: it holds the line, has room, or takes none
(R232). -/
def Roomy (s : State) (pa : Nat) : Prop :=
  (s.lineAt s.hart.cluster pa).isSome = true ∨ s.cacheless s.hart.cluster = true ∨
    (s.cluster s.hart.cluster).lines.length < s.cacheLines s.hart.cluster

/-- What a place lies in exists, is ordinary memory, and has its bytes in canonical form; no open stream's buffer
holds a byte of it, no granule has an error that an access would meet (R240), and the cluster's cache gives up no line for
the access: it has room for one that is cached, and holds none that is not (log 68). -/
def Ordinary (s : State) (p : Place) (n : Nat) : Prop :=
  s.wf = true ∧ s.localErrors = [] ∧
  match p with
  | .tcm c _ => c < s.cores.length ∧ Memory.wf (s.core c).tcm = true
  | .scratch g o => (∃ k ∈ s.gangs, k.key = g) ∧
      ∀ t ∈ (s.gang g).streams.toList, ∀ u, t = some u → ∀ k < n, u.covers (o + k) = false
  | .device pa h cached => isCompressedHome h = false ∧ s.hart.cluster < s.clusters.length ∧ s.errors = [] ∧
      if cached then Roomy s pa else s.lineAt s.hart.cluster pa = none
  | .host _ => True

/-- What an instruction that only reads or writes memory keeps of its hart. -/
def KeepsRegisters (s t : State) : Prop :=
  (∀ r, ¬ Strides s.hart r → t.hart.rx r = s.hart.rx r) ∧ t.hart.v = s.hart.v ∧ t.hart.m = s.hart.m ∧
  t.hart.cells = s.hart.cells ∧ t.hart.flags = s.hart.flags ∧ t.hart.flagEn = s.hart.flagEn ∧ t.hart.vl = s.hart.vl ∧
  t.hart.vtype = s.hart.vtype ∧ t.hart.mid = s.hart.mid ∧ t.hart.mmode = s.hart.mmode ∧ t.hart.priv = s.hart.priv ∧
  t.hart.gated = s.hart.gated ∧ t.hart.fm = s.hart.fm ∧ t.hart.srgen = s.hart.srgen ∧ t.hart.sup = s.hart.sup ∧
  t.hart.fw = s.hart.fw ∧ t.hart.mode = s.hart.mode ∧ t.hart.dq = s.hart.dq

/-- A byte as an atomic finds it (R250, R251): the cluster's copy where that is dirty, else the die's. -/
def foundByte (s : State) (pa home : Nat) : Byte :=
  match s.lineAt s.hart.cluster pa with
  | none => s.dieByte home
  | some l => if (l.byte (pa % 128)).dirty then (l.byte (pa % 128)).val else s.dieByte home

/-- The lines of a cluster lie at aligned bases and at different homes of ordinary memory, no granule of which has an
error. -/
def Tidy (s : State) (c : Nat) : Prop :=
  c < s.clusters.length ∧ s.errors = [] ∧ s.localErrors = [] ∧ (∀ l ∈ (s.cluster c).lines, l.base % 128 = 0 ∧
    ∃ a, s.homeOf l.base = some a ∧ isCompressedHome a = false) ∧
  (s.cluster c).lines.Pairwise fun l m => l.base ≠ m.base ∧ s.homeOf l.base ≠ s.homeOf m.base

/-- A row of n CSRs from a number on, each a step from the last, with one law. -/
def csrRow (first n step : Nat) (f : Word → Word) : List (BitVec 12 × (Word → Word)) :=
  (List.range n).map fun k => (BitVec.ofNat 12 (first + step * k), f)

/-- CSRs that no instruction writes (R19, R106, R110, R154, R229, R289, R319, R327, R350, R425). -/
def csrReadOnly : List (BitVec 12) :=
  [0x000, 0x020, 0x021, 0x030, 0x031, 0x032, 0x033, 0x100, 0x101, 0x102, 0x103, 0x105, 0x106, 0x110, 0x111, 0x112, 0x113,
    0x2C0, 0x360, 0x361, 0x402, 0x420, 0x430, 0x80E, 0xC08, 0xC09, 0xC0C] ++
  ((List.range 8).map fun k => BitVec.ofNat 12 (0x220 + k)) ++
  ((List.range 4).map fun k => BitVec.ofNat 12 (0x308 + k)) ++ ((List.range 4).map fun k => BitVec.ofNat 12 (0x310 + k)) ++
  ((List.range 4).map fun k => BitVec.ofNat 12 (0x318 + k)) ++ (List.range 16).map fun k => BitVec.ofNat 12 (0x350 + k)

/-- The cores, clusters and dies of a hart exist, and its gang is placed. -/
def Seated (s : State) : Prop :=
  s.hart.core < s.cores.length ∧ s.hart.cluster < s.clusters.length ∧ s.dies.length = 8 ∧
    s.gang? s.hart.name.gang ≠ none

/-- The floor and the ceiling of a hart's weight (R310): the largest floor and the smallest ceiling of the open streams
with an end at it; 1 and 16 where it has none. -/
def WeightLimits (g : Gang) (idx lo hi : Nat) : Prop :=
  let mine := fun t : Stream => some t ∈ g.streams.toList ∧ (t.ph.toNat = idx ∨ t.ch.toNat = idx)
  (∀ t, mine t → t.wf ≤ lo ∧ hi ≤ t.wc) ∧
    (((∀ t, ¬ mine t) ∧ lo = 1 ∧ hi = 16) ∨ ((∃ t, mine t ∧ t.wf = lo) ∧ ∃ t, mine t ∧ t.wc = hi))

/-- The CSRs that software writes whole or in part, at the lowest level that writes them, with what a read gives after
a write (R20, R61, R65, R67, R105, R229, R241, R327, R350, R378, R425). -/
def csrFields : List (BitVec 12 × (Word → Word)) :=
  [(0x001, fun w => w &&& 0x007F007F#64),
   (0x002, fun w => if w &&& 0xFFFFFFFF#64 = 0 then 1 else w &&& 0xFFFFFFFF#64),
   (0x104, fun w => w &&& 0x1F#64),
   (0x200, fun w => w &&& 0x7FFF0003#64),
   (0x201, fun w => w &&& 0x3F#64)] ++
  csrRow 0x010 8 1 (fun w => w &&& 0xFFFFFF#64) ++
  (csrRow 0x240 15 8 id ++ csrRow 0x241 15 8 (fun w => w &&& 0xFFFFFFFF0000000F#64) ++ csrRow 0x242 15 8 id ++
    csrRow 0x243 15 8 (fun w => w &&& 0xFFFFFFFF#64) ++ csrRow 0x244 15 8 id ++ csrRow 0x245 15 8 id ++
    csrRow 0x246 15 8 id ++ csrRow 0x247 15 8 (fun w => w &&& 0xFFFFFFFF#64)) ++
  csrRow 0x300 4 1 id

/-- The length field of a watchpoint control in bits 7 to 3: above 16 it stores 16 (R350). -/
def watchControl (w : Word) : Word :=
  if 16 < (w.toNat / 8) % 32 then 0x80#64 ||| (w &&& 7#64) else w &&& 0xFF#64

/-- The same of the CSRs that supervisor and firmware write, and user does not (R17, R229, R319, R326, R350). -/
def csrPrivilegedFields : List (BitVec 12 × (Word → Word)) :=
  csrRow 0x228 8 1 (fun w => w &&& 0xFFFFFFFF#64) ++
  csrRow 0x404 4 1 (fun w => w &&& ~~~2#64) ++
  csrRow 0x408 4 2 id ++ csrRow 0x409 4 2 watchControl ++
  csrRow 0x410 4 2 id ++
  csrRow 0x411 4 2 (fun w => watchControl w ||| (w &&& 0x100#64) |||
    (if w &&& 0x600#64 = 0x600 then 0 else w &&& 0x600#64)) ++
  csrRow 0x440 6 1 (fun w => w &&& 0xFFFFFFFFFFFF#64) ++
  csrRow 0x450 8 1 (fun w => w &&& 0xFF#64) ++
  csrRow 0x458 24 1 (fun w => w &&& 0xFFFFFFFFFFFF#64) ++
  [(0x022, id),
   (0x210, fun w => w &&& 0x0000FFFFFFFFFFF1#64),
   (0x340, fun w => w &&& 3#64),
   (0x400, fun w => (w &&& 0xF#64) ||| (if w &&& 0x30#64 = 0x30 then 0 else w &&& 0x30#64)),
   (0x401, id)]

/-- The same of the supervisor CSRs. -/
def csrSupervisorFields : List (BitVec 12 × (Word → Word)) :=
  [(0x800, fun w => w &&& ~~~3#64),
   (0x801, fun w => if (w &&& 0xFFFF#64).toNat < 64 then 64 else w &&& 0xFFFF#64),
   (0x802, fun w => w &&& 0xFFFFFFFF#64),
   (0x803, fun w => w &&& ~~~0xFFF#64),
   (0x804, fun w => w &&& 0x8000000000000FFF#64), (0x805, id), (0x806, id), (0x807, fun w => w &&& 0x3FFF#64),
   (0x808, id), (0x80B, id), (0x80C, id), (0x80D, fun w => w &&& 0xF#64)]

/-- The same of the firmware CSRs. -/
def csrFirmwareFields : List (BitVec 12 × (Word → Word)) :=
  [(0xC00, fun w => w &&& ~~~3#64), (0xC01, fun w => w &&& 0x8000000000000FFF#64), (0xC02, id), (0xC03, id),
   (0xC04, fun w => w &&& 0x3FFF#64),
   (0xC0A, fun w => BitVec.ofNat 64 (min (max (w &&& 0x7FF#64).toNat 400) 1950)),
   (0xC0B, fun w => (w &&& ~~~0xFFF#64) ||| (if w &&& 0xFF#64 = 0 then 1 else w &&& 0xFF#64))]

/-- The level that a CSR's number asks for lies above a hart's level (R17). -/
def AboveLevel (c : BitVec 12) (p : Priv) : Prop :=
  (c.toNat / 1024 = 3 ∧ p ≠ .firmware) ∨ (c.toNat / 1024 = 2 ∧ p = .user)

end Sys2Proof.Claims

/-- Scalar loads (R96, R246, R247): where the access passes its checks and reaches data, x[A] receives the bytes,
lowest address lowest, extended as the instruction says, and the load retires. -/
def Obligations.ScalarLoadsGiveTheirBytes : Prop :=
  ∀ (d a : BitVec 5) (c : BitVec 4) (s t : Sys2Proof.Machine.State) (data : List Sys2Proof.Byte),
    (∀ o, Sys2Proof.Claims.Loads (Sys2Proof.Claims.offsetAddress a o s) 8 ⟨0, false, c⟩ data s t →
      Sys2Proof.Machine.exec (.ld d a c o) s = .next (Sys2Proof.Claims.after
        (Sys2Proof.Machine.Hart.wx d (BitVec.ofNat 64 (Sys2Proof.Machine.natOfBytes data))) t)) ∧
    (∀ o, Sys2Proof.Claims.Loads (Sys2Proof.Claims.offsetAddress a o s) 4 ⟨0, false, c⟩ data s t →
      Sys2Proof.Machine.exec (.lw d a c o) s = .next (Sys2Proof.Claims.after
        (Sys2Proof.Machine.Hart.wx d (Sys2Proof.Claims.signExtended 32 (Sys2Proof.Machine.natOfBytes data))) t)) ∧
    (∀ p ∈ Sys2Proof.Claims.indexedLoads, ∀ b h l,
      Sys2Proof.Claims.Loads (Sys2Proof.Claims.indexedAddress a b s) p.2.1 ⟨h, l == 1, c⟩ data s t →
      Sys2Proof.Machine.exec (p.1 d a b c h l) s = .next (Sys2Proof.Claims.after
        (Sys2Proof.Machine.Hart.wx d (p.2.2 (Sys2Proof.Machine.natOfBytes data))) t))

/-- Where a load reads (R222 to R226, R234, R235), with translation off: TCM and scratchpad through their windows; a
byte that the cluster cache holds, an uncached access taking the dirty ones alone, from there; every other byte of device
and host memory from its home. Stated where the cache has room for the line, no granule has an error, and no byte in
question is unspecified. A load may return instead bytes of a line as it stood before an acquire that names other classes
than its own, where no later access of its class has performed (R268, R272; the model's reading, log 72). That an uncached
access writes back and drops the cluster's own line first is the model's choice (log 68). -/
def Obligations.LoadsReadTheirPlace : Prop :=
  ∀ (s : Sys2Proof.Machine.State) (p : Sys2Proof.Machine.Place) (n : Nat) (h : Sys2Proof.Machine.Hints),
    Sys2Proof.Claims.Valid s p → n ∈ [1, 2, 4, 8] → s.wf = true → s.hart.cluster < s.clusters.length →
    s.readerLine (match p with
      | .device _ home _ => home
      | _ => 0x800000000000) = none →
    (∀ d ∈ s.dies, d.dropped = []) → s.errors = [] → s.localErrors = [] →
    (∀ pa home c, p = .device pa home c → pa % n = 0 ∧ (c = true → Sys2Proof.Claims.Roomy s pa) ∧
      ∀ l, s.lineAt s.hart.cluster pa = some l → Sys2Proof.Machine.isCompressedHome home = false) →
    (s.earlyAt (s.agentOf s.hart) p n h.cls = none → ∀ data : List Sys2Proof.Byte, data.length = n →
      (∀ k < n, Sys2Proof.Claims.stands s (p.plus k) = data[k]?) →
      (s.loadAt (s.agentOf s.hart) p n h).1.1 = data) ∧
    (∀ pa e, s.earlyAt (s.agentOf s.hart) p n h.cls = some (pa, e) →
      e ∈ s.hart.early ∧ (∃ home, p = .device pa home true) ∧ e.line.base = pa / 128 * 128 ∧
      e.closed.getLsbD h.cls.toNat = false ∧ e.line.holds (pa % 128) n = true ∧
      (s.loadAt (s.agentOf s.hart) p n h).1.1 = (List.range n).map fun k => (e.line.byte (pa % 128 + k)).val)

/-- Scalar stores (R96, R246, R247): where the access passes its checks, the low bytes of x[A] are stored, lowest
lowest, and the store retires. -/
def Obligations.ScalarStoresPutTheirBytes : Prop :=
  ∀ (i : Sys2Proof.Instr) (va : Sys2Proof.Word) (d : BitVec 5) (n : Nat) (c : BitVec 4)
    (h : Sys2Proof.Machine.Hints) (s t : Sys2Proof.Machine.State),
    Sys2Proof.Claims.PlainStores s i va d n c h →
    Sys2Proof.Claims.Stores va (Sys2Proof.Machine.bytesOf n (s.hart.rx d).toNat) c h s t →
    Sys2Proof.Machine.exec i s = .next (Sys2Proof.Claims.after id t)

/-- What a scalar store changes: the bytes at the address it computes read as the low bytes of x[A] afterwards, every
other byte of memory reads as before or has no specified value still (R3), and the hart keeps its registers. Stated where
no last-use hint drops the line. -/
def Obligations.ScalarStoresChangeNothingElse : Prop :=
  ∀ (i : Sys2Proof.Instr) (va : Sys2Proof.Word) (d : BitVec 5) (n : Nat) (c : BitVec 4)
    (h : Sys2Proof.Machine.Hints) (p : Sys2Proof.Machine.Place) (s s1 : Sys2Proof.Machine.State),
    Sys2Proof.Claims.PlainStores s i va d n c h → va.toNat % n = 0 → Sys2Proof.Claims.Reaches .store va n p s s1 →
    Sys2Proof.Claims.Unwatched .store va n s1 → h.last = false → Sys2Proof.Claims.Ordinary s1 p n →
    ∃ t, Sys2Proof.Machine.exec i s = .next t ∧
      (∀ k < n, t.peek .plain (p.plus k) = BitVec.ofNat 8 ((s.hart.rx d).toNat / 2 ^ (8 * k))) ∧
      (∀ q, Sys2Proof.Claims.Valid s1 q → Sys2Proof.Claims.Apart p n q → Sys2Proof.Claims.SameByte s1 t q) ∧
      Sys2Proof.Claims.KeepsRegisters s t

/-- The checks of a scalar access (R243, R324): a misaligned address traps with code 0x08 before anything else; an
address that reaches nothing, or that translation does not let pass, traps with the code that R222, R223 and R230 give;
each names the access and the address. -/
def Sys2Proof.Claims.ScalarAccessesReportTheirFaults : Prop :=
  ∀ (i : Sys2Proof.Instr) (k : Sys2Proof.Machine.Access) (va : Sys2Proof.Word) (n : Nat)
    (s : Sys2Proof.Machine.State), Sys2Proof.Claims.Accesses s i k va n →
    (va.toNat % n ≠ 0 → Sys2Proof.Machine.exec i s =
      .next (s.takeTrap false (Sys2Proof.Claims.accCode k) 0x08 va)) ∧
    (va.toNat % n = 0 → ∀ code s1,
      Sys2Proof.Machine.resolve (s.agentOf s.hart) s.hart.tlb k va n s = (.error code, s1) →
      Sys2Proof.Machine.exec i s = .next (s1.takeTrap false (Sys2Proof.Claims.accCode k) code va)) ∧
    (0x80000000000000 ≤ va.toNat →
      Sys2Proof.Machine.resolve (s.agentOf s.hart) s.hart.tlb k va n s = (.error 0x09, s)) ∧
    (s.hart.xlat.en = false → 0x1000000000000 ≤ va.toNat → va.toNat < 0x7FFFFF00000000 →
      Sys2Proof.Machine.resolve (s.agentOf s.hart) s.hart.tlb k va n s = (.error 0x09, s))

/-- LW.AQ and LD.AQ (R248, R266, R272): a load, and beyond the cluster the acquire of its class after it; there a cached
load takes each byte from the cluster's copy only where that is dirty, and leaves no clean byte of what it read there. -/
def Sys2Proof.Claims.AcquireLoads : Prop :=
  ∀ (d a b : BitVec 5) (c : BitVec 4) (sc : BitVec 2) (s s1 s2 : Sys2Proof.Machine.State)
    (p : Sys2Proof.Machine.Place) (data : List Sys2Proof.Byte),
    ∀ f ∈ [(Sys2Proof.Instr.lwAq d a b c sc, 4, Sys2Proof.Claims.signExtended 32),
      (Sys2Proof.Instr.ldAq d a b c sc, 8, BitVec.ofNat 64)],
    let va := Sys2Proof.Claims.indexedAddress a b s
    let result := Sys2Proof.Machine.Hart.wx d (f.2.2 (Sys2Proof.Machine.natOfBytes data))
    va.toNat % f.2.1 = 0 → Sys2Proof.Claims.Reaches .load va f.2.1 p s s1 →
    Sys2Proof.Claims.Unwatched .load va f.2.1 s1 →
    ((sc.toNat < 2 ∨ (∃ k o, p = .tcm k o) ∨ ∃ k o, p = .scratch k o) →
      s1.loadAt (s1.agentOf s1.hart) p f.2.1 ⟨0, false, c⟩ = ((data, false), s2) →
      Sys2Proof.Machine.exec f.1 s = .next (Sys2Proof.Claims.after result s2)) ∧
    (2 ≤ sc.toNat → ((∃ pa home, p = .device pa home false) ∨ ∃ home, p = .host home) →
      s1.loadAt (s1.agentOf s1.hart) p f.2.1 ⟨0, false, c⟩ = ((data, false), s2) →
      Sys2Proof.Machine.exec f.1 s = .next (Sys2Proof.Claims.after result (s2.acquireFor (1#16 <<< c.toNat)))) ∧
    (∀ pa home, 2 ≤ sc.toNat → p = .device pa home true → s1.readerLine home = none →
      (∀ k ∈ s1.dies, k.dropped = []) → s1.errors = [] → s1.localErrors = [] → s1.poisoned home f.2.1 = false →
      s1.loose = [] → (∀ l, s1.lineAt s1.hart.cluster pa = some l → l.poison = 0) → home % 128 = pa % 128 →
      data = ((List.range f.2.1).map fun k => Sys2Proof.Claims.foundByte s1 (pa + k) (home + k)) →
      ∃ u : Sys2Proof.Machine.State,
        Sys2Proof.Machine.exec f.1 s =
          .next (Sys2Proof.Claims.after result (u.acquireFor (1#16 <<< c.toNat))) ∧
        u.mem = s1.mem ∧ u.hart.x = s1.hart.x ∧
        (∀ pb, pb / 128 ≠ pa / 128 → u.lineAt s1.hart.cluster pb = s1.lineAt s1.hart.cluster pb) ∧
        (s1.lineAt s1.hart.cluster pa = none → u.lineAt s1.hart.cluster pa = none) ∧
        ∀ l, s1.lineAt s1.hart.cluster pa = some l → ∃ m, u.lineAt s1.hart.cluster pa = some m ∧ m.prio = 0 ∧
          m.classes = l.classes ∧ ∀ i < 128, m.byte i =
            if pa % 128 ≤ i ∧ i < pa % 128 + f.2.1 ∧ (l.byte i).held = true ∧ (l.byte i).dirty = false
            then ⟨false, false, 0, none⟩ else l.byte i)

/-- SW.RL and SD.RL (R248, R267, R272): beyond the cluster, the release of the store's class comes first, and a cached
store goes through to its die; nearer than that the store is an ordinary one. -/
def Sys2Proof.Claims.ReleaseStores : Prop :=
  ∀ (d a b : BitVec 5) (c : BitVec 4) (sc : BitVec 2) (s s1 : Sys2Proof.Machine.State)
    (p : Sys2Proof.Machine.Place),
    ∀ f ∈ [(Sys2Proof.Instr.swRl d a b c sc, 4), (Sys2Proof.Instr.sdRl d a b c sc, 8)],
    let va := Sys2Proof.Claims.indexedAddress a b s
    let data := Sys2Proof.Machine.bytesOf f.2 (s.hart.rx d).toNat
    va.toNat % f.2 = 0 → Sys2Proof.Claims.Reaches .store va f.2 p s s1 →
    Sys2Proof.Claims.Unwatched .store va f.2 s1 →
    ((sc.toNat < 2 ∨ (∃ k o, p = .tcm k o) ∨ ∃ k o, p = .scratch k o) →
      Sys2Proof.Machine.exec f.1 s =
        .next (Sys2Proof.Claims.after id (s1.storeAt (s1.agentOf s1.hart) p data c 0 .plain))) ∧
    (2 ≤ sc.toNat → ((∃ pa home k, p = .device pa home k) ∨ ∃ home, p = .host home) →
      let s2 := s1.release s1.me s1.hart.cluster (1#16 <<< c.toNat)
      let mode : Sys2Proof.Machine.StoreMode := match p with
        | .device _ _ true => .through
        | _ => .plain
      Sys2Proof.Machine.exec f.1 s =
        .next (Sys2Proof.Claims.after id (s2.storeAt (s2.agentOf s2.hart) p data c 0 mode)))

/-- A store that goes through (R272): its bytes stand at their memory die, with every other byte of the die as it was,
and a copy of the line in the cluster holds them clean; a line that is not there is not brought in. -/
def Sys2Proof.Claims.ThroughStoresReachTheDie : Prop :=
  ∀ (s : Sys2Proof.Machine.State) (pa home : Nat) (data : List Sys2Proof.Byte) (c : BitVec 4),
    s.wf = true → data.length ∈ [4, 8] → pa % data.length = 0 → s.placeOf pa true = .ok (.device pa home true) →
    Sys2Proof.Machine.isCompressedHome home = false → s.errors = [] → s.localErrors = [] →
    let t := s.storeAt (s.agentOf s.hart) (.device pa home true) data c 0 .through
    (∀ j < data.length, t.dieByte (home + j) = data.getD j 0) ∧
    (∀ a, a < home ∨ home + data.length ≤ a → t.dieByte a = s.dieByte a) ∧
    (s.lineAt s.hart.cluster pa = none → t.lineAt s.hart.cluster pa = none) ∧
    (∀ l, s.lineAt s.hart.cluster pa = some l → ∃ m, t.lineAt s.hart.cluster pa = some m ∧ m.classes = l.classes ∧
      ∀ i < 128, m.byte i = if pa % 128 ≤ i ∧ i < pa % 128 + data.length
        then ⟨true, false, data.getD (i - pa % 128) 0, none⟩ else l.byte i) ∧
    ∀ pb, pb / 128 ≠ pa / 128 → t.lineAt s.hart.cluster pb = s.lineAt s.hart.cluster pb

/-- The atomics (R249, R250) on TCM, the scratchpad and device memory: the old value comes to x[A], 32-bit ones
sign-extended, and the value of the table replaces it; on host memory they trap with code 0x09 and acc 3; on poisoned data
with code 0x0C. -/
def Sys2Proof.Claims.AtomicsReadAndReplace : Prop :=
  ∀ p ∈ Sys2Proof.Claims.atomicResults, ∀ (d a b : BitVec 5) (c : BitVec 4) (w : BitVec 1)
    (s s1 : Sys2Proof.Machine.State) (q : Sys2Proof.Machine.Place),
    let va := s.hart.rx a
    let n := Sys2Proof.Claims.atomicBytes w
    let new := fun o : Nat =>
      if w = 1 then (p.2 64 (BitVec.ofNat 64 o) (s.hart.rx b) (s.hart.rx d)).toNat
      else (p.2 32 (BitVec.ofNat 32 o) (BitVec.ofNat 32 (s.hart.rx b).toNat)
        (BitVec.ofNat 32 (s.hart.rx d).toNat)).toNat
    va.toNat % n = 0 → Sys2Proof.Claims.Reaches .atomic va n q s s1 →
    ((∃ home, q = .host home) → Sys2Proof.Machine.exec (p.1 d a b c w) s = .next (s1.takeTrap false 3 0x09 va)) ∧
    ((¬ ∃ home, q = .host home) → Sys2Proof.Claims.Unwatched .atomic va n s1 → ∀ o s2,
      s1.atomicAt (s1.agentOf s1.hart) q n c new = (.ok o, s2) →
      Sys2Proof.Machine.exec (p.1 d a b c w) s = .next (Sys2Proof.Claims.after (Sys2Proof.Machine.Hart.wx d
        (if w = 1 then BitVec.ofNat 64 o else Sys2Proof.Claims.signExtended 32 o)) s2)) ∧
    ((¬ ∃ home, q = .host home) → Sys2Proof.Claims.Unwatched .atomic va n s1 → ∀ s2,
      s1.atomicAt (s1.agentOf s1.hart) q n c new = (.error (), s2) →
      Sys2Proof.Machine.exec (p.1 d a b c w) s = .next (s2.takeTrap false 3 0x0C va))

/-- An atomic performs at the die (R250, R251): it takes the cluster's dirty bytes with the die's others, leaves the
new value at the die, no line in the cluster, and every byte outside that line as it was. -/
def Sys2Proof.Claims.AtomicsPerformAtTheDie : Prop :=
  ∀ (s : Sys2Proof.Machine.State) (pa home n : Nat) (k : Bool) (c : BitVec 4) (f : Nat → Nat),
    n ∈ [4, 8] → pa % n = 0 → s.loose = [] → s.placeOf pa k = .ok (.device pa home k) → s.wf = true →
    Sys2Proof.Machine.isCompressedHome home = false → s.hart.cluster < s.clusters.length →
    s.readerLine home = none → (∀ d ∈ s.dies, d.dropped = []) → s.errors = [] → s.localErrors = [] → s.poison = [] →
    (∀ l, s.lineAt s.hart.cluster pa = some l → l.poison = 0) →
    let old := Sys2Proof.Machine.natOfBytes
      ((List.range n).map fun j => Sys2Proof.Claims.foundByte s (pa + j) (home + j))
    ∃ t, s.atomicAt (s.agentOf s.hart) (.device pa home k) n c f = (.ok old, t) ∧
      (∀ j < n, t.dieByte (home + j) = BitVec.ofNat 8 (f old / 2 ^ (8 * j))) ∧
      t.lineAt s.hart.cluster pa = none ∧
      (∀ a, a / 128 ≠ home / 128 → t.dieByte a = s.dieByte a) ∧
      (∀ j < 128, ¬ (pa % 128 ≤ j ∧ j < pa % 128 + n) → t.dieByte (home / 128 * 128 + j) =
        Sys2Proof.Claims.foundByte s (pa / 128 * 128 + j) (home / 128 * 128 + j))

/-- An atomic performs at the TCM and at the scratchpad (R249, R250): the old value is what its bytes hold, the new one
stands there afterwards, and every other byte of memory reads as before; a poisoned granule is an error, with nothing
written. -/
def Sys2Proof.Claims.AtomicsPerformInWindows : Prop :=
  ∀ (s : Sys2Proof.Machine.State) (p : Sys2Proof.Machine.Place) (n : Nat) (k : BitVec 4) (f : Nat → Nat), n ∈ [4, 8] →
    ((∃ c o, p = .tcm c o) ∨ ∃ g o, p = .scratch g o) → Sys2Proof.Claims.Ordinary s p n →
    let bad := match p with
      | .tcm c o => Sys2Proof.Machine.marked (s.core c).tcmPoison o n
      | .scratch g o => Sys2Proof.Machine.marked (s.gang g).scratchPoison o n
      | _ => false
    let old := Sys2Proof.Machine.natOfBytes ((List.range n).map fun j => s.peek .plain (p.plus j))
    (bad = false → ∃ t, s.atomicAt (s.agentOf s.hart) p n k f = (.ok old, t) ∧
      (∀ j < n, t.peek .plain (p.plus j) = BitVec.ofNat 8 (f old / 2 ^ (8 * j))) ∧
      (∀ q, Sys2Proof.Claims.Valid s q → Sys2Proof.Claims.Apart p n q → Sys2Proof.Claims.SameByte s t q)) ∧
    (bad = true → ∃ t, s.atomicAt (s.agentOf s.hart) p n k f = (.error (), t) ∧
      ∀ q, Sys2Proof.Claims.SameByte s t q)

/-- The fences (R277, R278, R280). FENCE.RL, FENCE.AQ and FENCE act on the class set (all for x0) at package and system
scope and retire; FENCE.SC releases and acquires at its first issue, waits for the heartbeat's next tick, acquires again
there and gives the count of the first tick after that issue; FENCE.I acquires and forgets the fetched words, and the
words that writes have replaced. -/
def Sys2Proof.Claims.FencesComplete : Prop :=
  ∀ (a d : BitVec 5) (sc : BitVec 2) (s : Sys2Proof.Machine.State),
    let k : BitVec 16 := if a = 0 then 0xFFFF else BitVec.ofNat 16 (s.hart.rx a).toNat
    let c := s.hart.cluster
    let far := k ≠ 0 ∧ 2 ≤ sc.toNat
    Sys2Proof.Machine.exec (.fenceRl a sc) s =
      .next (Sys2Proof.Claims.after id (if far then s.release s.me c k else s)) ∧
    Sys2Proof.Machine.exec (.fenceAq a sc) s = .next (Sys2Proof.Claims.after id (if far then s.acquireFor k else s)) ∧
    Sys2Proof.Machine.exec (.fence a sc) s =
      .next (Sys2Proof.Claims.after id (if far then (s.release s.me c k).acquireFor k else s)) ∧
    ((∀ u, s.hart.wait ≠ some (.tick u)) → ∃ t, Sys2Proof.Machine.exec (.fenceSc d) s = .next t ∧
      t.hart.wait = some (.tick s.hbeat) ∧ t.hart.pc = s.hart.pc ∧ t.hart.x = s.hart.x ∧ t.hart.early = [] ∧
      t.clusters = ((s.releaseAll s.me c).acquire c).clusters ∧ t.mem = ((s.releaseAll s.me c).acquire c).mem) ∧
    (∀ u, s.hart.wait = some (.tick u) → s.hbeat ≠ u → Sys2Proof.Machine.exec (.fenceSc d) s =
      .next (Sys2Proof.Claims.after (fun h => { h with early := [] }.wx d (u + 1)) (s.acquire c))) ∧
    (∀ u, s.hart.wait = some (.tick u) → s.hbeat = u → Sys2Proof.Machine.exec (.fenceSc d) s =
      .next (s.onHart (Sys2Proof.Machine.Hart.await (.tick u)))) ∧
    Sys2Proof.Machine.exec .fenceI s = .next ((s.acquire c).onHart fun h =>
      { { h with early := [] }.retire with ibuf := [], fenced := s.priors.length })

/-- What a release and an acquire do (R266, R267): a release writes back the dirty bytes of the lines whose class set
it meets, and such a line stays, clean; the lines it does not meet stay; an acquire invalidates every clean byte of the
cluster, whatever classes it names, and leaves the dirty bytes alone. What the model keeps of the lines as they stood is
closed to the classes of the acquire, and an acquire of every class keeps nothing (R272; log 72). -/
def Sys2Proof.Claims.ReleaseAndAcquireMoveTheirBytes : Prop :=
  ∀ (s : Sys2Proof.Machine.State) (who : Sys2Proof.Machine.Requester) (c : Nat) (k : BitVec 16),
    s.wf = true → Sys2Proof.Claims.Tidy s c →
    let t := s.release who c k
    let u := s.acquire c
    (∀ l ∈ (s.cluster c).lines, l.classes &&& k ≠ 0 → t.lineAt c l.base = some l.clean ∧
      ∀ a, s.homeOf l.base = some a → ∀ i < 128, (l.byte i).dirty = true → t.dieByte (a + i) = (l.byte i).val) ∧
    (∀ l ∈ (s.cluster c).lines, l.classes &&& k = 0 → t.lineAt c l.base = some l) ∧
    (∀ b, (∀ l ∈ (s.cluster c).lines, ∀ a, s.homeOf l.base = some a → a / 128 ≠ b / 128) →
      t.dieByte b = s.dieByte b) ∧
    (∀ l ∈ (s.cluster c).lines, ∀ i < 128, (l.byte i).dirty = true →
      ∃ m, u.lineAt c l.base = some m ∧ m.byte i = l.byte i) ∧
    (∀ pa m, u.lineAt c pa = some m → ∀ i < 128, (m.byte i).held = true → (m.byte i).dirty = true) ∧
    u.mem = s.mem ∧
    (c = s.hart.cluster → (s.acquireFor k).clusters = u.clusters ∧ (s.acquireFor k).mem = s.mem ∧
      (∀ e ∈ (s.acquireFor k).hart.early, e.closed &&& k = k) ∧ (k = 0xFFFF → (s.acquireFor k).hart.early = []))

/-- The monitor instructions (R260, R261): WLARM arms the block of its address, and traps on TCM and host memory;
WLWAIT returns 3 with no line armed, 0 and the touched bit cleared at a touched line, 2 at a pending request, 1 at its
limit, in that order, and waits at its own address where none of them holds. -/
def Sys2Proof.Claims.MonitorInstructions : Prop :=
  ∀ (a b d : BitVec 5) (s : Sys2Proof.Machine.State),
    (∀ g o s1, Sys2Proof.Claims.Reaches .load (s.hart.rx a) 1 (.scratch g o) s s1 →
      Sys2Proof.Machine.exec (.wlarm a) s = .next (Sys2Proof.Claims.after (fun h =>
        { h with wake := some ⟨.scratch g (o / 128), false⟩ }) s1)) ∧
    (∀ pa home k s1, Sys2Proof.Claims.Reaches .load (s.hart.rx a) 1 (.device pa home k) s s1 →
      Sys2Proof.Machine.exec (.wlarm a) s = .next (Sys2Proof.Claims.after (fun h =>
        { h with wake := some ⟨.device (home / 128), false⟩ }) s1)) ∧
    (∀ p s1, Sys2Proof.Claims.Reaches .load (s.hart.rx a) 1 p s s1 → ((∃ k o, p = .tcm k o) ∨ ∃ o, p = .host o) →
      Sys2Proof.Machine.exec (.wlarm a) s = .next (s1.takeTrap false 1 0x09 (s.hart.rx a))) ∧
    let start := match s.hart.wait with
      | some (.wakeLine t _) => t
      | _ => s.time
    let limit := s.hart.rx b
    let timeout := limit ≠ 0xFFFFFFFFFFFFFFFF#64 ∧ limit.toNat ≤ (s.time - start).toNat
    let returns := fun code : Sys2Proof.Word => ∃ t, Sys2Proof.Machine.exec (.wlwait d b) s = .next t ∧
      Sys2Proof.Claims.Retired s t ∧ (d ≠ 0 → ¬ Sys2Proof.Claims.Strides s.hart d → t.hart.rx d = code) ∧
      (∀ r, r ≠ d → ¬ Sys2Proof.Claims.Strides s.hart r → t.hart.rx r = s.hart.rx r) ∧
      (code = 0 → t.hart.wake = s.hart.wake.map fun w => { w with touched := false }) ∧
      (code ≠ 0 → t.hart.wake = s.hart.wake) ∧ t.mem = s.mem
    (s.hart.wake = none → returns 3) ∧
    ∀ w, s.hart.wake = some w →
      (w.touched = true → returns 0) ∧
      (w.touched = false → s.wakePending s.hart = true → returns 2) ∧
      (w.touched = false → s.wakePending s.hart = false → timeout → returns 1) ∧
      (w.touched = false → s.wakePending s.hart = false → ¬ timeout → Sys2Proof.Machine.exec (.wlwait d b) s =
        .next (s.onHart (Sys2Proof.Machine.Hart.await (.wakeLine start limit))))

/-- Posted reader counts and cache control (R262, R263): RC.POST writes the block back and posts x[C] readers at the
die; CWB writes the line back, CDROP drops it, CHINT sets its priority or fills it where the cache has room (R232); each
retires. Where the cache does
not hold the place they have no effect; where the address fails its checks CHINT has none. That CHINT's check asks for rd, and
that a line it finds counts as used, are the model's choices (log 69). -/
def Sys2Proof.Claims.CacheControl : Prop :=
  ∀ (a b : BitVec 5) (s s1 : Sys2Proof.Machine.State) (p : Sys2Proof.Machine.Place),
    let va := s.hart.rx a
    let c := s.hart.cluster
    let cached := ∃ pa home, p = .device pa home true
    let done := fun u : Sys2Proof.Machine.State => (Host.Outcome.next (Sys2Proof.Claims.after id u) : Sys2Proof.Machine.Out)
    (Sys2Proof.Claims.Reaches .store va 1 p s s1 →
      (∀ pa home k, p = .device pa home k → Sys2Proof.Machine.exec (.rcPost a b) s =
        done ((s1.writeBack s1.me s1.hart.cluster pa).postReaders s1.me home (s.hart.rx b).toNat)) ∧
      ((∀ pa home k, p ≠ .device pa home k) → Sys2Proof.Machine.exec (.rcPost a b) s = done s1) ∧
      (∀ pa home, p = .device pa home true → Sys2Proof.Machine.exec (.cdrop a) s = done (s1.dropLine c pa)) ∧
      (¬ cached → Sys2Proof.Machine.exec (.cdrop a) s = done s1)) ∧
    (Sys2Proof.Claims.Reaches .load va 1 p s s1 →
      (∀ pa home, p = .device pa home true → Sys2Proof.Machine.exec (.cwb a) s =
        done (s1.writeBack s1.me c pa)) ∧
      (¬ cached → Sys2Proof.Machine.exec (.cwb a) s = done s1) ∧
      (∀ pa home, b.toNat ≤ 3 → p = .device pa home true → Sys2Proof.Machine.exec (.chint a b) s =
        done (match s1.lineAt c pa with
          | some l => s1.putLine c { l with prio := BitVec.ofNat 2 b.toNat }
          | none => if b = 3 ∨ s1.cacheless c then s1 else s1.fill s1.me c pa home (BitVec.ofNat 2 b.toNat))) ∧
      (b.toNat ≤ 3 → ¬ cached → Sys2Proof.Machine.exec (.chint a b) s = done s1)) ∧
    (∀ code, b.toNat ≤ 3 →
      Sys2Proof.Machine.resolve (s.agentOf s.hart) s.hart.tlb .load va 1 s = (.error code, s1) →
      Sys2Proof.Machine.exec (.chint a b) s = done s1)

/-- The CSR instructions (R17, R33, R97): on a CSR that exists and that the level may read, x[A] receives the old value,
CSRRW writes x[B], CSRRS and CSRRC set and clear the bits of x[B] unless B is 0, and CSRR writes nothing. A number that
nothing assigns is illegal; a number above the level takes the privilege trap. -/
def Sys2Proof.Claims.CsrInstructions : Prop :=
  ∀ (d a : BitVec 5) (c : BitVec 12) (s : Sys2Proof.Machine.State),
    (Sys2Proof.Machine.csrRead s.hart s c = none →
      ∀ i ∈ [Sys2Proof.Instr.csrrw d a c, .csrrs d a c, .csrrc d a c, .csrr d c], Sys2Proof.Machine.exec i s =
        .next (s.takeTrap false 0 0x05 (s.hart.word.setWidth 64))) ∧
    (∀ old, Sys2Proof.Machine.csrRead s.hart s c = some old →
      (Sys2Proof.Claims.AboveLevel c s.hart.priv →
        ∀ i ∈ [Sys2Proof.Instr.csrrw d a c, .csrrs d a c, .csrrc d a c, .csrr d c], Sys2Proof.Machine.exec i s =
          .next (s.takeTrap false 0 0x06 (s.hart.word.setWidth 64))) ∧
      (¬ Sys2Proof.Claims.AboveLevel c s.hart.priv →
        let done := Sys2Proof.Claims.after (Sys2Proof.Machine.Hart.wx d old)
        let write := fun w => done (Sys2Proof.Machine.csrWrite s.hart.priv c w s)
        Sys2Proof.Machine.exec (.csrr d c) s = .next (done s) ∧
        (a = 0 → Sys2Proof.Machine.exec (.csrrs d a c) s = .next (done s) ∧
          Sys2Proof.Machine.exec (.csrrc d a c) s = .next (done s)) ∧
        (c ≠ 0x022 → Sys2Proof.Machine.exec (.csrrw d a c) s = .next (write (s.hart.rx a)) ∧
          (a ≠ 0 → Sys2Proof.Machine.exec (.csrrs d a c) s = .next (write (old ||| s.hart.rx a)) ∧
            Sys2Proof.Machine.exec (.csrrc d a c) s = .next (write (old &&& ~~~(s.hart.rx a))))) ∧
        (c = 0x022 → s.hart.priv = .user → Sys2Proof.Machine.exec (.csrrw d a c) s = .next (done s)) ∧
        (c = 0x022 → s.hart.priv ≠ .user → ∃ t, Sys2Proof.Machine.exec (.csrrw d a c) s = .next t ∧
          t.hart.instret = s.hart.rx a ∧ t.hart.pc = (done s).hart.pc ∧ t.hart.x = (done s).hart.x)))

/-- What CSRs keep of a write (R17, R19, R20, R61, R65, R67, R105, R229, R241, R289, R319, R327, R350, R378, R425): the
writable fields, with the values that a rule replaces; reserved bits read as zero; the bits of sint, sevent and fevent that
a one clears; msplit and cpool for the next reset alone; a write to a CSR that is read-only at its level has no effect. A
CSR write leaves the scalar, vector, mask and matrix registers, the pc, the level and memory as they are, and each named
register that it does not name. That a slice field above 12 stores 12 is the model's choice (log 20). -/
def Sys2Proof.Claims.CsrsKeepTheirFields : Prop :=
  ∀ (s : Sys2Proof.Machine.State) (w : Sys2Proof.Word) (p : Sys2Proof.Machine.Priv), Sys2Proof.Claims.Seated s →
    let reads := fun c (t : Sys2Proof.Machine.State) => Sys2Proof.Machine.csrRead t.hart t c
    let wrote := fun c => Sys2Proof.Machine.csrWrite p c w s
    (∀ f ∈ Sys2Proof.Claims.csrFields, reads f.1 (wrote f.1) = some (f.2 w)) ∧
    (∀ f ∈ Sys2Proof.Claims.csrPrivilegedFields, (p ≠ .user → reads f.1 (wrote f.1) = some (f.2 w)) ∧
      (p = .user → wrote f.1 = s)) ∧
    (∀ f ∈ Sys2Proof.Claims.csrSupervisorFields, p ≠ .user → reads f.1 (wrote f.1) = some (f.2 w)) ∧
    (∀ f ∈ Sys2Proof.Claims.csrFirmwareFields,
      reads f.1 (Sys2Proof.Machine.csrWrite .firmware f.1 w s) = some (f.2 w)) ∧
    (∀ c ∈ Sys2Proof.Claims.csrReadOnly, wrote c = s) ∧
    ((p = .user → wrote 0x341 = s) ∧ (p ≠ .user → ∀ lo hi,
      Sys2Proof.Claims.WeightLimits s.myGang s.hart.name.idx lo hi → 1 ≤ lo → lo ≤ hi → hi ≤ 16 →
      let wq := min (max (w.toNat % 2 ^ 13) (256 * lo)) (256 * hi)
      reads 0x341 (wrote 0x341) = some (BitVec.ofNat 64 (wq + 2 ^ 16 * (wq / 256))))) ∧
    ((p ≠ .firmware → wrote 0x218 = s ∧ wrote 0x219 = s) ∧ (p = .firmware →
      reads 0x218 (wrote 0x218) = reads 0x218 s ∧ reads 0x219 (wrote 0x219) = reads 0x219 s ∧
      ∀ k < 8, (wrote 0x218).nextMsplit.toNat / 16 ^ k % 16 = min (w.toNat / 16 ^ k % 16) 12 ∧
        (wrote 0x219).nextCpool.toNat / 256 ^ k % 256 = min (w.toNat / 256 ^ k % 256) 48)) ∧
    (let h := (wrote 0x809).hart
     h.tie = w.getLsbD 0 ∧ h.swe = w.getLsbD 1 ∧ h.eve = w.getLsbD 2 ∧ h.swp = (s.hart.swp && !w.getLsbD 9) ∧
     ∃ v : Sys2Proof.Word, reads 0x809 (wrote 0x809) = some v ∧ v &&& 7#64 = w &&& 7#64 ∧ v &&& 0xF8#64 = 0 ∧
       v.getLsbD 8 = decide (s.hart.stimecmp.toNat ≤ s.time.toNat) ∧ v.getLsbD 9 = h.swp ∧
       v.getLsbD 10 = decide (s.hart.sevent ≠ 0) ∧ v.toNat < 2 ^ 11) ∧
    reads 0x80A (wrote 0x80A) = (reads 0x80A s).map (· &&& ~~~w) ∧
    reads 0xC05 (wrote 0xC05) = (reads 0xC05 s).map (· &&& ~~~w) ∧
    ∀ c : BitVec 12, let t := wrote c
      t.hart.x = s.hart.x ∧ t.hart.v = s.hart.v ∧ t.hart.m = s.hart.m ∧ t.hart.cells = s.hart.cells ∧
      t.hart.pc = s.hart.pc ∧ t.hart.priv = s.hart.priv ∧ t.hart.gated = s.hart.gated ∧ t.hart.vl = s.hart.vl ∧
      t.hart.vtype = s.hart.vtype ∧ t.hart.vprog = s.hart.vprog ∧ t.hart.mode = s.hart.mode ∧
      t.hart.seqr = s.hart.seqr ∧ t.hart.dq = s.hart.dq ∧ t.mem = s.mem ∧
      (c ≠ 0x001 → t.hart.flags = s.hart.flags ∧ t.hart.flagEn = s.hart.flagEn) ∧
      (c ≠ 0x002 → t.hart.srgen = s.hart.srgen) ∧ (c ≠ 0x104 → t.hart.mid = s.hart.mid ∧ t.hart.mmode = s.hart.mmode) ∧
      (c ≠ 0x022 → t.hart.instret = s.hart.instret) ∧ (c ≠ 0x210 → t.hart.xlat = s.hart.xlat) ∧
      (c.toNat < 0x804 ∨ 0x808 ≤ c.toNat → t.hart.sup = s.hart.sup) ∧
      (c.toNat < 0xC01 ∨ 0xC05 ≤ c.toNat → t.hart.fw = s.hart.fw) ∧
      (∀ k < 8, c.toNat ≠ 0x010 + k → t.hart.fm.toList.getD k 0 = s.hart.fm.toList.getD k 0)

/-- The physical map (R226, R227, R229): which addresses lead to a home and to which; the alias names every byte of the
dies once, by the XOR of the nine slices of its granule number; the compressed window is uncached (R237). -/
def Sys2Proof.Claims.PhysicalMap : Prop :=
  (∀ (s : Sys2Proof.Machine.State) (pa : Nat),
    let pool := fun k : Nat => s.cpool.toNat / 256 ^ k % 256
    let split := fun k : Nat => s.msplit.toNat / 16 ^ k % 16
    let named := fun k o : Nat => if o < (64 - pool k) * 2 ^ 30 then some (k * 2 ^ 36 + o) else none
    (pa < 0x008000000000 → s.homeOf pa = named (pa / 2 ^ 36) (pa % 2 ^ 36)) ∧
    (0x008000000000 ≤ pa → pa < 0x010000000000 → s.homeOf pa =
      let a := pa - 0x008000000000
      let g := a / 2 ^ 12
      let slice := fun i : Nat => g / 8 ^ i % 8
      named ((List.range 9).foldl (fun h i => Nat.xor h (slice i)) 0) (g / 8 * 2 ^ 12 + a % 2 ^ 12)) ∧
    (0x010000000000 ≤ pa → pa < 0x010080000000 → s.homeOf pa =
      if pa % 2 ^ 28 < 8 * split ((pa - 0x010000000000) / 2 ^ 28) * 2 ^ 20 then some pa else none) ∧
    (0x020000000000 ≤ pa → pa < 0x040000000000 → s.homeOf pa =
      if pool ((pa - 0x020000000000) / 2 ^ 38) = 0 then none else some pa) ∧
    (0x800000000000 ≤ pa → pa < 0x1000000000000 → s.homeOf pa = some pa) ∧
    ((0x010080000000 ≤ pa ∧ pa < 0x020000000000) ∨ (0x040000000000 ≤ pa ∧ pa < 0x800000000000) ∨
      0x1000000000000 ≤ pa → s.homeOf pa = none) ∧
    ∀ cached : Bool, s.placeOf pa cached = match s.homeOf pa with
      | none => .error 0x09
      | some home => if 0x800000000000 ≤ pa then .ok (.host home)
          else .ok (.device pa home (cached && !decide (0x020000000000 ≤ pa)))) ∧
  ∀ k < 8, ∀ o < 2 ^ 36, ∃ a < 2 ^ 39, (Sys2Proof.Machine.aliasDie a = k ∧ Sys2Proof.Machine.aliasOffset a = o) ∧
    ∀ b < 2 ^ 39, Sys2Proof.Machine.aliasDie b = k → Sys2Proof.Machine.aliasOffset b = o → b = a

/-- The order of an access's address (R222, R223): above 2^55 nothing lies; the local region is never translated, holds
the gang's scratchpad up to its footprint and the hart's own TCM allotment, and lets no fetch pass; with translation off an
address is a physical one of 48 bits. -/
def Sys2Proof.Claims.AddressesAreOrdered : Prop :=
  ∀ (ag : Sys2Proof.Machine.Agent) (held : List Sys2Proof.Machine.HeldTranslation) (k : Sys2Proof.Machine.Access)
    (va : Sys2Proof.Word) (n : Nat) (s : Sys2Proof.Machine.State), 1 ≤ n →
    let a := va.toNat
    let gives := fun r => Sys2Proof.Machine.resolve ag held k va n s = (r, s)
    let pad := 0x7FFFFFFF000000
    let tcm := 0x7FFFFFFFFC0000
    (2 ^ 55 ≤ a → gives (.error 0x09)) ∧
    (0x7FFFFF00000000 ≤ a → a < 2 ^ 55 →
      (k = .fetch → gives (.error 0x09)) ∧
      (k ≠ .fetch → pad ≤ a → a < pad + 0x400000 →
        (a - pad + n ≤ 4096 * ag.scr → gives (.ok (.scratch ag.gang (a - pad), none))) ∧
        (4096 * ag.scr < a - pad + n → gives (.error 0x09))) ∧
      (k ≠ .fetch → tcm ≤ a →
        (ag.tcmLo ≤ a - tcm → a - tcm + n ≤ ag.tcmHi → gives (.ok (.tcm ag.core (a - tcm), none))) ∧
        (a - tcm < ag.tcmLo ∨ ag.tcmHi < a - tcm + n → gives (.error 0x09))) ∧
      (a < pad ∨ (pad + 0x400000 ≤ a ∧ a < tcm) → gives (.error 0x09))) ∧
    (a < 0x7FFFFF00000000 → ag.xlat.en = false →
      (2 ^ 48 ≤ a → gives (.error 0x09)) ∧
      (a < 2 ^ 48 → gives (match s.placeOf a true with
        | .ok q => .ok (q, none)
        | .error c => .error c)))

namespace Sys2Proof.Claims

open Machine

/-- A walk from a level's table (R230): each entry is read at its memory die; where it lies nowhere the walk ends with the
access fault, on poisoned data with the poisoned-data fault, on an invalid or malformed entry with the translation fault,
and else with a leaf or in the next level. -/
inductive Walks (who : Requester) (va : Nat) : Nat → Nat → State → Walk → State → Prop where
  | nowhere (level table : Nat) (s : State)
      (h : s.homeOf (table + 8 * (va / 2 ^ [0, 42, 29, 16].getD level 0 % 8192)) = none) :
      Walks who va level table s (.fault 0x09) s
  | poisoned (level table a : Nat) (s t : State) (d : List Byte)
      (h : s.homeOf (table + 8 * (va / 2 ^ [0, 42, 29, 16].getD level 0 % 8192)) = some a)
      (r : s.readDie who a 8 = (d, t)) (p : t.poisoned a 8 = true) : Walks who va level table s (.fault 0x0C) t
  | bad (level table a : Nat) (s t : State) (d : List Byte)
      (h : s.homeOf (table + 8 * (va / 2 ^ [0, 42, 29, 16].getD level 0 % 8192)) = some a)
      (r : s.readDie who a 8 = (d, t)) (p : t.poisoned a 8 = false)
      (b : let e : Word := BitVec.ofNat 64 (natOfBytes d)
        e.getLsbD 0 = false ∨ e &&& 0xFFFF00000000FCC0#64 ≠ 0 ∨ e.getLsbD 9 = true ∨
          (level = 3 ∧ e.getLsbD 1 = false) ∨
          (e.getLsbD 1 = true ∧ (e.toNat / 2 ^ 16 % 2 ^ 32) * 2 ^ 16 % 2 ^ [0, 42, 29, 16].getD level 0 ≠ 0)) :
      Walks who va level table s (.fault 0x0A) t
  | leaf (level table a : Nat) (s t : State) (d : List Byte)
      (h : s.homeOf (table + 8 * (va / 2 ^ [0, 42, 29, 16].getD level 0 % 8192)) = some a)
      (r : s.readDie who a 8 = (d, t)) (p : t.poisoned a 8 = false)
      (g : let e : Word := BitVec.ofNat 64 (natOfBytes d)
        e.getLsbD 0 = true ∧ e &&& 0xFFFF00000000FCC0#64 = 0 ∧ e.getLsbD 9 = false ∧ e.getLsbD 1 = true ∧
          (e.toNat / 2 ^ 16 % 2 ^ 32) * 2 ^ 16 % 2 ^ [0, 42, 29, 16].getD level 0 = 0) :
      Walks who va level table s (.leaf (BitVec.ofNat 64 (natOfBytes d)) level) t
  | next (level table a : Nat) (s t u : State) (d : List Byte) (w : Walk)
      (h : s.homeOf (table + 8 * (va / 2 ^ [0, 42, 29, 16].getD level 0 % 8192)) = some a)
      (r : s.readDie who a 8 = (d, t)) (p : t.poisoned a 8 = false)
      (g : let e : Word := BitVec.ofNat 64 (natOfBytes d)
        e.getLsbD 0 = true ∧ e &&& 0xFFFF00000000FCC0#64 = 0 ∧ e.getLsbD 9 = false ∧ e.getLsbD 1 = false ∧ level < 3)
      (rest : Walks who va (level + 1) ((natOfBytes d / 2 ^ 16 % 2 ^ 32) * 2 ^ 16) t w u) :
      Walks who va level table s w u

/-- What a leaf lets pass (R230). -/
def Permits (e : Word) (k : Access) (p : Priv) : Prop :=
  (k = .load ∨ k = .matrix → e.getLsbD 2 = true) ∧ (k = .store → e.getLsbD 3 = true) ∧
  (k = .atomic → e.getLsbD 2 = true ∧ e.getLsbD 3 = true) ∧ (k = .fetch → e.getLsbD 4 = true) ∧
  (p = .user → e.getLsbD 5 = true)

end Sys2Proof.Claims

/-- Translation (R230, R231): the walk of the three levels; where an address has no translation held, the access takes
what a walk finds: its fault, the permission fault, or the physical address of the leaf, uncached where mt is 1. Where
translations of it are held, it takes one of them or a fresh walk; where a walk would find all of them, the latest. -/
def Sys2Proof.Claims.WalksTranslate : Prop :=
  (∀ (who : Sys2Proof.Machine.Requester) (va level table : Nat) (s t : Sys2Proof.Machine.State)
    (w : Sys2Proof.Machine.Walk), 1 ≤ level → level ≤ 3 →
    (Sys2Proof.Machine.walk who va (4 - level) table s = (w, t) ↔ Sys2Proof.Claims.Walks who va level table s w t)) ∧
  ∀ (ag : Sys2Proof.Machine.Agent) (held : List Sys2Proof.Machine.HeldTranslation) (k : Sys2Proof.Machine.Access)
    (va : Sys2Proof.Word) (n : Nat) (s : Sys2Proof.Machine.State), va.toNat < 0x7FFFFF00000000 → ag.xlat.en = true →
    let a := va.toNat
    let covers := fun h : Sys2Proof.Machine.HeldTranslation => h.base ≤ a ∧ a < h.base + h.size
    let result := Sys2Proof.Machine.resolve ag held k va n s
    let uses := fun (h : Sys2Proof.Machine.HeldTranslation) (t : Sys2Proof.Machine.State) =>
      (¬ Sys2Proof.Claims.Permits h.entry k ag.priv → result = (.error 0x0B, t)) ∧
      (Sys2Proof.Claims.Permits h.entry k ag.priv → result =
        (match t.placeOf (h.entry.toNat / 2 ^ 16 % 2 ^ 32 * 2 ^ 16 + a % h.size) (!h.entry.getLsbD 8) with
          | .ok q => .ok (q, some h)
          | .error c => .error c, t))
    let walks := ∃ w t, Sys2Proof.Claims.Walks ag.who.walks a 1 (ag.xlat.root.toNat * 2 ^ 16) s w t ∧
      (∀ c, w = .fault c → result = (.error c, t)) ∧
      ∀ e level, w = .leaf e level → ∃ h, h.entry = e ∧ h.size = 2 ^ [0, 42, 29, 16].getD level 0 ∧
        h.base = a / h.size * h.size ∧ uses h t
    ((∀ h ∈ held, ¬ covers h) → walks) ∧
    ((∃ h ∈ held, covers h ∧ uses h s) ∨ walks) ∧
    (∀ h rest, held = h :: rest → covers h →
      (∀ g ∈ held, covers g → ∃ level, s.lookWalk a 3 (ag.xlat.root.toNat * 2 ^ 16) = .leaf g.entry level ∧
        g.size = 2 ^ [0, 42, 29, 16].getD level 0) → uses h s)

/-- Reader-count lines at a memory die (R235, R236, R262). A reader-count store makes the line one with the count of the
store, its other bytes as they were; where the die has no memory-side cache it is an ordinary store. A read gives the
line's bytes and takes one from the count; the last one drops the line, without write-back. A read after the drop gives
the whole line as HBM has it or as zeros, and counts an underflow. RC.POST adds to the count; past 63 the line becomes an
ordinary one with its data, and an overflow is counted; on an ordinary line it does nothing. -/
def Sys2Proof.Claims.ReaderCountLines : Prop :=
  ∀ (s : Sys2Proof.Machine.State) (who : Sys2Proof.Machine.Requester) (a n : Nat),
    Sys2Proof.Machine.isHbmHome a = true → s.dies.length = 8 → s.wf = true → s.errors = [] → s.loose = [] →
    let k := Sys2Proof.Machine.homeDie a
    let base := a / 128 * 128
    let posted := s.postReaders who a n
    let read := s.readDie who a n
    ((s.die k).readers.Pairwise fun l m => l.base ≠ m.base) → (∀ l ∈ (s.die k).readers, l.base % 128 = 0) →
    (s.readerLine a = none → posted.readerLine a = none ∧ (∀ b, posted.dieByte b = s.dieByte b) ∧
      (posted.die k).rcovf = (s.die k).rcovf) ∧
    (∀ l, s.readerLine a = some l → (s.die k).dropped.contains base = false →
      (l.count.toNat + n ≤ 63 → posted.readerLine a = some { l with count := BitVec.ofNat 6 (l.count.toNat + n) } ∧
        (posted.die k).rcovf = (s.die k).rcovf) ∧
      (63 < l.count.toNat + n → posted.readerLine a = none ∧ (∀ b, posted.dieByte b = s.dieByte b) ∧
        (posted.die k).rcovf = (s.die k).rcovf + 1) ∧
      (a % 128 + n ≤ 128 →
        read.1 = (List.range n).map (fun i => l.data.toList.getD (a % 128 + i) 0) ∧
        (1 < l.count.toNat → read.2.readerLine a = some { l with count := l.count - 1 }) ∧
        (l.count.toNat ≤ 1 → read.2.readerLine a = none ∧ (read.2.die k).dropped.contains base = true ∧
          read.2.mem = s.mem))) ∧
    (s.readerLine a = none → (s.die k).dropped.contains base = true →
      (read.1 = List.replicate n 0 ∨ read.1 = s.dieBytes a n) ∧ (read.2.die k).rcund = (s.die k).rcund + 1 ∧
      ((read.2.die k).dropped.contains base = false → n = 128 → a = base → ∀ i < 128,
        read.2.dieByte (base + i) = read.1.getD i 0)) ∧
    ∀ (count : BitVec 6) (data : List Sys2Proof.Byte), data ≠ [] → a % 128 + data.length ≤ 128 →
      let t := s.writeReader who count (Sys2Proof.Machine.cellsFrom a data)
      let slice := s.msplit.toNat / 16 ^ k % 16
      (∀ i < data.length, t.dieByte (a + i) = data.getD i 0) ∧
      (∀ b, b < a ∨ a + data.length ≤ b → t.dieByte b = s.dieByte b) ∧
      (slice < 12 → (s.die k).readers.length < (96 - 8 * slice) * 2 ^ 13 →
        ∃ l, t.readerLine a = some l ∧ l.count = count ∧ t.mem = s.mem) ∧
      (12 ≤ slice → t.readerLine a = none)

namespace Sys2Proof.Claims

open Machine

/-! ## Records, gangs and the debugger's instructions -/

/-- A read of the 64 bytes of a record passes its checks: its place and bytes, and the state after it (R210). -/
def ReadsRecord (r : Word) (p : Place) (d : List Byte) (s t : State) : Prop :=
  ∃ s1, Reaches .load r 64 p s s1 ∧ Unwatched .load r 64 s1 ∧
    s1.loadAt (s1.agentOf s1.hart) p 64 ⟨0, false, 0⟩ = ((d, false), t)

/-- The capabilities of a die (R20): class A has four, class B none. -/
def dieCaps (cluster : Nat) : BitVec 4 := if cluster < 36 then 0xF else 0

/-- Every hart of a gang but one has exited or has arrived where `arrived` says. -/
def OthersArrived (s : State) (g : Gang) (first count idx : Nat) (arrived : Hart → Prop) : Prop :=
  ∀ i, first ≤ i → i < first + count → i ≠ idx → i ∈ g.exited ∨ ∃ h ∈ s.parked, h.name = ⟨g.key, i⟩ ∧ arrived h

/-- A hart is one of the harts of its gang, which is placed. -/
def InGang (s : State) (g : Gang) : Prop :=
  s.gang? s.hart.name.gang = some g ∧ s.hart.name.idx < g.w * g.stages ∧ s.hart.name.idx ∉ g.exited ∧
  (∀ h ∈ s.parked, h.name ≠ s.hart.name)

end Sys2Proof.Claims

/-- ENQ and SPAWN (R210) answer a status and retire: 2 for a misaligned, misplaced or malformed record, 3 for a queue
that the context cannot use or a capability that the die lacks, else what the record's memory die answers. -/
def Sys2Proof.Claims.EnqueueAndSpawnAnswerAStatus : Prop :=
  ∀ (d a b : BitVec 5) (s : Sys2Proof.Machine.State),
    let r := s.hart.rx a
    let q := s.hart.rx b
    let status := fun (n : Nat) (u : Sys2Proof.Machine.State) => (Host.Outcome.next (Sys2Proof.Claims.after
      (Sys2Proof.Machine.Hart.wx d (BitVec.ofNat 64 n)) u) : Sys2Proof.Machine.Out)
    (r.toNat % 64 ≠ 0 → Sys2Proof.Machine.exec (.enq d a b) s = status 2 s ∧
      Sys2Proof.Machine.exec (.spawn d a) s = status 2 s) ∧
    ∀ p bytes s1, r.toNat % 64 = 0 → Sys2Proof.Claims.ReadsRecord r p bytes s s1 →
      let hdr := Sys2Proof.Machine.recordOf bytes
      ((∀ pa home k, p ≠ .device pa home k) → Sys2Proof.Machine.exec (.enq d a b) s = status 2 s1 ∧
        Sys2Proof.Machine.exec (.spawn d a) s = status 2 s1) ∧
      ∀ pa home k, p = .device pa home k →
        (∀ e s2, s1.queueEntry (q.toNat % 131072) = (e, s2) →
          let usable := q.toNat < 131072 ∧ e.en = true ∧ e.ctx.toNat = s2.myGang.ctx
          let s3 := s2.evict s2.me s2.hart.cluster pa
          (¬ usable → Sys2Proof.Machine.exec (.enq d a b) s = status 3 s2) ∧
          (usable → hdr.malformed = true → Sys2Proof.Machine.exec (.enq d a b) s = status 2 s2) ∧
          (usable → hdr.malformed = false → ∀ n s4,
            s3.enqueueAt s3.me r home s3.myGang.ctx (.hardware q.toNat) (1#48 <<< s3.hart.cluster) = (n, s4) →
            Sys2Proof.Machine.exec (.enq d a b) s = status n s4)) ∧
        (let lacks := hdr.rcap &&& ~~~(Sys2Proof.Claims.dieCaps s.hart.cluster) ≠ 0
         let s3 := s1.evict s1.me s1.hart.cluster pa
         (lacks → Sys2Proof.Machine.exec (.spawn d a) s = status 3 s1) ∧
         (¬ lacks → hdr.malformed = true → Sys2Proof.Machine.exec (.spawn d a) s = status 2 s1) ∧
         (¬ lacks → hdr.malformed = false → ∀ n s4,
           s3.enqueueAt s3.me r home s3.myGang.ctx (.spawn s.hart.cluster) (1#48 <<< s3.hart.cluster) = (n, s4) →
           Sys2Proof.Machine.exec (.spawn d a) s = status n s4))

/-- What a memory die does with a record that SPAWN names (R200, R210): one that is queued or running gives 4 and a full
queue 1, and memory stays; else the answer is 0, the record is queued with its cluster's bit in pcl, and the launch
stands last in the queue, eligible from now where join is 0. Stated for a record without reader counts (R236). -/
def Sys2Proof.Claims.SpawnQueuesTheRecord : Prop :=
  ∀ (s : Sys2Proof.Machine.State) (rec : Sys2Proof.Word) (a ctx c : Nat) (bit : BitVec 48), s.wf = true → s.loose = [] →
    a % 64 = 0 → s.readerLine a = none → (∀ d ∈ s.dies, d.dropped = []) → s.errors = [] →
    Sys2Proof.Machine.isCompressedHome a = false → Sys2Proof.Machine.isHostHome a = false →
    let r := Sys2Proof.Machine.recordOf (s.dieBytes a 64)
    let full := 256 ≤ (s.launches.filter fun l => decide (l.queue = .spawn c ∧ l.queued)).length
    ∃ n t, s.enqueueAt s.me rec a ctx (.spawn c) bit = (n, t) ∧
      (r.st = 1 ∨ r.st = 2 → n = 4 ∧ t.mem = s.mem ∧ t.launches = s.launches) ∧
      (r.st ≠ 1 → r.st ≠ 2 → full → n = 1 ∧ t.mem = s.mem ∧ t.launches = s.launches) ∧
      (r.st ≠ 1 → r.st ≠ 2 → ¬ full → n = 0 ∧
        Sys2Proof.Machine.recordOf (t.dieBytes a 64) =
          { r with st := 1, pcl := r.pcl ||| bit, reservedClear := (Sys2Proof.Machine.recordOf (t.dieBytes a 64)).reservedClear } ∧
        (∀ b, b < a ∨ a + 64 ≤ b → t.dieByte b = s.dieByte b) ∧
        ∃ l, t.launches = s.launches ++ [l] ∧ l.record = rec ∧ l.pa = a ∧ l.ctx = ctx ∧ l.queue = .spawn c ∧
          l.queued = true ∧ l.total = (r.ex1.toNat + 1) * (r.ey1.toNat + 1) * (r.ez1.toNat + 1) ∧ l.ended = 0 ∧
          l.elig = if r.join = 0 then some s.time else none)

/-- What a memory die does with a record that ENQ names (R200, R210, R398): one that is queued or running gives 4, a queue
whose region is full 1, and memory stays; else the answer is 0: the slot at tail modulo slots holds the record's address,
the descriptor's tail has advanced by 1, the record is queued with its cluster's bit in pcl, no other byte changes, and the
launch stands last, in that queue and under its ceiling. Stated for a record, a descriptor and a slot apart from each other
in ordinary memory without reader counts (R236). -/
def Sys2Proof.Claims.HardwareQueueTakesTheRecord : Prop :=
  ∀ (s : Sys2Proof.Machine.State) (rec : Sys2Proof.Word) (a ctx q dq sh : Nat) (bit : BitVec 48), s.wf = true → s.loose = [] →
    a % 64 = 0 → s.queuePa q % 32 = 0 → s.homeOf (s.queuePa q) = some dq → dq % 32 = 0 →
    (∀ d ∈ s.dies, d.dropped = []) → s.errors = [] →
    (∀ b ∈ [a, dq, sh], s.readerLine b = none ∧ Sys2Proof.Machine.isCompressedHome b = false ∧
      Sys2Proof.Machine.isHostHome b = false) →
    let r := Sys2Proof.Machine.recordOf (s.dieBytes a 64)
    let e := Sys2Proof.Machine.queueOf (s.dieBytes dq 32)
    s.homeOf (e.base.toNat * 4096 + 8 * (e.tail.toNat % max 1 e.slots.toNat)) = some sh → sh % 8 = 0 →
    (dq + 32 ≤ a ∨ a + 64 ≤ dq) → (sh + 8 ≤ a ∨ a + 64 ≤ sh) → (sh + 8 ≤ dq ∨ dq + 32 ≤ sh) →
    let full := e.tail - e.head = BitVec.ofNat 64 e.slots.toNat
    ∃ n t, s.enqueueAt s.me rec a ctx (.hardware q) bit = (n, t) ∧
      (r.st = 1 ∨ r.st = 2 → n = 4 ∧ t.mem = s.mem ∧ t.launches = s.launches) ∧
      (r.st ≠ 1 → r.st ≠ 2 → full → n = 1 ∧ t.mem = s.mem ∧ t.launches = s.launches) ∧
      (r.st ≠ 1 → r.st ≠ 2 → ¬ full → n = 0 ∧
        Sys2Proof.Machine.natOfBytes (t.dieBytes sh 8) = rec.toNat ∧
        Sys2Proof.Machine.queueOf (t.dieBytes dq 32) = { e with tail := e.tail + 1 } ∧
        Sys2Proof.Machine.recordOf (t.dieBytes a 64) =
          { r with st := 1, pcl := r.pcl ||| bit, reservedClear := (Sys2Proof.Machine.recordOf (t.dieBytes a 64)).reservedClear } ∧
        (∀ b, (b < a ∨ a + 64 ≤ b) → (b < dq ∨ dq + 32 ≤ b) → (b < sh ∨ sh + 8 ≤ b) → t.dieByte b = s.dieByte b) ∧
        ∃ l, t.launches = s.launches ++ [l] ∧ l.record = rec ∧ l.pa = a ∧ l.ctx = ctx ∧ l.queue = .hardware q ∧
          l.ceil = e.ceil.toNat ∧ l.queued = true ∧
          l.total = (r.ex1.toNat + 1) * (r.ey1.toNat + 1) * (r.ez1.toNat + 1) ∧ l.ended = 0 ∧
          l.elig = if r.join = 0 then some s.time else none)

/-- JOIN (R211): a misaligned record traps with code 0x08, one that is not in device memory with 0x09, each with acc 3;
in device memory the counter is decremented at the die, the cluster's bit joins pcl and x[A] receives the new count, or
all ones where it was 0 and nothing changes. Stated for a record without reader counts (R236) and without a line in
the cluster cache. -/
def Sys2Proof.Claims.JoinDecrementsTheCounter : Prop :=
  ∀ (d a : BitVec 5) (s : Sys2Proof.Machine.State),
    let r := s.hart.rx a
    (r.toNat % 64 ≠ 0 → Sys2Proof.Machine.exec (.join d a) s = .next (s.takeTrap false 3 0x08 r)) ∧
    ∀ p s1, r.toNat % 64 = 0 → Sys2Proof.Claims.Reaches .atomic r 64 p s s1 →
      ((∀ pa home k, p ≠ .device pa home k) → Sys2Proof.Machine.exec (.join d a) s =
        .next (s1.takeTrap false 3 0x09 r)) ∧
      ∀ pa home k, p = .device pa home k → s1.wf = true → home % 64 = 0 → s1.lineAt s1.hart.cluster pa = none →
        s1.readerLine home = none → (∀ die ∈ s1.dies, die.dropped = []) → s1.errors = [] → s1.localErrors = [] → s1.loose = [] →
        s1.poisoned home 64 = false →
        Sys2Proof.Machine.isCompressedHome home = false →
        let old := Sys2Proof.Machine.recordOf (s1.dieBytes home 64)
        ∃ t, (∃ u, t = Sys2Proof.Claims.after (Sys2Proof.Machine.Hart.wx d (if old.join = 0
              then 0xFFFFFFFFFFFFFFFF#64 else BitVec.ofNat 64 (old.join.toNat - 1))) u ∧
            u.hart.x = s1.hart.x ∧ u.hart.pc = s1.hart.pc) ∧
          Sys2Proof.Machine.exec (.join d a) s = .next t ∧
          (old.join = 0 → t.mem = s1.mem ∧ t.launches = s1.launches) ∧
          (old.join ≠ 0 → (Sys2Proof.Machine.recordOf (t.dieBytes home 64)).join = old.join - 1 ∧
            (Sys2Proof.Machine.recordOf (t.dieBytes home 64)).pcl = old.pcl ||| 1#48 <<< s.hart.cluster ∧
            (∀ b, b < home ∨ home + 64 ≤ b → t.dieByte b = s1.dieByte b) ∧
            ∀ l ∈ t.launches, old.join = 1 → l.pa = home → l.queued = true → l.elig = some s1.time)

/-- EXIT (R212) outside gated code with no enabled flag raised ends the hart, which then counts as
exited in its gang, and the gang ends with its last hart; in gated code it is illegal. -/
def Sys2Proof.Claims.ExitEndsTheHart : Prop :=
  ∀ (s : Sys2Proof.Machine.State),
    (s.hart.gated = true → Sys2Proof.Machine.exec .exit s =
      .next (s.takeTrap false 0 0x05 (s.hart.word.setWidth 64))) ∧
    ∀ g, s.hart.gated = false → s.hart.flags &&& s.hart.flagEn = 0 → Sys2Proof.Claims.InGang s g →
      ∃ t, Sys2Proof.Machine.exec .exit s = .next t ∧ t.hart.run = .exited ∧ t.hart.name = s.hart.name ∧
        t.hart.fate ≠ .retired ∧ t.hart.dq = [] ∧ t.mem = s.mem ∧
        (t.gang s.hart.name.gang).exited = s.hart.name.idx :: g.exited ∧
        ((∀ i < g.w * g.stages, i = s.hart.name.idx ∨ i ∈ g.exited) → (t.gang s.hart.name.gang).ended = true) ∧
        ((∃ i < g.w * g.stages, i ≠ s.hart.name.idx ∧ i ∉ g.exited) →
          (t.gang s.hart.name.gang).ended = g.ended)

/-- YIELD (R213, R342): a pending pre-emption request stops the hart outside matrix mode and outside a freeze, at the
YIELD, exactly as SETVL with live = 0 would; otherwise, and in matrix mode always, its credit falls to zero and YIELD
retires. -/
def Sys2Proof.Claims.YieldStopsOrGivesUpItsCredit : Prop :=
  ∀ (s : Sys2Proof.Machine.State),
    (s.myGang.pre ≠ none → s.hart.mode = none → Sys2Proof.Claims.Unfrozen s → ∃ t, Sys2Proof.Machine.exec .yield s = .next t ∧
      t.hart.run = .stopped .preferred ∧ t.hart.pc = s.hart.pc ∧ t.hart.x = s.hart.x ∧ t.hart.v = s.hart.v ∧
      t.mem = s.mem ∧ ∀ (d a : BitVec 5) (g : BitVec 2) (e : BitVec 3),
        Sys2Proof.Machine.exec (.setvl d a g 0 e) s = .next t) ∧
    (s.myGang.pre = none ∨ s.hart.mode ≠ none ∨ ¬ Sys2Proof.Claims.Unfrozen s → Sys2Proof.Machine.exec .yield s =
      .next (s.onHart fun h => { h.retire with credit := 0 }))

/-- The barriers (R216): a hart that arrives last completes its barrier's generation and retires; one that arrives
earlier waits at the instruction with its arrival recorded; one that issues again finds its arrival, and retires if the
generation has completed. -/
def Obligations.BarriersCompleteWhenAllHaveArrived : Prop :=
  ∀ (s : Sys2Proof.Machine.State) (g : Sys2Proof.Machine.Gang), Sys2Proof.Claims.InGang s g →
    let idx := s.hart.name.idx
    let st := s.hart.stage.toNat
    let gen := g.stageGen.toList.getD st 0
    let gangDone := Sys2Proof.Claims.OthersArrived s g 0 (g.w * g.stages) idx fun h => h.arrGang = some g.barGen
    let stageDone := Sys2Proof.Claims.OthersArrived s g (st * g.w) g.w idx fun h => h.arrStage = some gen
    (s.hart.arrGang = none → gangDone → ∃ t, Sys2Proof.Machine.exec .bar s = .next t ∧
      Sys2Proof.Claims.Retired s t ∧ t.hart.arrGang = none ∧ t.myGang.barGen = g.barGen + 1 ∧ t.mem = s.mem ∧
      Sys2Proof.Claims.KeepsRegisters s t) ∧
    (s.hart.arrGang = none → ¬ gangDone → ∃ t, Sys2Proof.Machine.exec .bar s = .next t ∧
      t.hart.wait = some .barrier ∧ t.hart.pc = s.hart.pc ∧ t.hart.arrGang = some g.barGen ∧
      t.myGang.barGen = g.barGen ∧ t.hart.x = s.hart.x ∧ t.mem = s.mem) ∧
    (∀ n, s.hart.arrGang = some n → n < g.barGen → Sys2Proof.Machine.exec .bar s =
      .next (s.onHart fun h => { h.retire with arrGang := none })) ∧
    (∀ n, s.hart.arrGang = some n → g.barGen ≤ n → Sys2Proof.Machine.exec .bar s =
      .next (s.onHart (Sys2Proof.Machine.Hart.await .barrier))) ∧
    (st < g.stages → g.stages ≤ 8 → st * g.w ≤ idx → idx < st * g.w + g.w →
      (s.hart.arrStage = none → stageDone → ∃ t, Sys2Proof.Machine.exec .barS s = .next t ∧
        Sys2Proof.Claims.Retired s t ∧ t.hart.arrStage = none ∧ t.myGang.stageGen.toList.getD st 0 = gen + 1 ∧
        t.mem = s.mem ∧ Sys2Proof.Claims.KeepsRegisters s t) ∧
      (s.hart.arrStage = none → ¬ stageDone → ∃ t, Sys2Proof.Machine.exec .barS s = .next t ∧
        t.hart.wait = some .barrier ∧ t.hart.pc = s.hart.pc ∧ t.hart.arrStage = some gen ∧ t.hart.x = s.hart.x ∧
        t.mem = s.mem) ∧
      (∀ n, s.hart.arrStage = some n → n < gen → Sys2Proof.Machine.exec .barS s =
        .next (s.onHart fun h => { h.retire with arrStage := none })))

/-- GINFO (R217) writes W and S, the grid's last coordinates, or the record's address, and retires. -/
def Obligations.GangInfoTellsTheLaunch : Prop :=
  ∀ (d k : BitVec 5) (s : Sys2Proof.Machine.State),
    let g := s.myGang
    let gives := fun n : Nat => Sys2Proof.Machine.exec (.ginfo d k) s =
      .next (Sys2Proof.Claims.after (Sys2Proof.Machine.Hart.wx d (BitVec.ofNat 64 n)) s)
    (k = 0 → gives (g.w + 2 ^ 8 * g.stages)) ∧
    (k = 1 → gives (g.ex1.toNat + 2 ^ 20 * g.ey1.toNat + 2 ^ 40 * g.ez1.toNat)) ∧
    (k = 2 → gives g.record.toNat) ∧
    (3 ≤ k.toNat → Sys2Proof.Machine.exec (.ginfo d k) s = .next (s.takeTrap false 0 0x05 (s.hart.word.setWidth 64)))

/-- The debugger's instructions (R351, R360, R362): EBREAK with dctl.ebk retires, then the hart stops with cause 4 at the
next instruction; without it EBREAK is illegal. RRING gives a word of the ring entry of its sequence number, zero for
another gang's, all ones for one that has left. TMARK writes a mark record where the hart traces. -/
def Obligations.DebugInstructions : Prop :=
  ∀ (d a k : BitVec 5) (s : Sys2Proof.Machine.State),
    let ring := (s.core s.hart.core).ring
    let here := fun e : Sys2Proof.Machine.RingEntry => (e.words[0]).toNat % 65536 = (s.hart.rx a).toNat % 65536
    let gives := fun w : Sys2Proof.Word => Sys2Proof.Machine.exec (.rring d a k) s =
      .next (Sys2Proof.Claims.after (Sys2Proof.Machine.Hart.wx d w) s)
    (s.hart.dbg.ebk = true → ∃ t, Sys2Proof.Machine.exec .ebreak s = .next t ∧
      t.hart.instret = s.hart.instret + 1 ∧ t.hart.frozen = true ∧ t.hart.dbg.cause = 4 ∧
      t.hart.dbg.dpc = s.hart.retire.pc ∧ t.hart.pc = s.hart.retire.pc ∧ t.hart.x = s.hart.retire.x ∧
      t.hart.dbg.skid = 0 ∧ (∃ f ∈ t.freezes, Sys2Proof.Machine.freezeCovers f s.hart.core = true) ∧ t.mem = s.mem) ∧
    (s.hart.dbg.ebk = false → Sys2Proof.Machine.exec .ebreak s =
      .next (s.takeTrap false 0 0x05 (s.hart.word.setWidth 64))) ∧
    (5 ≤ k.toNat → Sys2Proof.Machine.exec (.rring d a k) s =
      .next (s.takeTrap false 0 0x05 (s.hart.word.setWidth 64))) ∧
    (k.toNat ≤ 4 → (∀ e ∈ ring, ¬ here e) → gives 0xFFFFFFFFFFFFFFFF#64) ∧
    (k.toNat ≤ 4 → ∀ before e rest, ring = before ++ e :: rest → (∀ b ∈ before, ¬ here b) → here e →
      gives (if e.gang = s.hart.name.gang then e.words.toList.getD k.toNat 0 else 0)) ∧
    (s.hart.dbg.tren = false → Sys2Proof.Machine.exec (.tmark a) s = .next (Sys2Proof.Claims.after id s)) ∧
    (s.hart.dbg.tren = true → s.hart.dbg.dropped = none → s.hart.dbg.heldRecords = [] →
      s.hart.cluster < s.clusters.length → (s.cluster s.hart.cluster).trace.length < 128 →
      ∃ t r, Sys2Proof.Machine.exec (.tmark a) s = .next t ∧ Sys2Proof.Claims.Retired s t ∧
        (t.cluster s.hart.cluster).trace = (s.cluster s.hart.cluster).trace ++ [r] ∧
        (r.words[0]).toNat % 16 = 4 ∧ r.words[1] = s.hart.rx a ∧ r.words[2] = s.hart.pc ∧ r.words[3] = 0 ∧
        t.mem = s.mem ∧ Sys2Proof.Claims.KeepsRegisters s t)

namespace Sys2Proof.Claims

open Machine

/-! ## Vector instructions -/

/-- Elements of a group under a type (R103). -/
def elements (h : Hart) (ty : TypeState) : Nat := ty.g * 512 * h.grant.lanes / ty.ew.bits

/-- A register group of a type: its first register is a multiple of its size (R37). -/
def Group (ty : TypeState) (r : BitVec 5) : Prop := r.toNat % ty.g = 0

/-- Two groups share no register. -/
def Disjoint (a m b n : Nat) : Prop := a + m ≤ b ∨ b + n ≤ a

/-- A vector instruction may run: vector mode, a type, and no forced stop at hand (R102, R121, R339). -/
def VectorReady (s : State) (ty : TypeState) : Prop :=
  s.hart.vtype = some ty ∧ s.hart.mode = none ∧ s.hart.stopAt = none

/-- The hart may use LNS6, INT4 and UINT4 where its descriptor names them (R35): its die is of class A. -/
def FormatsHere (s : State) (q : Desc) : Prop := q.lns = true → s.hart.cluster < 36

/-- What a vector instruction leaves alone: everything but its hart and its core's counters and ring; of the hart all
but pc, the scalar registers that strides write, instret, vprog, the marks of an issue, the sequencer, and the vector
and mask registers, flags and srgen, of which the statements speak, with what the model keeps of lines before an acquire
(log 72); of the core all but its counters and its ring. No vector register becomes unspecified (R129). -/
def VectorFrame (s u : State) : Prop :=
  { u with hart := s.hart, cores := s.cores } = s ∧
  { u.hart with
      pc := s.hart.pc, x := s.hart.x, instret := s.hart.instret, retired := s.hart.retired, vprog := s.hart.vprog
      wait := s.hart.wait, linkHold := s.hart.linkHold, arrayAt := s.hart.arrayAt, partLoad := s.hart.partLoad
      touched := s.hart.touched, stopAt := s.hart.stopAt, quiet := s.hart.quiet, fate := s.hart.fate, seqr := s.hart.seqr
      dbg := { u.hart.dbg with passBreak := s.hart.dbg.passBreak }, early := s.hart.early
      v := s.hart.v, unsure := s.hart.unsure, m := s.hart.m, flags := s.hart.flags, srgen := s.hart.srgen } = s.hart ∧
  (∀ k ∈ u.hart.unsure, k ∈ s.hart.unsure) ∧
  (∀ r, ¬ Strides s.hart r → u.hart.rx r = s.hart.rx r) ∧
  (s.hart.looping = none → u.hart.seqr = s.hart.seqr ∧ u.hart.pc = s.hart.pc + 4) ∧
  (∀ k, (u.core k).tcm = (s.core k).tcm) ∧ u.hart.vprog = 0

/-- An element of a vector register, or a bit of a mask register, as a number. -/
def destElem (h : Hart) (t : Dest) (i : Nat) : Nat :=
  match t with
  | .vec n r => (h.elem n r i).toNat
  | .mask k => (h.mbit k i).toNat

/-- Bits of a destination element. -/
def destBits (t : Dest) : Nat :=
  match t with
  | .vec n _ => n
  | .mask _ => 1

/-- An element that the instruction computes: at or above vprog's group of the widest operand, below vl, active. -/
def Computed (s : State) (wide : Nat) (act : Nat → Bool) (i : Nat) : Bool :=
  decide (s.hart.vprog.toNat * (64 * s.hart.grant.lanes / wide) ≤ i ∧ i < s.hart.vl.toNat) && act i

/-- The elements that are computed, in order. -/
def computedList (s : State) (wide : Nat) (act : Nat → Bool) (n : Nat) : List Nat :=
  (List.range n).filter fun i => Computed s wide act i

/-- The draw of element i under stochastic rounding: one for each computed element, in element order (R65, R66). -/
def drawAt (s : State) (wide : Nat) (act : Nat → Bool) (sr : Bool) (i : Nat) : Option (BitVec 32) :=
  if sr then some (srSteps (32 * ((computedList s wide act i).length + 1)) s.hart.srgen) else none

/-- The body of R122 as the difference between two states. Below vprog's group a destination element stays; an active
element receives its value; every other one becomes 0 or stays, as mmode says (R107). Flags are ORed, each computed
element draws once, every other register stays. With vl = 0 nothing but the retirement happens (R104). -/
def ElementRule (s u : State) (ty : TypeState) (wide : Nat) (dest : Dest) (act : Nat → Bool) (sr : Bool)
    (value : Nat → Option (BitVec 32) → Word × FlagSet) : Prop :=
  let vl := s.hart.vl.toNat
  let result := fun i => value i (drawAt s wide act sr i)
  let done := computedList s wide act (elements s.hart ty)
  Retired s u ∧ VectorFrame s u ∧
  (vl = 0 → u.hart.v = s.hart.v ∧ u.hart.m = s.hart.m ∧ u.hart.flags = s.hart.flags ∧ u.hart.srgen = s.hart.srgen) ∧
  (vl ≠ 0 →
    (∀ i < elements s.hart ty, destElem u.hart dest i =
      if i < s.hart.vprog.toNat * (64 * s.hart.grant.lanes / wide) then destElem s.hart dest i
      else if Computed s wide act i then (result i).1.toNat % 2 ^ destBits dest
      else if (if i < vl then s.hart.mmode.getLsbD 0 else s.hart.mmode.getLsbD 1) then 0
      else destElem s.hart dest i) ∧
    u.hart.flags = (done.map fun i => (result i).2).foldl (· ||| ·) s.hart.flags ∧
    u.hart.srgen = if sr then srSteps (32 * done.length) s.hart.srgen else s.hart.srgen) ∧
  match dest with
  | .vec n r => u.hart.m = s.hart.m ∧
      ∀ k < 32, (k < r ∨ r + ty.g * n / ty.ew.bits ≤ k) →
        u.hart.v[k]? = s.hart.v[k]? ∧ (k ∈ u.hart.unsure ↔ k ∈ s.hart.unsure)
  | .mask r => u.hart.v = s.hart.v ∧ u.hart.unsure = s.hart.unsure ∧ (∀ k < 8, k ≠ r → u.hart.m[k]? = s.hart.m[k]?) ∧
      ∀ i, elements s.hart ty ≤ i → i < 32768 → u.hart.mbit r i = s.hart.mbit r i

/-- An instruction completes with the body of R122. -/
def Runs (i : Instr) (s : State) (ty : TypeState) (wide : Nat) (dest : Dest) (act : Nat → Bool) (sr : Bool)
    (value : Nat → Option (BitVec 32) → Word × FlagSet) : Prop :=
  ∃ u, exec i s = .next u ∧ ElementRule s u ty wide dest act sr value

/-- The mask of a mask field (R106). -/
def maskOf (s : State) (m : BitVec 3) (i : Nat) : Bool := s.hart.mbit m.toNat i && s.hart.mbit s.hart.mid.toNat i

/-- A value without flags and without a draw. -/
def plain (f : Nat → Word) (i : Nat) (_ : Option (BitVec 32)) : Word × FlagSet := (f i, 0)

/-- An element of n bits as a signed number. -/
def sgn (n : Nat) (w : Word) : Int := (BitVec.ofNat n w.toNat).toInt

/-- An integer modulo 2^n. -/
def wrap (n : Nat) (x : Int) : Word := BitVec.ofNat 64 (BitVec.ofInt n x).toNat

/-- Functions of two elements of n bits. -/
abbrev Two := Nat → Word → Word → Word

/-- A comparison as a mask bit. -/
def bitIf (p : Prop) [Decidable p] : Word := if p then 1 else 0

/-- The same-width functions of majors 0x21 and 0x22 (R131), with the forms that have vectors b and c and those that
have a scalar c. -/
def elementResults : List ((BitVec 5 → BitVec 5 → BitVec 5 → BitVec 3 → Instr) ×
    (BitVec 5 → BitVec 5 → BitVec 5 → BitVec 3 → Instr) × Two) :=
  [(.vadd, .vaddX, fun n b c => wrap n (b.toNat + c.toNat)),
   (.vsub, .vsubX, fun n b c => wrap n (b.toNat - c.toNat)),
   (.vand, .vandX, fun _ b c => b &&& c),
   (.vor, .vorX, fun _ b c => b ||| c),
   (.vxor, .vxorX, fun _ b c => b ^^^ c),
   (.vsll, .vsllX, fun n b c => wrap n (b.toNat * 2 ^ (c.toNat % n))),
   (.vsrl, .vsrlX, fun n b c => wrap n (b.toNat / 2 ^ (c.toNat % n))),
   (.vsra, .vsraX, fun n b c => wrap n (sgn n b / (2 ^ (c.toNat % n) : Nat))),
   (.vmin, .vminX, fun n b c => wrap n (min (sgn n b) (sgn n c))),
   (.vmax, .vmaxX, fun n b c => wrap n (max (sgn n b) (sgn n c))),
   (.vminu, .vminuX, fun n b c => wrap n (min b.toNat c.toNat)),
   (.vmaxu, .vmaxuX, fun n b c => wrap n (max b.toNat c.toNat))]

/-- The comparisons of majors 0x21 and 0x22 (R131). -/
def elementComparisons : List ((BitVec 5 → BitVec 5 → BitVec 5 → BitVec 3 → Instr) ×
    (BitVec 5 → BitVec 5 → BitVec 5 → BitVec 3 → Instr) × Two) :=
  [(.vmseq, .vmseqX, fun _ b c => bitIf (b = c)),
   (.vmsne, .vmsneX, fun _ b c => bitIf (b ≠ c)),
   (.vmslt, .vmsltX, fun n b c => bitIf (sgn n b < sgn n c)),
   (.vmsltu, .vmsltuX, fun _ b c => bitIf (b.toNat < c.toNat)),
   (.vmsle, .vmsleX, fun n b c => bitIf (sgn n b ≤ sgn n c)),
   (.vmsleu, .vmsleuX, fun _ b c => bitIf (b.toNat ≤ c.toNat))]

/-- The scalar forms without a vector form (R131). -/
def scalarResults : List ((BitVec 5 → BitVec 5 → BitVec 5 → BitVec 3 → Instr) × Two) :=
  [(.vrsubX, fun n b c => wrap n (c.toNat - b.toNat))]
def scalarComparisons : List ((BitVec 5 → BitVec 5 → BitVec 5 → BitVec 3 → Instr) × Two) :=
  [(.vmsgtX, fun n b c => bitIf (sgn n c < sgn n b)), (.vmsgtuX, fun _ b c => bitIf (c.toNat < b.toNat))]

/-- The low n bits of a scalar register. -/
def lowOf (s : State) (n : Nat) (r : BitVec 5) : Word := BitVec.ofNat 64 ((s.hart.rx r).toNat % 2 ^ n)

/-- Functions of the old destination element, b and c, with flags. -/
abbrev Three := Nat → Word → Word → Word → Word × FlagSet

/-- Clamped to a range, with SAT where that changes the value (R134). -/
def clamped (n : Nat) (lo hi x : Int) : Word × FlagSet :=
  if x < lo then (wrap n lo, 0x20) else if hi < x then (wrap n hi, 0x20) else (wrap n x, 0)
def clampedS (n : Nat) (x : Int) : Word × FlagSet := clamped n (-(2 ^ (n - 1) : Nat)) ((2 ^ (n - 1) : Nat) - 1) x
def clampedU (n : Nat) (x : Int) : Word × FlagSet := clamped n 0 ((2 ^ n : Nat) - 1) x

/-- Division of element values with the corners of R135. -/
def quotient (n : Nat) (c : Word) (q : Int) : Word := if c = 0 then wrap n (-1) else wrap n q
def remainder (n : Nat) (b c : Word) (r : Int) : Word := if c = 0 then b else wrap n r

/-- The same-width functions of major 0x23 without a descriptor (R133, R134, R135). -/
def multiplyResults : List ((BitVec 5 → BitVec 5 → BitVec 5 → BitVec 3 → Instr) × Three) :=
  [(.vmul, fun n _ b c => (wrap n (b.toNat * c.toNat), 0)),
   (.vmulh, fun n _ b c => (wrap n (sgn n b * sgn n c / (2 ^ n : Nat)), 0)),
   (.vmulhu, fun n _ b c => (wrap n (b.toNat * c.toNat / 2 ^ n), 0)),
   (.vmulhsu, fun n _ b c => (wrap n (sgn n b * (c.toNat : Int) / (2 ^ n : Nat)), 0)),
   (.vdiv, fun n _ b c => (quotient n c ((sgn n b).tdiv (sgn n c)), 0)),
   (.vdivu, fun n _ b c => (quotient n c (b.toNat / c.toNat), 0)),
   (.vrem, fun n _ b c => (remainder n b c ((sgn n b).tmod (sgn n c)), 0)),
   (.vremu, fun n _ b c => (remainder n b c (b.toNat % c.toNat), 0)),
   (.vmacc, fun n v b c => (wrap n (v.toNat + b.toNat * c.toNat), 0)),
   (.vnmsac, fun n v b c => (wrap n (v.toNat - b.toNat * c.toNat), 0)),
   (.vsadd, fun n _ b c => clampedS n (sgn n b + sgn n c)),
   (.vsaddu, fun n _ b c => clampedU n (b.toNat + c.toNat)),
   (.vssub, fun n _ b c => clampedS n (sgn n b - sgn n c)),
   (.vssubu, fun n _ b c => clampedU n ((b.toNat : Int) - c.toNat))]

/-- The widening functions (R118, R133): the destination has twice the bits. -/
def wideningResults : List ((BitVec 5 → BitVec 5 → BitVec 5 → BitVec 3 → Instr) × Three) :=
  [(.vwmul, fun n _ b c => (wrap (2 * n) (sgn n b * sgn n c), 0)),
   (.vwmulu, fun n _ b c => (wrap (2 * n) (b.toNat * c.toNat), 0)),
   (.vwmacc, fun n v b c => (wrap (2 * n) (v.toNat + sgn n b * sgn n c), 0)),
   (.vwmaccu, fun n v b c => (wrap (2 * n) (v.toNat + b.toNat * c.toNat), 0))]

/-- The narrowing shifts (R118, R133): b has twice the bits. -/
def narrowingResults : List ((BitVec 5 → BitVec 5 → BitVec 5 → BitVec 3 → Instr) × Three) :=
  [(.vnsrl, fun n _ b c => (wrap n (b.toNat / 2 ^ (c.toNat % (2 * n))), 0)),
   (.vnsra, fun n _ b c => (wrap n (sgn (2 * n) b / (2 ^ (c.toNat % (2 * n)) : Nat)), 0))]

/-- v / 2^k rounded to an integer under a round field (R63, R134): nearest with ties to even, toward zero, down, up. -/
def shiftedRight (round : BitVec 2) (v : Int) (k : Nat) : Int :=
  let q := v / (2 ^ k : Nat)
  let rest := v % (2 ^ k : Nat)
  let half : Int := (2 ^ k : Nat)
  if rest = 0 then q
  else if round = 0 then (if 2 * rest < half then q else if half < 2 * rest then q + 1 else if q % 2 = 0 then q else q + 1)
  else if round = 1 then (if v < 0 then q + 1 else q)
  else if round = 2 then q else q + 1

/-- The rounding functions of major 0x23 (R134). -/
def roundedResults : List ((BitVec 5 → BitVec 5 → BitVec 5 → BitVec 3 → BitVec 3 → Instr) × (BitVec 2 → Three)) :=
  [(.vsmul, fun r n _ b c => clampedS n (shiftedRight r (sgn n b * sgn n c) (n - 1))),
   (.vssrl, fun r n _ b c => (wrap n (shiftedRight r b.toNat (c.toNat % n)), 0)),
   (.vssra, fun r n _ b c => (wrap n (shiftedRight r (sgn n b) (c.toNat % n)), 0))]
def clippedResults : List ((BitVec 5 → BitVec 5 → BitVec 5 → BitVec 3 → BitVec 3 → Instr) × (BitVec 2 → Three)) :=
  [(.vnclip, fun r n _ b c => clampedS n (shiftedRight r (sgn (2 * n) b) (c.toNat % (2 * n)))),
   (.vnclipu, fun r n _ b c => clampedU n (shiftedRight r b.toNat (c.toNat % (2 * n))))]

end Sys2Proof.Claims

/-- SETVL, SETVLMAX and SETVLI (R125 to R129) in vector mode: vl becomes the request cut to VLMAX, the type that of the
word, vprog 0, x[A] the new vl; nothing else of the vector state changes, but that every vector register is unspecified
after one with live = 0 until it is written (R129; log 31). With live = 0 a pending pre-emption request stops the hart at the
instruction first, unless a freeze covers it (R342); in matrix mode they are illegal. -/
def Obligations.SetVectorLength : Prop :=
  ∀ (d a : BitVec 5) (n : BitVec 8) (g : BitVec 2) (l : BitVec 1) (e : Sys2Proof.Machine.Ew)
    (s : Sys2Proof.Machine.State),
    let ty : Sys2Proof.Machine.TypeState := ⟨e, g⟩
    ∀ f ∈ [(Sys2Proof.Instr.setvl d a g l e.code, (s.hart.rx a).toNat),
        (Sys2Proof.Instr.setvlmax d g l e.code, 2 ^ 64 - 1), (Sys2Proof.Instr.setvli d n g l e.code, n.toNat)],
      let vl := BitVec.ofNat 32 (min f.2 (Sys2Proof.Claims.elements s.hart ty))
      (s.hart.mode ≠ none → Sys2Proof.Machine.exec f.1 s =
        .next (s.takeTrap false 0 0x05 (s.hart.word.setWidth 64))) ∧
      (s.hart.mode = none → l = 0 → s.myGang.pre ≠ none → Sys2Proof.Claims.Unfrozen s → Sys2Proof.Machine.exec f.1 s =
        .next (s.onHart (Sys2Proof.Machine.Hart.stop .preferred))) ∧
      (s.hart.mode = none → l = 1 ∨ s.myGang.pre = none ∨ ¬ Sys2Proof.Claims.Unfrozen s → ∃ u, Sys2Proof.Machine.exec f.1 s = .next u ∧
        Sys2Proof.Claims.Retired s u ∧ u.hart.vl = vl ∧ u.hart.vtype = some ty ∧ u.hart.vprog = 0 ∧
        u.hart.v = s.hart.v ∧ u.hart.unsure = (if l = 0 then List.range 32 else s.hart.unsure) ∧
        u.hart.m = s.hart.m ∧ u.hart.mid = s.hart.mid ∧ u.hart.mmode = s.hart.mmode ∧ u.hart.flags = s.hart.flags ∧ u.hart.srgen = s.hart.srgen ∧ u.hart.dq = s.hart.dq ∧
        (d ≠ 0 → ¬ Sys2Proof.Claims.Strides s.hart d → u.hart.rx d = vl.setWidth 64) ∧
        (∀ r, r ≠ d → ¬ Sys2Proof.Claims.Strides s.hart r → u.hart.rx r = s.hart.rx r) ∧
        { u with hart := s.hart, cores := s.cores } = s)

/-- The integer instructions of majors 0x21 and 0x22 to a register group (R131): each active element of vA becomes the
function of the elements of b and c. Widths of 4 bits are not theirs. -/
def Sys2Proof.Claims.VectorIntegerResults : Prop :=
  ∀ (d a b : BitVec 5) (m : BitVec 3) (s : Sys2Proof.Machine.State) (ty : Sys2Proof.Machine.TypeState),
    Sys2Proof.Claims.VectorReady s ty → ty.ew ≠ .e4 → Sys2Proof.Claims.Group ty d → Sys2Proof.Claims.Group ty a →
    let n := ty.ew.bits
    let h := s.hart
    let dest : Sys2Proof.Machine.Dest := .vec n d.toNat
    let mask := Sys2Proof.Claims.maskOf s m
    (∀ p ∈ Sys2Proof.Claims.elementResults,
      (Sys2Proof.Claims.Group ty b → Sys2Proof.Claims.Runs (p.1 d a b m) s ty n dest mask false
        (Sys2Proof.Claims.plain fun i => p.2.2 n (h.elem n a.toNat i) (h.elem n b.toNat i))) ∧
      Sys2Proof.Claims.Runs (p.2.1 d a b m) s ty n dest mask false
        (Sys2Proof.Claims.plain fun i => p.2.2 n (h.elem n a.toNat i) (Sys2Proof.Claims.lowOf s n b))) ∧
    ∀ p ∈ Sys2Proof.Claims.scalarResults, Sys2Proof.Claims.Runs (p.1 d a b m) s ty n dest mask false
      (Sys2Proof.Claims.plain fun i => p.2 n (h.elem n a.toNat i) (Sys2Proof.Claims.lowOf s n b))

/-- The comparisons of majors 0x21 and 0x22 (R105, R131): each active bit of mask register A, never m0, becomes the
comparison of the elements of b and c. -/
def Sys2Proof.Claims.VectorComparisonResults : Prop :=
  ∀ (d a b : BitVec 5) (m : BitVec 3) (s : Sys2Proof.Machine.State) (ty : Sys2Proof.Machine.TypeState),
    Sys2Proof.Claims.VectorReady s ty → ty.ew ≠ .e4 → 0 < d.toNat → d.toNat < 8 → Sys2Proof.Claims.Group ty a →
    let n := ty.ew.bits
    let h := s.hart
    let dest : Sys2Proof.Machine.Dest := .mask d.toNat
    let mask := Sys2Proof.Claims.maskOf s m
    (∀ p ∈ Sys2Proof.Claims.elementComparisons,
      (Sys2Proof.Claims.Group ty b → Sys2Proof.Claims.Runs (p.1 d a b m) s ty n dest mask false
        (Sys2Proof.Claims.plain fun i => p.2.2 n (h.elem n a.toNat i) (h.elem n b.toNat i))) ∧
      Sys2Proof.Claims.Runs (p.2.1 d a b m) s ty n dest mask false
        (Sys2Proof.Claims.plain fun i => p.2.2 n (h.elem n a.toNat i) (Sys2Proof.Claims.lowOf s n b))) ∧
    ∀ p ∈ Sys2Proof.Claims.scalarComparisons, Sys2Proof.Claims.Runs (p.1 d a b m) s ty n dest mask false
      (Sys2Proof.Claims.plain fun i => p.2 n (h.elem n a.toNat i) (Sys2Proof.Claims.lowOf s n b))

/-- The merges and moves of majors 0x21 and 0x22 (R131, R132) at every width: VMERGE selects by the mask field and is
masked by m(mid) alone; VMV.S.X writes element 0 and treats every other element as tail. -/
def Sys2Proof.Claims.VectorMergesAndMoves : Prop :=
  ∀ (d a b : BitVec 5) (m : BitVec 3) (s : Sys2Proof.Machine.State) (ty : Sys2Proof.Machine.TypeState),
    Sys2Proof.Claims.VectorReady s ty → Sys2Proof.Claims.Group ty d →
    let n := ty.ew.bits
    let h := s.hart
    let dest : Sys2Proof.Machine.Dest := .vec n d.toNat
    let mask := Sys2Proof.Claims.maskOf s m
    let mid := fun i => h.mbit h.mid.toNat i
    let low := Sys2Proof.Claims.lowOf s n b
    (Sys2Proof.Claims.Group ty a →
      Sys2Proof.Claims.Runs (.vmvVV d a m) s ty n dest mask false (Sys2Proof.Claims.plain fun i => h.elem n a.toNat i) ∧
      Sys2Proof.Claims.Runs (.vmergeX d a b m) s ty n dest mid false (Sys2Proof.Claims.plain fun i =>
        if h.mbit m.toNat i = true then h.elem n a.toNat i else low) ∧
      (Sys2Proof.Claims.Group ty b → Sys2Proof.Claims.Runs (.vmerge d a b m) s ty n dest mid false
        (Sys2Proof.Claims.plain fun i => if h.mbit m.toNat i = true then h.elem n a.toNat i else h.elem n b.toNat i))) ∧
    Sys2Proof.Claims.Runs (.vmvVX d b m) s ty n dest mask false (Sys2Proof.Claims.plain fun _ => low) ∧
    ∃ u, Sys2Proof.Machine.exec (.vmvSX d b m) s = .next u ∧ Sys2Proof.Claims.Retired s u ∧
      Sys2Proof.Claims.VectorFrame s u ∧ u.hart.m = s.hart.m ∧ u.hart.flags = s.hart.flags ∧
      (∀ k < 32, (k < d.toNat ∨ d.toNat + ty.g ≤ k) → u.hart.v[k]? = s.hart.v[k]? ∧
        (k ∈ u.hart.unsure ↔ k ∈ s.hart.unsure)) ∧
      (h.vl = 0 → u.hart.v = s.hart.v) ∧
      (h.vl ≠ 0 → h.vprog = 0 → ∀ i < Sys2Proof.Claims.elements h ty, u.hart.elem n d.toNat i =
        if i = 0 then (if mask 0 = true then low else if h.mmode.getLsbD 0 then 0 else h.elem n d.toNat 0)
        else if h.mmode.getLsbD 1 then 0 else h.elem n d.toNat i)

/-- Major 0x23 (R133 to R135): products, quotients with their corners, multiply-accumulate, saturating sums with the
SAT flag, widening and narrowing forms, and the functions that round under a descriptor's round field. -/
def Obligations.VectorMultiplyResults : Prop :=
  ∀ (d a b : BitVec 5) (f m : BitVec 3) (s : Sys2Proof.Machine.State) (ty : Sys2Proof.Machine.TypeState),
    Sys2Proof.Claims.VectorReady s ty → ty.ew ≠ .e4 →
    let n := ty.ew.bits
    let h := s.hart
    let q := h.desc f
    let mask := Sys2Proof.Claims.maskOf s m
    let descriptor := q.common false false = true ∧ Sys2Proof.Claims.FormatsHere s q
    let same := Sys2Proof.Claims.Group ty d ∧ Sys2Proof.Claims.Group ty a ∧ Sys2Proof.Claims.Group ty b
    let runs := fun i (op : Sys2Proof.Claims.Three) => Sys2Proof.Claims.Runs i s ty n (.vec n d.toNat) mask false
      fun i _ => op n (h.elem n d.toNat i) (h.elem n a.toNat i) (h.elem n b.toNat i)
    let narrows := fun i (op : Sys2Proof.Claims.Three) => Sys2Proof.Claims.Runs i s ty (2 * n) (.vec n d.toNat) mask
      false fun i _ => op n 0 (h.elem (2 * n) a.toNat i) (h.elem n b.toNat i)
    let narrow := n ≤ 32 ∧ d.toNat % ty.g = 0 ∧ a.toNat % (2 * ty.g) = 0 ∧ b.toNat % ty.g = 0 ∧
      Sys2Proof.Claims.Disjoint d.toNat ty.g a.toNat (2 * ty.g)
    (same → ∀ p ∈ Sys2Proof.Claims.multiplyResults, runs (p.1 d a b m) p.2) ∧
    (same → descriptor → ∀ p ∈ Sys2Proof.Claims.roundedResults, runs (p.1 d a b f m) (p.2 q.round)) ∧
    (n ≤ 32 → d.toNat % (2 * ty.g) = 0 → Sys2Proof.Claims.Group ty a → Sys2Proof.Claims.Group ty b →
      Sys2Proof.Claims.Disjoint d.toNat (2 * ty.g) a.toNat ty.g →
      Sys2Proof.Claims.Disjoint d.toNat (2 * ty.g) b.toNat ty.g →
      ∀ p ∈ Sys2Proof.Claims.wideningResults, Sys2Proof.Claims.Runs (p.1 d a b m) s ty (2 * n) (.vec (2 * n) d.toNat)
        mask false fun i _ => p.2 n (h.elem (2 * n) d.toNat i) (h.elem n a.toNat i) (h.elem n b.toNat i)) ∧
    (narrow → ∀ p ∈ Sys2Proof.Claims.narrowingResults, narrows (p.1 d a b m) p.2) ∧
    (narrow → descriptor → ∀ p ∈ Sys2Proof.Claims.clippedResults, narrows (p.1 d a b f m) (p.2 q.round))

/-- The conditions of a vector instruction (R34, R102, R121), shown on the integer instructions: without a type, with
4-bit elements, with a group that does not start at a multiple of its size, or in matrix mode, it is illegal. -/
def Obligations.VectorInstructionsNeedTheirState : Prop :=
  ∀ p ∈ Sys2Proof.Claims.elementResults, ∀ (d a b : BitVec 5) (m : BitVec 3) (s : Sys2Proof.Machine.State),
    let bad := s.hart.vtype = none ∨ s.hart.mode ≠ none ∨ ∃ ty, s.hart.vtype = some ty ∧
      (ty.ew = .e4 ∨ ¬ Sys2Proof.Claims.Group ty d ∨ ¬ Sys2Proof.Claims.Group ty a)
    (bad → ∀ i ∈ [p.1 d a b m, p.2.1 d a b m], Sys2Proof.Machine.exec i s =
      .next (s.takeTrap false 0 0x05 (s.hart.word.setWidth 64)))

namespace Sys2Proof.Claims

open Machine

/-! ## Floating point -/

/-- The value of a finite code of a layout in units of its least exponent (R49). -/
def units (l : Layout) (c : Nat) : Nat :=
  if c / 2 ^ l.mb = 0 then c else (2 ^ l.mb + c % 2 ^ l.mb) * 2 ^ (c / 2 ^ l.mb - 1)

/-- The order of c × 2^b beside m × 2^e. -/
def besideNumber (m : Nat) (e : Int) (c : Nat) (b : Int) : Ordering :=
  compare (c * 2 ^ (b - min b e).toNat) (m * 2 ^ (e - min b e).toNat)

/-- The order of c × 2^b beside (m × 2^e) / (n × 2^k). -/
def besideQuotient (m : Nat) (e : Int) (n : Nat) (k : Int) (c : Nat) (b : Int) : Ordering :=
  besideNumber m e (c * n) (b + k)

/-- The order of c × 2^b beside the square root of m × 2^e. -/
def besideRoot (m : Nat) (e : Int) (c : Nat) (b : Int) : Ordering := besideNumber m e (c * c) (2 * b)

/-- A mode raises the magnitude of a number of a sign (R63). -/
def Outward (r : Rnd) (neg : Bool) : Prop := (r.mode = 2 ∧ neg = true) ∨ (r.mode = 3 ∧ neg = false)

/-- A magnitude between code lo and the next goes to the next: under a mode as IEEE 754 defines it (R63), under a draw r
where the part above lo, in 2^−32 of the gap, reaches 2^32 − r (R65). -/
def Raised (l : Layout) (r : Rnd) (neg : Bool) (beside : Nat → Int → Ordering) (lo : Nat) : Prop :=
  match r.draw with
  | some d => beside (units l lo * 2 ^ 32 + (2 ^ 32 - d.toNat) * (units l (lo + 1) - units l lo)) (l.least - 32) ≠ .gt
  | none =>
    let middle := beside (units l lo + units l (lo + 1)) (l.least - 1)
    (r.mode = 0 ∧ (middle = .lt ∨ (middle = .eq ∧ lo % 2 = 1))) ∨ Outward r neg

/-- An inexact magnitude above code lo is tiny: with the exponent unbounded it would still round below the smallest normal
number (R63). -/
def Tiny (l : Layout) (r : Rnd) (neg : Bool) (beside : Nat → Int → Ordering) (lo : Nat) : Prop :=
  lo + 1 < 2 ^ l.mb ∨ (lo + 1 = 2 ^ l.mb ∧ ¬ (beside (2 * lo + 1) (l.least - 1) = .lt ∧
    ((r.mode = 0 ∧ beside (4 * lo + 3) (l.least - 2) ≠ .gt) ∨ Outward r neg)))

/-- The result of an overflow (R64). -/
def Overflows (l : Layout) (r : Rnd) (neg : Bool) (w : Word) (fl : FlagSet) : Prop :=
  (r.sat = true → w = l.word neg l.top ∧ fl = 0x25) ∧
  (r.sat = false → fl = 0x05 ∧ w = match l.inf with
    | none => BitVec.ofNat 64 l.nan
    | some i => l.word neg (if r.mode = 0 ∨ (r.mode = 2 ∧ neg = true) ∨ (r.mode = 3 ∧ neg = false) then i else l.top))

/-- A magnitude x, known by its order beside c × 2^b, rounded to a layout (R63 to R65): between two neighbouring codes the
result is one of them, the code after the greatest standing for overflow; at or above that code it overflows. -/
def RoundsTo (l : Layout) (r : Rnd) (neg : Bool) (beside : Nat → Int → Ordering) (w : Word) (fl : FlagSet) : Prop :=
  (∀ lo ≤ l.top, beside (units l lo) l.least ≠ .gt → beside (units l (lo + 1)) l.least = .gt →
    let exact := beside (units l lo) l.least = .eq
    let raised := Raised l r neg beside lo
    (exact → w = l.word neg lo ∧ fl = 0) ∧
    (¬ exact → raised → lo = l.top → Overflows l r neg w fl) ∧
    (¬ exact → ¬ (raised ∧ lo = l.top) → (raised → w = l.word neg (lo + 1)) ∧ (¬ raised → w = l.word neg lo) ∧
      fl &&& 0x7D = 0x01 ∧ (r.draw = none → (fl.getLsbD 1 = true ↔ Tiny l r neg beside lo)))) ∧
  (beside (units l (l.top + 1)) l.least ≠ .gt → Overflows l r neg w fl)

/-- (−1)^neg × m × 2^(e − b). -/
def amount (neg : Bool) (m : Nat) (e b : Int) : Int := (if neg then -1 else 1) * (m * 2 ^ (e - b).toNat : Nat)

/-- A value is the number z × 2^b, not zero. -/
def IsNumber (v : Val) (z b : Int) : Prop :=
  ∃ m e, v = .num (decide (z < 0)) m e ∧ z ≠ 0 ∧ amount (decide (z < 0)) m e (min b e) = z * 2 ^ (b - min b e).toNat

/-- The exact operations on values (R51, R52, R80, R81). A sum of numbers is their exact sum; a zero sum is −0 of two
−0, +0 of two +0, and else −0 under rdn alone; infinities of opposite sign, and infinity times zero, are invalid; any other
operation with a NaN gives a NaN without a flag, but that a selection takes the other operand; a product has the exclusive
or of the signs; −0 and +0 compare as equal and −0 is the smaller of them. -/
def ValueOperations : Prop :=
  ∀ (round : BitVec 2) (s t : Bool) (m n : Nat) (e f : Int) (v : Val),
    let b := min e f
    let x := Val.num s m e
    let y := Val.num t n f
    let z := amount s m e b + amount t n f b
    let sum := fun u w => Val.sum round [u, w]
    (sum x y).2 = 0 ∧ (z ≠ 0 → IsNumber (sum x y).1 z b) ∧
    (z = 0 → (sum x y).1 = .num (if m = 0 ∧ n = 0 ∧ s = t then s else round == 2) 0 0) ∧
    sum (.inf s) y = (.inf s, 0) ∧ sum x (.inf t) = (.inf t, 0) ∧ sum (.inf s) (.inf s) = (.inf s, 0) ∧
    sum (.inf s) (.inf (!s)) = (.nan, 0x10) ∧ sum .nan v = (.nan, 0) ∧ sum v .nan = (.nan, 0) ∧
    x.mul y = (.num (s != t) (m * n) (e + f), 0) ∧ (Val.inf s).mul (.inf t) = (.inf (s != t), 0) ∧
    (Val.inf s).mul y = (if n = 0 then (.nan, 0x10) else (.inf (s != t), 0)) ∧
    x.mul (.inf t) = (if m = 0 then (.nan, 0x10) else (.inf (s != t), 0)) ∧
    Val.nan.mul v = (.nan, 0) ∧ v.mul .nan = (.nan, 0) ∧
    x.neg = .num (!s) m e ∧ (Val.inf s).neg = .inf (!s) ∧ Val.nan.neg = .nan ∧
    x.cmp y = some (compare (amount s m e b) (amount t n f b)) ∧
    (Val.inf s).cmp y = some (if s then .lt else .gt) ∧ x.cmp (.inf t) = some (if t then .gt else .lt) ∧
    (Val.inf s).cmp (.inf t) = some (if s = t then .eq else if s then .lt else .gt) ∧
    Val.nan.cmp v = none ∧ v.cmp .nan = none ∧
    (∀ u w : Val, u.cmp w = some .lt → u.pick true w = u ∧ u.pick false w = w ∧ w.pick true u = u ∧ w.pick false u = w) ∧
    (m = 0 → n = 0 → s = true → t = false →
      x.pick true y = x ∧ y.pick true x = x ∧ x.pick false y = y ∧ y.pick false x = y) ∧
    (∀ least, Val.nan.pick least v = v ∧ v.pick least .nan = v)

/-- The special cases of quotients and square roots (R52, R80): a NaN gives the canonical NaN, 0/0 and ∞/∞ are invalid, a
finite number that is not zero over zero gives an infinity with DZ, and the sign is the exclusive or of the signs; the root
of a zero is that zero, that of a number below zero or of −∞ is invalid. -/
def QuotientsAndRoots : Prop :=
  ∀ (f : Fmt) (l : Layout) (r : Rnd) (s t : Bool) (m n : Nat) (e k : Int) (v : Val), f.layout = some l →
    let nan := BitVec.ofNat 64 l.nan
    let infinity := fun neg => f.deliver r (.inf neg)
    f.divide r .nan v = (nan, 0) ∧ f.divide r v .nan = (nan, 0) ∧
    f.divide r (.inf s) (.inf t) = (nan, 0x10) ∧
    f.divide r (.inf s) (.num t n k) = infinity (s != t) ∧
    f.divide r (.num s m e) (.inf t) = (l.word (s != t) 0, 0) ∧
    f.divide r (.num s 0 e) (.num t 0 k) = (nan, 0x10) ∧
    (m ≠ 0 → f.divide r (.num s m e) (.num t 0 k) = ((infinity (s != t)).1, (infinity (s != t)).2 ||| 0x08)) ∧
    (n ≠ 0 → f.divide r (.num s 0 e) (.num t n k) = (l.word (s != t) 0, 0)) ∧
    (n ≠ 0 → f.divide r (.num s m e) (.num t n k) = f.divide r (.num (s != t) m e) (.num false n k)) ∧
    f.sqrt r .nan = (nan, 0) ∧ f.sqrt r (.inf true) = (nan, 0x10) ∧ f.sqrt r (.inf false) = infinity false ∧
    f.sqrt r (.num s 0 e) = (l.word s 0, 0) ∧ (m ≠ 0 → f.sqrt r (.num true m e) = (nan, 0x10))

/-- The magnitude of an LNS6 code in units of 2^−19: candidate L, or zero (R53, R54). -/
def logMagnitude (c : Nat) : Nat := if c = 0 then 0 else [0x8000, 0x9837, 0xB505, 0xD745].getD (c % 4) 0 * 2 ^ (c / 4)

/-- A number delivered in LNS6 (R56): the candidates are zero and the 31 codes of its sign; one that has its value takes
it without a flag; between two, the mode decides, a tie going to the even L; past the greatest it saturates. -/
def LogDelivery : Prop :=
  ∀ (r : Rnd) (s : Bool) (m : Nat) (e : Int),
    let w := Fmt.lns6.deliver r (.num s m e)
    let code := fun c : Nat => if c = 0 then 0#64 else BitVec.ofNat 64 (c + if s then 32 else 0)
    let beside := besideNumber m e
    (beside (logMagnitude 31) (-19) = .lt → w = (code 31, 0x25)) ∧
    (∀ c ≤ 31, beside (logMagnitude c) (-19) = .eq → w = (code c, 0)) ∧
    ∀ c < 31, beside (logMagnitude c) (-19) = .lt → beside (logMagnitude (c + 1)) (-19) = .gt →
      let middle := beside (logMagnitude c + logMagnitude (c + 1)) (-20)
      let up := (r.mode = 0 ∧ (middle = .lt ∨ (middle = .eq ∧ c % 2 = 1))) ∨ Outward r s
      (up → w = (code (c + 1), 0x01)) ∧ (¬ up → w = (code c, if c = 0 then 0x03 else 0x01))

/-- What is delivered of values that are no numbers to round, and of numbers in an integer format (R51, R56, R64): the
canonical NaN; the infinity of the format, in E4M3 an overflow without NX; an integer clamped, a NaN as 0 with NV; a number
as an integer rounded once and clamped, with NX where it differs and SAT where it is clamped; LNS6 as LogDelivery says. -/
def DeliveredElsewhere : Prop :=
  ∀ (f : Fmt) (r : Rnd) (s : Bool) (m : Nat) (e : Int),
    (∀ l, f.layout = some l → f.deliver r .nan = (BitVec.ofNat 64 l.nan, 0) ∧
      f.deliver r (.inf s) = match l.inf with
        | some i => (l.word s i, 0)
        | none => if r.sat then (l.word s l.top, 0x24) else (BitVec.ofNat 64 l.nan, 0x04)) ∧
    LogDelivery ∧ (Fmt.lns6.deliver r .nan = (32, 0x10) ∧ Fmt.lns6.deliver r (.inf s) = (if s then 63 else 31, 0x04)) ∧
    ∀ lo hi, f.range = some (lo, hi) → f.deliver r .nan = (0, 0x10) ∧
      f.deliver r (.inf s) = (wrap f.width (if s then lo else hi), 0x21) ∧
      (r.draw = none →
        let exact := 0 ≤ e ∨ m % 2 ^ (-e).toNat = 0
        let z := if 0 ≤ e then amount s m e 0 else shiftedRight r.mode (amount s m 0 0) (-e).toNat
        let y := max lo (min z hi)
        (f.deliver r (.num s m e)).1 = wrap f.width y ∧
        ((exact ∧ y = z) → (f.deliver r (.num s m e)).2 = 0) ∧
        (¬ exact → y = z → (f.deliver r (.num s m e)).2 = 0x01) ∧
        (y ≠ z → (f.deliver r (.num s m e)).2 = 0x21))

/-- The order of c × 2^b beside a real magnitude. -/
noncomputable def besideReal (x : ℝ) (c : Nat) (b : Int) : Ordering := compare ((c : ℝ) * (2 : ℝ) ^ b) x

/-- A real magnitude lies so near a place where two roundings meet, a part of 2^−33 of the gap between two codes, that the
enclosures of the model may not tell on which side (log 24). -/
def NearBoundary (l : Layout) (x : ℝ) : Prop :=
  ∃ lo ≤ l.top, ∃ j ≤ 2 ^ 33,
    |x - ((units l lo * 2 ^ 33 + j * (units l (lo + 1) - units l lo) : Nat) : ℝ) * (2 : ℝ) ^ (l.least - 33)| ≤
      x * (2 : ℝ) ^ (-190 : Int)

/-- The exact functions of R144 with irrational results, of a number. -/
noncomputable def exactFunction (t : Transcendental) (b : ℝ) : ℝ :=
  match t with
  | .exp2 => (2 : ℝ) ^ b
  | .exp => Real.exp b
  | .log2 => Real.logb 2 b
  | .recip => 1 / b
  | .rsqrt => 1 / Real.sqrt b
  | .tanh => Real.tanh b
  | .sigm => 1 / (1 + Real.exp (-b))

/-- The order of c × 2^b beside 1 / √(m × 2^e). -/
def besideInverseRoot (m : Nat) (e : Int) (c : Nat) (b : Int) : Ordering := besideNumber 1 0 (c * c * m) (2 * b + e)

/-- The special inputs of R145, and the functions of R144 that have rational results or rational tests: 1 / b and 1 / √b
rounded once; 2^b of an integer; log2 of a power of two, which is an integer. -/
def TranscendentalInputs : Prop :=
  ∀ (f : Fmt) (l : Layout) (r : Rnd) (draw key : Nat) (s : Bool) (m : Nat) (e : Int), f ∈ [.fp16, .bf16, .fp32] →
    f.layout = some l →
    let gives := fun t v (w : Word) (fl : FlagSet) => f.transcendental t r draw key v = (w, fl)
    let one := l.bias * 2 ^ l.mb
    let inf := l.inf.getD 0
    let nan := BitVec.ofNat 64 l.nan
    let zero := fun neg => Val.num neg 0 e
    (∀ t, gives t .nan nan 0) ∧
    (∀ t ∈ [.exp2, .exp], gives t (.inf true) (l.word false 0) 0 ∧ gives t (.inf false) (l.word false inf) 0 ∧
      gives t (zero s) (l.word false one) 0) ∧
    (gives .log2 (.inf true) nan 0x10 ∧ gives .log2 (.inf false) (l.word false inf) 0 ∧
      gives .log2 (zero s) (l.word true inf) 0x08) ∧
    (gives .recip (.inf s) (l.word s 0) 0 ∧ gives .recip (zero s) (l.word s inf) 0x08) ∧
    (gives .rsqrt (.inf true) nan 0x10 ∧ gives .rsqrt (.inf false) (l.word false 0) 0 ∧
      gives .rsqrt (zero s) (l.word s inf) 0x08) ∧
    (gives .tanh (.inf s) (l.word s one) 0 ∧ gives .tanh (zero s) (l.word s 0) 0) ∧
    (gives .sigm (.inf true) (l.word false 0) 0 ∧ gives .sigm (.inf false) (l.word false one) 0 ∧
      gives .sigm (zero s) (l.word false (one - 2 ^ l.mb)) 0) ∧
    (m ≠ 0 → gives .log2 (.num true m e) nan 0x10 ∧ gives .rsqrt (.num true m e) nan 0x10) ∧
    (∀ j : Nat, gives .log2 (.num false (2 ^ j) (-j)) (l.word false 0) 0) ∧
    (∀ j : Nat, f.transcendental .log2 r draw key (.num false (2 ^ j) e) = f.deliver r (.ofInt (e + j))) ∧
    (m ≠ 0 → m < 2 ^ 64 →
      (let w := f.transcendental .recip r draw key (.num s m e)
       RoundsTo l r s (besideQuotient 1 0 m e) w.1 w.2) ∧
      (let w := f.transcendental .rsqrt r draw key (.num false m e)
       RoundsTo l r false (besideInverseRoot m e) w.1 w.2)) ∧
    (∀ k : Nat, 0 < k → k ≤ 2000 →
      let w := f.transcendental .exp2 r draw key (.num s k 0)
      RoundsTo l r false (besideNumber 1 (if s then -k else k)) w.1 w.2)

/-- The two-source functions of R80 and R136 with an exact result: the value and the flags before rounding. -/
def sumOf (round : BitVec 2) (b c : Val) : Val × FlagSet := Val.sum round [b, c]
def differenceOf (round : BitVec 2) (b c : Val) : Val × FlagSet := Val.sum round [b, c.neg]
def productOf (_ : BitVec 2) (b c : Val) : Val × FlagSet := b.mul c
def smallerOf (_ : BitVec 2) (b c : Val) : Val × FlagSet := (b.pick true c, 0)
def largerOf (_ : BitVec 2) (b c : Val) : Val × FlagSet := (b.pick false c, 0)

/-- A fused multiply-add before rounding (R80, R139): an invalid product decides even beside a NaN. -/
def fusedOf (round : BitVec 2) (minus : Bool) (b c z : Val) : Val × FlagSet :=
  if (b.mul c).2 ≠ 0 then (.nan, (b.mul c).2) else Val.sum round [if minus then (b.mul c).1.neg else (b.mul c).1, z]

/-- The scalar functions of R80. -/
def scalarFloats : List ((BitVec 5 → BitVec 5 → BitVec 5 → Instr) × (BitVec 2 → Val → Val → Val × FlagSet)) :=
  [(.fadd, sumOf), (.fsub, differenceOf), (.fmul, productOf), (.fmin, smallerOf), (.fmax, largerOf)]

/-- A format field of a scalar instruction is a floating-point one (R79). -/
def FloatField (c : BitVec 4) (f : Fmt) : Prop := fmtOf c = some f ∧ 7 ≤ c.toNat ∧ c.toNat ≤ 12

/-- An integer one (R79). -/
def IntField (c : BitVec 4) (f : Fmt) : Prop := fmtOf c = some f ∧ c.toNat ≤ 4

/-- A scalar floating-point result: x[A], the flags, the draw (R66, R67). -/
def floatResult (d : BitVec 5) (q : Desc) (r : Word × FlagSet) (s : State) : State :=
  after (fun h => { h with flags := h.flags ||| r.2, srgen := if q.sr then srSteps 32 h.srgen else h.srgen }.wx d r.1) s

/-- The comparisons of R81 and R136: what they give of the order of b and c, and whether a NaN sets NV. -/
def comparisonBit (holds : Ordering → Bool) (unordered : Bool) (nv : Bool) (b c : Val) : Word × FlagSet :=
  match b.cmp c with
  | none => (if unordered then 1 else 0, if nv then 0x10 else 0)
  | some o => (if holds o then 1 else 0, 0)

/-- The bit of FCLASS and VFCLASS (R81). -/
def classBit (f : Fmt) (w : Word) : Word :=
  match f.layout with
  | none => 0
  | some l =>
    let neg := w.getLsbD (f.width - 1)
    let c := w.toNat % 2 ^ l.magBits
    if l.inf = some c then (if neg then 1 else 128)
    else if l.top < c then 256
    else if c = 0 then (if neg then 8 else 16)
    else if c < 2 ^ l.mb then (if neg then 4 else 32)
    else if neg then 2 else 64

/-- An element with its sign replaced; a NaN gives the canonical NaN (R81, R138). -/
def signed (f : Fmt) (w : Word) (neg : Bool) : Word :=
  match f.layout with
  | none => 0
  | some l =>
    let c := w.toNat % 2 ^ l.magBits
    if l.top < c ∧ l.inf ≠ some c then BitVec.ofNat 64 l.nan else BitVec.ofNat 64 (c + if neg then 2 ^ l.magBits else 0)

/-- The product of two LNS6 codes (R55): the exponents add, with NaR, zero, and the clamps at both ends. -/
def logProduct (u v : Word) : Word × FlagSet :=
  let a := u.toNat % 64
  let b := v.toNat % 64
  let sign := if a / 32 = b / 32 then 0 else 32
  let l := a % 32 + b % 32
  if a = 32 ∨ b = 32 then (32, 0)
  else if a = 0 ∨ b = 0 then (0, 0)
  else if 47 < l then (BitVec.ofNat 64 (31 + sign), 0x25)
  else if l < 17 then (0, 0x03)
  else (BitVec.ofNat 64 (l - 16 + sign), 0)

/-- The functions of majors 0x24 and 0x25 with an exact result, by their forms (R136). -/
def vectorFloats : List ((BitVec 5 → BitVec 5 → BitVec 5 → BitVec 3 → BitVec 3 → Instr) ×
    (BitVec 5 → BitVec 5 → BitVec 5 → BitVec 3 → BitVec 3 → Instr) ×
    (Fmt → Rnd → Val → Val → Word × FlagSet)) :=
  [(.vfadd, .vfaddF, fun f r b c => f.deliverWith r (sumOf r.mode b c)),
   (.vfsub, .vfsubF, fun f r b c => f.deliverWith r (differenceOf r.mode b c)),
   (.vfmul, .vfmulF, fun f r b c => f.deliverWith r (productOf r.mode b c)),
   (.vfdiv, .vfdivF, fun f r b c => f.divide r b c),
   (.vfmin, .vfminF, fun f r b c => f.deliverWith r (smallerOf r.mode b c)),
   (.vfmax, .vfmaxF, fun f r b c => f.deliverWith r (largerOf r.mode b c))]

/-- The sign injections (R136). -/
def vectorSigns : List ((BitVec 5 → BitVec 5 → BitVec 5 → BitVec 3 → BitVec 3 → Instr) ×
    (BitVec 5 → BitVec 5 → BitVec 5 → BitVec 3 → BitVec 3 → Instr) × (Bool → Bool → Bool)) :=
  [(.vfsgnj, .vfsgnjF, fun _ c => c), (.vfsgnjn, .vfsgnjnF, fun _ c => !c), (.vfsgnjx, .vfsgnjxF, fun b c => b != c)]

/-- The comparisons to a mask (R136). -/
def vectorFloatMasks : List ((BitVec 5 → BitVec 5 → BitVec 5 → BitVec 3 → BitVec 3 → Instr) ×
    (BitVec 5 → BitVec 5 → BitVec 5 → BitVec 3 → BitVec 3 → Instr) × (Val → Val → Word × FlagSet)) :=
  [(.vmfeq, .vmfeqF, comparisonBit (· == .eq) false false),
   (.vmfne, .vmfneF, comparisonBit (· != .eq) true false),
   (.vmflt, .vmfltF, comparisonBit (· == .lt) false true),
   (.vmfle, .vmfleF, comparisonBit (· != .gt) false true)]

/-- The functions that only the scalar forms have (R136). -/
noncomputable def scalarFormFloats : List ((BitVec 5 → BitVec 5 → BitVec 5 → BitVec 3 → BitVec 3 → Instr) ×
    (Fmt → Rnd → Val → Val → Word × FlagSet)) :=
  [(.vfrsubF, fun f r b c => f.deliverWith r (differenceOf r.mode c b)), (.vfrdivF, fun f r b c => f.divide r c b)]
noncomputable def scalarFormMasks : List ((BitVec 5 → BitVec 5 → BitVec 5 → BitVec 3 → BitVec 3 → Instr) ×
    (Val → Val → Word × FlagSet)) :=
  [(.vmfgtF, comparisonBit (· == .gt) false true), (.vmfgeF, comparisonBit (· != .lt) false true)]

/-- The same-width fused functions of major 0x26 (R139): from the old vA[i], b and c. -/
noncomputable def fusedFloats : List ((BitVec 5 → BitVec 5 → BitVec 5 → BitVec 3 → BitVec 3 → Instr) ×
    (BitVec 2 → Val → Val → Val → Val × FlagSet)) :=
  [(.vfmacc, fun r v b c => fusedOf r false b c v), (.vfnmsac, fun r v b c => fusedOf r true b c v),
   (.vfmadd, fun r v b c => fusedOf r false v b c), (.vfmsub, fun r v b c => fusedOf r false v b c.neg)]
noncomputable def wideFusedFloats : List ((BitVec 5 → BitVec 5 → BitVec 5 → BitVec 3 → BitVec 3 → Instr) × Bool) :=
  [(.vfwmacc, false), (.vfwnmsac, true)]

/-- The transcendentals (R143). -/
noncomputable def transcendentals : List ((BitVec 5 → BitVec 5 → BitVec 3 → BitVec 3 → Instr) × Transcendental) :=
  [(.vexp2, .exp2), (.vexp, .exp), (.vlog2, .log2), (.vrecip, .recip), (.vrsqrt, .rsqrt), (.vtanh, .tanh),
   (.vsigm, .sigm)]

/-- The conversions of major 0x27 (R140), by what their fields a and d may hold. -/
def floatLike (f : Fmt) : Prop := f.layout ≠ none ∨ f = .lns6
noncomputable def conversions : List ((BitVec 5 → BitVec 5 → BitVec 3 → BitVec 3 → Instr) × (Fmt → Fmt → Prop)) :=
  [(.vfcvtFF, fun x y => floatLike x ∧ floatLike y),
   (.vfcvtIF, fun x y => x.layout ≠ none ∧ y.range ≠ none),
   (.vfcvtFI, fun x y => x.range ≠ none ∧ y.layout ≠ none)]

/-- One format of R137 of width SEW in a, b and d. -/
def OneFloat (q : Desc) (x : Fmt) (n : Nat) : Prop :=
  q.a = q.b ∧ q.b = q.d ∧ fmtOf q.a = some x ∧ 9 ≤ q.a.toNat ∧ q.a.toNat ≤ 12 ∧ x.width = n

end Sys2Proof.Claims

/-- The constants of every format (R45 to R47, R49, R50, R53, R54, R57): its code, its width in a register, the range of an
integer format, the layout of a floating-point format with its bias, its largest finite code, its infinity and its canonical
NaN; and the value of every code of each, with the flag of the reserved INT4 code. -/
def Sys2Proof.Claims.FormatConstants : Prop :=
  let integers : List (BitVec 4 × Sys2Proof.Machine.Fmt × Nat × Int × Int) :=
    [(0, .int8, 8, -128, 127), (1, .uint8, 8, 0, 255), (2, .int16, 16, -32768, 32767),
     (3, .int32, 32, -2147483648, 2147483647), (4, .int64, 64, -9223372036854775808, 9223372036854775807),
     (5, .int4, 4, -7, 7), (14, .uint4, 4, 0, 15)]
  let floats : List (BitVec 4 × Sys2Proof.Machine.Fmt × Nat × Nat × Nat × Nat × Option Nat × Nat) :=
    [(7, .e4m3, 4, 3, 7, 0x7E, none, 0x7F), (8, .e5m2, 5, 2, 15, 0x7B, some 0x7C, 0x7E),
     (9, .fp16, 5, 10, 15, 0x7BFF, some 0x7C00, 0x7E00), (10, .bf16, 8, 7, 127, 0x7F7F, some 0x7F80, 0x7FC0),
     (11, .fp32, 8, 23, 127, 0x7F7FFFFF, some 0x7F800000, 0x7FC00000),
     (12, .fp64, 11, 52, 1023, 0x7FEFFFFFFFFFFFFF, some 0x7FF0000000000000, 0x7FF8000000000000)]
  let number := fun x : Int => Sys2Proof.Machine.Val.num (decide (x < 0)) x.natAbs 0
  Sys2Proof.Machine.fmtOf 15 = none ∧ Sys2Proof.Machine.fmtOf 13 = some .block ∧
  Sys2Proof.Machine.fmtOf 6 = some .lns6 ∧ Sys2Proof.Machine.Fmt.lns6.width = 8 ∧
  Sys2Proof.Machine.Fmt.lns6.layout = none ∧ Sys2Proof.Machine.Fmt.lns6.range = none ∧
  (∀ p ∈ integers, Sys2Proof.Machine.fmtOf p.1 = some p.2.1 ∧ p.2.1.width = p.2.2.1 ∧ p.2.1.layout = none ∧
    p.2.1.range = some p.2.2.2 ∧ ∀ w : Sys2Proof.Word, p.2.1.value w =
      if p.2.1 = .int4 ∧ w.toNat % 16 = 8 then (number 0, 0x40)
      else (number (if p.2.2.2.1 = 0 then w.toNat % 2 ^ p.2.2.1 else Sys2Proof.Claims.sgn p.2.2.1 w), 0)) ∧
  (∀ p ∈ floats, Sys2Proof.Machine.fmtOf p.1 = some p.2.1 ∧ p.2.1.range = none ∧ ∃ l, p.2.1.layout = some l ∧
    (l.eb, l.mb, l.bias, l.top, l.inf, l.nan) = p.2.2 ∧ p.2.1.width = 1 + l.eb + l.mb ∧
    l.least = 1 - (l.bias : Int) - (l.mb : Int) ∧
    (∀ neg c, l.word neg c = BitVec.ofNat 64 (c + if neg then 2 ^ (l.eb + l.mb) else 0)) ∧
    ∀ w : Sys2Proof.Word,
      let neg := w.getLsbD (l.eb + l.mb)
      let c := w.toNat % 2 ^ (l.eb + l.mb)
      let exponent := c / 2 ^ l.mb
      let fraction := c % 2 ^ l.mb
      p.2.1.value w =
        (if l.inf = some c then .inf neg else if l.top < c then .nan
         else if exponent = 0 then .num neg fraction (1 - (l.bias : Int) - (l.mb : Int))
         else .num neg (2 ^ l.mb + fraction) ((exponent : Int) - (l.bias : Int) - (l.mb : Int)), 0)) ∧
  ∀ w : Sys2Proof.Word, Sys2Proof.Machine.Fmt.lns6.value w =
    let c := w.toNat % 64
    (if c = 0 then number 0 else if c = 32 then .nan
     else .num (decide (32 ≤ c)) ([0x8000, 0x9837, 0xB505, 0xD745].getD (c % 4) 0) ((c % 32 / 4 : Nat) - 4 - 15), 0)

/-- The transcendental functions (R143, R144) of a number of FP16, BF16 or FP32, positive for the logarithm and the inverse
root: the exact value rounded once, with the flags of R63 and R64. Of an exact value that is itself a code, the result is
that code, whose flags R145 and TranscendentalInputs give; where the exact value lies within 2^−190 of it from a place where
two roundings meet, the model leaves the result free (log 24). -/
def Obligations.TranscendentalsAreRounded : Prop :=
  ∀ (f : Sys2Proof.Machine.Fmt) (l : Sys2Proof.Machine.Layout) (t : Sys2Proof.Machine.Transcendental)
    (r : Sys2Proof.Machine.Rnd) (draw key : Nat) (w : Sys2Proof.Word) (s : Bool) (m : Nat) (e : Int),
    f ∈ [Sys2Proof.Machine.Fmt.fp16, .bf16, .fp32] → f.layout = some l → (f.value w).1 = .num s m e → m ≠ 0 →
    (t ∈ [Sys2Proof.Machine.Transcendental.log2, .rsqrt] → s = false) →
    let x := Sys2Proof.Claims.exactFunction t ((if s then -1 else 1) * (m : ℝ) * (2 : ℝ) ^ e)
    let out := f.transcendental t r draw key (.num s m e)
    Sys2Proof.Claims.RoundsTo l r (decide (x < 0)) (Sys2Proof.Claims.besideReal |x|) out.1 out.2 ∨
    (∃ c ≤ l.top, |x| = (Sys2Proof.Claims.units l c : ℝ) * (2 : ℝ) ^ l.least ∧ out.1 = l.word (decide (x < 0)) c) ∨
    Sys2Proof.Claims.NearBoundary l |x|

/-- Rounding (R63 to R65): a number, a quotient and a square root delivered in a floating-point format are rounded once,
as IEEE 754 defines the four modes or as the draw says, with the overflow of R64 and tininess found after rounding; the
operands of a quotient or a root have at most 64 significant bits, as every element has. -/
def Sys2Proof.Claims.RoundingIsIeee : Prop :=
  ∀ (f : Sys2Proof.Machine.Fmt) (l : Sys2Proof.Machine.Layout) (r : Sys2Proof.Machine.Rnd) (neg : Bool) (m n : Nat)
    (e k : Int), f.layout = some l →
    (let w := f.deliver r (.num neg m e)
     Sys2Proof.Claims.RoundsTo l r neg (Sys2Proof.Claims.besideNumber m e) w.1 w.2) ∧
    (n ≠ 0 → m ≠ 0 → m < 2 ^ 64 → n < 2 ^ 64 →
      let w := f.divide r (.num neg m e) (.num false n k)
      Sys2Proof.Claims.RoundsTo l r neg (Sys2Proof.Claims.besideQuotient m e n k) w.1 w.2) ∧
    (m ≠ 0 → m < 2 ^ 64 →
      let w := f.sqrt r (.num false m e)
      Sys2Proof.Claims.RoundsTo l r false (Sys2Proof.Claims.besideRoot m e) w.1 w.2)

/-- Majors 0x0A and 0x0B (R79 to R81): arithmetic rounds the exact result once to fm0.d; comparisons, classes, signs and
conversions give what their rows say; flags are ORed into fflags. The exact operations, the special cases of division and
square root and what is delivered of values that are no numbers, in integer formats and in LNS6, are stated with them;
RoundingIsIeee has the rounding of numbers. -/
def Obligations.ScalarFloatResults : Prop :=
  Sys2Proof.Claims.ValueOperations ∧ Sys2Proof.Claims.DeliveredElsewhere ∧ Sys2Proof.Claims.QuotientsAndRoots ∧
  ∀ (d a b : BitVec 5) (s : Sys2Proof.Machine.State) (fa fb fd : Sys2Proof.Machine.Fmt),
    let q := s.hart.desc 0
    let r := q.rnd (if q.sr then some (Sys2Proof.Machine.srSteps 32 s.hart.srgen) else none)
    let x := (fa.value (s.hart.rx a)).1
    let y := (fb.value (s.hart.rx b)).1
    let gives := fun i w => Sys2Proof.Machine.exec i s = .next (Sys2Proof.Claims.floatResult d q w s)
    let tells := fun i w => Sys2Proof.Machine.exec i s =
      .next (Sys2Proof.Claims.floatResult d { q with sr := false } w s)
    q.block = 0 →
    (q.common true false = true → Sys2Proof.Claims.FloatField q.a fa → Sys2Proof.Claims.FloatField q.d fd →
      gives (.fsqrt d a) (fd.sqrt r x) ∧ gives (.fcvtFF d a) (fd.deliver r x) ∧
      (Sys2Proof.Claims.FloatField q.b fb →
        (∀ p ∈ Sys2Proof.Claims.scalarFloats, gives (p.1 d a b) (fd.deliverWith r (p.2 q.round x y))) ∧
        gives (.fdiv d a b) (fd.divide r x y) ∧
        gives (.fma d a b) (fd.deliverWith r (Sys2Proof.Claims.fusedOf q.round false x y (fd.value (s.hart.rx d)).1)) ∧
        gives (.fnma d a b) (fd.deliverWith r (Sys2Proof.Claims.fusedOf q.round true x y (fd.value (s.hart.rx d)).1)))) ∧
    (q.common true false = true → Sys2Proof.Claims.FloatField q.a fa → Sys2Proof.Claims.IntField q.d fd →
      let w := fd.deliver r x
      gives (.fcvtIF d a) (if fd = .uint8 then BitVec.ofNat 64 (w.1.toNat % 256)
        else BitVec.ofInt 64 (Sys2Proof.Claims.sgn fd.width w.1), w.2)) ∧
    (q.common true false = true → Sys2Proof.Claims.IntField q.a fa → Sys2Proof.Claims.FloatField q.d fd →
      gives (.fcvtFI d a) (fd.deliver r x)) ∧
    (q.common false false = true → Sys2Proof.Claims.FloatField q.a fa →
      tells (.fclass d a) (Sys2Proof.Claims.classBit fa (s.hart.rx a), 0) ∧
      (q.d = q.a → tells (.fneg d a) (Sys2Proof.Claims.signed fa (s.hart.rx a)
          (!(s.hart.rx a).getLsbD (fa.width - 1)), 0) ∧
        tells (.fabs d a) (Sys2Proof.Claims.signed fa (s.hart.rx a) false, 0)) ∧
      (Sys2Proof.Claims.FloatField q.b fb →
        tells (.feq d a b) (Sys2Proof.Claims.comparisonBit (· == .eq) false false x y) ∧
        tells (.flt d a b) (Sys2Proof.Claims.comparisonBit (· == .lt) false true x y) ∧
        tells (.fle d a b) (Sys2Proof.Claims.comparisonBit (· != .gt) false true x y)))

/-- Majors 0x24 and 0x25 (R136 to R138) on one format of SEW bits: each active element is the exact result rounded once,
with one draw an element where the descriptor asks for it; signs, classes and comparisons raise what R138 says; the
product has an LNS6 form. What the exact operations give is stated in ScalarFloatResults. -/
def Obligations.VectorFloatResults : Prop :=
  ∀ (d a b : BitVec 5) (f m : BitVec 3) (s : Sys2Proof.Machine.State) (ty : Sys2Proof.Machine.TypeState)
    (x : Sys2Proof.Machine.Fmt),
    let n := ty.ew.bits
    let h := s.hart
    let q := h.desc f
    let mask := Sys2Proof.Claims.maskOf s m
    let val := fun w => (x.value w).1
    let vec := fun i => h.elem n b.toNat i
    let low := fun _ : Nat => Sys2Proof.Claims.lowOf s n b
    let runs := fun i c (op : Sys2Proof.Machine.Rnd → Sys2Proof.Word → Sys2Proof.Word → Sys2Proof.Word × BitVec 7) =>
      Sys2Proof.Claims.Runs i s ty n (.vec n d.toNat) mask q.sr
        fun i draw => op (q.rnd draw) (h.elem n a.toNat i) (c i)
    let tells := fun i c (op : Sys2Proof.Word → Sys2Proof.Word → Sys2Proof.Word × BitVec 7) =>
      Sys2Proof.Claims.Runs i s ty n (.vec n d.toNat) mask false fun i _ => op (h.elem n a.toNat i) (c i)
    let bits := fun i c (op : Sys2Proof.Machine.Val → Sys2Proof.Machine.Val → Sys2Proof.Word × BitVec 7) =>
      Sys2Proof.Claims.Runs i s ty n (.mask d.toNat) mask false
        fun i _ => op (val (h.elem n a.toNat i)) (val (c i))
    Sys2Proof.Claims.VectorReady s ty → Sys2Proof.Claims.Group ty a →
    (q.common true false = true → Sys2Proof.Claims.OneFloat q x n → Sys2Proof.Claims.Group ty d →
      (∀ p ∈ Sys2Proof.Claims.vectorFloats,
        (Sys2Proof.Claims.Group ty b → runs (p.1 d a b f m) vec fun r u v => p.2.2 x r (val u) (val v)) ∧
        runs (p.2.1 d a b f m) low fun r u v => p.2.2 x r (val u) (val v)) ∧
      (∀ p ∈ Sys2Proof.Claims.scalarFormFloats, runs (p.1 d a b f m) low fun r u v => p.2 x r (val u) (val v)) ∧
      runs (.vfsqrt d a f m) low fun r u _ => x.sqrt r (val u)) ∧
    (q.common true false = true → q.a = 6 → q.b = 6 → q.d = 6 → n = 8 → s.hart.cluster < 36 →
      Sys2Proof.Claims.Group ty d →
      (Sys2Proof.Claims.Group ty b → tells (.vfmul d a b f m) vec Sys2Proof.Claims.logProduct) ∧
      tells (.vfmulF d a b f m) low Sys2Proof.Claims.logProduct) ∧
    (q.common false false = true → Sys2Proof.Claims.OneFloat q x n → Sys2Proof.Claims.Group ty d →
      (∀ p ∈ Sys2Proof.Claims.vectorSigns,
        (Sys2Proof.Claims.Group ty b → tells (p.1 d a b f m) vec fun u v =>
          (Sys2Proof.Claims.signed x u (p.2.2 (u.getLsbD (n - 1)) (v.getLsbD (n - 1))), 0)) ∧
        tells (p.2.1 d a b f m) low fun u v =>
          (Sys2Proof.Claims.signed x u (p.2.2 (u.getLsbD (n - 1)) (v.getLsbD (n - 1))), 0))) ∧
    (q.common false false = true → Sys2Proof.Machine.fmtOf q.a = some x → 9 ≤ q.a.toNat → q.a.toNat ≤ 12 →
      x.width = n → Sys2Proof.Claims.Group ty d → Sys2Proof.Claims.FormatsHere s q →
      tells (.vfclass d a f m) low fun u _ => (Sys2Proof.Claims.classBit x u, 0)) ∧
    (q.common false false = true → Sys2Proof.Machine.fmtOf q.a = some x → 9 ≤ q.a.toNat → q.a.toNat ≤ 12 →
      x.width = n → q.b = q.a → Sys2Proof.Claims.FormatsHere s q → 0 < d.toNat → d.toNat < 8 →
      (∀ p ∈ Sys2Proof.Claims.vectorFloatMasks,
        (Sys2Proof.Claims.Group ty b → bits (p.1 d a b f m) vec p.2.2) ∧ bits (p.2.1 d a b f m) low p.2.2) ∧
      ∀ p ∈ Sys2Proof.Claims.scalarFormMasks, bits (p.1 d a b f m) low p.2)

/-- Majors 0x26, 0x27 and 0x2B (R139, R140, R143): fused multiply-adds round once, the wide ones into twice the width;
conversions read format a and deliver format d, VICVT by the arithmetic row of R64; transcendentals give the function
of each element, with the special inputs of R145 (TranscendentalsAreRounded has their values). Where the enclosure of a
transcendental does not decide its rounding the value is free (log 24). -/
def Obligations.VectorFusedAndConverted : Prop :=
  Sys2Proof.Claims.TranscendentalInputs ∧
  ∀ (d a b : BitVec 5) (f m : BitVec 3) (s : Sys2Proof.Machine.State) (ty : Sys2Proof.Machine.TypeState)
    (x y : Sys2Proof.Machine.Fmt),
    let n := ty.ew.bits
    let h := s.hart
    let q := h.desc f
    let mask := Sys2Proof.Claims.maskOf s m
    let val := fun (k : Sys2Proof.Machine.Fmt) w => (k.value w).1
    let wide := max x.width y.width
    let od := ty.g * y.width / n
    let oa := ty.g * x.width / n
    Sys2Proof.Claims.VectorReady s ty → q.common true false = true → Sys2Proof.Claims.FormatsHere s q →
    (Sys2Proof.Claims.OneFloat q x n → Sys2Proof.Claims.Group ty d → Sys2Proof.Claims.Group ty a →
      (Sys2Proof.Claims.Group ty b → ∀ p ∈ Sys2Proof.Claims.fusedFloats,
        Sys2Proof.Claims.Runs (p.1 d a b f m) s ty n (.vec n d.toNat) mask q.sr fun i draw =>
          x.deliverWith (q.rnd draw) (p.2 q.round (val x (h.elem n d.toNat i)) (val x (h.elem n a.toNat i))
            (val x (h.elem n b.toNat i))))) ∧
    ((q.a = 9 ∧ q.d = 11) ∨ (q.a = 10 ∧ q.d = 11) ∨ (q.a = 11 ∧ q.d = 12) → q.b = q.a → Sys2Proof.Machine.fmtOf q.a = some x →
      Sys2Proof.Machine.fmtOf q.d = some y → x.width = n → d.toNat % (2 * ty.g) = 0 → Sys2Proof.Claims.Group ty a →
      Sys2Proof.Claims.Group ty b → Sys2Proof.Claims.Disjoint d.toNat (2 * ty.g) a.toNat ty.g →
      Sys2Proof.Claims.Disjoint d.toNat (2 * ty.g) b.toNat ty.g →
      ∀ p ∈ Sys2Proof.Claims.wideFusedFloats,
        Sys2Proof.Claims.Runs (p.1 d a b f m) s ty (2 * n) (.vec (2 * n) d.toNat) mask q.sr fun i draw =>
          y.deliverWith (q.rnd draw) (Sys2Proof.Claims.fusedOf q.round p.2 (val x (h.elem n a.toNat i))
            (val x (h.elem n b.toNat i)) (val y (h.elem (2 * n) d.toNat i)))) ∧
    (Sys2Proof.Machine.fmtOf q.a = some x → Sys2Proof.Machine.fmtOf q.d = some y → min x.width y.width = n → od ≤ 16 → oa ≤ 16 →
      d.toNat % od = 0 → a.toNat % oa = 0 → (x.width ≠ y.width → Sys2Proof.Claims.Disjoint d.toNat od a.toNat oa) →
      (∀ p ∈ Sys2Proof.Claims.conversions, p.2 x y →
        Sys2Proof.Claims.Runs (p.1 d a f m) s ty wide (.vec y.width d.toNat) mask q.sr fun i draw =>
          let v := x.value (h.elem x.width a.toNat i)
          ((y.deliver (q.rnd draw) v.1).1, v.2 ||| (y.deliver (q.rnd draw) v.1).2)) ∧
      (∀ lo hi, x.range ≠ none → y.range = some (lo, hi) →
        Sys2Proof.Claims.Runs (.vicvt d a f m) s ty wide (.vec y.width d.toNat) mask q.sr fun i _ =>
          let v := x.value (h.elem x.width a.toNat i)
          let z := match v.1 with
            | .num neg k e => (if neg then -(k * 2 ^ e.toNat : Int) else k * 2 ^ e.toNat)
            | _ => 0
          let w := if q.sat = true ∨ y.width = 4 then Sys2Proof.Claims.clamped y.width lo hi z
            else (Sys2Proof.Claims.wrap y.width z, 0)
          (w.1, v.2 ||| w.2))) ∧
    (q.a = 9 ∨ q.a = 10 ∨ q.a = 11 → q.d = q.a → Sys2Proof.Machine.fmtOf q.a = some x → x.width = n → Sys2Proof.Claims.Group ty d →
      Sys2Proof.Claims.Group ty a → ∀ p ∈ Sys2Proof.Claims.transcendentals,
        Sys2Proof.Claims.Runs (p.1 d a f m) s ty n (.vec n d.toNat) mask q.sr fun i draw =>
          x.transcendental p.2 (q.rnd draw) s.steps i (val x (h.elem n a.toNat i)))

namespace Sys2Proof.Claims

open Machine

/-- A number below zero. -/
def isNegative (v : Val) : Bool :=
  match v with
  | .num neg m _ => neg && m != 0
  | _ => false

/-! ## Reductions, permutes, masks, deferral, block conversions -/

/-- A node of the tree of R72 over elements: the value of the node, if any leaf below it is active, and the flags of
the combinations below it. -/
def treeNode (combine : Word → Word → Word × FlagSet) (leaf : Nat → Option Word) : Nat → Nat → Option Word × FlagSet
  | 0, j => (leaf j, 0)
  | k + 1, j =>
    let l := treeNode combine leaf k (2 * j)
    let r := treeNode combine leaf k (2 * j + 1)
    match l.1, r.1 with
    | none, _ => (r.1, l.2 ||| r.2)
    | some _, none => (l.1, l.2 ||| r.2)
    | some x, some y => (some (combine x y).1, l.2 ||| r.2 ||| (combine x y).2)

/-- The result of a reduction (R72): the initial value combined with the root; alone, as `whole` gives it. -/
def reduced (combine : Word → Word → Word × FlagSet) (whole : Word → Word) (leaf : Nat → Option Word) (init : Word) :
    Word × FlagSet :=
  match treeNode combine leaf 16 0 with
  | (none, fl) => (whole init, fl)
  | (some x, fl) => ((combine init x).1, fl ||| (combine init x).2)

/-- A reduction into element 0, w bits wide, of register d (R146, R147): elements 1 to VLMAX − 1 of that register follow
the tail rule; everything else of the vector state but the flags stays. -/
def Reduces (i : Instr) (s : State) (ty : TypeState) (w d : Nat) (result : Word × FlagSet) : Prop :=
  ∃ u, exec i s = .next u ∧ Retired s u ∧ VectorFrame s u ∧ u.hart.m = s.hart.m ∧ u.hart.srgen = s.hart.srgen ∧
    (∀ k < 32, k ≠ d → u.hart.v[k]? = s.hart.v[k]?) ∧
    (s.hart.vl = 0 → u.hart.v = s.hart.v ∧ u.hart.flags = s.hart.flags) ∧
    (s.hart.vl ≠ 0 → u.hart.flags = s.hart.flags ||| result.2 ∧ u.hart.elem w d 0 = wrap w result.1.toNat ∧
      ∀ i, 0 < i → i < 512 * s.hart.grant.lanes / w → u.hart.elem w d i =
        if i < elements s.hart ty ∧ s.hart.mmode.getLsbD 1 = true then 0 else s.hart.elem w d i)

/-- The integer reductions and what they combine by (R146). -/
noncomputable def reductions : List ((BitVec 5 → BitVec 5 → BitVec 5 → BitVec 3 → Instr) × Two) :=
  [(.vredsum, fun n b c => wrap n (b.toNat + c.toNat)), (.vredand, fun _ b c => b &&& c),
   (.vredor, fun _ b c => b ||| c), (.vredxor, fun _ b c => b ^^^ c),
   (.vredmin, fun n b c => wrap n (min (sgn n b) (sgn n c))), (.vredmax, fun n b c => wrap n (max (sgn n b) (sgn n c))),
   (.vredminu, fun n b c => wrap n (min b.toNat c.toNat)), (.vredmaxu, fun n b c => wrap n (max b.toNat c.toNat))]
noncomputable def floatReductions : List ((BitVec 5 → BitVec 5 → BitVec 5 → BitVec 3 → BitVec 3 → Instr) ×
    (BitVec 2 → Val → Val → Val × FlagSet)) :=
  [(.vfredsum, sumOf), (.vfredmin, smallerOf), (.vfredmax, largerOf)]

/-- The mask logic of R148. -/
noncomputable def maskResults : List ((BitVec 5 → BitVec 5 → BitVec 5 → Instr) × (Bool → Bool → Bool)) :=
  [(.vmand, fun x y => x && y), (.vmor, fun x y => x || y), (.vmxor, fun x y => x != y), (.vmandn, fun x y => x && !y),
   (.vmorn, fun x y => x || !y), (.vmnand, fun x y => !(x && y)), (.vmnor, fun x y => !(x || y)),
   (.vmxnor, fun x y => x == y)]

/-- The active elements below an index. -/
def activeBelow (s : State) (act : Nat → Bool) (n : Nat) : List Nat :=
  (List.range n).filter fun i => decide (i < s.hart.vl.toNat) && act i

/-- A transfer to a scalar register (R149): no vector state but vprog changes. -/
def Transfers (i : Instr) (s : State) (d : BitVec 5) (w : Word) : Prop :=
  ∃ u, exec i s = .next u ∧ Retired s u ∧ { u with hart := s.hart, cores := s.cores } = s ∧
    (∀ k, (u.core k).tcm = (s.core k).tcm) ∧ u.hart.v = s.hart.v ∧ u.hart.m = s.hart.m ∧ u.hart.flags = s.hart.flags ∧
    u.hart.unsure = s.hart.unsure ∧
    u.hart.srgen = s.hart.srgen ∧ u.hart.vl = s.hart.vl ∧ u.hart.vtype = s.hart.vtype ∧ u.hart.dq = s.hart.dq ∧
    (d ≠ 0 → ¬ Strides s.hart d → u.hart.rx d = w) ∧
    ∀ r, r ≠ d → ¬ Strides s.hart r → u.hart.rx r = s.hart.rx r

/-- The records of a deferral queue that a drain may take: those at its front that have the current width (R151). -/
def drainable (ew : Ew) (q : List Deferred) : Nat := (q.takeWhile fun r => decide (r.ew = ew)).length

/-- The emax of the element formats of blocks (R59). -/
def blockTop (f : Fmt) : Int :=
  match f with
  | .int8 => 6
  | .int4 => 2
  | .uint4 => 3
  | .lns6 => 3
  | .e4m3 => 8
  | .e5m2 => 15
  | _ => 0

/-- The scale byte that R59 chooses for values. -/
def ScaleByte (f : Fmt) (l : List Val) (k : Byte) : Prop :=
  ((∃ v ∈ l, ∀ neg m e, v ≠ .num neg m e) → k = 0xFF) ∧
  ((∀ v ∈ l, ∃ neg e, v = .num neg 0 e) → k = 0) ∧
  ∀ neg m e, (∀ v ∈ l, ∃ g a b, v = .num g a b ∧ (a ≠ 0 → b + Nat.log2 a ≤ e + Nat.log2 m)) → .num neg m e ∈ l →
    m ≠ 0 → k = BitVec.ofInt 8 (max (-127) (min (e + Nat.log2 m - blockTop f) 127) + 127)

/-- The state with a vector register as it was before. -/
def keepReg (s : State) (b : BitVec 5) (u : State) : State :=
  u.onHart fun h =>
    { h with v := h.v.setIfInBounds b.toNat (s.hart.v[b.toNat]?.getD zeroReg)
             unsure := s.hart.unsure.filter fun k => decide (k = b.toNat) || h.unsure.contains k }

end Sys2Proof.Claims

/-- Major 0x28 (R72, R146, R147): the active elements are combined in the pairwise tree
over element indices, then with element 0 of vC, in the width or format of the destination; a float sum rounds once
at every node; with no active element the result is the initial value, a NaN as the canonical one (R51). That the tail rule
covers elements of the one register only is the model's reading (log 25). -/
def Obligations.VectorReductions : Prop :=
  ∀ (d a b : BitVec 5) (f m : BitVec 3) (s : Sys2Proof.Machine.State) (ty : Sys2Proof.Machine.TypeState)
    (x y : Sys2Proof.Machine.Fmt),
    let n := ty.ew.bits
    let h := s.hart
    let q := h.desc f
    let r := q.rnd none
    let val := fun (k : Sys2Proof.Machine.Fmt) w => (k.value w).1
    let leaf := fun (g : Sys2Proof.Word → Sys2Proof.Word) i =>
      if i < h.vl.toNat ∧ Sys2Proof.Claims.maskOf s m i = true then some (g (h.elem n a.toNat i)) else none
    Sys2Proof.Claims.VectorReady s ty → h.vprog = 0 → h.vl.toNat ≤ Sys2Proof.Claims.elements h ty →
    Sys2Proof.Claims.Group ty a → (d.toNat < a.toNat ∨ a.toNat + ty.g ≤ d.toNat) → d ≠ b →
    (n ≠ 4 → ∀ p ∈ Sys2Proof.Claims.reductions,
      Sys2Proof.Claims.Reduces (p.1 d a b m) s ty n d.toNat
        (Sys2Proof.Claims.reduced (fun u v => (p.2 n u v, 0)) id (leaf id) (h.elem n b.toNat 0))) ∧
    (n ≠ 4 → n ≤ 32 →
      let sum := fun u v : Sys2Proof.Word => (Sys2Proof.Claims.wrap (2 * n) (u.toNat + v.toNat), (0 : BitVec 7))
      Sys2Proof.Claims.Reduces (.vwredsum d a b m) s ty (2 * n) d.toNat (Sys2Proof.Claims.reduced sum id
        (leaf fun w => Sys2Proof.Claims.wrap (2 * n) (Sys2Proof.Claims.sgn n w)) (h.elem (2 * n) b.toNat 0)) ∧
      Sys2Proof.Claims.Reduces (.vwredsumu d a b m) s ty (2 * n) d.toNat
        (Sys2Proof.Claims.reduced sum id (leaf id) (h.elem (2 * n) b.toNat 0))) ∧
    (q.common true false = true → q.sr = false → Sys2Proof.Claims.FormatsHere s q →
      Sys2Proof.Machine.fmtOf q.a = some x → Sys2Proof.Machine.fmtOf q.d = some y → x.width = n →
      ∀ p ∈ Sys2Proof.Claims.floatReductions,
        let combine := fun u v => y.deliverWith r (p.2 q.round (val y u) (val y v))
        let whole := fun w => if val y w = .nan then (y.deliver r .nan).1 else w
        ((q.d = q.a ∧ 9 ≤ q.a.toNat ∧ q.a.toNat ≤ 12) → Sys2Proof.Claims.Reduces (p.1 d a b f m) s ty n d.toNat
          (Sys2Proof.Claims.reduced combine whole (leaf id) (h.elem n b.toNat 0))) ∧
        (((q.a = 9 ∨ q.a = 10) ∧ q.d = 11) ∨ (q.a = 11 ∧ q.d = 12) →
          Sys2Proof.Claims.Reduces (p.1 d a b f m) s ty (2 * n) d.toNat (Sys2Proof.Claims.reduced combine whole
            (leaf fun w => (y.deliver r (val x w)).1) (h.elem (2 * n) b.toNat 0))))

/-- Slides, gathers, compress, expand, index and mask logic (R141, R148): each active element is the element of vB, the
scalar, the index or the bit that its row names, read as it stood before the instruction. -/
def Obligations.VectorPermutesAndMasks : Prop :=
  ∀ (d a b : BitVec 5) (m : BitVec 3) (s : Sys2Proof.Machine.State) (ty : Sys2Proof.Machine.TypeState),
    let n := ty.ew.bits
    let h := s.hart
    let top := Sys2Proof.Claims.elements h ty
    let vl := h.vl.toNat
    let mask := Sys2Proof.Claims.maskOf s m
    let mid := fun i => h.mbit h.mid.toNat i
    let src := fun i => h.elem n a.toNat i
    let old := fun i => h.elem n d.toNat i
    let low := Sys2Proof.Claims.lowOf s n b
    let picks := fun i wide value => Sys2Proof.Claims.Runs i s ty wide (.vec n d.toNat) mask false
      (Sys2Proof.Claims.plain value)
    let within := fun k => if k < top then src k else 0
    let up := fun k i => if k ≤ i then src (i - k) else old i
    let amount := (h.elem n b.toNat 0).toNat
    let wide16 := ty.g * 16 / n
    Sys2Proof.Claims.VectorReady s ty → vl ≤ top → Sys2Proof.Claims.Group ty d →
    (Sys2Proof.Claims.Group ty a → Sys2Proof.Claims.Disjoint d.toNat ty.g a.toNat ty.g →
      picks (.vslideupX d a b m) n (up (h.rx b).toNat) ∧
      picks (.vslidedownX d a b m) n (fun i => within (i + (h.rx b).toNat)) ∧
      picks (.vslide1upX d a b m) n (fun i => if i = 0 then low else src (i - 1)) ∧
      picks (.vslide1downX d a b m) n (fun i => if i + 1 = vl then low else src (i + 1)) ∧
      picks (.vrev d a m) n (fun i => src (vl - 1 - i)) ∧
      picks (.vexpand d a m) n (fun i => src (Sys2Proof.Claims.activeBelow s mask i).length) ∧
      (Sys2Proof.Claims.Disjoint d.toNat ty.g b.toNat 1 →
        picks (.vslideupV d a b m) n (up amount) ∧ picks (.vslidedownV d a b m) n (fun i => within (i + amount))) ∧
      (Sys2Proof.Claims.Group ty b → Sys2Proof.Claims.Disjoint d.toNat ty.g b.toNat ty.g →
        Sys2Proof.Claims.Disjoint a.toNat ty.g b.toNat ty.g →
        picks (.vgather d a b m) n (fun i => within (h.elem n b.toNat i).toNat)) ∧
      (n ≤ 8 → wide16 ≤ 16 → b.toNat % wide16 = 0 → Sys2Proof.Claims.Disjoint d.toNat ty.g b.toNat wide16 →
        Sys2Proof.Claims.Disjoint a.toNat ty.g b.toNat wide16 →
        picks (.vgathere16 d a b m) 16 (fun i => within (h.elem 16 b.toNat i).toNat)) ∧
      ∃ u, Sys2Proof.Machine.exec (.vcompress d a m) s = .next u ∧ Sys2Proof.Claims.Retired s u ∧
        Sys2Proof.Claims.VectorFrame s u ∧ u.hart.m = h.m ∧ u.hart.flags = h.flags ∧ u.hart.srgen = h.srgen ∧
        (∀ k < 32, (k < d.toNat ∨ d.toNat + ty.g ≤ k) → u.hart.v[k]? = h.v[k]?) ∧
        (vl = 0 → u.hart.v = h.v) ∧
        (vl ≠ 0 → ∀ i < top, u.hart.elem n d.toNat i =
          if i < h.vprog.toNat * (64 * h.grant.lanes / n) then old i
          else match (Sys2Proof.Claims.activeBelow s mask vl)[i]? with
            | some j => src j
            | none => if h.mmode.getLsbD 1 = true then 0 else old i)) ∧
    picks (.vid d m) n (fun i => Sys2Proof.Claims.wrap n i) ∧
    (a.toNat < 8 → n ≠ 4 → picks (.viota d a m) n (fun i => Sys2Proof.Claims.wrap n
      (Sys2Proof.Claims.activeBelow s (fun j => h.mbit a.toNat j && mask j) i).length)) ∧
    (0 < d.toNat → d.toNat < 8 → a.toNat < 8 → b.toNat < 8 → ∀ p ∈ Sys2Proof.Claims.maskResults,
      Sys2Proof.Claims.Runs (p.1 d a b) s ty n (.mask d.toNat) mid false (Sys2Proof.Claims.plain fun i =>
        Sys2Proof.Claims.bitIf (p.2 (h.mbit a.toNat i) (h.mbit b.toNat i) = true)))

/-- Whole-register mask moves, VMSEL, the transfers and the deferral queue (R148 to R151): VDEFER appends active elements
while there is room and marks the others; VDRAIN takes records of the current width from the front, vl being within VLMAX
(R104). -/
def Obligations.VectorTransfersAndDeferral : Prop :=
  ∀ (d a b : BitVec 5) (m : BitVec 3) (s : Sys2Proof.Machine.State) (ty : Sys2Proof.Machine.TypeState),
    let n := ty.ew.bits
    let h := s.hart
    let vl := h.vl.toNat
    let mask := Sys2Proof.Claims.maskOf s m
    let half := 512 * h.grant.lanes
    let bit := fun (k : Sys2Proof.Machine.Hart) (r : BitVec 5) i => (k.elem 64 r.toNat (i / 64)).getLsbD (i % 64)
    let marked := Sys2Proof.Claims.activeBelow s (fun i => h.mbit a.toNat i && mask i) vl
    let groups := (b.toNat - a.toNat) / ty.g + 1
    Sys2Proof.Claims.VectorReady s ty →
    (0 < d.toNat → d.toNat < 8 → a.toNat % 2 = 0 → ∃ u, Sys2Proof.Machine.exec (.vmmvMV d a) s = .next u ∧
      Sys2Proof.Claims.Retired s u ∧ Sys2Proof.Claims.VectorFrame s u ∧ u.hart.v = h.v ∧ u.hart.flags = h.flags ∧
      u.hart.srgen = h.srgen ∧ (∀ k < 8, k ≠ d.toNat → u.hart.m[k]? = h.m[k]?) ∧
      ∀ i < 2 * half, u.hart.mbit d.toNat i = bit h a i) ∧
    (d.toNat % 2 = 0 → a.toNat < 8 → ∃ u, Sys2Proof.Machine.exec (.vmmvVM d a) s = .next u ∧
      Sys2Proof.Claims.Retired s u ∧ Sys2Proof.Claims.VectorFrame s u ∧ u.hart.m = h.m ∧ u.hart.flags = h.flags ∧
      u.hart.srgen = h.srgen ∧ (∀ k < 32, k ≠ d.toNat → k ≠ d.toNat + 1 → u.hart.v[k]? = h.v[k]?) ∧
      ∀ i < 2 * half, bit u.hart d i = h.mbit a.toNat i) ∧
    (d.toNat < 8 → a.toNat < 4 → ∃ u, Sys2Proof.Machine.exec (.vmsel d a) s = .next u ∧ Sys2Proof.Claims.Retired s u ∧
      u.hart.mid.toNat = d.toNat ∧ u.hart.mmode.toNat = a.toNat ∧ u.hart.v = h.v ∧ u.hart.m = h.m ∧
      Sys2Proof.Claims.VectorFrame s (u.onHart fun k => { k with mid := h.mid, mmode := h.mmode })) ∧
    Sys2Proof.Claims.Transfers (.vmvXS d a) s d (BitVec.ofInt 64 (Sys2Proof.Claims.sgn n (h.elem n a.toNat 0))) ∧
    Sys2Proof.Claims.Transfers (.vmvXSu d a) s d (h.elem n a.toNat 0) ∧
    (a.toNat < 8 → Sys2Proof.Claims.Transfers (.vcpopM d a m) s d (BitVec.ofNat 64 marked.length) ∧
      Sys2Proof.Claims.Transfers (.vfirstM d a m) s d
        (match marked.head? with | some i => BitVec.ofNat 64 i | none => 0xFFFFFFFFFFFFFFFF)) ∧
    (a.toNat % ty.g = 0 → b.toNat % ty.g = 0 → a.toNat ≤ b.toNat → groups ≤ 4 →
      (0 < d.toNat → d.toNat < 8 →
        let act := Sys2Proof.Claims.computedList s n mask
        let room := 64 * h.grant.lanes - h.dq.length
        ∃ u, Sys2Proof.Machine.exec (.vdefer d a b m) s = .next u ∧
          Sys2Proof.Claims.ElementRule s (u.onHart fun k => { k with dq := h.dq }) ty n (.mask d.toNat) mask false
            (Sys2Proof.Claims.plain fun i => Sys2Proof.Claims.bitIf (room ≤ (act i).length)) ∧
          u.hart.dq = h.dq ++ ((act (Sys2Proof.Claims.elements h ty)).take room).map fun i =>
            (⟨BitVec.ofNat 32 i, ty.ew, (List.range groups).map fun k => h.elem n (a.toNat + k * ty.g) i⟩ :
              Sys2Proof.Machine.Deferred)) ∧
      (let w := max n 16
       let regs := ty.g * w / n
       n ≠ 4 → vl ≤ Sys2Proof.Claims.elements h ty → regs ≤ 16 → d.toNat % regs = 0 →
       Sys2Proof.Claims.Disjoint d.toNat regs a.toNat (b.toNat - a.toNat + ty.g) →
        let first := h.vprog.toNat * (64 * h.grant.lanes / w)
        let taken := min (Sys2Proof.Claims.drainable ty.ew h.dq) (vl - first)
        let off := fun i k old => if i < first then old else if i < first + taken then k
          else if (if i < vl then h.mmode.getLsbD 0 else h.mmode.getLsbD 1) = true then 0 else old
        ∃ u, Sys2Proof.Machine.exec (.vdrain d a b) s = .next u ∧ Sys2Proof.Claims.Retired s u ∧
          Sys2Proof.Claims.VectorFrame s (u.onHart fun k => { k with dq := h.dq }) ∧ u.hart.m = h.m ∧
          u.hart.flags = h.flags ∧ u.hart.srgen = h.srgen ∧
          (∀ k < 32, (k < d.toNat ∨ d.toNat + regs ≤ k) → (k < a.toNat ∨ b.toNat + ty.g ≤ k) →
            u.hart.v[k]? = h.v[k]?) ∧
          (vl = 0 → u.hart.v = h.v ∧ u.hart.dq = h.dq) ∧
          (vl ≠ 0 → u.hart.dq = h.dq.drop taken ∧ ∀ i < Sys2Proof.Claims.elements h ty,
            let rec_ : Sys2Proof.Machine.Deferred := h.dq.getD (i - first) ⟨0, ty.ew, []⟩
            u.hart.elem w d.toNat i = off i (Sys2Proof.Claims.wrap w rec_.index.toNat) (h.elem w d.toNat i) ∧
            ∀ k < groups, u.hart.elem n (a.toNat + k * ty.g) i =
              off i (Sys2Proof.Claims.wrap n (rec_.values.getD k 0).toNat) (h.elem n (a.toNat + k * ty.g) i))))

/-- The block conversions (R59, R142) from a whole vector: VCVT.BLK chooses and writes the scale byte of every block that
starts below vl, its masked-off elements counting as zero, then converts each active element saturated, a negative value
in a UINT4 block becoming 0 with SAT; VCVT.UNBLK delivers each active element's value under its block's byte. That vC
meets none of the groups is the model's (log 25). -/
def Obligations.BlockConversions : Prop :=
  ∀ (d a b : BitVec 5) (f m : BitVec 3) (s : Sys2Proof.Machine.State) (ty : Sys2Proof.Machine.TypeState)
    (x y : Sys2Proof.Machine.Fmt),
    let n := ty.ew.bits
    let h := s.hart
    let q := h.desc f
    let mask := Sys2Proof.Claims.maskOf s m
    let val := fun i => (x.value (h.elem x.width a.toNat i)).1
    let od := ty.g * y.width / n
    let oa := ty.g * x.width / n
    let powered := fun (v : Sys2Proof.Machine.Val) (k : Int) => match v with
      | .num neg c e => Sys2Proof.Machine.Val.num neg c (e + k)
      | v => v
    Sys2Proof.Claims.VectorReady s ty → h.vprog = 0 → h.vl.toNat ≤ Sys2Proof.Claims.elements h ty →
    q.common true false = true → Sys2Proof.Claims.FormatsHere s q → od ≤ 16 → oa ≤ 16 → d.toNat % od = 0 →
    a.toNat % oa = 0 → (x.width ≠ y.width → Sys2Proof.Claims.Disjoint d.toNat od a.toNat oa) →
    Sys2Proof.Claims.Disjoint b.toNat 1 a.toNat oa → Sys2Proof.Claims.Disjoint b.toNat 1 d.toNat od →
    ((q.a = 9 ∨ q.a = 10 ∨ q.a = 11) → q.d = 13 → Sys2Proof.Machine.fmtOf q.a = some x →
      Sys2Proof.Machine.fmtOf q.block = some y → y.width = n →
      ∃ (u : Sys2Proof.Machine.State) (k : Nat → Sys2Proof.Byte), Sys2Proof.Machine.exec (.vcvtBlk d a b f m) s = .next u ∧
        (∀ j, 32 * j < h.vl.toNat →
          let block := (List.range 32).map fun i =>
            if 32 * j + i < h.vl.toNat ∧ mask (32 * j + i) = true then val (32 * j + i) else .num false 0 0
          Sys2Proof.Claims.ScaleByte y block (k j) ∧ u.hart.elem 8 b.toNat j = (k j).setWidth 64) ∧
        (∀ j < 64 * h.grant.lanes, h.vl.toNat ≤ 32 * j → u.hart.elem 8 b.toNat j = h.elem 8 b.toNat j) ∧
        Sys2Proof.Claims.ElementRule s (Sys2Proof.Claims.keepReg s b u) ty x.width (.vec y.width d.toNat) mask q.sr
          fun i draw => if k (i / 32) = 0xFF then (0, 0x10)
            else if y = .uint4 ∧ Sys2Proof.Claims.isNegative (val i) = true then (0, 0x21)
            else y.deliver { q.rnd draw with sat := true } (powered (val i) (127 - (k (i / 32)).toNat))) ∧
    (q.a = 13 → 9 ≤ q.d.toNat → q.d.toNat ≤ 12 → Sys2Proof.Machine.fmtOf q.block = some x →
      Sys2Proof.Machine.fmtOf q.d = some y → x.width = n →
      Sys2Proof.Claims.Runs (.vcvtUnblk d a b f m) s ty y.width (.vec y.width d.toNat) mask q.sr fun i draw =>
        let k := h.elem 8 b.toNat (i / 32)
        let v := x.value (h.elem x.width a.toNat i)
        if k = 0xFF then y.deliver (q.rnd draw) .nan
        else
          let w := y.deliver (q.rnd draw) (powered v.1 (k.toNat - 127))
          (w.1, v.2 ||| w.2))

namespace Sys2Proof.Claims

open Machine

/-! ## Vector memory -/

/-- Where an element lies: consecutive pieces of `unit` bytes from an address, and the bit of the first at which the
element's field starts. -/
structure Spot where
  va : Word
  unit : Nat
  count : Nat
  off : Nat

/-- Containers of SEW bits (R253). -/
def container (n : Nat) (va : Word) : Option Spot := some ⟨va, n / 8, 1, 0⟩

/-- Unit stride: dense, two 4-bit elements a byte, the even one low (R48, R253). -/
def denseSpot (n : Nat) (base : Word) (i : Nat) : Option Spot :=
  if n = 4 then some ⟨base + BitVec.ofNat 64 (i / 2), 1, 1, 4 * (i % 2)⟩
  else container n (base + BitVec.ofNat 64 (i * (n / 8)))

/-- Six-bit codes, four in the three bytes of their group, each of which an element's access checks (R57, R255). -/
def sixSpot (base : Word) (i : Nat) : Option Spot := some ⟨base + BitVec.ofNat 64 (3 * (i / 4)), 1, 3, 6 * (i % 4)⟩

/-- The elements below dimension d in a window: the product of its boxes. -/
def windowSize (t : TensorMap) (d : Nat) : Nat := (List.range d).foldl (fun p k => p * t.box.getD k 1) 1

/-- Coordinate d of element i for an origin (R242). -/
def coordinate (t : TensorMap) (origin : Word) (i d : Nat) : Int :=
  (BitVec.ofNat 16 (origin.toNat / 2 ^ (16 * d))).toInt + (i / windowSize t d % t.box.getD d 1 * t.step.getD d 1 : Nat)

/-- The address of coordinates (R242). -/
def mapAddress (t : TensorMap) (c : Nat → Int) : Word :=
  BitVec.ofInt 64 (t.base.toNat + ((List.range t.dims).map fun d => c d * t.stride.getD d 0).sum)

/-- Every coordinate lies within its extent. -/
def inExtent (t : TensorMap) (c : Nat → Int) : Bool :=
  (List.range t.dims).all fun d => decide (0 ≤ c d ∧ c d < t.ext.getD d 0)

/-- The spot of element i of a tensor map; none where a load gives 0 and a store writes nothing (R242). -/
def mapSpot (t : TensorMap) (origin : Word) (store : Bool) (n i : Nat) : Option Spot :=
  let c := coordinate t origin i
  if windowSize t t.dims ≤ i then none
  else if inExtent t c = true then container n (mapAddress t c)
  else if t.oob = 1 ∧ store = false then container n (mapAddress t fun d => min (max (c d) 0) (t.ext.getD d 0 - 1))
  else none

/-- The slot that a tensor-map form names (R241). -/
def slotMap (s : State) (t : BitVec 4) : TensorMap := tensorMapOf (s.hart.tm.toList.getD (t.toNat - 1) tensorMapReset)

/-- The checks of R242 on a slot pass. -/
def MapAccepted (q : TensorMap) (n : Nat) : Prop :=
  n ≠ 4 ∧ q.oob ≠ 3 ∧ q.reservedClear = true ∧ (q.base.toNat % (n / 8) = 0) ∧
  ∀ d < q.dims, q.ext.getD d 0 ≠ 0 ∧ q.box.getD d 0 ≠ 0 ∧ q.step.getD d 0 ≠ 0 ∧ q.stride.getD d 0 % (n / 8 : Nat) = 0

/-- No element of a tensor map asks for the access fault of oob = 2. -/
def NoMapFault (q : TensorMap) (origin : Word) (act : Nat → Bool) : Prop :=
  q.oob ≠ 2 ∨ ∀ i, act i = true → i < windowSize q q.dims → inExtent q (coordinate q origin i) = true

/-- The vector loads of R253, with the bits of an element in memory, its spot, and the limits of the form. -/
inductive VectorLoads (s : State) (ty : TypeState) (act : Nat → Bool) (d : BitVec 5) (c : BitVec 4) (l : BitVec 1)
    (e : BitVec 2) (m : BitVec 3) :
    Instr → Nat → (Nat → Option Spot) → Prop where
  | dense (a) : VectorLoads s ty act d c l e m (.vld d a c e l m) ty.ew.bits (denseSpot ty.ew.bits (s.hart.rx a))
  | strided (a b) : ty.ew ≠ .e4 → VectorLoads s ty act d c l e m (.vlds d a b c e l m) ty.ew.bits fun i =>
      container ty.ew.bits (s.hart.rx a + BitVec.ofNat 64 i * s.hart.rx b)
  | six (a) : ty.ew = .e8 → VectorLoads s ty act d c l e m (.vldP6 d a c e l m) 6 (sixSpot (s.hart.rx a))
  | indexed (a b) : ty.ew ≠ .e4 → Group ty b → Disjoint d.toNat ty.g b.toNat ty.g →
      VectorLoads s ty act d c l e m (.vldx d a b c e l m) ty.ew.bits fun i =>
        container ty.ew.bits (s.hart.rx a + s.hart.elem ty.ew.bits b.toNat i)
  | map (a t) : t ≠ 0 → MapAccepted (slotMap s t) ty.ew.bits → NoMapFault (slotMap s t) (s.hart.rx a) act →
      VectorLoads s ty act d c l e m (.vldTmap d a t c e l m) ty.ew.bits
        (mapSpot (slotMap s t) (s.hart.rx a) false ty.ew.bits)

/-- The vector stores of R253. -/
inductive VectorStores (s : State) (ty : TypeState) (act : Nat → Bool) (d : BitVec 5) (c : BitVec 4) (e : BitVec 2) (l r : BitVec 1)
    (m : BitVec 3) : Instr → Nat → (Nat → Option Spot) → Prop where
  | dense (a) : VectorStores s ty act d c e l r m (.vst d a c e l r m) ty.ew.bits
      (denseSpot ty.ew.bits (s.hart.rx a))
  | strided (a b) : ty.ew ≠ .e4 → VectorStores s ty act d c e l r m (.vsts d a b c e l r m) ty.ew.bits fun i =>
      container ty.ew.bits (s.hart.rx a + BitVec.ofNat 64 i * s.hart.rx b)
  | six (a) : ty.ew = .e8 → VectorStores s ty act d c e l r m (.vstP6 d a c e l r m) 6 (sixSpot (s.hart.rx a))
  | indexed (a b) : ty.ew ≠ .e4 → Group ty b → VectorStores s ty act d c e l r m (.vstx d a b c e l r m) ty.ew.bits
      fun i => container ty.ew.bits (s.hart.rx a + s.hart.elem ty.ew.bits b.toNat i)
  | map (a t) : t ≠ 0 → MapAccepted (slotMap s t) ty.ew.bits → NoMapFault (slotMap s t) (s.hart.rx a) act →
      VectorStores s ty act d c e l r m (.vstTmap d a t c e l r m) ty.ew.bits
        (mapSpot (slotMap s t) (s.hart.rx a) true ty.ew.bits)

/-- A vector memory instruction may run from its start (R102, R339), with no watchpoint enabled, no chained copy to wait
for, no error of TCM or scratchpad to meet, nothing left of an earlier issue that a wait interrupted, and no byte of TCM or of
the dies unspecified. -/
def MemoryReady (s : State) (ty : TypeState) : Prop :=
  s.hart.vtype = some ty ∧ s.hart.stopAt = none ∧ s.hart.watching = false ∧ s.hart.chainedCopy = none ∧
  s.hart.vl.toNat ≤ elements s.hart ty ∧ s.hart.partLoad = none ∧ s.hart.touched = [] ∧ s.localErrors = [] ∧
  s.loose = [] ∧ (s.core s.hart.core).tcmLoose = []

/-- The offset of an address in the TCM window (R222). -/
def tcmOffset (va : Word) : Nat := va.toNat - 0x7FFFFFFFFC0000

/-- Every piece of a spot is aligned where the form asks for it, and passes its checks in the core's TCM. -/
def SpotInTcm (s : State) (k : Access) (p : Spot) : Prop :=
  tcmOffset p.va + p.unit * p.count ≤ 0x40000 ∧ ∀ j < p.count,
    (p.va.toNat + j * p.unit) % p.unit = 0 ∧
    Reaches k (p.va + BitVec.ofNat 64 (j * p.unit)) p.unit (.tcm s.hart.core (tcmOffset p.va + j * p.unit)) s s

/-- The field of a spot in TCM. -/
def tcmField (s : State) (bits : Nat) (p : Spot) : Word :=
  BitVec.ofNat 64 (natOfBytes ((List.range (p.unit * p.count)).map fun j =>
    (s.core s.hart.core).tcmByte (tcmOffset p.va + j)) / 2 ^ p.off % 2 ^ bits)

/-- Bit k of the TCM byte at o lies in the field of a spot; its place in the field. -/
def coversBit (bits : Nat) (p : Spot) (o k : Nat) : Bool :=
  let b := 8 * o + k
  let first := 8 * tcmOffset p.va + p.off
  decide (first ≤ b ∧ b < first + bits)
def bitIn (p : Spot) (o k : Nat) : Nat := 8 * o + k - (8 * tcmOffset p.va + p.off)

/-- A vector memory instruction that only moves data keeps these of its hart. -/
def KeepsVectors (s u : State) : Prop :=
  u.hart.v = s.hart.v ∧ u.hart.m = s.hart.m ∧ u.hart.flags = s.hart.flags ∧ u.hart.srgen = s.hart.srgen ∧
  u.hart.vl = s.hart.vl ∧ u.hart.vtype = s.hart.vtype ∧ ∀ r, ¬ Strides s.hart r → u.hart.rx r = s.hart.rx r

/-- The place of byte b of a spot, where its pieces lie. -/
def byteAt (place : Word → Place) (p : Spot) (b : Nat) : Place :=
  (place (p.va + BitVec.ofNat 64 (b / p.unit * p.unit))).plus (b % p.unit)

/-- Two places are one byte of a memory, as an access names it. -/
def sameByte (p q : Place) : Bool :=
  match p, q with
  | .tcm c o, .tcm c' o' => decide (c = c' ∧ o = o')
  | .scratch g o, .scratch g' o' => decide (g = g' ∧ o = o')
  | .device pa _ _, .device pa' _ _ => decide (pa = pa')
  | .host h, .host h' => decide (h = h')
  | _, _ => false

/-- The elements of a vector memory instruction lie at places that pass their checks with translation off, each piece
aligned; no access meets an error, a reader count or a drop; the cluster's cache has room for every line. -/
def Spread (s : State) (k : Access) (elems : List Nat) (spot : Nat → Option Spot) (place : Word → Place) : Prop :=
  s.hart.xlat.en = false ∧ s.wf = true ∧ s.errors = [] ∧ (∀ d ∈ s.dies, d.dropped = [] ∧ d.readers = []) ∧
  s.hart.cluster < s.clusters.length ∧ s.hart.core < s.cores.length ∧
  Memory.wf (s.core s.hart.core).tcm = true ∧
  (s.cluster s.hart.cluster).lines.length + 3 * elems.length < s.cacheLines s.hart.cluster ∧
  ∀ j ∈ elems, ∀ p, spot j = some p → ∀ i < p.count,
    let va := p.va + BitVec.ofNat 64 (i * p.unit)
    va.toNat % p.unit = 0 ∧ Reaches k va p.unit (place va) s s ∧
      ∀ pa home, place va = .device pa home false → s.lineAt s.hart.cluster pa = none

/-- Nothing that a load may meet is poisoned, and no load may be as if before an acquire (log 72). -/
def Sound (s : State) : Prop :=
  s.poison = [] ∧ (s.core s.hart.core).tcmPoison = [] ∧ s.myGang.scratchPoison = [] ∧ s.hart.early = [] ∧
  ∀ l ∈ (s.cluster s.hart.cluster).lines, l.poison = 0

end Sys2Proof.Claims

/-- Vector loads (R242, R253 to R255). From TCM every active element becomes the field of its spot, zero-extended, or 0
where a tensor map gives it no access, and nothing else changes; one element from any place becomes what a load there
gives, a six-bit one what the byte that holds it gives once all three bytes of its group pass their checks; a misaligned
element of any group traps with vprog at its group. -/
def Sys2Proof.Claims.VectorLoadsReadTheirElements : Prop :=
  ∀ (i : Sys2Proof.Instr) (d : BitVec 5) (c : BitVec 4) (e : BitVec 2) (l : BitVec 1) (m : BitVec 3) (bits : Nat)
    (spot : Nat → Option Sys2Proof.Claims.Spot) (s : Sys2Proof.Machine.State) (ty : Sys2Proof.Machine.TypeState),
    let n := ty.ew.bits
    let mask := Sys2Proof.Claims.maskOf s m
    let act := Sys2Proof.Claims.Computed s n mask
    Sys2Proof.Claims.MemoryReady s ty → Sys2Proof.Claims.Group ty d →
    Sys2Proof.Claims.VectorLoads s ty act d c l e m i bits spot →
    ((∀ j p, act j = true → spot j = some p → Sys2Proof.Claims.SpotInTcm s .load p ∧
        Sys2Proof.Machine.marked (s.core s.hart.core).tcmPoison (Sys2Proof.Claims.tcmOffset p.va) (p.unit * p.count) =
          false) →
      Sys2Proof.Claims.Runs i s ty n (.vec n d.toNat) mask false (Sys2Proof.Claims.plain fun j =>
        match spot j with
        | none => 0
        | some p => Sys2Proof.Claims.tcmField s bits p)) ∧
    (∀ p q data s1 s2, s.hart.vl = 1 → s.hart.vprog = 0 → mask 0 = true → l = 0 → spot 0 = some p → p.count = 1 →
      p.va.toNat % p.unit = 0 → Sys2Proof.Claims.Reaches .load p.va p.unit q s s1 →
      s1.loadAt (s1.agentOf s1.hart) q p.unit ⟨e, false, c⟩ = ((data, false), s2) →
      ∃ u, Sys2Proof.Machine.exec i s = .next u ∧ Sys2Proof.Claims.Retired s u ∧ u.hart.elem n d.toNat 0 =
        BitVec.ofNat 64 (Sys2Proof.Machine.natOfBytes data / 2 ^ p.off % 2 ^ bits) ∧
        (∀ k < 32, (k < d.toNat ∨ d.toNat + ty.g ≤ k) → u.hart.v[k]? = s.hart.v[k]?) ∧ u.hart.m = s.hart.m ∧
        u.mem = s2.mem ∧ u.clusters = s2.clusters ∧ u.dies = s2.dies) ∧
    (∀ p q q1 q2 data s1 s2 s3 s4, s.hart.vl = 1 → s.hart.vprog = 0 → mask 0 = true → l = 0 → spot 0 = some p →
      bits = 6 → Sys2Proof.Claims.Reaches .load p.va 1 q s s1 → Sys2Proof.Claims.Reaches .load (p.va + 1) 1 q1 s1 s2 →
      Sys2Proof.Claims.Reaches .load (p.va + 2) 1 q2 s2 s3 →
      s3.loadAt (s3.agentOf s3.hart) q 1 ⟨e, false, c⟩ = ((data, false), s4) →
      ∃ u, Sys2Proof.Machine.exec i s = .next u ∧ Sys2Proof.Claims.Retired s u ∧
        u.hart.elem n d.toNat 0 = BitVec.ofNat 64 (Sys2Proof.Machine.natOfBytes data % 64) ∧
        (∀ k < 32, (k < d.toNat ∨ d.toNat + ty.g ≤ k) → u.hart.v[k]? = s.hart.v[k]?) ∧ u.hart.m = s.hart.m ∧
        u.mem = s4.mem ∧ u.clusters = s4.clusters ∧ u.dies = s4.dies) ∧
    (∀ j p, act j = true → (∀ k < j, act k = false) → spot j = some p → bits ≠ 6 → p.va.toNat % p.unit ≠ 0 →
      ∃ cores v un, (s.hart.mmode.getLsbD 0 = false → v = s.hart.v ∧ un = s.hart.unsure) ∧ Sys2Proof.Machine.exec i s =
        .next ((({ s with cores := cores } : Sys2Proof.Machine.State).onHart fun h =>
          { h with v := v, unsure := un, vprog := BitVec.ofNat 7 (j / (64 * h.grant.lanes / n)), vprogPc := h.pc }).takeTrap
          false 1 0x08 p.va))

/-- Vector stores (R242, R253 to R256). To TCM every bit that the field of an active element covers takes the bit of
the highest such element, and every other bit of TCM and all else stay; one element to any place is stored as a store
there; registers, masks and flags stay. -/
def Sys2Proof.Claims.VectorStoresWriteTheirElements : Prop :=
  ∀ (i : Sys2Proof.Instr) (d : BitVec 5) (c : BitVec 4) (e : BitVec 2) (l r : BitVec 1) (m : BitVec 3) (bits : Nat)
    (spot : Nat → Option Sys2Proof.Claims.Spot) (s : Sys2Proof.Machine.State) (ty : Sys2Proof.Machine.TypeState),
    let n := ty.ew.bits
    let mask := Sys2Proof.Claims.maskOf s m
    let act := Sys2Proof.Claims.Computed s n mask
    let own := s.core s.hart.core
    Sys2Proof.Claims.MemoryReady s ty → Sys2Proof.Claims.Group ty d →
    Sys2Proof.Claims.VectorStores s ty act d c e l r m i bits spot →
    (s.hart.core < s.cores.length → Sys2Proof.Machine.Memory.wf own.tcm = true →
      (∀ j p, act j = true → spot j = some p → Sys2Proof.Claims.SpotInTcm s .store p) →
      ∃ u, Sys2Proof.Machine.exec i s = .next u ∧ Sys2Proof.Claims.Retired s u ∧
        Sys2Proof.Claims.VectorFrame s { u with cores := s.cores } ∧ Sys2Proof.Claims.KeepsVectors s u ∧
        (∀ k, k ≠ s.hart.core → (u.core k).tcm = (s.core k).tcm) ∧
        ∀ o < 0x40000, ∀ k < 8, ((u.core s.hart.core).tcmByte o).getLsbD k =
          match (Sys2Proof.Claims.computedList s n mask (Sys2Proof.Claims.elements s.hart ty)).reverse.find? fun j =>
            ((spot j).map fun p => Sys2Proof.Claims.coversBit bits p o k).getD false with
          | none => (own.tcmByte o).getLsbD k
          | some j => ((spot j).map fun p =>
              (s.hart.elem n d.toNat j).getLsbD (Sys2Proof.Claims.bitIn p o k)).getD false) ∧
    (∀ p q s1, s.hart.vl = 1 → s.hart.vprog = 0 → mask 0 = true → l = 0 → spot 0 = some p → bits = 8 * p.unit →
      p.va.toNat % p.unit = 0 → Sys2Proof.Claims.Reaches .store p.va p.unit q s s1 →
      let t := s1.storeAt (s1.agentOf s1.hart) q (Sys2Proof.Machine.bytesOf p.unit (s.hart.elem n d.toNat 0).toNat) c e
        (if r = 1 then .reader s.hart.rcount else .plain)
      ∃ u, Sys2Proof.Machine.exec i s = .next u ∧ Sys2Proof.Claims.Retired s u ∧ Sys2Proof.Claims.KeepsVectors s u ∧
        u.mem = t.mem ∧ u.clusters = t.clusters ∧ u.dies = t.dies)

/-- Vector loads of many elements at any places (R242, R253 to R255): every active element becomes the field of the bytes
at its place, which have values, or 0 where a tensor map gives it no access; the others are left or zeroed as mmode says; memory and every
other register stay. Stated with translation off. -/
def Sys2Proof.Claims.VectorLoadsFromAnywhere : Prop :=
  ∀ (i : Sys2Proof.Instr) (d : BitVec 5) (c : BitVec 4) (e : BitVec 2) (m : BitVec 3) (bits : Nat)
    (spot : Nat → Option Sys2Proof.Claims.Spot) (place : Sys2Proof.Word → Sys2Proof.Machine.Place)
    (s : Sys2Proof.Machine.State) (ty : Sys2Proof.Machine.TypeState),
    let n := ty.ew.bits
    let h := s.hart
    let top := Sys2Proof.Claims.elements h ty
    let act := Sys2Proof.Claims.Computed s n (Sys2Proof.Claims.maskOf s m)
    let field := fun p : Sys2Proof.Claims.Spot => Sys2Proof.Machine.natOfBytes ((List.range (p.unit * p.count)).map
      fun b => s.peek .plain (Sys2Proof.Claims.byteAt place p b)) / 2 ^ p.off % 2 ^ bits
    Sys2Proof.Claims.MemoryReady s ty → Sys2Proof.Claims.Group ty d → h.vl ≠ 0 → Sys2Proof.Claims.Sound s →
    Sys2Proof.Claims.VectorLoads s ty act d c 0 e m i bits spot →
    Sys2Proof.Claims.Spread s .load ((List.range top).filter act) spot place →
    (∀ j < top, act j = true → ∀ p, spot j = some p → ∀ b < p.unit * p.count,
      Sys2Proof.Claims.stands s (Sys2Proof.Claims.byteAt place p b) ≠ none) →
    ∃ u, Sys2Proof.Machine.exec i s = .next u ∧ Sys2Proof.Claims.Retired s u ∧
      (∀ j < top, u.hart.elem n d.toNat j =
        if j < h.vprog.toNat * (64 * h.grant.lanes / n) then h.elem n d.toNat j
        else if act j = true then BitVec.ofNat 64 (((spot j).map field).getD 0)
        else if (if j < h.vl.toNat then h.mmode.getLsbD 0 else h.mmode.getLsbD 1) = true then 0
        else h.elem n d.toNat j) ∧
      (∀ k < 32, (k < d.toNat ∨ d.toNat + ty.g ≤ k) → u.hart.v[k]? = h.v[k]?) ∧ u.hart.m = h.m ∧
      u.hart.flags = h.flags ∧ u.hart.srgen = h.srgen ∧
      (∀ r, ¬ Sys2Proof.Claims.Strides h r → u.hart.rx r = h.rx r) ∧ u.mem = s.mem ∧
      ∀ q, Sys2Proof.Claims.Valid s q → Sys2Proof.Claims.SameByte s u q

/-- Vector stores of many elements at any places (R242, R253 to R256): every bit that the field of an active element
covers takes the bit of the highest such element, the others of its byte stay where that has a value, and every other byte
that an access can name reads as before; the registers stay. Stated with translation off, without reader counts and without the hint of no allocation, for cached device
memory, with no stream open. -/
def Sys2Proof.Claims.VectorStoresToAnywhere : Prop :=
  ∀ (i : Sys2Proof.Instr) (d : BitVec 5) (c : BitVec 4) (e : BitVec 2) (m : BitVec 3) (bits : Nat)
    (spot : Nat → Option Sys2Proof.Claims.Spot) (place : Sys2Proof.Word → Sys2Proof.Machine.Place)
    (s : Sys2Proof.Machine.State) (ty : Sys2Proof.Machine.TypeState),
    let n := ty.ew.bits
    let h := s.hart
    let act := Sys2Proof.Claims.Computed s n (Sys2Proof.Claims.maskOf s m)
    let elems := (List.range (Sys2Proof.Claims.elements h ty)).filter act
    let covers := fun (p : Sys2Proof.Claims.Spot) (q : Sys2Proof.Machine.Place) (k : Nat) =>
      (List.range (p.unit * p.count)).find? fun b =>
        Sys2Proof.Claims.sameByte (Sys2Proof.Claims.byteAt place p b) q &&
          decide (p.off ≤ 8 * b + k ∧ 8 * b + k < p.off + bits)
    Sys2Proof.Claims.MemoryReady s ty → Sys2Proof.Claims.Group ty d → e ≠ 3 →
    (∃ g ∈ s.gangs, g.key = h.name.gang) → (∀ t ∈ s.myGang.streams.toList, t = none) →
    Sys2Proof.Claims.VectorStores s ty act d c e 0 0 m i bits spot →
    Sys2Proof.Claims.Spread s .store elems spot place →
    (∀ j ∈ elems, ∀ p, spot j = some p → ∀ b < p.unit * p.count, ∀ pa home cached,
      Sys2Proof.Claims.byteAt place p b = .device pa home cached → cached = true) →
    ∃ u, Sys2Proof.Machine.exec i s = .next u ∧ Sys2Proof.Claims.Retired s u ∧ Sys2Proof.Claims.KeepsVectors s u ∧
      ∀ q, Sys2Proof.Claims.Valid s q →
        let writer := fun k => elems.reverse.find? fun j => ((spot j).map fun p => (covers p q k).isSome).getD false
        ((∀ k < 8, writer k = none) → Sys2Proof.Claims.SameByte s u q) ∧
        ∀ b, Sys2Proof.Claims.stands s q = some b ∨ (∀ k < 8, writer k ≠ none) → ∀ k < 8, (u.peek .plain q).getLsbD k =
        match writer k with
        | none => b.getLsbD k
        | some j => ((spot j).map fun p => ((covers p q k).map fun b =>
            (h.elem n d.toNat j).getLsbD (8 * b + k - p.off)).getD false).getD false

namespace Sys2Proof.Claims

open Machine

/-! ## Matrix mode -/

/-- What a matrix instruction leaves alone: what a vector instruction does, and m, srgen, the mode, the chain setting,
the tile, the cells and the flags that they hold, of which the statements speak. -/
def MatrixFrame (s u : State) : Prop :=
  Retired s u ∧ VectorFrame s (u.onHart fun h =>
    { h with mode := s.hart.mode, mchain := s.hart.mchain, tile := s.hart.tile, cells := s.hart.cells,
             heldFlags := s.hart.heldFlags }) ∧
  u.hart.m = s.hart.m

/-- Mode, chain setting, tile, cells and held flags stay. -/
def KeepsArray (s u : State) : Prop :=
  u.hart.mode = s.hart.mode ∧ u.hart.mchain = s.hart.mchain ∧ u.hart.tile = s.hart.tile ∧
  u.hart.cells = s.hart.cells ∧ u.hart.heldFlags = s.hart.heldFlags

/-- The vector registers outside a range stay. -/
def KeepsOutside (s u : State) (r n : Nat) : Prop := ∀ k < 32, (k < r ∨ r + n ≤ k) → u.hart.v[k]? = s.hart.v[k]?

/-- Word k of the pair of registers from r on, at G = 32 (R103, R163). -/
def pairWord (h : Hart) (r k : Nat) : Word := h.elem 64 r k

/-- Word k of the cell image (R163). -/
def imageAt (h : Hart) (k : Nat) : Word := h.cells[k]?.getD 0

/-- Cell (i, j) of an image given by its words (R163). -/
def cellIn (fp64 : Bool) (w : Nat → Word) (i j : Nat) : Word :=
  if fp64 then w (i / 8 * 256 + i % 8 * 16 + j)
  else BitVec.ofNat 64 ((w (16 * i + j / 2)).toNat / 2 ^ (32 * (j % 2)) % 2 ^ 32)

/-- Rows and columns of an array (R158). -/
def arraySide (fp64 : Bool) : Nat := if fp64 then 16 else 32

/-- The dot depth of a format (R69, R158). -/
def dotDepth (f : Fmt) : Nat :=
  match f with
  | .fp32 | .fp64 => 1
  | .bf16 | .fp16 => 4
  | .e4m3 | .e5m2 | .int8 | .uint8 => 8
  | .int4 | .uint4 | .lns6 => 16
  | _ => 0

/-- The panel of a source format (R160, R161): slots, elements in a slot, bits, registers. -/
def shapeOf (f : Fmt) : Panel :=
  match f with
  | .fp32 => ⟨32, 1, 32, 2, 2⟩
  | .fp64 => ⟨16, 1, 64, 1, 1⟩
  | .bf16 | .fp16 => ⟨32, 4, 16, 4, 4⟩
  | .e4m3 | .e5m2 | .int8 | .uint8 => ⟨32, 8, 8, 4, 4⟩
  | .int4 | .uint4 => ⟨32, 16, 4, 4, 4⟩
  | .lns6 => ⟨32, 16, 8, 8, 8⟩
  | _ => ⟨0, 0, 0, 0, 0⟩

/-- The panel of a side under a descriptor (R161, R189): x is the side's element format. -/
def sideShape (q : Desc) (sideB : Bool) (x : Fmt) : Panel :=
  if q.sparse = 0 then shapeOf x
  else if sideB then ⟨32, 48, 4, 12, 4⟩
  else ⟨32, 4 * q.sparse.toNat, 4, q.sparse.toNat, if q.sparse = 2 then 2 else if q.sparse = 6 then 8 else 4⟩

/-- A panel at a register, with some registers after it, inside the file. -/
def PanelAt (p : Panel) (extra : Nat) (r : BitVec 5) : Prop := r.toNat % p.align = 0 ∧ r.toNat + p.regs + extra ≤ 32

/-- Element t of chunk c in row r of a panel (R160). -/
def panelElem (h : Hart) (p : Panel) (reg r c t : Nat) : Word := h.elem p.bits reg ((r * p.p + (c + r) % p.p) * p.per + t)

/-- The classes of the dense table and their accumulator (R186). -/
def denseClasses : List (List (BitVec 4) × BitVec 4) :=
  [([11], 11), ([12], 12), ([9, 10], 11), ([7, 8], 11), ([0, 1], 3), ([5, 14], 3), ([6], 11)]

/-- What MMA accepts (R62, R158, R186). -/
def DenseAccepted (q : Desc) : Prop :=
  q.common true true = true ∧ q.sparse = 0 ∧
  ((∃ c ∈ denseClasses, q.a ∈ c.1 ∧ q.b ∈ c.1 ∧ q.d = c.2) ∨
   ((q.a = 13 ∨ q.b = 13) ∧ q.d = 11 ∧ ∃ c ∈ [[(0 : BitVec 4), 1, 7, 8], [5, 6, 14]],
      q.block ∈ c ∧ (q.a = 13 ∨ q.a ∈ c) ∧ (q.b = 13 ∨ q.b ∈ c)))

/-- What SMMA accepts (R189). -/
def SparseAccepted (q : Desc) : Prop :=
  q.common true true = true ∧ q.sparse ≠ 0 ∧ q.block = 0 ∧ (q.a = 5 ∨ q.a = 14) ∧ (q.b = 5 ∨ q.b = 14) ∧ q.d = 3

/-- The hart's die has the units that a descriptor needs (R35). -/
def UnitsHere (s : State) (q : Desc) (sparse : Bool) : Prop :=
  (q.f64 = true → (capmask s.hart.cluster).getLsbD 0 = true) ∧
  (q.lns = true → (capmask s.hart.cluster).getLsbD 1 = true) ∧
  (sparse = true ∨ q.sparse ≠ 0 → (capmask s.hart.cluster).getLsbD 2 = true)

/-- The hart's die has the units that a descriptor of SETTILE or MDRAIN.N needs (R35): FP64 asks for none there. -/
def TileUnitsHere (s : State) (q : Desc) : Prop :=
  (q.lns = true → (capmask s.hart.cluster).getLsbD 1 = true) ∧
  (q.sparse ≠ 0 → (capmask s.hart.cluster).getLsbD 2 = true)

/-- Limits on M, N and K outside a chain (R165), for a source format x. -/
def alone (q : Desc) (fp64 : Bool) (x : Fmt) : Nat × Nat × Nat :=
  (arraySide fp64, arraySide fp64, if q.sparse ≠ 0 then 1536 else if fp64 then 16 else 32 * dotDepth x)

/-- The tile lies within limits. -/
def Within (t : Tile) (l : Nat × Nat × Nat) : Prop := t.m.toNat ≤ l.1 ∧ t.n.toNat ≤ l.2.1 ∧ t.k.toNat ≤ l.2.2

/-- A hart in matrix mode outside a chain, at G = 32 (R153). -/
def Alone (s : State) (m : MatrixMode) : Prop :=
  s.hart.vtype ≠ none ∧ s.hart.mode = some m ∧ m.chn = 0 ∧ m.pos = 0 ∧ s.hart.grant = .l32 ∧ s.hart.stopAt = none

/-! ## Multiplies -/

/-- A source element under its scale byte (R58). -/
def scaled (v : Val) (k : Option Word) : Val :=
  match k, v with
  | none, _ => v
  | some k, .num neg m e => if k = 0xFF then .nan else .num neg m (e + (k.toNat - 127))
  | some k, v => if k = 0xFF then .nan else v

/-- A product of two source elements with the flags that it raises (R56, R69). -/
def termOf (x y : Fmt) (u v : Word) (j k : Option Word) : Val × FlagSet :=
  if x = .lns6 ∧ y = .lns6 then
    let a := u.toNat % 64
    let b := v.toNat % 64
    let l := a % 32 + b % 32
    let p : Val := if a = 32 ∨ b = 32 then .nan else if a = 0 ∨ b = 0 then .num false 0 0
      else .num (decide (a / 32 ≠ b / 32)) (lnsTable l * 2 ^ (l / 4)) (-23)
    (scaled (scaled p j) k, 0)
  else
    let p := (scaled (x.value u).1 j).mul (scaled (y.value v).1 k)
    (p.1, (x.value u).2 ||| (y.value v).2 ||| p.2)

/-- An integer value. -/
def intOf (v : Val) : Int :=
  match v with
  | .num neg m e => if neg then -(m * 2 ^ e.toNat : Int) else m * 2 ^ e.toNat
  | _ => 0

/-- One step of a cell (R69): the accumulator and the terms of a chunk, exactly, then rounded, wrapped or clamped once. -/
def stepOf (q : Desc) (z : Fmt) (acc : Word) (terms : List Val) : Word × FlagSet :=
  if z = .int32 then
    let x := sgn 32 acc + (terms.map intOf).sum
    if q.sat = true then clampedS 32 x else (wrap 32 x, 0)
  else z.deliverWith (q.rnd none) (Val.sum q.round ((z.value acc).1 :: terms))

/-- The steps of chunks in increasing c (R70). -/
def dotOf (q : Desc) (z : Fmt) (chunks : Nat) (terms : Nat → List (Val × FlagSet)) (acc : Word) : Word × FlagSet :=
  (List.range chunks).foldl (fun a c =>
    let r := stepOf q z a.1 ((terms c).map (·.1))
    (r.1, (terms c).foldl (fun f t => f ||| t.2) (a.2 ||| r.2))) (acc, 0)

/-- The scale of an element, where its side is block-scaled (R162). -/
def scaleOf (h : Hart) (p : Panel) (isBlock : Bool) (reg r x : Nat) : Option Word :=
  if isBlock then some (h.elem 8 (reg + p.regs) (r * p.per + x / 32)) else none

/-- The terms of chunk c of a dense cell (R70): positions at or above K are absent. -/
def denseTerms (h : Hart) (q : Desc) (x y : Fmt) (a b k i j c : Nat) : List (Val × FlagSet) :=
  let d := dotDepth x
  ((List.range d).filter fun t => decide (c * d + t < k)).map fun t =>
    termOf x y (panelElem h (shapeOf x) a i c t) (panelElem h (shapeOf y) b j c t)
      (scaleOf h (shapeOf x) (q.a == 13) a i (c * d + t)) (scaleOf h (shapeOf y) (q.b == 13) b j (c * d + t))

/-- The terms of sparse chunk c (R60, R71, R189): of four groups, the kept values at their positions; a group whose
positions do not rise strictly below 12 gives no term and RSVD. -/
def sparseTerms (h : Hart) (q : Desc) (x y : Fmt) (a b meta_ k i j c : Nat) : List (Val × FlagSet) :=
  let n := q.sparse.toNat
  (List.range 4).flatMap fun g =>
    let w := (panelElem h ⟨32, 4, 32, 8, 8⟩ meta_ i c g).toNat
    let pos := fun e => w / 2 ^ (4 * e) % 16
    if k ≤ 48 * c + 12 * g then []
    else if (List.range n).all fun e => decide (pos e < 12 ∧ (e = 0 ∨ pos (e - 1) < pos e)) then
      ((List.range n).filter fun e => decide (48 * c + 12 * g + pos e < k)).map fun e =>
        termOf x y (panelElem h (sideShape q false x) a i c (g * n + e))
          (panelElem h (sideShape q true y) b j c (12 * g + pos e)) none none
    else [(.num false 0 0, 0x40)]

/-- The effect of a multiply outside a chain (R166, R187): in RS on the cells, with its flags held; in WS on the pair d,
with its flags raised. Cells outside the tile stay; the bytes that no FP64 tile covers become 0 (R163). -/
def Multiplies (i : Instr) (s : State) (m : MatrixMode) (z : Fmt) (d : Nat) (zero : Bool)
    (dot : Nat → Nat → Word → Word × FlagSet) : Prop :=
  let h := s.hart
  let wide : Bool := z == .fp64
  let at_ := cellIn wide (match m.flow with
    | .rs => imageAt h
    | .ws => pairWord h d)
  let new := fun i j => dot i j (if zero then 0 else at_ i j)
  let cells := (List.range h.tile.m.toNat).flatMap fun i => (List.range h.tile.n.toNat).map fun j => (i, j)
  let raised := cells.foldl (fun f c => f ||| (new c.1 c.2).2) (0 : FlagSet)
  let Gives := fun (w : Nat → Word) => (∀ i < arraySide wide, ∀ j < arraySide wide, cellIn wide w i j =
      if i < h.tile.m.toNat ∧ j < h.tile.n.toNat then (new i j).1 else at_ i j) ∧
    (wide = true → ∀ k < 512, 128 ≤ k % 256 → w k = 0)
  ∃ u, exec i s = .next u ∧ MatrixFrame s u ∧ u.hart.mchain = h.mchain ∧ u.hart.tile = h.tile ∧ u.hart.srgen = h.srgen ∧
    match m.flow with
    | .rs => Gives (imageAt u.hart) ∧ u.hart.heldFlags = h.heldFlags ||| raised ∧
        u.hart.mode = some { m with held := true } ∧ u.hart.v = h.v ∧ u.hart.flags = h.flags
    | .ws => Gives (pairWord u.hart d) ∧ u.hart.flags = h.flags ||| raised ∧ KeepsArray s u ∧ KeepsOutside s u d 2

end Sys2Proof.Claims

/-- Matrix mode and its control (R153, R155, R165, R180 to R184, R193) outside a chain: MODE.M zeroes or loads the
cells, MODE.V leaves, MDRAIN and MDRAIN.N drain, SETTILE grants, MCHAIN sets the chain, MSYNC retires, MZERO and MZEROC
zero, MSKEW and MDSKEW move slots, of LNS6 the six bits of a code (R57); a chained MODE.M waits for its partners; SETTILE
and MDRAIN.N take the migrate trap where the die lacks a unit of their descriptor (R35). The model's choices: MSKEW and
MDSKEW copy the INT4 code 0b1000 as it is and raise no flag (log 45); a chained MODE.M always waits, also as the last of
its members, until the event of log 27. -/
def Obligations.MatrixModeAndTiles : Prop :=
  ∀ (d a b : BitVec 5) (f : BitVec 3) (k l : BitVec 1) (s : Sys2Proof.Machine.State)
    (m : Sys2Proof.Machine.MatrixMode) (x y : Sys2Proof.Machine.Fmt),
    let h := s.hart
    let q := h.desc f
    let does := fun i (P : Sys2Proof.Machine.State → Prop) => ∃ u, Sys2Proof.Machine.exec i s = .next u ∧
      Sys2Proof.Claims.MatrixFrame s u ∧ P u
    let first := h.vprog.toNat
    let drained := fun (u : Sys2Proof.Machine.State) => Sys2Proof.Claims.KeepsOutside s u d.toNat 2 ∧
      u.hart.flags = h.flags ||| h.heldFlags ∧ u.hart.heldFlags = 0 ∧ u.hart.cells = h.cells ∧ u.hart.srgen = h.srgen ∧
      u.hart.tile = h.tile ∧ ∀ w < 512, Sys2Proof.Claims.pairWord u.hart d.toNat w =
        if w / 32 < first then Sys2Proof.Claims.pairWord h d.toNat w else Sys2Proof.Claims.imageAt h w
    let quiet := fun (u : Sys2Proof.Machine.State) =>
      u.hart.v = h.v ∧ u.hart.flags = h.flags ∧ u.hart.srgen = h.srgen
    let even := d.toNat % 2 = 0
    (h.vtype ≠ none → does .msync fun u => quiet u ∧ Sys2Proof.Claims.KeepsArray s u) ∧
    (h.vtype ≠ none → h.mode = none → h.matrixFlag = true → (l = 1 ∧ k = 1 ∧ even) ∨ (l = 0 ∧ d = 0) → h.grant = .l32 →
      (h.mchain.len = 0 → does (.modeM d l k) fun u => quiet u ∧ u.hart.mchain = h.mchain ∧ u.hart.tile = ⟨0, 0, 0⟩ ∧
        u.hart.heldFlags = 0 ∧ u.hart.mode = some ⟨if k = 1 then .rs else .ws, 0, h.mchain.pos, false⟩ ∧
        ∀ w < 512, Sys2Proof.Claims.imageAt u.hart w = if l = 1 then Sys2Proof.Claims.pairWord h d.toNat w else 0) ∧
      (h.mchain.len ≠ 0 → Sys2Proof.Machine.exec (.modeM d l k) s =
        .next (s.onHart (Sys2Proof.Machine.Hart.await .chain)))) ∧
    (h.vtype ≠ none → h.mode = none → d.toNat ≤ 3 → a.toNat ≤ d.toNat → b.toNat ≤ 15 → does (.mchain d a b) fun u =>
      quiet u ∧ u.hart.mchain = ⟨BitVec.ofNat 2 d.toNat, BitVec.ofNat 2 a.toNat, BitVec.ofNat 4 b.toNat⟩ ∧
      u.hart.mode = h.mode ∧ u.hart.tile = h.tile ∧ u.hart.cells = h.cells ∧ u.hart.heldFlags = h.heldFlags) ∧
    (h.vtype ≠ none → h.mode = none → even → does (.modeV d) fun u => quiet u ∧ u.hart.mchain = ⟨0, 0, 0⟩ ∧
      u.hart.mode = none) ∧
    (h.vtype ≠ none → even → h.stopAt = none → does (.mzero d) fun u => Sys2Proof.Claims.KeepsArray s u ∧
      Sys2Proof.Claims.KeepsOutside s u d.toNat 2 ∧ u.hart.flags = h.flags ∧ u.hart.srgen = h.srgen ∧
      ∀ w < 16 * h.grant.lanes, Sys2Proof.Claims.pairWord u.hart d.toNat w =
        if w / h.grant.lanes < first then Sys2Proof.Claims.pairWord h d.toNat w else 0) ∧
    (Sys2Proof.Claims.Alone s m →
      (even → m.flow = .ws → does (.modeV d) fun u => quiet u ∧ u.hart.mchain = ⟨0, 0, 0⟩ ∧ u.hart.mode = none) ∧
      (even → m.flow = .rs →
        (does (.modeV d) fun u => drained u ∧ u.hart.mode = none ∧ u.hart.mchain = ⟨0, 0, 0⟩) ∧
        does (.mdrain d) fun u => drained u ∧ u.hart.mode = some { m with held := false } ∧
          u.hart.mchain = h.mchain) ∧
      (m.flow = .rs → does .mzeroc fun u => quiet u ∧ u.hart.mode = some { m with held := false } ∧
        u.hart.heldFlags = 0 ∧ u.hart.tile = h.tile ∧ u.hart.mchain = h.mchain ∧
        ∀ w < 512, Sys2Proof.Claims.imageAt u.hart w = 0) ∧
      (m.flow = .ws → ∀ i ∈ [Sys2Proof.Instr.mdrain d, .mzeroc], (i = .mdrain d → even) → Sys2Proof.Machine.exec i s =
        .next (s.takeTrap false 0 0x05 (h.word.setWidth 64))) ∧
      (q.common false true = true → Sys2Proof.Claims.DenseAccepted { q with sr := false } ∨
          Sys2Proof.Claims.SparseAccepted { q with sr := false } →
        Sys2Proof.Machine.fmtOf (if q.a = 13 then q.block else q.a) = some x →
        (¬ Sys2Proof.Claims.TileUnitsHere s q → Sys2Proof.Machine.exec (.settile d a b f) s =
          .next (s.takeTrap false 0 0x07 (h.word.setWidth 64))) ∧
        (Sys2Proof.Claims.TileUnitsHere s q →
        let lim := Sys2Proof.Claims.alone q (q.d == 12) x
        let t : Sys2Proof.Machine.Tile := ⟨BitVec.ofNat 8 (min ((h.rx a).toNat % 2 ^ 32) lim.1),
          BitVec.ofNat 6 (min ((h.rx a).toNat / 2 ^ 32) lim.2.1), BitVec.ofNat 13 (min (h.rx b).toNat lim.2.2)⟩
        ∃ u, Sys2Proof.Machine.exec (.settile d a b f) s = .next u ∧ u.hart.tile = t ∧
          Sys2Proof.Claims.MatrixFrame s (u.onHart fun k => { k with x := h.x }) ∧
          u.hart.v = h.v ∧ u.hart.cells = h.cells ∧ u.hart.mode = h.mode ∧
          (d ≠ 0 → ¬ Sys2Proof.Claims.Strides h d → u.hart.rx d =
            BitVec.ofNat 64 (t.m.toNat + 2 ^ 8 * t.n.toNat + 2 ^ 16 * t.k.toNat)) ∧
          ∀ r, r ≠ d → ¬ Sys2Proof.Claims.Strides h r → u.hart.rx r = h.rx r))) ∧
    (Sys2Proof.Claims.Alone s m → m.flow = .rs → q.common true true = true → q.sparse = 0 →
      (q.a = 11 ∧ q.d ∈ [7, 8, 9, 10]) ∨ (q.a = 3 ∧ q.d ∈ [0, 2]) ∨ (q.a = 12 ∧ q.d = 11) →
      Sys2Proof.Machine.fmtOf q.a = some x → Sys2Proof.Machine.fmtOf q.d = some y →
      (¬ Sys2Proof.Claims.TileUnitsHere s q → Sys2Proof.Machine.exec (.mdrainN d f) s =
        .next (s.takeTrap false 0 0x07 (h.word.setWidth 64))) ∧
      (Sys2Proof.Claims.TileUnitsHere s q →
      let wide : Bool := x == .fp64
      let side := Sys2Proof.Claims.arraySide wide
      let start := first * (2048 / y.width)
      let count := side * side - start
      let cell := fun e => Sys2Proof.Claims.cellIn wide (Sys2Proof.Claims.imageAt h) (e / side) (e % side)
      let narrow := fun e => if y = .int8 ∨ y = .int16 then
          (if q.sat = true then Sys2Proof.Claims.clampedS y.width (Sys2Proof.Claims.sgn 32 (cell e))
           else (Sys2Proof.Claims.wrap y.width (Sys2Proof.Claims.sgn 32 (cell e)), 0))
        else y.deliverWith (q.rnd (if q.sr = true then some (Sys2Proof.Machine.srSteps (32 * (e - start + 1)) h.srgen)
          else none)) (x.value (cell e))
      does (.mdrainN d f) fun u => Sys2Proof.Claims.KeepsOutside s u d.toNat 1 ∧ u.hart.cells = h.cells ∧
        u.hart.heldFlags = 0 ∧ u.hart.mode = some { m with held := false } ∧ u.hart.tile = h.tile ∧
        u.hart.mchain = h.mchain ∧
        u.hart.flags = (List.range count).foldl (fun g e => g ||| (narrow (start + e)).2) (h.flags ||| h.heldFlags) ∧
        u.hart.srgen = (if q.sr = true then Sys2Proof.Machine.srSteps (32 * count) h.srgen else h.srgen) ∧
        ∀ e < 16384 / y.width, u.hart.elem y.width d.toNat e =
          if e < start then h.elem y.width d.toNat e
          else if e < side * side then Sys2Proof.Claims.wrap y.width (narrow e).1.toNat else 0)) ∧
    (h.vtype ≠ none → h.stopAt = none → h.grant = .l32 → first = 0 → q.common false true = true →
      Sys2Proof.Claims.UnitsHere s q false →
      let c := if k = 1 then q.b else q.a
      Sys2Proof.Machine.fmtOf (if c = 13 then q.block else c) = some x →
      (if q.sparse = 0 then Sys2Proof.Claims.dotDepth x ≠ 0 else q.block = 0 ∧ (c = 5 ∨ c = 14)) →
      let p := Sys2Proof.Claims.sideShape q (k == 1) x
      Sys2Proof.Claims.PanelAt p 0 d → Sys2Proof.Claims.PanelAt p 0 a →
      Sys2Proof.Claims.Disjoint d.toNat p.regs a.toNat p.regs →
      let slot := fun (k : Sys2Proof.Machine.Hart) (r : BitVec 5) i c t => k.elem p.bits r.toNat ((i * p.p + c) * p.per + t)
      let moved := fun w : Sys2Proof.Word => if x = .lns6 then BitVec.ofNat 64 (w.toNat % 64) else w
      (does (.mskew d a f k) fun u => Sys2Proof.Claims.KeepsArray s u ∧ Sys2Proof.Claims.KeepsOutside s u d.toNat p.regs ∧
        u.hart.flags = h.flags ∧ u.hart.srgen = h.srgen ∧
        ∀ i < p.p, ∀ c < p.p, ∀ t < p.per, slot u.hart d i ((c + i) % p.p) t = moved (slot h a i c t)) ∧
      does (.mdskew d a f k) fun u => Sys2Proof.Claims.KeepsArray s u ∧ Sys2Proof.Claims.KeepsOutside s u d.toNat p.regs ∧
        u.hart.flags = h.flags ∧ u.hart.srgen = h.srgen ∧
        ∀ i < p.p, ∀ c < p.p, ∀ t < p.per, slot u.hart d i c t = moved (slot h a i ((c + i) % p.p) t))

/-- MMA and SMMA (R69 to R71, R166, R185 to R189) outside a chain: every cell of the granted tile takes its chunks in
order, each one step rounded once, every other cell stays; a tile with a zero size has no effect; a tile above the
limits, or zi in RS, is illegal. -/
def Sys2Proof.Claims.MatrixMultiplies : Prop :=
  ∀ (d a b : BitVec 5) (f : BitVec 3) (z : BitVec 1) (k : BitVec 2) (s : Sys2Proof.Machine.State)
    (m : Sys2Proof.Machine.MatrixMode) (x y w : Sys2Proof.Machine.Fmt),
    let h := s.hart
    let q := h.desc f
    let t := h.tile
    let lim := Sys2Proof.Claims.alone q (q.d == 12) x
    let Runs := fun i (dot : Nat → Nat → Sys2Proof.Word → Sys2Proof.Word × BitVec 7) =>
      ((z = 1 ∧ m.flow = .rs) ∨ ¬ Sys2Proof.Claims.Within t lim →
        Sys2Proof.Machine.exec i s = .next (s.takeTrap false 0 0x05 (h.word.setWidth 64))) ∧
      (¬ (z = 1 ∧ m.flow = .rs) → Sys2Proof.Claims.Within t lim →
        (t.m = 0 ∨ t.n = 0 ∨ t.k = 0 → Sys2Proof.Machine.exec i s = .next (Sys2Proof.Claims.after id s)) ∧
        (t.m ≠ 0 → t.n ≠ 0 → t.k ≠ 0 → Sys2Proof.Claims.Multiplies i s m w d.toNat (z == 1) dot))
    Sys2Proof.Claims.Alone s m → q.sr = false → d.toNat % 2 = 0 →
    Sys2Proof.Machine.fmtOf (if q.a = 13 then q.block else q.a) = some x →
    Sys2Proof.Machine.fmtOf (if q.b = 13 then q.block else q.b) = some y → Sys2Proof.Machine.fmtOf q.d = some w →
    (Sys2Proof.Claims.DenseAccepted q → Sys2Proof.Claims.UnitsHere s q false →
      let ea := if q.a = 13 then 1 else 0
      let eb := if q.b = 13 then 1 else 0
      let pa := Sys2Proof.Claims.shapeOf x
      let pb := Sys2Proof.Claims.shapeOf y
      Sys2Proof.Claims.PanelAt pa ea a → Sys2Proof.Claims.PanelAt pb eb b →
      Sys2Proof.Claims.Disjoint d.toNat 2 a.toNat (pa.regs + ea) →
      Sys2Proof.Claims.Disjoint d.toNat 2 b.toNat (pb.regs + eb) →
      Runs (.mma d a b f z) fun i j => Sys2Proof.Claims.dotOf q w
        ((t.k.toNat + Sys2Proof.Claims.dotDepth x - 1) / Sys2Proof.Claims.dotDepth x)
        (Sys2Proof.Claims.denseTerms h q x y a.toNat b.toNat t.k.toNat i j)) ∧
    (Sys2Proof.Claims.SparseAccepted q → Sys2Proof.Claims.UnitsHere s q true →
      let meta_ := 8 * k.toNat
      Sys2Proof.Claims.PanelAt (Sys2Proof.Claims.sideShape q false x) 0 a → b.toNat % 4 = 0 → b.toNat + 12 ≤ 32 →
      Sys2Proof.Claims.Disjoint d.toNat 2 a.toNat q.sparse.toNat → Sys2Proof.Claims.Disjoint d.toNat 2 b.toNat 12 →
      Sys2Proof.Claims.Disjoint d.toNat 2 meta_ 8 → Sys2Proof.Claims.Disjoint a.toNat q.sparse.toNat b.toNat 12 →
      Sys2Proof.Claims.Disjoint a.toNat q.sparse.toNat meta_ 8 → Sys2Proof.Claims.Disjoint b.toNat 12 meta_ 8 →
      Runs (.smma d a b f z k) fun i j => Sys2Proof.Claims.dotOf q w ((t.k.toNat + 47) / 48)
        (Sys2Proof.Claims.sparseTerms h q x y a.toNat b.toNat meta_ t.k.toNat i j))

namespace Sys2Proof.Claims

open Machine

/-! ## Operand loads -/

/-- Byte o of the TCM that a load reads: units that the gang was not allotted read zero (R224). -/
def tcmSource (s : State) (core o : Nat) : Byte :=
  if s.allotted core s.hart.name.gang (o / 4096) then (s.core core).tcmByte o else 0

/-- n bits from a bit of the bytes that start at an offset. -/
def tcmBits (s : State) (core o at_ n : Nat) : Word :=
  BitVec.ofNat 64 (natOfBytes ((List.range 9).map fun j => tcmSource s core (o + at_ / 8 + j)) / 2 ^ (at_ % 8) % 2 ^ n)

/-- The core whose TCM a load reads (R168, R190). -/
def ReadsCore (s : State) (w : Word) (core : Nat) : Prop :=
  (w.getLsbD 36 = false ∧ core = s.hart.core) ∨ (w.getLsbD 36 = true ∧ ∃ h,
    s.findHart ⟨s.hart.name.gang, w.toNat / 2 ^ 32 % 16⟩ = some h ∧ h.resident = true ∧ h.run ≠ .exited ∧
    h.cluster = s.hart.cluster ∧ core = h.core)

/-- A multicast mask is in order, and the network of the cluster holds nothing (R169, R192). -/
def MaskInOrder (s : State) (w : Word) : Prop :=
  let mask := w.toNat / 2 ^ 48
  mask ≠ 0 → mask.testBit s.hart.hartidx.toNat = true ∧ mask < 2 ^ (s.myGang.w * s.myGang.stages) ∧
    (s.cluster s.hart.cluster).multicast = []

/-- A natural load: rows, positions of a row, bits of a position in memory, and the panel (R191). -/
structure Rows where
  count : Nat
  width : Nat
  bits : Nat
  panel : Panel

/-- Bytes of a memory row; LNS6 codes come in groups of four (R57). -/
def Rows.bytes (r : Rows) : Nat := if r.bits = 6 then (r.width + 3) / 4 * 3 else (r.width * r.bits + 7) / 8

/-- What an operand load leaves alone: with no multicast mask all that a matrix instruction does, else at least the
scalar registers, flags and the array. -/
def LoadFrame (s u : State) (w : Word) : Prop :=
  Retired s u ∧ KeepsArray s u ∧ u.hart.m = s.hart.m ∧ u.hart.flags = s.hart.flags ∧ u.hart.srgen = s.hart.srgen ∧
  u.mem = s.mem ∧ (∀ r, ¬ Strides s.hart r → u.hart.rx r = s.hart.rx r) ∧
  (w.toNat / 2 ^ 48 = 0 → MatrixFrame s u)

/-- A natural load fills its panel: chunk c of row r in slot (c + r) mod P, every other byte zero (R160, R191). -/
def FillsPanel (i : Instr) (s : State) (d core : Nat) (off stride : Nat) (w : Word) (r : Rows) : Prop :=
  ∃ u, exec i s = .next u ∧ LoadFrame s u w ∧ KeepsOutside s u d r.panel.regs ∧
    ∀ k < r.panel.p, ∀ c < r.panel.p, ∀ t < r.panel.per, panelElem u.hart r.panel d k c t =
      if k < r.count ∧ c * r.panel.per + t < r.width then
        tcmBits s core (off + k * stride) ((c * r.panel.per + t) * r.bits) r.bits
      else 0

end Sys2Proof.Claims

/-- Operand loads outside a chain (R168, R169, R190 to R192): the rows of the own TCM or a peer's come into the skewed
panel, or whole registers for MLD.R; a misaligned offset or stride, a row beyond the TCM, an absent peer, and a tile
above the limits end the load first. The model's choices: an exited hart is
no resident peer (log 33); the trap value is the address of the first byte of the row that is at fault (log 35); a load
copies the INT4 code 0b1000 and raises no flag (log 45). -/
def Sys2Proof.Claims.OperandLoadsFillTheirPanels : Prop :=
  ∀ (d a b : BitVec 5) (f : BitVec 3) (n : BitVec 4) (s : Sys2Proof.Machine.State)
    (m : Sys2Proof.Machine.MatrixMode) (x : Sys2Proof.Machine.Fmt) (core : Nat),
    let h := s.hart
    let q := h.desc f
    let off := h.rx a
    let w := h.rx b
    let stride := w.toNat % 2 ^ 20
    let t := h.tile
    let tcm := fun o : Nat => BitVec.ofNat 64 (0x7FFFFFFFFC0000 + o)
    let ends := fun i (u : Sys2Proof.Machine.State) => Sys2Proof.Machine.exec i s = .next u
    let illegal := s.takeTrap false 0 0x05 (h.word.setWidth 64)
    let mem := fun k : Sys2Proof.Machine.Fmt => if k = .lns6 then 6 else k.width
    let positions := fun (p : Sys2Proof.Machine.Panel) kept => min (p.p * p.per) (if q.sparse = 0 ∨ kept = false then t.k.toNat
      else (t.k.toNat + 47) / 48 * p.per)
    let rows := fun side => if m.flow = .rs then min side t.m.toNat else t.m.toNat
    let ready := Sys2Proof.Claims.Alone s m ∧ h.vprog = 0 ∧ h.watching = false ∧ q.common false true = true ∧
      Sys2Proof.Claims.UnitsHere s q false
    let clean := (s.core core).tcmPoison = [] ∧ (s.core core).tcmLoose = [] ∧ s.localErrors = []
    let natural := fun i (r : Sys2Proof.Claims.Rows) (lim : Nat × Nat × Nat) => Sys2Proof.Claims.PanelAt r.panel 0 d →
      let spans := r.bytes ≠ 0 → ∀ k < r.count, off.toNat + k * stride + r.bytes ≤ 0x40000
      (off.toNat % 8 ≠ 0 ∨ stride % 8 ≠ 0 → ends i (s.takeTrap false 5 0x08 (tcm off.toNat))) ∧
      (off.toNat % 8 = 0 → stride % 8 = 0 →
        (r.bytes ≠ 0 → ∀ k < r.count, (∀ j < k, off.toNat + j * stride + r.bytes ≤ 0x40000) →
          0x40000 < off.toNat + k * stride + r.bytes →
          ends i (s.takeTrap false 5 0x09 (tcm (off.toNat + k * stride)))) ∧
        (spans → (∀ core, ¬ Sys2Proof.Claims.ReadsCore s w core) → ends i (s.takeTrap false 5 0x09 (tcm off.toNat))) ∧
        (spans → Sys2Proof.Claims.ReadsCore s w core → clean → Sys2Proof.Claims.MaskInOrder s w →
          (¬ Sys2Proof.Claims.Within t lim → ends i illegal) ∧
          (Sys2Proof.Claims.Within t lim →
            Sys2Proof.Claims.FillsPanel i s d.toNat core off.toNat stride w r)))
    (ready → Sys2Proof.Machine.fmtOf (if q.a = 13 then q.block else q.a) = some x →
      (if q.sparse = 0 then Sys2Proof.Claims.dotDepth x ≠ 0 else q.block = 0 ∧ (q.a = 5 ∨ q.a = 14)) →
      let p := Sys2Proof.Claims.sideShape q false x
      natural (.mldA d a b f) ⟨rows p.p, positions p true, mem x, p⟩
        (Sys2Proof.Claims.alone q (q.a == 12) x)) ∧
    (ready → Sys2Proof.Machine.fmtOf (if q.b = 13 then q.block else q.b) = some x →
      (if q.sparse = 0 then Sys2Proof.Claims.dotDepth x ≠ 0 else q.block = 0 ∧ (q.b = 5 ∨ q.b = 14)) →
      let p := Sys2Proof.Claims.sideShape q true x
      natural (.mldB d a b f) ⟨t.n.toNat, positions p false, mem x, p⟩
        (Sys2Proof.Claims.alone q (q.b == 12) x)) ∧
    (ready → q.sparse ≠ 0 →
      natural (.mldM d a b f) ⟨min 32 t.m.toNat, positions ⟨32, 4, 32, 8, 8⟩ true, 32, ⟨32, 4, 32, 8, 8⟩⟩ (32, 32, 1536)) ∧
    (let i : Sys2Proof.Instr := .mldR d a b n
     let bytes := (n.toNat + 1) * (64 * h.grant.lanes)
     h.vtype ≠ none → h.vprog = 0 → h.stopAt = none → h.watching = false → d.toNat + n.toNat < 32 →
      (off.toNat % 8 ≠ 0 ∨ stride % 8 ≠ 0 → ends i (s.takeTrap false 5 0x08 (tcm off.toNat))) ∧
      (off.toNat % 8 = 0 → stride % 8 = 0 →
        (0x40000 < off.toNat + bytes → ends i (s.takeTrap false 5 0x09 (tcm off.toNat))) ∧
        (off.toNat + bytes ≤ 0x40000 → Sys2Proof.Claims.ReadsCore s w core → clean →
          Sys2Proof.Claims.MaskInOrder s w → ∃ u, ends i u ∧ Sys2Proof.Claims.LoadFrame s u w ∧
          Sys2Proof.Claims.KeepsOutside s u d.toNat (n.toNat + 1) ∧
          ∀ e < bytes / 8, u.hart.elem 64 d.toNat e = Sys2Proof.Claims.tcmBits s core off.toNat (64 * e) 64)))

namespace Sys2Proof.Claims

open Machine

/-! ## Engines, streams, collectives -/

/-- A token register (R290). -/
def Token (d : BitVec 5) : Prop := 12 ≤ d.toNat ∧ d.toNat ≤ 19

/-- An instruction that only works on its hart, in this way, and retires. -/
def RetiresWith (i : Instr) (s : State) (f : Hart → Hart) : Prop := exec i s = .next (after f s)

/-- A queue operation is placed (R289, R293): it stands last in its queue with the hart's translation, level, memory
class and time of issue, nothing of it begun, its token is pending, and the queue's number has gone up where the operation takes one. -/
def Placed (i : Instr) (s : State) (q : Nat) (d : BitVec 5) (work : EngineWork) (numbered : Bool)
    (stamp : Option Word) : Prop :=
  ∃ u, exec i s = .next u ∧ Retired s u ∧ { u with hart := s.hart } = s ∧
    (∀ r, ¬ Strides s.hart r → u.hart.rx r = s.hart.rx r) ∧ u.hart.pending = d :: s.hart.pending ∧
    u.hart.v = s.hart.v ∧ u.hart.flags = s.hart.flags ∧
    (∀ k < 4, k ≠ q → u.hart.queue k = s.hart.queue k) ∧
    let seq := if numbered then (s.hart.queue q).cseq + 1 else 0
    ∃ op : EngineOp, u.hart.queue q = { s.hart.queue q with
        cseq := (if numbered then seq else (s.hart.queue q).cseq), ops := (s.hart.queue q).ops ++ [op] } ∧
      op.work = work ∧ op.seq = seq ∧ op.token = d ∧ op.stamp = stamp ∧ op.xlat = s.hart.xlat ∧
      op.priv = s.hart.priv ∧ op.mclass = s.hart.mclass ∧ op.issued = s.time ∧ op.run = none

/-- The destination of a copy lies in host memory (R295). -/
def ToHost (s : State) (va : Word) : Prop := ∃ home t s1, resolve (s.agentOf s.hart) [] .store va 8 s = (.ok (.host home, t), s1)

/-- Streams with an end at a hart. -/
def endsAt (all : List Stream) (k : Nat) : List Stream := all.filter fun t => t.ph.toNat == k || t.ch.toNat == k

/-- Floor and ceiling of a hart's weight (R310). -/
def weightFloor (all : List Stream) (k : Nat) : Nat := ((endsAt all k).map fun t => t.wf).foldl max 1
def weightCeiling (all : List Stream) (k : Nat) : Nat := ((endsAt all k).map fun t => t.wc).foldl min 16

/-- A path of the coupling graph (R313). -/
inductive Coupled (all : List Stream) : Nat → Nat → Prop where
  | here (k) : Coupled all k k
  | edge (t) (h : t ∈ all) (k) : Coupled all t.ch.toNat k → Coupled all t.ph.toNat k

/-- The rows of R313 with their statuses, in order. -/
def streamRows (g : Gang) (t : Stream) (clear : Bool) : List (Nat × Prop) :=
  let open_ := g.openStreams
  let all := open_ ++ [t]
  let harts := g.w * g.stages
  let free := fun (idx port : BitVec 4) => ∀ u ∈ open_, ¬ (u.ph = idx ∧ u.pp = port) ∧ ¬ (u.ch = idx ∧ u.cp = port)
  [(2, t.ph ≠ t.ch ∧ t.ph.toNat < harts ∧ t.ch.toNat < harts ∧ clear = true ∧ 1 ≤ t.spt ∧ 1 ≤ t.cap ∧ 1 ≤ t.mx ∧
      t.mx ≤ 16384 ∧ t.mx ≤ 256 * t.cap ∧ t.wf ≤ t.wc),
   (9, 256 * (t.boff + t.cap) ≤ g.scr * 4096 ∧ ∀ u ∈ open_, t.boff + t.cap ≤ u.boff ∨ u.boff + u.cap ≤ t.boff),
   (3, free t.ph t.pp ∧ free t.ch t.cp),
   (5, ∀ k < 16, ((endsAt all k).map fun u => u.kp).sum ≤ 256),
   (6, 8 * t.ki ≤ t.kp ∧ t.ki * t.icl ≤ 65536),
   (7, ∀ u ∈ all, Coupled all u.ch.toNat u.ph.toNat → 4 * u.mx ≤ 256 * u.cap),
   (8, ∀ k < 16, weightFloor all k ≤ weightCeiling all k)]

/-- A field of a record of 64 bytes. -/
def recordField (d : List Byte) (lo n : Nat) : Nat := natOfBytes d / 2 ^ lo % 2 ^ n

/-- The stream that a set-up record describes (R308). -/
def describes (d : List Byte) : Stream :=
  { ph := BitVec.ofNat 4 (recordField d 0 4), pp := BitVec.ofNat 4 (recordField d 4 4)
    ch := BitVec.ofNat 4 (recordField d 8 4), cp := BitVec.ofNat 4 (recordField d 12 4)
    boff := recordField d 16 14, cap := recordField d 32 14, mx := recordField d 48 16, spt := recordField d 64 8
    kp := recordField d 72 8, ki := recordField d 80 8, icl := recordField d 88 16, wf := recordField d 104 4 + 1
    wc := recordField d 108 4 + 1, buf := [], integ := 0, frz := false }

/-- A result in a scalar register with what else it keeps of the hart. -/
def Answers (s u : State) (d : BitVec 5) (w : Word) : Prop :=
  Retired s u ∧ (d ≠ 0 → ¬ Strides s.hart d → u.hart.rx d = w) ∧
  (∀ r, r ≠ d → ¬ Strides s.hart r → u.hart.rx r = s.hart.rx r) ∧ u.hart.v = s.hart.v ∧ u.hart.m = s.hart.m ∧
  u.hart.flags = s.hart.flags

/-- What SOPEN and SCLOSE keep: memory, cores, clusters, and every slot but one of the gang's table. -/
def TableFrame (s u : State) (k : Nat) : Prop :=
  u.mem = s.mem ∧ u.cores = s.cores ∧ u.clusters = s.clusters ∧ u.dies = s.dies ∧
  ∀ j < 16, j ≠ k → u.myGang.stream j = s.myGang.stream j

/-- The state after a port instruction without what the scratchpad banks may set beside its result (R260, R353): the
wake lines, a freeze and its marks, and the other harts' stalls. -/
def unwatched (s u : State) : State :=
  { u with gangs := s.gangs, parked := s.parked, freezes := s.freezes, portsHeld := s.portsHeld
           hart := { u.hart with wake := s.hart.wake, dbg := s.hart.dbg } }

/-- A wake line is only ever touched, and by a put alone (R260). -/
def SameWake (i : Instr) (h k : Hart) : Prop :=
  k.wake = h.wake ∨ ∃ w d n, i = .vstSq d n ∧ h.wake = some w ∧ k.wake = some { w with touched := true }

/-- What a collective's descriptor must hold (R412). -/
def CollectiveAccepted (exact_ : Bool) (w : Nat → Nat → Nat) : Prop :=
  let op := w 0 2
  let sf := w 4 4
  let df := w 8 4
  let ef := w 12 4
  w 16 16 = 0 ∧ w 384 128 = 0 ∧ w 268 12 ≤ w 256 12 ∧
  (if 2 ≤ op then sf ≠ 13 ∧ sf ≠ 15 ∧ df = sf
   else if exact_ then (df = 11 ∨ df = 10) ∧
     (sf = 11 ∨ sf = 10 ∨ sf = 9 ∨ (sf = 13 ∧ (ef = 0 ∨ ef = 7 ∨ ef = 8) ∧ w 32 32 % 32 = 0))
   else df = sf ∧ (sf = 11 ∨ sf = 10 ∨ sf = 12 ∨ sf = 3))

end Sys2Proof.Claims

/-- COPY, FILL, CHAIN and QFENCE (R290, R292, R293, R295, R297, R299): with a token register, room in the queue and
aligned operands the operation is queued with its number and the instruction retires; otherwise it is illegal, waits or
traps with the address that is misaligned. That a misaligned length reports dst is the model's choice (log 22). -/
def Obligations.EnginesQueueTheirOperations : Prop :=
  ∀ (d a b : BitVec 5) (ch st : BitVec 1) (q : BitVec 2) (k : BitVec 4) (s : Sys2Proof.Machine.State),
    let h := s.hart
    let copy : Sys2Proof.Instr := .copy d a b ch st q
    let fill : Sys2Proof.Instr := .fill d a b st q
    let chain : Sys2Proof.Instr := .chain d a (BitVec.ofNat 5 q.toNat)
    let fence : Sys2Proof.Instr := .qfence d k (BitVec.ofNat 5 q.toNat)
    let dst := h.rx a
    let src := h.rx b
    let len := BitVec.ofNat 32 (h.rx d).toNat
    let stamp := (h.queue q.toNat).cstamp
    let illegal := s.takeTrap false 0 0x05 (h.word.setWidth 64)
    let waits := s.onHart (Sys2Proof.Machine.Hart.await .engine)
    let ends := fun i (u : Sys2Proof.Machine.State) => Sys2Proof.Machine.exec i s = .next u
    let aligned := dst.toNat % 8 = 0 ∧ len.toNat % 8 = 0
    let stamped := if st = 1 then some stamp else none
    (¬ Sys2Proof.Claims.Token d → ∀ i ∈ [copy, fill, chain, fence], ends i illegal) ∧
    (∀ n : BitVec 5, 4 ≤ n.toNat → ends (.chain d a n) illegal ∧ ends (.qfence d k n) illegal) ∧
    (Sys2Proof.Claims.Token d →
      (16 ≤ (h.queue q.toNat).ops.length → ∀ i ∈ [copy, fill, chain, fence], ends i waits) ∧
      ((h.queue q.toNat).ops.length < 16 →
        (a = d ∨ b = d → ends copy illegal) ∧ (a = d → ends fill illegal) ∧
        (a ≠ d →
          (¬ aligned → ends fill (s.takeTrap false 2 0x08 dst)) ∧
          (aligned → st = 1 → stamp.toNat % 8 ≠ 0 → ends fill (s.takeTrap false 2 0x08 stamp)) ∧
          (aligned → st = 0 ∨ stamp.toNat % 8 = 0 →
            Sys2Proof.Claims.Placed fill s q.toNat d (.fill dst (h.rx b) len) true stamped) ∧
          (b ≠ d → (¬ aligned → ends copy (s.takeTrap false 2 0x08 dst)) ∧
            (aligned → src.toNat % 8 ≠ 0 → ends copy (s.takeTrap false 1 0x08 src)) ∧
            (aligned → src.toNat % 8 = 0 → st = 1 → stamp.toNat % 8 ≠ 0 → ends copy (s.takeTrap false 2 0x08 stamp)) ∧
            (aligned → src.toNat % 8 = 0 → st = 0 ∨ stamp.toNat % 8 = 0 →
              (ch = 1 → h.chainedCopy ≠ none → ends copy waits) ∧
              (ch = 0 → Sys2Proof.Claims.Placed copy s q.toNat d (.copy dst src len false) true stamped) ∧
              (ch = 1 → h.chainedCopy = none →
                (Sys2Proof.Claims.ToHost s dst →
                  Sys2Proof.Claims.Placed copy s q.toNat d (.copy dst src len false) true stamped) ∧
                (¬ Sys2Proof.Claims.ToHost s dst →
                  Sys2Proof.Claims.Placed copy s q.toNat d (.copy dst src len true) true stamped))))) ∧
        (dst.toNat % 64 ≠ 0 → ends chain (s.takeTrap false 1 0x08 dst)) ∧
        (dst.toNat % 64 = 0 → Sys2Proof.Claims.Placed chain s q.toNat d (.chain dst false 0 none) false none) ∧
        Sys2Proof.Claims.Placed fence s q.toNat d (.fence k) true none))

/-- SOPEN, SCLOSE and SAVAIL (R306, R308, R313, R314): the first broken row of the stability rules gives its status and
nothing opens; a record that meets them all opens the lowest free slot; closing gives the bytes that were left. -/
def Sys2Proof.Claims.StreamsOpenAndClose : Prop :=
  ∀ (d a : BitVec 5) (s : Sys2Proof.Machine.State) (g : Sys2Proof.Machine.Gang),
    s.gang? s.hart.name.gang = some g →
    let r := s.hart.rx a
    let slot := r.toNat % 16
    let port := fun (w : Sys2Proof.Word) => Sys2Proof.Claims.RetiresWith (.savail d a) s (Sys2Proof.Machine.Hart.wx d w)
    (r.toNat % 64 ≠ 0 → Sys2Proof.Claims.RetiresWith (.sopen d a) s (Sys2Proof.Machine.Hart.wx d 2)) ∧
    (∀ data t, r.toNat % 64 = 0 → Sys2Proof.Claims.Loads r 64 Sys2Proof.Machine.Hints.none data s t →
      t.gang? t.hart.name.gang = some g →
      let new := Sys2Proof.Claims.describes data
      let clear : Bool := Sys2Proof.Claims.recordField data 30 2 == 0 && Sys2Proof.Claims.recordField data 46 2 == 0 &&
        Sys2Proof.Claims.recordField data 112 400 == 0
      let rows := Sys2Proof.Claims.streamRows g new clear
      let answer := fun w => Sys2Proof.Machine.exec (.sopen d a) s =
        .next (Sys2Proof.Claims.after (Sys2Proof.Machine.Hart.wx d (BitVec.ofNat 64 w)) t)
      ((∀ k < 16, g.stream k ≠ none) → answer 1) ∧
      (∀ k < 16, g.stream k = none → (∀ j < k, g.stream j ≠ none) →
        (∀ (n row : Nat) (p : Prop), rows[n]? = some (row, p) → ¬ p → (∀ m < n, ∀ w : Nat × Prop, rows[m]? = some w → w.2) →
          answer row) ∧
        ((∀ w : Nat × Prop, w ∈ rows → w.2) → ∃ u, Sys2Proof.Machine.exec (.sopen d a) s = .next u ∧
          Sys2Proof.Claims.Answers t u d (BitVec.ofNat 64 (256 * k)) ∧ Sys2Proof.Claims.TableFrame t u k ∧
          u.myGang.stream k = some new ∧
          ∀ e ∈ [new.ph.toNat, new.ch.toNat], ∀ h, t.findHart ⟨t.hart.name.gang, e⟩ = some h →
            ∃ h', u.findHart ⟨t.hart.name.gang, e⟩ = some h' ∧
              let all := g.openStreams ++ [new]
              let old := if Sys2Proof.Claims.endsAt g.openStreams e = [] then h.wq.toNat / 256 * 256 else h.wq.toNat
              h'.wq.toNat = min (max old (256 * Sys2Proof.Claims.weightFloor all e))
                (256 * Sys2Proof.Claims.weightCeiling all e)))) ∧
    (g.stream slot = none → Sys2Proof.Claims.RetiresWith (.sclose d a) s
      (Sys2Proof.Machine.Hart.wx d 0xFFFFFFFFFFFFFFFF)) ∧
    (∀ t, g.stream slot = some t → ∃ u, Sys2Proof.Machine.exec (.sclose d a) s = .next u ∧
      Sys2Proof.Claims.Answers s u d (BitVec.ofNat 64 t.buf.length) ∧ Sys2Proof.Claims.TableFrame s u slot ∧
      u.myGang.stream slot = none ∧
      (∀ h ∈ u.parked, h.name.gang = g.key → h.wait ≠ some (.port slot)) ∧
      ∀ c : Host.Cell, (c.1 < 256 * t.boff ∨ 256 * (t.boff + t.cap) ≤ c.1) → (c ∈ u.myGang.scratch ↔ c ∈ g.scratch)) ∧
    (16 ≤ a.toNat → Sys2Proof.Machine.exec (.savail d a) s =
      .next (s.takeTrap false 0 0x05 (s.hart.word.setWidth 64))) ∧
    (a.toNat < 16 →
      (g.portOf s.hart.name.idx a.toNat = none → port 0xFFFFFFFFFFFFFFFF) ∧
      ∀ k t, g.stream k = some t →
        (g.portOf s.hart.name.idx a.toNat = some (k, false) → port (BitVec.ofNat 64 t.buf.length)) ∧
        (g.portOf s.hart.name.idx a.toNat = some (k, true) →
          port (BitVec.ofNat 64 (256 * t.cap - t.buf.length))))

/-- The stream-port forms (R306, R315): a put appends the elements below vl as packed bytes, a take removes as many from
the front into them, and both end the stalls of the gang's harts whose bytes can now move; an unbound or wrong end, or more than mx bytes, is illegal; a
broken stream traps with 0x0E; else the form waits; with vl = 0 it retires. A take from a buffer of poisoned granules
alone faults with 0x0C and moves nothing (R240). -/
def Sys2Proof.Claims.StreamPortsMoveBytes : Prop :=
  ∀ (d : BitVec 5) (n : BitVec 4) (s : Sys2Proof.Machine.State) (ty : Sys2Proof.Machine.TypeState)
    (g : Sys2Proof.Machine.Gang),
    let h := s.hart
    let vl := h.vl.toNat
    let w := ty.ew.bits
    let bytes := (vl * w + 7) / 8
    let put : Sys2Proof.Instr := .vstSq d n
    let take : Sys2Proof.Instr := .vldSq d n
    let key := h.name.gang
    let bound := g.portOf h.name.idx n.toNat
    let illegal := s.takeTrap false 0 0x05 (h.word.setWidth 64)
    let broken := s.takeTrap false 0 0x0E (BitVec.ofNat 64 n.toNat)
    let within := fun (t : Sys2Proof.Machine.Stream) (o : Nat) => 256 * t.boff ≤ o ∧ o < 256 * (t.boff + t.cap)
    let marked := fun (o : Nat) => ∃ p ∈ g.scratchPoison, p ≤ o ∧ o < p + 32
    let ends := fun i (u : Sys2Proof.Machine.State) => Sys2Proof.Machine.exec i s = .next u
    let moves := fun i (u : Sys2Proof.Machine.State) k (t : Sys2Proof.Machine.Stream)
        (buf : List Sys2Proof.Byte) => ends i u ∧
      Sys2Proof.Claims.Retired s u ∧ Sys2Proof.Claims.VectorFrame s (Sys2Proof.Claims.unwatched s u) ∧
      Sys2Proof.Claims.SameWake i h u.hart ∧
      u.hart.m = h.m ∧ u.hart.flags = h.flags ∧ u.hart.srgen = h.srgen ∧
      u.myGang.stream k = some { t with buf := buf } ∧ (∀ j < 16, j ≠ k → u.myGang.stream j = g.stream j) ∧
      ∀ p ∈ u.parked, p.name.gang = key → p.wait = some (.port k) →
        if t.ph.toNat = p.name.idx then 256 * t.cap < buf.length + p.portBytes else buf.length < p.portBytes
    s.gang? key = some g → s.localErrors = [] → h.vtype = some ty → Sys2Proof.Claims.Group ty d →
    vl ≤ Sys2Proof.Claims.elements h ty →
    (vl = 0 → ∀ i ∈ [put, take], ∃ u, ends i u ∧ Sys2Proof.Claims.Retired s u ∧ Sys2Proof.Claims.VectorFrame s u ∧
      Sys2Proof.Claims.KeepsVectors s u) ∧
    (vl ≠ 0 → h.wait = some .broken → ends put broken ∧ ends take broken) ∧
    (vl ≠ 0 → h.wait ≠ some .broken →
      (bound = none → ends put illegal ∧ ends take illegal) ∧
      ∀ k t, g.stream k = some t → k < 16 →
        (bound = some (k, false) → ends put illegal) ∧ (bound = some (k, true) → ends take illegal) ∧
        (t.mx < bytes → bound = some (k, true) ∨ bound = some (k, false) → ends put illegal ∧ ends take illegal) ∧
        (bytes ≤ t.mx → bound = some (k, true) →
          (t.buf.length + bytes ≤ 256 * t.cap → ∃ u data, moves put u k t (t.buf ++ data) ∧ data.length = bytes ∧
            u.hart.v = h.v ∧ ∀ i < vl,
              Sys2Proof.Machine.natOfBytes data / 2 ^ (i * w) % 2 ^ w = (h.elem w d.toNat i).toNat) ∧
          (256 * t.cap < t.buf.length + bytes →
            (g.exited.contains t.ch.toNat = true → ends put broken) ∧
            (g.exited.contains t.ch.toNat = false → ∃ cores, ends put (({ s with cores := cores } :
              Sys2Proof.Machine.State).onHart (Sys2Proof.Machine.Hart.await (.port k)))))) ∧
        (bytes ≤ t.mx → t.mx ≤ 256 * t.cap → bound = some (k, false) →
          (bytes ≤ t.buf.length → (∀ o, within t o → marked o) → ∃ o, within t o ∧
            ends take (s.takeTrap false 1 0x0C (BitVec.ofNat 64 (0x7FFFFFFF000000 + o)))) ∧
          (bytes ≤ t.buf.length → (∀ o, within t o → ¬ marked o) → ∃ u, moves take u k t (t.buf.drop bytes) ∧
            Sys2Proof.Claims.KeepsOutside s u d.toNat ty.g ∧
            ∀ i < Sys2Proof.Claims.elements h ty, u.hart.elem w d.toNat i =
              if i < vl then BitVec.ofNat 64 (Sys2Proof.Machine.natOfBytes (t.buf.take bytes) / 2 ^ (i * w) % 2 ^ w)
              else if h.mmode.getLsbD 1 = true then 0 else h.elem w d.toNat i) ∧
          (t.buf.length < bytes →
            (g.exited.contains t.ph.toNat = true → ends take broken) ∧
            (g.exited.contains t.ph.toNat = false → ∃ cores, ends take (({ s with cores := cores } :
              Sys2Proof.Machine.State).onHart (Sys2Proof.Machine.Hart.await (.port k)))))))

/-- COLL and COLL.X (R290, R410 to R412): an accepted descriptor is handed to the collective engine under the context's
next number with its token pending, after a release; any other writes status 3 to the token at once. That numbers start
at 1 in each context and that the release is made here is the model's choice (log 34). -/
def Obligations.CollectivesAreHandedOver : Prop :=
  ∀ (d a : BitVec 5) (exact_ : Bool) (s : Sys2Proof.Machine.State),
    let i : Sys2Proof.Instr := if exact_ then .collX d a else .coll d a
    let h := s.hart
    let ends := fun (u : Sys2Proof.Machine.State) => Sys2Proof.Machine.exec i s = .next u
    let mine := s.collectives.filter fun c => c.ctx == s.myGang.ctx
    (¬ Sys2Proof.Claims.Token d → ends (s.takeTrap false 0 0x05 (h.word.setWidth 64))) ∧
    (Sys2Proof.Claims.Token d → exact_ = false ∨ (Sys2Proof.Machine.capmask h.cluster).getLsbD 3 = true →
      (16 ≤ mine.length → ends (s.onHart (Sys2Proof.Machine.Hart.await .engine))) ∧
      (mine.length < 16 → (h.rx a).toNat % 64 ≠ 0 → ends (s.takeTrap false 1 0x08 (h.rx a))) ∧
      ∀ data t, mine.length < 16 → Sys2Proof.Claims.Loads (h.rx a) 64 Sys2Proof.Machine.Hints.none data s t →
        let n := t.collNext s.myGang.ctx
        let field := Sys2Proof.Claims.recordField data
        let next := { t with collSeq := (s.myGang.ctx, n + 1) :: t.collSeq.filter fun p => p.1 != s.myGang.ctx }
        (¬ Sys2Proof.Claims.CollectiveAccepted exact_ field → ends (Sys2Proof.Claims.after
          (Sys2Proof.Machine.Hart.wx d (BitVec.ofNat 64 (n % 2 ^ 48 + 3 * 2 ^ 48))) next)) ∧
        (Sys2Proof.Claims.CollectiveAccepted exact_ field → ∃ u desc, ends u ∧ Sys2Proof.Claims.Retired t u ∧
          (∀ k < 8, (desc : Vector Sys2Proof.Word 8).toList.getD k 0 = BitVec.ofNat 64 (field (64 * k) 64)) ∧
          u.collectives = t.collectives ++
            [⟨n, s.myGang.ctx, t.hart.name, d, exact_, desc, t.hart.xlat, t.hart.priv⟩] ∧
          u.collSeq = next.collSeq ∧ u.hart.pending = d :: t.hart.pending ∧
          u.mem = (next.releaseAll next.me t.hart.cluster).mem ∧
          (∀ r, ¬ Sys2Proof.Claims.Strides t.hart r → u.hart.rx r = t.hart.rx r) ∧ u.hart.v = t.hart.v ∧
          u.hart.flags = t.hart.flags))

namespace Sys2Proof.Claims

open Machine

/-! ## Events of harts, stops and waits -/

/-- The names of the harts differ. -/
def Named (s : State) : Prop := (s.harts.map Hart.name).Nodup

/-- The events that act on the hart of a name. -/
noncomputable def hartEvents (n : HartName) (k : Nat) : List Instr :=
  [.interruptEntry n, .forcedStop n k, .replyAbandon n k, .wlwaitReturn n, .wfiReturn n, .breakpoint n,
   .stepComplete n, .stepTimeout n]

/-- An event of a hart acts on that hart as on the current one, wherever it stands, and does nothing where no hart has
the name. -/
def HartEventsActOnTheirHart : Prop :=
  ∀ (n : HartName) (k : Nat) (s : State), ∀ i ∈ hartEvents n k, s.hart.name ≠ n →
    ((∃ h ∈ s.parked, h.name = n) → ∃ u, exec i (s.focus n) = .next u ∧ exec i s = .next (u.focus s.hart.name)) ∧
    ((∀ h ∈ s.parked, h.name ≠ n) → exec i s = .next s)

/-- The hart runs and no debugger holds it. -/
def Live (h : Hart) : Prop := h.run = .running ∧ h.frozen = false

/-- INTERRUPT_ENTRY, FORCED_STOP (R325, R338, R339, R342, R343): an interrupt is taken where no stop comes first; once the
grace is over, which a migrate trap leaves none of, a wait ends at once, and an instruction in flight may still commit
element groups or take array steps. How many are left is the event's, the model's choice (log 16). -/
def InterruptAndStopEvents : Prop :=
  ∀ (k : Nat) (s : State), Live s.hart → Unfrozen s →
    let n := s.hart.name
    let held := s.hart.dbg.heldRecords ≠ [] ∧ s.hart.dbg.tmode = false
    (∀ c v, OnlyInterrupts s → ¬ held → s.interruptDue s.hart = some (c, v) →
      exec (.interruptEntry n) s = .next (s.takeTrap true 0 c v)) ∧
    (s.interruptDue s.hart = none → exec (.interruptEntry n) s = .next s) ∧
    (s.myGang.pre = none → exec (.forcedStop n k) s = .next s) ∧
    (∀ r, s.myGang.pre = some r →
      let waited := ((r.heldSince.getD s.time) - r.at_).toNat
      let late := r.reason = 1 ∨ s.hart.grace.toNat ≤ waited
      let idle := s.hart.wait = none ∧ s.hart.linkHold = none
      (s.hart.quiet = true ∨ late → exec (.interruptEntry n) s = .next s) ∧
      (s.hart.quiet = false → late →
        (k ≠ 0 → idle →
          exec (.forcedStop n k) s = .next (s.onHart fun h => { h with stopAt := some ⟨k, none⟩ })) ∧
        (k = 0 ∨ ¬ idle →
          ((∀ m, s.hart.mode = some m → m.chn = 0) → exec (.forcedStop n k) s = .next (s.onHart fun h =>
            { h with run := .stopped .forced, vprog := h.stoppedVprog, vprogPc := h.stoppedPc, wait := none
                     linkHold := none, partLoad := none, wake := none, stopAt := none
                     fate := .stopped, dbg := { h.dbg with passBreak := false } })) ∧
          (∀ m, s.hart.mode = some m → m.chn ≠ 0 → ∃ u, exec (.forcedStop n k) s = .next u ∧ u.mem = s.mem ∧
            u.harts.map Hart.name = s.harts.map Hart.name ∧
            ∀ j ∈ u.harts, s.hart.chainedTo j = true → j.run ≠ .running))) ∧
      (s.hart.quiet = true ∨ ¬ late → exec (.forcedStop n k) s = .next s))

/-- REPLY_ABANDON (R339, R110, R245): the load in flight is to start again at the abandoned group; of a scalar load whose
reply is abandoned the read has performed and nothing else: the hart stops with its registers and pc as before it. -/
def AbandonedLoads : Prop :=
  (∀ (k : Nat) (s : State), exec (.replyAbandon s.hart.name k) s =
    .next (s.onHart fun h => { h with stopAt := h.stopAt.map fun a => { a with oldest := some k } })) ∧
  ∀ (n k : Nat) (w : BitVec 32) (before after : State), before.hart.stopAt = some ⟨n, some k⟩ →
    scalarLoadWord w = true → after.hart.fate = .retired → (∀ m, before.hart.mode = some m → m.chn = 0) →
    let t := State.landed before w after
    t.hart.run = .stopped .forced ∧ t.hart.x = before.hart.x ∧ t.hart.pc = before.hart.pc ∧
      t.hart.instret = before.hart.instret ∧ t.mem = after.mem

/-- WLWAIT_RETURN, WFI_RETURN (R261, R337): the waiting instruction retires. -/
def WaitsEnd : Prop :=
  ∀ (s : State), Live s.hart →
    let n := s.hart.name
    let d := s.hart.word.extractLsb' 21 5
    (∀ start limit code, s.hart.wait = some (.wakeLine start limit) →
      limit = s.hart.rx (s.hart.word.extractLsb' 11 5) → s.wakeCode s.hart start limit = some code →
      ∃ u, exec (.wlwaitReturn n) s = .next u ∧ u.hart.instret = s.hart.instret + 1 ∧
        (d ≠ 0 → ¬ Strides s.hart d → u.hart.rx d = code) ∧
        (∀ r, r ≠ d → ¬ Strides s.hart r → u.hart.rx r = s.hart.rx r) ∧ u.mem = s.mem ∧
        ∀ a b, u.hart.wait ≠ some (.wakeLine a b)) ∧
    (s.hart.wait = some .interrupt → s.wakePending s.hart = true → s.hart.priv ≠ .user →
      ∃ u, exec (.wfiReturn n) s = .next u ∧ u.hart.instret = s.hart.instret + 1 ∧
        (∀ r, ¬ Strides s.hart r → u.hart.rx r = s.hart.rx r) ∧ u.mem = s.mem ∧ u.hart.wait ≠ some .interrupt)

/-- STREAM_PORT_WAKE (R315): the stall of the named hart ends once its bytes can move, breaks where its stream is closed
or its other end has exited, and else goes on. -/
def PortWaitsEnd : Prop :=
  ∀ (n : HartName) (s : State), ∃ u, exec (.streamPortWake n) s = .next u ∧
    { u with hart := s.hart, parked := s.parked } = s ∧ u.harts.length = s.harts.length ∧
    ∀ (i : Nat) (h : Hart), s.harts[i]? = some h →
      (h.name ≠ n ∨ (∀ k, h.wait ≠ some (.port k)) → u.harts[i]? = some h) ∧
      ∀ k, h.name = n → h.wait = some (.port k) →
        let g := s.gang n.gang
        let ends := fun w => u.harts[i]? = some { h with wait := some w }
        (g.stream k = none → ends .broken) ∧
        ∀ t, g.stream k = some t →
          let puts := t.ph.toNat = n.idx
          let moves := if puts then t.buf.length + h.portBytes ≤ 256 * t.cap else h.portBytes ≤ t.buf.length
          let gone := (if puts then t.ch.toNat else t.ph.toNat) ∈ g.exited
          (moves → ends (.flowing k)) ∧ (¬ moves → gone → ends .broken) ∧ (¬ moves → ¬ gone → u.harts[i]? = some h)

/-- The settings of waiting members that name one head do not contradict each other (R170, R183). -/
def SettingsMeet (l : List Hart) : Prop :=
  ∀ k ∈ l, (k.mchain.pos = 0 ↔ k.hartidx = k.mchain.head) ∧ ∀ j ∈ l, j.mchain.len = k.mchain.len ∧
    j.word.getLsbD 0 = k.word.getLsbD 0 ∧ (j.name ≠ k.name → j.mchain.pos ≠ k.mchain.pos)

/-- CHAIN_RENDEZVOUS (R170, R179, R183): with as many members waiting as the settings name and the settings in
agreement, every one of them enters matrix mode. While no setting of a head contradicts another and enough other harts of
the gang, the head among them, can still come, all wait on. Where as many wait under one head as its setting names and
contradict each other, and where all that are left of the gang wait and no chain of them is complete, be it for the heads
alone, each traps. Else a hart of them waits on or traps: which harts that name several heads are members of one chain is the
model's choice (log 27). -/
def ChainsMeet : Prop :=
  ∀ (s : State), Named s → ∀ h ∈ s.harts, h.waitsAt [0x36] = true →
    let w := s.harts.filter fun k => k.waitsAt [0x36] && k.name.gang == h.name.gang
    let under := fun (d : BitVec 4) => w.filter fun k => k.mchain.head == d
    let l := under h.mchain.head
    let living := s.harts.filter fun k => k.name.gang == h.name.gang && k.run != .exited && k.run != .gone
    let others := living.filter fun k => !k.waitsAt [0x36]
    let agreed := l.length = h.mchain.len.toNat + 1 ∧ SettingsMeet l
    let quiet := ∀ k ∈ w, k.priv = .user ∧ k.sup.stat.nest = false
    let trap := fun (l : List Hart) => ∃ u, exec (.chainRendezvous h.name) s = .next u ∧ u.mem = s.mem ∧
      ∀ k ∈ l, ∃ j ∈ u.harts, j.name = k.name ∧ j.priv = .supervisor ∧ j.sup.cause = 0x05 ∧ j.sup.epc = k.pc ∧
        j.pc = k.trapvec ++ 0#2 ∧ j.mode = k.mode
    (agreed → ∃ u, exec (.chainRendezvous h.name) s = .next u ∧ u.mem = s.mem ∧
      ∀ k ∈ l, ∃ j ∈ u.harts, j.name = k.name ∧ j.wait = none ∧ j.instret = k.instret + 1 ∧
        j.mode = some ⟨(if k.word.getLsbD 0 then .rs else .ws), k.mchain.len, k.mchain.pos, false⟩ ∧
        (k.word.getLsbD 1 = false → j.cells = Vector.replicate 512 0) ∧ j.tile = ⟨0, 0, 0⟩) ∧
    (¬ agreed → SettingsMeet l → (∃ k ∈ l ++ others, k.hartidx = h.mchain.head) →
      h.mchain.len.toNat < l.length + others.length → exec (.chainRendezvous h.name) s = .next s) ∧
    (quiet → h.mchain.len.toNat < l.length → ¬ SettingsMeet l → trap l) ∧
    (quiet → others = [] →
      (∀ k ∈ w, (under k.mchain.head).length ≤ k.mchain.len.toNat ∨ ¬ SettingsMeet (under k.mchain.head)) → trap w) ∧
    (quiet → ¬ agreed → exec (.chainRendezvous h.name) s = .next s ∨ trap [h])

/-! ## Events of gangs and launches -/

/-- GANG_PLACEMENT (R205, R206): the next gang of the record that stands first is placed on the chosen cores with the
grants and TCM units of `seats`, its harts reset and loaded; its record's count of R202 starts afresh. -/
def GangsArePlaced : Prop :=
  ∀ (cluster : Nat) (cores : List Nat) (l : Launch) (seats : List (Nat × Seat)) (s : State),
    s.schedules cluster = true → s.nextLaunch cluster = some l →
    cores.length = (s.recordAt l.pa).width * (s.recordAt l.pa).stages → (∀ c ∈ cores, c < 16) →
    (s.recordAt l.pa).seatAll s [] (cores.map fun c => 16 * cluster + c) = some seats →
    ∃ u, exec (.gangPlacement cluster cores) s = .next u ∧ u.nextKey = s.nextKey + 1 ∧
      let r := recordOf (s.readDie (.scheduler cluster) l.pa 64).1
      let ex := r.ex1.toNat + 1
      let ey := r.ey1.toNat + 1
      (∃ g ∈ u.gangs, g.key = s.nextKey ∧ g.cluster = cluster ∧ g.launch = some l.key ∧ g.scr = r.scr.toNat ∧
        g.gx = BitVec.ofNat 20 (l.next % ex) ∧ g.gy = BitVec.ofNat 20 (l.next / ex % ey) ∧
        g.gz = BitVec.ofNat 20 (l.next / ex / ey) ∧ g.ctx = l.ctx) ∧
      (∃ k ∈ u.launches, k = { l with
        next := l.next + 1, queued := !decide (r.gangs ≤ l.next + 1), total := r.gangs, held := [], first := []
        clusters := l.clusters ||| clusterBit cluster, latest := cluster }) ∧
      ∀ (i core : Nat) (t : Seat), seats[i]? = some (core, t) → ∃ h ∈ u.harts, h.name = ⟨s.nextKey, i⟩ ∧
        h.core = core ∧ h.run = .placed ∧ h.priv = .user ∧ h.tcmBase = t.tcmBase ∧ h.tcmUnits = t.tcmUnits ∧
        h.hartidx = BitVec.ofNat 4 i ∧ h.rx 4 = r.frame ∧ h.rx 5 = l.record ∧
        h.rx 2 = (if t.tcmUnits = 0 then 0
          else 0x007FFFFFFFFC0000#64 + BitVec.ofNat 64 ((t.tcmBase + t.tcmUnits) * 4096)) ∧
        (r.stab = 0 → h.pc = r.code) ∧ h.m = masksReset ∧ h.vtype = none ∧ h.mode = none

/-- GANG_START, ISSUE_WINDOW, BARRIER_COMPLETE (R206, R207, R216, R354, R428): a gang whose harts are all resident starts
where no freeze covers its cluster and the boot has not failed. -/
def GangsStartAndMeet : Prop :=
  ∀ (key core : Nat) (s : State),
    let g := s.gang key
    let all := fun f => ∃ u, exec (.gangStart key) s = .next u ∧ { u with hart := s.hart, parked := s.parked } = s ∧
      u.harts = s.harts.map f
    ((∀ i < g.w * g.stages, ∃ h ∈ s.harts, h.name = ⟨key, i⟩ ∧ h.run = .placed) →
      (∀ f ∈ s.freezes, freezeCovers f (16 * g.cluster) = false) → s.control.bootFailure = 0 →
      all fun h => if h.name.gang = key ∧ h.run = .placed then { h with run := .running } else h) ∧
    ((∃ i < g.w * g.stages, ∀ h ∈ s.harts, h.name = ⟨key, i⟩ → h.run ≠ .placed) ∨
        (∃ f ∈ s.freezes, freezeCovers f (16 * g.cluster) = true) ∨ s.control.bootFailure ≠ 0 →
      exec (.gangStart key) s = .next s) ∧
    (∃ u, exec (.issueWindow core) s = .next u ∧
      { u with hart := s.hart, parked := s.parked, cores := s.cores } = s ∧
      (∀ c, u.core c = if c = core then { s.core c with issues := 0 } else s.core c) ∧ u.harts = s.harts.map fun h =>
        if h.core = core then { h with credit := min (h.wq.toNat / 256) s.wmax.toNat } else h) ∧
    ((∃ k ∈ s.gangs, k.key = key) →
      let here := fun (i : Nat) (arrived : Hart → Prop) => i ∈ g.exited ∨ ∃ h ∈ s.harts, h.name = ⟨key, i⟩ ∧ arrived h
      ((∃ i < g.w * g.stages, i ∉ g.exited) →
        (∀ i < g.w * g.stages, here i fun h => h.arrGang = some g.barGen) →
        ∃ u, exec (.barrierComplete key) s = .next u ∧ (u.gang key).barGen = g.barGen + 1 ∧ u.mem = s.mem ∧
          ∀ h ∈ u.harts, h.name.gang = key → h.wait ≠ some .barrier) ∧
      ∀ st < g.stages, st < 8 → (∃ i < g.w, st * g.w + i ∉ g.exited) →
        (∀ i < g.w, here (st * g.w + i) fun h => h.arrStage = some (g.stageGen.toList.getD st 0)) →
        ∃ u, exec (.barrierComplete key) s = .next u ∧
          (u.gang key).stageGen.toList.getD st 0 = g.stageGen.toList.getD st 0 + 1 ∧ u.mem = s.mem ∧
          ∀ h ∈ u.harts, h.name.gang = key → h.wait ≠ some .barrier)

/-- A hart that a core may issue for (R207). -/
def CanIssue (s : State) (c : Nat) (h : Hart) : Prop := h.core = c ∧ s.ready h = true ∧ 0 < h.credit

/-- A hart goes before another (R207): it issued less recently, not to have issued since it became resident (0) the least;
then it became resident earlier; then its hartidx is lower. -/
def GoesBefore (h k : Hart) : Prop :=
  h.issued < k.issued ∨ h.issued = k.issued ∧ (h.joined < k.joined ∨
    h.joined = k.joined ∧ h.hartidx.toNat < k.hartidx.toNat)

/-- The choice of a core (R207): in a window with cycles left it issues for the ready hart with credit that goes before
the others; in one that is used up, or in which no hart can issue, as in a new window; an issue takes one credit and is the
hart's most recent. -/
def IssuesGoInOrder : Prop :=
  (∀ (c : Nat) (s : State) (h : Hart), Named s → (s.core c).issues < 16 → h ∈ s.harts → CanIssue s c h →
    (∀ k ∈ s.harts, CanIssue s c k → k.name ≠ h.name → GoesBefore h k) → s.pick c = some (s.focus h.name)) ∧
  (∀ (c : Nat) (s : State), 16 ≤ (s.core c).issues ∨ (∀ h ∈ s.harts, ¬ CanIssue s c h) →
    s.pick c = (s.window c).pick c) ∧
  (∀ (c : Nat) (s : State), (s.core c).issues = 0 → (∀ h ∈ s.harts, ¬ CanIssue s c h) →
    (∀ h ∈ s.harts, h.core = c → h.credit = min (h.wq.toNat / 256) s.wmax.toNat) → s.pick c = none) ∧
  ∀ (s : State), s.charge.hart = { s.hart with credit := s.hart.credit - 1, issued := s.steps + 1 } ∧
    s.charge.parked = s.parked ∧
    ∀ c, s.charge.core c = if c = s.hart.core then { s.core c with issues := (s.core c).issues + 1 } else s.core c

/-- A launch stands first in the order of a scheduler whose cluster meets its capability mask (R201, R202). -/
def StandsFirst (s : State) (cluster : Nat) (l : Launch) : Prop :=
  l ∈ s.launches ∧ l.queued = true ∧ l.elig.isSome = true ∧ (∀ c, l.queue = .spawn c → c = cluster) ∧
  (s.recordAt l.pa).rcap &&& ~~~(capmask cluster) = 0 ∧ ∀ c ∈ s.candidates cluster, s.ahead c (.launch l) = false

/-- RECORD_HOLD (R202, R354): the record that has stood first for 65 536 ns becomes held; the count runs on as time passes
while the record stands first, and starts afresh when it does not. -/
def RecordsAreHeld : Prop :=
  ∀ (cluster : Nat) (s : State),
    ((∃ f ∈ s.freezes, freezeCovers f (16 * cluster) = true) → exec (.recordHold cluster) s = .next s) ∧
    ((∀ f ∈ s.freezes, freezeCovers f (16 * cluster) = false) → ∃ u, exec (.recordHold cluster) s = .next u ∧
      { u with launches := s.launches } = s ∧ u.launches.length = s.launches.length ∧
      ∀ (i : Nat) (l : Launch), s.launches[i]? = some l →
        (∀ since, StandsFirst s cluster l → (l.first.find? fun p => p.1 == cluster) = some (cluster, since) →
          65536 ≤ (s.time - since).toNat → cluster ∉ l.held →
          u.launches[i]? = some { l with held := cluster :: l.held }) ∧
        ((∀ since, (l.first.find? fun p => p.1 == cluster) = some (cluster, since) →
          (s.time - since).toNat < 65536) → u.launches[i]? = some l)) ∧
    (cluster < 48 → ∀ (i : Nat) (l : Launch), s.launches[i]? = some l → ∃ k, s.noteFirst.launches[i]? = some k ∧
      { k with first := l.first } = l ∧
      (StandsFirst s cluster l → (cluster, match l.first.find? fun p => p.1 == cluster with
        | some p => p.2
        | none => s.time) ∈ k.first) ∧
      (¬ StandsFirst s cluster l → ∀ since, (cluster, since) ∉ k.first))

/-- The state once the gangs of a list have been asked to stop. -/
def asked (s : State) (vs : List Gang) : State := vs.foldl (fun t g => t.requestPreempt g.key) s

/-- The next gang of a record would fit on a cluster once the gangs there that are asked have gone (R203). -/
def Clear (s : State) (cluster : Nat) (r : Record) : Prop :=
  let stays := fun (key : Nat) => !s.gangs.any fun g => g.key == key && g.cluster == cluster && g.pre.isSome
  (({ s with
      gangs := s.gangs.filter fun g => stays g.key
      parked := s.parked.filter fun h => stays h.name.gang
      hart := if stays s.hart.name.gang then s.hart else { s.hart with run := .gone } } : State).fits cluster r) = true

/-- A gang goes before another in the order of victims (R203): of lower base priority, or of the same and placed or
resumed later. -/
def Sooner (g k : Gang) : Prop := g.basePrio < k.basePrio ∨ g.basePrio = k.basePrio ∧ k.order < g.order

/-- The victims of a record on a cluster (R203, R397): gangs of strictly lower base priority there, not asked yet, in the
order of the rule; one is taken only while the record's next gang does not fit, and the last makes it fit; a gang whose
image would not fit its save region at its turn is passed over, and no other. -/
def VictimsComeInOrder : Prop :=
  ∀ (s : State) (cluster base : Nat) (r : Record) (vs : List Gang), (s.gangs.map Gang.key).Nodup →
    s.clearing r base cluster = some vs →
    r.rcap &&& ~~~(capmask cluster) = 0 ∧ Clear (asked s vs) cluster r ∧
    vs.Pairwise (fun a b => a.basePrio < b.basePrio ∨ a.basePrio = b.basePrio ∧ b.order ≤ a.order) ∧
    (∀ v ∈ vs, v ∈ s.gangs ∧ v.cluster = cluster ∧ v.basePrio < base ∧ v.ended = false ∧ v.pre = none) ∧
    ∀ before v after, vs = before ++ v :: after →
      ¬ Clear (asked s before) cluster r ∧ (asked s before).saveRoom v = true ∧
      ∀ g ∈ s.gangs, g.cluster = cluster → g.basePrio < base → g.ended = false → g.pre = none → Sooner g v →
        g ∉ before → s.saveRoom g = false ∨ ∃ n, (asked s (before.take n)).saveRoom g = false

/-- SCHEDULER_PREEMPT_REQUEST, PREEMPT_DELIVERY (R200, R203, R354, R397): for the first record that asks for pre-emption on
the cluster, one that reads its queue and where it needs the fewest victim harts, every victim is asked. That a victim counts
with every hart that it was launched with, exited ones too, is the model's choice (log 75). -/
def VictimsAreAsked : Prop :=
  ∀ (cluster key : Nat) (s : State),
    let asks := exec (.schedulerPreemptRequest cluster) s
    ((∃ f ∈ s.freezes, freezeCovers f (16 * cluster) = true) → asks = .next s) ∧
    ((∀ l ∈ s.launches, s.urgent l = false) → asks = .next s) ∧
    (∀ before l after vs, s.launches = before ++ l :: after → (∀ f ∈ s.freezes, freezeCovers f (16 * cluster) = false) →
      (∀ k ∈ before, s.urgent k = true → s.asks cluster k = none) → s.urgent l = true → cluster < 48 →
      let reads := fun (c : Nat) => ∀ k, l.queue = .spawn k → c = k
      reads cluster →
      let r := s.recordAt l.pa
      let base := min r.prio.toNat l.ceil
      s.clearing r base cluster = some vs →
      (∀ c < 48, reads c → ∀ ws, s.clearing r base c = some ws →
        (vs.map fun g => g.w * g.stages).sum ≤ (ws.map fun g => g.w * g.stages).sum) →
      ∃ u, asks = .next u ∧ u.harts = s.harts ∧ u.mem = s.mem ∧ u.gangs.map Gang.key = s.gangs.map Gang.key ∧
        ∀ g ∈ u.gangs, (∃ v ∈ vs, v.key = g.key) → g.pre ≠ none) ∧
    ((∃ g ∈ s.gangs, g.key = key) → (s.gang key).waitRoom = true → (s.gang key).pre = none →
      s.saveRoom (s.gang key) = true →
      ∃ u, exec (.preemptDelivery key) s = .next u ∧ { u with gangs := s.gangs } = s ∧ (u.gang key).waitRoom = false ∧
        (u.gang key).pre = some ⟨s.time, 0,
          if s.freezes.any fun f => freezeCovers f (16 * (s.gang key).cluster) then some s.time else none⟩)

/-- The parts of a hart's section (R345): registers, queue and whole. -/
def vectorPart (h : Hart) : Nat := if h.run = .stopped .preferred then 0 else 2048 * h.grant.lanes
def queuePart (h : Hart) : Nat := 64 * ((40 * h.dq.length + 63) / 64)
def sectionPart (h : Hart) : Nat :=
  1280 + vectorPart h + 1024 * h.grant.lanes + queuePart h + 4096 * h.tcmUnits + if h.mode = none then 0 else 16384

/-- What the bytes of an image hold (R344, R345) of a gang, its harts and those of them that live: size, header, directory, and of each
section the scalar registers with pc, the vector registers, masks, deferral queue and TCM; then the scratchpad. A hart that has
exited has no section and a directory entry of zero, the model's choice (log 86). -/
def ImageHolds (s : State) (g : Gang) (reason : BitVec 4) (hs live : List Hart) (bytes : List Byte) : Prop :=
  let word := fun o => BitVec.ofNat 64 (natOfBytes ((bytes.drop o).take 8))
  let byte := fun o => bytes.getD o 0
  let at_ := fun i => 4096 + ((live.filter fun k => decide (k.name.idx < i)).map sectionPart).sum
  let size := 4096 + (live.map sectionPart).sum + 4096 * g.scr
  let mh := ((hs.filter Hart.migrating).map fun h => h.name.idx).headD 0
  bytes.length = size ∧
  word 0 = BitVec.ofNat 64 ((if classA g.cluster then 2 else 1) + 2 ^ 16 * (g.w * g.stages - 1) +
    2 ^ 20 * reason.toNat + 2 ^ 24 * mh + 2 ^ 32 * (size / 64)) ∧
  word 8 = g.record ∧ word 16 = 0#4 ++ g.gz ++ g.gy ++ g.gx ∧ word 24 = s.time ∧ (∀ k < 4, word (32 + 8 * k) = 0) ∧
  (∀ i < 16, (∀ h ∈ live, h.name.idx ≠ i) → word (64 + 8 * i) = 0) ∧
  (∀ h ∈ live,
    let o := at_ h.name.idx
    let lanes := h.grant.lanes
    let masks := o + 1024 + vectorPart h
    let queue := masks + 1024 * lanes
    let tcm := queue + queuePart h
    (h.name.idx < 16 → word (64 + 8 * h.name.idx) = BitVec.ofNat 64 (o + 2 ^ 32 * (sectionPart h / 64))) ∧
    (∀ r : BitVec 5, word (o + 8 * r.toNat) = h.rx r) ∧ word (o + 256) = h.pc ∧
    (h.run ≠ .stopped .preferred → ∀ r : Fin 32, ∀ i : Fin 256, i.val < 8 * lanes →
      word (o + 1024 + 8 * (8 * lanes * r.val + i.val)) = h.v[r][i]) ∧
    (∀ r : Fin 8, ∀ i : Fin 512, i.val < 16 * lanes → word (masks + 8 * (16 * lanes * r.val + i.val)) = h.m[r][i]) ∧
    (∀ (j : Nat) (d : Deferred), h.dq[j]? = some d → 1 ≤ d.values.length → d.values.length ≤ 4 →
      word (queue + 40 * j) = BitVec.ofNat 64 (d.index.toNat + 2 ^ 32 * d.ew.code.toNat + 2 ^ 35 * (d.values.length - 1)) ∧
      ∀ i < 4, word (queue + 40 * j + 8 + 8 * i) = d.values.getD i 0) ∧
    ((s.core h.core).tcmLoose = [] → ∀ j < 4096 * h.tcmUnits,
      byte (tcm + j) = (s.core h.core).tcmByte (4096 * h.tcmBase + j))) ∧
  ∀ (o : Nat) (b : Byte), o < 4096 * g.scr → cellGet g.scratch o = some b →
    (∀ (k : Nat) (t : Stream), g.stream k = some t → o < 256 * t.boff ∨ 256 * (t.boff + t.cap) ≤ o) →
    byte (size - 4096 * g.scr + o) = b

/-- GANG_SAVE (R305, R341, R344, R345, R397, R402): a gang whose harts have all stopped or exited, with no engine inside a
chunk, is saved where its image fits, in memory at its place, and leaves its cores; with no room a gang that a migrate trap
stopped signals vector 1 once, to the PF and to the function of its context. -/
def GangsAreSaved : Prop :=
  ∀ (key : Nat) (r : PreReq) (s : State), (∃ g ∈ s.gangs, g.key = key) → (s.gang key).pre = some r →
    s.localErrors = [] →
    let g := s.gang key
    let hs := s.gangHarts g
    let live := hs.filter fun h => h.run != .exited && h.run != .gone
    let t := (s.savePlace g).2
    (∀ h ∈ hs, h.settled = true) → live ≠ [] →
    (∀ h ∈ hs, ∀ q < 4, ∀ o ∈ (h.queue q).ops, ∀ e, o.run = some e → e.words = []) →
    (∀ f ∈ s.freezes, freezeCovers f (16 * g.cluster) = false) →
    (∀ a, (s.savePlace g).1 = some a → ∃ u v, exec (.gangSave key) s = .next u ∧ u.saved = s.saved ++ [v] ∧
      v.gang = { g with pre := none, waitRoom := false } ∧ v.image = a ∧ v.reason = r.reason ∧ v.elig = s.time ∧
      v.size = v.bytes.length ∧ (v.harts.map Hart.name) = hs.map Hart.name ∧
      (v.harts.map fun h => (h.pc, h.x, h.v, h.m)) = hs.map (fun h => (h.pc, h.x, h.v, h.m)) ∧
      ImageHolds s g r.reason hs live v.bytes ∧
      (s.wf = true → s.errors = [] → (∀ die ∈ s.dies, die.readers = []) → a + v.size ≤ 0x8000000000 →
        (∀ i < v.size, s.homeOf (a + i) ≠ none) → ∀ i < v.size, u.dieByte (a + i) = v.bytes.getD i 0) ∧
      (∀ h ∈ u.harts, h.name.gang = key → h.run = .gone) ∧ ∀ k ∈ u.gangs, k.key ≠ key) ∧
    ((s.savePlace g).1 = none → g.waitRoom = false → r.reason = 1 → ∃ u, exec (.gangSave key) s = .next u ∧
      u.harts = t.harts ∧ u.outbox = t.outbox ++ [.msix 0 1] ++ (if g.ctx = 0 then [] else [.msix g.ctx 1]) ∧
      (u.gang key).waitRoom = true ∧ u.saved = s.saved) ∧
    ((s.savePlace g).1 = none → g.waitRoom = true ∨ r.reason ≠ 1 → exec (.gangSave key) s = .next s)

/-- RESUMPTION (R95, R101, R130, R347): the gang starts again on the chosen cores, each hart where it stopped, a loop's body
to be fetched again, mask bits above a smaller grant zero, with its grant, or where every hart stopped at a preferred point
one that the record allows and its deferral queue fits, and its vector registers then not sure (R129; log 31); an image whose
header or directory has changed is not resumed and its launch is over, the model's choice (log 87). -/
def GangsAreResumed : Prop :=
  ∀ (cluster key : Nat) (cores grants : List Nat) (v : Saved) (s : State),
    (s.saved.find? fun w => w.gang.key == key) = some v → s.schedules cluster = true →
    s.isNext cluster (.saved v) = true →
    (∀ seats, (s.imageBytes v).take 192 = v.bytes.take 192 →
      s.reseat cluster v.regrants (s.recordAt v.gang.recordPa) [] v.live (cores.zip grants) = some seats →
      ((s.harts ++ v.harts).map Hart.name).Nodup →
      ∃ u, exec (.resumption cluster key cores grants) s = .next u ∧ (∀ w ∈ u.saved, w.gang.key ≠ key) ∧
        (∃ g ∈ u.gangs, g.key = key ∧ g.cluster = cluster ∧ g.refEdges = 0) ∧
        ∀ p ∈ seats, ∃ j ∈ u.harts, ∃ h ∈ v.live, j.name = p.1 ∧ h.name = p.1 ∧ j.core = p.2.core ∧
          j.grant = p.2.grant ∧ j.run = .running ∧ j.wait = none ∧ j.wake = none ∧
          (h.matrixFlag = true ∨ (∃ k ∈ v.live, k.run ≠ .stopped .preferred) → j.grant = h.grant) ∧
          (h.matrixFlag = false → (∀ k ∈ v.live, k.run = .stopped .preferred) → h.dq.length ≤ 64 * j.grant.lanes ∧
            let r := s.recordAt v.gang.recordPa
            8 * (r.lmin.toNat + 1) ≤ j.grant.lanes ∧ j.grant.lanes ≤ 8 * (r.lmax.toNat + 1)) ∧
          (s.imageBytes v = v.bytes → j.pc = h.pc ∧ j.vprog = h.vprog ∧ j.mode = h.mode ∧
            j.seqr = { h.seqr with loop := h.seqr.loop.map fun l => { l with stale := true } } ∧ j.sup = h.sup ∧
            (∀ (r : Fin 8) (i : Fin 512), r ≠ 0 → j.m[r][i] =
              if i.val < 16 * h.grant.lanes ∧ i.val < 16 * j.grant.lanes then h.m[r][i] else 0) ∧
            (h.run ≠ .stopped .preferred → j.v = h.v ∧ j.unsure = h.unsure) ∧
            (h.run = .stopped .preferred → j.unsure = List.range 32))) ∧
    ((s.imageBytes v).take 192 ≠ v.bytes.take 192 →
      ∃ u, exec (.resumption cluster key cores grants) s = .next u ∧ (∀ w ∈ u.saved, w.gang.key ≠ key) ∧
        (∀ l ∈ u.launches, v.gang.launch ≠ some l.key) ∧ u.harts.map Hart.name = s.harts.map Hart.name ∧
        Message.msix 0 3 ∈ u.outbox)

/-- HART_RESOURCE_RELEASE (R212): an exited hart with empty engine queues leaves its core, and with the last hart the
gang goes. -/
def ResourcesAreReleased : Prop :=
  ∀ (h : Hart) (s : State), Named s → h ∈ s.harts → h.run = .exited → (∀ q < 4, (h.queue q).ops = []) →
    ∃ u, exec (.hartResourceRelease h.name) s = .next u ∧ (∀ j ∈ u.harts, j.name = h.name → j.run = .gone) ∧
      (∀ j ∈ s.harts, j.name.gang ≠ h.name.gang → j ∈ u.harts) ∧ u.mem = s.mem ∧
      ((∀ j ∈ s.harts, j.name.gang = h.name.gang → j ≠ h → j.run = .gone) →
        ∀ g ∈ u.gangs, g.key ≠ h.name.gang)

/-- No line of a die's memory-side cache counts readers or is dropped, no error waits to be met, and no byte is
unspecified. -/
def PlainDies (s : State) : Prop :=
  s.wf = true ∧ s.errors = [] ∧ s.localErrors = [] ∧ s.loose = [] ∧ ∀ die ∈ s.dies, die.readers = [] ∧ die.dropped = []

/-- END_OF_LAUNCH, COMPLETION_ENTRY (R211, R214, R401): with hn every line of the clusters that ran a gang is written back;
st becomes 3; with hn the host is notified; a next record loses one from its join counter, and its pcl gains the clusters
that ran the launch. That hn is taken as set after a double trap is R329's; a next that names no aligned record of device
memory is left alone, the model's choice (log 60). -/
def LaunchesEnd : Prop :=
  ∀ (s : State),
    (∀ key l, (s.launches.find? fun (l : Launch) => l.key == key) = some l → l.queued = false → l.ended = l.total →
      (∀ g ∈ s.gangs, g.launch ≠ some key) → ∃ u, exec (.endOfLaunch key) s = .next u ∧
        u.launches.map Launch.key = (s.launches.map Launch.key).filter (fun k => k != key) ∧
        let r := s.recordAt l.pa
        let hn := r.hn = true ∨ l.doubleTrap = true
        let who : Requester := .scheduler l.latest
        (hn → ∃ p ∈ u.rings, p.1 = l.ctx ∧ (l.record, s.time) ∈ p.2.waiting) ∧
        (¬ hn → u.rings = s.rings) ∧
        (hn → s.errors = [] → ∀ c < 48, l.clusters.getLsbD c = true → ∀ pa k, u.lineAt c pa = some k → k.dirty = []) ∧
        (PlainDies s → l.pa % 64 = 0 → isCompressedHome l.pa = false →
          (u.recordAt l.pa).st = 3 ∧
          (¬ hn → r.next = 0 ∨ r.next.toNat % 64 ≠ 0 → ∀ b, b ≠ l.pa + 62 → u.dieByte b = s.dieByte b) ∧
          (¬ hn → r.next ≠ 0 → r.next.toNat % 64 = 0 →
            let s1 := (s.readRecord l.latest l.pa).writeSt who l.pa 3
            let e := s1.contextEntry l.ctx
            ∀ a t, e.2.contextHome who e.1.xlat r.next 64 = (some a, t) → isCompressedHome a = false →
              let old := recordOf (t.dieBytes a 64)
              (old.join = 0 → u.mem = t.mem) ∧
              (old.join ≠ 0 → (u.recordAt a).join = old.join - 1 ∧ (u.recordAt a).pcl = old.pcl ||| l.clusters ∧
                (∀ b, b < a ∨ a + 64 ≤ b → u.dieByte b = t.dieByte b) ∧
                ∀ k ∈ u.launches, old.join = 1 → k.pa = a → k.queued = true → k.elig = some s.time)))) ∧
    (∀ ctx ring rec time rest, (s.rings.find? fun p => p.1 == ctx) = some (ctx, ring) →
      ring.waiting = (rec, time) :: rest →
      let e := (s.contextEntry ctx).1
      let n := e.cnum.toNat + 1
      let place := 0x800000000000 + (e.cring.toNat + 16 * ring.producer) % 0x800000000000
      ((ring.producer + 1) % n ≠ ring.consumer % n → ∃ u, exec (.completionEntry ctx) s = .next u ∧
        u.outbox = (s.contextEntry ctx).2.outbox ++ [.msix ctx 0] ∧
        (Memory.wf (s.contextEntry ctx).2.mem = true →
          natOfBytes ((List.range 16).map fun i => Memory.get u.mem (place + i)) =
            rec.toNat / 64 * 64 + (if ring.wraps % 2 = 0 then 1 else 0) + time.toNat * 2 ^ 64) ∧
        ∃ p ∈ u.rings, p.1 = ctx ∧ p.2.waiting = rest ∧
          p.2.producer = (if ring.producer + 1 = n then 0 else ring.producer + 1)) ∧
      ((ring.producer + 1) % n = ring.consumer % n → exec (.completionEntry ctx) s = .next s))

/-! ## Events of the debugger and of trace -/

/-- HALT_REQUEST, FREEZE (R171, R194, R342, R351, R353, R355 to R357, R389): the freeze of the scope starts, every hart of
it that neither an earlier stop nor a migrate trap has reached will record cause 7 and counts its skid, and the grace clocks
and, of the package, the link time-outs stop; when the broadcast reaches a core, each hart there, and each partner in its
chain, stops with dpc at its next instruction, a hart that waits in WLWAIT or WFI after that instruction has retired, one that
continues a multiply not before it has completed. The model's choices: the skid is counted beside instret, which software can
write (log 17); which harts record cause 7 and which 8 (log 38). -/
def FreezesStopHarts : Prop :=
  ∀ (s : State),
    (∀ scope, ∃ u, exec (.haltRequest scope) s = .next u ∧ scope ∈ u.freezes ∧ (∀ f ∈ s.freezes, f ∈ u.freezes) ∧
      { u with hart := s.hart, parked := s.parked, freezes := s.freezes, gangs := s.gangs, portsHeld := s.portsHeld } = s ∧
      (u.portsHeld = if scope = .package then s.portsHeld.or (some s.time) else s.portsHeld) ∧
      (u.gangs = s.gangs.map fun g => if freezeCovers scope (16 * g.cluster) then
          { g with pre := g.pre.map fun r => { r with heldSince := r.heldSince.or (some s.time) } }
        else g) ∧
      u.harts = s.harts.map fun h =>
        if freezeCovers scope h.core ∧ h.frozen = false then
          { h with dbg := { h.dbg with
              causeDue := if h.dbg.causeDue = none ∧ h.dbg.skidFrom = none ∧ h.migrating = false then some (7, 0)
                else h.dbg.causeDue
              skidFrom := h.dbg.skidFrom.or (some h.retired) } }
        else h) ∧
    (∀ core, (∀ f ∈ s.freezes, freezeCovers f core = false) → exec (.freeze core) s = .next s) ∧
    ∀ core f, f ∈ s.freezes → freezeCovers f core = true → Named s →
      (∀ h ∈ s.harts, h.wait = some .interrupt → h.priv ≠ .user) → (∀ h ∈ s.harts, ∀ k < 4, (h.dbg.dbp.toList.getD k 0).getLsbD 0 = false) →
      let reached := fun (h : Hart) => h.core = core ∨ ∃ k ∈ s.harts, k.core = core ∧ k.chainedTo h = true
      ∃ u, exec (.freeze core) s = .next u ∧ u.mem = s.mem ∧ u.freezes = s.freezes ∧
        (∀ h ∈ s.harts, reached h → h.resident = true → h.run ≠ .exited → h.run ≠ .running ∨ h.arrayAt = 0 →
          ∃ j ∈ u.harts, j.name = h.name ∧ j.frozen = true ∧
            (h.frozen = false → (h.wait ≠ some .interrupt ∧ ∀ a b, h.wait ≠ some (.wakeLine a b)) →
              j.dbg.dpc = h.pc ∧ j.pc = h.pc ∧ j.x = h.x ∧ j.instret = h.instret ∧
              (j.dbg.cause, j.dbg.unit) = h.dbg.causeDue.getD (8, 0) ∧ j.dbg.skid = h.skidNow)) ∧
        ∀ h ∈ s.harts, ¬ reached h ∨ (h.run = .running ∧ h.arrayAt ≠ 0) → h ∈ u.harts

/-- BREAKPOINT, STEP_COMPLETE, STEP_TIMEOUT (R351, R356, R358, R367): a hart about to issue at an enabled breakpoint stops,
and starts the freeze of its scope; a stepped hart stops once its instruction has retired, trapped, or waits after its
issue. -/
def BreakpointsAndStepsEnd : Prop :=
  ∀ (s : State),
    let h := s.hart
    let stops := fun (i : Instr) (cause : BitVec 4) (unit : BitVec 2) => ∃ u, exec i s = .next u ∧
      u.hart.frozen = true ∧ u.hart.dbg.cause = cause ∧ u.hart.dbg.unit = unit ∧ u.hart.dbg.dpc = h.pc ∧
      u.hart.pc = h.pc ∧ u.hart.x = h.x ∧ u.hart.instret = h.instret ∧ u.hart.dbg.stepping = false ∧
      u.hart.arrGang = h.arrGang ∧ u.mem = s.mem
    (∀ k < 4, h.run = .running → (h.frozen = false ∨ h.dbg.stepping = true) → h.wait = none → h.linkHold = none →
      h.stopAt = none → h.partLoad = none → h.arrayAt = 0 →
      h.dbg.passBreak = false → (h.dbg.dbp.toList.getD k 0).getLsbD 0 = true →
      (h.dbg.dbp.toList.getD k 0).extractLsb' 2 62 = h.pc.extractLsb' 2 62 →
      (∀ j < k, (h.dbg.dbp.toList.getD j 0).getLsbD 0 = false ∨
        (h.dbg.dbp.toList.getD j 0).extractLsb' 2 62 ≠ h.pc.extractLsb' 2 62) →
      stops (.breakpoint h.name) 1 (BitVec.ofNat 2 k) ∧
      ∃ u, exec (.breakpoint h.name) s = .next u ∧ u.hart.dbg.skid = 0 ∧
        freezeScopeOf h.dbg.scope h.cluster ∈ u.freezes) ∧
    (h.dbg.stepping = true →
      (h.fate = .retired → stops (.stepComplete h.name) 5 0) ∧ (h.fate = .trapped → stops (.stepComplete h.name) 9 0) ∧
      ((h.linkHold = none ∧ h.wait ≠ none) ∨ (∃ l, h.linkHold = some l ∧ l.issued = true) →
        stops (.stepTimeout h.name) 6 0) ∧
      ((h.linkHold = none ∧ h.wait = none) ∨ (∃ l, h.linkHold = some l ∧ l.issued = false) →
        exec (.stepTimeout h.name) s = .next s)) ∧
    (h.dbg.stepping = false → exec (.stepComplete h.name) s = .next s ∧ exec (.stepTimeout h.name) s = .next s)

/-- DEBUG_RESUME (R350, R357, R358): without an armed step the freezes within the scope end and every hart that no other
freeze covers starts at its dpc; with armed steps the stepped harts alone start, for one instruction. That the resume's
scope is the event's, and that it ends the freezes that lie within it, is the model's choice (log 38). -/
def HartsResume : Prop :=
  ∀ (scope : FreezeScope) (s : State), Named s →
    let held := fun (h : Hart) => h ∈ s.harts ∧ freezeCovers scope h.core = true ∧ h.frozen = true ∧
      h.resident = true ∧ h.run ≠ .exited
    let starts := fun (h : Hart) => held h ∧ h.dbg.step = true ∧ h.run = .running ∧ h.dbg.stepping = false
    ((∀ h, held h → h.dbg.step = false) → ∃ u, exec (.debugResume scope) s = .next u ∧ u.mem = s.mem ∧
      (∀ f, f ∈ u.freezes ↔ f ∈ s.freezes ∧ ∃ c < 768, freezeCovers f c = true ∧ freezeCovers scope c = false) ∧
      (∀ h, held h → (∀ f ∈ u.freezes, freezeCovers f h.core = false) →
        ∃ j ∈ u.harts, j.name = h.name ∧ j.frozen = false ∧ j.pc = h.dbg.dpc ∧ j.x = h.x ∧ j.wait = none ∧
          j.dbg.passBreak = true) ∧
      ∀ h ∈ s.harts, freezeCovers scope h.core = false → ∃ j ∈ u.harts,
        { j with dbg := { j.dbg with skidFrom := h.dbg.skidFrom, causeDue := h.dbg.causeDue } } = h) ∧
    ((∃ h, held h ∧ h.dbg.step = true) → ∃ u, exec (.debugResume scope) s = .next u ∧ u.mem = s.mem ∧
      u.freezes = s.freezes ∧ u.gangs = s.gangs ∧
      (∀ h, starts h → ∃ j ∈ u.harts, j.name = h.name ∧ j.frozen = true ∧ j.dbg.stepping = true ∧ j.pc = h.dbg.dpc ∧
        j.x = h.x) ∧
      ∀ h ∈ s.harts, ¬ starts h → h ∈ u.harts)

/-- TRACE_STALL_RELEASE, TRACE_GAP_RECORD (R361, R362): the oldest record leaves; the slot goes to a record that waits for
one, and a gap record is followed by its hart's sync record. How a hart holds the records that wait, and the order in which
slots are given, is the model's choice (log 38). -/
def TraceBuffersDrain : Prop :=
  ∀ (c : Nat) (s : State), c < s.clusters.length → Named s →
    let buffer := (s.cluster c).trace
    let idle := fun (h : Hart) => h.dbg.heldRecords = [] ∧ h.dbg.dropped = none
    let others := fun (h : Hart) => ∀ j ∈ s.harts, j.cluster = c → j ≠ h → idle j
    (∀ r t, buffer = r :: t →
      ∃ u, exec (.traceStallRelease c) s = .next u ∧ u.outbox = s.outbox ++ [.trace r] ∧ u.mem = s.mem ∧
        ((∀ h ∈ s.harts, h.cluster = c → idle h) → (u.cluster c).trace = t) ∧
        (t.length < 128 → ∀ h ∈ s.harts, h.cluster = c → others h → h.dbg.dropped = none →
          ∀ r' t', h.dbg.heldRecords = r' :: t' →
          (u.cluster c).trace = t ++ [r'] ∧ ∃ j ∈ u.harts, j.name = h.name ∧ j.dbg.heldRecords = t')) ∧
    (∀ r q t, buffer = r :: q :: t → t.length + 2 ≤ 128 → ∀ h ∈ s.harts, h.cluster = c → others h → ∀ first n,
      h.dbg.dropped = some (first, n) → h.dbg.heldRecords = [] →
      ∃ u, exec (.traceGapRecord c) s = .next u ∧ u.outbox = s.outbox ++ [.trace r, .trace q] ∧ u.mem = s.mem ∧
        ∃ a b : TraceRecord, (u.cluster c).trace = t ++ [a, b] ∧ a.words[0].extractLsb' 0 4 = 5 ∧ a.words[1] = first ∧
          a.words[2] = n ∧ b.words[0].extractLsb' 0 4 = 1 ∧ b.words[1] = h.pc ∧ b.words[2] = h.instret ∧
          ∃ j ∈ u.harts, j.name = h.name ∧ idle j)

/-- DEBUG_PORT_READ, DEBUG_PORT_WRITE (R350): reads at any time, a slot with no hart reading zero; writes on frozen
harts alone, and not on one that issues for its step. The model's choices: a write of pc sets dpc with it, and the order of
the slots (log 38); the words and layouts of the parts that are no registers (log 62). -/
def DebugPortReachesHarts : Prop :=
  ∀ (core slot : Nat) (reg : PortReg) (w : Word) (s : State), Named s →
    (core < 768 → (s.slots core).length ≤ slot →
      exec (.debugPortRead core slot (.reg reg)) s = .next (s.send (.portValue 0)) ∧
      exec (.debugPortWrite core slot reg w) s = .next s) ∧
    ∀ h, (s.slots core)[slot]? = some h →
      (∃ v, exec (.debugPortRead core slot (.reg reg)) s = .next (s.send (.portValue v)) ∧
        (reg = .pc → v = h.pc) ∧ (∀ r, reg = .x r → v = h.rx r) ∧ (∀ n, reg = .csr n → v = (csrRead h s n).getD 0) ∧
        (∀ r k, reg = .vWord r k → v = h.vword r.toNat k) ∧ (reg = .vl → v.toNat = h.vl.toNat) ∧
        (reg = .vprog → v.toNat = h.vprog.toNat) ∧ (∀ i, reg = .cell i → v = h.cells.toList.getD i 0) ∧
        (∀ i l, reg = .body i → h.seqr.loop = some l → v.toNat = (l.body.getD i 0).toNat) ∧
        (∀ i d k, reg = .deferred i (k + 1) → h.dq[i]? = some d → v = d.values.getD k 0) ∧
        (reg = .pending → ∀ r : BitVec 5, v.getLsbD r.toNat = h.pending.contains r) ∧
        (reg = .progress → v = BitVec.ofNat 64 h.arrayAt) ∧
        (reg = .arrivals → (v.getLsbD 0 = h.arrGang.isSome) ∧ v.getLsbD 1 = h.arrStage.isSome) ∧
        (∀ i, reg = .tcm i → i < 512 * h.tcmUnits → (s.core h.core).tcmLoose = [] → v.toNat = natOfBytes ((List.range 8).map fun j =>
          (s.core h.core).tcmByte (4096 * h.tcmBase + 8 * i + j))) ∧
        ∀ r k, reg = .mWord r k → v = if r = 0 then BitVec.allOnes 64 else
          (h.m.toList.getD r.toNat maskOnes).toList.getD k 0) ∧
      (h.frozen = false ∨ (h.dbg.stepping = true ∧ h.run = .running) →
        exec (.debugPortWrite core slot reg w) s = .next s) ∧
      (h.frozen = true → h.dbg.stepping = false ∨ h.run ≠ .running →
        ∃ u, exec (.debugPortWrite core slot reg w) s = .next u ∧
        ((∀ n, reg ≠ .csr n) → reg ≠ .arrivals → ∀ j ∈ s.harts, j.name ≠ h.name → j ∈ u.harts) ∧
        (reg = .pc → ∃ j ∈ u.harts, j =
          { h with pc := w, wait := none, linkHold := none, arrayAt := 0, dbg := { h.dbg with dpc := w } }) ∧
        (reg = .pending → ∃ j ∈ u.harts, j.name = h.name ∧ ∀ r : BitVec 5, j.pending.contains r = w.getLsbD r.toNat) ∧
        (reg = .progress → ∃ j ∈ u.harts, j = { h with arrayAt := w.toNat }) ∧
        (reg = .wakeLine → w = 0 → ∃ j ∈ u.harts, j = { h with wake := none }) ∧
        (∀ i, reg = .tcm i → i < 512 * h.tcmUnits → Memory.wf (s.core h.core).tcm = true → h.core < s.cores.length →
          natOfBytes ((List.range 8).map fun j => (u.core h.core).tcmByte (4096 * h.tcmBase + 8 * i + j)) = w.toNat) ∧
        (∀ r, reg = .x r → ∃ j ∈ u.harts, j = h.wx r w) ∧
        (∀ r k, reg = .vWord r k → ∃ j ∈ u.harts, j = h.setVword r.toNat k w) ∧
        (∀ i, reg = .cell i → ∃ j ∈ u.harts, j = { h with cells := h.cells.setIfInBounds i w }) ∧
        (reg = .vprog → ∃ j ∈ u.harts, j = { h with vprog := w.setWidth 7, vprogPc := h.pc }) ∧
        (∀ r k, reg = .mWord r k → r ≠ 0 → k < 512 → ∃ j ∈ u.harts, j.name = h.name ∧
          (j.m.toList.getD r.toNat maskOnes).toList.getD k 0 = w))

/-! ## Events of time, the dies and the engines -/

/-- The requests that wait in the channels of a memory die. -/
def waitingAt (s : State) (k : Nat) : List ChannelRequest :=
  (List.range 32).flatMap fun c => ((s.die k).channels.toList.getD c ⟨[], 0, 0, 0⟩).waiting

/-- The event adds n requests of the background class to a die's channels and changes nothing else (R382). -/
def AddsBackground (s : State) (i : Instr) (k n : Nat) : Prop :=
  ∃ u, exec i s = .next u ∧ { u with dies := s.dies } = s ∧ (∀ j, j ≠ k → u.die j = s.die j) ∧
    (k < s.dies.length → (waitingAt u k).length = (waitingAt s k).length + n ∧
      ∀ r ∈ waitingAt u k, r ∈ waitingAt s k ∨ (r.cls = 3 ∧ r.requester = BitVec.ofNat 11 (0x440 + k) ∧ r.off = 0))

/-- TIMER_INTERRUPT, HEARTBEAT_TICK, COMPACTION, HBM_REFRESH, HBM_CALIBRATION, TELEMETRY_SAMPLING, MULTICAST_RELEASE
(R21, R169, R238, R278, R331, R382): time never falls; compaction and telemetry ask for their slots in the background
class. How many requests each makes is the model's choice (log 36). -/
def QuietEvents : Prop :=
  ∀ (a b : Nat) (s : State),
    (∃ u, exec (.timerInterrupt a) s = .next u ∧ { u with time := s.time } = s ∧
      u.time.toNat = min (s.time.toNat + a) (2 ^ 64 - 1)) ∧
    exec .heartbeatTick s = .next { s with hbeat := s.hbeat + 1 } ∧
    (∀ i ∈ [Instr.hbmRefresh a b, .hbmCalibration a b], exec i s = .next s) ∧
    AddsBackground s (.compaction a) a 2 ∧ AddsBackground s (.telemetrySampling a) a 1 ∧
    ∃ u, exec (.multicastRelease a) s = .next u ∧ { u with clusters := s.clusters } = s ∧
      (∀ c, c ≠ a → u.cluster c = s.cluster c) ∧
      (a < s.clusters.length → u.cluster a = { s.cluster a with multicast := [] })

/-- The record that stands in the machine-check log after an event (R332): its kind, requester, address, time and
detail at the log's place, where the log lies in memory. -/
def Logged (s u : State) (kind req : Nat) (pa detail : Word) : Prop :=
  (∀ a, s.homeOf (s.mclogBase.toNat * 4096 + 32 * (s.mclogIndex % (128 * max 1 s.mclogUnits.toNat))) = some a →
    Memory.wf s.mem = true → natOfBytes ((List.range 32).map fun i => Memory.get u.mem (a + i)) =
      kind + 2 ^ 8 * req + 2 ^ 64 * pa.toNat + 2 ^ 128 * s.time.toNat + 2 ^ 192 * detail.toNat) ∧
  u.mclogIndex = (s.mclogIndex + 1) % (128 * max 1 s.mclogUnits.toNat) ∧ u.outbox = s.outbox ++ [.msix 0 3] ∧
  u.harts.map Hart.sevent = s.harts.map fun h => if h.eve = true ∧ h.run ≠ .gone then h.sevent ||| 0x100 else h.sevent

/-- LATCH_PARITY_ERROR, PATROL_SCRUB (R239, R240, R332, R382): a latch's error is recorded; a scrub reads its granule in the
background class, meets the error that the granule has, counts a corrected one, and marks and records an uncorrectable
one, once. What a scrub finds beside the errors that State holds is the event's (log 64). -/
def ErrorsAreLogged : Prop :=
  ∀ (s : State),
    (∀ (req : Nat) (latch : Word), req < 2048 → ∃ u, exec (.latchParityError req latch) s = .next u ∧
      Logged s u 5 req 0 latch ∧ u.harts.map Hart.pc = s.harts.map Hart.pc) ∧
    ∀ pa a, s.homeOf pa = some a → homeDie a < 8 →
      let g := a / 32 * 32
      let counted := fun (u : State) =>
        homeDie a < s.dies.length → (u.die (homeDie a)).corrected = (s.die (homeDie a)).corrected + 1
      let recorded := fun (u : State) => Logged s u 1 (0x440 + homeDie a) (BitVec.ofNat 64 g) 0 ∧
        (s.homeOf (s.mclogBase.toNat * 4096 + 32 * (s.mclogIndex % (128 * max 1 s.mclogUnits.toNat))) = none →
          g ∈ u.poison)
      (s.errors = [] →
        (∃ u, exec (.patrolScrub pa .clean) s = .next u ∧ u.mem = s.mem ∧ u.poison = s.poison ∧ u.harts = s.harts) ∧
        (∃ u, exec (.patrolScrub pa .corrected) s = .next u ∧ u.mem = s.mem ∧ u.poison = s.poison ∧ counted u) ∧
        (g ∉ s.poison → ∃ u, exec (.patrolScrub pa .uncorrectable) s = .next u ∧ recorded u) ∧
        (g ∈ s.poison → ∃ u, exec (.patrolScrub pa .uncorrectable) s = .next u ∧ u.mem = s.mem ∧
          u.poison = s.poison) ∧
        (∀ c, ∃ u, exec (.patrolScrub pa (.arises c)) s = .next u ∧ u.errors = [(g, c)] ∧ u.mem = s.mem ∧
          u.poison = s.poison) ∧
        ∀ core off c, ∃ u, exec (.patrolScrub pa (.elsewhere (.tcm core off) c)) s = .next u ∧ u.mem = s.mem ∧
          u.poison = s.poison ∧ (.tcm core (off / 32 * 32), c) ∈ u.localErrors ∧ u.harts = s.harts) ∧
      (s.errors = [(g, true)] → ∃ u, exec (.patrolScrub pa .clean) s = .next u ∧ u.errors = [] ∧ u.mem = s.mem ∧
        u.poison = s.poison ∧ counted u) ∧
      (s.errors = [(g, false)] → g ∉ s.poison →
        ∃ u, exec (.patrolScrub pa .clean) s = .next u ∧ u.errors = [] ∧ recorded u)

/-- CACHE_EVICTION (R234 to R236, R267): the line that its set gives up leaves a cluster's cache, any other stays as clean,
its dirty bytes at their dies; a reader-count line of a memory-side cache becomes an ordinary one. Which cache a number
names (log 8), and that an eviction may leave the line there as clean (log 36), is the model's choice. -/
def LinesAreEvicted : Prop :=
  ∀ (c pa : Nat) (s : State), s.errors = [] → s.localErrors = [] →
    (c < 48 → ∃ u, exec (.cacheEviction c pa) s = .next u ∧
      (((s.cluster c).victim (lineOf pa)).map Line.base = some (lineOf pa) → u.lineAt c pa = none) ∧
      (((s.cluster c).victim (lineOf pa)).map Line.base ≠ some (lineOf pa) → ∀ l, s.lineAt c pa = some l →
        u.lineAt c pa = some l.clean) ∧
      (∀ k, k ≠ c → u.cluster k = s.cluster k) ∧
      ∀ l a, s.lineAt c pa = some l → s.homeOf l.base = some a → isHbmHome a = true → a % 128 = 0 →
        Memory.wf s.mem = true → ∀ i < 128, u.dieByte (a + i) = if (l.byte i).dirty then (l.byte i).val else s.dieByte (a + i)) ∧
    (48 ≤ c → c < 56 → ∀ a, s.homeOf pa = some a → homeDie a + 48 = c → ∃ u, exec (.cacheEviction c pa) s = .next u ∧
      u.readerLine a = none ∧ (Memory.wf s.mem = true → ∀ i < 128, u.dieByte (a / 128 * 128 + i) = s.dieByte (a / 128 * 128 + i)))

/-- A stamp is earlier than another (R379). -/
def EarlierStamp (a b : BitVec 16) : Prop := 1 ≤ (b - a).toNat ∧ (b - a).toNat ≤ 32767

/-- The missed deadlines that a die counts for a requester (R381). -/
def missesOf (m : List (Nat × BitVec 32)) (id : Nat) : BitVec 32 := ((m.find? fun p => p.1 == id).map Prod.snd).getD 0

/-- CHANNEL_SERVICE (R379 to R381): with no floor slot owed the channel serves its lowest class, within a class the requests
with deadlines first, the earliest stamp and then the first to arrive, and the others in arrival order; a floor slot that the
window leaves no other room for goes to the first of its class to arrive; a request whose stamp is earlier than the die's
counts a miss for its requester. That class 2 goes first where floor slots are owed to both classes is the model's choice
(log 36). -/
def ChannelsServe : Prop :=
  ∀ (k c : Nat) (s : State), k < s.dies.length → c < 32 →
    let q := (s.die k).channels.toList.getD c ⟨[], 0, 0, 0⟩
    let waits := fun (n : BitVec 2) => q.waiting.any fun x => x.cls == n
    let owed2 := if waits 2 then 4 - q.floor2 else 0
    let owed3 := if waits 3 then 1 - q.floor3 else 0
    let now := BitVec.ofNat 16 (s.time.toNat / 4)
    (q.waiting = [] → exec (.channelService k c) s = .next s) ∧
    (q.waiting ≠ [] → ∃ u r, exec (.channelService k c) s = .next u ∧ r ∈ q.waiting ∧ u.mem = s.mem ∧
      u.harts = s.harts ∧
      let p := (u.die k).channels.toList.getD c ⟨[], 0, 0, 0⟩
      p.waiting = q.waiting.erase r ∧ p.slot = (if q.slot + 1 = 32 then 0 else q.slot + 1) ∧
      p.floor2 = (if q.slot + 1 = 32 then 0 else if r.cls = 2 then q.floor2 + 1 else q.floor2) ∧
      p.floor3 = (if q.slot + 1 = 32 then 0 else if r.cls = 3 then q.floor3 + 1 else q.floor3) ∧
      (r.off ≠ 0 ∧ EarlierStamp r.stamp now → ∀ id, missesOf (u.die k).misses id =
        if id = r.requester.toNat ∧ missesOf (s.die k).misses id ≠ 0xFFFFFFFF then missesOf (s.die k).misses id + 1
        else missesOf (s.die k).misses id) ∧
      (r.off = 0 ∨ ¬ EarlierStamp r.stamp now → (u.die k).misses = (s.die k).misses) ∧
      (owed2 = 0 → owed3 = 0 →
        (∀ x ∈ q.waiting, r.cls.toNat ≤ x.cls.toNat) ∧
        (r.off = 0 → (∀ x ∈ q.waiting, x.cls = r.cls → x.off = 0) ∧
          q.waiting.find? (fun x => x.cls == r.cls) = some r) ∧
        (r.off ≠ 0 →
          q.waiting.find? (fun x => x.cls == r.cls && x.off != 0 && x.stamp == r.stamp) = some r ∧
          ∀ x ∈ q.waiting, x.cls = r.cls → x.off ≠ 0 → (∀ y ∈ q.waiting, y.cls = r.cls → y.off ≠ 0 →
            y.stamp = x.stamp ∨ EarlierStamp x.stamp y.stamp) → r.stamp = x.stamp)) ∧
      (32 ≤ q.slot + (owed2 + owed3) → owed2 ≠ 0 → q.waiting.find? (fun x => x.cls == 2) = some r) ∧
      (32 ≤ q.slot + (owed2 + owed3) → owed2 = 0 → owed3 ≠ 0 → q.waiting.find? (fun x => x.cls == 3) = some r))

/-- BRIDLE_UPDATE (R311, R312, R319): errors, integrators and weights as the rule computes them: each hart that ends a
stream receives the sum of the moves of all its sampled streams, exact before the clamp; one that ends none keeps its
weight. -/
def WeightsFollowTheBridle : Prop :=
  ∀ (key : Nat) (s : State), (∃ g ∈ s.gangs, g.key = key) →
    let g := s.gang key
    let sampled := fun (t : Stream) => [t.ph, t.ch].all fun i =>
      (s.findHart ⟨key, i.toNat⟩).any fun h => h.run == .running && !h.frozen
    let waits := fun (k : Nat) => s.harts.any fun h => h.name.gang == key && h.wait == some (.port k)
    let e := fun (t : Stream) => (256 * t.buf.length / (256 * t.cap) : Nat) - (t.spt : Int)
    let moves := fun (k : Nat) (t : Stream) =>
      sampled t && t.buf.length != 0 && t.buf.length != 256 * t.cap && !waits k
    let sum := fun (k : Nat) (t : Stream) => if moves k t then min (max (t.integ + e t) (-(t.icl : Int))) t.icl else t.integ
    let d := fun (k : Nat) (t : Stream) => ((t.kp : Int) * e t + (t.ki : Int) * sum k t) / 16
    let share := fun (i k : Nat) => match g.stream k with
      | some t => if sampled t then (if t.ch.toNat = i then d k t else 0) - (if t.ph.toNat = i then d k t else 0) else 0
      | none => 0
    let limit := fun (i : Nat) (x : Int) =>
      min (max x (256 * (weightFloor g.openStreams i : Nat))) (256 * (weightCeiling g.openStreams i : Nat))
    ∃ u, exec (.bridleUpdate key) s = .next u ∧ u.mem = s.mem ∧
      (u.gang key).refEdges = g.refEdges +
        (if g.bctlU = 0 then 256 else if g.bctlU = 1 then 128 else if g.bctlU = 2 then 512 else 1024) ∧
      (∀ k < 16, g.stream k = none → (u.gang key).stream k = none) ∧
      (∀ k < 16, ∀ t, g.stream k = some t →
        (u.gang key).stream k = some { t with integ := sum k t, frz := !moves k t }) ∧
      (∀ h ∈ s.harts, h.name.gang ≠ key → h ∈ u.harts) ∧
      (g.key = key → ∀ h ∈ s.harts, h.name.gang = key →
        (endsAt g.openStreams h.name.idx = [] → h ∈ u.harts) ∧
        (endsAt g.openStreams h.name.idx ≠ [] → ∃ j ∈ u.harts, j = { h with wq := j.wq } ∧
          (j.wq.toNat : Int) = limit h.name.idx (h.wq.toNat + ((List.range 16).map (share h.name.idx)).sum)))

/-- What the end of an operation leaves (R290, R304, R305): the operation has left its queue, its token holds the
sequence number and the status, and is no longer pending; a status of 1 or 3 is held as a fault. -/
def Ended (u : State) (h : Hart) (q : Nat) (o : EngineOp) (seq : BitVec 48) (status : Nat) : Prop :=
  ∃ j ∈ u.harts, j.name = h.name ∧ (j.queue q).ops = (h.queue q).ops.drop 1 ∧
    (h.run ≠ .exited → j.pending = h.pending.erase o.token ∧
      (o.token ≠ 0 → j.rx o.token = (0#8 ++ BitVec.ofNat 8 status ++ seq : Word))) ∧
    (status = 1 ∨ status = 3 → (j.queue q).fault = true ∧ (j.queue q).code = BitVec.ofNat 8 status ∧
      (j.queue q).faultSeq = seq)

/-- An operation stands at the head of a queue whose engine can go on (R305, R354). -/
def AtHead (s : State) (h : Hart) (q : Nat) (o : EngineOp) (rest : List EngineOp) : Prop :=
  Named s ∧ h ∈ s.harts ∧ q < 4 ∧ (h.queue q).ops = o :: rest ∧
    ((∀ f ∈ s.freezes, freezeCovers f h.core = false) ∨ h.dbg.stepping = true ∨ o.inChunk = true)

/-- The operation at the head goes on: nothing but it has changed in its queue, and its token is still pending. -/
def GoesOn (u : State) (h : Hart) (q : Nat) (o : EngineOp) (rest : List EngineOp) : Prop :=
  ∃ j ∈ u.harts, j.name = h.name ∧ (j.queue q).ops = o :: rest ∧ j.pending = h.pending ∧ ∀ r, j.rx r = h.rx r

/-- The register that holds the address of a queue's fault (R304). -/
def FaultAt (u : State) (h : Hart) (q : Nat) (va : Word) : Prop :=
  ∃ j ∈ u.harts, j.name = h.name ∧ (j.queue q).qfadr = va

/-- n bytes of memory from an address, outside the alias, and where they stand (R226). -/
def Direct (s : State) (a n : Nat) : Prop := a + n ≤ 0x8000000000 ∧ ∀ i < n, s.homeOf (a + i) = some (a + i)

/-- An operation whose words, or whose chunks, are to be written, with no translation, the destination in device memory: a
word is written whole, a fault-free copy's chunk is read whole with its poison, and the marks settle with its last word
(R270, R283, R294, R295, R304). -/
def DataMove (s : State) (h : Hart) (q : Nat) (o : EngineOp) (rest : List EngineOp) (mv : Move) (r : EngineRun) : Prop :=
  let step := exec (.engineOperation h.name q) s
  let goes := fun (u : State) (r' : EngineRun) => step = .next u ∧ GoesOn u h q { o with run := some r' } rest
  let whole := fun (g : Nat) => g % 32 = 0 ∧ r.chunk.1 ≤ g ∧ g + 32 ≤ r.chunk.1 + r.chunk.2
  PlainDies s → o.xlat.en = false →
    (r.words ≠ [] → (∀ w ∈ r.words, Direct s w.va w.data.length ∧ w.va % 8 + w.data.length ≤ 8 ∧ w.data ≠ []) →
      Direct s r.chunk.1 r.chunk.2 →
      ∃ u k w, r.words[k]? = some w ∧ goes u { r with words := r.words.eraseIdx k } ∧
        (∀ i < w.data.length, u.dieByte (w.va + i) = w.data.getD i 0) ∧
        (∀ b, (b < w.va ∨ w.va + w.data.length ≤ b) → u.dieByte b = s.dieByte b) ∧
        (r.words.length ≠ 1 → ∀ i ∈ w.bad, (w.va + i) / 32 * 32 ∈ u.poison) ∧
        (r.words.length = 1 → ∀ g, whole g → g ∉ r.spoiled → g ∉ u.poison)) ∧
    ∀ src, mv.data = .src src → r.words = [] → r.left ≠ [] → Direct s mv.dst.toNat mv.len → Direct s src.toNat mv.len →
      (∀ p ∈ r.left, mv.dst.toNat ≤ p.1 ∧ p.1 + p.2 ≤ mv.dst.toNat + mv.len) →
      ∃ u r' k, goes u r' ∧ u.mem = s.mem ∧ r.left[k]? = some r'.chunk ∧ r'.left = r.left.eraseIdx k ∧
        (mv.ordered = true → k = 0) ∧
        (∀ b, (r'.chunk.1 ≤ b ∧ b < r'.chunk.1 + r'.chunk.2) ↔ ∃ w ∈ r'.words, w.va ≤ b ∧ b < w.va + w.data.length) ∧
        let from_ := fun (va : Nat) => src.toNat + (va - mv.dst.toNat)
        let spoilt := fun (va : Nat) => s.poisoned (from_ va) 1
        (∀ w ∈ r'.words, w.va / 8 = (w.va + w.data.length - 1) / 8 ∧
          (∀ i < w.data.length, w.data.getD i 0 = s.dieByte (from_ (w.va + i))) ∧
          ∀ i, i ∈ w.bad ↔ i < w.data.length ∧ spoilt (w.va + i) = true) ∧
        (∀ g, g ∈ r'.spoiled ↔ ∃ w ∈ r'.words, ∃ i ∈ w.bad, g = (w.va + i) / 32 * 32) ∧
        (r'.bad = true ↔ r.bad = true ∨ ∃ w ∈ r'.words, w.bad ≠ [])

/-- The end of an operation whose chunks are all written (R290, R291): status 2 where a chunk carried poison; its stamp, in
device memory, holds the sequence number, and one in TCM, in host memory or at an address that faults ends it with status 1
and the stamp's address. -/
def DataEnds (s : State) (h : Hart) (q : Nat) (o : EngineOp) (r : EngineRun) : Prop :=
  let step := exec (.engineOperation h.name q) s
  let status := if r.bad then 2 else 0
  let found := fun (a : Word) => (resolve (s.engineAgent h o) [] .store a 8 s).1
  (o.stamp = none → ∃ u, step = .next u ∧ Ended u h q o o.seq status ∧ u.mem = s.mem) ∧
  ∀ a, o.stamp = some a →
    ((∃ c t, found a = .ok (.tcm c t, none)) ∨
        (o.xlat.en = false ∧ ((∃ b t, found a = .ok (.host b, t)) ∨ ∃ c, found a = .error c)) →
      ∃ u, step = .next u ∧ Ended u h q o o.seq 1 ∧ FaultAt u h q a ∧ u.mem = s.mem) ∧
    (PlainDies s → o.xlat.en = false → a.toNat % 8 = 0 → Direct s a.toNat 8 → s.lineAt h.cluster a.toNat = none →
      ∃ u, step = .next u ∧ Ended u h q o o.seq status ∧
        (∀ i < 8, u.dieByte (a.toNat + i) = BitVec.ofNat 8 (o.seq.toNat / 256 ^ i)) ∧
        ∀ b, (b < a.toNat ∨ a.toNat + 8 ≤ b) → u.dieByte b = s.dieByte b)

/-- ENGINE_OPERATION (R270, R283, R290, R291, R294, R295, R303, R304): a copy or fill begins with all its chunks to write,
reads a chunk's source whole before it writes the chunk's words one by one, and ends with a status; a fault ends it at once,
and without a translation only where an address names nothing that the access may reach. The steps are the model's
(log 50). -/
def CopiesAndFillsStep (s : State) (h : Hart) (q : Nat) (o : EngineOp) (rest : List EngineOp) : Prop :=
  let step := exec (.engineOperation h.name q) s
  let ag := s.engineAgent h o
  let found := fun (home : Place) (va : Word) (n : Nat) => ∃ t s1, resolve ag [] .store va n s = (.ok (home, t), s1)
  (o.work.move = none → step = .next s) ∧
  ∀ mv, o.work.move = some mv →
    (∀ dst src len c, o.work = .copy dst src len c → mv = ⟨.src src, dst, len.toNat, c⟩) ∧
    (∀ dst p len, o.work = .fill dst p len → mv = ⟨.pattern p, dst, len.toNat, false⟩) ∧
    (o.run = none → ∃ u, step = .next u ∧
      GoesOn u h q { o with run := some ⟨cut 64 mv.dst.toNat mv.len, [], (0, 0), [], false⟩ } rest) ∧
    ∀ r, o.run = some r →
      (r.words ≠ [] ∨ r.left ≠ [] → ∃ u, step = .next u ∧
        ((Ended u h q o o.seq 1 ∧ ∃ va, FaultAt u h q va ∧
            (o.xlat.en = false ∨ r.words ≠ [] → ∃ k n c, (resolve ag [] k va n s).1 = .error c)) ∨
          ∃ r', GoesOn u h q { o with run := some r' } rest ∧
          if r.words = [] then r'.left.length + 1 = r.left.length
          else r'.left = r.left ∧ ∃ k < r.words.length, r'.words = r.words.eraseIdx k)) ∧
      DataMove s h q o rest mv r ∧
      (r.words = [] → r.left = [] → DataEnds s h q o r) ∧
      (∀ w home, r.words = [w] → found (.host home) (BitVec.ofNat 64 w.va) w.data.length → Memory.wf s.mem = true →
        ∃ u, step = .next u ∧ GoesOn u h q { o with run := some { r with words := [] } } rest ∧
          ∀ i < w.data.length, Memory.get u.mem (home + i) = w.data.getD i 0) ∧
      ∀ dst p len a n place, o.work = .fill dst p len → r.words = [] → r.left = [(a, n)] → a % 8 = 0 → n % 8 = 0 →
        found place (BitVec.ofNat 64 a) n → ∃ u r', step = .next u ∧ GoesOn u h q { o with run := some r' } rest ∧
          r'.left = [] ∧ r'.chunk = (a, n) ∧ r'.words.map EngineWord.va = (List.range (n / 8)).map (fun i => a + 8 * i) ∧
          ∀ w ∈ r'.words, natOfBytes w.data = p.toNat ∧ w.bad = []

/-- QUEUE_FENCE (R300): a fence ends once the operations placed before it on the joined queues have. -/
def FencesJoin (s : State) (h : Hart) (q : Nat) (o : EngineOp) : Prop :=
  ∀ k, o.work = .fence k →
    ((∀ j < 4, k.getLsbD j = true → j ≠ q → ∀ p ∈ (h.queue j).ops, o.ord ≤ p.ord) →
      ∃ u, exec (.queueFence h.name q) s = .next u ∧ Ended u h q o o.seq 0 ∧ u.mem = s.mem) ∧
    ((∃ j < 4, k.getLsbD j = true ∧ j ≠ q ∧ ∃ p ∈ (h.queue j).ops, p.ord < o.ord) →
      exec (.queueFence h.name q) s = .next s)

/-- CHAIN_RECORD (R289, R290, R296, R298): a chain whose next record is none, or not the engine's, ends with status 0, one
whose record cannot be read with status 1; a record takes the queue's next number as the walk reaches it; a malformed one
ends the chain with status 3, a queue fence waits, another moves its data and passes the walk on, or ends the chain. That
the fault of a record that cannot be read holds the number that the queue reached last is the model's choice (log 70). -/
def ChainsWalk (s : State) (h : Hart) (q : Nat) (o : EngineOp) (rest : List EngineOp) : Prop :=
  let step := exec (.chainRecord h.name q) s
  (∀ r started last, o.work = .chain r started last none →
    let seq := if started then last else (h.queue q).cseq
    let next := (h.queue q).cseq + 1
    (r = 0 → ∃ u, step = .next u ∧ Ended u h q o seq 0 ∧ u.mem = s.mem) ∧
    (r ≠ 0 → (s.readTransfer (s.engineAgent h o) r).1 = none → ∃ u, step = .next u ∧ Ended u h q o seq 1 ∧
      ∃ j ∈ u.harts, j.name = h.name ∧ (j.queue q).qfadr = r) ∧
    ∀ d, r ≠ 0 → (s.readTransfer (s.engineAgent h o) r).1 = some d →
      ((transferOf d).own = false → ∃ u, step = .next u ∧ Ended u h q o seq 0) ∧
      ((transferOf d).own = true → ∃ u, step = .next u ∧ (∃ j ∈ u.harts, j.name = h.name ∧ (j.queue q).cseq = next) ∧
        GoesOn u h q { o with work := .chain r true next (some (next, d)), run := none } rest)) ∧
  ∀ r started last seq d, o.work = .chain r started last (some (seq, d)) →
    let t := transferOf d
    let joined := ∀ j < 4, t.fmask.getLsbD j = true → j ≠ q → ∀ p ∈ (h.queue j).ops, o.ord ≤ p.ord
    (t.malformed = true → ∃ u, step = .next u ∧ Ended u h q o seq 3) ∧
    (t.malformed = false → t.kind = 2 → ¬ joined → step = .next s) ∧
    (t.malformed = false → t.kind ≠ 2 ∨ joined → ∃ u, step = .next u ∧
      ((∃ r', GoesOn u h q { o with run := some r' } rest) ∨
        GoesOn u h q { o with work := .chain t.next true seq none, run := none } rest ∨
        ∃ status, 1 ≤ status ∧ status ≤ 2 ∧ Ended u h q o seq status))

/-- ENGINE_OPERATION, QUEUE_FENCE, CHAIN_RECORD (R270, R283, R289, R290, R294, R298, R300, R304, R305). -/
def EnginesWork : Prop :=
  ∀ (s : State) (h : Hart) (q : Nat) (o : EngineOp) (rest : List EngineOp), AtHead s h q o rest →
    CopiesAndFillsStep s h q o rest ∧ FencesJoin s h q o ∧ ChainsWalk s h q o rest

/-- n bits of memory from a bit of the bytes at an address. -/
def memoryBits (s : State) (a at_ n : Nat) : Word :=
  BitVec.ofNat 64 (natOfBytes ((List.range 9).map fun j => s.dieByte (a + at_ / 8 + j)) / 2 ^ (at_ % 8) % 2 ^ n)

/-- Element i of participant p of a collective: the device's own of memory, w bits wide, a peer's as it came (R410). -/
def partElem (s : State) (d : CollDesc) (peers : PeerInputs) (w p i : Nat) : Word :=
  if p = d.rank then memoryBits s d.src.toNat (i * w) w else (peers.elements.getD p []).getD i 0

/-- Its block's scale (R58). -/
def partScale (s : State) (d : CollDesc) (peers : PeerInputs) (p i : Nat) : Word :=
  BitVec.setWidth 64 (if p = d.rank then s.dieByte (d.scl.toNat + i / 32) else (peers.scales.getD p []).getD (i / 32) 0)

/-- It takes a byte from a poisoned granule (R411). -/
def partSpoilt (s : State) (d : CollDesc) (peers : PeerInputs) (w p i : Nat) : Prop :=
  ∃ b, i * w / 8 ≤ b ∧ b ≤ (i * w + w - 1) / 8 ∧
    if p = d.rank then s.poisoned (d.src.toNat + b) 1 = true else b ∈ peers.poisoned.getD p []

/-- A block's scale comes from a poisoned granule. -/
def scaleSpoilt (s : State) (d : CollDesc) (peers : PeerInputs) (p i : Nat) : Prop :=
  if p = d.rank then d.sf = 13 ∧ s.poisoned (d.scl.toNat + i / 32) 1 = true else i / 32 ∈ peers.poisonedScales.getD p []

/-- The canonical NaN as a format delivers it (R51). -/
def nanOf (y : Fmt) : Word × FlagSet := y.deliver ⟨0, false, none⟩ .nan

/-- The sum of element i in exact mode (R414): of the values under their scales, exact, rounded once to the destination. -/
def exactSum (s : State) (d : CollDesc) (peers : PeerInputs) (x y : Fmt) (i : Nat) : Word × FlagSet :=
  let vs := (List.range d.parts).map fun p => scaled (x.value (partElem s d peers x.width p i)).1
    (if d.sf = 13 then some (partScale s d peers p i) else none)
  if Val.nan ∈ vs then nanOf y else y.deliverWith ⟨0, false, none⟩ (Val.sum 0 vs)

/-- The sum of element i around the ring (R413, R415); one of a single participant is its element, a NaN the canonical one
(R51). -/
def ringSum (s : State) (d : CollDesc) (peers : PeerInputs) (y : Fmt) (i : Nat) : Word × FlagSet :=
  let j := i / ((d.count + d.parts - 1) / d.parts)
  let x := fun k => partElem s d peers y.width ((j + k) % d.parts) i
  let first : Word := if (y.value (x 1)).1 = .nan then (nanOf y).1 else x 1
  (List.range' 2 (d.parts - 1)).foldl (fun r k =>
    let a := (y.value r.1).1
    let b := (y.value (x k)).1
    let c := if y = .int32 then (wrap 32 (intOf a + intOf b), 0) else y.deliverWith ⟨0, false, none⟩ (Val.sum 0 [a, b])
    (c.1, r.2 ||| c.2)) (first, 0)

/-- A collective of a cluster whose cache is empty, its arrays in device memory without a translation and with no stamp
(R410 to R415): what stands at dst, the flags, status 2 where an input of a written element is poisoned, and the marks. -/
def CollectiveResults (s u : State) (c : Collective) (peers : PeerInputs) (status : Nat) (f : BitVec 7) : Prop :=
  let d := collDescOf c.desc
  let home := ((s.findHart c.owner).map Hart.core).getD 0 / 16
  let per := (d.count + d.parts - 1) / d.parts
  let first := if d.op = 1 then d.rank * per else 0
  let n := if d.op = 1 then min per (d.count - d.rank * per) else d.count
  PlainDies s → c.xlat.en = false → (s.cluster home).lines = [] → d.stamp = 0 → d.rank < d.parts →
    Direct s d.src.toNat (8 * d.count + 8) → Direct s d.dst.toNat (8 * d.parts * d.count + 8) →
    (d.sf = 13 → Direct s d.scl.toNat (d.count / 32)) →
    ∀ x y, fmtOf (if d.sf = 13 then d.ef else d.sf) = some x → fmtOf d.df = some y →
      let w := if x = .lns6 then 6 else x.width
      let spoilt := fun p i => partSpoilt s d peers w p i ∨ scaleSpoilt s d peers p i
      let at_ := fun k n => memoryBits u d.dst.toNat (k * n) n
      let bad := fun k n => (d.dst.toNat + k * n / 8) / 32 * 32 ∈ u.poison
      (d.op.toNat ≤ 1 → (if c.exact then x ≠ .lns6 ∧ (y = .fp32 ∨ y = .bf16)
          else x = y ∧ (y = .fp32 ∨ y = .bf16 ∨ y = .fp64 ∨ y = .int32)) →
        let sum := fun i => if c.exact then exactSum s d peers x y i else ringSum s d peers y i
        (∀ k < n, at_ k y.width = wrap y.width (sum (first + k)).1.toNat) ∧
        f = (List.range n).foldl (fun g k => g ||| (sum (first + k)).2) 0 ∧
        (status = 2 ↔ ∃ k < n, ∃ p < d.parts, spoilt p (first + k)) ∧ (status = 0 ∨ status = 2) ∧
        ∀ k < n, (∃ p < d.parts, spoilt p (first + k)) → bad k y.width) ∧
      (d.op.toNat = 2 →
        (∀ p < d.parts, ∀ i < d.count, at_ (p * d.count + i) w = wrap w (partElem s d peers w p i).toNat) ∧ f = 0 ∧
        (status = 2 ↔ ∃ p < d.parts, ∃ i < d.count, partSpoilt s d peers w p i) ∧ (status = 0 ∨ status = 2)) ∧
      (d.op.toNat = 3 →
        (∀ i < d.count, at_ i w = wrap w (partElem s d peers w 0 i).toNat) ∧ f = 0 ∧
        (status = 2 ↔ ∃ i < d.count, partSpoilt s d peers w 0 i) ∧ (status = 0 ∨ status = 2))

/-- COLLECTIVE_COMPLETE (R243, R408 to R416): a collective whose port is lost ends with status 5, one whose peers
disagree with status 4, one whose source or destination is not aligned to its elements with status 1, another with its
results and status 0 to 3; its token is written, and nothing moves while the engine is held by a freeze, or by a checkpoint
from its step 4 on (R432). -/
def CollectivesEnd : Prop :=
  ∀ (n : Nat) (peers : PeerInputs) (c : Collective) (s : State), s.collectives[n]? = some c → s.collectives.Nodup →
    let d := collDescOf c.desc
    let lost := d.parts ≠ 1 ∧ ((s.port d.nxt).lost = true ∨ (s.port d.prv).lost = true)
    let held := FreezeScope.package ∈ s.freezes ∨ ∃ k, s.checkpoint = some k ∧ k.holding = true
    let aligned := d.src.toNat % max 1 (d.bits / 8) = 0 ∧
      d.dst.toNat % max 1 ((if 2 ≤ d.op.toNat then d.bits else (fmtOf d.df).elim 8 Fmt.width) / 8) = 0
    (held → exec (.collectiveComplete n peers) s = .next s) ∧
    (¬ held →
      ∃ u status, ∃ f : BitVec 7, exec (.collectiveComplete n peers) s = .next u ∧ u.collectives = s.collectives.erase c ∧
        (lost → status = 5) ∧ (¬ lost → peers.agrees = false → status = 4) ∧
        (¬ lost → peers.agrees = true → status ≤ 3) ∧
        (¬ lost → peers.agrees = true → ¬ aligned → status = 1 ∧ f = 0 ∧ u.mem = s.mem) ∧
        (¬ lost → peers.agrees = true → aligned → CollectiveResults s u c peers status f) ∧
        (status = 4 ∨ status = 5 → f = 0 ∧ u.mem = s.mem) ∧
        (∀ h ∈ s.harts, h.name = c.owner → Named s → h.run ≠ .exited → c.token ≠ 0 → ∃ j ∈ u.harts, j.name = h.name ∧
          j.rx c.token = BitVec.ofNat 64 (c.seq % 2 ^ 48 + 2 ^ 48 * status + 2 ^ 56 * (f.getLsbD 0).toNat +
            2 ^ 57 * (f.getLsbD 2).toNat + 2 ^ 58 * (f.getLsbD 4).toNat) ∧
          j.pending = h.pending.erase c.token) ∧
        ((∀ h ∈ s.harts, h.name ≠ c.owner) → (∃ v ∈ s.saved, v.gang.key = c.owner.gang) →
          ∃ t ∈ u.late, t.owner = c.owner ∧ t.reg = c.token))

/-! ## Events of the host port -/

/-- Nothing of the host's stream is outstanding. -/
def StreamIdle (s : State) : Prop := s.inbound.routes = [] ∧ s.inbound.reads = []

/-- The state whose stream has numbered one more posted write (R403). -/
def numbered (s : State) : State := { s with inbound := { s.inbound with nextNumber := s.inbound.nextNumber + 1 } }

/-- QUEUE_DOORBELL, PREE, SWINT, CHEAD and the writes of the register window (R403, R404): a route to the I/O die waits, in
its place, behind every earlier route. -/
def ContextWritesWait : Prop :=
  ∀ (fn q : Nat) (v : Word) (s : State), s.inbound.routes ≠ [] → (∀ r ∈ s.inbound.routes, r.sent = true ∧ r.die < 8) →
    (∀ r ∈ s.inbound.routes, r.number < s.inbound.nextNumber) → s.inbound.reads = [] →
    ∀ p ∈ [(Instr.queueDoorbell fn q v, RouteWork.doorbell fn q v), (.pree fn v, .pree fn v), (.swint fn v, .swint fn v),
        (.chead fn v, .chead fn v), (.registerWrite ⟨fn, q⟩ v, .register fn q v),
        (.attestationRequest v, .register 0 0x20 v)],
      exec p.1 s = .next { s with inbound :=
        { nextNumber := s.inbound.nextNumber + 1
          routes := s.inbound.routes ++ [⟨s.inbound.nextNumber, 8, p.2, false⟩], reads := [] } }

/-- QUEUE_DOORBELL applied (R398, R399, R210): a queue of another context discards it; of its own one the status goes to
last, and one that is not 0 counts in rej and signals vector 2: 2 for a record that is misaligned or malformed, 3 for a
queue that is not enabled, 4 for a record that is queued or runs, 1 for a full queue; otherwise the record is queued. That
a record which no translation reaches, or which is poisoned, has status 2 is the model's choice (log 39). -/
def DoorbellsEnqueue : Prop :=
  ∀ (fn q : Nat) (rec : Word) (s : State), StreamIdle s →
    (131072 ≤ q → exec (.queueDoorbell fn q rec) s = .next (numbered s)) ∧
    (q < 131072 →
      let e := ((numbered s).queueEntry q).1
      let s1 := ((numbered s).queueEntry q).2
      (e.ctx.toNat ≠ fn → exec (.queueDoorbell fn q rec) s = .next s1) ∧
      let told := fun (u : State) (n : Nat) => ∀ a, s.homeOf (s.queuePa q + 12) = some a → isHbmHome a = true →
        s.queuePa q % 32 = 0 → Memory.wf s.mem = true →
        u.dieByte a = BitVec.ofNat 8 n ∧ natOfBytes (u.dieBytes (a + 1) 3) = (e.rej.toNat + min n 1) % 2 ^ 24
      let refused := fun (n : Nat) => ∃ u o, exec (.queueDoorbell fn q rec) s = .next u ∧
        u.outbox = o ++ [.msix fn 2] ∧ u.launches = s.launches ∧ told u n
      (e.ctx.toNat = fn → rec.toNat % 64 ≠ 0 → refused 2) ∧
      (∀ s2 n, e.ctx.toNat = fn → s1.doorbellRecord fn rec = (.error n, s2) → refused 2) ∧
      (∀ home s2, e.ctx.toNat = fn → rec.toNat % 64 = 0 → s1.doorbellRecord fn rec = (.ok home, s2) →
        (e.en = false → refused 3) ∧
        (e.en = true →
          let read := s2.readDie .queueManager home 64
          let bad := read.2.poisoned home 64 = true ∨ (recordOf read.1).malformed = true
          let again := read.2.readDie .queueManager home 64
          let r := recordOf again.1
          let k := (again.2.queueEntry q).1
          let full := k.tail - k.head = k.slots.setWidth 64
          (bad → refused 2) ∧
          (¬ bad → r.st = 1 ∨ r.st = 2 → refused 4) ∧
          (¬ bad → r.st ≠ 1 → r.st ≠ 2 → full → refused 1) ∧
          (¬ bad → r.st ≠ 1 → r.st ≠ 2 → ¬ full →
            ∃ u l, exec (.queueDoorbell fn q rec) s = .next u ∧ u.launches = s.launches ++ [l] ∧ l.record = rec ∧
              l.pa = home ∧ l.ctx = fn ∧ l.queue = .hardware q ∧ l.ceil = k.ceil.toNat ∧ l.queued = true ∧
              l.elig = (if r.join = 0 then some s.time else none) ∧ told u 0))))

/-- PREE, SWINT, CHEAD applied (R400, R402): a write of pree that names a record outside the context does nothing. That one
which names no gang signals at once is read from R400 (log 26). -/
def ContextRegistersAct : Prop :=
  ∀ (fn : Nat) (v : Word) (s : State), StreamIdle s →
    let named := fun (g : Gang) =>
      g ∈ s.gangs ∧ g.launch ≠ none ∧ g.ctx = fn ∧ g.ended = false ∧ (v = 0 ∨ g.record = v)
    let inside := v = 0 ∨ ((numbered s).inContext fn v).1 = true
    let here := if v = 0 then numbered s else ((numbered s).inContext fn v).2
    (¬ inside → exec (.pree fn v) s = .next here) ∧
    (inside → (∀ g, ¬ named g) → exec (.pree fn v) s = .next (here.send (.msix fn (if fn = 0 then 8 else 3)))) ∧
    (inside → (∃ g, named g) → (s.gangs.map Gang.key).Nodup → ∃ u keys, exec (.pree fn v) s = .next u ∧
      u.pree = s.pree ++ [⟨fn, keys⟩] ∧ (∀ g, named g → g.key ∈ keys) ∧ u.outbox = here.outbox ∧ u.harts = here.harts ∧
      ∀ g ∈ u.gangs, ∀ k, named k → k.key = g.key → g.pre ≠ none ∨ g.waitRoom = true) ∧
    (∃ u, exec (.swint fn v) s = .next u ∧ { u with hart := s.hart, parked := s.parked } = numbered s ∧
      u.harts.length = s.harts.length ∧ ∀ (i : Nat) (h : Hart), s.harts[i]? = some h →
        ((∃ g, named g ∧ g.key = h.name.gang) → h.run ≠ .gone → u.harts[i]? = some { h with swp := true }) ∧
        ((∀ g, named g → g.key ≠ h.name.gang) → u.harts[i]? = some h)) ∧
    (∃ u, exec (.chead fn v) s = .next u ∧ u.mem = ((numbered s).contextEntry fn).2.mem ∧ ∃ p ∈ u.rings, p.1 = fn ∧
      p.2.consumer = v.toNat % (((numbered s).contextEntry fn).1.cnum.toNat + 1))

/-- BAR2_WRITE, BAR2_READ, HOST_ATOMICOP, INBOUND_ROUTE_ACK (R392, R394, R398, R403, R404): an access within one page of
device memory; what lies elsewhere is unsupported, a write of it discarded. A write performs when its die acknowledges
it, one word of at most 8 bytes at a time (R270). The sizes of BAR2 are the model's free choice (log 66); an access beyond
it reaches no register. The model's choices (log 83): an AtomicOp that is not aligned is an unsupported request, and one on
a poisoned granule, where it writes nothing (R251), answers what the granule holds. -/
def HostAccessesPerform : Prop :=
  ∀ (fn off : Nat) (data : List (BitVec 8)) (size pa : Nat) (s s1 : State), s.bar2 fn off = (pa, s1) → StreamIdle s →
    let plain := fun (u : State) (home n : Nat) => ∀ i < n, u.descriptorAt (home + i) = none
    (inBar2 fn off data.length = false → exec (.bar2Write fn off data) s = .next s) ∧
    (inBar2 fn off size = false → exec (.bar2Read fn off size) s = .next s) ∧
    (inBar2 fn off data.length = true →
      (s1.inDevice pa data.length = false ∨ data = [] → exec (.bar2Write fn off data) s = .next s1) ∧
      (∀ home, s1.inDevice pa data.length = true → data ≠ [] → pa % 4096 + data.length ≤ 4096 →
        s1.homeOf pa = some home → homeDie home < 8 → plain s1 home data.length →
        (∀ i < data.length, (s1.homeOf (pa + i)).map homeDie = some (homeDie home)) →
        ∃ words : List (Nat × List Byte), exec (.bar2Write fn off data) s = .next { s1 with inbound :=
          { nextNumber := s.inbound.nextNumber + 1
            routes := [⟨s.inbound.nextNumber, homeDie home, .write words none, true⟩], reads := [] } } ∧
          words.flatMap Prod.snd = data ∧
          ∀ w ∈ words, 0 < w.2.length ∧ w.1 % 8 + w.2.length ≤ 8 ∧ pa ≤ w.1 ∧
            w.2 = (data.drop (w.1 - pa)).take w.2.length)) ∧
    (inBar2 fn off size = true →
      (s1.homeOf pa = none ∨ s1.inDevice pa size = false →
        exec (.bar2Read fn off size) s = .next (s1.send (.unsupported fn))) ∧
      (∀ home, s1.homeOf pa = some home → s1.inDevice pa size = true → 0 < size → pa % 4096 + size ≤ 4096 →
        exec (.bar2Read fn off size) s =
          .next ((s1.readPa .host pa size).2.send (.readData fn (s1.readPa .host pa size).1)))) ∧
    (∀ op wide x y, let n := if wide then 8 else 4
      (inBar2 fn off n = false → exec (.hostAtomicop fn off op wide x y) s = .next s) ∧
      (inBar2 fn off n = true →
        (s1.homeOf pa = none ∨ s1.inDevice pa n = false ∨ pa % n ≠ 0 →
          exec (.hostAtomicop fn off op wide x y) s = .next (s1.send (.unsupported fn))) ∧
        ∀ home, s1.homeOf pa = some home → s1.inDevice pa n = true → pa % n = 0 → isCompressedHome home = false →
          Memory.wf s1.mem = true → s1.errors = [] → s1.loose = [] → s1.readsZero home = false → plain s1 home n →
          let old := natOfBytes (s1.dieBytes home n)
          (s1.poisoned home n = false →
            ∃ u, exec (.hostAtomicop fn off op wide x y) s = .next u ∧
              u.outbox = s1.outbox ++ [.atomicData fn (BitVec.ofNat 64 old)] ∧
              natOfBytes (u.dieBytes home n) = (match op with
                | .fetchAdd => (old + x.toNat) % 2 ^ (8 * n)
                | .swap => x.toNat % 2 ^ (8 * n)
                | .cas => if old = y.toNat % 2 ^ (8 * n) then x.toNat % 2 ^ (8 * n) else old)) ∧
          (s1.poisoned home n = true →
            ∃ u, exec (.hostAtomicop fn off op wide x y) s = .next u ∧ u.mem = s1.mem ∧ u.poison = s1.poison ∧
              u.outbox = s1.outbox ++ [.atomicData fn (BitVec.ofNat 64 old)]))) ∧
    (∀ r home, Memory.wf s.mem = true → s.errors = [] → r = (⟨0, homeDie home, .write [(pa, data)] none, true⟩ : Route) →
      isHbmHome home = true → pa % 4096 + data.length ≤ 4096 →
      (∀ i < data.length, s.homeOf (pa + i) = some (home + i)) → plain s home data.length →
      let t : State := { s with inbound := { s.inbound with routes := [r] } }
      ∃ u, exec (.inboundRouteAck 0 (homeDie home)) t = .next u ∧ u.inbound.routes = [] ∧
        ∀ i < data.length, u.dieByte (home + i) = data.getD i 0) ∧
    (∀ (r : Route) p q rest may, r.sent = true → r.die < 8 → r.work = .write (p :: q :: rest) may →
      let t : State := { s with inbound := { s.inbound with routes := [r] } }
      ∃ u k, exec (.inboundRouteAck 0 r.die) t = .next u ∧ k < rest.length + 2 ∧
        u.inbound.routes =
          [{ r with work := .write ((p :: q :: rest).eraseIdx k) (some (may.getD (t.mayChange (p :: q :: rest)))) }])

/-- A write of a queue descriptor by the host (R398): while en = 0 its writable bytes take the data and the read-only ones
stay; a write of en = 1 then clears head, tail, last and rej. That the records which still waited in the queue are no longer
in it is the model's choice (log 67). -/
def DescriptorWritesKeep : Prop :=
  ∀ (home q : Nat) (data : List Byte) (s : State), q < 131072 → data.length = 32 → Memory.wf s.mem = true →
    s.errors = [] → s.checkpoint = none → isHbmHome home = true →
    home % 128 = 0 → (∀ i < 32, s.descriptorAt (home + i) = some (q, i)) → (s.dieByte home).getLsbD 0 = false →
    s.homeOf (s.queuePa q) = some home → s.homeOf (s.queuePa q + 12) = some (home + 12) →
    s.queuePa q % 4096 + 32 ≤ 4096 → s.readerLine home = none →
    let u := s.hostStore (s.mayChange [(s.queuePa q, data)]) home data
    (∀ i < 12, i ≠ 1 → u.dieByte (home + i) = data.getD i 0) ∧
    u.dieByte (home + 1) = (data.getD 1 0 &&& 0xF3) ||| (s.dieByte (home + 1) &&& 0x0C) ∧
    ((data.getD 0 0).getLsbD 0 = false → ∀ i < 20, u.dieByte (home + 12 + i) = s.dieByte (home + 12 + i)) ∧
    ((data.getD 0 0).getLsbD 0 = true → (∀ i < 20, u.dieByte (home + 12 + i) = 0) ∧
      ∀ l ∈ u.launches, l.queue = .hardware q → l.queued = false)

/-- CHECKPOINT_SAVE, CHECKPOINT_RESTORE, CHECKPOINT_COMPLETE (R432): every gang is pre-empted; with all of them gone
from their cores every cache writes back and the collective engine holds; then HBM is copied, across every die's link to
the I/O die (R376, R429), and vector 6 signalled. That the two are two events, and the status word a free value, are the
model's choices (log 41). -/
def CheckpointsRun : Prop :=
  ∀ (w : Word) (s : State), StreamIdle s → s.errors = [] →
    let place := w &&& 0xFFFFFFFFFFFF0000#64
    let asked := fun (u : State) => (s.gangs.map Gang.key).Nodup → ∀ g ∈ u.gangs, ∀ k ∈ s.gangs, k.key = g.key →
      k.launch ≠ none → k.ended = false → g.pre ≠ none ∨ g.waitRoom = true
    (s.checkpoint = none →
      (∃ u, exec (.checkpointSave w) s = .next u ∧ u.checkpoint = some ⟨.save place, false⟩ ∧ asked u ∧ u.harts = s.harts) ∧
      (∃ u, exec (.checkpointRestore w) s = .next u ∧ u.checkpoint = some ⟨.restore place, false⟩ ∧ asked u ∧
        u.harts = s.harts)) ∧
    (∀ p, s.checkpoint = some p → (∃ g ∈ s.gangs, g.launch ≠ none) → exec .checkpointComplete s = .next s) ∧
    (∀ p, s.checkpoint = some ⟨p, false⟩ → (∀ g ∈ s.gangs, g.launch = none) → s.clusters.length ≤ Config.clusters →
      (∀ c ∈ s.clusters, ∀ l ∈ c.lines, l.base % 128 = 0) →
      (∀ k < 8, ∀ l ∈ (s.die k).readers, isHbmHome l.base = true ∧ homeDie l.base = k ∧ l.base % 128 = 0) →
      ∃ u, exec .checkpointComplete s = .next u ∧ u.checkpoint = some ⟨p, true⟩ ∧ u.packageFrozen = true ∧
        u.portsHeld = some (s.portsHeld.getD s.time) ∧ (∀ k < 8, (u.die k).readers = []) ∧
        ∀ c ∈ u.clusters, ∀ l ∈ c.lines, ∀ i < 128, (l.byte i).dirty = false) ∧
    (∀ p, s.checkpoint = some ⟨p, true⟩ → (∀ g ∈ s.gangs, g.launch = none) →
      ∃ u o, exec .checkpointComplete s = .next u ∧ u.checkpoint = none ∧ u.outbox = o ++ [.msix 0 6] ∧
        u.crossed = [] ∧
        (s.held = none → (u.held ≠ none ↔ ∃ k < 8, (s.link k 5).train = true ∨ (s.link k 5).failed = true)) ∧
        (Memory.wf s.mem = true → s.crossed = [] →
          (p = .save w → ∀ a < 2 ^ 39,
            Memory.get u.mem (0x800000000000 + w.toNat % 0x800000000000 + a) = Memory.get s.mem a) ∧
          (p = .restore w → ∀ a < 2 ^ 39,
            Memory.get u.mem a = Memory.get s.mem (0x800000000000 + w.toNat % 0x800000000000 + a)))) ∧
    (s.checkpoint = none → exec .checkpointComplete s = .next s)

/-- ATTESTATION_REQUEST, ATTESTATION_REPORT (R430, R431): one report at a time; the buffer takes, from offset 64, the digests
of the firmware image and of the configuration block, the security version, the nonce, the time and the signature. SHAKE256
is that of FIPS 202, and the signature SLH-DSA's, by the identity key over what the report says; what it draws is the
event's. How FIPS 205 is applied is the model's choice (log 76). -/
def Attestations : Prop :=
  ∀ (buffer : Word) (rep : ScarabReport) (s : State), StreamIdle s → s.errors = [] →
    (s.attesting = true → exec (.attestationRequest buffer) s = .next (numbered s)) ∧
    (s.attesting = false → exec (.attestationRequest buffer) s =
      .next { numbered s with attesting := true, control := { s.control with attestation := buffer } }) ∧
    (s.attesting = false → exec (.attestationReport rep) s = .next s) ∧
    (s.attesting = true → ∃ u o, exec (.attestationReport rep) s = .next u ∧ u.attesting = false ∧
      u.outbox = o ++ [.msix 0 6] ∧
      let pa := s.control.attestation.toNat
      (0x800000000000 ≤ pa → pa < 0xFFFFFFFF0000 → Memory.wf s.mem = true → s.loose = [] →
        let word := fun at_ => natOfBytes ((List.range 8).map fun i => Memory.get u.mem (pa + 64 + at_ + i))
        (∀ i < 64, Memory.get u.mem (pa + 64 + i) = (shake256 64 (s.flash.header ++ s.flash.code)).getD i 0) ∧
        (∀ i < 64, Memory.get u.mem (pa + 128 + i) = (shake256 64 s.flash.block).getD i 0) ∧
        (∀ i < 29792, Memory.get u.mem (pa + 240 + i) = (s.keys.identity.sign ((rep.random ++ List.replicate 32 0).take 32)
          ((List.range 176).map fun j => Memory.get u.mem (pa + 64 + j))).getD i 0) ∧
        word 128 = s.fuses.toNat ∧ word 168 = s.time.toNat ∧
        (∀ i < 32, Memory.get u.mem (pa + 200 + i) = Memory.get s.mem (pa + i)) ∧
        ∀ i < 32, Memory.get u.mem (pa + i) = Memory.get s.mem (pa + i)))

/-- PORT_RESTART, XLAT_WRITE, CONFIG_BLOCK_WRITE (R229, R231, R409, R428): a write of the configuration changes its block
in flash for the next boot. That a field of msplit above 12 stores 12, and where the two stand in the block, are the model's
choices (logs 20, 12). -/
def WindowWrites : Prop :=
  ∀ (w : Word) (s : State),
    let blockWith := fun (at_ v : Nat) => s.flash.block.take at_ ++ bytesOf 8 v ++ s.flash.block.drop (at_ + 8)
    (∀ ports : BitVec 16, StreamIdle s → ∃ u, exec (.portRestart ports) s = .next u ∧
      { u with ports := s.ports } = numbered s ∧
      ∀ p < 16, u.port p = if ports.getLsbD p = true ∧ (s.port p).lost = true then
        { s.port p with lost := false, discarding := false, lastAllowance := s.time } else s.port p) ∧
    (∀ n, ∃ u, exec (.xlatWrite n w) s = .next u ∧ { u with hart := s.hart, parked := s.parked } = s ∧
      u.harts = s.harts.map fun h => if h.name = n then
        { h with xlat := ⟨w.getLsbD 0, w.extractLsb' 4 12, w.extractLsb' 16 32⟩, tlb := [] } else h) ∧
    (∃ u, exec (.configBlockWrite false w) s = .next u ∧ u.msplit = s.msplit ∧ u.nextCpool = s.nextCpool ∧
      u.harts = s.harts ∧ u.flash = { s.flash with rewritten := true, block := blockWith 0 u.nextMsplit.toNat } ∧
      ∀ k < 8, (u.nextMsplit >>> (4 * k)).toNat % 16 = min ((w >>> (4 * k)).toNat % 16) 12) ∧
    (∃ u, exec (.configBlockWrite true w) s = .next u ∧ u.cpool = s.cpool ∧ u.nextMsplit = s.nextMsplit ∧
      u.harts = s.harts ∧ u.flash = { s.flash with rewritten := true, block := blockWith 8 u.nextCpool.toNat } ∧
      ∀ k < 8, (u.nextCpool >>> (8 * k)).toNat % 256 = min ((w >>> (8 * k)).toNat % 256) 48)

/-- REGISTER_WRITE, and DEBUG_PORT_READ of the register window (R8, R377, R381, R393, R402): each register of device control
and of the status blocks takes its write and reads its value; a function other than the PF reaches its own MSI-X table
alone. Which offsets hold the MSI-X tables, and that the registers that start an action read zero, is the model's choice
(log 65); that gfloor and gceil belong to both ends of a ring link is another (log 63). -/
def RegistersReadAndWrite : Prop :=
  ∀ (w : Word) (s : State), StreamIdle s →
    let writes := fun (fn off : Nat) (u : State) => exec (.registerWrite ⟨fn, off⟩ w) s = .next u
    let reads := fun (fn off : Nat) (v : Word) => ∀ core slot,
      exec (.debugPortRead core slot (.window ⟨fn, off⟩)) s = .next (s.send (.readData fn (bytesOf 8 v.toNat)))
    writes 0 0x00 { numbered s with control := { s.control with qtbase := w } } ∧
    writes 0 0x08 { numbered s with control := { s.control with ctxbase := w } } ∧
    exec (.registerWrite ⟨0, 0x10⟩ w) s = exec (.portRestart (w.extractLsb' 0 16)) s ∧
    exec (.registerWrite ⟨0, 0x18⟩ w) s = (if w.getLsbD 0 then exec (.checkpointRestore w) s else exec (.checkpointSave w) s) ∧
    exec (.registerWrite ⟨0, 0x20⟩ w) s = exec (.attestationRequest w) s ∧
    writes 0 0x38 { numbered s with control := { s.control with telbase := w } } ∧
    (∀ fn off, fn ≠ 0 → off < 0x40000 ∨ 0x40040 ≤ off → writes fn off (numbered s)) ∧
    (∀ k < 8, ∀ i < 2048, k < s.dies.length → ∃ u, writes 0 (0x200000 + 0x10000 * k + 4 * i) u ∧
      u.harts = s.harts ∧ u.mem = s.mem ∧ u.miss k i = w.extractLsb' 0 32 ∧ ∀ j, j ≠ i → u.miss k j = s.miss k j) ∧
    (∀ k < 8, ∀ l < 6, k < s.dies.length → ∃ u, writes 0 (0x200000 + 0x10000 * k + 0x2000 + 64 * l) u ∧
      u.harts = s.harts ∧ u.mem = s.mem ∧ (u.link k l).gfloor = w.extractLsb' 2 2 ∧
      (u.link k l).gceil = (if (w.extractLsb' 4 2).toNat < (w.extractLsb' 2 2).toNat then w.extractLsb' 2 2
        else w.extractLsb' 4 2) ∧ (u.link k l).gear = (s.link k l).gear) ∧
    (s.control.bootFailure = 0 →
      reads 0 0x00 s.control.qtbase ∧ reads 0 0x08 s.control.ctxbase ∧ reads 0 0x28 s.control.status ∧
      reads 0 0x38 s.control.telbase ∧
      (∀ k < 8, ∀ l < 6, ∃ v, reads 0 (0x200000 + 0x10000 * k + 0x2000 + 64 * l) v ∧
        v.extractLsb' 0 2 = (s.link k l).gear ∧ v.extractLsb' 2 2 = (s.link k l).gfloor ∧
        v.extractLsb' 4 2 = (s.link k l).gceil ∧ v.getLsbD 6 = (s.link k l).train ∧
        v.getLsbD 7 = (s.link k l).failed) ∧
      (∀ k < 8, ∀ i < 1024, ∃ v, reads 0 (0x200000 + 0x10000 * k + 8 * i) v ∧
        v.extractLsb' 0 32 = s.miss k (2 * i) ∧ v.extractLsb' 32 32 = s.miss k (2 * i + 1)) ∧
      ∀ fn, fn < 64 → reads fn 0x1010 (BitVec.ofNat 64 (((s.rings.find? fun p => p.1 == fn).map fun p => p.2.consumer).getD 0)) ∧
        reads fn 0x1000 0 ∧ reads fn 0x1008 0) ∧
    (s.control.bootFailure ≠ 0 → reads 0 0x30 s.control.bootFailure ∧ ∀ fn, reads fn 0x1010 0)

/-! ## Events of links, ports and the package -/

/-- LINK_GEAR_STEP, LINK_CALIBRATION, LINK_WINDOW_END, FLIT_REPLAY, LINK_FULL_RETRAIN (R374 to R377). That gear g has
8 (g + 1) GT/s, so that traffic fits half the slots of the next lower gear where 2 busy (g + 1) ≤ slots g, is read from the
table of R374. The model's choices: that fit, that closed = 0 says that no window has been closed yet, and that a pinned gear
takes effect at the next gear step (log 37). -/
def LinksKeepTheirGears : Prop :=
  ∀ (d l sent slots received : Nat) (s : State), s.dies.length = 8 → d < 8 → l < 6 →
    let k := s.link d l
    let free := k.train = false ∧ k.failed = false ∧ (k.closed = 0 ∨ 2000 ≤ (s.time - k.closed).toNat)
    let becomes := fun (i : Instr) (k' : Link) => ∃ u, exec i s = .next u ∧ u.link d l = k' ∧
      { u with dies := s.dies } = s ∧ ∀ e, 2 ≤ l → e ≠ l → u.link d e = s.link d e
    let step := Instr.linkGearStep d l sent slots received
    let busy := max sent received
    let apart := k.gfloor ≠ k.gceil
    let fits := 2 * busy * (k.gear.toNat + 1) ≤ slots * k.gear.toNat
    (free → apart → 0 < slots → 3 * slots ≤ 4 * busy → k.gear.toNat < k.gceil.toNat →
      becomes step { k with gear := k.gear + 1, steps := k.steps + 1, train := true }) ∧
    (free → apart → 4 * busy < slots → k.gfloor.toNat < k.gear.toNat → fits →
      becomes step { k with gear := k.gear - 1, steps := k.steps + 1, train := true }) ∧
    (free → ¬ apart → k.gear ≠ k.gceil →
      becomes step { k with gear := k.gceil, steps := k.steps + 1, train := true }) ∧
    (¬ free ∨ (apart ∧ 4 * busy < 3 * slots ∧ (slots ≤ 4 * busy ∨ ¬ fits)) → exec step s = .next s) ∧
    (free → becomes (.linkCalibration d l) { k with train := true }) ∧
    (¬ free → exec (.linkCalibration d l) s = .next s) ∧
    (k.train = true → becomes (.linkWindowEnd d l) { k with train := false, closed := s.time }) ∧
    (k.train = false → exec (.linkWindowEnd d l) s = .next s) ∧
    becomes (.flitReplay d l) { k with replays := k.replays + 1 } ∧
    (k.failed = true → ∀ b, exec (.linkFullRetrain d l b) s = .next s) ∧
    (k.failed = false →
      becomes (.linkFullRetrain d l true) { k with retrains := 0 } ∧
      (k.retrains < 7 → becomes (.linkFullRetrain d l false) { k with retrains := k.retrains + 1 }) ∧
      (7 ≤ k.retrains → ∃ u, exec (.linkFullRetrain d l false) s = .next u ∧
        u.link d l = { k with retrains := 8, failed := true } ∧ u.fevent = s.fevent ||| 1 ∧
        u.outbox = s.outbox ++ [.msix 0 4]))

/-- The memory dies that each compute die slot links to (R371). -/
def linkedDies : List (List Nat) :=
  [[0, 1, 4, 5], [2, 3, 6, 7], [0, 2, 4, 6], [1, 3, 5, 7], [0, 1, 4, 5], [2, 3, 6, 7]]

/-- A request's route (R371, R372): from a slot that links to its die by that link, with no hop, else by the lower ring
neighbour md(k - 1) where the slot links to it, and only else by the upper one, and the ring link between, with one; to host
memory by a die that the slot links to and that die's link to the I/O die (R383); the I/O die's agents take their link to
the die, and a die's own agents none; a request meets a link that is failed or in a window and is held for it (R374, R376).
That the step's effects are then not taken is the model's choice (log 48). -/
def RequestsCrossTheirLinks : Prop :=
  (∀ slot < 6, slotDies slot = linkedDies.getD slot []) ∧
  (∀ slot < 6, ∀ k < 8, let p := slotPath slot k
    let dies := linkedDies.getD slot []
    let lower := (k + 7) % 8
    let via := if lower ∈ dies then lower else (k + 1) % 8
    let ring := if lower ∈ dies then 1 else 0
    (k ∈ dies → p = ⟨[(k, slotLink k slot)], 0⟩) ∧
      (k ∉ dies → via ∈ dies ∧ p = ⟨[(via, slotLink via slot), (via, ring)], 1⟩)) ∧
  (∀ (who : Requester) (k slot : Nat), who.slot = some slot → who.path k = slotPath slot k) ∧
  (∀ (who : Requester) (k : Nat), who ∈ [.host, .collective, .queueManager, .scarab] → who.path k = ⟨[(k, 5)], 0⟩) ∧
  (∀ (d k : Nat), (Requester.background d).path k = ⟨[], 0⟩) ∧
  (∀ (who : Requester) (draw slot : Nat), who.slot = some slot → slot < 6 →
    ∃ via ∈ slotDies slot, (who.hostPath draw).links = [(via, slotLink via slot), (via, 5)]) ∧
  ∀ (who : Requester) (a : Nat) (s : State), s.held = none →
    let closed := fun (x : Nat × Nat) => (s.link x.1 x.2).train = true ∨ (s.link x.1 x.2).failed = true
    let path := if homeDie a < 8 then who.path (homeDie a) else who.hostPath s.steps
    ((∀ x ∈ path.links, ¬ closed x) → (s.request who a).held = none) ∧
    ((∃ x ∈ path.links, closed x) → ∃ x ∈ path.links, closed x ∧ (s.request who a).held = some x)

/-- Ports are changed by nothing but this, with these messages after it. -/
def PortBecomes (s : State) (i : Instr) (p : Nat) (k : Port) (out : List Message) : Prop :=
  ∃ u, exec i s = .next u ∧ u.port p = k ∧ (∀ q, q ≠ p → u.port q = s.port q) ∧ u.outbox = s.outbox ++ out ∧
    { u with ports := s.ports, outbox := s.outbox } = s

/-- DATA_FRAME, ALLOWANCE_FRAME, ALLOWANCE_SEND, FRAME_RESEND (R406, R407, R408, R432): a frame beyond the peer's grant
waits in its order and goes out with a grant that allows it; a frame not acknowledged is sent again 50 µs after it was sent; a
freeze of the package, and a checkpoint from its step 4, hold all of it. That the
grant is 256 units past those released is the model's choice (log 32). -/
def PortsCarryFrames : Prop :=
  ∀ (p : Nat) (f : ScaleFrame) (crc : Bool) (g a : BitVec 32) (n : Nat) (s : State), p < 16 →
    let k := s.port p
    let units := (f.payload.length + 255) / 256
    let frozen := FreezeScope.package ∈ s.freezes ∨ ∃ w, s.checkpoint = some ⟨w, true⟩
    let granted : Port := { k with
      grant := g, acked := a, lastAllowance := s.time
      unacked := k.unacked.filter fun u => decide (2 ^ 31 ≤ (a - u.after).toNat) }
    let after := k.sent + BitVec.ofNat 32 units
    (k.lost = true → exec (.dataFrame p f crc) s = .next { s with ports := s.ports } ∧
      PortBecomes s (.allowanceFrame p g a) p k [] ∧ PortBecomes s (.frameResend p) p k []) ∧
    (k.lost = false →
      PortBecomes s (.dataFrame p f false) p { k with discarding := true } [] ∧
      (f.sequence ≠ k.expected ∨ 256 < k.buffered + units → PortBecomes s (.dataFrame p f true) p k []) ∧
      (f.sequence = k.expected → k.buffered + units ≤ 256 → PortBecomes s (.dataFrame p f true) p
        { k with discarding := false, expected := k.expected + 1, frames := k.frames ++ [f]
                 buffered := k.buffered + units, accepted := k.accepted + BitVec.ofNat 32 units } []) ∧
      (k.queued = [] ∨ frozen → PortBecomes s (.allowanceFrame p g a) p granted []) ∧
      (k.queued = [f] → 2 ^ 31 ≤ (g - after).toNat → PortBecomes s (.allowanceFrame p g a) p granted []) ∧
      (k.queued = [f] → (g - after).toNat < 2 ^ 31 → ¬ frozen →
        let sent := { f with sequence := k.nextSent }
        PortBecomes s (.allowanceFrame p g a) p { granted with
          sent := after, nextSent := k.nextSent + 1, queued := []
          unacked := granted.unacked ++ [⟨after, sent, s.time⟩] } [.frame p sent]) ∧
      (frozen →
        PortBecomes s (.allowanceSend p n) p { k with frames := releaseFrames 0 k.frames }
          [.allowance p (k.released + 256) k.accepted] ∧
        PortBecomes s (.frameResend p) p k []) ∧
      (¬ frozen →
        (n ≤ k.buffered → ∃ u, exec (.allowanceSend p n) s = .next u ∧
          (u.port p).released = k.released + BitVec.ofNat 32 n ∧ (u.port p).buffered = k.buffered - n ∧
          u.outbox = s.outbox ++ [.allowance p (k.released + BitVec.ofNat 32 n + 256) k.accepted]) ∧
        (k.unacked = [] → PortBecomes s (.frameResend p) p k []) ∧
        ∀ o rest, k.unacked = o :: rest →
          ((s.time - o.at_).toNat < 50000 → PortBecomes s (.frameResend p) p k []) ∧
          (50000 ≤ (s.time - o.at_).toNat → PortBecomes s (.frameResend p) p
            { k with unacked := k.unacked.map fun u => { u with at_ := s.time } }
            (k.unacked.map fun u => .frame p u.frame))))

/-- PORT_LOST (R408, R409, R432). -/
def PortsAreLost : Prop :=
  ∀ (p : Nat) (s : State), p < 16 → s.collectives.Nodup →
    let k := s.port p
    let uses := fun (c : Collective) =>
      (collDescOf c.desc).parts ≠ 1 ∧ ((collDescOf c.desc).nxt = p ∨ (collDescOf c.desc).prv = p)
    let frozen := FreezeScope.package ∈ s.freezes ∨ ∃ w, s.checkpoint = some ⟨w, true⟩
    (k.lost = true ∨ frozen ∨ (s.time - k.lastAllowance).toNat < 10000000 → exec (.portLost p) s = .next s) ∧
    (k.lost = false → ¬ frozen → 10000000 ≤ (s.time - k.lastAllowance).toNat →
      ∃ u, exec (.portLost p) s = .next u ∧ (u.port p).lost = true ∧ u.outbox = s.outbox ++ [.msix 0 5] ∧
        (∀ c ∈ u.collectives, ¬ uses c) ∧ (∀ c ∈ s.collectives, ¬ uses c → c ∈ u.collectives) ∧
        ∀ c, s.collectives = [c] → uses c → ∀ h ∈ s.harts, h.name = c.owner → Named s → h.run ≠ .exited → c.token ≠ 0 →
          ∃ j ∈ u.harts, j.name = h.name ∧ j.rx c.token = BitVec.ofNat 64 (c.seq % 2 ^ 48 + 2 ^ 48 * 5))

/-- PACKAGE_RESET (R25, R428, R430): a boot that verifies copies the code, takes the splits of the block and starts the
boot hart; one that does not shows its failing step and starts none. What a reset keeps (flash, fuses, the seed and vendor
key of the Scarab engine), the layouts of header and block, and that a block which firmware has rewritten asks no new
signature are the model's choices (logs 41, 12, 76). -/
def PackageResets : Prop :=
  ∀ s : State, ∃ u, exec .packageReset s = .next u ∧
    let version := wordIn s.flash.header 0
    let msplit := (wordIn s.flash.block 0).setWidth 32
    let image := verifies s.keys.vendor s.flash.header s.flash.headerSignature = true ∧ s.fuses.toNat ≤ version.toNat
    let block := (s.flash.rewritten = true ∨ verifies s.keys.vendor s.flash.block s.flash.blockSignature = true) ∧
      2 ≤ msplit.toNat % 16
    u.parked = [] ∧ u.launches = [] ∧ u.saved = [] ∧ u.time = 0 ∧ u.keys = s.keys ∧ u.flash = s.flash ∧
    (image → block → u.hart = Hart.reset ∧ u.msplit = msplit ∧ u.cpool = wordIn s.flash.block 8 ∧
      u.control.bootFailure = 0 ∧ u.fuses.toNat = max s.fuses.toNat version.toNat ∧
      (∀ i < s.flash.code.length, s.flash.code.length ≤ 0x7FF000 → Memory.wf s.mem = true →
        Memory.get u.mem (0x10000001000 + i) = s.flash.code.getD i 0)) ∧
    (¬ image → u.hart.run = .gone ∧ u.control.bootFailure = 2) ∧
    (¬ image → u.fuses = s.fuses) ∧
    (image → ¬ block → u.hart.run = .gone ∧ u.control.bootFailure = 3 ∧
      u.fuses.toNat = max s.fuses.toNat version.toNat)

/-- DROOP_ALARM, DROOP_HOLD_END, POWER_LIMIT_CHECK (R22, R364, R426, R427): an alarm begins six stretched edges, or begins
them again; the edges that are left of a hold pass where a hart is resident, and count as cycles. -/
def PowerIsGoverned : Prop :=
  ∀ (c mw : Nat) (s : State),
    let w := s.plimit.toNat
    (c < s.cores.length →
      (∃ u, exec (.droopAlarm c) s = .next u ∧ { u with cores := s.cores } = s ∧
        (u.core c).droopStretch = 6 ∧ (u.core c).droopHold = 0 ∧ (u.core c).droops = (s.core c).droops + 1 ∧
        (u.core c).cycle = (s.core c).cycle ∧ (∀ d, d ≠ c → u.core d = s.core d) ∧
        ∀ i : Fin 8, (u.core c).hpmctr[i] =
          (s.core c).hpmctr[i] + (if (s.core c).hpmevt[i] = 9 then 1 else 0)) ∧
      ((∀ h ∈ s.harts, h.core = c → h.resident = false) → exec (.droopHoldEnd c) s = .next s) ∧
      ((∃ h ∈ s.harts, h.core = c ∧ h.resident = true) → (s.core c).droopStretch = 0 →
        ∃ u, exec (.droopHoldEnd c) s = .next u ∧ { u with cores := s.cores } = s ∧ (u.core c).droopHold = 0 ∧
          (u.core c).cycle = (s.core c).cycle + BitVec.ofNat 64 (s.core c).droopHold ∧
          (u.core c).droops = (s.core c).droops ∧ (u.core c).hpmctr = (s.core c).hpmctr ∧
          ∀ d, d ≠ c → u.core d = s.core d)) ∧
    (1000 * w < mw → s.wmax.toNat ≤ 16 → ∃ u, exec (.powerLimitCheck mw) s = .next u ∧
      u.wmax.toNat = max (s.wmax.toNat - 1) 1 ∧ u.fevent = s.fevent ||| 2 ∧ u.outbox = s.outbox ++ [.msix 0 7] ∧
      u.harts = s.harts) ∧
    (mw < 950 * w → s.wmax.toNat ≤ 16 → ∃ u, exec (.powerLimitCheck mw) s = .next u ∧
      u.wmax.toNat = min (s.wmax.toNat + 1) 16 ∧ { u with wmax := s.wmax } = s) ∧
    (950 * w ≤ mw → mw ≤ 1000 * w → exec (.powerLimitCheck mw) s = .next s)

/-- TELEMETRY_LINE and the sideband's reads (R332, R433, R434): the latest line is read whatever memory holds; a command
code that the table does not hold is not acknowledged. -/
def TelemetryIsReported : Prop :=
  ∀ (r : TelemetryReadings) (n : Nat) (s : State), s.errors = [] →
    (∃ u, exec (.telemetryLine r) s = .next u ∧ u.telemetryCount = s.telemetryCount + 1 ∧
      let pa := s.control.telbase.toNat + 128 * (s.telemetryCount % 1024)
      (0x800000000000 ≤ pa → pa < 0xFFFFFFFFFF80 → Memory.wf s.mem = true →
        let read := fun at_ k => natOfBytes ((List.range k).map fun i => Memory.get u.mem (pa + at_ + i))
        read 0 8 = s.time.toNat ∧ read 8 4 = r.packagePower.toNat ∧
        (∀ i < 6, read (12 + 4 * i) 4 = (r.computePower.getD i 0).toNat) ∧
        (∀ i < 8, read (36 + 4 * i) 4 = (r.memoryPower.getD i 0).toNat) ∧
        (∀ i < 12, read (68 + i) 1 = (r.temperatures.getD i 0).toNat) ∧
        read 80 8 = (s.cores.map fun c => c.droops.toNat).sum % 2 ^ 64 ∧ read 88 40 = 0 ∧
        u.telemetryLatest.length = 128 ∧ ∀ i < 128, u.telemetryLatest.getD i 0 = Memory.get u.mem (pa + i))) ∧
    exec .smbusReadTelemetry s = .next (s.send (.smbus s.telemetryLatest)) ∧
    (∀ code, code < 1 ∨ 3 < code → exec (.smbusReadMcRecord (.command code)) s = .next (s.send .smbusNotAcknowledged)) ∧
    (n < 128 * max 1 s.mclogUnits.toNat → ∃ d, exec (.smbusReadMcRecord (.record n)) s = .next (s.send (.smbus d)) ∧
      d.length = 32 ∧ ∀ a i, s.homeOf (s.mclogBase.toNat * 4096 + 32 * n) = some a → i < 32 →
        d.getD i 0 = s.dieByte (a + i)) ∧
    (128 * max 1 s.mclogUnits.toNat ≤ n → exec (.smbusReadMcRecord (.record n)) s = .next (s.send .smbusNotAcknowledged)) ∧
    ∃ d, exec .smbusReadBootFailure s = .next (s.send (.smbus d)) ∧ d.length = 8 ∧
      natOfBytes d = s.control.bootFailure.toNat

end Sys2Proof.Claims

/-! ## Statements of several parts -/

/-- The scalar integer instructions of majors 0x01 to 0x09 (R74, R75, R77, R78) complete in every state: x[A] receives
the value that the table of the instruction gives for its sources (x0 discards it), and the instruction retires. -/
def Obligations.ScalarIntegerResults : Prop :=
  Sys2Proof.Claims.RegisterArithmeticResults ∧ Sys2Proof.Claims.BitManipulationResults ∧
    Sys2Proof.Claims.ImmediateArithmeticResults

/-- Branches, JAL and JALR (R29, R82, R83) complete in every state and go where their rules say, the link pc + 4 in
x[A]; outside a loop body a retirement counts in instret, clears vprog and advances pc by 4 (R23, R24, R110). -/
def Obligations.ControlTransferResults : Prop :=
  Sys2Proof.Claims.BranchesGoWhereTheySay ∧ Sys2Proof.Claims.JumpsLink ∧ Sys2Proof.Claims.RetirementOutsideALoop

/-- The word that issues is the one in memory at pc, lowest address lowest (R24, R38), with translation off and no
event due; a misaligned pc traps before any fetch (R24, R83). -/
def Obligations.FetchReadsOrTraps : Prop :=
  Sys2Proof.Claims.FetchReadsTheBytesAtPc ∧ Sys2Proof.Claims.MisalignedFetchTraps

/-- CALL.V and RET.V (R84 to R86): the pair is stored below sp and control goes to x[B]; the return reads it back and
checks it; a misaligned sp traps, an undefined type is illegal, a pending pre-emption request stops RET.V outside
matrix mode. -/
def Obligations.CallsKeepTheVectorState : Prop :=
  Sys2Proof.Claims.CallSavesTheVectorState ∧ Sys2Proof.Claims.ReturnRestoresTheVectorState

/-- GATE (R89) enters a valid entry of the gate table and takes the gate fault otherwise; GRET (R90) is illegal
outside gated code and restores the gate link inside it. -/
def Obligations.GatesEnterAndReturn : Prop :=
  Sys2Proof.Claims.GateEntersItsEntry ∧ Sys2Proof.Claims.GateReturnRestores

/-- LCOUNT, LSTRIDE, LFLAGS and LOOP (R92 to R94): the set-up instructions write their part of the sequencer; LOOP
fetches its body, refuses forbidden words, skips the body on a zero count and else starts it. -/
def Obligations.LoopsStart : Prop :=
  Sys2Proof.Claims.LoopSetUpWritesTheSequencer ∧ Sys2Proof.Claims.LoopStartsItsBody

/-- LW.AQ, LD.AQ, SW.RL and SD.RL (R248, R266, R267, R272): a load with the acquire of its scope after it, a store
with the release of its class before it; at package or system scope the write reaches the die and the cached copy
stays clean. That loads of other classes may still find what the lines held before is the model's reading (log 72). -/
def Obligations.AcquireLoadsAndReleaseStores : Prop :=
  Sys2Proof.Claims.AcquireLoads ∧ Sys2Proof.Claims.ReleaseStores ∧ Sys2Proof.Claims.ThroughStoresReachTheDie

/-- The atomics (R249 to R251): the old value comes to x[A] and the value of the table replaces it, at TCM, the
scratchpad or the die; every byte outside the line stays. -/
def Obligations.AtomicsReadAndReplaceAtOnePlace : Prop :=
  Sys2Proof.Claims.AtomicsReadAndReplace ∧ Sys2Proof.Claims.AtomicsPerformAtTheDie ∧
    Sys2Proof.Claims.AtomicsPerformInWindows

/-- The fences (R277, R278, R280) with what their releases and acquires do to the cluster cache (R266, R267). -/
def Obligations.FencesOrderMemory : Prop :=
  Sys2Proof.Claims.FencesComplete ∧ Sys2Proof.Claims.ReleaseAndAcquireMoveTheirBytes

/-- WLARM, WLWAIT, RC.POST, CHINT, CWB and CDROP (R260 to R263): each completes with its effect, waits, or traps as
its rule says. Reader-count lines (R235, R236, R262): what a post adds up to 63 and its overflow, what a read takes,
the drop at zero and the read of a dropped line. What such a read brings in is free (log 9). -/
def Obligations.MonitorAndCacheControl : Prop :=
  Sys2Proof.Claims.MonitorInstructions ∧ Sys2Proof.Claims.CacheControl ∧ Sys2Proof.Claims.ReaderCountLines

/-- The formats (R49, R50, R53, R57): bias, widths, infinities, NaN codes and the value of a code, LNS6 with them; and
rounding (R55, R56, R58 to R64, R80): numbers, quotients and roots rounded once, with the special cases of division
and square root, and delivery in LNS6. -/
def Obligations.FormatsAndRounding : Prop :=
  Sys2Proof.Claims.FormatConstants ∧ Sys2Proof.Claims.RoundingIsIeee

/-- EXIT (R212) ends the hart and with the last hart the gang; YIELD (R213, R338) stops at a pending request and else
gives up its credit. -/
def Obligations.HartsEndAndYield : Prop :=
  Sys2Proof.Claims.ExitEndsTheHart ∧ Sys2Proof.Claims.YieldStopsOrGivesUpItsCredit

/-- Scalar accesses report misalignment and access faults at their address (R219, R220, R243). The map (R222 to R227):
which addresses are windows, device memory, host memory or nothing, and the home of a PA with the hash of the alias.
Translation (R229 to R231): the walk, the permissions and the code of each fault. -/
def Obligations.AccessesAreCheckedAndTranslated : Prop :=
  Sys2Proof.Claims.ScalarAccessesReportTheirFaults ∧ Sys2Proof.Claims.AddressesAreOrdered ∧
    Sys2Proof.Claims.PhysicalMap ∧ Sys2Proof.Claims.WalksTranslate

/-- The CSR instructions (R17, R33, R97) and what each CSR keeps of a write (R19, R20, R61, R65, R67, R105, R229,
R241, R327, R350, R378, R425). -/
def Obligations.CsrsReadAndWrite : Prop :=
  Sys2Proof.Claims.CsrInstructions ∧ Sys2Proof.Claims.CsrsKeepTheirFields

/-- ENQ, SPAWN and JOIN (R200, R210, R211, R398): the status, the launch that stands last in the queue with what
stands in a hardware queue's region, and the counter that a join decrements. The queue and counter clauses are stated
for a record without reader counts (R236). -/
def Obligations.RecordsAreQueuedAndJoined : Prop :=
  Sys2Proof.Claims.EnqueueAndSpawnAnswerAStatus ∧ Sys2Proof.Claims.SpawnQueuesTheRecord ∧
    Sys2Proof.Claims.HardwareQueueTakesTheRecord ∧ Sys2Proof.Claims.JoinDecrementsTheCounter

/-- Majors 0x21 and 0x22 (R105, R131, R132): each active element, or mask bit, becomes the function of the elements of
b and c; merges and moves at every width. -/
def Obligations.VectorIntegerElements : Prop :=
  Sys2Proof.Claims.VectorIntegerResults ∧ Sys2Proof.Claims.VectorComparisonResults ∧
    Sys2Proof.Claims.VectorMergesAndMoves

/-- Vector loads and stores (R242, R253 to R256): to and from TCM element by element over the fields of their spots;
one element at any place as a load or store there; many elements at any places, with translation off; registers, masks
and flags that an instruction does not name stay. -/
def Obligations.VectorMemoryMovesElements : Prop :=
  Sys2Proof.Claims.VectorLoadsReadTheirElements ∧ Sys2Proof.Claims.VectorStoresWriteTheirElements ∧
    Sys2Proof.Claims.VectorLoadsFromAnywhere ∧ Sys2Proof.Claims.VectorStoresToAnywhere

/-- MMA, SMMA and the operand loads outside a chain (R69 to R71, R166, R168, R169, R185 to R192). The model's choices:
an exited hart is no resident peer (log 33); a load's trap value is the address of the row at fault (log 35); RSVD of
an INT4 code in a block that is NaN, and loads that copy the code (log 45); NV of opposite infinities beside a NaN
(log 15). -/
def Obligations.MatrixMultipliesAndOperandLoads : Prop :=
  Sys2Proof.Claims.MatrixMultiplies ∧ Sys2Proof.Claims.OperandLoadsFillTheirPanels

/-- SOPEN, SCLOSE, SAVAIL and the stream-port forms of VLD and VST (R306, R308, R313 to R315). -/
def Obligations.StreamsOpenMoveAndClose : Prop :=
  Sys2Proof.Claims.StreamsOpenAndClose ∧ Sys2Proof.Claims.StreamPortsMoveBytes

/-- The events of harts (R110, R170, R183, R245, R261, R315, R325, R337 to R339, R342): interrupt entry, forced stop,
abandoned replies, the waits of WLWAIT, WFI, stream ports and chained MODE.M that end. The model's choices: they are
steps of their own (log 8); the group operand of a forced stop (log 16); when members of chains disagree, and that
every waiting member of the gang then traps together (log 27). -/
def Obligations.HartEvents : Prop :=
  Sys2Proof.Claims.HartEventsActOnTheirHart ∧ Sys2Proof.Claims.InterruptAndStopEvents ∧
    Sys2Proof.Claims.AbandonedLoads ∧ Sys2Proof.Claims.WaitsEnd ∧ Sys2Proof.Claims.PortWaitsEnd ∧
    Sys2Proof.Claims.ChainsMeet

/-- The events of gangs and launches (R202, R203, R205 to R207, R212, R214, R216, R401): placement, start, holds,
requests for pre-emption and the order of their victims (R203), issue windows and the order of issue (R207), barriers,
the release of resources, the end of a launch with st = 3, its JOIN on next and its flush (R214) and its completion
entry. The model's choices: a victim gang counts with its exited harts too (log 75); of two records that ask, the one
enqueued earlier is served first (log 85). -/
def Obligations.GangAndLaunchEvents : Prop :=
  Sys2Proof.Claims.GangsArePlaced ∧ Sys2Proof.Claims.GangsStartAndMeet ∧ Sys2Proof.Claims.RecordsAreHeld ∧
    Sys2Proof.Claims.VictimsComeInOrder ∧ Sys2Proof.Claims.VictimsAreAsked ∧ Sys2Proof.Claims.IssuesGoInOrder ∧
    Sys2Proof.Claims.ResourcesAreReleased ∧ Sys2Proof.Claims.LaunchesEnd

/-- GANG_SAVE and RESUMPTION (R341, R347, R387, R397): a stopped gang goes to its save region with what its harts
hold; the header, the directory and the sections of the image stand in memory at their places (R344, R345); it comes
back whole on the chosen cores with a grant that its record allows (R205), or not at all where the head of its image
has changed. The model's choices: what an altered image leaves in registers (log 31), the directory entry of an exited
hart (log 86), and that a rejected image drops its launch (log 87). -/
def Obligations.SaveAndResumeEvents : Prop :=
  Sys2Proof.Claims.GangsAreSaved ∧ Sys2Proof.Claims.GangsAreResumed

/-- The debugger's events (R171, R342, R350, R351, R353, R355 to R358, R361, R362): halts, freezes, breakpoints,
steps, resumes, trace records that leave or wait, reads and writes of the debug port. The model's choices: which harts
record cause 7, the scope of a resume, that a write of pc sets dpc, the order of the slots and the records that a hart
holds (log 38); the count of the skid (log 17); the layout of the port's words (log 62). -/
def Obligations.DebugEvents : Prop :=
  Sys2Proof.Claims.FreezesStopHarts ∧ Sys2Proof.Claims.BreakpointsAndStepsEnd ∧ Sys2Proof.Claims.HartsResume ∧
    Sys2Proof.Claims.TraceBuffersDrain ∧ Sys2Proof.Claims.DebugPortReachesHarts

/-- The events of time, dies and streams (R21, R169, R234 to R236, R238 to R240, R267, R278, R311, R312, R331, R332,
R379 to R382): among requests with deadlines the earliest stamp goes first, and one served late counts a miss (R379 to
R381); a gang's weight follows the sum over its streams. The model's choices: which cache an eviction's number names
(log 8), that it may leave the line as clean, and the number of compaction and telemetry requests (log 36); errors and
what a scrub finds (log 64). -/
def Obligations.DieEvents : Prop :=
  Sys2Proof.Claims.QuietEvents ∧ Sys2Proof.Claims.ErrorsAreLogged ∧ Sys2Proof.Claims.LinesAreEvicted ∧
    Sys2Proof.Claims.ChannelsServe ∧ Sys2Proof.Claims.WeightsFollowTheBridle

/-- The engines' own events (R270, R283, R289 to R291, R294, R298, R300, R304, R408, R409, R411, R413 to R416): copies
and fills with the data that they write, the stamp, the status of a fault and of poisoned words, fences, chain
records, and collectives with their results and their tokens. The steps of an operation are the model's (log 50). The
sequence number of a fault at a record that cannot be read is the model's choice (log 70). -/
def Obligations.EngineAndCollectiveEvents : Prop :=
  Sys2Proof.Claims.EnginesWork ∧ Sys2Proof.Claims.CollectivesEnd

/-- The host's events (R229, R392 to R404, R409, R430 to R432): doorbells, context registers, BAR2 accesses behind the
ordering point, queue descriptors, checkpoints, attestation, and the register window with its reads (R8, R377, R381).
The model's choices: the layout of the window beside the registers that R393 places (log 65); records that wait in a
queue enabled anew leave it (log 67); doorbells whose record no translation reaches or is poisoned, and of other
contexts (log 39); an AtomicOp that is not aligned, and what poisoned granules answer (log 83); a field of msplit
above 12 stores 12 (log 20); the two steps and the status of a checkpoint (log 41), the sizes of BAR2 (log 66), how
SLH-DSA is applied (log 76). -/
def Obligations.HostEvents : Prop :=
  Sys2Proof.Claims.ContextWritesWait ∧ Sys2Proof.Claims.DoorbellsEnqueue ∧ Sys2Proof.Claims.ContextRegistersAct ∧
    Sys2Proof.Claims.HostAccessesPerform ∧ Sys2Proof.Claims.DescriptorWritesKeep ∧ Sys2Proof.Claims.CheckpointsRun ∧
    Sys2Proof.Claims.Attestations ∧ Sys2Proof.Claims.WindowWrites ∧ Sys2Proof.Claims.RegistersReadAndWrite

/-- Links and routes, scale-out ports and the package (R364, R371, R372, R374 to R377, R383, R406 to R409, R426 to
R428, R433, R434). The model's choices: the grant is 256 units past those released (log 32); a closed stamp of 0, the
traffic that fits a lower gear and when a pinned gear takes effect (log 37); what a reset keeps and the layout of the
flash (logs 41, 12); a step that meets a closed link is not taken (log 48). -/
def Obligations.LinkPortAndPackageEvents : Prop :=
  Sys2Proof.Claims.LinksKeepTheirGears ∧ Sys2Proof.Claims.RequestsCrossTheirLinks ∧
    Sys2Proof.Claims.PortsCarryFrames ∧ Sys2Proof.Claims.PortsAreLost ∧ Sys2Proof.Claims.PackageResets ∧
    Sys2Proof.Claims.PowerIsGoverned ∧ Sys2Proof.Claims.TelemetryIsReported
end

