-- ==== Sys2Proof/Laws/Cells.lean ====
section
/-! SUPPORT. Lists of cells: reads after writes, and the canonical form that every write keeps. -/

namespace Sys2Proof.Machine

/-! ## Rising addresses -/

theorem cellsRise_mono {lo lo' : Nat} {m : List Host.Cell} (h : cellsRise lo m = true) (hl : lo' ≤ lo) :
    cellsRise lo' m = true := by
  cases m with
  | nil => rfl
  | cons c t =>
    simp only [cellsRise, Bool.and_eq_true, decide_eq_true_eq] at h ⊢
    exact ⟨Nat.le_trans hl h.1, h.2⟩

theorem cellPut_rise {lo : Nat} {m : List Host.Cell} (h : cellsRise lo m = true) {a : Nat} (ha : lo ≤ a) (v : Byte) :
    cellsRise lo (cellPut m a v) = true := by
  induction m generalizing lo with
  | nil => simp [cellPut, cellsRise, ha]
  | cons c t ih =>
    obtain ⟨k, b⟩ := c
    simp only [cellsRise, Bool.and_eq_true, decide_eq_true_eq] at h
    simp only [cellPut]
    split
    · rename_i e; subst e; simp [cellsRise, h.1, h.2]
    · split
      · rename_i e; simp [cellsRise, ha, h.2]; omega
      · rename_i n₁ n₂; simp [cellsRise, h.1, ih h.2 (by omega : k + 1 ≤ a)]

theorem cellDrop_rise {lo : Nat} {m : List Host.Cell} (h : cellsRise lo m = true) (a : Nat) :
    cellsRise lo (cellDrop m a) = true := by
  induction m generalizing lo with
  | nil => rfl
  | cons c t ih =>
    obtain ⟨k, b⟩ := c
    have h' := h
    simp only [cellsRise, Bool.and_eq_true, decide_eq_true_eq] at h
    simp only [cellDrop]
    split
    · exact cellsRise_mono h.2 (by omega)
    · split
      · exact h'
      · simp [cellsRise, h.1, ih h.2]

theorem cellsRise_filter {lo : Nat} {m : List Host.Cell} (h : cellsRise lo m = true) (p : Host.Cell → Bool) :
    cellsRise lo (m.filter p) = true := by
  induction m generalizing lo with
  | nil => rfl
  | cons c t ih =>
    obtain ⟨k, b⟩ := c
    simp only [cellsRise, Bool.and_eq_true, decide_eq_true_eq] at h
    simp only [List.filter_cons]
    split
    · simp [cellsRise, h.1, ih h.2]
    · exact cellsRise_mono (ih h.2) (by omega)

/-! ## The canonical form -/

theorem cellPut_mem {m : List Host.Cell} {a : Nat} {v : Byte} {c : Host.Cell} (h : c ∈ cellPut m a v) :
    c = (a, v) ∨ c ∈ m := by
  induction m with
  | nil => simp [cellPut] at h; exact .inl h
  | cons d t ih =>
    obtain ⟨k, b⟩ := d
    simp only [cellPut] at h
    split at h
    · rcases List.mem_cons.1 h with e | e
      · exact .inl e
      · exact .inr (List.mem_cons_of_mem _ e)
    · split at h
      · rcases List.mem_cons.1 h with e | e
        · exact .inl e
        · exact .inr e
      · rcases List.mem_cons.1 h with e | e
        · exact .inr (e ▸ List.mem_cons_self ..)
        · rcases ih e with e' | e'
          · exact .inl e'
          · exact .inr (List.mem_cons_of_mem _ e')

theorem cellDrop_mem {m : List Host.Cell} {a : Nat} {c : Host.Cell} (h : c ∈ cellDrop m a) : c ∈ m := by
  induction m with
  | nil => exact h
  | cons d t ih =>
    obtain ⟨k, b⟩ := d
    simp only [cellDrop] at h
    split at h
    · exact List.mem_cons_of_mem _ h
    · split at h
      · exact h
      · rcases List.mem_cons.1 h with e | e
        · exact e ▸ List.mem_cons_self ..
        · exact List.mem_cons_of_mem _ (ih e)

theorem Memory.wf_iff (m : List Host.Cell) :
    Memory.wf m = true ↔ cellsRise 0 m = true ∧ ∀ c ∈ m, c.2 ≠ 0 := by
  simp [Memory.wf]

@[simp] theorem Memory.wf_nil : Memory.wf [] = true := rfl

/-- A byte written keeps the canonical form. -/
theorem Memory.wf_put {m : List Host.Cell} (h : Memory.wf m = true) (a : Nat) (b : Byte) :
    Memory.wf (Memory.put m a b) = true := by
  rw [Memory.wf_iff] at h ⊢
  unfold Memory.put
  split
  · exact ⟨cellDrop_rise h.1 a, fun c hc => h.2 c (cellDrop_mem hc)⟩
  · rename_i hb
    refine ⟨cellPut_rise h.1 (Nat.zero_le a) b, fun c hc => ?_⟩
    rcases cellPut_mem hc with e | e
    · subst e; exact hb
    · exact h.2 c e

/-- Bytes written keep the canonical form. -/
theorem Memory.wf_putAll {m : List Host.Cell} (h : Memory.wf m = true) (l : List (Nat × Byte)) :
    Memory.wf (Memory.putAll m l) = true := by
  induction l generalizing m with
  | nil => exact h
  | cons c t ih => exact ih (Memory.wf_put h c.1 c.2)

/-- A part of a canonical memory is canonical. -/
theorem Memory.wf_filter {m : List Host.Cell} (h : Memory.wf m = true) (p : Host.Cell → Bool) :
    Memory.wf (m.filter p) = true := by
  rw [Memory.wf_iff] at h ⊢
  exact ⟨cellsRise_filter h.1 p, fun c hc => h.2 c ((List.mem_filter.1 hc).1)⟩

/-! ## Reads after writes -/

theorem cellGet_below {lo : Nat} {m : List Host.Cell} (h : cellsRise lo m = true) {a : Nat} (ha : a < lo) :
    cellGet m a = none := by
  cases m with
  | nil => rfl
  | cons c t =>
    obtain ⟨k, b⟩ := c
    simp only [cellsRise, Bool.and_eq_true, decide_eq_true_eq] at h
    simp [cellGet, show k ≠ a by omega, show a < k by omega]

theorem cellGet_put (m : List Host.Cell) (a : Nat) (v : Byte) : cellGet (cellPut m a v) a = some v := by
  induction m with
  | nil => simp [cellPut, cellGet]
  | cons c t ih =>
    obtain ⟨k, b⟩ := c
    simp only [cellPut]
    split
    · simp [cellGet]
    · split
      · simp [cellGet]
      · rename_i n₁ n₂; simp [cellGet, n₁, n₂, ih]

theorem cellGet_put_ne (m : List Host.Cell) {a c : Nat} (hc : c ≠ a) (v : Byte) :
    cellGet (cellPut m a v) c = cellGet m c := by
  induction m with
  | nil =>
    simp only [cellPut, cellGet]
    split
    · omega
    · split <;> rfl
  | cons d t ih =>
    obtain ⟨k, b⟩ := d
    simp only [cellPut]
    split
    · rename_i e; subst e
      simp [cellGet, Ne.symm hc]
    · split
      · rename_i n₁ n₂
        simp only [cellGet]
        repeat' split
        all_goals first | rfl | omega
      · simp only [cellGet, ih]

theorem cellGet_drop {lo : Nat} {m : List Host.Cell} (h : cellsRise lo m = true) (a : Nat) :
    cellGet (cellDrop m a) a = none := by
  induction m generalizing lo with
  | nil => rfl
  | cons d t ih =>
    obtain ⟨k, b⟩ := d
    simp only [cellsRise, Bool.and_eq_true, decide_eq_true_eq] at h
    simp only [cellDrop]
    split
    · exact cellGet_below h.2 (by omega)
    · split
      · rename_i n₁ n₂; simp [cellGet, n₁, n₂]
      · rename_i n₁ n₂; simp [cellGet, n₁, n₂, ih h.2]

theorem cellGet_drop_ne {lo : Nat} {m : List Host.Cell} (h : cellsRise lo m = true) {a c : Nat} (hc : c ≠ a) :
    cellGet (cellDrop m a) c = cellGet m c := by
  induction m generalizing lo with
  | nil => rfl
  | cons d t ih =>
    obtain ⟨k, b⟩ := d
    simp only [cellsRise, Bool.and_eq_true, decide_eq_true_eq] at h
    simp only [cellDrop]
    split
    · rename_i e; subst e
      simp only [cellGet, Ne.symm hc, if_false]
      split
      · exact cellGet_below h.2 (by omega)
      · rfl
    · split
      · rfl
      · simp only [cellGet, ih h.2]

/-- A read of the byte just written. -/
theorem Memory.get_put {m : List Host.Cell} (h : Memory.wf m = true) (a : Nat) (b : Byte) :
    Memory.get (Memory.put m a b) a = b := by
  have h1 := ((Memory.wf_iff m).1 h).1
  unfold Memory.get Memory.put
  split
  · rename_i e; rw [cellGet_drop h1, e]; rfl
  · rw [cellGet_put]; rfl

/-- A read of another byte. -/
theorem Memory.get_put_ne {m : List Host.Cell} (h : Memory.wf m = true) {a c : Nat} (hc : c ≠ a) (b : Byte) :
    Memory.get (Memory.put m a b) c = Memory.get m c := by
  have h1 := ((Memory.wf_iff m).1 h).1
  unfold Memory.get Memory.put
  split
  · rw [cellGet_drop_ne h1 hc]
  · rw [cellGet_put_ne m hc]

/-- A read of a byte outside a list of writes. -/
theorem Memory.get_putAll_ne {m : List Host.Cell} (h : Memory.wf m = true) {l : List (Nat × Byte)} {c : Nat}
    (hc : ∀ p ∈ l, p.1 ≠ c) : Memory.get (Memory.putAll m l) c = Memory.get m c := by
  induction l generalizing m with
  | nil => rfl
  | cons p t ih =>
    have h1 := ih (Memory.wf_put h p.1 p.2) fun q hq => hc q (List.mem_cons_of_mem _ hq)
    rw [Memory.putAll, h1, Memory.get_put_ne h (Ne.symm (hc p (List.mem_cons_self ..)))]

/-! ## Bytes of numbers -/

@[simp] theorem bytesOf_length (n w : Nat) : (bytesOf n w).length = n := by
  induction n generalizing w with
  | zero => rfl
  | succ n ih => simp [bytesOf, ih]

@[simp] theorem cellsFrom_length (a : Nat) (l : List Byte) : (cellsFrom a l).length = l.length := by
  induction l generalizing a with
  | nil => rfl
  | cons b t ih => simp [cellsFrom, ih]

/-- The addresses of consecutive cells. -/
theorem cellsFrom_mem {a : Nat} {l : List Byte} {p : Nat × Byte} (h : p ∈ cellsFrom a l) :
    a ≤ p.1 ∧ p.1 < a + l.length := by
  induction l generalizing a with
  | nil => cases h
  | cons b t ih =>
    rcases List.mem_cons.1 h with e | e
    · subst e; simp
    · have := ih e; simp only [List.length_cons]; omega

/-- A number of n bytes is what its bytes say. -/
theorem natOfBytes_bytesOf (n w : Nat) : natOfBytes (bytesOf n w) = w % 256 ^ n := by
  induction n generalizing w with
  | zero => simp [bytesOf, natOfBytes, Nat.mod_one]
  | succ n ih =>
    rw [bytesOf, natOfBytes, ih, BitVec.toNat_ofNat, show 256 ^ (n + 1) = 256 * 256 ^ n from Nat.pow_succ', Nat.mod_mul]

/-- A byte outside consecutive cells just written. -/
theorem Memory.get_putRun_ne {m : List Host.Cell} (h : Memory.wf m = true) {a c : Nat} {l : List Byte}
    (hc : c < a ∨ a + l.length ≤ c) : Memory.get (Memory.putAll m (cellsFrom a l)) c = Memory.get m c :=
  Memory.get_putAll_ne h fun p hp => by have := cellsFrom_mem hp; omega

/-- A byte of consecutive cells just written. -/
theorem Memory.get_putRun {m : List Host.Cell} (h : Memory.wf m = true) (a : Nat) (l : List Byte) (i : Nat)
    (hi : i < l.length) : Memory.get (Memory.putAll m (cellsFrom a l)) (a + i) = l[i] := by
  induction l generalizing m a i with
  | nil => simp at hi
  | cons b t ih =>
    rw [cellsFrom, Memory.putAll]
    cases i with
    | zero =>
      have e := Memory.get_putRun_ne (l := t) (a := a + 1) (c := a) (Memory.wf_put h a b) (.inl (Nat.lt_succ_self a))
      rw [Memory.get_put h] at e
      simpa using e
    | succ j =>
      rw [show a + (j + 1) = a + 1 + j by omega]
      exact ih (Memory.wf_put h a b) (a + 1) j (by simpa using hi)

/-- Two canonical memories that read alike are equal. -/
theorem Memory.ext {m m' : List Host.Cell} (h : Memory.wf m = true) (h' : Memory.wf m' = true)
    (e : ∀ a, Memory.get m a = Memory.get m' a) : m = m' := by
  rw [Memory.wf_iff] at h h'
  obtain ⟨r, z⟩ := h
  obtain ⟨r', z'⟩ := h'
  suffices H : ∀ lo, cellsRise lo m = true → cellsRise lo m' = true → m = m' from H 0 r r'
  clear r r'
  induction m generalizing m' with
  | nil =>
    intro lo _ r'
    cases m' with
    | nil => rfl
    | cons d t' =>
      have := e d.1
      simp [Memory.get, cellGet] at this
      exact absurd this.symm (z' d (List.mem_cons_self ..))
  | cons c t ih =>
    intro lo r r'
    obtain ⟨k, b⟩ := c
    cases m' with
    | nil =>
      have := e k
      simp [Memory.get, cellGet] at this
      exact absurd this (z (k, b) (List.mem_cons_self ..))
    | cons d t' =>
      obtain ⟨k', b'⟩ := d
      simp only [cellsRise, Bool.and_eq_true, decide_eq_true_eq] at r r'
      have hb : b ≠ 0 := z (k, b) (List.mem_cons_self ..)
      have hb' : b' ≠ 0 := z' (k', b') (List.mem_cons_self ..)
      have hk : k = k' := by
        rcases Nat.lt_trichotomy k k' with g | g | g
        · have := e k
          simp [Memory.get, cellGet, show k' ≠ k by omega, g] at this
          exact absurd this hb
        · exact g
        · have := e k'
          simp [Memory.get, cellGet, show k ≠ k' by omega, g] at this
          exact absurd this.symm hb'
      subst hk
      have hbb : b = b' := by simpa [Memory.get, cellGet] using e k
      subst hbb
      congr 1
      refine ih (m' := t') ?_ (fun c hc => z c (List.mem_cons_of_mem _ hc))
        (fun c hc => z' c (List.mem_cons_of_mem _ hc)) (k + 1) r.2 r'.2
      intro a
      rcases Nat.lt_trichotomy a k with g | g | g
      · simp only [Memory.get, cellGet_below r.2 (show a < k + 1 by omega), cellGet_below r'.2 (show a < k + 1 by omega)]
      · simp only [Memory.get, cellGet_below r.2 (show a < k + 1 by omega), cellGet_below r'.2 (show a < k + 1 by omega)]
      · have := e a
        simpa [Memory.get, cellGet, show k ≠ a by omega, show ¬ a < k by omega] using this

end Sys2Proof.Machine
end

