-- ==== Sys2Proof/Laws/State.lean ====
section
/-! SUPPORT. What each update of the state leaves of each field, one lemma a field and an update, so that no proof
unfolds a record update. -/

namespace Sys2Proof.Machine

/-! ## Updates of the package -/

@[simp] theorem State.onHart_hart (s : State) (f : Hart → Hart) : (s.onHart f).hart = f s.hart := rfl
@[simp] theorem State.onHart_parked (s : State) (f : Hart → Hart) : (s.onHart f).parked = s.parked := rfl
@[simp] theorem State.onHart_agenda (s : State) (f : Hart → Hart) : (s.onHart f).agenda = s.agenda := rfl
@[simp] theorem State.onHart_steps (s : State) (f : Hart → Hart) : (s.onHart f).steps = s.steps := rfl
@[simp] theorem State.onHart_outbox (s : State) (f : Hart → Hart) : (s.onHart f).outbox = s.outbox := rfl
@[simp] theorem State.onHart_gangs (s : State) (f : Hart → Hart) : (s.onHart f).gangs = s.gangs := rfl
@[simp] theorem State.onHart_cores (s : State) (f : Hart → Hart) : (s.onHart f).cores = s.cores := rfl
@[simp] theorem State.onHart_clusters (s : State) (f : Hart → Hart) : (s.onHart f).clusters = s.clusters := rfl
@[simp] theorem State.onHart_dies (s : State) (f : Hart → Hart) : (s.onHart f).dies = s.dies := rfl
@[simp] theorem State.onHart_mem (s : State) (f : Hart → Hart) : (s.onHart f).mem = s.mem := rfl
@[simp] theorem State.onHart_poison (s : State) (f : Hart → Hart) : (s.onHart f).poison = s.poison := rfl
@[simp] theorem State.onHart_errors (s : State) (f : Hart → Hart) : (s.onHart f).errors = s.errors := rfl
@[simp] theorem State.onHart_localErrors (s : State) (f : Hart → Hart) : (s.onHart f).localErrors = s.localErrors := rfl
@[simp] theorem State.onHart_loose (s : State) (f : Hart → Hart) : (s.onHart f).loose = s.loose := rfl
@[simp] theorem State.onHart_priors (s : State) (f : Hart → Hart) : (s.onHart f).priors = s.priors := rfl
@[simp] theorem State.onHart_held (s : State) (f : Hart → Hart) : (s.onHart f).held = s.held := rfl
@[simp] theorem State.onHart_time (s : State) (f : Hart → Hart) : (s.onHart f).time = s.time := rfl
@[simp] theorem State.onHart_hbeat (s : State) (f : Hart → Hart) : (s.onHart f).hbeat = s.hbeat := rfl
@[simp] theorem State.onHart_msplit (s : State) (f : Hart → Hart) : (s.onHart f).msplit = s.msplit := rfl
@[simp] theorem State.onHart_cpool (s : State) (f : Hart → Hart) : (s.onHart f).cpool = s.cpool := rfl
@[simp] theorem State.onHart_nextMsplit (s : State) (f : Hart → Hart) : (s.onHart f).nextMsplit = s.nextMsplit := rfl
@[simp] theorem State.onHart_nextCpool (s : State) (f : Hart → Hart) : (s.onHart f).nextCpool = s.nextCpool := rfl
@[simp] theorem State.onHart_launches (s : State) (f : Hart → Hart) : (s.onHart f).launches = s.launches := rfl
@[simp] theorem State.onHart_saved (s : State) (f : Hart → Hart) : (s.onHart f).saved = s.saved := rfl
@[simp] theorem State.onHart_nextKey (s : State) (f : Hart → Hart) : (s.onHart f).nextKey = s.nextKey := rfl
@[simp] theorem State.onHart_fevent (s : State) (f : Hart → Hart) : (s.onHart f).fevent = s.fevent := rfl
@[simp] theorem State.onHart_wmax (s : State) (f : Hart → Hart) : (s.onHart f).wmax = s.wmax := rfl
@[simp] theorem State.onHart_plimit (s : State) (f : Hart → Hart) : (s.onHart f).plimit = s.plimit := rfl
@[simp] theorem State.onHart_mclogUnits (s : State) (f : Hart → Hart) : (s.onHart f).mclogUnits = s.mclogUnits := rfl
@[simp] theorem State.onHart_mclogBase (s : State) (f : Hart → Hart) : (s.onHart f).mclogBase = s.mclogBase := rfl
@[simp] theorem State.onHart_mclogIndex (s : State) (f : Hart → Hart) : (s.onHart f).mclogIndex = s.mclogIndex := rfl
@[simp] theorem State.onHart_bootdesc (s : State) (f : Hart → Hart) : (s.onHart f).bootdesc = s.bootdesc := rfl
@[simp] theorem State.onHart_control (s : State) (f : Hart → Hart) : (s.onHart f).control = s.control := rfl
@[simp] theorem State.onHart_inbound (s : State) (f : Hart → Hart) : (s.onHart f).inbound = s.inbound := rfl
@[simp] theorem State.onHart_portStreams (s : State) (f : Hart → Hart) : (s.onHart f).portStreams = s.portStreams := rfl
@[simp] theorem State.onHart_msix (s : State) (f : Hart → Hart) : (s.onHart f).msix = s.msix := rfl
@[simp] theorem State.onHart_rings (s : State) (f : Hart → Hart) : (s.onHart f).rings = s.rings := rfl
@[simp] theorem State.onHart_pree (s : State) (f : Hart → Hart) : (s.onHart f).pree = s.pree := rfl
@[simp] theorem State.onHart_ports (s : State) (f : Hart → Hart) : (s.onHart f).ports = s.ports := rfl
@[simp] theorem State.onHart_collectives (s : State) (f : Hart → Hart) : (s.onHart f).collectives = s.collectives := rfl
@[simp] theorem State.onHart_collSeq (s : State) (f : Hart → Hart) : (s.onHart f).collSeq = s.collSeq := rfl
@[simp] theorem State.onHart_late (s : State) (f : Hart → Hart) : (s.onHart f).late = s.late := rfl
@[simp] theorem State.onHart_freezes (s : State) (f : Hart → Hart) : (s.onHart f).freezes = s.freezes := rfl
@[simp] theorem State.onHart_portsHeld (s : State) (f : Hart → Hart) : (s.onHart f).portsHeld = s.portsHeld := rfl
@[simp] theorem State.onHart_attached (s : State) (f : Hart → Hart) : (s.onHart f).attached = s.attached := rfl
@[simp] theorem State.onHart_checkpoint (s : State) (f : Hart → Hart) : (s.onHart f).checkpoint = s.checkpoint := rfl
@[simp] theorem State.onHart_crossed (s : State) (f : Hart → Hart) : (s.onHart f).crossed = s.crossed := rfl
@[simp] theorem State.onHart_attesting (s : State) (f : Hart → Hart) : (s.onHart f).attesting = s.attesting := rfl
@[simp] theorem State.onHart_fuses (s : State) (f : Hart → Hart) : (s.onHart f).fuses = s.fuses := rfl
@[simp] theorem State.onHart_keys (s : State) (f : Hart → Hart) : (s.onHart f).keys = s.keys := rfl
@[simp] theorem State.onHart_flash (s : State) (f : Hart → Hart) : (s.onHart f).flash = s.flash := rfl
@[simp] theorem State.onHart_telemetryCount (s : State) (f : Hart → Hart) : (s.onHart f).telemetryCount = s.telemetryCount := rfl
@[simp] theorem State.onHart_telemetryLatest (s : State) (f : Hart → Hart) : (s.onHart f).telemetryLatest = s.telemetryLatest := rfl

@[simp] theorem State.modCore_hart (s : State) (c : Nat) (f : Core → Core) : (s.modCore c f).hart = s.hart := rfl
@[simp] theorem State.modCore_parked (s : State) (c : Nat) (f : Core → Core) : (s.modCore c f).parked = s.parked := rfl
@[simp] theorem State.modCore_agenda (s : State) (c : Nat) (f : Core → Core) : (s.modCore c f).agenda = s.agenda := rfl
@[simp] theorem State.modCore_steps (s : State) (c : Nat) (f : Core → Core) : (s.modCore c f).steps = s.steps := rfl
@[simp] theorem State.modCore_outbox (s : State) (c : Nat) (f : Core → Core) : (s.modCore c f).outbox = s.outbox := rfl
@[simp] theorem State.modCore_gangs (s : State) (c : Nat) (f : Core → Core) : (s.modCore c f).gangs = s.gangs := rfl
@[simp] theorem State.modCore_clusters (s : State) (c : Nat) (f : Core → Core) : (s.modCore c f).clusters = s.clusters := rfl
@[simp] theorem State.modCore_dies (s : State) (c : Nat) (f : Core → Core) : (s.modCore c f).dies = s.dies := rfl
@[simp] theorem State.modCore_mem (s : State) (c : Nat) (f : Core → Core) : (s.modCore c f).mem = s.mem := rfl
@[simp] theorem State.modCore_poison (s : State) (c : Nat) (f : Core → Core) : (s.modCore c f).poison = s.poison := rfl
@[simp] theorem State.modCore_errors (s : State) (c : Nat) (f : Core → Core) : (s.modCore c f).errors = s.errors := rfl
@[simp] theorem State.modCore_localErrors (s : State) (c : Nat) (f : Core → Core) : (s.modCore c f).localErrors = s.localErrors := rfl
@[simp] theorem State.modCore_loose (s : State) (c : Nat) (f : Core → Core) : (s.modCore c f).loose = s.loose := rfl
@[simp] theorem State.modCore_priors (s : State) (c : Nat) (f : Core → Core) : (s.modCore c f).priors = s.priors := rfl
@[simp] theorem State.modCore_held (s : State) (c : Nat) (f : Core → Core) : (s.modCore c f).held = s.held := rfl
@[simp] theorem State.modCore_time (s : State) (c : Nat) (f : Core → Core) : (s.modCore c f).time = s.time := rfl
@[simp] theorem State.modCore_hbeat (s : State) (c : Nat) (f : Core → Core) : (s.modCore c f).hbeat = s.hbeat := rfl
@[simp] theorem State.modCore_msplit (s : State) (c : Nat) (f : Core → Core) : (s.modCore c f).msplit = s.msplit := rfl
@[simp] theorem State.modCore_cpool (s : State) (c : Nat) (f : Core → Core) : (s.modCore c f).cpool = s.cpool := rfl
@[simp] theorem State.modCore_nextMsplit (s : State) (c : Nat) (f : Core → Core) : (s.modCore c f).nextMsplit = s.nextMsplit := rfl
@[simp] theorem State.modCore_nextCpool (s : State) (c : Nat) (f : Core → Core) : (s.modCore c f).nextCpool = s.nextCpool := rfl
@[simp] theorem State.modCore_launches (s : State) (c : Nat) (f : Core → Core) : (s.modCore c f).launches = s.launches := rfl
@[simp] theorem State.modCore_saved (s : State) (c : Nat) (f : Core → Core) : (s.modCore c f).saved = s.saved := rfl
@[simp] theorem State.modCore_nextKey (s : State) (c : Nat) (f : Core → Core) : (s.modCore c f).nextKey = s.nextKey := rfl
@[simp] theorem State.modCore_fevent (s : State) (c : Nat) (f : Core → Core) : (s.modCore c f).fevent = s.fevent := rfl
@[simp] theorem State.modCore_wmax (s : State) (c : Nat) (f : Core → Core) : (s.modCore c f).wmax = s.wmax := rfl
@[simp] theorem State.modCore_plimit (s : State) (c : Nat) (f : Core → Core) : (s.modCore c f).plimit = s.plimit := rfl
@[simp] theorem State.modCore_mclogUnits (s : State) (c : Nat) (f : Core → Core) : (s.modCore c f).mclogUnits = s.mclogUnits := rfl
@[simp] theorem State.modCore_mclogBase (s : State) (c : Nat) (f : Core → Core) : (s.modCore c f).mclogBase = s.mclogBase := rfl
@[simp] theorem State.modCore_mclogIndex (s : State) (c : Nat) (f : Core → Core) : (s.modCore c f).mclogIndex = s.mclogIndex := rfl
@[simp] theorem State.modCore_bootdesc (s : State) (c : Nat) (f : Core → Core) : (s.modCore c f).bootdesc = s.bootdesc := rfl
@[simp] theorem State.modCore_control (s : State) (c : Nat) (f : Core → Core) : (s.modCore c f).control = s.control := rfl
@[simp] theorem State.modCore_inbound (s : State) (c : Nat) (f : Core → Core) : (s.modCore c f).inbound = s.inbound := rfl
@[simp] theorem State.modCore_portStreams (s : State) (c : Nat) (f : Core → Core) : (s.modCore c f).portStreams = s.portStreams := rfl
@[simp] theorem State.modCore_msix (s : State) (c : Nat) (f : Core → Core) : (s.modCore c f).msix = s.msix := rfl
@[simp] theorem State.modCore_rings (s : State) (c : Nat) (f : Core → Core) : (s.modCore c f).rings = s.rings := rfl
@[simp] theorem State.modCore_pree (s : State) (c : Nat) (f : Core → Core) : (s.modCore c f).pree = s.pree := rfl
@[simp] theorem State.modCore_ports (s : State) (c : Nat) (f : Core → Core) : (s.modCore c f).ports = s.ports := rfl
@[simp] theorem State.modCore_collectives (s : State) (c : Nat) (f : Core → Core) : (s.modCore c f).collectives = s.collectives := rfl
@[simp] theorem State.modCore_collSeq (s : State) (c : Nat) (f : Core → Core) : (s.modCore c f).collSeq = s.collSeq := rfl
@[simp] theorem State.modCore_late (s : State) (c : Nat) (f : Core → Core) : (s.modCore c f).late = s.late := rfl
@[simp] theorem State.modCore_freezes (s : State) (c : Nat) (f : Core → Core) : (s.modCore c f).freezes = s.freezes := rfl
@[simp] theorem State.modCore_portsHeld (s : State) (c : Nat) (f : Core → Core) : (s.modCore c f).portsHeld = s.portsHeld := rfl
@[simp] theorem State.modCore_attached (s : State) (c : Nat) (f : Core → Core) : (s.modCore c f).attached = s.attached := rfl
@[simp] theorem State.modCore_checkpoint (s : State) (c : Nat) (f : Core → Core) : (s.modCore c f).checkpoint = s.checkpoint := rfl
@[simp] theorem State.modCore_crossed (s : State) (c : Nat) (f : Core → Core) : (s.modCore c f).crossed = s.crossed := rfl
@[simp] theorem State.modCore_attesting (s : State) (c : Nat) (f : Core → Core) : (s.modCore c f).attesting = s.attesting := rfl
@[simp] theorem State.modCore_fuses (s : State) (c : Nat) (f : Core → Core) : (s.modCore c f).fuses = s.fuses := rfl
@[simp] theorem State.modCore_keys (s : State) (c : Nat) (f : Core → Core) : (s.modCore c f).keys = s.keys := rfl
@[simp] theorem State.modCore_flash (s : State) (c : Nat) (f : Core → Core) : (s.modCore c f).flash = s.flash := rfl
@[simp] theorem State.modCore_telemetryCount (s : State) (c : Nat) (f : Core → Core) : (s.modCore c f).telemetryCount = s.telemetryCount := rfl
@[simp] theorem State.modCore_telemetryLatest (s : State) (c : Nat) (f : Core → Core) : (s.modCore c f).telemetryLatest = s.telemetryLatest := rfl

@[simp] theorem State.modCluster_hart (s : State) (c : Nat) (f : Cluster → Cluster) : (s.modCluster c f).hart = s.hart := rfl
@[simp] theorem State.modCluster_parked (s : State) (c : Nat) (f : Cluster → Cluster) : (s.modCluster c f).parked = s.parked := rfl
@[simp] theorem State.modCluster_agenda (s : State) (c : Nat) (f : Cluster → Cluster) : (s.modCluster c f).agenda = s.agenda := rfl
@[simp] theorem State.modCluster_steps (s : State) (c : Nat) (f : Cluster → Cluster) : (s.modCluster c f).steps = s.steps := rfl
@[simp] theorem State.modCluster_outbox (s : State) (c : Nat) (f : Cluster → Cluster) : (s.modCluster c f).outbox = s.outbox := rfl
@[simp] theorem State.modCluster_gangs (s : State) (c : Nat) (f : Cluster → Cluster) : (s.modCluster c f).gangs = s.gangs := rfl
@[simp] theorem State.modCluster_cores (s : State) (c : Nat) (f : Cluster → Cluster) : (s.modCluster c f).cores = s.cores := rfl
@[simp] theorem State.modCluster_dies (s : State) (c : Nat) (f : Cluster → Cluster) : (s.modCluster c f).dies = s.dies := rfl
@[simp] theorem State.modCluster_mem (s : State) (c : Nat) (f : Cluster → Cluster) : (s.modCluster c f).mem = s.mem := rfl
@[simp] theorem State.modCluster_poison (s : State) (c : Nat) (f : Cluster → Cluster) : (s.modCluster c f).poison = s.poison := rfl
@[simp] theorem State.modCluster_errors (s : State) (c : Nat) (f : Cluster → Cluster) : (s.modCluster c f).errors = s.errors := rfl
@[simp] theorem State.modCluster_localErrors (s : State) (c : Nat) (f : Cluster → Cluster) : (s.modCluster c f).localErrors = s.localErrors := rfl
@[simp] theorem State.modCluster_loose (s : State) (c : Nat) (f : Cluster → Cluster) : (s.modCluster c f).loose = s.loose := rfl
@[simp] theorem State.modCluster_priors (s : State) (c : Nat) (f : Cluster → Cluster) : (s.modCluster c f).priors = s.priors := rfl
@[simp] theorem State.modCluster_held (s : State) (c : Nat) (f : Cluster → Cluster) : (s.modCluster c f).held = s.held := rfl
@[simp] theorem State.modCluster_time (s : State) (c : Nat) (f : Cluster → Cluster) : (s.modCluster c f).time = s.time := rfl
@[simp] theorem State.modCluster_hbeat (s : State) (c : Nat) (f : Cluster → Cluster) : (s.modCluster c f).hbeat = s.hbeat := rfl
@[simp] theorem State.modCluster_msplit (s : State) (c : Nat) (f : Cluster → Cluster) : (s.modCluster c f).msplit = s.msplit := rfl
@[simp] theorem State.modCluster_cpool (s : State) (c : Nat) (f : Cluster → Cluster) : (s.modCluster c f).cpool = s.cpool := rfl
@[simp] theorem State.modCluster_nextMsplit (s : State) (c : Nat) (f : Cluster → Cluster) : (s.modCluster c f).nextMsplit = s.nextMsplit := rfl
@[simp] theorem State.modCluster_nextCpool (s : State) (c : Nat) (f : Cluster → Cluster) : (s.modCluster c f).nextCpool = s.nextCpool := rfl
@[simp] theorem State.modCluster_launches (s : State) (c : Nat) (f : Cluster → Cluster) : (s.modCluster c f).launches = s.launches := rfl
@[simp] theorem State.modCluster_saved (s : State) (c : Nat) (f : Cluster → Cluster) : (s.modCluster c f).saved = s.saved := rfl
@[simp] theorem State.modCluster_nextKey (s : State) (c : Nat) (f : Cluster → Cluster) : (s.modCluster c f).nextKey = s.nextKey := rfl
@[simp] theorem State.modCluster_fevent (s : State) (c : Nat) (f : Cluster → Cluster) : (s.modCluster c f).fevent = s.fevent := rfl
@[simp] theorem State.modCluster_wmax (s : State) (c : Nat) (f : Cluster → Cluster) : (s.modCluster c f).wmax = s.wmax := rfl
@[simp] theorem State.modCluster_plimit (s : State) (c : Nat) (f : Cluster → Cluster) : (s.modCluster c f).plimit = s.plimit := rfl
@[simp] theorem State.modCluster_mclogUnits (s : State) (c : Nat) (f : Cluster → Cluster) : (s.modCluster c f).mclogUnits = s.mclogUnits := rfl
@[simp] theorem State.modCluster_mclogBase (s : State) (c : Nat) (f : Cluster → Cluster) : (s.modCluster c f).mclogBase = s.mclogBase := rfl
@[simp] theorem State.modCluster_mclogIndex (s : State) (c : Nat) (f : Cluster → Cluster) : (s.modCluster c f).mclogIndex = s.mclogIndex := rfl
@[simp] theorem State.modCluster_bootdesc (s : State) (c : Nat) (f : Cluster → Cluster) : (s.modCluster c f).bootdesc = s.bootdesc := rfl
@[simp] theorem State.modCluster_control (s : State) (c : Nat) (f : Cluster → Cluster) : (s.modCluster c f).control = s.control := rfl
@[simp] theorem State.modCluster_inbound (s : State) (c : Nat) (f : Cluster → Cluster) : (s.modCluster c f).inbound = s.inbound := rfl
@[simp] theorem State.modCluster_portStreams (s : State) (c : Nat) (f : Cluster → Cluster) : (s.modCluster c f).portStreams = s.portStreams := rfl
@[simp] theorem State.modCluster_msix (s : State) (c : Nat) (f : Cluster → Cluster) : (s.modCluster c f).msix = s.msix := rfl
@[simp] theorem State.modCluster_rings (s : State) (c : Nat) (f : Cluster → Cluster) : (s.modCluster c f).rings = s.rings := rfl
@[simp] theorem State.modCluster_pree (s : State) (c : Nat) (f : Cluster → Cluster) : (s.modCluster c f).pree = s.pree := rfl
@[simp] theorem State.modCluster_ports (s : State) (c : Nat) (f : Cluster → Cluster) : (s.modCluster c f).ports = s.ports := rfl
@[simp] theorem State.modCluster_collectives (s : State) (c : Nat) (f : Cluster → Cluster) : (s.modCluster c f).collectives = s.collectives := rfl
@[simp] theorem State.modCluster_collSeq (s : State) (c : Nat) (f : Cluster → Cluster) : (s.modCluster c f).collSeq = s.collSeq := rfl
@[simp] theorem State.modCluster_late (s : State) (c : Nat) (f : Cluster → Cluster) : (s.modCluster c f).late = s.late := rfl
@[simp] theorem State.modCluster_freezes (s : State) (c : Nat) (f : Cluster → Cluster) : (s.modCluster c f).freezes = s.freezes := rfl
@[simp] theorem State.modCluster_portsHeld (s : State) (c : Nat) (f : Cluster → Cluster) : (s.modCluster c f).portsHeld = s.portsHeld := rfl
@[simp] theorem State.modCluster_attached (s : State) (c : Nat) (f : Cluster → Cluster) : (s.modCluster c f).attached = s.attached := rfl
@[simp] theorem State.modCluster_checkpoint (s : State) (c : Nat) (f : Cluster → Cluster) : (s.modCluster c f).checkpoint = s.checkpoint := rfl
@[simp] theorem State.modCluster_crossed (s : State) (c : Nat) (f : Cluster → Cluster) : (s.modCluster c f).crossed = s.crossed := rfl
@[simp] theorem State.modCluster_attesting (s : State) (c : Nat) (f : Cluster → Cluster) : (s.modCluster c f).attesting = s.attesting := rfl
@[simp] theorem State.modCluster_fuses (s : State) (c : Nat) (f : Cluster → Cluster) : (s.modCluster c f).fuses = s.fuses := rfl
@[simp] theorem State.modCluster_keys (s : State) (c : Nat) (f : Cluster → Cluster) : (s.modCluster c f).keys = s.keys := rfl
@[simp] theorem State.modCluster_flash (s : State) (c : Nat) (f : Cluster → Cluster) : (s.modCluster c f).flash = s.flash := rfl
@[simp] theorem State.modCluster_telemetryCount (s : State) (c : Nat) (f : Cluster → Cluster) : (s.modCluster c f).telemetryCount = s.telemetryCount := rfl
@[simp] theorem State.modCluster_telemetryLatest (s : State) (c : Nat) (f : Cluster → Cluster) : (s.modCluster c f).telemetryLatest = s.telemetryLatest := rfl

@[simp] theorem State.modDie_hart (s : State) (c : Nat) (f : Die → Die) : (s.modDie c f).hart = s.hart := rfl
@[simp] theorem State.modDie_parked (s : State) (c : Nat) (f : Die → Die) : (s.modDie c f).parked = s.parked := rfl
@[simp] theorem State.modDie_agenda (s : State) (c : Nat) (f : Die → Die) : (s.modDie c f).agenda = s.agenda := rfl
@[simp] theorem State.modDie_steps (s : State) (c : Nat) (f : Die → Die) : (s.modDie c f).steps = s.steps := rfl
@[simp] theorem State.modDie_outbox (s : State) (c : Nat) (f : Die → Die) : (s.modDie c f).outbox = s.outbox := rfl
@[simp] theorem State.modDie_gangs (s : State) (c : Nat) (f : Die → Die) : (s.modDie c f).gangs = s.gangs := rfl
@[simp] theorem State.modDie_cores (s : State) (c : Nat) (f : Die → Die) : (s.modDie c f).cores = s.cores := rfl
@[simp] theorem State.modDie_clusters (s : State) (c : Nat) (f : Die → Die) : (s.modDie c f).clusters = s.clusters := rfl
@[simp] theorem State.modDie_mem (s : State) (c : Nat) (f : Die → Die) : (s.modDie c f).mem = s.mem := rfl
@[simp] theorem State.modDie_poison (s : State) (c : Nat) (f : Die → Die) : (s.modDie c f).poison = s.poison := rfl
@[simp] theorem State.modDie_errors (s : State) (c : Nat) (f : Die → Die) : (s.modDie c f).errors = s.errors := rfl
@[simp] theorem State.modDie_localErrors (s : State) (c : Nat) (f : Die → Die) : (s.modDie c f).localErrors = s.localErrors := rfl
@[simp] theorem State.modDie_loose (s : State) (c : Nat) (f : Die → Die) : (s.modDie c f).loose = s.loose := rfl
@[simp] theorem State.modDie_priors (s : State) (c : Nat) (f : Die → Die) : (s.modDie c f).priors = s.priors := rfl
@[simp] theorem State.modDie_held (s : State) (c : Nat) (f : Die → Die) : (s.modDie c f).held = s.held := rfl
@[simp] theorem State.modDie_time (s : State) (c : Nat) (f : Die → Die) : (s.modDie c f).time = s.time := rfl
@[simp] theorem State.modDie_hbeat (s : State) (c : Nat) (f : Die → Die) : (s.modDie c f).hbeat = s.hbeat := rfl
@[simp] theorem State.modDie_msplit (s : State) (c : Nat) (f : Die → Die) : (s.modDie c f).msplit = s.msplit := rfl
@[simp] theorem State.modDie_cpool (s : State) (c : Nat) (f : Die → Die) : (s.modDie c f).cpool = s.cpool := rfl
@[simp] theorem State.modDie_nextMsplit (s : State) (c : Nat) (f : Die → Die) : (s.modDie c f).nextMsplit = s.nextMsplit := rfl
@[simp] theorem State.modDie_nextCpool (s : State) (c : Nat) (f : Die → Die) : (s.modDie c f).nextCpool = s.nextCpool := rfl
@[simp] theorem State.modDie_launches (s : State) (c : Nat) (f : Die → Die) : (s.modDie c f).launches = s.launches := rfl
@[simp] theorem State.modDie_saved (s : State) (c : Nat) (f : Die → Die) : (s.modDie c f).saved = s.saved := rfl
@[simp] theorem State.modDie_nextKey (s : State) (c : Nat) (f : Die → Die) : (s.modDie c f).nextKey = s.nextKey := rfl
@[simp] theorem State.modDie_fevent (s : State) (c : Nat) (f : Die → Die) : (s.modDie c f).fevent = s.fevent := rfl
@[simp] theorem State.modDie_wmax (s : State) (c : Nat) (f : Die → Die) : (s.modDie c f).wmax = s.wmax := rfl
@[simp] theorem State.modDie_plimit (s : State) (c : Nat) (f : Die → Die) : (s.modDie c f).plimit = s.plimit := rfl
@[simp] theorem State.modDie_mclogUnits (s : State) (c : Nat) (f : Die → Die) : (s.modDie c f).mclogUnits = s.mclogUnits := rfl
@[simp] theorem State.modDie_mclogBase (s : State) (c : Nat) (f : Die → Die) : (s.modDie c f).mclogBase = s.mclogBase := rfl
@[simp] theorem State.modDie_mclogIndex (s : State) (c : Nat) (f : Die → Die) : (s.modDie c f).mclogIndex = s.mclogIndex := rfl
@[simp] theorem State.modDie_bootdesc (s : State) (c : Nat) (f : Die → Die) : (s.modDie c f).bootdesc = s.bootdesc := rfl
@[simp] theorem State.modDie_control (s : State) (c : Nat) (f : Die → Die) : (s.modDie c f).control = s.control := rfl
@[simp] theorem State.modDie_inbound (s : State) (c : Nat) (f : Die → Die) : (s.modDie c f).inbound = s.inbound := rfl
@[simp] theorem State.modDie_portStreams (s : State) (c : Nat) (f : Die → Die) : (s.modDie c f).portStreams = s.portStreams := rfl
@[simp] theorem State.modDie_msix (s : State) (c : Nat) (f : Die → Die) : (s.modDie c f).msix = s.msix := rfl
@[simp] theorem State.modDie_rings (s : State) (c : Nat) (f : Die → Die) : (s.modDie c f).rings = s.rings := rfl
@[simp] theorem State.modDie_pree (s : State) (c : Nat) (f : Die → Die) : (s.modDie c f).pree = s.pree := rfl
@[simp] theorem State.modDie_ports (s : State) (c : Nat) (f : Die → Die) : (s.modDie c f).ports = s.ports := rfl
@[simp] theorem State.modDie_collectives (s : State) (c : Nat) (f : Die → Die) : (s.modDie c f).collectives = s.collectives := rfl
@[simp] theorem State.modDie_collSeq (s : State) (c : Nat) (f : Die → Die) : (s.modDie c f).collSeq = s.collSeq := rfl
@[simp] theorem State.modDie_late (s : State) (c : Nat) (f : Die → Die) : (s.modDie c f).late = s.late := rfl
@[simp] theorem State.modDie_freezes (s : State) (c : Nat) (f : Die → Die) : (s.modDie c f).freezes = s.freezes := rfl
@[simp] theorem State.modDie_portsHeld (s : State) (c : Nat) (f : Die → Die) : (s.modDie c f).portsHeld = s.portsHeld := rfl
@[simp] theorem State.modDie_attached (s : State) (c : Nat) (f : Die → Die) : (s.modDie c f).attached = s.attached := rfl
@[simp] theorem State.modDie_checkpoint (s : State) (c : Nat) (f : Die → Die) : (s.modDie c f).checkpoint = s.checkpoint := rfl
@[simp] theorem State.modDie_crossed (s : State) (c : Nat) (f : Die → Die) : (s.modDie c f).crossed = s.crossed := rfl
@[simp] theorem State.modDie_attesting (s : State) (c : Nat) (f : Die → Die) : (s.modDie c f).attesting = s.attesting := rfl
@[simp] theorem State.modDie_fuses (s : State) (c : Nat) (f : Die → Die) : (s.modDie c f).fuses = s.fuses := rfl
@[simp] theorem State.modDie_keys (s : State) (c : Nat) (f : Die → Die) : (s.modDie c f).keys = s.keys := rfl
@[simp] theorem State.modDie_flash (s : State) (c : Nat) (f : Die → Die) : (s.modDie c f).flash = s.flash := rfl
@[simp] theorem State.modDie_telemetryCount (s : State) (c : Nat) (f : Die → Die) : (s.modDie c f).telemetryCount = s.telemetryCount := rfl
@[simp] theorem State.modDie_telemetryLatest (s : State) (c : Nat) (f : Die → Die) : (s.modDie c f).telemetryLatest = s.telemetryLatest := rfl

@[simp] theorem State.modGang_hart (s : State) (k : Nat) (f : Gang → Gang) : (s.modGang k f).hart = s.hart := rfl
@[simp] theorem State.modGang_parked (s : State) (k : Nat) (f : Gang → Gang) : (s.modGang k f).parked = s.parked := rfl
@[simp] theorem State.modGang_agenda (s : State) (k : Nat) (f : Gang → Gang) : (s.modGang k f).agenda = s.agenda := rfl
@[simp] theorem State.modGang_steps (s : State) (k : Nat) (f : Gang → Gang) : (s.modGang k f).steps = s.steps := rfl
@[simp] theorem State.modGang_outbox (s : State) (k : Nat) (f : Gang → Gang) : (s.modGang k f).outbox = s.outbox := rfl
@[simp] theorem State.modGang_cores (s : State) (k : Nat) (f : Gang → Gang) : (s.modGang k f).cores = s.cores := rfl
@[simp] theorem State.modGang_clusters (s : State) (k : Nat) (f : Gang → Gang) : (s.modGang k f).clusters = s.clusters := rfl
@[simp] theorem State.modGang_dies (s : State) (k : Nat) (f : Gang → Gang) : (s.modGang k f).dies = s.dies := rfl
@[simp] theorem State.modGang_mem (s : State) (k : Nat) (f : Gang → Gang) : (s.modGang k f).mem = s.mem := rfl
@[simp] theorem State.modGang_poison (s : State) (k : Nat) (f : Gang → Gang) : (s.modGang k f).poison = s.poison := rfl
@[simp] theorem State.modGang_errors (s : State) (k : Nat) (f : Gang → Gang) : (s.modGang k f).errors = s.errors := rfl
@[simp] theorem State.modGang_localErrors (s : State) (k : Nat) (f : Gang → Gang) : (s.modGang k f).localErrors = s.localErrors := rfl
@[simp] theorem State.modGang_loose (s : State) (k : Nat) (f : Gang → Gang) : (s.modGang k f).loose = s.loose := rfl
@[simp] theorem State.modGang_priors (s : State) (k : Nat) (f : Gang → Gang) : (s.modGang k f).priors = s.priors := rfl
@[simp] theorem State.modGang_held (s : State) (k : Nat) (f : Gang → Gang) : (s.modGang k f).held = s.held := rfl
@[simp] theorem State.modGang_time (s : State) (k : Nat) (f : Gang → Gang) : (s.modGang k f).time = s.time := rfl
@[simp] theorem State.modGang_hbeat (s : State) (k : Nat) (f : Gang → Gang) : (s.modGang k f).hbeat = s.hbeat := rfl
@[simp] theorem State.modGang_msplit (s : State) (k : Nat) (f : Gang → Gang) : (s.modGang k f).msplit = s.msplit := rfl
@[simp] theorem State.modGang_cpool (s : State) (k : Nat) (f : Gang → Gang) : (s.modGang k f).cpool = s.cpool := rfl
@[simp] theorem State.modGang_nextMsplit (s : State) (k : Nat) (f : Gang → Gang) : (s.modGang k f).nextMsplit = s.nextMsplit := rfl
@[simp] theorem State.modGang_nextCpool (s : State) (k : Nat) (f : Gang → Gang) : (s.modGang k f).nextCpool = s.nextCpool := rfl
@[simp] theorem State.modGang_launches (s : State) (k : Nat) (f : Gang → Gang) : (s.modGang k f).launches = s.launches := rfl
@[simp] theorem State.modGang_saved (s : State) (k : Nat) (f : Gang → Gang) : (s.modGang k f).saved = s.saved := rfl
@[simp] theorem State.modGang_nextKey (s : State) (k : Nat) (f : Gang → Gang) : (s.modGang k f).nextKey = s.nextKey := rfl
@[simp] theorem State.modGang_fevent (s : State) (k : Nat) (f : Gang → Gang) : (s.modGang k f).fevent = s.fevent := rfl
@[simp] theorem State.modGang_wmax (s : State) (k : Nat) (f : Gang → Gang) : (s.modGang k f).wmax = s.wmax := rfl
@[simp] theorem State.modGang_plimit (s : State) (k : Nat) (f : Gang → Gang) : (s.modGang k f).plimit = s.plimit := rfl
@[simp] theorem State.modGang_mclogUnits (s : State) (k : Nat) (f : Gang → Gang) : (s.modGang k f).mclogUnits = s.mclogUnits := rfl
@[simp] theorem State.modGang_mclogBase (s : State) (k : Nat) (f : Gang → Gang) : (s.modGang k f).mclogBase = s.mclogBase := rfl
@[simp] theorem State.modGang_mclogIndex (s : State) (k : Nat) (f : Gang → Gang) : (s.modGang k f).mclogIndex = s.mclogIndex := rfl
@[simp] theorem State.modGang_bootdesc (s : State) (k : Nat) (f : Gang → Gang) : (s.modGang k f).bootdesc = s.bootdesc := rfl
@[simp] theorem State.modGang_control (s : State) (k : Nat) (f : Gang → Gang) : (s.modGang k f).control = s.control := rfl
@[simp] theorem State.modGang_inbound (s : State) (k : Nat) (f : Gang → Gang) : (s.modGang k f).inbound = s.inbound := rfl
@[simp] theorem State.modGang_portStreams (s : State) (k : Nat) (f : Gang → Gang) : (s.modGang k f).portStreams = s.portStreams := rfl
@[simp] theorem State.modGang_msix (s : State) (k : Nat) (f : Gang → Gang) : (s.modGang k f).msix = s.msix := rfl
@[simp] theorem State.modGang_rings (s : State) (k : Nat) (f : Gang → Gang) : (s.modGang k f).rings = s.rings := rfl
@[simp] theorem State.modGang_pree (s : State) (k : Nat) (f : Gang → Gang) : (s.modGang k f).pree = s.pree := rfl
@[simp] theorem State.modGang_ports (s : State) (k : Nat) (f : Gang → Gang) : (s.modGang k f).ports = s.ports := rfl
@[simp] theorem State.modGang_collectives (s : State) (k : Nat) (f : Gang → Gang) : (s.modGang k f).collectives = s.collectives := rfl
@[simp] theorem State.modGang_collSeq (s : State) (k : Nat) (f : Gang → Gang) : (s.modGang k f).collSeq = s.collSeq := rfl
@[simp] theorem State.modGang_late (s : State) (k : Nat) (f : Gang → Gang) : (s.modGang k f).late = s.late := rfl
@[simp] theorem State.modGang_freezes (s : State) (k : Nat) (f : Gang → Gang) : (s.modGang k f).freezes = s.freezes := rfl
@[simp] theorem State.modGang_portsHeld (s : State) (k : Nat) (f : Gang → Gang) : (s.modGang k f).portsHeld = s.portsHeld := rfl
@[simp] theorem State.modGang_attached (s : State) (k : Nat) (f : Gang → Gang) : (s.modGang k f).attached = s.attached := rfl
@[simp] theorem State.modGang_checkpoint (s : State) (k : Nat) (f : Gang → Gang) : (s.modGang k f).checkpoint = s.checkpoint := rfl
@[simp] theorem State.modGang_crossed (s : State) (k : Nat) (f : Gang → Gang) : (s.modGang k f).crossed = s.crossed := rfl
@[simp] theorem State.modGang_attesting (s : State) (k : Nat) (f : Gang → Gang) : (s.modGang k f).attesting = s.attesting := rfl
@[simp] theorem State.modGang_fuses (s : State) (k : Nat) (f : Gang → Gang) : (s.modGang k f).fuses = s.fuses := rfl
@[simp] theorem State.modGang_keys (s : State) (k : Nat) (f : Gang → Gang) : (s.modGang k f).keys = s.keys := rfl
@[simp] theorem State.modGang_flash (s : State) (k : Nat) (f : Gang → Gang) : (s.modGang k f).flash = s.flash := rfl
@[simp] theorem State.modGang_telemetryCount (s : State) (k : Nat) (f : Gang → Gang) : (s.modGang k f).telemetryCount = s.telemetryCount := rfl
@[simp] theorem State.modGang_telemetryLatest (s : State) (k : Nat) (f : Gang → Gang) : (s.modGang k f).telemetryLatest = s.telemetryLatest := rfl

@[simp] theorem State.mapHarts_agenda (s : State) (f : Hart → Hart) : (s.mapHarts f).agenda = s.agenda := rfl
@[simp] theorem State.mapHarts_steps (s : State) (f : Hart → Hart) : (s.mapHarts f).steps = s.steps := rfl
@[simp] theorem State.mapHarts_outbox (s : State) (f : Hart → Hart) : (s.mapHarts f).outbox = s.outbox := rfl
@[simp] theorem State.mapHarts_gangs (s : State) (f : Hart → Hart) : (s.mapHarts f).gangs = s.gangs := rfl
@[simp] theorem State.mapHarts_cores (s : State) (f : Hart → Hart) : (s.mapHarts f).cores = s.cores := rfl
@[simp] theorem State.mapHarts_clusters (s : State) (f : Hart → Hart) : (s.mapHarts f).clusters = s.clusters := rfl
@[simp] theorem State.mapHarts_dies (s : State) (f : Hart → Hart) : (s.mapHarts f).dies = s.dies := rfl
@[simp] theorem State.mapHarts_mem (s : State) (f : Hart → Hart) : (s.mapHarts f).mem = s.mem := rfl
@[simp] theorem State.mapHarts_poison (s : State) (f : Hart → Hart) : (s.mapHarts f).poison = s.poison := rfl
@[simp] theorem State.mapHarts_errors (s : State) (f : Hart → Hart) : (s.mapHarts f).errors = s.errors := rfl
@[simp] theorem State.mapHarts_localErrors (s : State) (f : Hart → Hart) : (s.mapHarts f).localErrors = s.localErrors := rfl
@[simp] theorem State.mapHarts_loose (s : State) (f : Hart → Hart) : (s.mapHarts f).loose = s.loose := rfl
@[simp] theorem State.mapHarts_priors (s : State) (f : Hart → Hart) : (s.mapHarts f).priors = s.priors := rfl
@[simp] theorem State.mapHarts_held (s : State) (f : Hart → Hart) : (s.mapHarts f).held = s.held := rfl
@[simp] theorem State.mapHarts_time (s : State) (f : Hart → Hart) : (s.mapHarts f).time = s.time := rfl
@[simp] theorem State.mapHarts_hbeat (s : State) (f : Hart → Hart) : (s.mapHarts f).hbeat = s.hbeat := rfl
@[simp] theorem State.mapHarts_msplit (s : State) (f : Hart → Hart) : (s.mapHarts f).msplit = s.msplit := rfl
@[simp] theorem State.mapHarts_cpool (s : State) (f : Hart → Hart) : (s.mapHarts f).cpool = s.cpool := rfl
@[simp] theorem State.mapHarts_nextMsplit (s : State) (f : Hart → Hart) : (s.mapHarts f).nextMsplit = s.nextMsplit := rfl
@[simp] theorem State.mapHarts_nextCpool (s : State) (f : Hart → Hart) : (s.mapHarts f).nextCpool = s.nextCpool := rfl
@[simp] theorem State.mapHarts_launches (s : State) (f : Hart → Hart) : (s.mapHarts f).launches = s.launches := rfl
@[simp] theorem State.mapHarts_saved (s : State) (f : Hart → Hart) : (s.mapHarts f).saved = s.saved := rfl
@[simp] theorem State.mapHarts_nextKey (s : State) (f : Hart → Hart) : (s.mapHarts f).nextKey = s.nextKey := rfl
@[simp] theorem State.mapHarts_fevent (s : State) (f : Hart → Hart) : (s.mapHarts f).fevent = s.fevent := rfl
@[simp] theorem State.mapHarts_wmax (s : State) (f : Hart → Hart) : (s.mapHarts f).wmax = s.wmax := rfl
@[simp] theorem State.mapHarts_plimit (s : State) (f : Hart → Hart) : (s.mapHarts f).plimit = s.plimit := rfl
@[simp] theorem State.mapHarts_mclogUnits (s : State) (f : Hart → Hart) : (s.mapHarts f).mclogUnits = s.mclogUnits := rfl
@[simp] theorem State.mapHarts_mclogBase (s : State) (f : Hart → Hart) : (s.mapHarts f).mclogBase = s.mclogBase := rfl
@[simp] theorem State.mapHarts_mclogIndex (s : State) (f : Hart → Hart) : (s.mapHarts f).mclogIndex = s.mclogIndex := rfl
@[simp] theorem State.mapHarts_bootdesc (s : State) (f : Hart → Hart) : (s.mapHarts f).bootdesc = s.bootdesc := rfl
@[simp] theorem State.mapHarts_control (s : State) (f : Hart → Hart) : (s.mapHarts f).control = s.control := rfl
@[simp] theorem State.mapHarts_inbound (s : State) (f : Hart → Hart) : (s.mapHarts f).inbound = s.inbound := rfl
@[simp] theorem State.mapHarts_portStreams (s : State) (f : Hart → Hart) : (s.mapHarts f).portStreams = s.portStreams := rfl
@[simp] theorem State.mapHarts_msix (s : State) (f : Hart → Hart) : (s.mapHarts f).msix = s.msix := rfl
@[simp] theorem State.mapHarts_rings (s : State) (f : Hart → Hart) : (s.mapHarts f).rings = s.rings := rfl
@[simp] theorem State.mapHarts_pree (s : State) (f : Hart → Hart) : (s.mapHarts f).pree = s.pree := rfl
@[simp] theorem State.mapHarts_ports (s : State) (f : Hart → Hart) : (s.mapHarts f).ports = s.ports := rfl
@[simp] theorem State.mapHarts_collectives (s : State) (f : Hart → Hart) : (s.mapHarts f).collectives = s.collectives := rfl
@[simp] theorem State.mapHarts_collSeq (s : State) (f : Hart → Hart) : (s.mapHarts f).collSeq = s.collSeq := rfl
@[simp] theorem State.mapHarts_late (s : State) (f : Hart → Hart) : (s.mapHarts f).late = s.late := rfl
@[simp] theorem State.mapHarts_freezes (s : State) (f : Hart → Hart) : (s.mapHarts f).freezes = s.freezes := rfl
@[simp] theorem State.mapHarts_portsHeld (s : State) (f : Hart → Hart) : (s.mapHarts f).portsHeld = s.portsHeld := rfl
@[simp] theorem State.mapHarts_attached (s : State) (f : Hart → Hart) : (s.mapHarts f).attached = s.attached := rfl
@[simp] theorem State.mapHarts_checkpoint (s : State) (f : Hart → Hart) : (s.mapHarts f).checkpoint = s.checkpoint := rfl
@[simp] theorem State.mapHarts_crossed (s : State) (f : Hart → Hart) : (s.mapHarts f).crossed = s.crossed := rfl
@[simp] theorem State.mapHarts_attesting (s : State) (f : Hart → Hart) : (s.mapHarts f).attesting = s.attesting := rfl
@[simp] theorem State.mapHarts_fuses (s : State) (f : Hart → Hart) : (s.mapHarts f).fuses = s.fuses := rfl
@[simp] theorem State.mapHarts_keys (s : State) (f : Hart → Hart) : (s.mapHarts f).keys = s.keys := rfl
@[simp] theorem State.mapHarts_flash (s : State) (f : Hart → Hart) : (s.mapHarts f).flash = s.flash := rfl
@[simp] theorem State.mapHarts_telemetryCount (s : State) (f : Hart → Hart) : (s.mapHarts f).telemetryCount = s.telemetryCount := rfl
@[simp] theorem State.mapHarts_telemetryLatest (s : State) (f : Hart → Hart) : (s.mapHarts f).telemetryLatest = s.telemetryLatest := rfl

@[simp] theorem State.mapHarts_hart (s : State) (f : Hart → Hart) : (s.mapHarts f).hart = f s.hart := rfl
@[simp] theorem State.mapHarts_parked (s : State) (f : Hart → Hart) : (s.mapHarts f).parked = s.parked.map f := rfl
@[simp] theorem State.send_hart (s : State) (m : Message) : (s.send m).hart = s.hart := rfl
@[simp] theorem State.send_parked (s : State) (m : Message) : (s.send m).parked = s.parked := rfl
@[simp] theorem State.send_agenda (s : State) (m : Message) : (s.send m).agenda = s.agenda := rfl
@[simp] theorem State.send_steps (s : State) (m : Message) : (s.send m).steps = s.steps := rfl
@[simp] theorem State.send_gangs (s : State) (m : Message) : (s.send m).gangs = s.gangs := rfl
@[simp] theorem State.send_cores (s : State) (m : Message) : (s.send m).cores = s.cores := rfl
@[simp] theorem State.send_clusters (s : State) (m : Message) : (s.send m).clusters = s.clusters := rfl
@[simp] theorem State.send_dies (s : State) (m : Message) : (s.send m).dies = s.dies := rfl
@[simp] theorem State.send_mem (s : State) (m : Message) : (s.send m).mem = s.mem := rfl
@[simp] theorem State.send_poison (s : State) (m : Message) : (s.send m).poison = s.poison := rfl
@[simp] theorem State.send_errors (s : State) (m : Message) : (s.send m).errors = s.errors := rfl
@[simp] theorem State.send_localErrors (s : State) (m : Message) : (s.send m).localErrors = s.localErrors := rfl
@[simp] theorem State.send_loose (s : State) (m : Message) : (s.send m).loose = s.loose := rfl
@[simp] theorem State.send_priors (s : State) (m : Message) : (s.send m).priors = s.priors := rfl
@[simp] theorem State.send_held (s : State) (m : Message) : (s.send m).held = s.held := rfl
@[simp] theorem State.send_time (s : State) (m : Message) : (s.send m).time = s.time := rfl
@[simp] theorem State.send_hbeat (s : State) (m : Message) : (s.send m).hbeat = s.hbeat := rfl
@[simp] theorem State.send_msplit (s : State) (m : Message) : (s.send m).msplit = s.msplit := rfl
@[simp] theorem State.send_cpool (s : State) (m : Message) : (s.send m).cpool = s.cpool := rfl
@[simp] theorem State.send_nextMsplit (s : State) (m : Message) : (s.send m).nextMsplit = s.nextMsplit := rfl
@[simp] theorem State.send_nextCpool (s : State) (m : Message) : (s.send m).nextCpool = s.nextCpool := rfl
@[simp] theorem State.send_launches (s : State) (m : Message) : (s.send m).launches = s.launches := rfl
@[simp] theorem State.send_saved (s : State) (m : Message) : (s.send m).saved = s.saved := rfl
@[simp] theorem State.send_nextKey (s : State) (m : Message) : (s.send m).nextKey = s.nextKey := rfl
@[simp] theorem State.send_fevent (s : State) (m : Message) : (s.send m).fevent = s.fevent := rfl
@[simp] theorem State.send_wmax (s : State) (m : Message) : (s.send m).wmax = s.wmax := rfl
@[simp] theorem State.send_plimit (s : State) (m : Message) : (s.send m).plimit = s.plimit := rfl
@[simp] theorem State.send_mclogUnits (s : State) (m : Message) : (s.send m).mclogUnits = s.mclogUnits := rfl
@[simp] theorem State.send_mclogBase (s : State) (m : Message) : (s.send m).mclogBase = s.mclogBase := rfl
@[simp] theorem State.send_mclogIndex (s : State) (m : Message) : (s.send m).mclogIndex = s.mclogIndex := rfl
@[simp] theorem State.send_bootdesc (s : State) (m : Message) : (s.send m).bootdesc = s.bootdesc := rfl
@[simp] theorem State.send_control (s : State) (m : Message) : (s.send m).control = s.control := rfl
@[simp] theorem State.send_inbound (s : State) (m : Message) : (s.send m).inbound = s.inbound := rfl
@[simp] theorem State.send_portStreams (s : State) (m : Message) : (s.send m).portStreams = s.portStreams := rfl
@[simp] theorem State.send_msix (s : State) (m : Message) : (s.send m).msix = s.msix := rfl
@[simp] theorem State.send_rings (s : State) (m : Message) : (s.send m).rings = s.rings := rfl
@[simp] theorem State.send_pree (s : State) (m : Message) : (s.send m).pree = s.pree := rfl
@[simp] theorem State.send_ports (s : State) (m : Message) : (s.send m).ports = s.ports := rfl
@[simp] theorem State.send_collectives (s : State) (m : Message) : (s.send m).collectives = s.collectives := rfl
@[simp] theorem State.send_collSeq (s : State) (m : Message) : (s.send m).collSeq = s.collSeq := rfl
@[simp] theorem State.send_late (s : State) (m : Message) : (s.send m).late = s.late := rfl
@[simp] theorem State.send_freezes (s : State) (m : Message) : (s.send m).freezes = s.freezes := rfl
@[simp] theorem State.send_portsHeld (s : State) (m : Message) : (s.send m).portsHeld = s.portsHeld := rfl
@[simp] theorem State.send_attached (s : State) (m : Message) : (s.send m).attached = s.attached := rfl
@[simp] theorem State.send_checkpoint (s : State) (m : Message) : (s.send m).checkpoint = s.checkpoint := rfl
@[simp] theorem State.send_crossed (s : State) (m : Message) : (s.send m).crossed = s.crossed := rfl
@[simp] theorem State.send_attesting (s : State) (m : Message) : (s.send m).attesting = s.attesting := rfl
@[simp] theorem State.send_fuses (s : State) (m : Message) : (s.send m).fuses = s.fuses := rfl
@[simp] theorem State.send_keys (s : State) (m : Message) : (s.send m).keys = s.keys := rfl
@[simp] theorem State.send_flash (s : State) (m : Message) : (s.send m).flash = s.flash := rfl
@[simp] theorem State.send_telemetryCount (s : State) (m : Message) : (s.send m).telemetryCount = s.telemetryCount := rfl
@[simp] theorem State.send_telemetryLatest (s : State) (m : Message) : (s.send m).telemetryLatest = s.telemetryLatest := rfl

@[simp] theorem State.send_outbox (s : State) (m : Message) : (s.send m).outbox = s.outbox ++ [m] := rfl

/-! ## Updates of a hart -/

@[simp] theorem Hart.wx_name (h : Hart) (r : BitVec 5) (w : Word) : (h.wx r w).name = h.name := by unfold Hart.wx; split <;> rfl
@[simp] theorem Hart.wx_core (h : Hart) (r : BitVec 5) (w : Word) : (h.wx r w).core = h.core := by unfold Hart.wx; split <;> rfl
@[simp] theorem Hart.wx_run (h : Hart) (r : BitVec 5) (w : Word) : (h.wx r w).run = h.run := by unfold Hart.wx; split <;> rfl
@[simp] theorem Hart.wx_frozen (h : Hart) (r : BitVec 5) (w : Word) : (h.wx r w).frozen = h.frozen := by unfold Hart.wx; split <;> rfl
@[simp] theorem Hart.wx_pc (h : Hart) (r : BitVec 5) (w : Word) : (h.wx r w).pc = h.pc := by unfold Hart.wx; split <;> rfl
@[simp] theorem Hart.wx_priv (h : Hart) (r : BitVec 5) (w : Word) : (h.wx r w).priv = h.priv := by unfold Hart.wx; split <;> rfl
@[simp] theorem Hart.wx_gated (h : Hart) (r : BitVec 5) (w : Word) : (h.wx r w).gated = h.gated := by unfold Hart.wx; split <;> rfl
@[simp] theorem Hart.wx_fm (h : Hart) (r : BitVec 5) (w : Word) : (h.wx r w).fm = h.fm := by unfold Hart.wx; split <;> rfl
@[simp] theorem Hart.wx_flags (h : Hart) (r : BitVec 5) (w : Word) : (h.wx r w).flags = h.flags := by unfold Hart.wx; split <;> rfl
@[simp] theorem Hart.wx_flagEn (h : Hart) (r : BitVec 5) (w : Word) : (h.wx r w).flagEn = h.flagEn := by unfold Hart.wx; split <;> rfl
@[simp] theorem Hart.wx_srgen (h : Hart) (r : BitVec 5) (w : Word) : (h.wx r w).srgen = h.srgen := by unfold Hart.wx; split <;> rfl
@[simp] theorem Hart.wx_instret (h : Hart) (r : BitVec 5) (w : Word) : (h.wx r w).instret = h.instret := by unfold Hart.wx; split <;> rfl
@[simp] theorem Hart.wx_retired (h : Hart) (r : BitVec 5) (w : Word) : (h.wx r w).retired = h.retired := by unfold Hart.wx; split <;> rfl
@[simp] theorem Hart.wx_hartidx (h : Hart) (r : BitVec 5) (w : Word) : (h.wx r w).hartidx = h.hartidx := by unfold Hart.wx; split <;> rfl
@[simp] theorem Hart.wx_stage (h : Hart) (r : BitVec 5) (w : Word) : (h.wx r w).stage = h.stage := by unfold Hart.wx; split <;> rfl
@[simp] theorem Hart.wx_gx (h : Hart) (r : BitVec 5) (w : Word) : (h.wx r w).gx = h.gx := by unfold Hart.wx; split <;> rfl
@[simp] theorem Hart.wx_gy (h : Hart) (r : BitVec 5) (w : Word) : (h.wx r w).gy = h.gy := by unfold Hart.wx; split <;> rfl
@[simp] theorem Hart.wx_gz (h : Hart) (r : BitVec 5) (w : Word) : (h.wx r w).gz = h.gz := by unfold Hart.wx; split <;> rfl
@[simp] theorem Hart.wx_grant (h : Hart) (r : BitVec 5) (w : Word) : (h.wx r w).grant = h.grant := by unfold Hart.wx; split <;> rfl
@[simp] theorem Hart.wx_vl (h : Hart) (r : BitVec 5) (w : Word) : (h.wx r w).vl = h.vl := by unfold Hart.wx; split <;> rfl
@[simp] theorem Hart.wx_vtype (h : Hart) (r : BitVec 5) (w : Word) : (h.wx r w).vtype = h.vtype := by unfold Hart.wx; split <;> rfl
@[simp] theorem Hart.wx_vprog (h : Hart) (r : BitVec 5) (w : Word) : (h.wx r w).vprog = h.vprog := by unfold Hart.wx; split <;> rfl
@[simp] theorem Hart.wx_vprogPc (h : Hart) (r : BitVec 5) (w : Word) : (h.wx r w).vprogPc = h.vprogPc := by unfold Hart.wx; split <;> rfl
@[simp] theorem Hart.wx_mid (h : Hart) (r : BitVec 5) (w : Word) : (h.wx r w).mid = h.mid := by unfold Hart.wx; split <;> rfl
@[simp] theorem Hart.wx_mmode (h : Hart) (r : BitVec 5) (w : Word) : (h.wx r w).mmode = h.mmode := by unfold Hart.wx; split <;> rfl
@[simp] theorem Hart.wx_v (h : Hart) (r : BitVec 5) (w : Word) : (h.wx r w).v = h.v := by unfold Hart.wx; split <;> rfl
@[simp] theorem Hart.wx_m (h : Hart) (r : BitVec 5) (w : Word) : (h.wx r w).m = h.m := by unfold Hart.wx; split <;> rfl
@[simp] theorem Hart.wx_unsure (h : Hart) (r : BitVec 5) (w : Word) : (h.wx r w).unsure = h.unsure := by unfold Hart.wx; split <;> rfl
@[simp] theorem Hart.wx_dq (h : Hart) (r : BitVec 5) (w : Word) : (h.wx r w).dq = h.dq := by unfold Hart.wx; split <;> rfl
@[simp] theorem Hart.wx_matrixFlag (h : Hart) (r : BitVec 5) (w : Word) : (h.wx r w).matrixFlag = h.matrixFlag := by unfold Hart.wx; split <;> rfl
@[simp] theorem Hart.wx_mode (h : Hart) (r : BitVec 5) (w : Word) : (h.wx r w).mode = h.mode := by unfold Hart.wx; split <;> rfl
@[simp] theorem Hart.wx_mchain (h : Hart) (r : BitVec 5) (w : Word) : (h.wx r w).mchain = h.mchain := by unfold Hart.wx; split <;> rfl
@[simp] theorem Hart.wx_tile (h : Hart) (r : BitVec 5) (w : Word) : (h.wx r w).tile = h.tile := by unfold Hart.wx; split <;> rfl
@[simp] theorem Hart.wx_cells (h : Hart) (r : BitVec 5) (w : Word) : (h.wx r w).cells = h.cells := by unfold Hart.wx; split <;> rfl
@[simp] theorem Hart.wx_heldFlags (h : Hart) (r : BitVec 5) (w : Word) : (h.wx r w).heldFlags = h.heldFlags := by unfold Hart.wx; split <;> rfl
@[simp] theorem Hart.wx_msc (h : Hart) (r : BitVec 5) (w : Word) : (h.wx r w).msc = h.msc := by unfold Hart.wx; split <;> rfl
@[simp] theorem Hart.wx_moff (h : Hart) (r : BitVec 5) (w : Word) : (h.wx r w).moff = h.moff := by unfold Hart.wx; split <;> rfl
@[simp] theorem Hart.wx_rcount (h : Hart) (r : BitVec 5) (w : Word) : (h.wx r w).rcount = h.rcount := by unfold Hart.wx; split <;> rfl
@[simp] theorem Hart.wx_xlat (h : Hart) (r : BitVec 5) (w : Word) : (h.wx r w).xlat = h.xlat := by unfold Hart.wx; split <;> rfl
@[simp] theorem Hart.wx_tlb (h : Hart) (r : BitVec 5) (w : Word) : (h.wx r w).tlb = h.tlb := by unfold Hart.wx; split <;> rfl
@[simp] theorem Hart.wx_ibuf (h : Hart) (r : BitVec 5) (w : Word) : (h.wx r w).ibuf = h.ibuf := by unfold Hart.wx; split <;> rfl
@[simp] theorem Hart.wx_fenced (h : Hart) (r : BitVec 5) (w : Word) : (h.wx r w).fenced = h.fenced := by unfold Hart.wx; split <;> rfl
@[simp] theorem Hart.wx_early (h : Hart) (r : BitVec 5) (w : Word) : (h.wx r w).early = h.early := by unfold Hart.wx; split <;> rfl
@[simp] theorem Hart.wx_tm (h : Hart) (r : BitVec 5) (w : Word) : (h.wx r w).tm = h.tm := by unfold Hart.wx; split <;> rfl
@[simp] theorem Hart.wx_word (h : Hart) (r : BitVec 5) (w : Word) : (h.wx r w).word = h.word := by unfold Hart.wx; split <;> rfl
@[simp] theorem Hart.wx_seqr (h : Hart) (r : BitVec 5) (w : Word) : (h.wx r w).seqr = h.seqr := by unfold Hart.wx; split <;> rfl
@[simp] theorem Hart.wx_gate (h : Hart) (r : BitVec 5) (w : Word) : (h.wx r w).gate = h.gate := by unfold Hart.wx; split <;> rfl
@[simp] theorem Hart.wx_trapvec (h : Hart) (r : BitVec 5) (w : Word) : (h.wx r w).trapvec = h.trapvec := by unfold Hart.wx; split <;> rfl
@[simp] theorem Hart.wx_abandon (h : Hart) (r : BitVec 5) (w : Word) : (h.wx r w).abandon = h.abandon := by unfold Hart.wx; split <;> rfl
@[simp] theorem Hart.wx_grace (h : Hart) (r : BitVec 5) (w : Word) : (h.wx r w).grace = h.grace := by unfold Hart.wx; split <;> rfl
@[simp] theorem Hart.wx_gtbase (h : Hart) (r : BitVec 5) (w : Word) : (h.wx r w).gtbase = h.gtbase := by unfold Hart.wx; split <;> rfl
@[simp] theorem Hart.wx_sup (h : Hart) (r : BitVec 5) (w : Word) : (h.wx r w).sup = h.sup := by unfold Hart.wx; split <;> rfl
@[simp] theorem Hart.wx_sscratch (h : Hart) (r : BitVec 5) (w : Word) : (h.wx r w).sscratch = h.sscratch := by unfold Hart.wx; split <;> rfl
@[simp] theorem Hart.wx_tie (h : Hart) (r : BitVec 5) (w : Word) : (h.wx r w).tie = h.tie := by unfold Hart.wx; split <;> rfl
@[simp] theorem Hart.wx_swe (h : Hart) (r : BitVec 5) (w : Word) : (h.wx r w).swe = h.swe := by unfold Hart.wx; split <;> rfl
@[simp] theorem Hart.wx_eve (h : Hart) (r : BitVec 5) (w : Word) : (h.wx r w).eve = h.eve := by unfold Hart.wx; split <;> rfl
@[simp] theorem Hart.wx_swp (h : Hart) (r : BitVec 5) (w : Word) : (h.wx r w).swp = h.swp := by unfold Hart.wx; split <;> rfl
@[simp] theorem Hart.wx_sevent (h : Hart) (r : BitVec 5) (w : Word) : (h.wx r w).sevent = h.sevent := by unfold Hart.wx; split <;> rfl
@[simp] theorem Hart.wx_stimecmp (h : Hart) (r : BitVec 5) (w : Word) : (h.wx r w).stimecmp = h.stimecmp := by unfold Hart.wx; split <;> rfl
@[simp] theorem Hart.wx_fvec (h : Hart) (r : BitVec 5) (w : Word) : (h.wx r w).fvec = h.fvec := by unfold Hart.wx; split <;> rfl
@[simp] theorem Hart.wx_fw (h : Hart) (r : BitVec 5) (w : Word) : (h.wx r w).fw = h.fw := by unfold Hart.wx; split <;> rfl
@[simp] theorem Hart.wx_dbg (h : Hart) (r : BitVec 5) (w : Word) : (h.wx r w).dbg = h.dbg := by unfold Hart.wx; split <;> rfl
@[simp] theorem Hart.wx_eq (h : Hart) (r : BitVec 5) (w : Word) : (h.wx r w).eq = h.eq := by unfold Hart.wx; split <;> rfl
@[simp] theorem Hart.wx_placed (h : Hart) (r : BitVec 5) (w : Word) : (h.wx r w).placed = h.placed := by unfold Hart.wx; split <;> rfl
@[simp] theorem Hart.wx_pending (h : Hart) (r : BitVec 5) (w : Word) : (h.wx r w).pending = h.pending := by unfold Hart.wx; split <;> rfl
@[simp] theorem Hart.wx_wake (h : Hart) (r : BitVec 5) (w : Word) : (h.wx r w).wake = h.wake := by unfold Hart.wx; split <;> rfl
@[simp] theorem Hart.wx_wait (h : Hart) (r : BitVec 5) (w : Word) : (h.wx r w).wait = h.wait := by unfold Hart.wx; split <;> rfl
@[simp] theorem Hart.wx_linkHold (h : Hart) (r : BitVec 5) (w : Word) : (h.wx r w).linkHold = h.linkHold := by unfold Hart.wx; split <;> rfl
@[simp] theorem Hart.wx_arrayAt (h : Hart) (r : BitVec 5) (w : Word) : (h.wx r w).arrayAt = h.arrayAt := by unfold Hart.wx; split <;> rfl
@[simp] theorem Hart.wx_partLoad (h : Hart) (r : BitVec 5) (w : Word) : (h.wx r w).partLoad = h.partLoad := by unfold Hart.wx; split <;> rfl
@[simp] theorem Hart.wx_touched (h : Hart) (r : BitVec 5) (w : Word) : (h.wx r w).touched = h.touched := by unfold Hart.wx; split <;> rfl
@[simp] theorem Hart.wx_vprogs (h : Hart) (r : BitVec 5) (w : Word) : (h.wx r w).vprogs = h.vprogs := by unfold Hart.wx; split <;> rfl
@[simp] theorem Hart.wx_wq (h : Hart) (r : BitVec 5) (w : Word) : (h.wx r w).wq = h.wq := by unfold Hart.wx; split <;> rfl
@[simp] theorem Hart.wx_credit (h : Hart) (r : BitVec 5) (w : Word) : (h.wx r w).credit = h.credit := by unfold Hart.wx; split <;> rfl
@[simp] theorem Hart.wx_issued (h : Hart) (r : BitVec 5) (w : Word) : (h.wx r w).issued = h.issued := by unfold Hart.wx; split <;> rfl
@[simp] theorem Hart.wx_joined (h : Hart) (r : BitVec 5) (w : Word) : (h.wx r w).joined = h.joined := by unfold Hart.wx; split <;> rfl
@[simp] theorem Hart.wx_arrGang (h : Hart) (r : BitVec 5) (w : Word) : (h.wx r w).arrGang = h.arrGang := by unfold Hart.wx; split <;> rfl
@[simp] theorem Hart.wx_arrStage (h : Hart) (r : BitVec 5) (w : Word) : (h.wx r w).arrStage = h.arrStage := by unfold Hart.wx; split <;> rfl
@[simp] theorem Hart.wx_tcmBase (h : Hart) (r : BitVec 5) (w : Word) : (h.wx r w).tcmBase = h.tcmBase := by unfold Hart.wx; split <;> rfl
@[simp] theorem Hart.wx_tcmUnits (h : Hart) (r : BitVec 5) (w : Word) : (h.wx r w).tcmUnits = h.tcmUnits := by unfold Hart.wx; split <;> rfl
@[simp] theorem Hart.wx_stopAt (h : Hart) (r : BitVec 5) (w : Word) : (h.wx r w).stopAt = h.stopAt := by unfold Hart.wx; split <;> rfl
@[simp] theorem Hart.wx_migrating (h : Hart) (r : BitVec 5) (w : Word) : (h.wx r w).migrating = h.migrating := by unfold Hart.wx; split <;> rfl
@[simp] theorem Hart.wx_seatless (h : Hart) (r : BitVec 5) (w : Word) : (h.wx r w).seatless = h.seatless := by unfold Hart.wx; split <;> rfl
@[simp] theorem Hart.wx_quiet (h : Hart) (r : BitVec 5) (w : Word) : (h.wx r w).quiet = h.quiet := by unfold Hart.wx; split <;> rfl
@[simp] theorem Hart.wx_fate (h : Hart) (r : BitVec 5) (w : Word) : (h.wx r w).fate = h.fate := by unfold Hart.wx; split <;> rfl

@[simp] theorem Hart.count_name (h : Hart)  : (h.count).name = h.name := rfl
@[simp] theorem Hart.count_core (h : Hart)  : (h.count).core = h.core := rfl
@[simp] theorem Hart.count_run (h : Hart)  : (h.count).run = h.run := rfl
@[simp] theorem Hart.count_frozen (h : Hart)  : (h.count).frozen = h.frozen := rfl
@[simp] theorem Hart.count_pc (h : Hart)  : (h.count).pc = h.pc := rfl
@[simp] theorem Hart.count_x (h : Hart)  : (h.count).x = h.x := rfl
@[simp] theorem Hart.count_priv (h : Hart)  : (h.count).priv = h.priv := rfl
@[simp] theorem Hart.count_gated (h : Hart)  : (h.count).gated = h.gated := rfl
@[simp] theorem Hart.count_fm (h : Hart)  : (h.count).fm = h.fm := rfl
@[simp] theorem Hart.count_flags (h : Hart)  : (h.count).flags = h.flags := rfl
@[simp] theorem Hart.count_flagEn (h : Hart)  : (h.count).flagEn = h.flagEn := rfl
@[simp] theorem Hart.count_srgen (h : Hart)  : (h.count).srgen = h.srgen := rfl
@[simp] theorem Hart.count_hartidx (h : Hart)  : (h.count).hartidx = h.hartidx := rfl
@[simp] theorem Hart.count_stage (h : Hart)  : (h.count).stage = h.stage := rfl
@[simp] theorem Hart.count_gx (h : Hart)  : (h.count).gx = h.gx := rfl
@[simp] theorem Hart.count_gy (h : Hart)  : (h.count).gy = h.gy := rfl
@[simp] theorem Hart.count_gz (h : Hart)  : (h.count).gz = h.gz := rfl
@[simp] theorem Hart.count_grant (h : Hart)  : (h.count).grant = h.grant := rfl
@[simp] theorem Hart.count_vl (h : Hart)  : (h.count).vl = h.vl := rfl
@[simp] theorem Hart.count_vtype (h : Hart)  : (h.count).vtype = h.vtype := rfl
@[simp] theorem Hart.count_vprogPc (h : Hart)  : (h.count).vprogPc = h.vprogPc := rfl
@[simp] theorem Hart.count_mid (h : Hart)  : (h.count).mid = h.mid := rfl
@[simp] theorem Hart.count_mmode (h : Hart)  : (h.count).mmode = h.mmode := rfl
@[simp] theorem Hart.count_v (h : Hart)  : (h.count).v = h.v := rfl
@[simp] theorem Hart.count_m (h : Hart)  : (h.count).m = h.m := rfl
@[simp] theorem Hart.count_unsure (h : Hart)  : (h.count).unsure = h.unsure := rfl
@[simp] theorem Hart.count_dq (h : Hart)  : (h.count).dq = h.dq := rfl
@[simp] theorem Hart.count_matrixFlag (h : Hart)  : (h.count).matrixFlag = h.matrixFlag := rfl
@[simp] theorem Hart.count_mode (h : Hart)  : (h.count).mode = h.mode := rfl
@[simp] theorem Hart.count_mchain (h : Hart)  : (h.count).mchain = h.mchain := rfl
@[simp] theorem Hart.count_tile (h : Hart)  : (h.count).tile = h.tile := rfl
@[simp] theorem Hart.count_cells (h : Hart)  : (h.count).cells = h.cells := rfl
@[simp] theorem Hart.count_heldFlags (h : Hart)  : (h.count).heldFlags = h.heldFlags := rfl
@[simp] theorem Hart.count_msc (h : Hart)  : (h.count).msc = h.msc := rfl
@[simp] theorem Hart.count_moff (h : Hart)  : (h.count).moff = h.moff := rfl
@[simp] theorem Hart.count_rcount (h : Hart)  : (h.count).rcount = h.rcount := rfl
@[simp] theorem Hart.count_xlat (h : Hart)  : (h.count).xlat = h.xlat := rfl
@[simp] theorem Hart.count_tlb (h : Hart)  : (h.count).tlb = h.tlb := rfl
@[simp] theorem Hart.count_ibuf (h : Hart)  : (h.count).ibuf = h.ibuf := rfl
@[simp] theorem Hart.count_fenced (h : Hart)  : (h.count).fenced = h.fenced := rfl
@[simp] theorem Hart.count_early (h : Hart)  : (h.count).early = h.early := rfl
@[simp] theorem Hart.count_tm (h : Hart)  : (h.count).tm = h.tm := rfl
@[simp] theorem Hart.count_word (h : Hart)  : (h.count).word = h.word := rfl
@[simp] theorem Hart.count_seqr (h : Hart)  : (h.count).seqr = h.seqr := rfl
@[simp] theorem Hart.count_gate (h : Hart)  : (h.count).gate = h.gate := rfl
@[simp] theorem Hart.count_trapvec (h : Hart)  : (h.count).trapvec = h.trapvec := rfl
@[simp] theorem Hart.count_abandon (h : Hart)  : (h.count).abandon = h.abandon := rfl
@[simp] theorem Hart.count_grace (h : Hart)  : (h.count).grace = h.grace := rfl
@[simp] theorem Hart.count_gtbase (h : Hart)  : (h.count).gtbase = h.gtbase := rfl
@[simp] theorem Hart.count_sup (h : Hart)  : (h.count).sup = h.sup := rfl
@[simp] theorem Hart.count_sscratch (h : Hart)  : (h.count).sscratch = h.sscratch := rfl
@[simp] theorem Hart.count_tie (h : Hart)  : (h.count).tie = h.tie := rfl
@[simp] theorem Hart.count_swe (h : Hart)  : (h.count).swe = h.swe := rfl
@[simp] theorem Hart.count_eve (h : Hart)  : (h.count).eve = h.eve := rfl
@[simp] theorem Hart.count_swp (h : Hart)  : (h.count).swp = h.swp := rfl
@[simp] theorem Hart.count_sevent (h : Hart)  : (h.count).sevent = h.sevent := rfl
@[simp] theorem Hart.count_stimecmp (h : Hart)  : (h.count).stimecmp = h.stimecmp := rfl
@[simp] theorem Hart.count_fvec (h : Hart)  : (h.count).fvec = h.fvec := rfl
@[simp] theorem Hart.count_fw (h : Hart)  : (h.count).fw = h.fw := rfl
@[simp] theorem Hart.count_eq (h : Hart)  : (h.count).eq = h.eq := rfl
@[simp] theorem Hart.count_placed (h : Hart)  : (h.count).placed = h.placed := rfl
@[simp] theorem Hart.count_pending (h : Hart)  : (h.count).pending = h.pending := rfl
@[simp] theorem Hart.count_wake (h : Hart)  : (h.count).wake = h.wake := rfl
@[simp] theorem Hart.count_vprogs (h : Hart)  : (h.count).vprogs = h.vprogs := rfl
@[simp] theorem Hart.count_wq (h : Hart)  : (h.count).wq = h.wq := rfl
@[simp] theorem Hart.count_credit (h : Hart)  : (h.count).credit = h.credit := rfl
@[simp] theorem Hart.count_issued (h : Hart)  : (h.count).issued = h.issued := rfl
@[simp] theorem Hart.count_joined (h : Hart)  : (h.count).joined = h.joined := rfl
@[simp] theorem Hart.count_arrGang (h : Hart)  : (h.count).arrGang = h.arrGang := rfl
@[simp] theorem Hart.count_arrStage (h : Hart)  : (h.count).arrStage = h.arrStage := rfl
@[simp] theorem Hart.count_tcmBase (h : Hart)  : (h.count).tcmBase = h.tcmBase := rfl
@[simp] theorem Hart.count_tcmUnits (h : Hart)  : (h.count).tcmUnits = h.tcmUnits := rfl
@[simp] theorem Hart.count_migrating (h : Hart)  : (h.count).migrating = h.migrating := rfl
@[simp] theorem Hart.count_seatless (h : Hart)  : (h.count).seatless = h.seatless := rfl

@[simp] theorem Hart.count_instret (h : Hart) : h.count.instret = h.instret + 1 := rfl
@[simp] theorem Hart.count_retired (h : Hart) : h.count.retired = h.retired + 1 := rfl
@[simp] theorem Hart.count_vprog (h : Hart) : h.count.vprog = 0 := rfl
@[simp] theorem Hart.count_wait (h : Hart) : h.count.wait = none := rfl
@[simp] theorem Hart.count_linkHold (h : Hart) : h.count.linkHold = none := rfl
@[simp] theorem Hart.count_arrayAt (h : Hart) : h.count.arrayAt = 0 := rfl
@[simp] theorem Hart.count_partLoad (h : Hart) : h.count.partLoad = none := rfl
@[simp] theorem Hart.count_touched (h : Hart) : h.count.touched = [] := rfl
@[simp] theorem Hart.count_stopAt (h : Hart) : h.count.stopAt = none := rfl
@[simp] theorem Hart.count_quiet (h : Hart) : h.count.quiet = false := rfl
@[simp] theorem Hart.count_fate (h : Hart) : h.count.fate = .retired := rfl
@[simp] theorem Hart.count_dbg (h : Hart) : h.count.dbg = { h.dbg with passBreak := false } := rfl

@[simp] theorem Hart.retireTo_name (h : Hart) (t : Word) : (h.retireTo t).name = h.name := rfl
@[simp] theorem Hart.retireTo_core (h : Hart) (t : Word) : (h.retireTo t).core = h.core := rfl
@[simp] theorem Hart.retireTo_run (h : Hart) (t : Word) : (h.retireTo t).run = h.run := rfl
@[simp] theorem Hart.retireTo_frozen (h : Hart) (t : Word) : (h.retireTo t).frozen = h.frozen := rfl
@[simp] theorem Hart.retireTo_x (h : Hart) (t : Word) : (h.retireTo t).x = h.x := rfl
@[simp] theorem Hart.retireTo_priv (h : Hart) (t : Word) : (h.retireTo t).priv = h.priv := rfl
@[simp] theorem Hart.retireTo_gated (h : Hart) (t : Word) : (h.retireTo t).gated = h.gated := rfl
@[simp] theorem Hart.retireTo_fm (h : Hart) (t : Word) : (h.retireTo t).fm = h.fm := rfl
@[simp] theorem Hart.retireTo_flags (h : Hart) (t : Word) : (h.retireTo t).flags = h.flags := rfl
@[simp] theorem Hart.retireTo_flagEn (h : Hart) (t : Word) : (h.retireTo t).flagEn = h.flagEn := rfl
@[simp] theorem Hart.retireTo_srgen (h : Hart) (t : Word) : (h.retireTo t).srgen = h.srgen := rfl
@[simp] theorem Hart.retireTo_hartidx (h : Hart) (t : Word) : (h.retireTo t).hartidx = h.hartidx := rfl
@[simp] theorem Hart.retireTo_stage (h : Hart) (t : Word) : (h.retireTo t).stage = h.stage := rfl
@[simp] theorem Hart.retireTo_gx (h : Hart) (t : Word) : (h.retireTo t).gx = h.gx := rfl
@[simp] theorem Hart.retireTo_gy (h : Hart) (t : Word) : (h.retireTo t).gy = h.gy := rfl
@[simp] theorem Hart.retireTo_gz (h : Hart) (t : Word) : (h.retireTo t).gz = h.gz := rfl
@[simp] theorem Hart.retireTo_grant (h : Hart) (t : Word) : (h.retireTo t).grant = h.grant := rfl
@[simp] theorem Hart.retireTo_vl (h : Hart) (t : Word) : (h.retireTo t).vl = h.vl := rfl
@[simp] theorem Hart.retireTo_vtype (h : Hart) (t : Word) : (h.retireTo t).vtype = h.vtype := rfl
@[simp] theorem Hart.retireTo_vprogPc (h : Hart) (t : Word) : (h.retireTo t).vprogPc = h.vprogPc := rfl
@[simp] theorem Hart.retireTo_mid (h : Hart) (t : Word) : (h.retireTo t).mid = h.mid := rfl
@[simp] theorem Hart.retireTo_mmode (h : Hart) (t : Word) : (h.retireTo t).mmode = h.mmode := rfl
@[simp] theorem Hart.retireTo_v (h : Hart) (t : Word) : (h.retireTo t).v = h.v := rfl
@[simp] theorem Hart.retireTo_m (h : Hart) (t : Word) : (h.retireTo t).m = h.m := rfl
@[simp] theorem Hart.retireTo_unsure (h : Hart) (t : Word) : (h.retireTo t).unsure = h.unsure := rfl
@[simp] theorem Hart.retireTo_dq (h : Hart) (t : Word) : (h.retireTo t).dq = h.dq := rfl
@[simp] theorem Hart.retireTo_matrixFlag (h : Hart) (t : Word) : (h.retireTo t).matrixFlag = h.matrixFlag := rfl
@[simp] theorem Hart.retireTo_mode (h : Hart) (t : Word) : (h.retireTo t).mode = h.mode := rfl
@[simp] theorem Hart.retireTo_mchain (h : Hart) (t : Word) : (h.retireTo t).mchain = h.mchain := rfl
@[simp] theorem Hart.retireTo_tile (h : Hart) (t : Word) : (h.retireTo t).tile = h.tile := rfl
@[simp] theorem Hart.retireTo_cells (h : Hart) (t : Word) : (h.retireTo t).cells = h.cells := rfl
@[simp] theorem Hart.retireTo_heldFlags (h : Hart) (t : Word) : (h.retireTo t).heldFlags = h.heldFlags := rfl
@[simp] theorem Hart.retireTo_msc (h : Hart) (t : Word) : (h.retireTo t).msc = h.msc := rfl
@[simp] theorem Hart.retireTo_moff (h : Hart) (t : Word) : (h.retireTo t).moff = h.moff := rfl
@[simp] theorem Hart.retireTo_rcount (h : Hart) (t : Word) : (h.retireTo t).rcount = h.rcount := rfl
@[simp] theorem Hart.retireTo_xlat (h : Hart) (t : Word) : (h.retireTo t).xlat = h.xlat := rfl
@[simp] theorem Hart.retireTo_tlb (h : Hart) (t : Word) : (h.retireTo t).tlb = h.tlb := rfl
@[simp] theorem Hart.retireTo_ibuf (h : Hart) (t : Word) : (h.retireTo t).ibuf = h.ibuf := rfl
@[simp] theorem Hart.retireTo_fenced (h : Hart) (t : Word) : (h.retireTo t).fenced = h.fenced := rfl
@[simp] theorem Hart.retireTo_early (h : Hart) (t : Word) : (h.retireTo t).early = h.early := rfl
@[simp] theorem Hart.retireTo_tm (h : Hart) (t : Word) : (h.retireTo t).tm = h.tm := rfl
@[simp] theorem Hart.retireTo_word (h : Hart) (t : Word) : (h.retireTo t).word = h.word := rfl
@[simp] theorem Hart.retireTo_seqr (h : Hart) (t : Word) : (h.retireTo t).seqr = h.seqr := rfl
@[simp] theorem Hart.retireTo_gate (h : Hart) (t : Word) : (h.retireTo t).gate = h.gate := rfl
@[simp] theorem Hart.retireTo_trapvec (h : Hart) (t : Word) : (h.retireTo t).trapvec = h.trapvec := rfl
@[simp] theorem Hart.retireTo_abandon (h : Hart) (t : Word) : (h.retireTo t).abandon = h.abandon := rfl
@[simp] theorem Hart.retireTo_grace (h : Hart) (t : Word) : (h.retireTo t).grace = h.grace := rfl
@[simp] theorem Hart.retireTo_gtbase (h : Hart) (t : Word) : (h.retireTo t).gtbase = h.gtbase := rfl
@[simp] theorem Hart.retireTo_sup (h : Hart) (t : Word) : (h.retireTo t).sup = h.sup := rfl
@[simp] theorem Hart.retireTo_sscratch (h : Hart) (t : Word) : (h.retireTo t).sscratch = h.sscratch := rfl
@[simp] theorem Hart.retireTo_tie (h : Hart) (t : Word) : (h.retireTo t).tie = h.tie := rfl
@[simp] theorem Hart.retireTo_swe (h : Hart) (t : Word) : (h.retireTo t).swe = h.swe := rfl
@[simp] theorem Hart.retireTo_eve (h : Hart) (t : Word) : (h.retireTo t).eve = h.eve := rfl
@[simp] theorem Hart.retireTo_swp (h : Hart) (t : Word) : (h.retireTo t).swp = h.swp := rfl
@[simp] theorem Hart.retireTo_sevent (h : Hart) (t : Word) : (h.retireTo t).sevent = h.sevent := rfl
@[simp] theorem Hart.retireTo_stimecmp (h : Hart) (t : Word) : (h.retireTo t).stimecmp = h.stimecmp := rfl
@[simp] theorem Hart.retireTo_fvec (h : Hart) (t : Word) : (h.retireTo t).fvec = h.fvec := rfl
@[simp] theorem Hart.retireTo_fw (h : Hart) (t : Word) : (h.retireTo t).fw = h.fw := rfl
@[simp] theorem Hart.retireTo_eq (h : Hart) (t : Word) : (h.retireTo t).eq = h.eq := rfl
@[simp] theorem Hart.retireTo_placed (h : Hart) (t : Word) : (h.retireTo t).placed = h.placed := rfl
@[simp] theorem Hart.retireTo_pending (h : Hart) (t : Word) : (h.retireTo t).pending = h.pending := rfl
@[simp] theorem Hart.retireTo_wake (h : Hart) (t : Word) : (h.retireTo t).wake = h.wake := rfl
@[simp] theorem Hart.retireTo_vprogs (h : Hart) (t : Word) : (h.retireTo t).vprogs = h.vprogs := rfl
@[simp] theorem Hart.retireTo_wq (h : Hart) (t : Word) : (h.retireTo t).wq = h.wq := rfl
@[simp] theorem Hart.retireTo_credit (h : Hart) (t : Word) : (h.retireTo t).credit = h.credit := rfl
@[simp] theorem Hart.retireTo_issued (h : Hart) (t : Word) : (h.retireTo t).issued = h.issued := rfl
@[simp] theorem Hart.retireTo_joined (h : Hart) (t : Word) : (h.retireTo t).joined = h.joined := rfl
@[simp] theorem Hart.retireTo_arrGang (h : Hart) (t : Word) : (h.retireTo t).arrGang = h.arrGang := rfl
@[simp] theorem Hart.retireTo_arrStage (h : Hart) (t : Word) : (h.retireTo t).arrStage = h.arrStage := rfl
@[simp] theorem Hart.retireTo_tcmBase (h : Hart) (t : Word) : (h.retireTo t).tcmBase = h.tcmBase := rfl
@[simp] theorem Hart.retireTo_tcmUnits (h : Hart) (t : Word) : (h.retireTo t).tcmUnits = h.tcmUnits := rfl
@[simp] theorem Hart.retireTo_migrating (h : Hart) (t : Word) : (h.retireTo t).migrating = h.migrating := rfl
@[simp] theorem Hart.retireTo_seatless (h : Hart) (t : Word) : (h.retireTo t).seatless = h.seatless := rfl

@[simp] theorem Hart.retireTo_instret (h : Hart) (t : Word) : (h.retireTo t).instret = h.instret + 1 := rfl
@[simp] theorem Hart.retireTo_retired (h : Hart) (t : Word) : (h.retireTo t).retired = h.retired + 1 := rfl
@[simp] theorem Hart.retireTo_vprog (h : Hart) (t : Word) : (h.retireTo t).vprog = 0 := rfl
@[simp] theorem Hart.retireTo_wait (h : Hart) (t : Word) : (h.retireTo t).wait = none := rfl
@[simp] theorem Hart.retireTo_linkHold (h : Hart) (t : Word) : (h.retireTo t).linkHold = none := rfl
@[simp] theorem Hart.retireTo_arrayAt (h : Hart) (t : Word) : (h.retireTo t).arrayAt = 0 := rfl
@[simp] theorem Hart.retireTo_partLoad (h : Hart) (t : Word) : (h.retireTo t).partLoad = none := rfl
@[simp] theorem Hart.retireTo_touched (h : Hart) (t : Word) : (h.retireTo t).touched = [] := rfl
@[simp] theorem Hart.retireTo_stopAt (h : Hart) (t : Word) : (h.retireTo t).stopAt = none := rfl
@[simp] theorem Hart.retireTo_quiet (h : Hart) (t : Word) : (h.retireTo t).quiet = false := rfl
@[simp] theorem Hart.retireTo_fate (h : Hart) (t : Word) : (h.retireTo t).fate = .retired := rfl
@[simp] theorem Hart.retireTo_dbg (h : Hart) (t : Word) : (h.retireTo t).dbg = { h.dbg with passBreak := false } := rfl
@[simp] theorem Hart.retireTo_pc (h : Hart) (t : Word) : (h.retireTo t).pc = t := rfl

@[simp] theorem Hart.setVword_name (h : Hart) (r w : Nat) (x : Word) : (h.setVword r w x).name = h.name := rfl
@[simp] theorem Hart.setVword_core (h : Hart) (r w : Nat) (x : Word) : (h.setVword r w x).core = h.core := rfl
@[simp] theorem Hart.setVword_run (h : Hart) (r w : Nat) (x : Word) : (h.setVword r w x).run = h.run := rfl
@[simp] theorem Hart.setVword_frozen (h : Hart) (r w : Nat) (x : Word) : (h.setVword r w x).frozen = h.frozen := rfl
@[simp] theorem Hart.setVword_pc (h : Hart) (r w : Nat) (x : Word) : (h.setVword r w x).pc = h.pc := rfl
@[simp] theorem Hart.setVword_x (h : Hart) (r w : Nat) (x : Word) : (h.setVword r w x).x = h.x := rfl
@[simp] theorem Hart.setVword_priv (h : Hart) (r w : Nat) (x : Word) : (h.setVword r w x).priv = h.priv := rfl
@[simp] theorem Hart.setVword_gated (h : Hart) (r w : Nat) (x : Word) : (h.setVword r w x).gated = h.gated := rfl
@[simp] theorem Hart.setVword_fm (h : Hart) (r w : Nat) (x : Word) : (h.setVword r w x).fm = h.fm := rfl
@[simp] theorem Hart.setVword_flags (h : Hart) (r w : Nat) (x : Word) : (h.setVword r w x).flags = h.flags := rfl
@[simp] theorem Hart.setVword_flagEn (h : Hart) (r w : Nat) (x : Word) : (h.setVword r w x).flagEn = h.flagEn := rfl
@[simp] theorem Hart.setVword_srgen (h : Hart) (r w : Nat) (x : Word) : (h.setVword r w x).srgen = h.srgen := rfl
@[simp] theorem Hart.setVword_instret (h : Hart) (r w : Nat) (x : Word) : (h.setVword r w x).instret = h.instret := rfl
@[simp] theorem Hart.setVword_retired (h : Hart) (r w : Nat) (x : Word) : (h.setVword r w x).retired = h.retired := rfl
@[simp] theorem Hart.setVword_hartidx (h : Hart) (r w : Nat) (x : Word) : (h.setVword r w x).hartidx = h.hartidx := rfl
@[simp] theorem Hart.setVword_stage (h : Hart) (r w : Nat) (x : Word) : (h.setVword r w x).stage = h.stage := rfl
@[simp] theorem Hart.setVword_gx (h : Hart) (r w : Nat) (x : Word) : (h.setVword r w x).gx = h.gx := rfl
@[simp] theorem Hart.setVword_gy (h : Hart) (r w : Nat) (x : Word) : (h.setVword r w x).gy = h.gy := rfl
@[simp] theorem Hart.setVword_gz (h : Hart) (r w : Nat) (x : Word) : (h.setVword r w x).gz = h.gz := rfl
@[simp] theorem Hart.setVword_grant (h : Hart) (r w : Nat) (x : Word) : (h.setVword r w x).grant = h.grant := rfl
@[simp] theorem Hart.setVword_vl (h : Hart) (r w : Nat) (x : Word) : (h.setVword r w x).vl = h.vl := rfl
@[simp] theorem Hart.setVword_vtype (h : Hart) (r w : Nat) (x : Word) : (h.setVword r w x).vtype = h.vtype := rfl
@[simp] theorem Hart.setVword_vprog (h : Hart) (r w : Nat) (x : Word) : (h.setVword r w x).vprog = h.vprog := rfl
@[simp] theorem Hart.setVword_vprogPc (h : Hart) (r w : Nat) (x : Word) : (h.setVword r w x).vprogPc = h.vprogPc := rfl
@[simp] theorem Hart.setVword_mid (h : Hart) (r w : Nat) (x : Word) : (h.setVword r w x).mid = h.mid := rfl
@[simp] theorem Hart.setVword_mmode (h : Hart) (r w : Nat) (x : Word) : (h.setVword r w x).mmode = h.mmode := rfl
@[simp] theorem Hart.setVword_m (h : Hart) (r w : Nat) (x : Word) : (h.setVword r w x).m = h.m := rfl
@[simp] theorem Hart.setVword_dq (h : Hart) (r w : Nat) (x : Word) : (h.setVword r w x).dq = h.dq := rfl
@[simp] theorem Hart.setVword_matrixFlag (h : Hart) (r w : Nat) (x : Word) : (h.setVword r w x).matrixFlag = h.matrixFlag := rfl
@[simp] theorem Hart.setVword_mode (h : Hart) (r w : Nat) (x : Word) : (h.setVword r w x).mode = h.mode := rfl
@[simp] theorem Hart.setVword_mchain (h : Hart) (r w : Nat) (x : Word) : (h.setVword r w x).mchain = h.mchain := rfl
@[simp] theorem Hart.setVword_tile (h : Hart) (r w : Nat) (x : Word) : (h.setVword r w x).tile = h.tile := rfl
@[simp] theorem Hart.setVword_cells (h : Hart) (r w : Nat) (x : Word) : (h.setVword r w x).cells = h.cells := rfl
@[simp] theorem Hart.setVword_heldFlags (h : Hart) (r w : Nat) (x : Word) : (h.setVword r w x).heldFlags = h.heldFlags := rfl
@[simp] theorem Hart.setVword_msc (h : Hart) (r w : Nat) (x : Word) : (h.setVword r w x).msc = h.msc := rfl
@[simp] theorem Hart.setVword_moff (h : Hart) (r w : Nat) (x : Word) : (h.setVword r w x).moff = h.moff := rfl
@[simp] theorem Hart.setVword_rcount (h : Hart) (r w : Nat) (x : Word) : (h.setVword r w x).rcount = h.rcount := rfl
@[simp] theorem Hart.setVword_xlat (h : Hart) (r w : Nat) (x : Word) : (h.setVword r w x).xlat = h.xlat := rfl
@[simp] theorem Hart.setVword_tlb (h : Hart) (r w : Nat) (x : Word) : (h.setVword r w x).tlb = h.tlb := rfl
@[simp] theorem Hart.setVword_ibuf (h : Hart) (r w : Nat) (x : Word) : (h.setVword r w x).ibuf = h.ibuf := rfl
@[simp] theorem Hart.setVword_fenced (h : Hart) (r w : Nat) (x : Word) : (h.setVword r w x).fenced = h.fenced := rfl
@[simp] theorem Hart.setVword_early (h : Hart) (r w : Nat) (x : Word) : (h.setVword r w x).early = h.early := rfl
@[simp] theorem Hart.setVword_tm (h : Hart) (r w : Nat) (x : Word) : (h.setVword r w x).tm = h.tm := rfl
@[simp] theorem Hart.setVword_word (h : Hart) (r w : Nat) (x : Word) : (h.setVword r w x).word = h.word := rfl
@[simp] theorem Hart.setVword_seqr (h : Hart) (r w : Nat) (x : Word) : (h.setVword r w x).seqr = h.seqr := rfl
@[simp] theorem Hart.setVword_gate (h : Hart) (r w : Nat) (x : Word) : (h.setVword r w x).gate = h.gate := rfl
@[simp] theorem Hart.setVword_trapvec (h : Hart) (r w : Nat) (x : Word) : (h.setVword r w x).trapvec = h.trapvec := rfl
@[simp] theorem Hart.setVword_abandon (h : Hart) (r w : Nat) (x : Word) : (h.setVword r w x).abandon = h.abandon := rfl
@[simp] theorem Hart.setVword_grace (h : Hart) (r w : Nat) (x : Word) : (h.setVword r w x).grace = h.grace := rfl
@[simp] theorem Hart.setVword_gtbase (h : Hart) (r w : Nat) (x : Word) : (h.setVword r w x).gtbase = h.gtbase := rfl
@[simp] theorem Hart.setVword_sup (h : Hart) (r w : Nat) (x : Word) : (h.setVword r w x).sup = h.sup := rfl
@[simp] theorem Hart.setVword_sscratch (h : Hart) (r w : Nat) (x : Word) : (h.setVword r w x).sscratch = h.sscratch := rfl
@[simp] theorem Hart.setVword_tie (h : Hart) (r w : Nat) (x : Word) : (h.setVword r w x).tie = h.tie := rfl
@[simp] theorem Hart.setVword_swe (h : Hart) (r w : Nat) (x : Word) : (h.setVword r w x).swe = h.swe := rfl
@[simp] theorem Hart.setVword_eve (h : Hart) (r w : Nat) (x : Word) : (h.setVword r w x).eve = h.eve := rfl
@[simp] theorem Hart.setVword_swp (h : Hart) (r w : Nat) (x : Word) : (h.setVword r w x).swp = h.swp := rfl
@[simp] theorem Hart.setVword_sevent (h : Hart) (r w : Nat) (x : Word) : (h.setVword r w x).sevent = h.sevent := rfl
@[simp] theorem Hart.setVword_stimecmp (h : Hart) (r w : Nat) (x : Word) : (h.setVword r w x).stimecmp = h.stimecmp := rfl
@[simp] theorem Hart.setVword_fvec (h : Hart) (r w : Nat) (x : Word) : (h.setVword r w x).fvec = h.fvec := rfl
@[simp] theorem Hart.setVword_fw (h : Hart) (r w : Nat) (x : Word) : (h.setVword r w x).fw = h.fw := rfl
@[simp] theorem Hart.setVword_dbg (h : Hart) (r w : Nat) (x : Word) : (h.setVword r w x).dbg = h.dbg := rfl
@[simp] theorem Hart.setVword_eq (h : Hart) (r w : Nat) (x : Word) : (h.setVword r w x).eq = h.eq := rfl
@[simp] theorem Hart.setVword_placed (h : Hart) (r w : Nat) (x : Word) : (h.setVword r w x).placed = h.placed := rfl
@[simp] theorem Hart.setVword_pending (h : Hart) (r w : Nat) (x : Word) : (h.setVword r w x).pending = h.pending := rfl
@[simp] theorem Hart.setVword_wake (h : Hart) (r w : Nat) (x : Word) : (h.setVword r w x).wake = h.wake := rfl
@[simp] theorem Hart.setVword_wait (h : Hart) (r w : Nat) (x : Word) : (h.setVword r w x).wait = h.wait := rfl
@[simp] theorem Hart.setVword_linkHold (h : Hart) (r w : Nat) (x : Word) : (h.setVword r w x).linkHold = h.linkHold := rfl
@[simp] theorem Hart.setVword_arrayAt (h : Hart) (r w : Nat) (x : Word) : (h.setVword r w x).arrayAt = h.arrayAt := rfl
@[simp] theorem Hart.setVword_partLoad (h : Hart) (r w : Nat) (x : Word) : (h.setVword r w x).partLoad = h.partLoad := rfl
@[simp] theorem Hart.setVword_touched (h : Hart) (r w : Nat) (x : Word) : (h.setVword r w x).touched = h.touched := rfl
@[simp] theorem Hart.setVword_vprogs (h : Hart) (r w : Nat) (x : Word) : (h.setVword r w x).vprogs = h.vprogs := rfl
@[simp] theorem Hart.setVword_wq (h : Hart) (r w : Nat) (x : Word) : (h.setVword r w x).wq = h.wq := rfl
@[simp] theorem Hart.setVword_credit (h : Hart) (r w : Nat) (x : Word) : (h.setVword r w x).credit = h.credit := rfl
@[simp] theorem Hart.setVword_issued (h : Hart) (r w : Nat) (x : Word) : (h.setVword r w x).issued = h.issued := rfl
@[simp] theorem Hart.setVword_joined (h : Hart) (r w : Nat) (x : Word) : (h.setVword r w x).joined = h.joined := rfl
@[simp] theorem Hart.setVword_arrGang (h : Hart) (r w : Nat) (x : Word) : (h.setVword r w x).arrGang = h.arrGang := rfl
@[simp] theorem Hart.setVword_arrStage (h : Hart) (r w : Nat) (x : Word) : (h.setVword r w x).arrStage = h.arrStage := rfl
@[simp] theorem Hart.setVword_tcmBase (h : Hart) (r w : Nat) (x : Word) : (h.setVword r w x).tcmBase = h.tcmBase := rfl
@[simp] theorem Hart.setVword_tcmUnits (h : Hart) (r w : Nat) (x : Word) : (h.setVword r w x).tcmUnits = h.tcmUnits := rfl
@[simp] theorem Hart.setVword_stopAt (h : Hart) (r w : Nat) (x : Word) : (h.setVword r w x).stopAt = h.stopAt := rfl
@[simp] theorem Hart.setVword_migrating (h : Hart) (r w : Nat) (x : Word) : (h.setVword r w x).migrating = h.migrating := rfl
@[simp] theorem Hart.setVword_seatless (h : Hart) (r w : Nat) (x : Word) : (h.setVword r w x).seatless = h.seatless := rfl
@[simp] theorem Hart.setVword_quiet (h : Hart) (r w : Nat) (x : Word) : (h.setVword r w x).quiet = h.quiet := rfl
@[simp] theorem Hart.setVword_fate (h : Hart) (r w : Nat) (x : Word) : (h.setVword r w x).fate = h.fate := rfl

@[simp] theorem Hart.setElem_name (h : Hart) (n r i : Nat) (x : Word) : (h.setElem n r i x).name = h.name := rfl
@[simp] theorem Hart.setElem_core (h : Hart) (n r i : Nat) (x : Word) : (h.setElem n r i x).core = h.core := rfl
@[simp] theorem Hart.setElem_run (h : Hart) (n r i : Nat) (x : Word) : (h.setElem n r i x).run = h.run := rfl
@[simp] theorem Hart.setElem_frozen (h : Hart) (n r i : Nat) (x : Word) : (h.setElem n r i x).frozen = h.frozen := rfl
@[simp] theorem Hart.setElem_pc (h : Hart) (n r i : Nat) (x : Word) : (h.setElem n r i x).pc = h.pc := rfl
@[simp] theorem Hart.setElem_x (h : Hart) (n r i : Nat) (x : Word) : (h.setElem n r i x).x = h.x := rfl
@[simp] theorem Hart.setElem_priv (h : Hart) (n r i : Nat) (x : Word) : (h.setElem n r i x).priv = h.priv := rfl
@[simp] theorem Hart.setElem_gated (h : Hart) (n r i : Nat) (x : Word) : (h.setElem n r i x).gated = h.gated := rfl
@[simp] theorem Hart.setElem_fm (h : Hart) (n r i : Nat) (x : Word) : (h.setElem n r i x).fm = h.fm := rfl
@[simp] theorem Hart.setElem_flags (h : Hart) (n r i : Nat) (x : Word) : (h.setElem n r i x).flags = h.flags := rfl
@[simp] theorem Hart.setElem_flagEn (h : Hart) (n r i : Nat) (x : Word) : (h.setElem n r i x).flagEn = h.flagEn := rfl
@[simp] theorem Hart.setElem_srgen (h : Hart) (n r i : Nat) (x : Word) : (h.setElem n r i x).srgen = h.srgen := rfl
@[simp] theorem Hart.setElem_instret (h : Hart) (n r i : Nat) (x : Word) : (h.setElem n r i x).instret = h.instret := rfl
@[simp] theorem Hart.setElem_retired (h : Hart) (n r i : Nat) (x : Word) : (h.setElem n r i x).retired = h.retired := rfl
@[simp] theorem Hart.setElem_hartidx (h : Hart) (n r i : Nat) (x : Word) : (h.setElem n r i x).hartidx = h.hartidx := rfl
@[simp] theorem Hart.setElem_stage (h : Hart) (n r i : Nat) (x : Word) : (h.setElem n r i x).stage = h.stage := rfl
@[simp] theorem Hart.setElem_gx (h : Hart) (n r i : Nat) (x : Word) : (h.setElem n r i x).gx = h.gx := rfl
@[simp] theorem Hart.setElem_gy (h : Hart) (n r i : Nat) (x : Word) : (h.setElem n r i x).gy = h.gy := rfl
@[simp] theorem Hart.setElem_gz (h : Hart) (n r i : Nat) (x : Word) : (h.setElem n r i x).gz = h.gz := rfl
@[simp] theorem Hart.setElem_grant (h : Hart) (n r i : Nat) (x : Word) : (h.setElem n r i x).grant = h.grant := rfl
@[simp] theorem Hart.setElem_vl (h : Hart) (n r i : Nat) (x : Word) : (h.setElem n r i x).vl = h.vl := rfl
@[simp] theorem Hart.setElem_vtype (h : Hart) (n r i : Nat) (x : Word) : (h.setElem n r i x).vtype = h.vtype := rfl
@[simp] theorem Hart.setElem_vprog (h : Hart) (n r i : Nat) (x : Word) : (h.setElem n r i x).vprog = h.vprog := rfl
@[simp] theorem Hart.setElem_vprogPc (h : Hart) (n r i : Nat) (x : Word) : (h.setElem n r i x).vprogPc = h.vprogPc := rfl
@[simp] theorem Hart.setElem_mid (h : Hart) (n r i : Nat) (x : Word) : (h.setElem n r i x).mid = h.mid := rfl
@[simp] theorem Hart.setElem_mmode (h : Hart) (n r i : Nat) (x : Word) : (h.setElem n r i x).mmode = h.mmode := rfl
@[simp] theorem Hart.setElem_m (h : Hart) (n r i : Nat) (x : Word) : (h.setElem n r i x).m = h.m := rfl
@[simp] theorem Hart.setElem_dq (h : Hart) (n r i : Nat) (x : Word) : (h.setElem n r i x).dq = h.dq := rfl
@[simp] theorem Hart.setElem_matrixFlag (h : Hart) (n r i : Nat) (x : Word) : (h.setElem n r i x).matrixFlag = h.matrixFlag := rfl
@[simp] theorem Hart.setElem_mode (h : Hart) (n r i : Nat) (x : Word) : (h.setElem n r i x).mode = h.mode := rfl
@[simp] theorem Hart.setElem_mchain (h : Hart) (n r i : Nat) (x : Word) : (h.setElem n r i x).mchain = h.mchain := rfl
@[simp] theorem Hart.setElem_tile (h : Hart) (n r i : Nat) (x : Word) : (h.setElem n r i x).tile = h.tile := rfl
@[simp] theorem Hart.setElem_cells (h : Hart) (n r i : Nat) (x : Word) : (h.setElem n r i x).cells = h.cells := rfl
@[simp] theorem Hart.setElem_heldFlags (h : Hart) (n r i : Nat) (x : Word) : (h.setElem n r i x).heldFlags = h.heldFlags := rfl
@[simp] theorem Hart.setElem_msc (h : Hart) (n r i : Nat) (x : Word) : (h.setElem n r i x).msc = h.msc := rfl
@[simp] theorem Hart.setElem_moff (h : Hart) (n r i : Nat) (x : Word) : (h.setElem n r i x).moff = h.moff := rfl
@[simp] theorem Hart.setElem_rcount (h : Hart) (n r i : Nat) (x : Word) : (h.setElem n r i x).rcount = h.rcount := rfl
@[simp] theorem Hart.setElem_xlat (h : Hart) (n r i : Nat) (x : Word) : (h.setElem n r i x).xlat = h.xlat := rfl
@[simp] theorem Hart.setElem_tlb (h : Hart) (n r i : Nat) (x : Word) : (h.setElem n r i x).tlb = h.tlb := rfl
@[simp] theorem Hart.setElem_ibuf (h : Hart) (n r i : Nat) (x : Word) : (h.setElem n r i x).ibuf = h.ibuf := rfl
@[simp] theorem Hart.setElem_fenced (h : Hart) (n r i : Nat) (x : Word) : (h.setElem n r i x).fenced = h.fenced := rfl
@[simp] theorem Hart.setElem_early (h : Hart) (n r i : Nat) (x : Word) : (h.setElem n r i x).early = h.early := rfl
@[simp] theorem Hart.setElem_tm (h : Hart) (n r i : Nat) (x : Word) : (h.setElem n r i x).tm = h.tm := rfl
@[simp] theorem Hart.setElem_word (h : Hart) (n r i : Nat) (x : Word) : (h.setElem n r i x).word = h.word := rfl
@[simp] theorem Hart.setElem_seqr (h : Hart) (n r i : Nat) (x : Word) : (h.setElem n r i x).seqr = h.seqr := rfl
@[simp] theorem Hart.setElem_gate (h : Hart) (n r i : Nat) (x : Word) : (h.setElem n r i x).gate = h.gate := rfl
@[simp] theorem Hart.setElem_trapvec (h : Hart) (n r i : Nat) (x : Word) : (h.setElem n r i x).trapvec = h.trapvec := rfl
@[simp] theorem Hart.setElem_abandon (h : Hart) (n r i : Nat) (x : Word) : (h.setElem n r i x).abandon = h.abandon := rfl
@[simp] theorem Hart.setElem_grace (h : Hart) (n r i : Nat) (x : Word) : (h.setElem n r i x).grace = h.grace := rfl
@[simp] theorem Hart.setElem_gtbase (h : Hart) (n r i : Nat) (x : Word) : (h.setElem n r i x).gtbase = h.gtbase := rfl
@[simp] theorem Hart.setElem_sup (h : Hart) (n r i : Nat) (x : Word) : (h.setElem n r i x).sup = h.sup := rfl
@[simp] theorem Hart.setElem_sscratch (h : Hart) (n r i : Nat) (x : Word) : (h.setElem n r i x).sscratch = h.sscratch := rfl
@[simp] theorem Hart.setElem_tie (h : Hart) (n r i : Nat) (x : Word) : (h.setElem n r i x).tie = h.tie := rfl
@[simp] theorem Hart.setElem_swe (h : Hart) (n r i : Nat) (x : Word) : (h.setElem n r i x).swe = h.swe := rfl
@[simp] theorem Hart.setElem_eve (h : Hart) (n r i : Nat) (x : Word) : (h.setElem n r i x).eve = h.eve := rfl
@[simp] theorem Hart.setElem_swp (h : Hart) (n r i : Nat) (x : Word) : (h.setElem n r i x).swp = h.swp := rfl
@[simp] theorem Hart.setElem_sevent (h : Hart) (n r i : Nat) (x : Word) : (h.setElem n r i x).sevent = h.sevent := rfl
@[simp] theorem Hart.setElem_stimecmp (h : Hart) (n r i : Nat) (x : Word) : (h.setElem n r i x).stimecmp = h.stimecmp := rfl
@[simp] theorem Hart.setElem_fvec (h : Hart) (n r i : Nat) (x : Word) : (h.setElem n r i x).fvec = h.fvec := rfl
@[simp] theorem Hart.setElem_fw (h : Hart) (n r i : Nat) (x : Word) : (h.setElem n r i x).fw = h.fw := rfl
@[simp] theorem Hart.setElem_dbg (h : Hart) (n r i : Nat) (x : Word) : (h.setElem n r i x).dbg = h.dbg := rfl
@[simp] theorem Hart.setElem_eq (h : Hart) (n r i : Nat) (x : Word) : (h.setElem n r i x).eq = h.eq := rfl
@[simp] theorem Hart.setElem_placed (h : Hart) (n r i : Nat) (x : Word) : (h.setElem n r i x).placed = h.placed := rfl
@[simp] theorem Hart.setElem_pending (h : Hart) (n r i : Nat) (x : Word) : (h.setElem n r i x).pending = h.pending := rfl
@[simp] theorem Hart.setElem_wake (h : Hart) (n r i : Nat) (x : Word) : (h.setElem n r i x).wake = h.wake := rfl
@[simp] theorem Hart.setElem_wait (h : Hart) (n r i : Nat) (x : Word) : (h.setElem n r i x).wait = h.wait := rfl
@[simp] theorem Hart.setElem_linkHold (h : Hart) (n r i : Nat) (x : Word) : (h.setElem n r i x).linkHold = h.linkHold := rfl
@[simp] theorem Hart.setElem_arrayAt (h : Hart) (n r i : Nat) (x : Word) : (h.setElem n r i x).arrayAt = h.arrayAt := rfl
@[simp] theorem Hart.setElem_partLoad (h : Hart) (n r i : Nat) (x : Word) : (h.setElem n r i x).partLoad = h.partLoad := rfl
@[simp] theorem Hart.setElem_touched (h : Hart) (n r i : Nat) (x : Word) : (h.setElem n r i x).touched = h.touched := rfl
@[simp] theorem Hart.setElem_vprogs (h : Hart) (n r i : Nat) (x : Word) : (h.setElem n r i x).vprogs = h.vprogs := rfl
@[simp] theorem Hart.setElem_wq (h : Hart) (n r i : Nat) (x : Word) : (h.setElem n r i x).wq = h.wq := rfl
@[simp] theorem Hart.setElem_credit (h : Hart) (n r i : Nat) (x : Word) : (h.setElem n r i x).credit = h.credit := rfl
@[simp] theorem Hart.setElem_issued (h : Hart) (n r i : Nat) (x : Word) : (h.setElem n r i x).issued = h.issued := rfl
@[simp] theorem Hart.setElem_joined (h : Hart) (n r i : Nat) (x : Word) : (h.setElem n r i x).joined = h.joined := rfl
@[simp] theorem Hart.setElem_arrGang (h : Hart) (n r i : Nat) (x : Word) : (h.setElem n r i x).arrGang = h.arrGang := rfl
@[simp] theorem Hart.setElem_arrStage (h : Hart) (n r i : Nat) (x : Word) : (h.setElem n r i x).arrStage = h.arrStage := rfl
@[simp] theorem Hart.setElem_tcmBase (h : Hart) (n r i : Nat) (x : Word) : (h.setElem n r i x).tcmBase = h.tcmBase := rfl
@[simp] theorem Hart.setElem_tcmUnits (h : Hart) (n r i : Nat) (x : Word) : (h.setElem n r i x).tcmUnits = h.tcmUnits := rfl
@[simp] theorem Hart.setElem_stopAt (h : Hart) (n r i : Nat) (x : Word) : (h.setElem n r i x).stopAt = h.stopAt := rfl
@[simp] theorem Hart.setElem_migrating (h : Hart) (n r i : Nat) (x : Word) : (h.setElem n r i x).migrating = h.migrating := rfl
@[simp] theorem Hart.setElem_seatless (h : Hart) (n r i : Nat) (x : Word) : (h.setElem n r i x).seatless = h.seatless := rfl
@[simp] theorem Hart.setElem_quiet (h : Hart) (n r i : Nat) (x : Word) : (h.setElem n r i x).quiet = h.quiet := rfl
@[simp] theorem Hart.setElem_fate (h : Hart) (n r i : Nat) (x : Word) : (h.setElem n r i x).fate = h.fate := rfl

@[simp] theorem Hart.setMbit_name (h : Hart) (k i : Nat) (b : Bool) : (h.setMbit k i b).name = h.name := by unfold Hart.setMbit; split <;> rfl
@[simp] theorem Hart.setMbit_core (h : Hart) (k i : Nat) (b : Bool) : (h.setMbit k i b).core = h.core := by unfold Hart.setMbit; split <;> rfl
@[simp] theorem Hart.setMbit_run (h : Hart) (k i : Nat) (b : Bool) : (h.setMbit k i b).run = h.run := by unfold Hart.setMbit; split <;> rfl
@[simp] theorem Hart.setMbit_frozen (h : Hart) (k i : Nat) (b : Bool) : (h.setMbit k i b).frozen = h.frozen := by unfold Hart.setMbit; split <;> rfl
@[simp] theorem Hart.setMbit_pc (h : Hart) (k i : Nat) (b : Bool) : (h.setMbit k i b).pc = h.pc := by unfold Hart.setMbit; split <;> rfl
@[simp] theorem Hart.setMbit_x (h : Hart) (k i : Nat) (b : Bool) : (h.setMbit k i b).x = h.x := by unfold Hart.setMbit; split <;> rfl
@[simp] theorem Hart.setMbit_priv (h : Hart) (k i : Nat) (b : Bool) : (h.setMbit k i b).priv = h.priv := by unfold Hart.setMbit; split <;> rfl
@[simp] theorem Hart.setMbit_gated (h : Hart) (k i : Nat) (b : Bool) : (h.setMbit k i b).gated = h.gated := by unfold Hart.setMbit; split <;> rfl
@[simp] theorem Hart.setMbit_fm (h : Hart) (k i : Nat) (b : Bool) : (h.setMbit k i b).fm = h.fm := by unfold Hart.setMbit; split <;> rfl
@[simp] theorem Hart.setMbit_flags (h : Hart) (k i : Nat) (b : Bool) : (h.setMbit k i b).flags = h.flags := by unfold Hart.setMbit; split <;> rfl
@[simp] theorem Hart.setMbit_flagEn (h : Hart) (k i : Nat) (b : Bool) : (h.setMbit k i b).flagEn = h.flagEn := by unfold Hart.setMbit; split <;> rfl
@[simp] theorem Hart.setMbit_srgen (h : Hart) (k i : Nat) (b : Bool) : (h.setMbit k i b).srgen = h.srgen := by unfold Hart.setMbit; split <;> rfl
@[simp] theorem Hart.setMbit_instret (h : Hart) (k i : Nat) (b : Bool) : (h.setMbit k i b).instret = h.instret := by unfold Hart.setMbit; split <;> rfl
@[simp] theorem Hart.setMbit_retired (h : Hart) (k i : Nat) (b : Bool) : (h.setMbit k i b).retired = h.retired := by unfold Hart.setMbit; split <;> rfl
@[simp] theorem Hart.setMbit_hartidx (h : Hart) (k i : Nat) (b : Bool) : (h.setMbit k i b).hartidx = h.hartidx := by unfold Hart.setMbit; split <;> rfl
@[simp] theorem Hart.setMbit_stage (h : Hart) (k i : Nat) (b : Bool) : (h.setMbit k i b).stage = h.stage := by unfold Hart.setMbit; split <;> rfl
@[simp] theorem Hart.setMbit_gx (h : Hart) (k i : Nat) (b : Bool) : (h.setMbit k i b).gx = h.gx := by unfold Hart.setMbit; split <;> rfl
@[simp] theorem Hart.setMbit_gy (h : Hart) (k i : Nat) (b : Bool) : (h.setMbit k i b).gy = h.gy := by unfold Hart.setMbit; split <;> rfl
@[simp] theorem Hart.setMbit_gz (h : Hart) (k i : Nat) (b : Bool) : (h.setMbit k i b).gz = h.gz := by unfold Hart.setMbit; split <;> rfl
@[simp] theorem Hart.setMbit_grant (h : Hart) (k i : Nat) (b : Bool) : (h.setMbit k i b).grant = h.grant := by unfold Hart.setMbit; split <;> rfl
@[simp] theorem Hart.setMbit_vl (h : Hart) (k i : Nat) (b : Bool) : (h.setMbit k i b).vl = h.vl := by unfold Hart.setMbit; split <;> rfl
@[simp] theorem Hart.setMbit_vtype (h : Hart) (k i : Nat) (b : Bool) : (h.setMbit k i b).vtype = h.vtype := by unfold Hart.setMbit; split <;> rfl
@[simp] theorem Hart.setMbit_vprog (h : Hart) (k i : Nat) (b : Bool) : (h.setMbit k i b).vprog = h.vprog := by unfold Hart.setMbit; split <;> rfl
@[simp] theorem Hart.setMbit_vprogPc (h : Hart) (k i : Nat) (b : Bool) : (h.setMbit k i b).vprogPc = h.vprogPc := by unfold Hart.setMbit; split <;> rfl
@[simp] theorem Hart.setMbit_mid (h : Hart) (k i : Nat) (b : Bool) : (h.setMbit k i b).mid = h.mid := by unfold Hart.setMbit; split <;> rfl
@[simp] theorem Hart.setMbit_mmode (h : Hart) (k i : Nat) (b : Bool) : (h.setMbit k i b).mmode = h.mmode := by unfold Hart.setMbit; split <;> rfl
@[simp] theorem Hart.setMbit_v (h : Hart) (k i : Nat) (b : Bool) : (h.setMbit k i b).v = h.v := by unfold Hart.setMbit; split <;> rfl
@[simp] theorem Hart.setMbit_unsure (h : Hart) (k i : Nat) (b : Bool) : (h.setMbit k i b).unsure = h.unsure := by unfold Hart.setMbit; split <;> rfl
@[simp] theorem Hart.setMbit_dq (h : Hart) (k i : Nat) (b : Bool) : (h.setMbit k i b).dq = h.dq := by unfold Hart.setMbit; split <;> rfl
@[simp] theorem Hart.setMbit_matrixFlag (h : Hart) (k i : Nat) (b : Bool) : (h.setMbit k i b).matrixFlag = h.matrixFlag := by unfold Hart.setMbit; split <;> rfl
@[simp] theorem Hart.setMbit_mode (h : Hart) (k i : Nat) (b : Bool) : (h.setMbit k i b).mode = h.mode := by unfold Hart.setMbit; split <;> rfl
@[simp] theorem Hart.setMbit_mchain (h : Hart) (k i : Nat) (b : Bool) : (h.setMbit k i b).mchain = h.mchain := by unfold Hart.setMbit; split <;> rfl
@[simp] theorem Hart.setMbit_tile (h : Hart) (k i : Nat) (b : Bool) : (h.setMbit k i b).tile = h.tile := by unfold Hart.setMbit; split <;> rfl
@[simp] theorem Hart.setMbit_cells (h : Hart) (k i : Nat) (b : Bool) : (h.setMbit k i b).cells = h.cells := by unfold Hart.setMbit; split <;> rfl
@[simp] theorem Hart.setMbit_heldFlags (h : Hart) (k i : Nat) (b : Bool) : (h.setMbit k i b).heldFlags = h.heldFlags := by unfold Hart.setMbit; split <;> rfl
@[simp] theorem Hart.setMbit_msc (h : Hart) (k i : Nat) (b : Bool) : (h.setMbit k i b).msc = h.msc := by unfold Hart.setMbit; split <;> rfl
@[simp] theorem Hart.setMbit_moff (h : Hart) (k i : Nat) (b : Bool) : (h.setMbit k i b).moff = h.moff := by unfold Hart.setMbit; split <;> rfl
@[simp] theorem Hart.setMbit_rcount (h : Hart) (k i : Nat) (b : Bool) : (h.setMbit k i b).rcount = h.rcount := by unfold Hart.setMbit; split <;> rfl
@[simp] theorem Hart.setMbit_xlat (h : Hart) (k i : Nat) (b : Bool) : (h.setMbit k i b).xlat = h.xlat := by unfold Hart.setMbit; split <;> rfl
@[simp] theorem Hart.setMbit_tlb (h : Hart) (k i : Nat) (b : Bool) : (h.setMbit k i b).tlb = h.tlb := by unfold Hart.setMbit; split <;> rfl
@[simp] theorem Hart.setMbit_ibuf (h : Hart) (k i : Nat) (b : Bool) : (h.setMbit k i b).ibuf = h.ibuf := by unfold Hart.setMbit; split <;> rfl
@[simp] theorem Hart.setMbit_fenced (h : Hart) (k i : Nat) (b : Bool) : (h.setMbit k i b).fenced = h.fenced := by unfold Hart.setMbit; split <;> rfl
@[simp] theorem Hart.setMbit_early (h : Hart) (k i : Nat) (b : Bool) : (h.setMbit k i b).early = h.early := by unfold Hart.setMbit; split <;> rfl
@[simp] theorem Hart.setMbit_tm (h : Hart) (k i : Nat) (b : Bool) : (h.setMbit k i b).tm = h.tm := by unfold Hart.setMbit; split <;> rfl
@[simp] theorem Hart.setMbit_word (h : Hart) (k i : Nat) (b : Bool) : (h.setMbit k i b).word = h.word := by unfold Hart.setMbit; split <;> rfl
@[simp] theorem Hart.setMbit_seqr (h : Hart) (k i : Nat) (b : Bool) : (h.setMbit k i b).seqr = h.seqr := by unfold Hart.setMbit; split <;> rfl
@[simp] theorem Hart.setMbit_gate (h : Hart) (k i : Nat) (b : Bool) : (h.setMbit k i b).gate = h.gate := by unfold Hart.setMbit; split <;> rfl
@[simp] theorem Hart.setMbit_trapvec (h : Hart) (k i : Nat) (b : Bool) : (h.setMbit k i b).trapvec = h.trapvec := by unfold Hart.setMbit; split <;> rfl
@[simp] theorem Hart.setMbit_abandon (h : Hart) (k i : Nat) (b : Bool) : (h.setMbit k i b).abandon = h.abandon := by unfold Hart.setMbit; split <;> rfl
@[simp] theorem Hart.setMbit_grace (h : Hart) (k i : Nat) (b : Bool) : (h.setMbit k i b).grace = h.grace := by unfold Hart.setMbit; split <;> rfl
@[simp] theorem Hart.setMbit_gtbase (h : Hart) (k i : Nat) (b : Bool) : (h.setMbit k i b).gtbase = h.gtbase := by unfold Hart.setMbit; split <;> rfl
@[simp] theorem Hart.setMbit_sup (h : Hart) (k i : Nat) (b : Bool) : (h.setMbit k i b).sup = h.sup := by unfold Hart.setMbit; split <;> rfl
@[simp] theorem Hart.setMbit_sscratch (h : Hart) (k i : Nat) (b : Bool) : (h.setMbit k i b).sscratch = h.sscratch := by unfold Hart.setMbit; split <;> rfl
@[simp] theorem Hart.setMbit_tie (h : Hart) (k i : Nat) (b : Bool) : (h.setMbit k i b).tie = h.tie := by unfold Hart.setMbit; split <;> rfl
@[simp] theorem Hart.setMbit_swe (h : Hart) (k i : Nat) (b : Bool) : (h.setMbit k i b).swe = h.swe := by unfold Hart.setMbit; split <;> rfl
@[simp] theorem Hart.setMbit_eve (h : Hart) (k i : Nat) (b : Bool) : (h.setMbit k i b).eve = h.eve := by unfold Hart.setMbit; split <;> rfl
@[simp] theorem Hart.setMbit_swp (h : Hart) (k i : Nat) (b : Bool) : (h.setMbit k i b).swp = h.swp := by unfold Hart.setMbit; split <;> rfl
@[simp] theorem Hart.setMbit_sevent (h : Hart) (k i : Nat) (b : Bool) : (h.setMbit k i b).sevent = h.sevent := by unfold Hart.setMbit; split <;> rfl
@[simp] theorem Hart.setMbit_stimecmp (h : Hart) (k i : Nat) (b : Bool) : (h.setMbit k i b).stimecmp = h.stimecmp := by unfold Hart.setMbit; split <;> rfl
@[simp] theorem Hart.setMbit_fvec (h : Hart) (k i : Nat) (b : Bool) : (h.setMbit k i b).fvec = h.fvec := by unfold Hart.setMbit; split <;> rfl
@[simp] theorem Hart.setMbit_fw (h : Hart) (k i : Nat) (b : Bool) : (h.setMbit k i b).fw = h.fw := by unfold Hart.setMbit; split <;> rfl
@[simp] theorem Hart.setMbit_dbg (h : Hart) (k i : Nat) (b : Bool) : (h.setMbit k i b).dbg = h.dbg := by unfold Hart.setMbit; split <;> rfl
@[simp] theorem Hart.setMbit_eq (h : Hart) (k i : Nat) (b : Bool) : (h.setMbit k i b).eq = h.eq := by unfold Hart.setMbit; split <;> rfl
@[simp] theorem Hart.setMbit_placed (h : Hart) (k i : Nat) (b : Bool) : (h.setMbit k i b).placed = h.placed := by unfold Hart.setMbit; split <;> rfl
@[simp] theorem Hart.setMbit_pending (h : Hart) (k i : Nat) (b : Bool) : (h.setMbit k i b).pending = h.pending := by unfold Hart.setMbit; split <;> rfl
@[simp] theorem Hart.setMbit_wake (h : Hart) (k i : Nat) (b : Bool) : (h.setMbit k i b).wake = h.wake := by unfold Hart.setMbit; split <;> rfl
@[simp] theorem Hart.setMbit_wait (h : Hart) (k i : Nat) (b : Bool) : (h.setMbit k i b).wait = h.wait := by unfold Hart.setMbit; split <;> rfl
@[simp] theorem Hart.setMbit_linkHold (h : Hart) (k i : Nat) (b : Bool) : (h.setMbit k i b).linkHold = h.linkHold := by unfold Hart.setMbit; split <;> rfl
@[simp] theorem Hart.setMbit_arrayAt (h : Hart) (k i : Nat) (b : Bool) : (h.setMbit k i b).arrayAt = h.arrayAt := by unfold Hart.setMbit; split <;> rfl
@[simp] theorem Hart.setMbit_partLoad (h : Hart) (k i : Nat) (b : Bool) : (h.setMbit k i b).partLoad = h.partLoad := by unfold Hart.setMbit; split <;> rfl
@[simp] theorem Hart.setMbit_touched (h : Hart) (k i : Nat) (b : Bool) : (h.setMbit k i b).touched = h.touched := by unfold Hart.setMbit; split <;> rfl
@[simp] theorem Hart.setMbit_vprogs (h : Hart) (k i : Nat) (b : Bool) : (h.setMbit k i b).vprogs = h.vprogs := by unfold Hart.setMbit; split <;> rfl
@[simp] theorem Hart.setMbit_wq (h : Hart) (k i : Nat) (b : Bool) : (h.setMbit k i b).wq = h.wq := by unfold Hart.setMbit; split <;> rfl
@[simp] theorem Hart.setMbit_credit (h : Hart) (k i : Nat) (b : Bool) : (h.setMbit k i b).credit = h.credit := by unfold Hart.setMbit; split <;> rfl
@[simp] theorem Hart.setMbit_issued (h : Hart) (k i : Nat) (b : Bool) : (h.setMbit k i b).issued = h.issued := by unfold Hart.setMbit; split <;> rfl
@[simp] theorem Hart.setMbit_joined (h : Hart) (k i : Nat) (b : Bool) : (h.setMbit k i b).joined = h.joined := by unfold Hart.setMbit; split <;> rfl
@[simp] theorem Hart.setMbit_arrGang (h : Hart) (k i : Nat) (b : Bool) : (h.setMbit k i b).arrGang = h.arrGang := by unfold Hart.setMbit; split <;> rfl
@[simp] theorem Hart.setMbit_arrStage (h : Hart) (k i : Nat) (b : Bool) : (h.setMbit k i b).arrStage = h.arrStage := by unfold Hart.setMbit; split <;> rfl
@[simp] theorem Hart.setMbit_tcmBase (h : Hart) (k i : Nat) (b : Bool) : (h.setMbit k i b).tcmBase = h.tcmBase := by unfold Hart.setMbit; split <;> rfl
@[simp] theorem Hart.setMbit_tcmUnits (h : Hart) (k i : Nat) (b : Bool) : (h.setMbit k i b).tcmUnits = h.tcmUnits := by unfold Hart.setMbit; split <;> rfl
@[simp] theorem Hart.setMbit_stopAt (h : Hart) (k i : Nat) (b : Bool) : (h.setMbit k i b).stopAt = h.stopAt := by unfold Hart.setMbit; split <;> rfl
@[simp] theorem Hart.setMbit_migrating (h : Hart) (k i : Nat) (b : Bool) : (h.setMbit k i b).migrating = h.migrating := by unfold Hart.setMbit; split <;> rfl
@[simp] theorem Hart.setMbit_seatless (h : Hart) (k i : Nat) (b : Bool) : (h.setMbit k i b).seatless = h.seatless := by unfold Hart.setMbit; split <;> rfl
@[simp] theorem Hart.setMbit_quiet (h : Hart) (k i : Nat) (b : Bool) : (h.setMbit k i b).quiet = h.quiet := by unfold Hart.setMbit; split <;> rfl
@[simp] theorem Hart.setMbit_fate (h : Hart) (k i : Nat) (b : Bool) : (h.setMbit k i b).fate = h.fate := by unfold Hart.setMbit; split <;> rfl

@[simp] theorem Hart.setType_name (h : Hart) (n : Nat) (t : Option TypeState) : (h.setType n t).name = h.name := by cases t <;> rfl
@[simp] theorem Hart.setType_core (h : Hart) (n : Nat) (t : Option TypeState) : (h.setType n t).core = h.core := by cases t <;> rfl
@[simp] theorem Hart.setType_run (h : Hart) (n : Nat) (t : Option TypeState) : (h.setType n t).run = h.run := by cases t <;> rfl
@[simp] theorem Hart.setType_frozen (h : Hart) (n : Nat) (t : Option TypeState) : (h.setType n t).frozen = h.frozen := by cases t <;> rfl
@[simp] theorem Hart.setType_pc (h : Hart) (n : Nat) (t : Option TypeState) : (h.setType n t).pc = h.pc := by cases t <;> rfl
@[simp] theorem Hart.setType_x (h : Hart) (n : Nat) (t : Option TypeState) : (h.setType n t).x = h.x := by cases t <;> rfl
@[simp] theorem Hart.setType_priv (h : Hart) (n : Nat) (t : Option TypeState) : (h.setType n t).priv = h.priv := by cases t <;> rfl
@[simp] theorem Hart.setType_gated (h : Hart) (n : Nat) (t : Option TypeState) : (h.setType n t).gated = h.gated := by cases t <;> rfl
@[simp] theorem Hart.setType_fm (h : Hart) (n : Nat) (t : Option TypeState) : (h.setType n t).fm = h.fm := by cases t <;> rfl
@[simp] theorem Hart.setType_flags (h : Hart) (n : Nat) (t : Option TypeState) : (h.setType n t).flags = h.flags := by cases t <;> rfl
@[simp] theorem Hart.setType_flagEn (h : Hart) (n : Nat) (t : Option TypeState) : (h.setType n t).flagEn = h.flagEn := by cases t <;> rfl
@[simp] theorem Hart.setType_srgen (h : Hart) (n : Nat) (t : Option TypeState) : (h.setType n t).srgen = h.srgen := by cases t <;> rfl
@[simp] theorem Hart.setType_instret (h : Hart) (n : Nat) (t : Option TypeState) : (h.setType n t).instret = h.instret := by cases t <;> rfl
@[simp] theorem Hart.setType_retired (h : Hart) (n : Nat) (t : Option TypeState) : (h.setType n t).retired = h.retired := by cases t <;> rfl
@[simp] theorem Hart.setType_hartidx (h : Hart) (n : Nat) (t : Option TypeState) : (h.setType n t).hartidx = h.hartidx := by cases t <;> rfl
@[simp] theorem Hart.setType_stage (h : Hart) (n : Nat) (t : Option TypeState) : (h.setType n t).stage = h.stage := by cases t <;> rfl
@[simp] theorem Hart.setType_gx (h : Hart) (n : Nat) (t : Option TypeState) : (h.setType n t).gx = h.gx := by cases t <;> rfl
@[simp] theorem Hart.setType_gy (h : Hart) (n : Nat) (t : Option TypeState) : (h.setType n t).gy = h.gy := by cases t <;> rfl
@[simp] theorem Hart.setType_gz (h : Hart) (n : Nat) (t : Option TypeState) : (h.setType n t).gz = h.gz := by cases t <;> rfl
@[simp] theorem Hart.setType_grant (h : Hart) (n : Nat) (t : Option TypeState) : (h.setType n t).grant = h.grant := by cases t <;> rfl
@[simp] theorem Hart.setType_vprogPc (h : Hart) (n : Nat) (t : Option TypeState) : (h.setType n t).vprogPc = h.vprogPc := by cases t <;> rfl
@[simp] theorem Hart.setType_mid (h : Hart) (n : Nat) (t : Option TypeState) : (h.setType n t).mid = h.mid := by cases t <;> rfl
@[simp] theorem Hart.setType_mmode (h : Hart) (n : Nat) (t : Option TypeState) : (h.setType n t).mmode = h.mmode := by cases t <;> rfl
@[simp] theorem Hart.setType_v (h : Hart) (n : Nat) (t : Option TypeState) : (h.setType n t).v = h.v := by cases t <;> rfl
@[simp] theorem Hart.setType_m (h : Hart) (n : Nat) (t : Option TypeState) : (h.setType n t).m = h.m := by cases t <;> rfl
@[simp] theorem Hart.setType_unsure (h : Hart) (n : Nat) (t : Option TypeState) : (h.setType n t).unsure = h.unsure := by cases t <;> rfl
@[simp] theorem Hart.setType_dq (h : Hart) (n : Nat) (t : Option TypeState) : (h.setType n t).dq = h.dq := by cases t <;> rfl
@[simp] theorem Hart.setType_matrixFlag (h : Hart) (n : Nat) (t : Option TypeState) : (h.setType n t).matrixFlag = h.matrixFlag := by cases t <;> rfl
@[simp] theorem Hart.setType_mode (h : Hart) (n : Nat) (t : Option TypeState) : (h.setType n t).mode = h.mode := by cases t <;> rfl
@[simp] theorem Hart.setType_mchain (h : Hart) (n : Nat) (t : Option TypeState) : (h.setType n t).mchain = h.mchain := by cases t <;> rfl
@[simp] theorem Hart.setType_tile (h : Hart) (n : Nat) (t : Option TypeState) : (h.setType n t).tile = h.tile := by cases t <;> rfl
@[simp] theorem Hart.setType_cells (h : Hart) (n : Nat) (t : Option TypeState) : (h.setType n t).cells = h.cells := by cases t <;> rfl
@[simp] theorem Hart.setType_heldFlags (h : Hart) (n : Nat) (t : Option TypeState) : (h.setType n t).heldFlags = h.heldFlags := by cases t <;> rfl
@[simp] theorem Hart.setType_msc (h : Hart) (n : Nat) (t : Option TypeState) : (h.setType n t).msc = h.msc := by cases t <;> rfl
@[simp] theorem Hart.setType_moff (h : Hart) (n : Nat) (t : Option TypeState) : (h.setType n t).moff = h.moff := by cases t <;> rfl
@[simp] theorem Hart.setType_rcount (h : Hart) (n : Nat) (t : Option TypeState) : (h.setType n t).rcount = h.rcount := by cases t <;> rfl
@[simp] theorem Hart.setType_xlat (h : Hart) (n : Nat) (t : Option TypeState) : (h.setType n t).xlat = h.xlat := by cases t <;> rfl
@[simp] theorem Hart.setType_tlb (h : Hart) (n : Nat) (t : Option TypeState) : (h.setType n t).tlb = h.tlb := by cases t <;> rfl
@[simp] theorem Hart.setType_ibuf (h : Hart) (n : Nat) (t : Option TypeState) : (h.setType n t).ibuf = h.ibuf := by cases t <;> rfl
@[simp] theorem Hart.setType_fenced (h : Hart) (n : Nat) (t : Option TypeState) : (h.setType n t).fenced = h.fenced := by cases t <;> rfl
@[simp] theorem Hart.setType_early (h : Hart) (n : Nat) (t : Option TypeState) : (h.setType n t).early = h.early := by cases t <;> rfl
@[simp] theorem Hart.setType_tm (h : Hart) (n : Nat) (t : Option TypeState) : (h.setType n t).tm = h.tm := by cases t <;> rfl
@[simp] theorem Hart.setType_word (h : Hart) (n : Nat) (t : Option TypeState) : (h.setType n t).word = h.word := by cases t <;> rfl
@[simp] theorem Hart.setType_seqr (h : Hart) (n : Nat) (t : Option TypeState) : (h.setType n t).seqr = h.seqr := by cases t <;> rfl
@[simp] theorem Hart.setType_gate (h : Hart) (n : Nat) (t : Option TypeState) : (h.setType n t).gate = h.gate := by cases t <;> rfl
@[simp] theorem Hart.setType_trapvec (h : Hart) (n : Nat) (t : Option TypeState) : (h.setType n t).trapvec = h.trapvec := by cases t <;> rfl
@[simp] theorem Hart.setType_abandon (h : Hart) (n : Nat) (t : Option TypeState) : (h.setType n t).abandon = h.abandon := by cases t <;> rfl
@[simp] theorem Hart.setType_grace (h : Hart) (n : Nat) (t : Option TypeState) : (h.setType n t).grace = h.grace := by cases t <;> rfl
@[simp] theorem Hart.setType_gtbase (h : Hart) (n : Nat) (t : Option TypeState) : (h.setType n t).gtbase = h.gtbase := by cases t <;> rfl
@[simp] theorem Hart.setType_sup (h : Hart) (n : Nat) (t : Option TypeState) : (h.setType n t).sup = h.sup := by cases t <;> rfl
@[simp] theorem Hart.setType_sscratch (h : Hart) (n : Nat) (t : Option TypeState) : (h.setType n t).sscratch = h.sscratch := by cases t <;> rfl
@[simp] theorem Hart.setType_tie (h : Hart) (n : Nat) (t : Option TypeState) : (h.setType n t).tie = h.tie := by cases t <;> rfl
@[simp] theorem Hart.setType_swe (h : Hart) (n : Nat) (t : Option TypeState) : (h.setType n t).swe = h.swe := by cases t <;> rfl
@[simp] theorem Hart.setType_eve (h : Hart) (n : Nat) (t : Option TypeState) : (h.setType n t).eve = h.eve := by cases t <;> rfl
@[simp] theorem Hart.setType_swp (h : Hart) (n : Nat) (t : Option TypeState) : (h.setType n t).swp = h.swp := by cases t <;> rfl
@[simp] theorem Hart.setType_sevent (h : Hart) (n : Nat) (t : Option TypeState) : (h.setType n t).sevent = h.sevent := by cases t <;> rfl
@[simp] theorem Hart.setType_stimecmp (h : Hart) (n : Nat) (t : Option TypeState) : (h.setType n t).stimecmp = h.stimecmp := by cases t <;> rfl
@[simp] theorem Hart.setType_fvec (h : Hart) (n : Nat) (t : Option TypeState) : (h.setType n t).fvec = h.fvec := by cases t <;> rfl
@[simp] theorem Hart.setType_fw (h : Hart) (n : Nat) (t : Option TypeState) : (h.setType n t).fw = h.fw := by cases t <;> rfl
@[simp] theorem Hart.setType_dbg (h : Hart) (n : Nat) (t : Option TypeState) : (h.setType n t).dbg = h.dbg := by cases t <;> rfl
@[simp] theorem Hart.setType_eq (h : Hart) (n : Nat) (t : Option TypeState) : (h.setType n t).eq = h.eq := by cases t <;> rfl
@[simp] theorem Hart.setType_placed (h : Hart) (n : Nat) (t : Option TypeState) : (h.setType n t).placed = h.placed := by cases t <;> rfl
@[simp] theorem Hart.setType_pending (h : Hart) (n : Nat) (t : Option TypeState) : (h.setType n t).pending = h.pending := by cases t <;> rfl
@[simp] theorem Hart.setType_wake (h : Hart) (n : Nat) (t : Option TypeState) : (h.setType n t).wake = h.wake := by cases t <;> rfl
@[simp] theorem Hart.setType_wait (h : Hart) (n : Nat) (t : Option TypeState) : (h.setType n t).wait = h.wait := by cases t <;> rfl
@[simp] theorem Hart.setType_linkHold (h : Hart) (n : Nat) (t : Option TypeState) : (h.setType n t).linkHold = h.linkHold := by cases t <;> rfl
@[simp] theorem Hart.setType_arrayAt (h : Hart) (n : Nat) (t : Option TypeState) : (h.setType n t).arrayAt = h.arrayAt := by cases t <;> rfl
@[simp] theorem Hart.setType_partLoad (h : Hart) (n : Nat) (t : Option TypeState) : (h.setType n t).partLoad = h.partLoad := by cases t <;> rfl
@[simp] theorem Hart.setType_touched (h : Hart) (n : Nat) (t : Option TypeState) : (h.setType n t).touched = h.touched := by cases t <;> rfl
@[simp] theorem Hart.setType_vprogs (h : Hart) (n : Nat) (t : Option TypeState) : (h.setType n t).vprogs = h.vprogs := by cases t <;> rfl
@[simp] theorem Hart.setType_wq (h : Hart) (n : Nat) (t : Option TypeState) : (h.setType n t).wq = h.wq := by cases t <;> rfl
@[simp] theorem Hart.setType_credit (h : Hart) (n : Nat) (t : Option TypeState) : (h.setType n t).credit = h.credit := by cases t <;> rfl
@[simp] theorem Hart.setType_issued (h : Hart) (n : Nat) (t : Option TypeState) : (h.setType n t).issued = h.issued := by cases t <;> rfl
@[simp] theorem Hart.setType_joined (h : Hart) (n : Nat) (t : Option TypeState) : (h.setType n t).joined = h.joined := by cases t <;> rfl
@[simp] theorem Hart.setType_arrGang (h : Hart) (n : Nat) (t : Option TypeState) : (h.setType n t).arrGang = h.arrGang := by cases t <;> rfl
@[simp] theorem Hart.setType_arrStage (h : Hart) (n : Nat) (t : Option TypeState) : (h.setType n t).arrStage = h.arrStage := by cases t <;> rfl
@[simp] theorem Hart.setType_tcmBase (h : Hart) (n : Nat) (t : Option TypeState) : (h.setType n t).tcmBase = h.tcmBase := by cases t <;> rfl
@[simp] theorem Hart.setType_tcmUnits (h : Hart) (n : Nat) (t : Option TypeState) : (h.setType n t).tcmUnits = h.tcmUnits := by cases t <;> rfl
@[simp] theorem Hart.setType_stopAt (h : Hart) (n : Nat) (t : Option TypeState) : (h.setType n t).stopAt = h.stopAt := by cases t <;> rfl
@[simp] theorem Hart.setType_migrating (h : Hart) (n : Nat) (t : Option TypeState) : (h.setType n t).migrating = h.migrating := by cases t <;> rfl
@[simp] theorem Hart.setType_seatless (h : Hart) (n : Nat) (t : Option TypeState) : (h.setType n t).seatless = h.seatless := by cases t <;> rfl
@[simp] theorem Hart.setType_quiet (h : Hart) (n : Nat) (t : Option TypeState) : (h.setType n t).quiet = h.quiet := by cases t <;> rfl
@[simp] theorem Hart.setType_fate (h : Hart) (n : Nat) (t : Option TypeState) : (h.setType n t).fate = h.fate := by cases t <;> rfl

@[simp] theorem Hart.stop_name (h : Hart) (k : StopKind) : (h.stop k).name = h.name := rfl
@[simp] theorem Hart.stop_core (h : Hart) (k : StopKind) : (h.stop k).core = h.core := rfl
@[simp] theorem Hart.stop_frozen (h : Hart) (k : StopKind) : (h.stop k).frozen = h.frozen := rfl
@[simp] theorem Hart.stop_pc (h : Hart) (k : StopKind) : (h.stop k).pc = h.pc := rfl
@[simp] theorem Hart.stop_x (h : Hart) (k : StopKind) : (h.stop k).x = h.x := rfl
@[simp] theorem Hart.stop_priv (h : Hart) (k : StopKind) : (h.stop k).priv = h.priv := rfl
@[simp] theorem Hart.stop_gated (h : Hart) (k : StopKind) : (h.stop k).gated = h.gated := rfl
@[simp] theorem Hart.stop_fm (h : Hart) (k : StopKind) : (h.stop k).fm = h.fm := rfl
@[simp] theorem Hart.stop_flags (h : Hart) (k : StopKind) : (h.stop k).flags = h.flags := rfl
@[simp] theorem Hart.stop_flagEn (h : Hart) (k : StopKind) : (h.stop k).flagEn = h.flagEn := rfl
@[simp] theorem Hart.stop_srgen (h : Hart) (k : StopKind) : (h.stop k).srgen = h.srgen := rfl
@[simp] theorem Hart.stop_instret (h : Hart) (k : StopKind) : (h.stop k).instret = h.instret := rfl
@[simp] theorem Hart.stop_retired (h : Hart) (k : StopKind) : (h.stop k).retired = h.retired := rfl
@[simp] theorem Hart.stop_hartidx (h : Hart) (k : StopKind) : (h.stop k).hartidx = h.hartidx := rfl
@[simp] theorem Hart.stop_stage (h : Hart) (k : StopKind) : (h.stop k).stage = h.stage := rfl
@[simp] theorem Hart.stop_gx (h : Hart) (k : StopKind) : (h.stop k).gx = h.gx := rfl
@[simp] theorem Hart.stop_gy (h : Hart) (k : StopKind) : (h.stop k).gy = h.gy := rfl
@[simp] theorem Hart.stop_gz (h : Hart) (k : StopKind) : (h.stop k).gz = h.gz := rfl
@[simp] theorem Hart.stop_grant (h : Hart) (k : StopKind) : (h.stop k).grant = h.grant := rfl
@[simp] theorem Hart.stop_vl (h : Hart) (k : StopKind) : (h.stop k).vl = h.vl := rfl
@[simp] theorem Hart.stop_vtype (h : Hart) (k : StopKind) : (h.stop k).vtype = h.vtype := rfl
@[simp] theorem Hart.stop_mid (h : Hart) (k : StopKind) : (h.stop k).mid = h.mid := rfl
@[simp] theorem Hart.stop_mmode (h : Hart) (k : StopKind) : (h.stop k).mmode = h.mmode := rfl
@[simp] theorem Hart.stop_v (h : Hart) (k : StopKind) : (h.stop k).v = h.v := rfl
@[simp] theorem Hart.stop_m (h : Hart) (k : StopKind) : (h.stop k).m = h.m := rfl
@[simp] theorem Hart.stop_unsure (h : Hart) (k : StopKind) : (h.stop k).unsure = h.unsure := rfl
@[simp] theorem Hart.stop_dq (h : Hart) (k : StopKind) : (h.stop k).dq = h.dq := rfl
@[simp] theorem Hart.stop_matrixFlag (h : Hart) (k : StopKind) : (h.stop k).matrixFlag = h.matrixFlag := rfl
@[simp] theorem Hart.stop_mode (h : Hart) (k : StopKind) : (h.stop k).mode = h.mode := rfl
@[simp] theorem Hart.stop_mchain (h : Hart) (k : StopKind) : (h.stop k).mchain = h.mchain := rfl
@[simp] theorem Hart.stop_tile (h : Hart) (k : StopKind) : (h.stop k).tile = h.tile := rfl
@[simp] theorem Hart.stop_cells (h : Hart) (k : StopKind) : (h.stop k).cells = h.cells := rfl
@[simp] theorem Hart.stop_heldFlags (h : Hart) (k : StopKind) : (h.stop k).heldFlags = h.heldFlags := rfl
@[simp] theorem Hart.stop_msc (h : Hart) (k : StopKind) : (h.stop k).msc = h.msc := rfl
@[simp] theorem Hart.stop_moff (h : Hart) (k : StopKind) : (h.stop k).moff = h.moff := rfl
@[simp] theorem Hart.stop_rcount (h : Hart) (k : StopKind) : (h.stop k).rcount = h.rcount := rfl
@[simp] theorem Hart.stop_xlat (h : Hart) (k : StopKind) : (h.stop k).xlat = h.xlat := rfl
@[simp] theorem Hart.stop_tlb (h : Hart) (k : StopKind) : (h.stop k).tlb = h.tlb := rfl
@[simp] theorem Hart.stop_ibuf (h : Hart) (k : StopKind) : (h.stop k).ibuf = h.ibuf := rfl
@[simp] theorem Hart.stop_fenced (h : Hart) (k : StopKind) : (h.stop k).fenced = h.fenced := rfl
@[simp] theorem Hart.stop_early (h : Hart) (k : StopKind) : (h.stop k).early = h.early := rfl
@[simp] theorem Hart.stop_tm (h : Hart) (k : StopKind) : (h.stop k).tm = h.tm := rfl
@[simp] theorem Hart.stop_word (h : Hart) (k : StopKind) : (h.stop k).word = h.word := rfl
@[simp] theorem Hart.stop_seqr (h : Hart) (k : StopKind) : (h.stop k).seqr = h.seqr := rfl
@[simp] theorem Hart.stop_gate (h : Hart) (k : StopKind) : (h.stop k).gate = h.gate := rfl
@[simp] theorem Hart.stop_trapvec (h : Hart) (k : StopKind) : (h.stop k).trapvec = h.trapvec := rfl
@[simp] theorem Hart.stop_abandon (h : Hart) (k : StopKind) : (h.stop k).abandon = h.abandon := rfl
@[simp] theorem Hart.stop_grace (h : Hart) (k : StopKind) : (h.stop k).grace = h.grace := rfl
@[simp] theorem Hart.stop_gtbase (h : Hart) (k : StopKind) : (h.stop k).gtbase = h.gtbase := rfl
@[simp] theorem Hart.stop_sup (h : Hart) (k : StopKind) : (h.stop k).sup = h.sup := rfl
@[simp] theorem Hart.stop_sscratch (h : Hart) (k : StopKind) : (h.stop k).sscratch = h.sscratch := rfl
@[simp] theorem Hart.stop_tie (h : Hart) (k : StopKind) : (h.stop k).tie = h.tie := rfl
@[simp] theorem Hart.stop_swe (h : Hart) (k : StopKind) : (h.stop k).swe = h.swe := rfl
@[simp] theorem Hart.stop_eve (h : Hart) (k : StopKind) : (h.stop k).eve = h.eve := rfl
@[simp] theorem Hart.stop_swp (h : Hart) (k : StopKind) : (h.stop k).swp = h.swp := rfl
@[simp] theorem Hart.stop_sevent (h : Hart) (k : StopKind) : (h.stop k).sevent = h.sevent := rfl
@[simp] theorem Hart.stop_stimecmp (h : Hart) (k : StopKind) : (h.stop k).stimecmp = h.stimecmp := rfl
@[simp] theorem Hart.stop_fvec (h : Hart) (k : StopKind) : (h.stop k).fvec = h.fvec := rfl
@[simp] theorem Hart.stop_fw (h : Hart) (k : StopKind) : (h.stop k).fw = h.fw := rfl
@[simp] theorem Hart.stop_eq (h : Hart) (k : StopKind) : (h.stop k).eq = h.eq := rfl
@[simp] theorem Hart.stop_placed (h : Hart) (k : StopKind) : (h.stop k).placed = h.placed := rfl
@[simp] theorem Hart.stop_pending (h : Hart) (k : StopKind) : (h.stop k).pending = h.pending := rfl
@[simp] theorem Hart.stop_arrayAt (h : Hart) (k : StopKind) : (h.stop k).arrayAt = h.arrayAt := rfl
@[simp] theorem Hart.stop_touched (h : Hart) (k : StopKind) : (h.stop k).touched = h.touched := rfl
@[simp] theorem Hart.stop_vprogs (h : Hart) (k : StopKind) : (h.stop k).vprogs = h.vprogs := rfl
@[simp] theorem Hart.stop_wq (h : Hart) (k : StopKind) : (h.stop k).wq = h.wq := rfl
@[simp] theorem Hart.stop_credit (h : Hart) (k : StopKind) : (h.stop k).credit = h.credit := rfl
@[simp] theorem Hart.stop_issued (h : Hart) (k : StopKind) : (h.stop k).issued = h.issued := rfl
@[simp] theorem Hart.stop_joined (h : Hart) (k : StopKind) : (h.stop k).joined = h.joined := rfl
@[simp] theorem Hart.stop_arrGang (h : Hart) (k : StopKind) : (h.stop k).arrGang = h.arrGang := rfl
@[simp] theorem Hart.stop_arrStage (h : Hart) (k : StopKind) : (h.stop k).arrStage = h.arrStage := rfl
@[simp] theorem Hart.stop_tcmBase (h : Hart) (k : StopKind) : (h.stop k).tcmBase = h.tcmBase := rfl
@[simp] theorem Hart.stop_tcmUnits (h : Hart) (k : StopKind) : (h.stop k).tcmUnits = h.tcmUnits := rfl
@[simp] theorem Hart.stop_migrating (h : Hart) (k : StopKind) : (h.stop k).migrating = h.migrating := rfl
@[simp] theorem Hart.stop_seatless (h : Hart) (k : StopKind) : (h.stop k).seatless = h.seatless := rfl
@[simp] theorem Hart.stop_quiet (h : Hart) (k : StopKind) : (h.stop k).quiet = h.quiet := rfl

/-! ## The loop sequencer moves x, pc and itself alone (R93) -/

/-- A write of a scalar register changes scalar registers alone. -/
theorem Hart.wx_frame (h : Hart) (r : BitVec 5) (w : Word) : ∃ x, h.wx r w = { h with x := x } := by
  unfold Hart.wx
  split
  · exact ⟨h.x, rfl⟩
  · exact ⟨_, rfl⟩

/-- A stride step moves scalar registers alone. -/
theorem Hart.stride_frame (level times : Nat) (h : Hart) : ∃ x, h.stride level times = { h with x := x } := by
  obtain ⟨x, hx⟩ := h.wx_frame (h.seqr.slot0.toList.getD level ⟨0, 0⟩).reg
    (h.rx (h.seqr.slot0.toList.getD level ⟨0, 0⟩).reg +
      (h.seqr.slot0.toList.getD level ⟨0, 0⟩).stride * BitVec.ofNat 64 times)
  simp only [Hart.stride, hx]
  obtain ⟨y, hy⟩ := Hart.wx_frame { h with x := x } (h.seqr.slot1.toList.getD level ⟨0, 0⟩).reg
    (Hart.rx { h with x := x } (h.seqr.slot1.toList.getD level ⟨0, 0⟩).reg +
      (h.seqr.slot1.toList.getD level ⟨0, 0⟩).stride * BitVec.ofNat 64 times)
  exact ⟨y, hy⟩

/-- What the sequencer's search for the next word can change. -/
theorem Hart.loopFrom_frame (fuel : Nat) (h : Hart) (l : ActiveLoop) (k : Nat) :
    ∃ x pc q, Hart.loopFrom fuel h l k = { h with x := x, pc := pc, seqr := q } := by
  induction fuel generalizing h l k with
  | zero =>
    unfold Hart.loopFrom
    split
    · exact ⟨_, _, _, rfl⟩
    · exact ⟨_, _, _, rfl⟩
  | succ n ih =>
    unfold Hart.loopFrom
    split
    · exact ⟨_, _, _, rfl⟩
    · split
      · rename_i n' level heq hop
        obtain ⟨x, hx⟩ := Hart.stride_frame level
          (if level = 0 ∧ ¬ h.seqr.runsMiddle l then h.seqr.counts[0].toNat - 1 - l.index[0].toNat else 1) h
        obtain ⟨y, pc, q, hy⟩ := ih (h.stride level
          (if level = 0 ∧ ¬ h.seqr.runsMiddle l then h.seqr.counts[0].toNat - 1 - l.index[0].toNat else 1))
          (l.up level (if level = 0 ∧ ¬ h.seqr.runsMiddle l then h.seqr.counts[0].toNat - 1 - l.index[0].toNat else 1)) 0
        cases heq
        refine ⟨y, pc, q, ?_⟩
        simp only at hy ⊢
        rw [hy, hx]
      · exact ⟨_, _, _, rfl⟩

/-- What the pc's advance can change. -/
theorem Hart.advance_frame (h : Hart) : ∃ x pc q, h.advance = { h with x := x, pc := pc, seqr := q } := by
  unfold Hart.advance
  split
  · split
    · exact Hart.loopFrom_frame _ _ _ _
    · exact ⟨h.x, _, h.seqr, rfl⟩
  · exact ⟨h.x, _, h.seqr, rfl⟩

/-- With no loop running the next word follows. -/
theorem Hart.advance_plain (h : Hart) (hl : h.looping = none) : h.advance = { h with pc := h.pc + 4 } := by
  simp only [Hart.advance, hl]

@[simp] theorem Hart.count_looping (h : Hart) : h.count.looping = h.looping := rfl

/-- Retirement with no loop running. -/
theorem Hart.retire_plain (h : Hart) (hl : h.looping = none) : h.retire = { h.count with pc := h.pc + 4 } := by
  rw [Hart.retire, Hart.advance_plain _ (by simpa using hl)]
  rfl

@[simp] theorem Hart.advance_name (h : Hart) : h.advance.name = h.name := by
  obtain ⟨x, pc, q, e⟩ := h.advance_frame; rw [e]
@[simp] theorem Hart.advance_core (h : Hart) : h.advance.core = h.core := by
  obtain ⟨x, pc, q, e⟩ := h.advance_frame; rw [e]
@[simp] theorem Hart.advance_run (h : Hart) : h.advance.run = h.run := by
  obtain ⟨x, pc, q, e⟩ := h.advance_frame; rw [e]
@[simp] theorem Hart.advance_frozen (h : Hart) : h.advance.frozen = h.frozen := by
  obtain ⟨x, pc, q, e⟩ := h.advance_frame; rw [e]
@[simp] theorem Hart.advance_priv (h : Hart) : h.advance.priv = h.priv := by
  obtain ⟨x, pc, q, e⟩ := h.advance_frame; rw [e]
@[simp] theorem Hart.advance_gated (h : Hart) : h.advance.gated = h.gated := by
  obtain ⟨x, pc, q, e⟩ := h.advance_frame; rw [e]
@[simp] theorem Hart.advance_fm (h : Hart) : h.advance.fm = h.fm := by
  obtain ⟨x, pc, q, e⟩ := h.advance_frame; rw [e]
@[simp] theorem Hart.advance_flags (h : Hart) : h.advance.flags = h.flags := by
  obtain ⟨x, pc, q, e⟩ := h.advance_frame; rw [e]
@[simp] theorem Hart.advance_flagEn (h : Hart) : h.advance.flagEn = h.flagEn := by
  obtain ⟨x, pc, q, e⟩ := h.advance_frame; rw [e]
@[simp] theorem Hart.advance_srgen (h : Hart) : h.advance.srgen = h.srgen := by
  obtain ⟨x, pc, q, e⟩ := h.advance_frame; rw [e]
@[simp] theorem Hart.advance_instret (h : Hart) : h.advance.instret = h.instret := by
  obtain ⟨x, pc, q, e⟩ := h.advance_frame; rw [e]
@[simp] theorem Hart.advance_retired (h : Hart) : h.advance.retired = h.retired := by
  obtain ⟨x, pc, q, e⟩ := h.advance_frame; rw [e]
@[simp] theorem Hart.advance_hartidx (h : Hart) : h.advance.hartidx = h.hartidx := by
  obtain ⟨x, pc, q, e⟩ := h.advance_frame; rw [e]
@[simp] theorem Hart.advance_stage (h : Hart) : h.advance.stage = h.stage := by
  obtain ⟨x, pc, q, e⟩ := h.advance_frame; rw [e]
@[simp] theorem Hart.advance_gx (h : Hart) : h.advance.gx = h.gx := by
  obtain ⟨x, pc, q, e⟩ := h.advance_frame; rw [e]
@[simp] theorem Hart.advance_gy (h : Hart) : h.advance.gy = h.gy := by
  obtain ⟨x, pc, q, e⟩ := h.advance_frame; rw [e]
@[simp] theorem Hart.advance_gz (h : Hart) : h.advance.gz = h.gz := by
  obtain ⟨x, pc, q, e⟩ := h.advance_frame; rw [e]
@[simp] theorem Hart.advance_grant (h : Hart) : h.advance.grant = h.grant := by
  obtain ⟨x, pc, q, e⟩ := h.advance_frame; rw [e]
@[simp] theorem Hart.advance_vl (h : Hart) : h.advance.vl = h.vl := by
  obtain ⟨x, pc, q, e⟩ := h.advance_frame; rw [e]
@[simp] theorem Hart.advance_vtype (h : Hart) : h.advance.vtype = h.vtype := by
  obtain ⟨x, pc, q, e⟩ := h.advance_frame; rw [e]
@[simp] theorem Hart.advance_vprog (h : Hart) : h.advance.vprog = h.vprog := by
  obtain ⟨x, pc, q, e⟩ := h.advance_frame; rw [e]
@[simp] theorem Hart.advance_vprogPc (h : Hart) : h.advance.vprogPc = h.vprogPc := by
  obtain ⟨x, pc, q, e⟩ := h.advance_frame; rw [e]
@[simp] theorem Hart.advance_mid (h : Hart) : h.advance.mid = h.mid := by
  obtain ⟨x, pc, q, e⟩ := h.advance_frame; rw [e]
@[simp] theorem Hart.advance_mmode (h : Hart) : h.advance.mmode = h.mmode := by
  obtain ⟨x, pc, q, e⟩ := h.advance_frame; rw [e]
@[simp] theorem Hart.advance_v (h : Hart) : h.advance.v = h.v := by
  obtain ⟨x, pc, q, e⟩ := h.advance_frame; rw [e]
@[simp] theorem Hart.advance_m (h : Hart) : h.advance.m = h.m := by
  obtain ⟨x, pc, q, e⟩ := h.advance_frame; rw [e]
@[simp] theorem Hart.advance_unsure (h : Hart) : h.advance.unsure = h.unsure := by
  obtain ⟨x, pc, q, e⟩ := h.advance_frame; rw [e]
@[simp] theorem Hart.advance_dq (h : Hart) : h.advance.dq = h.dq := by
  obtain ⟨x, pc, q, e⟩ := h.advance_frame; rw [e]
@[simp] theorem Hart.advance_matrixFlag (h : Hart) : h.advance.matrixFlag = h.matrixFlag := by
  obtain ⟨x, pc, q, e⟩ := h.advance_frame; rw [e]
@[simp] theorem Hart.advance_mode (h : Hart) : h.advance.mode = h.mode := by
  obtain ⟨x, pc, q, e⟩ := h.advance_frame; rw [e]
@[simp] theorem Hart.advance_mchain (h : Hart) : h.advance.mchain = h.mchain := by
  obtain ⟨x, pc, q, e⟩ := h.advance_frame; rw [e]
@[simp] theorem Hart.advance_tile (h : Hart) : h.advance.tile = h.tile := by
  obtain ⟨x, pc, q, e⟩ := h.advance_frame; rw [e]
@[simp] theorem Hart.advance_cells (h : Hart) : h.advance.cells = h.cells := by
  obtain ⟨x, pc, q, e⟩ := h.advance_frame; rw [e]
@[simp] theorem Hart.advance_heldFlags (h : Hart) : h.advance.heldFlags = h.heldFlags := by
  obtain ⟨x, pc, q, e⟩ := h.advance_frame; rw [e]
@[simp] theorem Hart.advance_msc (h : Hart) : h.advance.msc = h.msc := by
  obtain ⟨x, pc, q, e⟩ := h.advance_frame; rw [e]
@[simp] theorem Hart.advance_moff (h : Hart) : h.advance.moff = h.moff := by
  obtain ⟨x, pc, q, e⟩ := h.advance_frame; rw [e]
@[simp] theorem Hart.advance_rcount (h : Hart) : h.advance.rcount = h.rcount := by
  obtain ⟨x, pc, q, e⟩ := h.advance_frame; rw [e]
@[simp] theorem Hart.advance_xlat (h : Hart) : h.advance.xlat = h.xlat := by
  obtain ⟨x, pc, q, e⟩ := h.advance_frame; rw [e]
@[simp] theorem Hart.advance_tlb (h : Hart) : h.advance.tlb = h.tlb := by
  obtain ⟨x, pc, q, e⟩ := h.advance_frame; rw [e]
@[simp] theorem Hart.advance_ibuf (h : Hart) : h.advance.ibuf = h.ibuf := by
  obtain ⟨x, pc, q, e⟩ := h.advance_frame; rw [e]
@[simp] theorem Hart.advance_fenced (h : Hart) : h.advance.fenced = h.fenced := by
  obtain ⟨x, pc, q, e⟩ := h.advance_frame; rw [e]
@[simp] theorem Hart.advance_early (h : Hart) : h.advance.early = h.early := by
  obtain ⟨x, pc, q, e⟩ := h.advance_frame; rw [e]
@[simp] theorem Hart.advance_tm (h : Hart) : h.advance.tm = h.tm := by
  obtain ⟨x, pc, q, e⟩ := h.advance_frame; rw [e]
@[simp] theorem Hart.advance_word (h : Hart) : h.advance.word = h.word := by
  obtain ⟨x, pc, q, e⟩ := h.advance_frame; rw [e]
@[simp] theorem Hart.advance_gate (h : Hart) : h.advance.gate = h.gate := by
  obtain ⟨x, pc, q, e⟩ := h.advance_frame; rw [e]
@[simp] theorem Hart.advance_trapvec (h : Hart) : h.advance.trapvec = h.trapvec := by
  obtain ⟨x, pc, q, e⟩ := h.advance_frame; rw [e]
@[simp] theorem Hart.advance_abandon (h : Hart) : h.advance.abandon = h.abandon := by
  obtain ⟨x, pc, q, e⟩ := h.advance_frame; rw [e]
@[simp] theorem Hart.advance_grace (h : Hart) : h.advance.grace = h.grace := by
  obtain ⟨x, pc, q, e⟩ := h.advance_frame; rw [e]
@[simp] theorem Hart.advance_gtbase (h : Hart) : h.advance.gtbase = h.gtbase := by
  obtain ⟨x, pc, q, e⟩ := h.advance_frame; rw [e]
@[simp] theorem Hart.advance_sup (h : Hart) : h.advance.sup = h.sup := by
  obtain ⟨x, pc, q, e⟩ := h.advance_frame; rw [e]
@[simp] theorem Hart.advance_sscratch (h : Hart) : h.advance.sscratch = h.sscratch := by
  obtain ⟨x, pc, q, e⟩ := h.advance_frame; rw [e]
@[simp] theorem Hart.advance_tie (h : Hart) : h.advance.tie = h.tie := by
  obtain ⟨x, pc, q, e⟩ := h.advance_frame; rw [e]
@[simp] theorem Hart.advance_swe (h : Hart) : h.advance.swe = h.swe := by
  obtain ⟨x, pc, q, e⟩ := h.advance_frame; rw [e]
@[simp] theorem Hart.advance_eve (h : Hart) : h.advance.eve = h.eve := by
  obtain ⟨x, pc, q, e⟩ := h.advance_frame; rw [e]
@[simp] theorem Hart.advance_swp (h : Hart) : h.advance.swp = h.swp := by
  obtain ⟨x, pc, q, e⟩ := h.advance_frame; rw [e]
@[simp] theorem Hart.advance_sevent (h : Hart) : h.advance.sevent = h.sevent := by
  obtain ⟨x, pc, q, e⟩ := h.advance_frame; rw [e]
@[simp] theorem Hart.advance_stimecmp (h : Hart) : h.advance.stimecmp = h.stimecmp := by
  obtain ⟨x, pc, q, e⟩ := h.advance_frame; rw [e]
@[simp] theorem Hart.advance_fvec (h : Hart) : h.advance.fvec = h.fvec := by
  obtain ⟨x, pc, q, e⟩ := h.advance_frame; rw [e]
@[simp] theorem Hart.advance_fw (h : Hart) : h.advance.fw = h.fw := by
  obtain ⟨x, pc, q, e⟩ := h.advance_frame; rw [e]
@[simp] theorem Hart.advance_dbg (h : Hart) : h.advance.dbg = h.dbg := by
  obtain ⟨x, pc, q, e⟩ := h.advance_frame; rw [e]
@[simp] theorem Hart.advance_eq (h : Hart) : h.advance.eq = h.eq := by
  obtain ⟨x, pc, q, e⟩ := h.advance_frame; rw [e]
@[simp] theorem Hart.advance_placed (h : Hart) : h.advance.placed = h.placed := by
  obtain ⟨x, pc, q, e⟩ := h.advance_frame; rw [e]
@[simp] theorem Hart.advance_pending (h : Hart) : h.advance.pending = h.pending := by
  obtain ⟨x, pc, q, e⟩ := h.advance_frame; rw [e]
@[simp] theorem Hart.advance_wake (h : Hart) : h.advance.wake = h.wake := by
  obtain ⟨x, pc, q, e⟩ := h.advance_frame; rw [e]
@[simp] theorem Hart.advance_wait (h : Hart) : h.advance.wait = h.wait := by
  obtain ⟨x, pc, q, e⟩ := h.advance_frame; rw [e]
@[simp] theorem Hart.advance_linkHold (h : Hart) : h.advance.linkHold = h.linkHold := by
  obtain ⟨x, pc, q, e⟩ := h.advance_frame; rw [e]
@[simp] theorem Hart.advance_arrayAt (h : Hart) : h.advance.arrayAt = h.arrayAt := by
  obtain ⟨x, pc, q, e⟩ := h.advance_frame; rw [e]
@[simp] theorem Hart.advance_partLoad (h : Hart) : h.advance.partLoad = h.partLoad := by
  obtain ⟨x, pc, q, e⟩ := h.advance_frame; rw [e]
@[simp] theorem Hart.advance_touched (h : Hart) : h.advance.touched = h.touched := by
  obtain ⟨x, pc, q, e⟩ := h.advance_frame; rw [e]
@[simp] theorem Hart.advance_vprogs (h : Hart) : h.advance.vprogs = h.vprogs := by
  obtain ⟨x, pc, q, e⟩ := h.advance_frame; rw [e]
@[simp] theorem Hart.advance_wq (h : Hart) : h.advance.wq = h.wq := by
  obtain ⟨x, pc, q, e⟩ := h.advance_frame; rw [e]
@[simp] theorem Hart.advance_credit (h : Hart) : h.advance.credit = h.credit := by
  obtain ⟨x, pc, q, e⟩ := h.advance_frame; rw [e]
@[simp] theorem Hart.advance_issued (h : Hart) : h.advance.issued = h.issued := by
  obtain ⟨x, pc, q, e⟩ := h.advance_frame; rw [e]
@[simp] theorem Hart.advance_joined (h : Hart) : h.advance.joined = h.joined := by
  obtain ⟨x, pc, q, e⟩ := h.advance_frame; rw [e]
@[simp] theorem Hart.advance_arrGang (h : Hart) : h.advance.arrGang = h.arrGang := by
  obtain ⟨x, pc, q, e⟩ := h.advance_frame; rw [e]
@[simp] theorem Hart.advance_arrStage (h : Hart) : h.advance.arrStage = h.arrStage := by
  obtain ⟨x, pc, q, e⟩ := h.advance_frame; rw [e]
@[simp] theorem Hart.advance_tcmBase (h : Hart) : h.advance.tcmBase = h.tcmBase := by
  obtain ⟨x, pc, q, e⟩ := h.advance_frame; rw [e]
@[simp] theorem Hart.advance_tcmUnits (h : Hart) : h.advance.tcmUnits = h.tcmUnits := by
  obtain ⟨x, pc, q, e⟩ := h.advance_frame; rw [e]
@[simp] theorem Hart.advance_stopAt (h : Hart) : h.advance.stopAt = h.stopAt := by
  obtain ⟨x, pc, q, e⟩ := h.advance_frame; rw [e]
@[simp] theorem Hart.advance_migrating (h : Hart) : h.advance.migrating = h.migrating := by
  obtain ⟨x, pc, q, e⟩ := h.advance_frame; rw [e]
@[simp] theorem Hart.advance_seatless (h : Hart) : h.advance.seatless = h.seatless := by
  obtain ⟨x, pc, q, e⟩ := h.advance_frame; rw [e]
@[simp] theorem Hart.advance_quiet (h : Hart) : h.advance.quiet = h.quiet := by
  obtain ⟨x, pc, q, e⟩ := h.advance_frame; rw [e]
@[simp] theorem Hart.advance_fate (h : Hart) : h.advance.fate = h.fate := by
  obtain ⟨x, pc, q, e⟩ := h.advance_frame; rw [e]

@[simp] theorem Hart.retire_name (h : Hart) : h.retire.name = h.name := by
  rw [Hart.retire, Hart.advance_name]; rfl
@[simp] theorem Hart.retire_core (h : Hart) : h.retire.core = h.core := by
  rw [Hart.retire, Hart.advance_core]; rfl
@[simp] theorem Hart.retire_run (h : Hart) : h.retire.run = h.run := by
  rw [Hart.retire, Hart.advance_run]; rfl
@[simp] theorem Hart.retire_frozen (h : Hart) : h.retire.frozen = h.frozen := by
  rw [Hart.retire, Hart.advance_frozen]; rfl
@[simp] theorem Hart.retire_priv (h : Hart) : h.retire.priv = h.priv := by
  rw [Hart.retire, Hart.advance_priv]; rfl
@[simp] theorem Hart.retire_gated (h : Hart) : h.retire.gated = h.gated := by
  rw [Hart.retire, Hart.advance_gated]; rfl
@[simp] theorem Hart.retire_fm (h : Hart) : h.retire.fm = h.fm := by
  rw [Hart.retire, Hart.advance_fm]; rfl
@[simp] theorem Hart.retire_flags (h : Hart) : h.retire.flags = h.flags := by
  rw [Hart.retire, Hart.advance_flags]; rfl
@[simp] theorem Hart.retire_flagEn (h : Hart) : h.retire.flagEn = h.flagEn := by
  rw [Hart.retire, Hart.advance_flagEn]; rfl
@[simp] theorem Hart.retire_srgen (h : Hart) : h.retire.srgen = h.srgen := by
  rw [Hart.retire, Hart.advance_srgen]; rfl
@[simp] theorem Hart.retire_instret (h : Hart) : h.retire.instret = h.instret + 1 := by
  rw [Hart.retire, Hart.advance_instret]; rfl
@[simp] theorem Hart.retire_retired (h : Hart) : h.retire.retired = h.retired + 1 := by
  rw [Hart.retire, Hart.advance_retired]; rfl
@[simp] theorem Hart.retire_hartidx (h : Hart) : h.retire.hartidx = h.hartidx := by
  rw [Hart.retire, Hart.advance_hartidx]; rfl
@[simp] theorem Hart.retire_stage (h : Hart) : h.retire.stage = h.stage := by
  rw [Hart.retire, Hart.advance_stage]; rfl
@[simp] theorem Hart.retire_gx (h : Hart) : h.retire.gx = h.gx := by
  rw [Hart.retire, Hart.advance_gx]; rfl
@[simp] theorem Hart.retire_gy (h : Hart) : h.retire.gy = h.gy := by
  rw [Hart.retire, Hart.advance_gy]; rfl
@[simp] theorem Hart.retire_gz (h : Hart) : h.retire.gz = h.gz := by
  rw [Hart.retire, Hart.advance_gz]; rfl
@[simp] theorem Hart.retire_grant (h : Hart) : h.retire.grant = h.grant := by
  rw [Hart.retire, Hart.advance_grant]; rfl
@[simp] theorem Hart.retire_vl (h : Hart) : h.retire.vl = h.vl := by
  rw [Hart.retire, Hart.advance_vl]; rfl
@[simp] theorem Hart.retire_vtype (h : Hart) : h.retire.vtype = h.vtype := by
  rw [Hart.retire, Hart.advance_vtype]; rfl
@[simp] theorem Hart.retire_vprog (h : Hart) : h.retire.vprog = 0 := by
  rw [Hart.retire, Hart.advance_vprog]; rfl
@[simp] theorem Hart.retire_vprogPc (h : Hart) : h.retire.vprogPc = h.vprogPc := by
  rw [Hart.retire, Hart.advance_vprogPc]; rfl
@[simp] theorem Hart.retire_mid (h : Hart) : h.retire.mid = h.mid := by
  rw [Hart.retire, Hart.advance_mid]; rfl
@[simp] theorem Hart.retire_mmode (h : Hart) : h.retire.mmode = h.mmode := by
  rw [Hart.retire, Hart.advance_mmode]; rfl
@[simp] theorem Hart.retire_v (h : Hart) : h.retire.v = h.v := by
  rw [Hart.retire, Hart.advance_v]; rfl
@[simp] theorem Hart.retire_m (h : Hart) : h.retire.m = h.m := by
  rw [Hart.retire, Hart.advance_m]; rfl
@[simp] theorem Hart.retire_unsure (h : Hart) : h.retire.unsure = h.unsure := by
  rw [Hart.retire, Hart.advance_unsure]; rfl
@[simp] theorem Hart.retire_dq (h : Hart) : h.retire.dq = h.dq := by
  rw [Hart.retire, Hart.advance_dq]; rfl
@[simp] theorem Hart.retire_matrixFlag (h : Hart) : h.retire.matrixFlag = h.matrixFlag := by
  rw [Hart.retire, Hart.advance_matrixFlag]; rfl
@[simp] theorem Hart.retire_mode (h : Hart) : h.retire.mode = h.mode := by
  rw [Hart.retire, Hart.advance_mode]; rfl
@[simp] theorem Hart.retire_mchain (h : Hart) : h.retire.mchain = h.mchain := by
  rw [Hart.retire, Hart.advance_mchain]; rfl
@[simp] theorem Hart.retire_tile (h : Hart) : h.retire.tile = h.tile := by
  rw [Hart.retire, Hart.advance_tile]; rfl
@[simp] theorem Hart.retire_cells (h : Hart) : h.retire.cells = h.cells := by
  rw [Hart.retire, Hart.advance_cells]; rfl
@[simp] theorem Hart.retire_heldFlags (h : Hart) : h.retire.heldFlags = h.heldFlags := by
  rw [Hart.retire, Hart.advance_heldFlags]; rfl
@[simp] theorem Hart.retire_msc (h : Hart) : h.retire.msc = h.msc := by
  rw [Hart.retire, Hart.advance_msc]; rfl
@[simp] theorem Hart.retire_moff (h : Hart) : h.retire.moff = h.moff := by
  rw [Hart.retire, Hart.advance_moff]; rfl
@[simp] theorem Hart.retire_rcount (h : Hart) : h.retire.rcount = h.rcount := by
  rw [Hart.retire, Hart.advance_rcount]; rfl
@[simp] theorem Hart.retire_xlat (h : Hart) : h.retire.xlat = h.xlat := by
  rw [Hart.retire, Hart.advance_xlat]; rfl
@[simp] theorem Hart.retire_tlb (h : Hart) : h.retire.tlb = h.tlb := by
  rw [Hart.retire, Hart.advance_tlb]; rfl
@[simp] theorem Hart.retire_ibuf (h : Hart) : h.retire.ibuf = h.ibuf := by
  rw [Hart.retire, Hart.advance_ibuf]; rfl
@[simp] theorem Hart.retire_fenced (h : Hart) : h.retire.fenced = h.fenced := by
  rw [Hart.retire, Hart.advance_fenced]; rfl
@[simp] theorem Hart.retire_early (h : Hart) : h.retire.early = h.early := by
  rw [Hart.retire, Hart.advance_early]; rfl
@[simp] theorem Hart.retire_tm (h : Hart) : h.retire.tm = h.tm := by
  rw [Hart.retire, Hart.advance_tm]; rfl
@[simp] theorem Hart.retire_word (h : Hart) : h.retire.word = h.word := by
  rw [Hart.retire, Hart.advance_word]; rfl
@[simp] theorem Hart.retire_gate (h : Hart) : h.retire.gate = h.gate := by
  rw [Hart.retire, Hart.advance_gate]; rfl
@[simp] theorem Hart.retire_trapvec (h : Hart) : h.retire.trapvec = h.trapvec := by
  rw [Hart.retire, Hart.advance_trapvec]; rfl
@[simp] theorem Hart.retire_abandon (h : Hart) : h.retire.abandon = h.abandon := by
  rw [Hart.retire, Hart.advance_abandon]; rfl
@[simp] theorem Hart.retire_grace (h : Hart) : h.retire.grace = h.grace := by
  rw [Hart.retire, Hart.advance_grace]; rfl
@[simp] theorem Hart.retire_gtbase (h : Hart) : h.retire.gtbase = h.gtbase := by
  rw [Hart.retire, Hart.advance_gtbase]; rfl
@[simp] theorem Hart.retire_sup (h : Hart) : h.retire.sup = h.sup := by
  rw [Hart.retire, Hart.advance_sup]; rfl
@[simp] theorem Hart.retire_sscratch (h : Hart) : h.retire.sscratch = h.sscratch := by
  rw [Hart.retire, Hart.advance_sscratch]; rfl
@[simp] theorem Hart.retire_tie (h : Hart) : h.retire.tie = h.tie := by
  rw [Hart.retire, Hart.advance_tie]; rfl
@[simp] theorem Hart.retire_swe (h : Hart) : h.retire.swe = h.swe := by
  rw [Hart.retire, Hart.advance_swe]; rfl
@[simp] theorem Hart.retire_eve (h : Hart) : h.retire.eve = h.eve := by
  rw [Hart.retire, Hart.advance_eve]; rfl
@[simp] theorem Hart.retire_swp (h : Hart) : h.retire.swp = h.swp := by
  rw [Hart.retire, Hart.advance_swp]; rfl
@[simp] theorem Hart.retire_sevent (h : Hart) : h.retire.sevent = h.sevent := by
  rw [Hart.retire, Hart.advance_sevent]; rfl
@[simp] theorem Hart.retire_stimecmp (h : Hart) : h.retire.stimecmp = h.stimecmp := by
  rw [Hart.retire, Hart.advance_stimecmp]; rfl
@[simp] theorem Hart.retire_fvec (h : Hart) : h.retire.fvec = h.fvec := by
  rw [Hart.retire, Hart.advance_fvec]; rfl
@[simp] theorem Hart.retire_fw (h : Hart) : h.retire.fw = h.fw := by
  rw [Hart.retire, Hart.advance_fw]; rfl
@[simp] theorem Hart.retire_dbg (h : Hart) : h.retire.dbg = { h.dbg with passBreak := false } := by
  rw [Hart.retire, Hart.advance_dbg]; rfl
@[simp] theorem Hart.retire_eq (h : Hart) : h.retire.eq = h.eq := by
  rw [Hart.retire, Hart.advance_eq]; rfl
@[simp] theorem Hart.retire_placed (h : Hart) : h.retire.placed = h.placed := by
  rw [Hart.retire, Hart.advance_placed]; rfl
@[simp] theorem Hart.retire_pending (h : Hart) : h.retire.pending = h.pending := by
  rw [Hart.retire, Hart.advance_pending]; rfl
@[simp] theorem Hart.retire_wake (h : Hart) : h.retire.wake = h.wake := by
  rw [Hart.retire, Hart.advance_wake]; rfl
@[simp] theorem Hart.retire_wait (h : Hart) : h.retire.wait = none := by
  rw [Hart.retire, Hart.advance_wait]; rfl
@[simp] theorem Hart.retire_linkHold (h : Hart) : h.retire.linkHold = none := by
  rw [Hart.retire, Hart.advance_linkHold]; rfl
@[simp] theorem Hart.retire_arrayAt (h : Hart) : h.retire.arrayAt = 0 := by
  rw [Hart.retire, Hart.advance_arrayAt]; rfl
@[simp] theorem Hart.retire_partLoad (h : Hart) : h.retire.partLoad = none := by
  rw [Hart.retire, Hart.advance_partLoad]; rfl
@[simp] theorem Hart.retire_touched (h : Hart) : h.retire.touched = [] := by
  rw [Hart.retire, Hart.advance_touched]; rfl
@[simp] theorem Hart.retire_vprogs (h : Hart) : h.retire.vprogs = h.vprogs := by
  rw [Hart.retire, Hart.advance_vprogs]; rfl
@[simp] theorem Hart.retire_wq (h : Hart) : h.retire.wq = h.wq := by
  rw [Hart.retire, Hart.advance_wq]; rfl
@[simp] theorem Hart.retire_credit (h : Hart) : h.retire.credit = h.credit := by
  rw [Hart.retire, Hart.advance_credit]; rfl
@[simp] theorem Hart.retire_issued (h : Hart) : h.retire.issued = h.issued := by
  rw [Hart.retire, Hart.advance_issued]; rfl
@[simp] theorem Hart.retire_joined (h : Hart) : h.retire.joined = h.joined := by
  rw [Hart.retire, Hart.advance_joined]; rfl
@[simp] theorem Hart.retire_arrGang (h : Hart) : h.retire.arrGang = h.arrGang := by
  rw [Hart.retire, Hart.advance_arrGang]; rfl
@[simp] theorem Hart.retire_arrStage (h : Hart) : h.retire.arrStage = h.arrStage := by
  rw [Hart.retire, Hart.advance_arrStage]; rfl
@[simp] theorem Hart.retire_tcmBase (h : Hart) : h.retire.tcmBase = h.tcmBase := by
  rw [Hart.retire, Hart.advance_tcmBase]; rfl
@[simp] theorem Hart.retire_tcmUnits (h : Hart) : h.retire.tcmUnits = h.tcmUnits := by
  rw [Hart.retire, Hart.advance_tcmUnits]; rfl
@[simp] theorem Hart.retire_stopAt (h : Hart) : h.retire.stopAt = none := by
  rw [Hart.retire, Hart.advance_stopAt]; rfl
@[simp] theorem Hart.retire_migrating (h : Hart) : h.retire.migrating = h.migrating := by
  rw [Hart.retire, Hart.advance_migrating]; rfl
@[simp] theorem Hart.retire_seatless (h : Hart) : h.retire.seatless = h.seatless := by
  rw [Hart.retire, Hart.advance_seatless]; rfl
@[simp] theorem Hart.retire_quiet (h : Hart) : h.retire.quiet = false := by
  rw [Hart.retire, Hart.advance_quiet]; rfl
@[simp] theorem Hart.retire_fate (h : Hart) : h.retire.fate = .retired := by
  rw [Hart.retire, Hart.advance_fate]; rfl

end Sys2Proof.Machine
end

