-- ==== Sys2Proof/Laws/Dies.lean ====
section
/-! SUPPORT. Every operation of the memory dies and the cluster caches keeps memory in its canonical form. -/

namespace Sys2Proof.Machine

/-! ## What leaves memory as it is -/

theorem foldl_mem {α : Type} (f : State → α → State) (hf : ∀ s a, (f s a).mem = s.mem) (l : List α) (s : State) :
    (l.foldl f s).mem = s.mem := by
  induction l generalizing s with
  | nil => rfl
  | cons a t ih => rw [List.foldl_cons, ih, hf]

@[simp] theorem State.startFreeze_mem (f : FreezeScope) (s : State) : (s.startFreeze f).mem = s.mem := rfl
@[simp] theorem State.raiseEvent_mem (b : Nat) (s : State) : (s.raiseEvent b).mem = s.mem := rfl
@[simp] theorem State.modHart_mem (n : HartName) (f : Hart → Hart) (s : State) : (s.modHart n f).mem = s.mem := rfl
@[simp] theorem State.touchDie_mem (a : Nat) (s : State) : (s.touchDie a).mem = s.mem := rfl
@[simp] theorem State.putLine_mem (c : Nat) (l : Line) (s : State) : (s.putLine c l).mem = s.mem := rfl
@[simp] theorem State.removeLine_mem (c pa : Nat) (s : State) : (s.removeLine c pa).mem = s.mem := rfl
@[simp] theorem State.acquire_mem (c : Nat) (s : State) : (s.acquire c).mem = s.mem := rfl
@[simp] theorem State.invalidateRange_mem (c pa n : Nat) (s : State) : (s.invalidateRange c pa n).mem = s.mem := rfl

@[simp] theorem State.fire_mem (who : Requester) (c u : Nat) (x : BitVec 2) (s : State) :
    (s.fire who c u x).mem = s.mem := by
  unfold State.fire
  split
  · rfl
  · cases who <;> rfl

@[simp] theorem State.watchCluster_mem (who : Requester) (a n : Nat) (ld st : Bool) (c : Nat) (k : Cluster)
    (s : State) : (s.watchCluster who a n ld st c k).mem = s.mem := by
  unfold State.watchCluster
  apply foldl_mem
  intro s u
  dsimp only
  split
  · exact State.fire_mem ..
  · rfl

@[simp] theorem State.watchDie_mem (who : Requester) (a n : Nat) (ld st : Bool) (s : State) :
    (s.watchDie who a n ld st).mem = s.mem := by
  unfold State.watchDie
  split
  · rfl
  · exact foldl_mem _ (fun s p => State.watchCluster_mem ..) _ _

@[simp] theorem State.mark_mem (g : Nat) (s : State) : (s.mark g).mem = s.mem := by
  unfold State.mark
  split <;> rfl

@[simp] theorem State.clearMarks_mem (l : List Nat) (s : State) : (s.clearMarks l).mem = s.mem := by
  unfold State.clearMarks
  split <;> rfl

@[simp] theorem State.modDie_mem' (k : Nat) (f : Die → Die) (s : State) : (s.modDie k f).mem = s.mem := rfl

@[simp] theorem State.meetLinks_mem (p : Path) (s : State) : (s.meetLinks p).mem = s.mem := by
  unfold State.meetLinks
  split <;> rfl

@[simp] theorem State.request_mem (who : Requester) (a : Nat) (s : State) : (s.request who a).mem = s.mem := by
  unfold State.request
  split
  · exact State.meetLinks_mem ..
  · exact State.meetLinks_mem ..

@[simp] theorem State.lowWater_mem (k : Nat) (s : State) : (s.lowWater k).mem = s.mem := by
  unfold State.lowWater
  dsimp only
  split
  · split <;> rfl
  · split <;> rfl

@[simp] theorem State.undrop_mem (b : Nat) (s : State) : (s.undrop b).mem = s.mem := by
  unfold State.undrop
  split <;> rfl

@[simp] theorem State.notePriors_mem (l : List Nat) (s : State) : (s.notePriors l).mem = s.mem := rfl
@[simp] theorem State.noteInside_mem (c pa a n : Nat) (s : State) : (s.noteInside c pa a n).mem = s.mem := rfl
@[simp] theorem State.loosen_mem (a n : Nat) (s : State) : (s.loosen a n).mem = s.mem := rfl

@[simp] theorem State.settleBytes_mem (l : List Nat) (s : State) : (s.settleBytes l).mem = s.mem := by
  unfold State.settleBytes
  split <;> rfl

/-! ## What keeps the canonical form -/

/-- A fold of steps that keep the canonical form keeps it. -/
theorem foldl_wf {α : Type} (f : State → α → State) (hf : ∀ s a, s.wf = true → (f s a).wf = true) (l : List α)
    (s : State) (h : s.wf = true) : (l.foldl f s).wf = true := by
  induction l generalizing s with
  | nil => exact h
  | cons a t ih => exact ih _ (hf s a h)

/-- A state with the same memory is canonical with it. -/
theorem State.wf_of_mem {s t : State} (h : s.wf = true) (e : t.mem = s.mem) : t.wf = true := by
  rw [State.wf, e]
  exact h

theorem State.wf_putAll {s : State} (h : s.wf = true) (l : List (Nat × Byte)) :
    Memory.wf (Memory.putAll s.mem l) = true := Memory.wf_putAll h l

theorem State.countRead_wf (a : Nat) (s : State) (h : s.wf = true) : (s.countRead a).wf = true := by
  have hm : Memory.wf s.mem = true := h
  unfold State.countRead
  split
  · exact h
  · dsimp only
    split
    · split <;> exact State.wf_of_mem h rfl
    · split
      · split
        · split
          · simp only [State.wf, State.modDie_mem]
            exact Memory.wf_putAll hm _
          · exact State.wf_of_mem h rfl
        · exact State.wf_of_mem h rfl
      · exact h

theorem State.modDie_wf (k : Nat) (f : Die → Die) (s : State) (h : s.wf = true) : (s.modDie k f).wf = true := h

theorem State.notePriors_wf (l : List Nat) (s : State) (h : s.wf = true) : (s.notePriors l).wf = true := h

theorem State.request_wf (who : Requester) (a : Nat) (s : State) (h : s.wf = true) : (s.request who a).wf = true :=
  State.wf_of_mem h (State.request_mem ..)

theorem State.undrop_wf (b : Nat) (s : State) (h : s.wf = true) : (s.undrop b).wf = true :=
  State.wf_of_mem h (State.undrop_mem ..)

theorem State.ordinaryLine_wf (b : Nat) (s : State) (h : s.wf = true) : (s.ordinaryLine b).wf = true := by
  unfold State.ordinaryLine
  split
  · exact Memory.wf_putAll h _
  · exact h

theorem State.writeUnasked_wf (k a : Nat) (d : List Byte) (s : State) (h : s.wf = true) :
    (s.writeUnasked k a d).wf = true := by
  have h1 : (((s.notePriors ((cellsFrom a d).map Prod.fst)).ordinaryLine (lineOf a)).undrop (lineOf a)).wf = true :=
    State.undrop_wf _ _ (State.ordinaryLine_wf _ _ (State.notePriors_wf _ _ h))
  have h2 (u : State) (l : List (Nat × Byte)) (m : List Nat) (hu : u.wf = true) :
      ((({ u with mem := Memory.putAll u.mem l } : State).clearMarks m).settleBytes m).wf = true :=
    State.wf_of_mem (s := { u with mem := Memory.putAll u.mem l }) (Memory.wf_putAll hu _)
      ((State.settleBytes_mem ..).trans (State.clearMarks_mem ..))
  unfold State.writeUnasked
  dsimp only
  split
  · exact State.wf_of_mem (h2 _ _ _ h1) ((State.watchDie_mem ..).trans (State.touchDie_mem ..))
  · exact h2 _ _ _ h1

theorem State.logCheck_wf (k : BitVec 8) (r : BitVec 11) (pa d : Word) (s : State) (h : s.wf = true) :
    (s.logCheck k r pa d).wf = true := by
  unfold State.logCheck
  dsimp only
  split
  · exact State.wf_of_mem (State.writeUnasked_wf _ _ _ _ h) rfl
  · exact State.wf_of_mem h rfl

theorem State.meetError_wf (kind : BitVec 8) (who : Requester) (e : Nat × Bool) (s : State) (h : s.wf = true) :
    (s.meetError kind who e).wf = true := by
  unfold State.meetError
  split
  · exact h
  · split
    · exact h
    · exact State.logCheck_wf _ _ _ _ _ (State.wf_of_mem h (State.mark_mem ..))

theorem State.readErrors_wf (who : Requester) (a n : Nat) (s : State) (h : s.wf = true) :
    (s.readErrors who a n).wf = true := by
  unfold State.readErrors
  split
  · exact h
  · exact foldl_wf _ (fun s e hs => State.meetError_wf 1 who e s hs) _ _ h

theorem State.storeErrors_wf (who : Requester) (l : List Nat) (s : State) (h : s.wf = true) :
    (s.storeErrors who l).wf = true := by
  unfold State.storeErrors
  split
  · exact h
  · exact foldl_wf _ (fun s e hs => State.meetError_wf 2 who e s hs) _ _ h

theorem State.readDie_wf (who : Requester) (a n : Nat) (s : State) (h : s.wf = true) :
    (s.readDie who a n).2.wf = true :=
  State.wf_of_mem (State.countRead_wf a _ (State.readErrors_wf _ _ _ _ (State.wf_of_mem h (State.request_mem ..))))
    (State.watchDie_mem ..)

theorem State.placeBlock_wf (who : Requester) (before : List Host.Cell) (a : Nat) (s : State)
    (hb : Memory.wf before = true) (h : s.wf = true) : (s.placeBlock who before a).wf = true := by
  unfold State.placeBlock
  dsimp only
  generalize (if s.blockUniform (a / 4096) then 1 else 1 + (Config.sectors s.steps (a / 4096)).val) = new
  split
  · exact State.wf_of_mem h (by simp)
  · split
    · exact State.logCheck_wf _ _ _ _ _ (State.wf_of_mem h (by simp))
    · refine State.logCheck_wf _ _ _ _ _ (State.wf_of_mem (s := { s with mem := before }) hb ?_)
      exact foldl_mem _ (fun s i => State.mark_mem ..) _ _

/-- The target-side units that see runs of bytes leave memory as it is. -/
@[simp] theorem State.watchRuns_mem (runs : List (Requester × Nat × Nat)) (s : State) :
    (runs.foldl (fun s r => s.watchDie r.1 r.2.1 r.2.2 false true) s).mem = s.mem :=
  foldl_mem _ (fun _ _ => State.watchDie_mem ..) _ _

theorem State.writeDieBy_wf (runs : List (Requester × Nat × Nat)) (who : Requester) (l : List (Nat × Byte)) (s : State)
    (h : s.wf = true) : (s.writeDieBy runs who l).wf = true := by
  cases l with
  | nil => exact h
  | cons c t =>
    obtain ⟨a, b⟩ := c
    have h1 : (((((s.notePriors (((a, b) :: t).map Prod.fst)).request who a).storeErrors who
        (((a, b) :: t).map Prod.fst)).ordinaryLine (lineOf a)).undrop (lineOf a)).wf = true :=
      State.undrop_wf _ _ (State.ordinaryLine_wf _ _ (State.storeErrors_wf _ _ _
        (State.request_wf _ _ _ (State.notePriors_wf _ _ h))))
    unfold State.writeDieBy
    dsimp only
    refine State.wf_of_mem ?_ ((State.watchRuns_mem ..).trans (State.touchDie_mem ..))
    split
    · refine State.placeBlock_wf _ _ _ _ h1 (State.wf_of_mem (s := { s with mem := Memory.putAll _ _ }) ?_
        ((State.settleBytes_mem ..).trans (State.clearMarks_mem ..)))
      exact Memory.wf_putAll h1 _
    · refine State.wf_of_mem (s := { s with mem := Memory.putAll _ _ }) ?_
        ((State.settleBytes_mem ..).trans (State.clearMarks_mem ..))
      exact Memory.wf_putAll h1 _

theorem State.writeDie_wf (who : Requester) (l : List (Nat × Byte)) (s : State) (h : s.wf = true) :
    (s.writeDie who l).wf = true := State.writeDieBy_wf _ who l s h

theorem State.fitReaders_wf (b : Nat) (s : State) (h : s.wf = true) : (s.fitReaders b).wf = true := by
  unfold State.fitReaders
  dsimp only
  split
  · exact State.ordinaryLine_wf _ _ h
  · split
    · exact h
    · split
      · exact State.ordinaryLine_wf _ _ h
      · exact h

theorem State.writeReader_wf (who : Requester) (n : BitVec 6) (l : List (Nat × Byte)) (s : State)
    (h : s.wf = true) : (s.writeReader who n l).wf = true := by
  cases l with
  | nil => exact h
  | cons c t =>
    obtain ⟨a, b⟩ := c
    have h1 : ((((s.notePriors (((a, b) :: t).map Prod.fst)).request who a).storeErrors who
        (((a, b) :: t).map Prod.fst)).undrop (lineOf a)).wf = true :=
      State.undrop_wf _ _ (State.storeErrors_wf _ _ _ (State.request_wf _ _ _ (State.notePriors_wf _ _ h)))
    unfold State.writeReader
    dsimp only
    exact State.wf_of_mem (State.fitReaders_wf _ _ (State.modDie_wf _ _ _ h1)) ((State.watchDie_mem ..).trans
      ((State.touchDie_mem ..).trans ((State.settleBytes_mem ..).trans (State.clearMarks_mem ..))))

theorem State.writeDieAll_wf (who : Requester) (l : List (Nat × Byte)) (s : State) (h : s.wf = true) :
    (s.writeDieAll who l).wf = true :=
  foldl_wf _ (fun s c hs => State.writeDie_wf who c s hs) _ _ h

theorem State.readDieLines_wf (who : Requester) (fuel a n : Nat) (s : State) (h : s.wf = true) :
    (State.readDieLines who fuel a n s).2.wf = true := by
  induction fuel generalizing a n s with
  | zero => exact h
  | succ k ih =>
    unfold State.readDieLines
    split
    · exact h
    · exact ih _ _ _ (State.readDie_wf _ _ _ _ h)

theorem State.readDieAll_wf (who : Requester) (a n : Nat) (s : State) (h : s.wf = true) :
    (s.readDieAll who a n).2.wf = true := State.readDieLines_wf _ _ _ _ _ h

theorem State.atomicDie_wf (who : Requester) (a n : Nat) (f : Nat → Nat) (s : State) (h : s.wf = true) :
    (s.atomicDie who a n f).2.wf = true := by
  have h1 : ((((((s.notePriors ((List.range n).map (a + ·))).request who a).readErrors who a n).ordinaryLine
      (lineOf a)).countRead a).undrop (lineOf a)).wf = true :=
    State.undrop_wf _ _ (State.countRead_wf _ _ (State.ordinaryLine_wf _ _ (State.readErrors_wf _ _ _ _
      (State.request_wf _ _ _ (State.notePriors_wf _ _ h)))))
  have h2 (u : State) (l : List (Nat × Byte)) (m : List Nat) (hu : u.wf = true) :
      (({ u with mem := Memory.putAll u.mem l } : State).settleBytes m).wf = true :=
    State.wf_of_mem (s := { u with mem := Memory.putAll u.mem l }) (Memory.wf_putAll hu _) (State.settleBytes_mem ..)
  unfold State.atomicDie
  dsimp only
  refine State.wf_of_mem ?_ ((State.watchDie_mem ..).trans (State.touchDie_mem ..))
  split
  · exact State.placeBlock_wf _ _ _ _ h1 (h2 _ _ _ h1)
  · exact h2 _ _ _ h1

theorem State.putHost_wf (who : Requester) (a : Nat) (d : List Byte) (s : State) (h : s.wf = true) :
    (s.putHost who a d).wf = true := by
  have h1 : ((s.notePriors ((cellsFrom a d).map Prod.fst)).request who a).wf = true :=
    State.request_wf _ _ _ (State.notePriors_wf _ _ h)
  unfold State.putHost
  exact State.wf_of_mem (s := { s with mem := Memory.putAll _ _ }) (Memory.wf_putAll h1 _) (State.settleBytes_mem ..)

theorem State.postReaders_wf (who : Requester) (a n : Nat) (s : State) (h : s.wf = true) :
    (s.postReaders who a n).wf = true := by
  have h1 : (s.request who a).wf = true := State.wf_of_mem h (State.request_mem ..)
  unfold State.postReaders
  dsimp only
  split
  · exact h1
  · split
    · exact State.wf_of_mem h1 rfl
    · exact State.wf_of_mem (State.ordinaryLine_wf _ _ h1) rfl

theorem State.flushLine_wf (who : Requester) (l : Line) (s : State) (h : s.wf = true) :
    (s.flushLine who l).wf = true := by
  unfold State.flushLine
  split
  · exact h
  · dsimp only
    split
    · exact h
    · refine State.wf_of_mem (State.writeDieBy_wf _ who _ s h) (foldl_mem _ (fun s g => ?_) _ _)
      split
      · exact State.mark_mem ..
      · rfl

/-! ## Errors of the other memories -/

@[simp] theorem State.countCorrected_mem (g : LocalGranule) (s : State) : (s.countCorrected g).mem = s.mem := by
  unfold State.countCorrected
  split
  · rfl
  · rfl
  · rfl
  · split <;> rfl

@[simp] theorem State.markLocal_mem (g : LocalGranule) (s : State) : (s.markLocal g).mem = s.mem := by
  cases g <;> rfl

theorem State.meetLocal_wf (kind : BitVec 8) (who : Requester) (e : LocalGranule × Bool) (s : State) (h : s.wf = true) :
    (s.meetLocal kind who e).wf = true := by
  unfold State.meetLocal
  split
  · exact State.wf_of_mem h (State.countCorrected_mem ..)
  · split
    · exact h
    · exact State.logCheck_wf _ _ _ _ _ (State.wf_of_mem h (State.markLocal_mem ..))

theorem State.readLocal_wf (who : Requester) (at_ : LocalGranule) (n : Nat) (s : State) (h : s.wf = true) :
    (s.readLocal who at_ n).wf = true := by
  unfold State.readLocal
  split
  · exact h
  · exact foldl_wf _ (fun s e hs => State.meetLocal_wf 1 who e s hs) _ _ h

theorem State.storeLocal_wf (who : Requester) (at_ : LocalGranule) (n : Nat) (s : State) (h : s.wf = true) :
    (s.storeLocal who at_ n).wf = true := by
  unfold State.storeLocal
  split
  · exact h
  · exact foldl_wf _ (fun s e hs => State.meetLocal_wf 2 who e s hs) _ _ h

/-! ## The cluster caches -/

theorem State.writeBack_wf (who : Requester) (c pa : Nat) (s : State) (h : s.wf = true) :
    (s.writeBack who c pa).wf = true := by
  have h1 : (s.readLine who c pa).wf = true := State.readLocal_wf _ _ _ _ h
  unfold State.writeBack
  dsimp only
  split
  · exact h1
  · exact State.wf_of_mem (State.flushLine_wf who _ _ h1) rfl

theorem State.evict_wf (who : Requester) (c pa : Nat) (s : State) (h : s.wf = true) :
    (s.evict who c pa).wf = true := by
  have h1 : (s.readLine who c pa).wf = true := State.readLocal_wf _ _ _ _ h
  unfold State.evict
  dsimp only
  split
  · exact h1
  · exact State.wf_of_mem (State.flushLine_wf who _ _ h1) rfl

theorem State.makeRoom_wf (c pa : Nat) (s : State) (h : s.wf = true) : (s.makeRoom c pa).wf = true := by
  unfold State.makeRoom
  split
  · exact h
  · split
    · exact State.evict_wf _ _ _ _ h
    · exact h

theorem State.dropLine_wf (c pa : Nat) (s : State) (h : s.wf = true) : (s.dropLine c pa).wf = true := by
  unfold State.dropLine
  split
  · exact State.wf_of_mem h rfl
  · exact h

theorem State.release_wf (who : Requester) (c : Nat) (m : BitVec 16) (s : State) (h : s.wf = true) :
    (s.release who c m).wf = true := foldl_wf _ (fun s _ hs => State.writeBack_wf who c _ s hs) _ _ h

theorem State.releaseAll_wf (who : Requester) (c : Nat) (s : State) (h : s.wf = true) :
    (s.releaseAll who c).wf = true := foldl_wf _ (fun s _ hs => State.writeBack_wf who c _ s hs) _ _ h

theorem State.writeBackRange_wf (who : Requester) (c pa n : Nat) (s : State) (h : s.wf = true) :
    (s.writeBackRange who c pa n).wf = true := foldl_wf _ (fun s _ hs => State.writeBack_wf who c _ s hs) _ _ h

theorem State.fill_wf (who : Requester) (c pa home : Nat) (p : BitVec 2) (s : State) (h : s.wf = true) :
    (s.fill who c pa home p).wf = true := by
  unfold State.fill
  exact State.wf_of_mem (State.readDie_wf who (lineOf home) 128 _ (State.makeRoom_wf c pa s h)) rfl

/-- The memory of the reset state is canonical. -/
theorem State.reset_mem_wf : Memory.wf State.reset.mem = true := rfl

end Sys2Proof.Machine
end

