-- ==== Sys2Proof/Laws/Meanings.lean ====
section
/-! SUPPORT. How the parts of a meaning evaluate: sequencing, the current hart, checks, traps and retirement; and what
taking a trap and leaving a handler do. -/

namespace Sys2Proof.Machine

/-! ## Sequencing -/

theorem run_ok {m : M Unit} {s t : State} {a : Unit} (h : m s = .ok a t) : run m s = .next t := by
  simp only [run, h]

theorem run_error {m : M Unit} {s t : State} {e : Unit} (h : m s = .error e t) : run m s = .next t := by
  simp only [run, h]

/-- A meaning always answers a next state. -/
theorem run_next (m : M Unit) (s : State) : ∃ t, run m s = .next t := by
  unfold run
  split <;> exact ⟨_, rfl⟩

theorem bind_ok {α β : Type} {m : M α} {f : α → M β} {s t : State} {a : α} (h : m s = .ok a t) :
    (m >>= f) s = f a t := by
  simp only [bind, EStateM.bind, h]

theorem bind_error {α β : Type} {m : M α} {f : α → M β} {s t : State} {e : Unit} (h : m s = .error e t) :
    (m >>= f) s = .error e t := by
  simp only [bind, EStateM.bind, h]

/-- A sequence that answers went through its first part. -/
theorem bind_eq_ok {α β : Type} {m : M α} {f : α → M β} {s t : State} {b : β} (h : (m >>= f) s = .ok b t) :
    ∃ a u, m s = .ok a u ∧ f a u = .ok b t := by
  simp only [bind, EStateM.bind] at h
  split at h
  · rename_i a u e; exact ⟨a, u, e, h⟩
  · cases h

@[simp] theorem pure_eval {α : Type} (a : α) (s : State) : (pure a : M α) s = .ok a s := rfl
@[simp] theorem hart_eval (s : State) : hart s = .ok s.hart s := rfl
@[simp] theorem get_eval (s : State) : (get : M State) s = .ok s s := rfl
@[simp] theorem set_eval (s t : State) : (set t : M PUnit) s = .ok ⟨⟩ t := rfl
@[simp] theorem modify_eval (f : State → State) (s : State) : (modify f : M PUnit) s = .ok ⟨⟩ (f s) := rfl
@[simp] theorem onHart_eval (f : Hart → Hart) (s : State) : onHart f s = .ok ⟨⟩ (s.onHart f) := rfl
@[simp] theorem retire_eval (s : State) : retire s = .ok ⟨⟩ (s.onHart Hart.retire) := rfl
@[simp] theorem endHere_eval {α : Type} (s : State) : (endHere : M α) s = .error () s := rfl

@[simp] theorem hart_bind {α : Type} (f : Hart → M α) (s : State) : (hart >>= f) s = f s.hart s := rfl
@[simp] theorem get_bind {α : Type} (f : State → M α) (s : State) : (get >>= f) s = f s s := rfl
@[simp] theorem set_bind {α : Type} (t : State) (f : PUnit → M α) (s : State) : (set t >>= f) s = f ⟨⟩ t := rfl
@[simp] theorem modify_bind {α : Type} (g : State → State) (f : PUnit → M α) (s : State) :
    (modify g >>= f) s = f ⟨⟩ (g s) := rfl
@[simp] theorem onHart_bind {α : Type} (g : Hart → Hart) (f : Unit → M α) (s : State) :
    (onHart g >>= f) s = f ⟨⟩ (s.onHart g) := rfl
@[simp] theorem pure_bind_eval {α β : Type} (a : α) (f : α → M β) (s : State) : ((pure a : M α) >>= f) s = f a s := rfl
@[simp] theorem endHere_bind {α β : Type} (f : α → M β) (s : State) : ((endHere : M α) >>= f) s = .error () s := rfl

/-! ## Traps and checks -/

@[simp] theorem trap_eval {α : Type} (acc : BitVec 4) (code : BitVec 8) (tval : Word) (s : State) :
    (trap acc code tval : M α) s = .error () (s.takeTrap false acc code tval) := rfl

@[simp] theorem trapWord_eval {α : Type} (code : BitVec 8) (s : State) :
    (trapWord code : M α) s = .error () (s.takeTrap false 0 code (s.hart.word.setWidth 64)) := rfl

@[simp] theorem illegal_eval {α : Type} (s : State) :
    (illegal : M α) s = .error () (s.takeTrap false 0 0x05 (s.hart.word.setWidth 64)) := rfl

@[simp] theorem require_true (s : State) : require true s = .ok () s := rfl
@[simp] theorem require_false (s : State) :
    require false s = .error () (s.takeTrap false 0 0x05 (s.hart.word.setWidth 64)) := rfl

theorem require_of {b : Bool} (h : b = true) (s : State) : require b s = .ok () s := by subst h; rfl

/-- The privilege check passes at its level and above. -/
theorem requirePriv_of {p : Priv} {s : State} (h : ¬ s.hart.priv.code < p.code) :
    requirePriv p s = .ok () s := by
  simp only [requirePriv, hart_bind, h, if_false]
  rfl

/-- Below its level the check takes the privilege trap. -/
theorem requirePriv_below {p : Priv} {s : State} (h : s.hart.priv.code < p.code) :
    requirePriv p s = .error () (s.takeTrap false 0 0x06 (s.hart.word.setWidth 64)) := by
  simp only [requirePriv, hart_bind, h, if_true, trapWord_eval]

theorem typeState_of {s : State} {t : TypeState} (h : s.hart.vtype = some t) : typeState s = .ok t s := by
  simp only [typeState, hart_bind, h]
  rfl

theorem vectorModeOnly_of {s : State} (h : s.hart.mode = none) : vectorModeOnly s = .ok () s := by
  simp only [vectorModeOnly, hart_bind, h]
  rfl

/-! ## Taking a trap (R328) -/

/-- Where an entry goes and what it saves, at the firmware vector. -/
theorem Hart.enter_firmware {h : Hart} {intr : Bool} {acc : BitVec 4} {code : BitVec 8} {tval : Word}
    (hf : h.toFirmware intr code = true) :
    (h.enter intr acc code tval).pc = h.fvec ++ 0#2 ∧ (h.enter intr acc code tval).priv = .firmware ∧
      (h.enter intr acc code tval).fw = h.bankAt h.fw (causeWord intr acc code) tval ∧
      (h.enter intr acc code tval).sup = h.sup := by
  simp [Hart.enter, hf]

/-- Where an entry goes and what it saves, at the supervisor vector. -/
theorem Hart.enter_supervisor {h : Hart} {intr : Bool} {acc : BitVec 4} {code : BitVec 8} {tval : Word}
    (hf : h.toFirmware intr code = false) :
    (h.enter intr acc code tval).pc = h.trapvec ++ 0#2 ∧ (h.enter intr acc code tval).priv = .supervisor ∧
      (h.enter intr acc code tval).sup = h.bankAt h.sup (causeWord intr acc code) tval ∧
      (h.enter intr acc code tval).fw = h.fw := by
  simp [Hart.enter, hf]

/-- What every entry leaves of the hart. -/
theorem Hart.enter_frame (h : Hart) (intr : Bool) (acc : BitVec 4) (code : BitVec 8) (tval : Word) :
    (h.enter intr acc code tval).x = h.x ∧ (h.enter intr acc code tval).v = h.v ∧
      (h.enter intr acc code tval).m = h.m ∧ (h.enter intr acc code tval).instret = h.instret ∧
      (h.enter intr acc code tval).gated = false ∧ (h.enter intr acc code tval).vprog = 0 ∧
      (h.enter intr acc code tval).wake = none ∧ (h.enter intr acc code tval).wait = none ∧
      (h.enter intr acc code tval).fate = .trapped := by
  unfold Hart.enter
  split <;> exact ⟨rfl, rfl, rfl, rfl, rfl, rfl, rfl, rfl, rfl⟩

/-- A record of the trace changes memory, the cores and everything of the hart but its debug registers in nothing. -/
theorem State.trace_frame (kind : BitVec 4) (ew : BitVec 3) (a b c : Word) (s : State) :
    ∃ d k, s.trace kind ew a b c = { s with hart := { s.hart with dbg := d }, clusters := k } := by
  unfold State.trace State.traceAt
  dsimp only
  split
  · exact ⟨s.hart.dbg, s.clusters, rfl⟩
  · split
    · exact ⟨_, _, rfl⟩
    · split
      · exact ⟨s.hart.dbg, _, rfl⟩
      · split
        · exact ⟨_, _, rfl⟩
        · exact ⟨_, s.clusters, rfl⟩

/-- Taking a synchronous trap that is neither a migrate trap nor a double one. -/
theorem State.takeTrap_enters {s : State} {acc : BitVec 4} {code : BitVec 8} {tval : Word} (h7 : code ≠ 0x07)
    (hn : (if s.hart.toFirmware false code then s.hart.fw else s.hart.sup).stat.nest = false) :
    ∃ d k, s.takeTrap false acc code tval =
      { s with hart := { s.hart.enter false acc code tval with dbg := d }, clusters := k } := by
  obtain ⟨d, k, e⟩ := State.trace_frame 6 0 (causeWord false acc code) s.hart.pc tval
    (s.onHart (Hart.enter false acc code tval))
  refine ⟨d, k, ?_⟩
  unfold State.takeTrap
  simp only [h7, false_and, if_false, hn, Bool.and_false, Bool.false_eq_true]
  exact e

/-! ## Leaving a handler (R334) -/

/-- TRET puts pc at the saved pc and the level at the saved level. -/
theorem Hart.leave_pc (b : TrapBank) (p : Priv) (h : Hart) :
    (h.leave b p).pc = b.epc ∧ (h.leave b p).priv = p ∧ (h.leave b p).gated = b.stat.pgated ∧
      (h.leave b p).vprog = b.stat.pvprog ∧ (h.leave b p).instret = h.instret + 1 ∧ (h.leave b p).x = h.x := by
  unfold Hart.leave
  dsimp only
  split
  · exact ⟨rfl, rfl, rfl, rfl, rfl, rfl⟩
  · split
    · split
      · exact ⟨rfl, rfl, rfl, rfl, rfl, rfl⟩
      · exact ⟨rfl, rfl, rfl, rfl, rfl, rfl⟩
    · exact ⟨rfl, rfl, rfl, rfl, rfl, rfl⟩

end Sys2Proof.Machine
end

