-- ==== Sys2Proof/Laws/Elements.lean ====
section
/-! SUPPORT. The drive through element groups: what it answers when its body answers, and what an element-wise
instruction changes. -/

namespace Sys2Proof.Machine

/-! ## The drive -/

/-- The drive over a list answers when each of its elements does. -/
theorem forElems_spec {f : Nat → M Unit} (I : List Nat → State → Prop)
    (hf : ∀ i l s, I (i :: l) s → ∃ t, f i s = .ok () t ∧ I l t) :
    ∀ (l : List Nat) (s : State), I l s → ∃ t, forElems f l s = .ok () t ∧ I [] t := by
  intro l
  induction l with
  | nil => exact fun s h => ⟨s, rfl, h⟩
  | cons i l ih =>
    intro s h
    obtain ⟨t, ht, hI⟩ := hf i l s h
    obtain ⟨u, hu, hJ⟩ := ih t hI
    exact ⟨u, by rw [forElems, bind_ok ht, hu], hJ⟩

/-- The drive over sets of groups answers when each of its sets does and no forced stop is due. -/
theorem setsFrom_spec {u : Nat} {body : Nat → M Unit} (I : Nat → State → Prop)
    (hstop : ∀ e s, I e s → s.hart.stopAt = none)
    (hb : ∀ e s, I e s → ∃ t, body e s = .ok () t ∧ I (e + u) (t.bump 2 u)) :
    ∀ (left e : Nat) (s : State), I e s → ∃ t, setsFrom u body left e none s = .ok () t ∧ I (e + left * u) t := by
  intro left
  induction left with
  | zero => exact fun e s h => ⟨s, rfl, by simpa using h⟩
  | succ n ih =>
    intro e s h
    obtain ⟨t, ht, hI⟩ := hb e s h
    obtain ⟨w, hw, hJ⟩ := ih (e + u) (t.bump 2 u) hI
    refine ⟨w, ?_, ?_⟩
    · have hk : s.hart.keptAt e = none := by simp only [Hart.keptAt, hstop e s h]
      simp only [setsFrom, hart_bind, hstop e s h, hk, Option.orElse_none]
      rw [bind_ok ht, modify_bind, hw]
    · rw [Nat.succ_mul]
      have : e + (n * u + u) = e + u + n * u := by omega
      rw [this]
      exact hJ

/-! ## What an element-wise instruction changes -/

/-- A hart after work on its vector state: vector registers, with the list of those that are unspecified, masks, flags and
srgen alone may differ. -/
def Hart.Worked (h k : Hart) : Prop :=
  ∃ v un m fl sr, k = { h with v := v, unsure := un, m := m, flags := fl, srgen := sr }

theorem Hart.Worked.refl (h : Hart) : h.Worked h := ⟨h.v, h.unsure, h.m, h.flags, h.srgen, rfl⟩

theorem Hart.Worked.trans {h k l : Hart} (a : h.Worked k) (b : k.Worked l) : h.Worked l := by
  obtain ⟨v, n, m, f, r, e⟩ := a
  obtain ⟨v', n', m', f', r', e'⟩ := b
  exact ⟨v', n', m', f', r', by rw [e', e]⟩

theorem Hart.put_worked (t : Dest) (i : Nat) (w : Word) (h : Hart) : h.Worked (h.put t i w) := by
  cases t with
  | vec n r => exact ⟨_, _, h.m, h.flags, h.srgen, rfl⟩
  | mask k =>
    simp only [Hart.put, Hart.setMbit]
    split
    · exact Hart.Worked.refl h
    · exact ⟨h.v, h.unsure, _, h.flags, h.srgen, rfl⟩

theorem Hart.putOff_worked (t : Dest) (len i : Nat) (h : Hart) : h.Worked (h.putOff t len i) := by
  unfold Hart.putOff
  split
  · split
    · exact Hart.put_worked ..
    · exact Hart.Worked.refl h
  · split
    · exact Hart.put_worked ..
    · exact Hart.Worked.refl h

/-- An operation on elements that ends no instruction and changes flags and srgen alone. -/
def Computes (op : Nat → M (Option Word)) : Prop :=
  ∀ i s, ∃ w k, op i s = .ok w { s with hart := k } ∧ s.hart.Worked k

/-- One element of such an operation. -/
theorem elementStep_worked {op : Nat → M (Option Word)} (hop : Computes op) (t : Dest) (len : Nat)
    (act : Hart → Nat → Bool) (i : Nat) (s : State) :
    ∃ k, elementStep t len act op i s = .ok () { s with hart := k } ∧ s.hart.Worked k := by
  unfold elementStep
  rw [hart_bind]
  split
  · obtain ⟨w, k, hw, hk⟩ := hop i s
    rw [bind_ok hw]
    cases w with
    | none => exact ⟨k, rfl, hk⟩
    | some w => exact ⟨_, rfl, hk.trans (Hart.put_worked ..)⟩
  · exact ⟨_, rfl, Hart.putOff_worked ..⟩

/-- A state that differs in the work of the current hart and in the cores. -/
def State.WorkedTo (s t : State) : Prop := ∃ k c, t = { s with hart := k, cores := c } ∧ s.hart.Worked k

theorem State.WorkedTo.refl (s : State) : s.WorkedTo s := ⟨s.hart, s.cores, rfl, Hart.Worked.refl _⟩

theorem State.WorkedTo.trans {s t u : State} (a : s.WorkedTo t) (b : t.WorkedTo u) : s.WorkedTo u := by
  obtain ⟨k, c, e, w⟩ := a
  obtain ⟨k', c', e', w'⟩ := b
  subst e
  exact ⟨k', c', e', w.trans w'⟩

/-- What an element-wise instruction of such an operation does: it retires, and beside retirement it changes vector
registers, masks, flags, srgen and the cores' counters and rings alone. -/
theorem elementwise_completes {op : Nat → M (Option Word)} (hop : Computes op) (wide : Nat × Nat) (t : Dest)
    (act : Hart → Nat → Bool) {s : State} (hs : s.hart.stopAt = none) (ht : s.hart.vtype ≠ none) :
    ∃ k c, elementwise wide t act op s = .ok () { s with hart := k.retire, cores := c } ∧ s.hart.Worked k := by
  unfold elementwise
  rw [hart_bind]
  split
  · exact ⟨s.hart, _, rfl, Hart.Worked.refl _⟩
  · cases hv : s.hart.vtype with
    | none => exact absurd hv ht
    | some ty =>
      dsimp only
      unfold overGroups
      rw [hart_bind]
      have hloop : ∃ u, runGroups (8 * wide.2) (fun e =>
          forElems (elementStep t s.hart.vl.toNat act op)
            ((s.hart.groupElems wide.1 e).filter fun i => decide (i < vlmax s.hart.grant ty))) s = .ok () u ∧
          s.WorkedTo u := by
        unfold runGroups runSets
        rw [hart_bind]
        refine (setsFrom_spec (fun _ u => s.WorkedTo u) ?_ ?_ _ _ s (State.WorkedTo.refl s))
        · rintro e u ⟨k, c, hu, v, n, m, f, r, hk⟩
          subst hu
          rw [hk]
          exact hs
        · intro e u hu
          obtain ⟨w, hw, hI⟩ := forElems_spec (f := elementStep t s.hart.vl.toNat act op)
            (fun _ w => u.WorkedTo w) (fun i l x hx => by
              obtain ⟨k, hk, hwk⟩ := elementStep_worked hop t s.hart.vl.toNat act i x
              exact ⟨_, hk, hx.trans ⟨k, x.cores, rfl, hwk⟩⟩) _ u (State.WorkedTo.refl u)
          exact ⟨w, hw, (hu.trans hI).trans ⟨w.hart, _, rfl, Hart.Worked.refl _⟩⟩
      obtain ⟨u, hu, k, c, rfl, hk⟩ := hloop
      rw [bind_ok hu]
      exact ⟨k, _, rfl, hk⟩

/-- An operation that reads the hart alone. -/
theorem Computes.pure (f : Hart → Nat → Option Word) :
    Computes fun i => do
      let h ← hart
      return f h i := fun i s => ⟨f s.hart i, s.hart, rfl, Hart.Worked.refl _⟩

/-- An operation that reads the hart and raises flags. -/
theorem Computes.raises (f : Hart → Nat → Word × FlagSet) :
    Computes fun i => do
      let h ← hart
      return some (← raising (f h i)) :=
  fun i s => ⟨_, _, rfl, s.hart.v, s.hart.unsure, s.hart.m, _, s.hart.srgen, rfl⟩

/-- An operation that reads the hart, draws where it rounds stochastically, and raises flags. -/
theorem Computes.draws (sr : Bool) (f : Hart → Option (BitVec 32) → Nat → Word × FlagSet) :
    Computes fun i => do
      let h ← hart
      let dr ← drawIf sr
      return some (← raising (f h dr i)) := by
  intro i s
  cases sr
  · exact ⟨_, _, rfl, s.hart.v, s.hart.unsure, s.hart.m, _, s.hart.srgen, rfl⟩
  · exact ⟨_, _, rfl, s.hart.v, s.hart.unsure, s.hart.m, _, _, rfl⟩

end Sys2Proof.Machine
end

