-- ==== Sys2Proof/Laws/Registers.lean ====
section
/-! SUPPORT. Reads after writes of scalar registers, of words and elements of vector registers, and of mask bits. -/

namespace Sys2Proof.Machine

/-! ## Scalar registers (R14) -/

@[simp] theorem Hart.rx_zero (h : Hart) : h.rx 0 = 0 := rfl
@[simp] theorem Hart.wx_zero (h : Hart) (w : Word) : h.wx 0 w = h := rfl

theorem Hart.rx_wx_self (h : Hart) {r : BitVec 5} (hr : r ≠ 0) (w : Word) : (h.wx r w).rx r = w := by
  have hb : r.toNat < 32 := r.isLt
  unfold Hart.rx Hart.wx
  rw [if_neg hr, if_neg hr]
  simp [List.getD_eq_getElem?_getD, hb]

theorem Hart.rx_wx_ne (h : Hart) {r q : BitVec 5} (hq : q ≠ r) (w : Word) : (h.wx r w).rx q = h.rx q := by
  have hn : r.toNat ≠ q.toNat := fun e => hq (BitVec.eq_of_toNat_eq e.symm)
  unfold Hart.rx Hart.wx
  split
  · rfl
  · split
    · rfl
    · simp [List.getD_eq_getElem?_getD, hn]

/-- A register after a write: the written one holds the value, x0 reads zero. -/
theorem Hart.rx_wx (h : Hart) (r q : BitVec 5) (w : Word) :
    (h.wx r w).rx q = if q = 0 then 0 else if q = r then w else h.rx q := by
  split
  · rename_i e; subst e; rfl
  · split
    · rename_i hq e; subst e; exact h.rx_wx_self hq w
    · rename_i e; exact h.rx_wx_ne e w

/-! ## Bits of words -/

theorem lowBits_getLsbD {n : Nat} (hn : n ≤ 64) (w : Word) (i : Nat) :
    (lowBits n w).getLsbD i = (decide (i < n) && w.getLsbD i) := by
  by_cases hi : i < 64
  · simp only [lowBits, BitVec.getLsbD_and, BitVec.getLsbD_ushiftRight, BitVec.getLsbD_allOnes]
    rw [Bool.and_comm]
    congr 1
    simp only [decide_eq_decide]
    omega
  · simp [BitVec.getLsbD_of_ge _ i (by omega : 64 ≤ i)]

theorem takeBits_getLsbD {n : Nat} (hn : n ≤ 64) (w : Word) (p i : Nat) :
    (takeBits w p n).getLsbD i = (decide (i < n) && w.getLsbD (p + i)) := by
  rw [takeBits, lowBits_getLsbD hn, BitVec.getLsbD_ushiftRight]

theorem placeBits_getLsbD {n : Nat} (hn : n ≤ 64) (w : Word) (p : Nat) (x : Word) {i : Nat} (hi : i < 64) :
    (placeBits w p n x).getLsbD i = if p ≤ i ∧ i < p + n then x.getLsbD (i - p) else w.getLsbD i := by
  simp only [placeBits, BitVec.getLsbD_or, BitVec.getLsbD_and, BitVec.getLsbD_not, BitVec.getLsbD_shiftLeft,
    lowBits_getLsbD hn, BitVec.getLsbD_allOnes, hi, decide_true, Bool.true_and]
  by_cases h1 : p ≤ i
  · by_cases h2 : i < p + n
    · simp [h1, h2, show ¬ i < p by omega, show i - p < n by omega, show i - p < 64 by omega]
    · simp [h1, h2, show ¬ i < p by omega, show ¬ i - p < n by omega]
  · simp [h1, show i < p by omega]

/-- Bits read where they were placed. -/
theorem takeBits_placeBits {n p : Nat} (h : p + n ≤ 64) (w x : Word) :
    takeBits (placeBits w p n x) p n = lowBits n x := by
  apply BitVec.eq_of_getLsbD_eq
  intro i hi
  rw [takeBits_getLsbD (by omega), lowBits_getLsbD (by omega)]
  by_cases hin : i < n
  · rw [placeBits_getLsbD (by omega) w p x (by omega)]
    simp [hin]
  · simp [hin]

/-- Bits read apart from those placed. -/
theorem takeBits_placeBits_ne {n k p q : Nat} (hp : p + n ≤ 64) (hq : q + k ≤ 64) (hd : q + k ≤ p ∨ p + n ≤ q)
    (w x : Word) : takeBits (placeBits w p n x) q k = takeBits w q k := by
  apply BitVec.eq_of_getLsbD_eq
  intro i hi
  rw [takeBits_getLsbD (by omega), takeBits_getLsbD (by omega)]
  by_cases hik : i < k
  · rw [placeBits_getLsbD (by omega) w p x (by omega)]
    simp [show ¬ (p ≤ q + i ∧ q + i < p + n) by omega]
  · simp [hik]

/-! ## Vector registers -/

theorem Hart.vword_set_self (h : Hart) {r w : Nat} (hr : r < 32) (hw : w < 256) (x : Word) :
    (h.setVword r w x).vword r w = x := by
  simp [Hart.vword, Hart.setVword, hr, hw]

theorem Hart.vword_set_ne (h : Hart) {r w r' w' : Nat} (hd : r' ≠ r ∨ w' ≠ w) (x : Word) :
    (h.setVword r w x).vword r' w' = h.vword r' w' := by
  unfold Hart.vword Hart.setVword
  dsimp only
  by_cases hr : r < 32
  · by_cases e : r' = r
    · subst e
      have hw : w ≠ w' := by
        rcases hd with g | g
        · exact absurd rfl g
        · exact Ne.symm g
      simp [hr, hw]
    · simp [Ne.symm e]
  · by_cases e : r = r'
    · subst e; simp [hr]
    · simp [e]

/-- A write of element i leaves element j of the same group and width, j ≠ i, and reads back at i. -/
theorem Hart.elem_setElem (h : Hart) {n r i j : Nat} (hn : n ∣ 64) (hreg : r + i * n / h.regBits < 32)
    (hrb : 64 ∣ h.regBits) (hpos : 0 < h.regBits) (hle : h.regBits ≤ 16384) (x : Word) :
    (h.setElem n r i x).elem n r j = if j = i then lowBits n x else h.elem n r j := by
  have hn0 : 0 < n := Nat.pos_of_dvd_of_pos hn (by decide)
  obtain ⟨k, hk⟩ := hn
  obtain ⟨c, hc⟩ := hrb
  have hc0 : 0 < c := by
    rcases Nat.eq_zero_or_pos c with e | e
    · rw [hc, e] at hpos; omega
    · exact e
  -- an element lies in one word
  have inWord : ∀ i, i * n % h.regBits % 64 + n ≤ 64 := by
    intro i
    have h64 : i * n % h.regBits % 64 = i * n % 64 := by rw [hc, Nat.mod_mul_right_mod]
    rw [h64, hk, Nat.mul_comm n k, Nat.mul_mod_mul_right]
    have : i % k < k := Nat.mod_lt _ (by rcases Nat.eq_zero_or_pos k with e | e; · rw [e] at hk; omega
                                         · exact e)
    calc i % k * n + n = (i % k + 1) * n := by rw [Nat.add_mul, Nat.one_mul]
      _ ≤ k * n := Nat.mul_le_mul_right n this
  have rb : (h.setVword (r + i * n / h.regBits) (i * n % h.regBits / 64)
      (placeBits (h.vword (r + i * n / h.regBits) (i * n % h.regBits / 64)) (i * n % h.regBits % 64) n x)).regBits =
      h.regBits := rfl
  have hw : i * n % h.regBits / 64 < 256 := by
    have := Nat.mod_lt (i * n) hpos
    omega
  unfold Hart.elem Hart.setElem
  dsimp only
  rw [rb]
  by_cases e : j = i
  · subst e
    rw [Hart.vword_set_self h hreg hw, if_pos rfl, takeBits_placeBits (inWord j)]
  · rw [if_neg e]
    by_cases hsame : r + j * n / h.regBits = r + i * n / h.regBits ∧ j * n % h.regBits / 64 = i * n % h.regBits / 64
    · obtain ⟨h1, h2⟩ := hsame
      rw [h1, h2, Hart.vword_set_self h hreg hw]
      refine takeBits_placeBits_ne (inWord i) (inWord j) ?_ _ _
      -- two elements of one word lie apart
      have hq : j * n / h.regBits = i * n / h.regBits := by omega
      have di := Nat.div_add_mod (i * n) h.regBits
      have dj := Nat.div_add_mod (j * n) h.regBits
      have ei := Nat.div_add_mod (i * n % h.regBits) 64
      have ej := Nat.div_add_mod (j * n % h.regBits) 64
      rw [hq] at dj
      rw [h2] at ej
      rcases Nat.lt_or_gt_of_ne e with g | g
      · left
        have : (j + 1) * n ≤ i * n := Nat.mul_le_mul_right n g
        rw [Nat.add_mul, Nat.one_mul] at this
        omega
      · right
        have : (i + 1) * n ≤ j * n := Nat.mul_le_mul_right n g
        rw [Nat.add_mul, Nat.one_mul] at this
        omega
    · rw [Hart.vword_set_ne h (by
        by_cases g : r + j * n / h.regBits = r + i * n / h.regBits
        · exact .inr fun g2 => hsame ⟨g, g2⟩
        · exact .inl g)]

/-- The bits of a register are one of four numbers (R103). -/
theorem Hart.regBits_cases (h : Hart) : h.regBits = 4096 ∨ h.regBits = 8192 ∨ h.regBits = 12288 ∨ h.regBits = 16384 := by
  unfold Hart.regBits
  cases h.grant <;> simp [Grant.lanes]

/-- An element written and read back, and the other elements of the group. -/
theorem Hart.elem_setElem' (h : Hart) {n r i j : Nat} (hn : n ∣ 64) (hreg : r + i * n / h.regBits < 32) (x : Word) :
    (h.setElem n r i x).elem n r j = if j = i then lowBits n x else h.elem n r j := by
  rcases h.regBits_cases with e | e | e | e <;>
    exact h.elem_setElem hn hreg (by rw [e] <;> decide) (by rw [e] <;> decide) (by rw [e] <;> decide) x

/-! ## Masks (R105) -/

@[simp] theorem Hart.mbit_zero (h : Hart) (i : Nat) : h.mbit 0 i = true := rfl
@[simp] theorem Hart.setMbit_zero (h : Hart) (i : Nat) (b : Bool) : h.setMbit 0 i b = h := rfl

end Sys2Proof.Machine
end

