-- ==== Sys2Proof/Laws/Run.lean ====
section
/-! SUPPORT. How the run of a meaning evaluates step by step: one lemma for each part that a meaning is made of. -/

namespace Sys2Proof.Machine

/-! ## Branches inside a computation, and the run of a sequence -/

@[simp] theorem ite_eval {α : Type} {c : Prop} [Decidable c] (a b : M α) (s : State) :
    (if c then a else b) s = if c then a s else b s := by split <;> rfl
@[simp] theorem ite_bind_eval {α β : Type} {c : Prop} [Decidable c] (a b : M α) (f : α → M β) (s : State) :
    ((if c then a else b) >>= f) s = if c then (a >>= f) s else (b >>= f) s := by split <;> rfl
@[simp] theorem run_ite {c : Prop} [Decidable c] (a b : M Unit) (s : State) :
    run (if c then a else b) s = if c then run a s else run b s := by split <;> rfl
theorem run_bind_ok {α : Type} {m : M α} {f : α → M Unit} {s t : State} {a : α} (h : m s = .ok a t) :
    run (m >>= f) s = run (f a) t := by simp only [run, bind_ok h]
theorem run_bind_error {α : Type} {m : M α} {f : α → M Unit} {s t : State} {e : Unit} (h : m s = .error e t) :
    run (m >>= f) s = .next t := by simp only [run, bind_error h]
@[simp] theorem run_trap (acc : BitVec 4) (code : BitVec 8) (tval : Word) (s : State) :
    run (trap acc code tval) s = .next (s.takeTrap false acc code tval) := rfl
@[simp] theorem run_illegal (s : State) : run illegal s = .next (s.takeTrap false 0 0x05 (s.hart.word.setWidth 64)) := rfl
@[simp] theorem run_hart (f : Hart → M Unit) (s : State) : run (hart >>= f) s = run (f s.hart) s := rfl
@[simp] theorem run_get (f : State → M Unit) (s : State) : run (get >>= f) s = run (f s) s := rfl
@[simp] theorem run_set (t : State) (f : PUnit → M Unit) (s : State) : run (set t >>= f) s = run (f ⟨⟩) t := rfl
@[simp] theorem run_modify (g : State → State) (f : PUnit → M Unit) (s : State) : run (modify g >>= f) s = run (f ⟨⟩) (g s) := rfl
@[simp] theorem run_onHart_bind (g : Hart → Hart) (f : Unit → M Unit) (s : State) : run (onHart g >>= f) s = run (f ⟨⟩) (s.onHart g) := rfl
@[simp] theorem run_pure_bind {α : Type} (a : α) (f : α → M Unit) (s : State) : run ((pure a : M α) >>= f) s = run (f a) s := rfl
@[simp] theorem run_onHart (g : Hart → Hart) (s : State) : run (onHart g) s = .next (s.onHart g) := rfl
@[simp] theorem run_retire (s : State) : run retire s = .next (s.onHart Hart.retire) := rfl
@[simp] theorem run_pure (s : State) : run (pure ()) s = .next s := rfl
@[simp] theorem run_ite_bind {α : Type} {c : Prop} [Decidable c] (a b : M α) (f : α → M Unit) (s : State) :
    run ((if c then a else b) >>= f) s = if c then run (a >>= f) s else run (b >>= f) s := by split <;> rfl
@[simp] theorem run_trap_bind {α : Type} (acc : BitVec 4) (code : BitVec 8) (tval : Word) (f : α → M Unit) (s : State) :
    run ((trap acc code tval : M α) >>= f) s = .next (s.takeTrap false acc code tval) := rfl
@[simp] theorem run_illegal_bind {α : Type} (f : α → M Unit) (s : State) :
    run ((illegal : M α) >>= f) s = .next (s.takeTrap false 0 0x05 (s.hart.word.setWidth 64)) := rfl
@[simp] theorem run_endHere_bind {α : Type} (f : α → M Unit) (s : State) : run ((endHere : M α) >>= f) s = .next s := rfl
@[simp] theorem run_endHere (s : State) : run endHere s = .next s := rfl
@[simp] theorem run_require (b : Bool) (f : Unit → M Unit) (s : State) :
    run (require b >>= f) s = if b = true then run (f ()) s else .next (s.takeTrap false 0 0x05 (s.hart.word.setWidth 64)) := by
  cases b <;> rfl
@[simp] theorem run_assoc {α β : Type} (m : M α) (f : α → M β) (g : β → M Unit) (s : State) :
    run ((m >>= f) >>= g) s = run (m >>= fun a => f a >>= g) s := by rw [bind_assoc]

theorem run_typeState {s : State} {t : TypeState} (h : s.hart.vtype = some t) (f : TypeState → M Unit) :
    run (typeState >>= f) s = run (f t) s := run_bind_ok (typeState_of h)

theorem run_vectorModeOnly {s : State} (h : s.hart.mode = none) (f : Unit → M Unit) :
    run (vectorModeOnly >>= f) s = run (f ()) s := run_bind_ok (vectorModeOnly_of h)

/-- A gate that the cluster's die opens, or that nothing asks for. -/
theorem gate_of {bit : Nat} {b : Bool} {s : State} (h : b = true → (capmask s.hart.cluster).getLsbD bit = true) :
    gate bit b s = .ok () s := by
  simp only [gate, hart_bind]
  cases b
  · rfl
  · simp only [h rfl, Bool.not_true, Bool.and_false, Bool.false_eq_true, if_false]; rfl

theorem run_gate {bit : Nat} {b : Bool} {s : State} (h : b = true → (capmask s.hart.cluster).getLsbD bit = true)
    (f : Unit → M Unit) : run (gate bit b >>= f) s = run (f ()) s := run_bind_ok (gate_of h)

/-! ## Accesses -/

/-- An access that the checks of R243 let pass. -/
theorem tryPlace_of {k : Access} {va : Word} {n : Nat} {p : Place} {tr : Option HeldTranslation} {s t : State}
    (h : resolve (s.agentOf s.hart) s.hart.tlb k va n s = (.ok (p, tr), t)) :
    tryPlace k va n s = .ok (.ok p) (t.onHart (Hart.hold tr)) := by
  simp only [tryPlace, get_bind, h, set_bind, onHart_bind]
  rfl

/-- An access that a check of R243 stops. -/
theorem tryPlace_fails {k : Access} {va : Word} {n : Nat} {c : BitVec 8} {s t : State}
    (h : resolve (s.agentOf s.hart) s.hart.tlb k va n s = (.error c, t)) :
    tryPlace k va n s = .ok (.error c) t := by
  simp only [tryPlace, get_bind, h, set_bind]
  rfl

theorem placeFor_of {k : Access} {va : Word} {n : Nat} {p : Place} {tr : Option HeldTranslation} {s t : State}
    (h : resolve (s.agentOf s.hart) s.hart.tlb k va n s = (.ok (p, tr), t)) :
    placeFor k va n s = .ok p (t.onHart (Hart.hold tr)) := by
  rw [placeFor, bind_ok (tryPlace_of h)]
  rfl

theorem placeFor_fails {k : Access} {va : Word} {n : Nat} {c : BitVec 8} {s t : State}
    (h : resolve (s.agentOf s.hart) s.hart.tlb k va n s = (.error c, t)) :
    placeFor k va n s = .error () (t.takeTrap false k.code c va) := by
  rw [placeFor, bind_ok (tryPlace_fails h)]
  rfl

theorem aligned_of {k : Access} {va : Word} {n : Nat} (h : va.toNat % n = 0) (s : State) :
    aligned k va n s = .ok () s := by
  simp only [aligned, h, if_true]
  rfl

theorem watchAddress_of {k : Access} {va : Word} {n : Nat} {s : State} (h : s.hart.watchHit k va.toNat n = none) :
    watchAddress k va n s = .ok () s := by
  simp only [watchAddress, hart_bind, h]
  rfl

@[simp] theorem dropAfter_false (ag : Agent) (p : Place) (s : State) : s.dropAfter ag p false = s := by
  unfold State.dropAfter
  split <;> simp

theorem storePlace_eval (p : Place) (d : List Byte) (c : BitVec 4) (h : Hints) (m : StoreMode) (s : State) :
    storePlace p d c h m s =
      .ok () ((s.storeAt (s.agentOf s.hart) p d c h.prio m).dropAfter (s.agentOf s.hart) p h.last) := rfl

theorem loadPlace_of {k : Access} {va : Word} {p : Place} {n : Nat} {hints : Hints} {d : List Byte} {s t : State}
    (h : s.loadAt (s.agentOf s.hart) p n hints = ((d, false), t)) :
    loadPlace k va p n hints s = .ok d (t.dropAfter (t.agentOf t.hart) p hints.last) := by
  simp only [loadPlace, get_bind, h, set_bind]
  rfl

end Sys2Proof.Machine
end

