-- ==== Sys2Proof/Laws/Signature.lean ====
section
/-! SUPPORT. A signature that a key makes is good under its public half (R430). -/

namespace Sys2Proof.Machine

/-! ## Lengths -/

theorem foldl_keeps {α β : Type} (p : α → Prop) (f : α → β → α) (h : ∀ a b, p a → p (f a b)) (l : List β) (a : α)
    (ha : p a) : p (l.foldl f a) := by
  induction l generalizing a with
  | nil => exact ha
  | cons b t ih => exact ih _ (h a b ha)

theorem Sponge.walk_length (a : Sponge) (p : (Nat × Nat) × Sponge) (t : Nat) : (a.walk p t).2.length = p.2.length := by
  simp [Sponge.walk]

theorem Sponge.scatter_length (a : Sponge) : a.scatter.length = a.length :=
  foldl_keeps (fun p : (Nat × Nat) × Sponge => p.2.length = a.length) a.walk
    (fun p t h => (a.walk_length p t).trans h) _ _ rfl

theorem Sponge.round_length (a : Sponge) (c : Word) : (a.round c).length = a.length := by
  simp [Sponge.round, Sponge.mix, Sponge.scatter_length, Sponge.diffuse]

theorem Sponge.take_length (a : Sponge) (b : List Byte) : (a.take b).length = a.length :=
  foldl_keeps (fun x : Sponge => x.length = a.length) Sponge.round (fun x c h => (x.round_length c).trans h) _ _
    (by simp)

/-- SHAKE256 gives as many bytes as asked, up to the 136 of the model's one squeeze. -/
theorem shake256_length (n : Nat) (d : List Byte) (h : n ≤ 136) : (shake256 n d).length = n := by
  have k : ((shakeBlocks (d.length / 136 + 1) d).foldl Sponge.take (List.replicate 25 0)).length = 25 :=
    foldl_keeps (fun x : Sponge => x.length = 25) Sponge.take (fun x b e => (x.take_length b).trans e) _ _ (by simp)
  have e : ∀ l : List Word, (l.flatMap fun w => bytesOf 8 w.toNat).length = 8 * l.length := fun l => by
    induction l with
    | nil => rfl
    | cons w t ih => simp only [List.flatMap_cons, List.length_append, ih, bytesOf_length, List.length_cons]; omega
  simp only [shake256, List.length_take, e, k]
  omega

theorem hashAt_length (seed : List Byte) (p : HashPlace) (m : List Byte) : (hashAt seed p m).length = 32 :=
  shake256_length 32 _ (by decide)

theorem natOfBytes_lt (d : List Byte) : natOfBytes d < 256 ^ d.length := by
  induction d with
  | nil => simp [natOfBytes]
  | cons b t ih => simp only [natOfBytes, List.length_cons, Nat.pow_succ]; have := b.isLt; omega

theorem natOfUp_lt (d : List Byte) : natOfUp d < 256 ^ d.length := by
  have := natOfBytes_lt d.reverse
  simpa [natOfUp] using this

/-! ## Trees and chains -/

theorem xor_one (j : Nat) : Nat.xor j 1 = if j % 2 = 0 then j + 1 else j - 1 := by
  have a : (j ^^^ 1) / 2 = j / 2 ^^^ 1 / 2 := Nat.xor_div_two
  have b : (j ^^^ 1) % 2 = j % 2 ^^^ 1 % 2 := Nat.xor_mod_two_pow (n := 1)
  simp only [Nat.reduceDiv, Nat.xor_zero] at a
  show j ^^^ 1 = _
  rcases Nat.mod_two_eq_zero_or_one j with h | h
  · rw [h, show 0 ^^^ 1 % 2 = 1 by decide] at b
    rw [if_pos h]; omega
  · rw [h, show 1 ^^^ 1 % 2 = 0 by decide] at b
    rw [if_neg (by omega)]; omega

/-- The nodes beside the way from a leaf lead from a node on it to a node above. -/
theorem climb_treePath (leaf : Nat → List Byte) (join : Nat → Nat → List Byte → List Byte) (i n z : Nat) :
    climb join z (i / 2 ^ z) (treeNode leaf join z (i / 2 ^ z))
      ((List.range' z n).map fun y => treeNode leaf join y (Nat.xor (i / 2 ^ y) 1)) =
      treeNode leaf join (z + n) (i / 2 ^ (z + n)) := by
  induction n generalizing z with
  | zero => rfl
  | succ n ih =>
    have up : i / 2 ^ z / 2 = i / 2 ^ (z + 1) := by rw [Nat.div_div_eq_div_mul, Nat.pow_succ]
    have node : join (z + 1) (i / 2 ^ z / 2) (if i / 2 ^ z % 2 = 0 then
        treeNode leaf join z (i / 2 ^ z) ++ treeNode leaf join z (Nat.xor (i / 2 ^ z) 1)
        else treeNode leaf join z (Nat.xor (i / 2 ^ z) 1) ++ treeNode leaf join z (i / 2 ^ z)) =
        treeNode leaf join (z + 1) (i / 2 ^ (z + 1)) := by
      rw [← up, treeNode, xor_one]
      generalize i / 2 ^ z = j
      by_cases h : j % 2 = 0
      · rw [if_pos h, if_pos h, show 2 * (j / 2) = j by omega]
      · rw [if_neg h, if_neg h, show 2 * (j / 2) + 1 = j by omega, show 2 * (j / 2) = j - 1 by omega]
    rw [List.range'_succ, List.map_cons, climb, node, up, ih (z + 1), Nat.add_right_comm z 1 n, Nat.add_assoc z n 1]

/-- The nodes beside the way from a leaf of a tree lead to its root. -/
theorem climb_root (leaf : Nat → List Byte) (join : Nat → Nat → List Byte → List Byte) (h i : Nat) (k : i < 2 ^ h) :
    climb join 0 i (leaf i) (treePath leaf join h i) = treeNode leaf join h 0 := by
  have := climb_treePath leaf join i h 0
  simpa [treePath, List.range_eq_range', treeNode, Nat.div_eq_of_lt k] using this

theorem hashChain_add (seed : List Byte) (p : HashPlace) (n m i : Nat) (x : List Byte) :
    hashChain seed p n (i + m) (hashChain seed p m i x) = hashChain seed p (m + n) i x := by
  induction m generalizing i x with
  | zero => simp [hashChain]
  | succ m ih =>
    rw [hashChain, show i + (m + 1) = i + 1 + m by omega, ih, show m + 1 + n = m + n + 1 by omega, hashChain]

theorem hashChain_length (seed : List Byte) (p : HashPlace) (n i : Nat) (x : List Byte) (h : x.length = 32) :
    (hashChain seed p n i x).length = 32 := by
  induction n generalizing i x with
  | zero => exact h
  | succ n ih => exact ih _ _ (hashAt_length _ _ _)

theorem treeNode_length (leaf : Nat → List Byte) (join : Nat → Nat → List Byte → List Byte)
    (hl : ∀ i, (leaf i).length = 32) (hj : ∀ z i m, (join z i m).length = 32) (z i : Nat) :
    (treeNode leaf join z i).length = 32 := by
  cases z with
  | zero => exact hl i
  | succ z => exact hj _ _ _

/-! ## One tree's signature -/

theorem digitsOf_length (m : List Byte) (h : m.length = 32) : (digitsOf m).length = 67 := by
  have e : ∀ l : List Byte, (l.flatMap fun b => [b.toNat / 16, b.toNat % 16]).length = 2 * l.length := fun l => by
    induction l with
    | nil => rfl
    | cons b t ih => simp only [List.flatMap_cons, List.length_append, ih, List.length_cons, List.length_nil]; omega
  simp [digitsOf, e, h]

theorem digitsOf_le (m : List Byte) (h : m.length = 32) : ∀ v ∈ digitsOf m, v ≤ 15 := by
  have bound : ∀ (l : List Byte) (n : Nat), (l.flatMap fun b => [b.toNat / 16, b.toNat % 16]).foldl
      (fun n v => n + (15 - v)) n ≤ n + 30 * l.length := fun l => by
    induction l with
    | nil => intro n; simp
    | cons b t ih =>
      intro n
      simp only [List.flatMap_cons, List.foldl_append, List.foldl_cons, List.foldl_nil, List.length_cons]
      have := ih (n + (15 - b.toNat / 16) + (15 - b.toNat % 16))
      omega
  have sum := bound m 0
  intro v hv
  simp only [digitsOf, List.mem_append, List.mem_flatMap, List.mem_cons, List.not_mem_nil, or_false] at hv
  rw [h] at sum
  rcases hv with ⟨b, -, rfl | rfl⟩ | rfl | rfl | rfl
  · have := b.isLt; omega
  all_goals omega

variable (key : SigningKey) (layer tree i : Nat) (m : List Byte)

theorem SigningKey.chainStart_length (k : Nat) : (key.chainStart layer tree i k).length = 32 := hashAt_length _ _ _

theorem SigningKey.leaf_length : (key.leaf layer tree i).length = 32 := hashAt_length _ _ _

theorem SigningKey.signInTree_length (h : m.length = 32) : (key.signInTree layer tree i m).length = 75 := by
  simp [signInTree, treePath, digitsOf_length m h]

theorem SigningKey.signInTree_parts : ∀ p ∈ key.signInTree layer tree i m, p.length = 32 := by
  intro p hp
  rcases List.mem_append.mp hp with h | h
  · obtain ⟨k, hk, rfl⟩ := List.mem_mapIdx.mp h
    exact hashChain_length _ _ _ _ _ (hashAt_length _ _ _)
  · obtain ⟨z, -, rfl⟩ := List.mem_map.mp h
    exact treeNode_length _ _ (key.leaf_length layer tree) (fun _ _ _ => hashAt_length _ _ _) _ _

/-- A tree's signature leads to its root. -/
theorem SigningKey.rootOfTree_signInTree (h : m.length = 32) (k : i < 256) :
    rootOfTree key.seed layer tree i m (key.signInTree layer tree i m) =
      treeNode (key.leaf layer tree) (joinOf key.seed layer tree) 8 0 := by
  have len := digitsOf_length m h
  have chains : ((digitsOf m).mapIdx fun k v => hashChain key.seed (chainPlace layer tree i k) v 0
      (key.chainStart layer tree i k)).length = 67 := by simpa using len
  have ends : ((digitsOf m).mapIdx fun k v => hashChain key.seed (chainPlace layer tree i k) (15 - v) v
      ((key.signInTree layer tree i m).getD k [])) = (List.range 67).map fun k =>
        hashChain key.seed (chainPlace layer tree i k) 15 0 (key.chainStart layer tree i k) := by
    refine List.ext_getElem (by simpa using len) fun k h1 h2 => ?_
    have hk : k < (digitsOf m).length := by simpa using h1
    have le := digitsOf_le m h _ (List.getElem_mem hk)
    rw [List.getElem_mapIdx, List.getElem_map, List.getElem_range]
    have part : (key.signInTree layer tree i m).getD k [] =
        hashChain key.seed (chainPlace layer tree i k) (digitsOf m)[k] 0 (key.chainStart layer tree i k) := by
      rw [signInTree, List.getD_eq_getElem?_getD, List.getElem?_append_left (by simpa using hk), List.getElem?_mapIdx]
      simp [hk]
    rw [part]
    have := hashChain_add key.seed (chainPlace layer tree i k) (15 - (digitsOf m)[k]) (digitsOf m)[k] 0
      (key.chainStart layer tree i k)
    rw [Nat.zero_add] at this
    rw [this, show (digitsOf m)[k] + (15 - (digitsOf m)[k]) = 15 by omega]
  have rest : (key.signInTree layer tree i m).drop 67 = treePath (key.leaf layer tree) (joinOf key.seed layer tree) 8 i := by
    rw [signInTree, List.drop_append, chains, List.drop_of_length_le (by omega)]
    rfl
  rw [rootOfTree, ends, rest]
  exact climb_root _ _ 8 i k

/-! ## The layers -/

theorem SigningKey.signLayers_parts (n : Nat) :
    ∀ (layer tree i : Nat) (m : List Byte), ∀ p ∈ key.signLayers n layer tree i m, p.length = 32 := by
  induction n with
  | zero => intro _ _ _ _ p hp; simp [signLayers] at hp
  | succ n ih =>
    intro layer tree i m p hp
    rcases List.mem_append.mp hp with h | h
    · exact key.signInTree_parts _ _ _ _ p h
    · exact ih _ _ _ _ p h

theorem rootOfTree_length (seed : List Byte) (parts : List (List Byte)) :
    (rootOfTree seed layer tree i m parts).length = 32 := by
  have up : ∀ (l : List (List Byte)) (z j : Nat) (x : List Byte), x.length = 32 →
      (climb (joinOf seed layer tree) z j x l).length = 32 := fun l => by
    induction l with
    | nil => intro _ _ _ h; exact h
    | cons b t ih => intro _ _ _ _; exact ih _ _ _ (hashAt_length _ _ _)
  exact up _ _ _ _ (hashAt_length _ _ _)

theorem SigningKey.signLayers_length (n : Nat) : ∀ (layer tree i : Nat) (m : List Byte), m.length = 32 →
    (key.signLayers n layer tree i m).length = 75 * n := by
  induction n with
  | zero => intros; rfl
  | succ n ih =>
    intro layer tree i m h
    rw [signLayers, List.length_append, key.signInTree_length _ _ _ _ h, ih _ _ _ _ (rootOfTree_length _ _ _ _ _ _)]
    omega

/-- The signatures of n layers lead to the root of the topmost tree. -/
theorem SigningKey.rootOfLayers_signLayers (n : Nat) : ∀ (layer tree i : Nat) (m : List Byte), m.length = 32 → i < 256 →
    rootOfLayers key.seed (n + 1) layer tree i m (key.signLayers (n + 1) layer tree i m) =
      treeNode (key.leaf (layer + n) (tree / 256 ^ n)) (joinOf key.seed (layer + n) (tree / 256 ^ n)) 8 0 := by
  induction n with
  | zero =>
    intro layer tree i m h k
    have e : (key.signLayers 1 layer tree i m).take 75 = key.signInTree layer tree i m := by
      rw [signLayers, signLayers, List.append_nil, List.take_of_length_le (Nat.le_of_eq (key.signInTree_length _ _ _ _ h))]
    rw [rootOfLayers, e, key.rootOfTree_signInTree _ _ _ _ h k, rootOfLayers]
    simp
  | succ n ih =>
    intro layer tree i m h k
    have len := key.signInTree_length layer tree i m h
    have e : (key.signLayers (n + 2) layer tree i m).take 75 = key.signInTree layer tree i m := by
      rw [signLayers, List.take_append_of_le_length (Nat.le_of_eq len.symm), List.take_of_length_le (Nat.le_of_eq len)]
    have d : (key.signLayers (n + 2) layer tree i m).drop 75 = key.signLayers (n + 1) (layer + 1) (tree / 256) (tree % 256)
        (rootOfTree key.seed layer tree i m (key.signInTree layer tree i m)) := by
      rw [signLayers, List.drop_append, len, List.drop_of_length_le (Nat.le_of_eq len)]
      rfl
    rw [rootOfLayers, e, d, ih _ _ _ _ (rootOfTree_length _ _ _ _ _ _) (Nat.mod_lt _ (by decide)),
      Nat.div_div_eq_div_mul, show layer + 1 + n = layer + (n + 1) by omega, Nat.pow_succ']

/-! ## Signatures -/

theorem partsOf_flatten (l : List (List Byte)) (h : ∀ p ∈ l, p.length = 32) (n : Nat) (k : l.length = n) :
    partsOf n l.flatten = l := by
  induction l generalizing n with
  | nil => subst k; rfl
  | cons p t ih =>
    obtain _ | n := n
    · simp at k
    · have len := h p (.head _)
      rw [List.flatten_cons, partsOf, List.take_append_of_le_length (Nat.le_of_eq len.symm), List.take_of_length_le (Nat.le_of_eq len),
        List.drop_append, len, List.drop_of_length_le (Nat.le_of_eq len)]
      have := ih (fun q hq => h q (.tail _ hq)) n (by simpa using k)
      simpa using this

theorem flatten_length (l : List (List Byte)) (h : ∀ p ∈ l, p.length = 32) : l.flatten.length = 32 * l.length := by
  induction l with
  | nil => rfl
  | cons p t ih =>
    rw [List.flatten_cons, List.length_append, ih fun q hq => h q (.tail _ hq), h p (.head _), List.length_cons]; omega

theorem SigningKey.signDigest_parts (t : Aim) : ∀ p ∈ key.signDigest t, p.length = 32 := by
  intro p hp
  obtain ⟨l, hl, hp⟩ := List.mem_flatten.mp hp
  obtain ⟨k, hk, rfl⟩ := List.mem_mapIdx.mp hl
  rcases List.mem_cons.mp hp with rfl | hp
  · exact hashAt_length _ _ _
  · obtain ⟨z, -, rfl⟩ := List.mem_map.mp hp
    exact treeNode_length _ _ (fun _ => hashAt_length _ _ _) (fun _ _ _ => hashAt_length _ _ _) _ _

theorem SigningKey.signDigest_length (t : Aim) : (key.signDigest t).length = 15 * t.leaves.length := by
  have : ∀ (l : List (List (List Byte))), (∀ x ∈ l, x.length = 15) → l.flatten.length = 15 * l.length := fun l h => by
    induction l with
    | nil => rfl
    | cons p t ih =>
      rw [List.flatten_cons, List.length_append, ih fun q hq => h q (.tail _ hq), h p (.head _), List.length_cons]; omega
  rw [signDigest, this _ fun x hx => ?_]
  · simp
  · obtain ⟨k, hk, rfl⟩ := List.mem_mapIdx.mp hx
    simp [treePath]

/-- A signature has the size of R430. -/
theorem SigningKey.sign_length (drawn m : List Byte) : (key.sign drawn m).length = signatureSize := by
  have own : ∀ d : List Byte, (key.signDigest (aimOf d)).flatten.length = 32 * 330 := fun d => by
    rw [flatten_length _ (key.signDigest_parts _), key.signDigest_length]; simp [aimOf]
  have up : ∀ tree leaf m, m.length = 32 → (key.signLayers 8 0 tree leaf m).flatten.length = 32 * 600 := fun tree leaf m h => by
    rw [flatten_length _ (key.signLayers_parts _ _ _ _ _), key.signLayers_length 8 _ _ _ _ h]
  rw [sign, List.length_append, List.length_append, shake256_length 32 _ (by decide), own, up _ _ _ (by rw [rootOfDigest]; exact hashAt_length _ _ _)]
  rfl

/-- A signature that a key makes is good under its public half, where its root is that of its topmost tree. -/
theorem SigningKey.verifies_sign (key : SigningKey) (drawn m : List Byte) (sl : key.seed.length = 32)
    (top : key.root = treeNode (key.leaf 7 0) (joinOf key.seed 7 0) 8 0) :
    verifies key.public m (key.sign drawn m) = true := by
  have root : key.root.length = 32 := by
    rw [top]; exact treeNode_length _ _ (key.leaf_length 7 0) (fun _ _ _ => hashAt_length _ _ _) _ _
  have both : key.public.length = 64 := by rw [SigningKey.public, List.length_append, root, sl]
  rw [verifies, if_neg (by rw [key.sign_length, both]; decide)]
  have seedIs : key.public.take 32 = key.seed := by
    rw [SigningKey.public, List.take_append_of_le_length (Nat.le_of_eq sl.symm), List.take_of_length_le (Nat.le_of_eq sl)]
  have rootIs : key.public.drop 32 = key.root := by
    rw [SigningKey.public, List.drop_append, List.drop_of_length_le (Nat.le_of_eq sl), sl]
    rfl
  obtain ⟨r, hr⟩ : ∃ r, r = shake256 32 (key.forMessages ++ drawn ++ framed m) := ⟨_, rfl⟩
  have rl : r.length = 32 := hr ▸ shake256_length 32 _ (by decide)
  obtain ⟨t, ht⟩ : ∃ t, t = aimOf (shake256 47 (r ++ key.seed ++ key.root ++ framed m)) := ⟨_, rfl⟩
  obtain ⟨own, ho⟩ : ∃ own, own = key.signDigest t := ⟨_, rfl⟩
  obtain ⟨base, hb⟩ : ∃ base, base = rootOfDigest key.seed t own := ⟨_, rfl⟩
  have bl : base.length = 32 := hb ▸ hashAt_length _ _ _
  have dl : (shake256 47 (r ++ key.seed ++ key.root ++ framed m)).length = 47 := shake256_length 47 _ (by decide)
  have leafLt : t.leaf < 256 := by
    have := natOfUp_lt ((shake256 47 (r ++ key.seed ++ key.root ++ framed m)).drop 46)
    rw [List.length_drop, dl] at this
    rw [ht]; exact this
  have treeLt : t.tree < 256 ^ 7 := by
    have := natOfUp_lt (((shake256 47 (r ++ key.seed ++ key.root ++ framed m)).drop 39).take 7)
    rw [List.length_take, List.length_drop, dl] at this
    rw [ht]; exact this
  have made : key.sign drawn m = r ++ (own ++ key.signLayers 8 0 t.tree t.leaf base).flatten := by
    rw [List.flatten_append, ← List.append_assoc, hb, ho, ht, hr]; rfl
  have first : (key.sign drawn m).take 32 = r := by
    rw [made, List.take_append_of_le_length (Nat.le_of_eq rl.symm), List.take_of_length_le (Nat.le_of_eq rl)]
  have rest : (key.sign drawn m).drop 32 = (own ++ key.signLayers 8 0 t.tree t.leaf base).flatten := by
    rw [made, List.drop_append, rl, List.drop_of_length_le (Nat.le_of_eq rl)]; rfl
  have ownLen : own.length = 330 := by rw [ho, key.signDigest_length]; simp [ht, aimOf]
  have parts : partsOf 930 ((key.sign drawn m).drop 32) = own ++ key.signLayers 8 0 t.tree t.leaf base := by
    rw [rest]
    refine partsOf_flatten _ (fun p hp => ?_) _ ?_
    · rcases List.mem_append.mp hp with hp | hp
      · exact key.signDigest_parts t p (ho ▸ hp)
      · exact key.signLayers_parts _ _ _ _ _ p hp
    · rw [List.length_append, ownLen, key.signLayers_length 8 _ _ _ _ bl]
  have aim : aimOf (shake256 47 ((key.sign drawn m).take 32 ++ key.public ++ framed m)) = t := by
    rw [first, SigningKey.public, ← List.append_assoc r, ← ht]
  show (rootOfLayers (key.public.take 32) 8 0 (aimOf (shake256 47 ((key.sign drawn m).take 32 ++ key.public ++ framed m))).tree
    (aimOf (shake256 47 ((key.sign drawn m).take 32 ++ key.public ++ framed m))).leaf
    (rootOfDigest (key.public.take 32) (aimOf (shake256 47 ((key.sign drawn m).take 32 ++ key.public ++ framed m)))
      ((partsOf 930 ((key.sign drawn m).drop 32)).take 330)) ((partsOf 930 ((key.sign drawn m).drop 32)).drop 330) ==
        key.public.drop 32) = true
  rw [seedIs, rootIs, aim, parts, List.take_append_of_le_length (Nat.le_of_eq ownLen.symm),
    List.take_of_length_le (Nat.le_of_eq ownLen), List.drop_append, ownLen, List.drop_of_length_le (Nat.le_of_eq ownLen),
    ← hb, Nat.sub_self, List.nil_append, List.drop_zero]
  rw [key.rootOfLayers_signLayers 7 0 t.tree t.leaf base bl leafLt, Nat.div_eq_of_lt treeLt]
  rw [← top]
  exact beq_self_eq_true _

theorem SigningKey.leaf_root (key : SigningKey) (root : List Byte) : ({ key with root := root } : SigningKey).leaf = key.leaf := rfl

/-- The same of a key of three secret values. -/
theorem verifies_sign (secret forMessages seed drawn m : List Byte) (h : seed.length = 32) :
    verifies (signingKey secret forMessages seed).public m ((signingKey secret forMessages seed).sign drawn m) = true := by
  refine SigningKey.verifies_sign _ drawn m h ?_
  rw [signingKey, SigningKey.leaf_root]

end Sys2Proof.Machine
end

