-- ==== Sys2Proof/Laws/Words.lean ====
section
/-! SUPPORT. Fields of words: what a field of appended fields is, and that the parts of the word of some parts are
those parts. -/

namespace Sys2Proof

/-- The low field. -/
theorem field_low {n k : Nat} (x : BitVec n) (y : BitVec k) : (x ++ y).extractLsb' 0 k = y := by
  apply BitVec.eq_of_getLsbD_eq
  intro i hi
  simp [BitVec.getLsbD_append, hi]

/-- The high field. -/
theorem field_high {n k : Nat} (x : BitVec n) (y : BitVec k) : (x ++ y).extractLsb' k n = x := by
  apply BitVec.eq_of_getLsbD_eq
  intro i hi
  simp [BitVec.getLsbD_append, hi]

/-- A field that lies in the low part. -/
theorem field_in_low {n k : Nat} (x : BitVec n) (y : BitVec k) (s m : Nat) (h : s + m ≤ k) :
    (x ++ y).extractLsb' s m = y.extractLsb' s m := by
  apply BitVec.eq_of_getLsbD_eq
  intro i hi
  simp [BitVec.getLsbD_append, hi, show s + i < k by omega]

/-- A field that lies in the high part. -/
theorem field_in_high {n k : Nat} (x : BitVec n) (y : BitVec k) (s m : Nat) (h : k ≤ s) :
    (x ++ y).extractLsb' s m = x.extractLsb' (s - k) m := by
  apply BitVec.eq_of_getLsbD_eq
  intro i hi
  simp [BitVec.getLsbD_append, hi, show ¬ s + i < k by omega, show s + i - k = s - k + i by omega]

/-- The whole of a word is its only field. -/
theorem field_whole {n : Nat} (x : BitVec n) : x.extractLsb' 0 n = x := by
  apply BitVec.eq_of_getLsbD_eq
  intro i hi
  simp [hi]

/-- The parts of the word of some parts. -/
theorem partsOfWord_word (p : Parts) : partsOfWord p.word = p := by
  obtain ⟨m, a, b, l⟩ := p
  have h1 : (m ++ a ++ b ++ l).extractLsb' 26 6 = m := by
    rw [field_in_high _ _ 26 6 (by decide), field_in_high _ _ 10 6 (by decide)]
    exact field_high m a
  have h2 : (m ++ a ++ b ++ l).extractLsb' 21 5 = a := by
    rw [field_in_high _ _ 21 5 (by decide), field_in_high _ _ 5 5 (by decide)]
    exact field_low m a
  have h3 : (m ++ a ++ b ++ l).extractLsb' 16 5 = b := by
    rw [field_in_high _ _ 16 5 (by decide)]
    exact field_low (m ++ a) b
  have h4 : (m ++ a ++ b ++ l).extractLsb' 0 16 = l := field_low (m ++ a ++ b) l
  unfold partsOfWord Parts.word
  rw [h1, h2, h3, h4]

/-- The decoder on the word of some parts. -/
theorem decode_word (p : Parts) : decode p.word = decodeParts p := by rw [decode, partsOfWord_word]

end Sys2Proof
end

