-- ==== Sys2Proof/Tests/Slice0.lean ====
section
/-! SUPPORT. Tests: words of the spec, ill-formed terms, worked examples, and for every statement with hypotheses a
state and operands that meet them. -/

namespace Sys2Proof.Tests

set_option Elab.async false

open Machine Claims

/-! ## Words that the spec writes out -/

theorem test_decode_settile : decodeTableWord 32 0xD9863A00 = some (.settile 12 6 7 2) := by decide +kernel
theorem test_decode_mldA : decodeTableWord 32 0xE4042A00 = some (.mldA 0 4 5 2) := by decide +kernel
theorem test_decode_mldB : decodeTableWord 32 0xE4882A10 = some (.mldB 4 8 5 2) := by decide +kernel
theorem test_decode_mma : decodeTableWord 32 0xDE002200 = some (.mma 16 0 4 2 0) := by decide +kernel
theorem test_decode_mdrainN : decodeTableWord 32 0xDA800331 = some (.mdrainN 20 3) := by decide +kernel
theorem test_decode_bnez : decodeTableWord 32 0x35800003 = some (.bne 12 0 3) := by decide +kernel
theorem test_decode_addi : decodeTableWord 32 0x098CFFFF = some (.addi 12 12 0xFFFF) := by decide +kernel
theorem test_decode_sd : decodeTableWord 32 0x49A40000 = some (.sd 13 4 0 0) := by decide +kernel
theorem test_decode_wlwait : decodeTableWord 32 0x5DA0B801 = some (.wlwait 13 23) := by decide +kernel
theorem test_decode_setvlmax : decodeTableWord 32 0x81C00054 = some (.setvlmax 14 1 0 4) := by decide +kernel
theorem test_decode_vld : decodeTableWord 32 0xC1140000 = some (.vld 8 20 0 0 0 0) := by decide +kernel
theorem test_decode_vmvSX : decodeTableWord 32 0x89800017 = some (.vmvSX 12 0 0) := by decide +kernel
theorem test_decode_vredsum : decodeTableWord 32 0xA1486000 = some (.vredsum 10 8 12 0) := by decide +kernel
theorem test_decode_copy : decodeTableWord 32 0xF1A63834 = some (.copy 13 6 7 1 1 1) := by decide +kernel
theorem test_decode_chain : decodeTableWord 32 0xF5C91000 = some (.chain 14 9 2) := by decide +kernel
theorem test_decode_collX : decodeTableWord 32 0xF9A90001 = some (.collX 13 9) := by decide +kernel
theorem test_decode_coll : decodeTableWord 32 0xF9A90000 = some (.coll 13 9) := by decide +kernel
theorem test_decode_ldAq : decodeTableWord 32 0x5195006D = some (.ldAq 12 21 0 0 3) := by decide +kernel
theorem test_decode_rring : decodeTableWord 32 0x6DAE1001 = some (.rring 13 14 2) := by decide +kernel

/-! ## Terms that are no instructions (R31, R92, R125, R179, R253) -/

theorem test_lcount_level : Instr.wellFormed (.lcount 1 6) = false := by decide
theorem test_lstride_level : Instr.wellFormed (.lstride 1 2 0 7) = false := by decide
theorem test_loop_depth : Instr.wellFormed (.loop 6 0) = false := by decide
theorem test_setvl_width : Instr.wellFormed (.setvl 1 2 0 1 5) = false := by decide
theorem test_setvlmax_width : Instr.wellFormed (.setvlmax 1 0 1 7) = false := by decide
theorem test_setvli_width : Instr.wellFormed (.setvli 1 0 0 1 5) = false := by decide
theorem test_vld_map : Instr.wellFormed (.vldTmap 1 2 0 0 0 0 0) = false := by decide
theorem test_vst_map : Instr.wellFormed (.vstTmap 1 2 0 0 0 0 0 0) = false := by decide
theorem test_vlds_stride : Instr.wellFormed (.vlds 1 2 0 0 0 0 0) = false := by decide
theorem test_vsts_stride : Instr.wellFormed (.vsts 1 2 0 0 0 0 0 0) = false := by decide
theorem test_modeM_load : Instr.wellFormed (.modeM 2 0 1) = false := by decide
theorem test_modeM_flow : Instr.wellFormed (.modeM 2 1 0) = false := by decide
theorem test_modeM_formed : Instr.wellFormed (.modeM 2 1 1) = true := by decide

/-! ## A word runs as the first instruction after reset -/

theorem test_step_addi : (match step (State.reset.withFetchWord 32 0x09800005) with
    | .next t => decide (t.hart.rx 12 = 5 ∧ t.hart.instret = 1 ∧ t.hart.pc = Config.bootVector + 4)
    | _ => false) = true := by decide +kernel

theorem test_step_zeros : (match step State.reset with
    | .next t => decide (t.hart.fw.cause = 5 ∧ t.hart.fw.epc = Config.bootVector ∧ t.hart.instret = 0)
    | _ => false) = true := by decide +kernel

/-! ## Small states -/

/-- A package of one core and one cluster whose hart is at user level. -/
def tiny (f : Hart → Hart) : State :=
  { State.reset with
      cores := [Core.reset], clusters := [Cluster.reset], dies := List.replicate 8 Die.reset
      hart := f { Hart.reset with priv := .user, tcmUnits := 4, vtype := some ⟨.e32, 0⟩, vl := 16 } }

/-- The same with registers 4, 5, 6. -/
def regs (a b c : Nat) : State :=
  tiny fun h => ((h.wx 4 (BitVec.ofNat 64 a)).wx 5 (BitVec.ofNat 64 b)).wx 6 (BitVec.ofNat 64 c)

/-- First addresses of the TCM window, the slices of SRAM and host memory. -/
def tcm0 : Nat := 0x7FFFFFFFFC0000
def sram0 : Nat := 0x10000000000
def host0 : Nat := 0x800000000000

/-- An access reaches its place where `resolve` says so. -/
theorem reaches {k : Access} {va : Word} {n : Nat} {p : Place} {tr : Option HeldTranslation} {s : State}
    (h : (resolve (s.agentOf s.hart) s.hart.tlb k va n s).1 = .ok (p, tr)) :
    Reaches k va n p s ((resolve (s.agentOf s.hart) s.hart.tlb k va n s).2.onHart (Hart.hold tr)) :=
  ⟨tr, _, Prod.ext h rfl, rfl⟩

/-- A bit of code that ends well, ends with what it gives. -/
theorem ends {α : Type} {r : EStateM.Result Unit State α} (P : α → State → Prop) [∀ a t, Decidable (P a t)]
    (h : (match r with | .ok a t => decide (P a t) | .error _ _ => false) = true) : ∃ a t, r = .ok a t ∧ P a t := by
  cases r with
  | ok a t => exact ⟨a, t, rfl, of_decide_eq_true h⟩
  | error e t => cases h

/-- A pair is its parts. -/
theorem parts {α β : Type} {p : α × β} {a : α} (h : p.1 = a) : p = (a, p.2) := by rw [← h]

/-- A result succeeds with a value. -/
def isOk {ε α : Type} [DecidableEq α] (r : Except ε α) (a : α) : Bool :=
  match r with
  | .ok b => decide (b = a)
  | .error _ => false

theorem given {ε α : Type} [DecidableEq α] {r : Except ε α} {a : α} (h : isOk r a = true) : r = .ok a := by
  cases r with
  | ok b => exact congrArg _ (of_decide_eq_true h)
  | error e => cases h

/-- An access without translation reaches its place. -/
theorem direct {k : Access} {va : Word} {n : Nat} {p : Place} {s : State}
    (h : isOk (resolve (s.agentOf s.hart) s.hart.tlb k va n s).1 (p, none) = true) :
    Reaches k va n p s ((resolve (s.agentOf s.hart) s.hart.tlb k va n s).2.onHart (Hart.hold none)) :=
  reaches (given h)

/-- An option that holds a value holds it. -/
theorem holds {α : Type} {x : Option α} (P : α → Prop) [DecidablePred P] (h : x.any (fun a => decide (P a)) = true) :
    ∃ a, x = some a ∧ P a := by
  cases x with
  | none => cases h
  | some a => exact ⟨a, rfl, of_decide_eq_true h⟩

/-- No debugger's event, pre-emption or instruction in flight comes first. -/
theorem onlyInterrupts {s : State} (h : ((s.hart.dbg.passBreak || s.hart.breakpointHit.isNone) && s.myGang.pre.isNone &&
    s.hart.stopAt.isNone && s.hart.partLoad.isNone && s.hart.arrayAt == 0 && s.hart.wait.isNone) = true) :
    OnlyInterrupts s := by
  simp only [Bool.and_eq_true, Bool.or_eq_true, Option.isNone_iff_eq_none, beq_iff_eq] at h
  obtain ⟨⟨⟨⟨⟨a, b⟩, c⟩, d⟩, e⟩, f⟩ := h
  exact ⟨a, b, c, d, e, by simp [f], by simp [f]⟩

/-! ## The machine around an instruction -/

theorem witness_StepRunsTheDecodedInstruction :
    (∃ s s0 u t c w i v, Issues s s0 c ∧ s0.pick c = some u ∧ prepare u = .ok w t ∧ decode w = some i ∧
      exec i t = .next v ∧ v.held = none ∧ t.hart.stopAt = none ∧ t.freezes = [] ∧ i = .addi 12 0 5) ∧
    (∃ s s0 u t c w, Issues s s0 c ∧ s0.pick c = some u ∧ prepare u = .ok w t ∧ decode w = none) ∧
    (∃ s : State, s.agenda = .event .heartbeatTick :: [] ∧ Instr.isEvent .heartbeatTick = true) := by
  refine ⟨⟨State.reset.withFetchWord 32 0x09800005, _, (State.reset.withFetchWord 32 0x09800005).focus ⟨0, 0⟩, ?_, 0, ?_,
      .addi 12 0 5, _, .inl ⟨rfl, rfl, rfl⟩, ?_, ?_, ?_, rfl, ?_, ?_, ?_, rfl⟩,
    ⟨State.reset, _, State.reset.focus ⟨0, 0⟩, ?_, 0, ?_, .inl ⟨rfl, rfl, rfl⟩, ?_, ?_, ?_⟩,
    ⟨{ State.reset with agenda := [.event .heartbeatTick] }, rfl, rfl⟩⟩
  all_goals first | exact rfl | decide +kernel | skip

/-- The boot hart at the word ADDI x12, x0, 5. -/
def booting : State := State.reset.withFetchWord 32 0x09800005

theorem witness_FetchReadsOrTraps :
    (PlainIssue booting ∧ booting.hart.pc.toNat % 4 = 0 ∧ booting.hart.pc.toNat < 0x1000000000000 ∧
      booting.hart.xlat.en = false ∧ booting.lineAt booting.hart.cluster booting.hart.pc.toNat = none ∧
      booting.readerLine 0x10000001000 = none ∧ (booting.die (homeDie 0x10000001000)).dropped = [] ∧
      booting.poisoned 0x10000001000 4 = false ∧ booting.hart.ibuf = [] ∧ booting.priors = [] ∧
      booting.hart.pending = [] ∧ booting.errors = [] ∧ booting.localErrors = []) ∧
    booting.placeOf booting.hart.pc.toNat true = .ok (.device booting.hart.pc.toNat 0x10000001000 true) ∧
    (OnlyInterrupts (tiny fun h => { h with pc := 0x10000001002 }) ∧
      (tiny fun h => { h with pc := 0x10000001002 }).interruptDue
        (tiny fun h => { h with pc := 0x10000001002 }).hart = none ∧
      (tiny fun h => { h with pc := 0x10000001002 }).hart.pc.toNat % 4 ≠ 0) :=
  ⟨⟨⟨onlyInterrupts (by decide +kernel), by decide +kernel, by decide +kernel⟩, by decide +kernel⟩, rfl,
    onlyInterrupts (by decide +kernel), by decide +kernel⟩

theorem witness_StepsKeepMemoryCanonical : State.reset.wf = true ∧ ∃ t, step State.reset = .next t :=
  ⟨by decide +kernel, _, rfl⟩

theorem witness_DecodingInvertsEncoding : Instr.isEvent (.lcount 31 5) = false ∧
    Instr.wellFormed (.lcount 31 5) = true ∧ Instr.wellFormed (.modeM 30 1 1) = true := by decide

/-! ## Traps -/

/-- A hart at a level, with a nested vector where asked. -/
def at_ (p : Priv) (nest : Bool) : State :=
  tiny fun h => { h with
    priv := p, sup := { h.sup with stat := { h.sup.stat with nest := nest } }
    fw := { h.fw with stat := { h.fw.stat with nest := nest } } }

theorem witness_TrapEntrySavesAndVectors :
    (EntersHandler false 0x05 (at_ .user false) ∧ ¬ ToFirmware false 0x05 (at_ .user false).hart) ∧
    (EntersHandler false 0x10 (at_ .supervisor false) ∧ ToFirmware false 0x10 (at_ .supervisor false).hart) ∧
    (EntersHandler true 0x01 (at_ .firmware true) ∧ ToFirmware true 0x01 (at_ .firmware true).hart) := by
  unfold EntersHandler ToFirmware; decide +kernel

theorem witness_DoubleTrapEndsTheGang : let s := at_ .user true
    (if s.hart.toFirmware false 0x05 then s.hart.fw else s.hart.sup).stat.nest = true ∧ s.hart.run ≠ .gone ∧
      ∃ g ∈ s.gangs, g.key = s.hart.name.gang := by decide +kernel

/-- A supervisor in a handler that came from a level, with a suspended loop of two words. -/
def inHandler (from_ : BitVec 2) (lp : Bool) (epc : Word) : State :=
  tiny fun h => { h with
    priv := .supervisor
    sup := { h.sup with epc := epc, stat := { h.sup.stat with ppriv := from_, lp := lp, nest := true } }
    seqr := { h.seqr with suspended := true, loop := some ⟨0x1000, [0, 0], 1, Vector.replicate 6 0, 0, false, []⟩ } }

theorem witness_TrapReturnRestores :
    (∀ p ∈ [2, 3], (inHandler p true 0).hart.priv ≠ .user ∧
      ((p : BitVec 2) != 2 && decide (p.toNat ≤ 1)) = false) ∧
    (∀ p ∈ [0, 1], (p != (2 : BitVec 2) && decide (p.toNat ≤ 1)) = true) ∧
    (let s := inHandler 0 true 0x1004
     s.hart.sup.stat.lp = true ∧ s.hart.seqr.suspended = true ∧
      s.hart.sup.epc = (0x1000 : Word) + BitVec.ofNat 64 (4 * 1) ∧ 1 < 2) ∧
    (let s := inHandler 0 true 0x1008
     ∀ k < 2, s.hart.sup.epc ≠ (0x1000 : Word) + BitVec.ofNat 64 (4 * k)) := by decide +kernel

/-- A hart with interrupts enabled, an event, a software interrupt and a timer pending as asked. -/
def pending (on event software timer : Bool) : State :=
  tiny fun h => { h with
    sup := { h.sup with stat := { h.sup.stat with ie := on } }, eve := event, sevent := if event then 1 else 0
    swe := software, swp := software, tie := timer, stimecmp := 0 }

theorem witness_InterruptsAreTakenInOrder :
    ∀ on e w t : Bool, OnlyInterrupts (pending on e w t) ∧
      (pending on e w t).hart.sup.stat.ie = on ∧
      (decide ((pending on e w t).hart.eve = true ∧ (pending on e w t).hart.sevent ≠ 0) = e) ∧
      (decide ((pending on e w t).hart.swe = true ∧ (pending on e w t).hart.swp = true) = w) ∧
      (decide ((pending on e w t).hart.tie = true ∧
        (pending on e w t).hart.stimecmp.toNat ≤ (pending on e w t).time.toNat) = t) :=
  fun on e w t => ⟨onlyInterrupts (by revert on e w t; decide +kernel), by revert on e w t; decide +kernel⟩

theorem witness_SystemInstructions :
    ((tiny fun h => { h with flags := 0x11, flagEn := 0x10 }).hart.flags &&& 0x10 ≠ 0) ∧
    ((at_ .user false).hart.flags &&& (at_ .user false).hart.flagEn = 0) ∧
    ((at_ .user false).hart.sup.stat.nest = false ∧ (at_ .supervisor false).hart.fw.stat.nest = false) ∧
    ((at_ .supervisor false).wakePending (at_ .supervisor false).hart = false) ∧
    (let s := (pending true true false false).onHart fun h => { h with priv := .supervisor }
     s.wakePending s.hart = true) := by decide +kernel

/-! ## Calls, gates, loops -/

theorem witness_CallsKeepTheVectorState :
    ((regs 0 0 0).onHart (Hart.wx 2 8)).hart.rx 2 = 8 ∧
    (∃ s p q s1 s2, (s.hart.rx 2).toNat % 16 = 0 ∧ Reaches .store (s.hart.rx 2 - 16) 8 p s s1 ∧
      Unwatched .store (s.hart.rx 2 - 16) 8 s1 ∧ Reaches .store (s.hart.rx 2 - 8) 8 q s1 s2 ∧
      Unwatched .store (s.hart.rx 2 - 8) 8 s2) ∧
    (∃ s r d s1 s2, (s.hart.rx 2).toNat % 16 = 0 ∧ s.myGang.pre = none ∧ Loads (s.hart.rx 2) 8 Hints.none r s s1 ∧
      Loads (s.hart.rx 2 + 8) 8 Hints.none d s1 s2 ∧ natOfBytes d < 2 ^ 53 ∧
      natOfBytes d / 2 ^ 32 % 2 ^ 16 = (Ew.e8).code.toNat + 16 * 0) ∧
    (∃ s : State, s.myGang.pre ≠ none ∧ s.hart.mode = none ∧ Unfrozen s) ∧
    (∃ s : State, s.myGang.pre ≠ none ∧ s.hart.mode = none ∧ ¬ Unfrozen s) := by
  refine ⟨by decide +kernel, ⟨tiny (Hart.wx 2 (BitVec.ofNat 64 (tcm0 + 16))), .tcm 0 0, .tcm 0 8, _, _,
      by decide +kernel, ⟨none, _, rfl, rfl⟩, by unfold Unwatched; decide +kernel, ⟨none, _, rfl, rfl⟩,
      by unfold Unwatched; decide +kernel⟩,
    ⟨tiny (Hart.wx 2 (BitVec.ofNat 64 tcm0)) |>.modCore 0 (fun c => { c with tcm := [(12, 1)] }), _, [0, 0, 0, 0, 1, 0, 0, 0], _, _,
      by decide +kernel, rfl, ⟨by decide +kernel, .tcm 0 0, _, _, ⟨none, _, rfl, rfl⟩, by unfold Unwatched; decide +kernel, rfl, rfl⟩,
      ⟨by decide +kernel, .tcm 0 8, _, _, ⟨none, _, rfl, rfl⟩, by unfold Unwatched; decide +kernel, rfl, rfl⟩, by decide, by decide⟩,
    ⟨{ tiny id with gangs := [{ Gang.reset with pre := some ⟨0, 0, none⟩ }] }, by decide +kernel, rfl, by unfold Unfrozen; decide +kernel⟩,
    ⟨{ tiny id with gangs := [{ Gang.reset with pre := some ⟨0, 0, none⟩ }], freezes := [.package] }, by decide +kernel, rfl,
      by unfold Unfrozen; decide +kernel⟩⟩

/-- A gate table at the foot of SRAM with entry 0: valid, supervisor, the target 0x40. -/
def gated (valid : Byte) : State :=
  { tiny (fun h => { h with gtbase := 0x10000000 }) with mem := [(sram0, 0x40), (sram0 + 8, valid)] }

theorem witness_GatesEnterAndReturn :
    ((tiny fun h => { h with gated := true }).hart.gated = true) ∧
    ((tiny fun h => { h with gtbase := 0x40000000 }).homeOf (0x40000000 * 4096 + 16 * 0) = none) ∧
    (∀ v ∈ [0, 3], ∃ d s1, (gated v).hart.gated = false ∧
      (gated v).homeOf ((gated v).hart.gtbase.toNat * 4096 + 16 * 0) = some sram0 ∧
      (gated v).readDie (gated v).me sram0 16 = (d, s1) ∧ s1.poisoned sram0 16 = false ∧
      (natOfBytes d / 2 ^ 64 % 2 = 1 ↔ v = 3)) ∧
    (∃ s : State, s.hart.gated = true ∧ s.hart.gate.priv = Priv.supervisor.code) := by
  refine ⟨rfl, by decide +kernel, fun v hv => ⟨_, _, ?_, ?_, rfl, ?_, ?_⟩,
    tiny fun h => { h with gated := true, gate := ⟨0, 1, 0⟩ }, rfl, rfl⟩ <;>
  · revert v; decide +kernel

/-- A hart before a loop of one level, or within its body of two words. -/
def looping (first last : Word) (index : BitVec 32) (pos : Nat) : Hart :=
  { Hart.reset with
    pc := 0x1000 + BitVec.ofNat 64 (4 * pos)
    seqr := { Sequencer.reset with
      counts := Vector.replicate 6 3, first := first, last := last
      loop := some ⟨0x1000, [0x09800005, 0x09800005], 1, Vector.ofFn fun i => if i.val = 0 then index else 0, pos, false, []⟩ } }

/-- The boot hart before the word of `booting`, its counts 1. -/
def beforeLoop : State :=
  booting.onHart fun h => { h with pc := h.pc - 4, seqr := { h.seqr with counts := Vector.replicate 6 1 } }

theorem witness_LoopsStart :
    ((5 : BitVec 3).toNat < 6) ∧
    (tiny id).hart.looping = none ∧ (tiny id).hart.sup.stat.lp = false ∧ ((looping 0 0 0 0).looping ≠ none) ∧
    (beforeLoop.hart.looping = none ∧ beforeLoop.hart.sup.stat.lp = false ∧
      (¬ ∃ k ≤ 0, beforeLoop.hart.seqr.counts.toList.getD k 0 = 0)) ∧
    (∃ body s1, fetchBody 1 (beforeLoop.hart.pc + 4) beforeLoop = .ok body s1 ∧ BodyAllowed body ∧
      s1.hart.seqr.last.getLsbD 0 = false ∧ 0 < body.length) := by
  refine ⟨by decide, rfl, rfl, by decide +kernel, by decide +kernel, ?_⟩
  obtain ⟨body, s1, h, rfl, h1⟩ : ∃ body s1, fetchBody 1 (beforeLoop.hart.pc + 4) beforeLoop = .ok body s1 ∧
      body = [0x09800005] ∧ s1.hart.seqr.last.getLsbD 0 = false :=
    ends (fun body s1 => body = [0x09800005] ∧ s1.hart.seqr.last.getLsbD 0 = false) (by decide +kernel)
  exact ⟨_, _, h, fun w hw => by rw [List.mem_singleton.mp hw]; decide +kernel, h1, by decide⟩

theorem witness_LoopReplaysItsBody :
    (∃ l, (looping 0 0 0 0).looping = some l ∧ (looping 0 0 0 0).pc = l.base + BitVec.ofNat 64 (4 * l.pos) ∧
      1 < l.body.length ∧ l.pos < 1 ∧ (looping 0 0 0 0).seqr.runs l 1 = true) ∧
    (∃ l, (looping 0 0 1 1).looping = some l ∧ l.pos + 1 = l.body.length ∧ 0 < l.depth ∧
      l.index.toList.getD 0 0 ≠ (looping 0 0 1 1).seqr.counts.toList.getD 0 0 - 1) ∧
    (∃ l, (looping 0 0 2 1).looping = some l ∧ l.pos + 1 = l.body.length ∧
      ∀ j < l.depth, l.index.toList.getD j 0 = (looping 0 0 2 1).seqr.counts.toList.getD j 0 - 1) :=
  ⟨⟨_, rfl, by decide +kernel, by decide +kernel, by decide +kernel, by decide +kernel⟩,
    ⟨_, rfl, by decide +kernel, by decide +kernel, by decide +kernel⟩,
    ⟨_, rfl, by decide +kernel, by decide +kernel⟩⟩

/-! ## Scalar memory -/

/-- A load passes its checks and gives the bytes of an empty place. -/
theorem witness_ScalarLoadsGiveTheirBytes :
    (∃ s d t, Loads (offsetAddress 4 0xFF8 s) 8 ⟨0, false, 5⟩ d s t) ∧
    (∃ s d t, Loads (indexedAddress 4 5 s) 1 ⟨3, true, 0⟩ d s t) := by
  refine ⟨⟨regs (tcm0 + 0x18) 0 0, List.replicate 8 0, _, ?_, .tcm 0 0x10, _, _, direct ?_, ?_, parts ?_, rfl⟩,
    ⟨regs (sram0 + 127) 1 0, List.replicate 1 0, _, ?_, .device (sram0 + 128) (sram0 + 128) true, _, _, direct ?_, ?_,
      parts ?_, rfl⟩⟩
  all_goals first | decide +kernel | (unfold Unwatched; decide +kernel)

/-- A cluster with one line of SRAM, its first byte dirty in class 2. -/
def cached : State :=
  { tiny id with clusters := [{ Cluster.reset with
      lines := [{ Line.empty sram0 0 with
        bytes := (Vector.replicate 128 ⟨false, false, 0, none⟩).set 0 ⟨true, true, 9, none⟩, classes := 4 }] }] }

/-- That line as it stood before an acquire of class 2, and a hart that keeps it as often as the free choice may ask. -/
def before : EarlyLine := ⟨0, ((cached.cluster 0).lines).headD (Line.empty 0 0), 4, 0⟩
def remembering : State := tiny fun h => { h with early := List.replicate (Config.beforeAcquire 0 sram0 + 1) before }

theorem witness_LoadsReadTheirPlace :
    (∀ p ∈ [Place.tcm 0 0, .scratch 0 0], Valid (tiny id) p) ∧ Valid (tiny id) (.host host0) ∧
    Valid (tiny id) (.device (sram0 + 8) (sram0 + 8) true) ∧ (tiny id).hart.cluster < (tiny id).clusters.length ∧
    (tiny id).readerLine (sram0 + 8) = none ∧ (∀ d ∈ (tiny id).dies, d.dropped = []) ∧ (tiny id).errors = [] ∧
    (tiny id).localErrors = [] ∧ (sram0 + 8) % 8 = 0 ∧ Roomy (tiny id) (sram0 + 8) ∧
    (∃ l, cached.lineAt cached.hart.cluster sram0 = some l ∧ isCompressedHome sram0 = false) ∧
    (∀ p ∈ [Place.tcm 0 0, .host host0, .device (sram0 + 8) (sram0 + 8) true],
      (tiny id).earlyAt ((tiny id).agentOf (tiny id).hart) p 8 3 = none ∧ ∀ k < 8, stands (tiny id) (p.plus k) = some 0) ∧
    stands { tiny id with gangs := [{ Gang.reset with scratch := [(0, 5)] }] } (.scratch 0 0) = some 5 ∧
    (∃ e, (remembering.earlyAt (remembering.agentOf remembering.hart) (.device sram0 sram0 true) 1 3) = some (sram0, e)) :=
  ⟨fun p hp => by
    obtain rfl | rfl : p = .tcm 0 0 ∨ p = .scratch 0 0 := by simpa using hp
    all_goals exact True.intro, ⟨host0, given (by decide +kernel)⟩, given (by decide +kernel), by decide +kernel,
    by decide +kernel, by decide +kernel, rfl, rfl, by decide, by unfold Roomy; decide +kernel, ⟨_, rfl, by decide +kernel⟩,
    by decide +kernel, by decide +kernel, before, by
      have h : (before.line.base == lineOf sram0 && !before.closed.getLsbD (3 : BitVec 4).toNat &&
        before.line.holds (sram0 % 128) 1) = true := by decide +kernel
      have k : (List.replicate (Config.beforeAcquire 0 sram0 + 1) before)[Config.beforeAcquire 0 sram0]? = some before := by simp
      show Option.map _ (if _ then _ else none) = _
      rw [if_pos (by decide +kernel), show (remembering.hart.early) = List.replicate (Config.beforeAcquire 0 sram0 + 1) before from rfl,
        List.filter_replicate, if_pos h]
      show Option.map _ (List.replicate _ before)[Config.beforeAcquire 0 (lineOf sram0)]? = _
      rw [show lineOf sram0 = sram0 by decide, k]; rfl⟩

theorem witness_ScalarStoresPutTheirBytes :
    ∃ i va d n c h s t, PlainStores s i va d n c h ∧ Stores va (bytesOf n (s.hart.rx d).toNat) c h s t :=
  ⟨_, _, 5, 8, 0, ⟨0, false, 0⟩, regs tcm0 7 0, _, .sd 5 4 0 0, by decide +kernel, .tcm 0 0, _, ⟨none, _, rfl, rfl⟩,
    by unfold Unwatched; decide +kernel, rfl⟩

theorem witness_ScalarStoresChangeNothingElse :
    ∃ i va d n c h p s s1, PlainStores s i va d n c h ∧ va.toNat % n = 0 ∧ Reaches .store va n p s s1 ∧
      Unwatched .store va n s1 ∧ h.last = false ∧ Ordinary s1 p n ∧ Valid s1 (.tcm 0 8) ∧ Apart p n (.tcm 0 8) :=
  ⟨_, _, 5, 8, 0, ⟨0, false, 0⟩, .tcm 0 0, regs tcm0 7 0, _, .sd 5 4 0 0, by decide +kernel, ⟨none, _, rfl, rfl⟩,
    by unfold Unwatched; decide +kernel, rfl, ⟨by decide +kernel, rfl, by decide +kernel, by decide +kernel⟩, trivial,
    .inr (.inr (by decide))⟩

theorem witness_AccessesAreCheckedAndTranslated :
    (∃ i va s, Accesses s i .load va 8 ∧ va.toNat % 8 ≠ 0) ∧
    (∃ i va s c s1, Accesses s i .store va 4 ∧ va.toNat % 4 = 0 ∧
      resolve (s.agentOf s.hart) s.hart.tlb .store va 4 s = (.error c, s1)) ∧
    (∃ i va s, Accesses s i .atomic va 8 ∧ 0x80000000000000 ≤ va.toNat) ∧
    (∃ i va s, Accesses s i .load va 8 ∧ s.hart.xlat.en = false ∧ 0x1000000000000 ≤ va.toNat ∧
      va.toNat < 0x7FFFFF00000000) :=
  ⟨⟨_, _, regs 4 0 0, .ld 5 4 0 0, by decide +kernel⟩,
    ⟨_, _, regs 0x1000000000000 0 0, _, _, .sw 5 4 0 0, by decide +kernel, rfl⟩,
    ⟨_, _, regs 0x80000000000000 0 0, .atomic (.amoadd, _) (.tail _ (.head _)) 5 4 6 0 1, by decide +kernel⟩,
    ⟨_, _, regs 0x1000000000000 0 0, .ld 5 4 0 0, rfl, by decide +kernel, by decide +kernel⟩⟩

theorem witness_AcquireLoadsAndReleaseStores :
    (∃ s p s1 data s2, (indexedAddress 4 5 s).toNat % 8 = 0 ∧ Reaches .load (indexedAddress 4 5 s) 8 p s s1 ∧
      Unwatched .load (indexedAddress 4 5 s) 8 s1 ∧ p = .tcm 0 0 ∧
      s1.loadAt (s1.agentOf s1.hart) p 8 ⟨0, false, 5⟩ = ((data, false), s2)) ∧
    (∃ s s1, Reaches .load (indexedAddress 4 5 s) 8 (.device sram0 sram0 true) s s1 ∧ s1.readerLine sram0 = none ∧
      (∀ k ∈ s1.dies, k.dropped = []) ∧ s1.errors = [] ∧ s1.localErrors = [] ∧ s1.poisoned sram0 8 = false ∧
      s1.lineAt s1.hart.cluster sram0 = none ∧ s1.loose = []) ∧
    (∃ s home s1 data s2, Reaches .load (indexedAddress 4 5 s) 8 (.host home) s s1 ∧
      s1.loadAt (s1.agentOf s1.hart) (.host home) 8 ⟨0, false, 5⟩ = ((data, false), s2)) ∧
    (∃ s s1, Reaches .store (indexedAddress 4 5 s) 8 (.device sram0 sram0 true) s s1 ∧
      Unwatched .store (indexedAddress 4 5 s) 8 s1) ∧
    (∀ s ∈ [tiny id, cached], s.wf = true ∧ isOk (s.placeOf sram0 true) (.device sram0 sram0 true) = true ∧ s.errors = [] ∧
      s.localErrors = [] ∧ isCompressedHome sram0 = false) ∧
    ((tiny id).lineAt 0 sram0 = none ∧ (cached.lineAt 0 sram0).isSome = true) :=
  ⟨⟨regs tcm0 0 0, .tcm 0 0, _, [0, 0, 0, 0, 0, 0, 0, 0], _, by decide +kernel, ⟨none, _, rfl, rfl⟩,
      by unfold Unwatched; decide +kernel, rfl, rfl⟩,
    ⟨regs sram0 0 0, _, ⟨none, _, rfl, rfl⟩, by decide +kernel, by decide +kernel, rfl, rfl, by decide +kernel, by decide +kernel, rfl⟩,
    ⟨regs host0 0 0, host0, _, [0, 0, 0, 0, 0, 0, 0, 0], _, ⟨none, _, rfl, rfl⟩, rfl⟩,
    ⟨regs sram0 0 0, _, ⟨none, _, rfl, rfl⟩, by unfold Unwatched; decide +kernel⟩, by decide +kernel, by decide +kernel⟩

theorem witness_AtomicsReadAndReplaceAtOnePlace :
    (∃ s s1, (s.hart.rx 4).toNat % 8 = 0 ∧ Reaches .atomic (s.hart.rx 4) 8 (.host host0) s s1) ∧
    (∃ s s1 o s2, Reaches .atomic (s.hart.rx 4) 8 (.device sram0 sram0 true) s s1 ∧ Unwatched .atomic (s.hart.rx 4) 8 s1 ∧
      s1.atomicAt (s1.agentOf s1.hart) (.device sram0 sram0 true) 8 0 id = (.ok o, s2)) ∧
    (tiny id).placeOf sram0 true = .ok (.device sram0 sram0 true) ∧
    ((tiny id).wf = true ∧ isCompressedHome sram0 = false ∧ (tiny id).hart.cluster < (tiny id).clusters.length ∧
      (tiny id).readerLine sram0 = none ∧ (∀ d ∈ (tiny id).dies, d.dropped = []) ∧ (tiny id).errors = [] ∧ (tiny id).localErrors = [] ∧
      (tiny id).poison = [] ∧ (tiny id).loose = [] ∧ (tiny id).lineAt (tiny id).hart.cluster sram0 = none) ∧
    (∀ p ∈ [Place.tcm 0 0, .scratch 0 0], Ordinary (tiny id) p 8) ∧ marked ((tiny id).core 0).tcmPoison 0 8 = false ∧
    (let s := { tiny id with cores := [{ Core.reset with tcmPoison := [0] }], gangs := [{ Gang.reset with scratchPoison := [0] }] }
     (∀ p ∈ [Place.tcm 0 0, .scratch 0 0], Ordinary s p 8) ∧ marked (s.core 0).tcmPoison 0 8 = true ∧
      marked (s.gang 0).scratchPoison 0 8 = true) :=
  by
  refine ⟨⟨regs host0 0 0, _, by decide +kernel, direct (by decide +kernel)⟩,
    ⟨regs sram0 0 0, _, 0, _, direct (by decide +kernel), by unfold Unwatched; decide +kernel, parts (given (by decide +kernel))⟩,
    given (by decide +kernel), by decide +kernel, fun p hp => ?_, by decide +kernel, fun p hp => ?_, by decide +kernel⟩
  <;> (obtain rfl | rfl : p = .tcm 0 0 ∨ p = .scratch 0 0 := by simpa using hp) <;> (unfold Ordinary; decide +kernel)

theorem witness_FencesOrderMemory :
    ((tiny id).hart.wait = none ∧ (tiny fun h => { h with wait := some (.tick 1) }).hbeat ≠ 1 ∧
      (tiny fun h => { h with wait := some (.tick 0) }).hbeat = 0) ∧
    cached.wf = true ∧ Tidy cached 0 ∧ (∃ l ∈ (cached.cluster 0).lines, l.classes &&& 4 ≠ 0 ∧ (l.byte 0).dirty = true) ∧
    (∃ l ∈ (cached.cluster 0).lines, l.classes &&& 1 = 0) :=
  ⟨⟨rfl, by decide +kernel, rfl⟩, by decide +kernel,
    ⟨by decide +kernel, rfl, rfl, fun l hl => by
      simp only [cached, State.cluster, List.getD_cons_zero, List.mem_singleton] at hl
      subst hl; exact ⟨by decide, sram0, by decide +kernel, by decide⟩, by simp [cached, State.cluster]⟩,
    by decide +kernel, by decide +kernel⟩

theorem witness_MonitorAndCacheControl :
    (∃ s s1, Reaches .load (s.hart.rx 4) 1 (.device sram0 sram0 true) s s1) ∧
    (∃ s s1, Reaches .load (s.hart.rx 4) 1 (.tcm 0 0) s s1) ∧
    (∃ s s1, Reaches .store (s.hart.rx 4) 1 (.device sram0 sram0 true) s s1) ∧
    (∃ s c s1, resolve (s.agentOf s.hart) s.hart.tlb .load (s.hart.rx 4) 1 s = (.error c, s1)) ∧
    (∀ t ∈ [true, false], ∃ s : State, s.hart.wake = some ⟨.device 0, t⟩ ∧ s.wakePending s.hart = false) ∧
    (∃ s : State, s.hart.wake = some ⟨.device 0, false⟩ ∧ s.wakePending s.hart = true) :=
  ⟨⟨regs sram0 0 0, _, ⟨none, _, rfl, rfl⟩⟩, ⟨regs tcm0 0 0, _, ⟨none, _, rfl, rfl⟩⟩,
    ⟨regs sram0 0 0, _, ⟨none, _, rfl, rfl⟩⟩, ⟨regs 0x1000000000000 0 0, _, _, rfl⟩,
    fun t _ => ⟨tiny fun h => { h with wake := some ⟨.device 0, t⟩ }, rfl, by cases t <;> decide +kernel⟩,
    ⟨tiny fun h => { h with wake := some ⟨.device 0, false⟩, swe := true, swp := true }, rfl, by decide +kernel⟩⟩

theorem witness_CsrsReadAndWrite :
    (∃ old, csrRead (tiny id).hart (tiny id) 0x001 = some old ∧ ¬ AboveLevel 0x001 (tiny id).hart.priv) ∧
    (∃ old, csrRead (tiny id).hart (tiny id) 0x022 = some old ∧ ¬ AboveLevel 0x022 (tiny id).hart.priv) ∧
    (∃ old, csrRead (tiny id).hart (tiny id) 0x800 = some old ∧ AboveLevel 0x800 (tiny id).hart.priv) ∧
    csrRead (tiny id).hart (tiny id) 0x7FF = none :=
  ⟨⟨_, rfl, by unfold AboveLevel; decide +kernel⟩, ⟨_, rfl, by unfold AboveLevel; decide +kernel⟩,
    ⟨_, rfl, by unfold AboveLevel; decide +kernel⟩, rfl⟩

/-! ## Records, gangs, the debugger's instructions -/

/-- Queue 0, its descriptor and its region in SRAM, with the given slots. -/
def queueing (slots : Byte) : State :=
  { tiny id with
    control := { State.reset.control with qtbase := BitVec.ofNat 64 (sram0 + 4096) }
    mem := [(sram0 + 4096, 1), (sram0 + 4096 + 1, 0x20), (sram0 + 4096 + 5, 1), (sram0 + 4096 + 8, slots)].filter
      fun c => c.2 != 0 }

theorem witness_RecordsAreQueuedAndJoined :
    (∃ s t, ReadsRecord (s.hart.rx 4) (.device sram0 sram0 true) (List.replicate 64 0) s t) ∧
    (∃ s t, ReadsRecord (s.hart.rx 4) (.host host0) (List.replicate 64 0) s t) ∧
    ((tiny id).wf = true ∧ sram0 % 64 = 0 ∧ (tiny id).readerLine sram0 = none ∧
      (∀ d ∈ (tiny id).dies, d.dropped = []) ∧ (tiny id).errors = [] ∧ isCompressedHome sram0 = false ∧
      isHostHome sram0 = false) ∧
    (∀ slots ∈ [0, 4], let s := queueing slots
     s.wf = true ∧ sram0 % 64 = 0 ∧ s.homeOf (s.queuePa 0) = some (sram0 + 4096) ∧ s.queuePa 0 % 32 = 0 ∧
      (let e := queueOf (s.dieBytes (sram0 + 4096) 32)
       s.homeOf (e.base.toNat * 4096 + 8 * (e.tail.toNat % max 1 e.slots.toNat)) = some (sram0 + 8192) ∧
        (e.tail - e.head = BitVec.ofNat 64 e.slots.toNat ↔ slots = 0)) ∧
      (∀ d ∈ s.dies, d.dropped = []) ∧ s.errors = [] ∧
      ∀ b ∈ [sram0, sram0 + 4096, sram0 + 8192], s.readerLine b = none ∧ isCompressedHome b = false ∧ isHostHome b = false) ∧
    (∃ s s1, Reaches .atomic (s.hart.rx 4) 64 (.device sram0 sram0 true) s s1 ∧ s1.wf = true ∧
      s1.lineAt s1.hart.cluster sram0 = none ∧ s1.errors = [] ∧ s1.localErrors = [] ∧ s1.poisoned sram0 64 = false) ∧
    (∃ s s1, Reaches .atomic (s.hart.rx 4) 64 (.host host0) s s1) := by
  refine ⟨⟨regs sram0 0 0, _, _, direct ?_, ?_, parts ?_⟩, ⟨regs host0 0 0, _, _, direct ?_, ?_, parts ?_⟩,
    by decide +kernel, by decide +kernel,
    ⟨regs sram0 0 0, _, direct ?_, ?_, ?_, ?_, ?_, ?_⟩, ⟨regs host0 0 0, _, direct ?_⟩⟩
  all_goals first | decide +kernel | (unfold Unwatched; decide +kernel)

/-- A gang of one stage and two harts: the hart is number 0, the other has exited, has arrived or is elsewhere. -/
def pair (exited : List Nat) (arrived mine : Option Nat) : State :=
  { tiny (fun h => { h with arrGang := mine, arrStage := mine }) with
    gangs := [{ Gang.reset with w := 2, exited := exited }]
    parked := [{ Hart.reset with name := ⟨0, 1⟩, core := 1, arrGang := arrived, arrStage := arrived }] }

theorem witness_HartsEndAndYield :
    (tiny fun h => { h with gated := true }).hart.gated = true ∧
    (∀ x ∈ [[], [1]], ∃ g, (pair x none none).hart.gated = false ∧
      (pair x none none).hart.flags &&& (pair x none none).hart.flagEn = 0 ∧ InGang (pair x none none) g ∧
      g.exited = x) :=
  ⟨rfl, fun x hx => by
    rcases List.mem_cons.mp hx with rfl | hx
    · exact ⟨_, rfl, rfl, ⟨rfl, by decide +kernel⟩, rfl⟩
    · rw [List.mem_singleton.mp hx]; exact ⟨_, rfl, rfl, ⟨rfl, by decide +kernel⟩, rfl⟩⟩

theorem witness_HartsEndAndYield_yield :
    (let s := { tiny id with gangs := [{ Gang.reset with pre := some ⟨0, 0, none⟩ }] }
     s.myGang.pre ≠ none ∧ s.hart.mode = none ∧ Unfrozen s) ∧ (tiny id).myGang.pre = none := by unfold Unfrozen; decide +kernel

theorem witness_BarriersCompleteWhenAllHaveArrived :
    (∃ g, InGang (pair [] (some 0) none) g ∧ OthersArrived (pair [] (some 0) none) g 0 (g.w * g.stages) 0
      (fun h => h.arrGang = some g.barGen) ∧
      OthersArrived (pair [] (some 0) none) g 0 g.w 0 (fun h => h.arrStage = some 0)) ∧
    (∃ g, InGang (pair [] none none) g ∧ ¬ OthersArrived (pair [] none none) g 0 (g.w * g.stages) 0
      (fun h => h.arrGang = some g.barGen)) ∧
    (∃ g, InGang (pair [] none (some 0)) g ∧ (pair [] none (some 0)).hart.arrGang = some 0 ∧ g.barGen ≤ 0) ∧
    (∃ s g, InGang s g ∧ s.hart.arrGang = some 0 ∧ 0 < g.barGen) := by
  refine ⟨⟨_, ⟨rfl, by decide +kernel⟩, fun i _ hi => ?_, fun i _ hi => ?_⟩,
    ⟨_, ⟨rfl, by decide +kernel⟩, fun h => absurd (h 1 (by decide) (by decide) (by decide)) (by decide +kernel)⟩,
    ⟨_, ⟨rfl, by decide +kernel⟩, by decide +kernel⟩,
    ⟨{ pair [] none (some 0) with gangs := [{ Gang.reset with w := 2, barGen := 1 }] }, _, ⟨rfl, by decide +kernel⟩,
      by decide +kernel⟩⟩
  all_goals
    have hi : i < 2 := hi
    intro ne
    obtain rfl : i = 1 := by omega
    exact .inr ⟨_, .head _, rfl, rfl⟩

theorem witness_DebugInstructions :
    (∃ s : State, s.hart.dbg.ebk = true) ∧ (tiny id).hart.dbg.ebk = false ∧
    ((tiny id).core (tiny id).hart.core).ring = [] ∧
    (∃ (s : State) (e : RingEntry), (s.core s.hart.core).ring = [] ++ e :: [] ∧
      (e.words[0]).toNat % 65536 = (s.hart.rx 4).toNat % 65536 ∧ e.gang = s.hart.name.gang) ∧
    (tiny id).hart.dbg.tren = false ∧
    (let s := tiny fun h => { h with dbg := { h.dbg with tren := true } }
     s.hart.dbg.tren = true ∧ s.hart.dbg.dropped = none ∧ s.hart.dbg.heldRecords = [] ∧
      s.hart.cluster < s.clusters.length ∧ (s.cluster s.hart.cluster).trace.length < 128) :=
  ⟨⟨tiny fun h => { h with dbg := { h.dbg with ebk := true } }, rfl⟩, rfl, rfl,
    ⟨{ regs 5 0 0 with cores := [{ Core.reset with ring := [⟨0, #v[5, 0, 0, 0, 0]⟩] }] }, _, rfl, by decide +kernel, rfl⟩,
    rfl, by decide +kernel⟩

/-! ## Vector instructions -/

theorem witness_SetVectorLength :
    (tiny fun h => { h with mode := some ⟨.ws, 0, 0, false⟩ }).hart.mode ≠ none ∧
    (let s := { tiny id with gangs := [{ Gang.reset with pre := some ⟨0, 0, none⟩ }] }
     s.hart.mode = none ∧ s.myGang.pre ≠ none ∧ Unfrozen s) ∧
    (tiny id).hart.mode = none ∧ (tiny id).myGang.pre = none := by unfold Unfrozen; decide +kernel

/-- A hart with a type and a format register 1. -/
def typed (e : Ew) (lg : BitVec 2) (fm : BitVec 24) : State :=
  tiny fun h => { h with vtype := some ⟨e, lg⟩, fm := h.fm.set 1 fm }

theorem witness_VectorIntegerElements : ∀ e ∈ [Ew.e8, .e16, .e32, .e64], ∀ lg : BitVec 2,
    (VectorReady (typed e lg 0) ⟨e, lg⟩ ∧ e ≠ .e4) ∧ Claims.Group ⟨e, lg⟩ 8 ∧ Claims.Group ⟨e, lg⟩ 16 ∧ Claims.Group ⟨e, lg⟩ 24 ∧
      0 < (7 : BitVec 5).toNat ∧ (7 : BitVec 5).toNat < 8 := by
  unfold VectorReady Claims.Group; decide +kernel

theorem witness_VectorMultiplyResults :
    (VectorReady (typed .e32 0 0x000CCC) ⟨.e32, 0⟩ ∧ Ew.e32 ≠ .e4) ∧ Ew.e32.bits ≤ 32 ∧
    Claims.Group ⟨.e32, 0⟩ 3 ∧ 3 % (TypeState.mk .e32 0).g = 0 ∧ 2 % (2 * (TypeState.mk .e32 0).g) = 0 ∧
    Claims.Disjoint 3 1 4 2 ∧ Claims.Disjoint 2 2 4 1 ∧
    ((typed .e32 0 0x000CCC).hart.desc 1).common false false = true ∧
    FormatsHere (typed .e32 0 0x000CCC) ((typed .e32 0 0x000CCC).hart.desc 1) := by
  unfold VectorReady Claims.Group Claims.Disjoint FormatsHere; decide +kernel

theorem witness_VectorInstructionsNeedTheirState :
    (tiny fun h => { h with vtype := none }).hart.vtype = none ∧
    (tiny fun h => { h with mode := some ⟨.rs, 0, 0, false⟩ }).hart.mode ≠ none ∧
    (typed .e4 0 0).hart.vtype = some ⟨.e4, 0⟩ ∧ ¬ Claims.Group ⟨.e32, 1⟩ 3 := by
  unfold Claims.Group; decide +kernel

/-! ## Floating point, reductions, permutes -/

/-- A number that every layout rounds without a draw. -/
theorem witness_FormatsAndRounding : ∀ f ∈ [Fmt.e4m3, .e5m2, .fp16, .bf16, .fp32, .fp64],
    (∃ l, f.layout = some l) ∧ (⟨0, false, none⟩ : Rnd).draw = none ∧ (3 : Nat) ≠ 0 ∧ 2 ^ 64 - 1 < 2 ^ 64 := by
  intro f hf
  have h : f.layout.isSome = true := by revert f; decide
  exact ⟨⟨_, Option.some_get h |>.symm⟩, rfl, by decide, by decide⟩

/-- A hart whose format register 0 holds a descriptor. -/
def scalarFm (fm : BitVec 24) : State := tiny fun h => { h with fm := h.fm.set 0 fm }

theorem witness_ScalarFloatResults :
    (∀ n ∈ [0x000BBB, 0x008ABB, 0x0007BC], let q := (scalarFm (BitVec.ofNat 24 n)).hart.desc 0
      q.block = 0 ∧ q.common true false = true ∧ (7 ≤ q.a.toNat ∧ q.a.toNat ≤ 12 ∧ (fmtOf q.a).isSome) ∧
      (7 ≤ q.b.toNat ∧ q.b.toNat ≤ 12 ∧ (fmtOf q.b).isSome) ∧ 7 ≤ q.d.toNat ∧ q.d.toNat ≤ 12 ∧ (fmtOf q.d).isSome) ∧
    (let q := (scalarFm 0x00040B).hart.desc 0
     q.block = 0 ∧ q.common true false = true ∧ FloatField q.a .fp32 ∧ IntField q.d .int64) ∧
    (let q := (scalarFm 0x000B04).hart.desc 0
     q.block = 0 ∧ q.common true false = true ∧ IntField q.a .int64 ∧ FloatField q.d .fp32) := by
  unfold FloatField IntField; decide +kernel

theorem witness_VectorFloatResults :
    (VectorReady (typed .e32 0 0x000BBB) ⟨.e32, 0⟩ ∧ Claims.Group ⟨.e32, 0⟩ 3) ∧
    (((typed .e32 0 0x000BBB).hart.desc 1).common true false = true ∧
      OneFloat ((typed .e32 0 0x000BBB).hart.desc 1) .fp32 Ew.e32.bits) ∧
    (((typed .e16 3 0x008AAA).hart.desc 1).common true false = true ∧
      OneFloat ((typed .e16 3 0x008AAA).hart.desc 1) .bf16 Ew.e16.bits ∧ Claims.Group ⟨.e16, 3⟩ 24) ∧
    (let q := (typed .e8 0 0x000666).hart.desc 1
     q.common true false = true ∧ q.a = 6 ∧ q.b = 6 ∧ q.d = 6 ∧ Ew.e8.bits = 8 ∧
      (typed .e8 0 0x000666).hart.cluster < 36) ∧
    FormatsHere (typed .e32 0 0x000BBB) ((typed .e32 0 0x000BBB).hart.desc 1) := by
  unfold VectorReady Claims.Group OneFloat FormatsHere; decide +kernel

theorem witness_VectorFusedAndConverted :
    (VectorReady (typed .e32 0 0x000BBB) ⟨.e32, 0⟩ ∧ ((typed .e32 0 0x000BBB).hart.desc 1).common true false = true ∧
      FormatsHere (typed .e32 0 0x000BBB) ((typed .e32 0 0x000BBB).hart.desc 1) ∧
      OneFloat ((typed .e32 0 0x000BBB).hart.desc 1) .fp32 Ew.e32.bits) ∧
    (∀ p ∈ [(Ew.e16, 0x000B99#24), (.e16, 0x000BAA), (.e32, 0x000CBB)], let q := (typed p.1 0 p.2).hart.desc 1
      VectorReady (typed p.1 0 p.2) ⟨p.1, 0⟩ ∧ q.common true false = true ∧ FormatsHere (typed p.1 0 p.2) q ∧
      ((q.a = 9 ∧ q.d = 11) ∨ (q.a = 10 ∧ q.d = 11) ∨ (q.a = 11 ∧ q.d = 12)) ∧ q.b = q.a ∧
      ((fmtOf q.a).map Fmt.width = some p.1.bits)) ∧
    (∀ p ∈ [(Ew.e8, 0x000707#24, Fmt.e4m3, Fmt.e4m3), (.e16, 0x00090B, .fp32, .fp16), (.e8, 0x000007, .e4m3, .int8),
        (.e8, 0x000B00, .int8, .fp32), (.e4, 0x000E00, .int8, .uint4)],
      let q := (typed p.1 0 p.2.1).hart.desc 1
      VectorReady (typed p.1 0 p.2.1) ⟨p.1, 0⟩ ∧ q.common true false = true ∧ FormatsHere (typed p.1 0 p.2.1) q ∧
      fmtOf q.a = some p.2.2.1 ∧ fmtOf q.d = some p.2.2.2 ∧ min p.2.2.1.width p.2.2.2.width = p.1.bits ∧
      p.2.2.2.width / p.1.bits ≤ 16 ∧ p.2.2.1.width / p.1.bits ≤ 16 ∧ 8 % (p.2.2.2.width / p.1.bits) = 0 ∧
      16 % (p.2.2.1.width / p.1.bits) = 0 ∧ Claims.Disjoint 8 (p.2.2.2.width / p.1.bits) 16 (p.2.2.1.width / p.1.bits)) := by
  unfold VectorReady OneFloat FormatsHere Claims.Disjoint; decide +kernel

theorem witness_VectorReductions :
    (let s := typed .e16 1 0x000B99
     let q := s.hart.desc 1
     VectorReady s ⟨.e16, 1⟩ ∧ s.hart.vprog = 0 ∧ s.hart.vl.toNat ≤ elements s.hart ⟨.e16, 1⟩ ∧ Claims.Group ⟨.e16, 1⟩ 4 ∧
      ((6 : BitVec 5).toNat < (4 : BitVec 5).toNat ∨ 4 + (TypeState.mk .e16 1).g ≤ 6) ∧ (6 : BitVec 5) ≠ 7 ∧
      q.common true false = true ∧ q.sr = false ∧ FormatsHere s q ∧ fmtOf q.a = some .fp16 ∧ fmtOf q.d = some .fp32) ∧
    (let s := typed .e32 0 0x000BBB
     let q := s.hart.desc 1
     VectorReady s ⟨.e32, 0⟩ ∧ q.common true false = true ∧ q.sr = false ∧ FormatsHere s q ∧
      fmtOf q.a = some .fp32 ∧ q.d = q.a) := by
  unfold VectorReady Claims.Group FormatsHere; decide +kernel

theorem witness_VectorPermutesAndMasks :
    (let s := typed .e8 0 0
     VectorReady s ⟨.e8, 0⟩ ∧ s.hart.vl.toNat ≤ elements s.hart ⟨.e8, 0⟩ ∧ Claims.Group ⟨.e8, 0⟩ 3 ∧ Claims.Group ⟨.e8, 0⟩ 4 ∧
      Claims.Disjoint 3 1 4 1 ∧ Claims.Disjoint 3 1 5 1 ∧ Claims.Disjoint 4 1 5 1 ∧ (TypeState.mk .e8 0).g * 16 / 8 ≤ 16 ∧ 6 % 2 = 0 ∧
      Claims.Disjoint 3 1 6 2 ∧ Claims.Disjoint 4 1 6 2) ∧
    ((7 : BitVec 5).toNat < 8 ∧ 0 < (7 : BitVec 5).toNat ∧ (0 : BitVec 5).toNat < 8) := by
  unfold VectorReady Claims.Group Claims.Disjoint; decide +kernel

theorem witness_VectorTransfersAndDeferral :
    (let s := typed .e32 0 0
     VectorReady s ⟨.e32, 0⟩ ∧ s.hart.vl.toNat ≤ elements s.hart ⟨.e32, 0⟩ ∧ 2 % 2 = 0 ∧ (4 : BitVec 5).toNat % (TypeState.mk .e32 0).g = 0 ∧
      (7 : BitVec 5).toNat % (TypeState.mk .e32 0).g = 0 ∧ (7 - 4) / (TypeState.mk .e32 0).g + 1 ≤ 4 ∧
      (TypeState.mk .e32 0).g * max 32 16 / 32 ≤ 16 ∧ Claims.Disjoint 1 1 4 4) ∧
    (VectorReady (typed .e8 3 0) ⟨.e8, 3⟩ ∧ (typed .e8 3 0).hart.vl.toNat ≤ elements (typed .e8 3 0).hart ⟨.e8, 3⟩ ∧
      (TypeState.mk .e8 3).g * max 8 16 / 8 ≤ 16 ∧ Claims.Disjoint 0 16 16 16) := by
  unfold VectorReady Claims.Disjoint; decide +kernel

theorem witness_BlockConversions :
    (let s := typed .e8 0 0x070B0D#24
     let q := s.hart.desc 1
     VectorReady s ⟨.e8, 0⟩ ∧ q.common true false = true ∧ FormatsHere s q ∧ q.a = 13 ∧ 9 ≤ q.d.toNat ∧ q.d.toNat ≤ 12 ∧
      fmtOf q.block = some .e4m3 ∧ fmtOf q.d = some .fp32 ∧ 8 % (32 / 8) = 0 ∧ Claims.Disjoint 8 4 4 1 ∧ Claims.Disjoint 5 1 4 1 ∧
      Claims.Disjoint 5 1 8 4) ∧
    (let s := typed .e8 0 0x070D0B#24
     let q := s.hart.desc 1
     VectorReady s ⟨.e8, 0⟩ ∧ s.hart.vprog = 0 ∧ s.hart.vl.toNat ≤ elements s.hart ⟨.e8, 0⟩ ∧
      q.common true false = true ∧ FormatsHere s q ∧ q.a = 11 ∧ q.d = 13 ∧ fmtOf q.block = some .e4m3 ∧
      8 % (8 / 8) = 0 ∧ 4 % (32 / 8) = 0 ∧ Claims.Disjoint 8 1 4 4 ∧ Claims.Disjoint 9 1 4 4 ∧ Claims.Disjoint 9 1 8 1) := by
  unfold VectorReady FormatsHere Claims.Disjoint; decide +kernel

/-! ## Vector memory -/

/-- A hart with 32-bit elements whose slot 2 holds the 6 by 6 image of R242, each element 10y + x, in its TCM. -/
def imaging (oob : Nat) (origin : Nat) (vl : BitVec 32) : State :=
  { tiny (fun h => { h.wx 4 (BitVec.ofNat 64 origin) with
      vtype := some ⟨.e32, 0⟩, vl := vl
      tm := h.tm.set 1 #v[BitVec.ofNat 64 tcm0, BitVec.ofNat 64 (1 + 4 * oob + 6 * 2 ^ 32), 6, 0,
        BitVec.ofNat 64 (4 + 24 * 2 ^ 32), 0, 0x0001000100030003, 0x01010202] }) with
    cores := [{ Core.reset with tcm := ((List.range 36).map fun k =>
      (4 * k, (BitVec.ofNat 8 (10 * (k / 6) + k % 6) : Byte))).drop 1 }] }

/-- The elements of register 8 after an instruction, or the cause, tval and vprog of its trap. -/
def taps (o : Host.Outcome State Fault Refusal) (n : Nat) : List Nat :=
  match o with
  | .next t => if t.hart.priv = .user then (List.range n).map fun i => (t.hart.elem 32 8 i).toNat
      else [t.hart.sup.cause.toNat, t.hart.vprog.toNat]
  | _ => []

/-- The geometry of R110: G = 24, SEW 16, g = 2. -/
theorem test_geometry : elements (tiny fun h => { h with grant := .l24 }).hart ⟨.e16, 1⟩ = 1536 := by decide +kernel

/-- The table of R242. -/
theorem test_map_zero : taps (exec (.vldTmap 8 4 2 0 0 0 0) (imaging 0 0xFFFFFFFF 9)) 9 =
    [0, 0, 0, 0, 11, 13, 0, 31, 33] := by decide +kernel

theorem test_map_clamp : taps (exec (.vldTmap 8 4 2 0 0 0 0) (imaging 1 0xFFFFFFFF 9)) 9 =
    [0, 1, 3, 10, 11, 13, 30, 31, 33] := by decide +kernel

theorem test_map_fault : taps (exec (.vldTmap 8 4 2 0 0 0 0) (imaging 2 0xFFFFFFFF 9)) 9 = [0x109, 0] := by decide +kernel

/-- The example of R72: 2^24 and four ones, summed in FP32. -/
theorem test_reduction_tree : (match exec (.vfredsum 10 8 12 1 0) ((tiny fun h =>
      { h with grant := .l8, vtype := some ⟨.e32, 0⟩, vl := 5, fm := h.fm.set 1 0x000BBB
               v := h.v.set 8 ((Vector.replicate 256 0).set 0 0x3F8000004B800000 |>.set 1 0x3F8000003F800000 |>.set 2 0x3F800000) })) with
    | .next t => ((t.hart.elem 32 10 0).toNat, t.hart.flags.toNat)
    | _ => (0, 0)) = (0x4B800002, 1) := by decide +kernel

/-- One element in a piece of four bytes at the foot of the TCM. -/
theorem witness_VectorMemoryMovesElements :
    let s := imaging 0 0 1
    let act := Computed s 32 (maskOf s 0)
    (MemoryReady s ⟨.e32, 0⟩ ∧ Claims.Group ⟨.e32, 0⟩ 8) ∧
    (MapAccepted (slotMap s 2) 32 ∧ NoMapFault (slotMap s 2) (s.hart.rx 4) act) ∧
    (∃ i spot, VectorLoads (s.onHart (Hart.wx 4 (BitVec.ofNat 64 tcm0))) ⟨.e32, 0⟩ act 8 0 0 0 0 i 32 spot ∧
      ∃ p, spot 0 = some p ∧ p.count = 1 ∧ p.va.toNat % p.unit = 0 ∧ p.va = BitVec.ofNat 64 tcm0 ∧ p.unit = 4) ∧
    SpotInTcm s .load ⟨BitVec.ofNat 64 tcm0, 4, 1, 0⟩ ∧ SpotInTcm s .store ⟨BitVec.ofNat 64 tcm0, 4, 1, 0⟩ ∧
    act 0 = true ∧ act 1 = false ∧ maskOf s 0 0 = true ∧ (s.core s.hart.core).tcmPoison = [] ∧
    Memory.wf (s.core s.hart.core).tcm = true ∧ s.hart.core < s.cores.length := by
  refine ⟨⟨?_, by unfold Claims.Group; decide⟩, ⟨?_, .inl (by decide +kernel)⟩, ⟨_, _, .dense 4, _, rfl, rfl, ?_, ?_, rfl⟩,
    ⟨by decide, fun j hj => ?_⟩, ⟨by decide, fun j hj => ?_⟩, by decide +kernel⟩
  · unfold MemoryReady; decide +kernel
  · unfold MapAccepted; decide +kernel
  · decide +kernel
  · decide +kernel
  all_goals
    have hj : j < 1 := hj
    obtain rfl : j = 0 := by omega
    exact ⟨by decide, ⟨none, _, rfl, rfl⟩⟩

/-- One element at the foot of SRAM. -/
theorem witness_VectorMemoryMovesElements_anywhere :
    let s := (imaging 0 0 1).onHart (Hart.wx 4 (BitVec.ofNat 64 sram0))
    Sound s ∧ s.hart.vl ≠ 0 ∧ (∃ g ∈ s.gangs, g.key = s.hart.name.gang) ∧ (∀ t ∈ s.myGang.streams.toList, t = none) ∧
    ∀ k ∈ [Access.load, .store], Spread s k [0] (denseSpot 32 (s.hart.rx 4)) fun _ => .device sram0 sram0 true := by
  refine ⟨by unfold Sound; decide +kernel, by decide +kernel, by decide +kernel, by decide +kernel, fun k hk =>
    ⟨rfl, by decide +kernel, rfl, by decide +kernel, by decide +kernel, by decide +kernel, by decide +kernel,
      by decide +kernel, fun j hj p hp i hi => ?_⟩⟩
  obtain rfl := List.mem_singleton.mp hj
  obtain rfl : (⟨BitVec.ofNat 64 sram0, 4, 1, 0⟩ : Spot) = p := Option.some.inj hp
  obtain rfl : i = 0 := Nat.lt_one_iff.mp hi
  refine ⟨by decide, ?_, fun pa home h => by cases h⟩
  obtain rfl | rfl : k = .load ∨ k = .store := by simpa using hk
  all_goals exact ⟨none, _, rfl, rfl⟩

/-! ## Matrix mode -/

/-- A hart in matrix mode with a tile and a descriptor in format register 1. -/
def matrix (flow : Dataflow) (m : BitVec 8) (n : BitVec 6) (k : BitVec 13) (fm : BitVec 24) : State :=
  tiny fun h => { (h.wx 4 0x0000002000000020).wx 5 64 with
    mode := some ⟨flow, 0, 0, false⟩, tile := ⟨m, n, k⟩, fm := h.fm.set 1 fm }

theorem witness_MatrixModeAndTiles :
    (∀ f ∈ [Dataflow.ws, .rs], Alone (matrix f 1 1 1 0x000BBB) ⟨f, 0, 0, false⟩) ∧
    ((tiny id).hart.vtype ≠ none ∧ (tiny id).hart.mode = none ∧ (tiny fun h => { h with matrixFlag := true }).hart.matrixFlag = true ∧
      (tiny id).hart.grant = .l32 ∧ (tiny id).hart.mchain.len = 0 ∧ (tiny id).hart.stopAt = none ∧
      (tiny fun h => { h with mchain := ⟨1, 0, 0⟩ }).hart.mchain.len ≠ 0) ∧
    (let q := (matrix .ws 0 0 0 0x003000).hart.desc 1
     q.common false true = true ∧ DenseAccepted { (matrix .ws 0 0 0 0x000300).hart.desc 1 with sr := false }) ∧
    SparseAccepted { (matrix .ws 0 0 0 0x400355).hart.desc 1 with sr := false } ∧
    (let q := (matrix .rs 0 0 0 0x000A0B).hart.desc 1
     q.common true true = true ∧ q.sparse = 0 ∧ q.a = 11 ∧ q.d ∈ [7, 8, 9, (10 : BitVec 4)] ∧ fmtOf q.a = some .fp32 ∧
      fmtOf q.d = some .bf16) ∧
    (let q := (matrix .rs 0 0 0 0x00020C3).hart.desc 1
     q.a = 3 ∧ q.b = 12) ∧
    (let s := matrix .rs 0 0 0 0x000AAA
     s.hart.vprog = 0 ∧ UnitsHere s (s.hart.desc 1) false ∧ dotDepth .bf16 ≠ 0 ∧ PanelAt (sideShape (s.hart.desc 1) false .bf16) 0 8 ∧
      PanelAt (sideShape (s.hart.desc 1) true .bf16) 0 4 ∧ Claims.Disjoint 8 4 4 4) ∧
    (∀ x ∈ [0x400355, 0x000A6B], let s := matrix .rs 0 0 0 (BitVec.ofNat 24 x)
      TileUnitsHere s (s.hart.desc 1) ∧
      let u := s.onHart fun h => { h with core := 576 }
      Alone u ⟨.rs, 0, 0, false⟩ ∧ ¬ TileUnitsHere u (u.hart.desc 1)) := by
  refine ⟨fun f _ => ?_, by decide +kernel, ⟨by decide +kernel, ?_⟩, ?_, by decide +kernel, by decide +kernel, ?_,
    by unfold TileUnitsHere Alone; decide +kernel⟩
  · cases f <;> (unfold Alone; decide +kernel)
  · exact ⟨by decide +kernel, by decide +kernel, .inl ⟨_, .tail _ (.tail _ (.tail _ (.tail _ (.head _)))), by decide +kernel⟩⟩
  · unfold SparseAccepted; decide +kernel
  · unfold UnitsHere PanelAt Claims.Disjoint; decide +kernel

theorem witness_MatrixMultipliesAndOperandLoads :
    (∀ f ∈ [Dataflow.ws, .rs], let s := matrix f 32 32 32 0x000BBB
      Alone s ⟨f, 0, 0, false⟩ ∧ (s.hart.desc 1).sr = false ∧ DenseAccepted (s.hart.desc 1) ∧
      UnitsHere s (s.hart.desc 1) false ∧ fmtOf (s.hart.desc 1).a = some .fp32 ∧
      Within s.hart.tile (alone (s.hart.desc 1) ((s.hart.desc 1).d == 12) .fp32) ∧
      s.hart.vprog = 0 ∧ s.hart.watching = false ∧ (s.hart.desc 1).common false true = true ∧
      ReadsCore s 0 s.hart.core ∧ MaskInOrder s 0 ∧ (s.core s.hart.core).tcmPoison = [] ∧ s.localErrors = []) ∧
    (PanelAt (shapeOf .fp32) 0 0 ∧ PanelAt (shapeOf .fp32) 0 30 ∧ Claims.Disjoint 16 2 0 2 ∧ Claims.Disjoint 16 2 30 2) ∧
    (let s := matrix .ws 1 1 1536 0x400355
     SparseAccepted (s.hart.desc 1) ∧ UnitsHere s (s.hart.desc 1) true ∧ fmtOf (s.hart.desc 1).a = some .int4 ∧
      Within s.hart.tile (alone (s.hart.desc 1) false .int4) ∧ PanelAt (sideShape (s.hart.desc 1) false .int4) 0 0 ∧
      Claims.Disjoint 30 2 0 4 ∧ Claims.Disjoint 30 2 16 12 ∧ Claims.Disjoint 30 2 8 8 ∧ Claims.Disjoint 0 4 16 12 ∧ Claims.Disjoint 0 4 8 8 ∧
      Claims.Disjoint 16 12 8 8 ∧ (s.hart.desc 1).sparse ≠ 0) ∧
    (∀ core, ¬ ReadsCore (matrix .ws 1 1 1 0x000BBB) 0x1500000000#64 core) := by
  refine ⟨fun f _ => ?_, ?_, ?_, ?_⟩
  · cases f <;> refine ⟨?_, by decide +kernel, ⟨by decide +kernel, by decide +kernel, .inl ⟨_, .head _, by decide +kernel⟩⟩, ?_⟩
    all_goals first
      | (unfold Alone; decide +kernel)
      | exact ⟨by unfold UnitsHere; decide +kernel, by decide +kernel, by unfold Within; decide +kernel, by decide +kernel,
          by decide +kernel, by decide +kernel, .inl ⟨by decide, rfl⟩, fun h => absurd rfl h, by decide +kernel⟩
  · unfold PanelAt Claims.Disjoint; decide
  · unfold SparseAccepted UnitsHere Within PanelAt Claims.Disjoint; decide +kernel
  · rintro core (⟨h, -⟩ | ⟨-, h, e, -⟩)
    · exact absurd h (by decide)
    · rw [show (matrix .ws 1 1 1 0x000BBB).findHart ⟨(matrix .ws 1 1 1 0x000BBB).hart.name.gang, (0x1500000000#64).toNat / 2 ^ 32 % 16⟩ =
        none by decide +kernel] at e
      cases e

/-! ## Engines, streams, collectives -/

theorem witness_EnginesQueueTheirOperations :
    (Token 12 ∧ Token 19 ∧ ¬ Token 11 ∧ ¬ Token 20) ∧ ((tiny id).hart.queue 3).ops.length < 16 ∧
    (∃ s : State, 16 ≤ (s.hart.queue 0).ops.length) ∧ (tiny id).hart.chainedCopy = none ∧
    (∃ s : State, s.hart.chainedCopy ≠ none) ∧ ToHost (tiny id) (BitVec.ofNat 64 host0) ∧
    ¬ ToHost (tiny id) (BitVec.ofNat 64 sram0) ∧
    (∃ s : State, (s.hart.queue 0).cstamp.toNat % 8 ≠ 0 ∧ (s.hart.queue 0).ops.length < 16 ∧ s.hart.chainedCopy = none) := by
  let op : EngineOp := ⟨.copy 0 0 8 true, 0, 0, 12, none, ⟨false, 0, 0⟩, .user, 0, 0, none⟩
  refine ⟨by unfold Token; decide, by decide +kernel,
    ⟨tiny fun h => { h with eq := h.eq.set 0 { EngineQueue.reset with ops := List.replicate 16 op } }, by decide +kernel⟩,
    by decide +kernel, ⟨tiny fun h => { h with eq := h.eq.set 0 { EngineQueue.reset with ops := [op] } }, by decide +kernel⟩,
    ⟨host0, none, _, Prod.ext (given (by decide +kernel)) rfl⟩, ?_,
    ⟨tiny fun h => { h with eq := h.eq.set 0 { EngineQueue.reset with cstamp := 4 } }, by decide +kernel⟩⟩
  rintro ⟨home, t, s1, h⟩
  have h := congrArg Prod.fst h
  revert h
  have : (resolve ((tiny id).agentOf (tiny id).hart) [] .store (BitVec.ofNat 64 sram0) 8 (tiny id)).1 =
    .ok (.device sram0 sram0 true, none) := given (by decide +kernel)
  rw [this]; intro h; cases h

/-- A stream from hart 0 to hart 1 of a gang of two, some bytes in it; hart 0 runs. -/
def stream (bytes : List Byte) : Stream :=
  { ph := 0, pp := 0, ch := 1, cp := 0, boff := 0, cap := 1, mx := 64, spt := 1, kp := 8, ki := 1, icl := 1, wf := 1,
    wc := 16, buf := bytes, integ := 0, frz := false }
def streaming (slots : Vector (Option Stream) 16) (idx : Nat) : State :=
  { regs tcm0 0 0 with
    hart := { (regs tcm0 0 0).hart with name := ⟨0, idx⟩ }
    gangs := [{ Gang.reset with w := 2, scr := 1, streams := slots }] }

theorem witness_StreamsOpenMoveAndClose :
    let one := (Vector.replicate 16 (none : Option Stream)).set 0 (some (stream [1, 2, 3]))
    (∃ g data t, (streaming (Vector.replicate 16 none) 0).gang? 0 = some g ∧
      Loads ((streaming (Vector.replicate 16 none) 0).hart.rx 4) 64 Hints.none data (streaming (Vector.replicate 16 none) 0) t ∧
      t.gang? t.hart.name.gang = some g ∧ g.stream 0 = none) ∧
    (∀ w ∈ streamRows { Gang.reset with w := 2, scr := 1 } (stream []) true, w.2) ∧
    (∃ g, (streaming (Vector.replicate 16 (some (stream []))) 0).gang? 0 = some g ∧ ∀ k < 16, g.stream k ≠ none) ∧
    (∀ i < 2, ∃ g, (streaming one i).gang? (streaming one i).hart.name.gang = some g ∧ g.stream 0 = some (stream [1, 2, 3]) ∧
      g.portOf i 0 = some (0, i == 0) ∧ g.portOf i 1 = none ∧ g.exited.contains 1 = false) ∧
    ((streaming one 0).hart.vtype = some ⟨.e32, 0⟩ ∧ (streaming one 0).hart.vl.toNat ≤ elements (streaming one 0).hart ⟨.e32, 0⟩ ∧
      Claims.Group ⟨.e32, 0⟩ 8 ∧ (streaming one 0).hart.wait ≠ some .broken ∧ (16 * 32 + 7) / 8 ≤ (stream []).mx ∧
      3 + (16 * 32 + 7) / 8 ≤ 256 * (stream []).cap) := by
  intro one
  refine ⟨⟨_, List.replicate 64 0, _, rfl, ⟨by decide +kernel, .tcm 0 0, _, _, direct (by decide +kernel),
      by unfold Unwatched; decide +kernel, parts (by decide +kernel), rfl⟩, rfl, rfl⟩, ?_,
    ⟨_, rfl, by decide +kernel⟩, fun i hi => ?_, by unfold Claims.Group; decide +kernel⟩
  · intro w hw
    simp only [streamRows, List.mem_cons, List.not_mem_nil, or_false] at hw
    rcases hw with rfl | rfl | rfl | rfl | rfl | rfl | rfl
    · decide
    · decide
    · decide
    · decide
    · decide
    · intro u hu _
      obtain rfl : u = stream [] := by simpa [Gang.openStreams, Gang.reset] using hu
      decide
    · decide
  · obtain rfl | rfl : i = 0 ∨ i = 1 := by omega
    all_goals exact ⟨_, rfl, rfl, rfl, rfl, rfl⟩

/-- The words of an accepted collective: an all-reduce of FP32 over one rank, exact or not. -/
theorem witness_CollectivesAreHandedOver :
    Token 12 ∧ (tiny id).collectives = [] ∧ (capmask (tiny id).hart.cluster).getLsbD 3 = true ∧
    (∃ s data t, Loads (s.hart.rx 4) 64 Hints.none data s t ∧ s.collectives.length < 16) ∧
    (∀ x, CollectiveAccepted x fun lo _ => if lo = 4 ∨ lo = 8 then 11 else 0) ∧
    (∀ x, ¬ CollectiveAccepted x fun lo _ => if lo = 4 then 15 else 0) := by
  refine ⟨by unfold Token; decide, rfl, by decide +kernel, ⟨regs tcm0 0 0, List.replicate 64 0, _, ⟨by decide +kernel, .tcm 0 0, _, _,
    direct (by decide +kernel), by unfold Unwatched; decide +kernel, parts (by decide +kernel), rfl⟩, by decide⟩,
    fun x => ?_, fun x => ?_⟩
  all_goals (unfold CollectiveAccepted; cases x <;> decide)

/-! ## Events -/

/-- A state with one parked hart beside the current one, and a gang of two. -/
def two (f : Hart → Hart) (g : Gang → Gang) : State :=
  { tiny f with gangs := [g { Gang.reset with w := 2 }], parked := [{ f Hart.reset with name := ⟨0, 1⟩, core := 0 }] }

/-- Two harts that wait at a chained MODE.M, at position 0 and the given one. -/
def rendezvous (pos : BitVec 2) : State :=
  let h := fun (p : BitVec 2) (h : Hart) => { h with
    priv := .user, wait := some .chain, word := 0xD8000000, mchain := ⟨1, p, 0⟩, matrixFlag := true }
  { tiny (h 0) with parked := [{ h pos Hart.reset with name := ⟨0, 1⟩, core := 1, hartidx := 1 }] }

/-- A hart whose pre-emption was requested at time 0, with a grace of 5. -/
def graced (time : Word) (w : Option Wait) (chn : BitVec 2) : State :=
  { tiny (fun h => { h with grace := 5, wait := w, mode := some ⟨.ws, chn, 0, false⟩ }) with
    gangs := [{ Gang.reset with pre := some ⟨0, 0, none⟩ }], time := time }

theorem witness_HartEvents :
    (∀ i ∈ hartEvents ⟨0, 1⟩ 0, (two id id).hart.name ≠ ⟨0, 1⟩ ∧ (∃ h ∈ (two id id).parked, h.name = ⟨0, 1⟩) ∧
      ∀ h ∈ (tiny id).parked, h.name ≠ ⟨0, 1⟩) ∧
    (Live (pending true true true true).hart ∧ Unfrozen (pending true true true true) ∧
      OnlyInterrupts (pending true true true true) ∧ (pending true true true true).hart.dbg.heldRecords = [] ∧
      (pending true true true true).interruptDue (pending true true true true).hart =
      some (0x03, 1) ∧ (pending false true true true).interruptDue (pending false true true true).hart = none) ∧
    (∀ w ∈ [none, some Wait.barrier], ∀ chn : BitVec 2, let s := graced 5 w chn
      Live s.hart ∧ Unfrozen s ∧ s.myGang.pre = some ⟨0, 0, none⟩ ∧ s.hart.quiet = false ∧
      s.hart.grace.toNat ≤ (((none : Option Word).getD s.time) - 0).toNat ∧ s.hart.wait = w ∧ s.hart.linkHold = none ∧
      s.hart.mode = some ⟨.ws, chn, 0, false⟩) ∧
    (let s := { graced 4 none 0 with gangs := [{ Gang.reset with pre := some ⟨0, 1, none⟩ }] }
     s.myGang.pre = some ⟨0, 1, none⟩ ∧ Live s.hart ∧ s.hart.quiet = false) ∧
    (let s := graced 4 none 0
     s.myGang.pre = some ⟨0, 0, none⟩ ∧ (((none : Option Word).getD s.time) - 0).toNat < s.hart.grace.toNat) ∧
    (let s := tiny fun h => { h with stopAt := some ⟨1, some 0⟩, fate := .retired }
     s.hart.stopAt = some ⟨1, some 0⟩ ∧ scalarLoadWord 0x44A40000 = true ∧ s.hart.fate = .retired ∧ s.hart.mode = none) ∧
    (let s := tiny fun h => { h.wx 23 7 with wait := some (.wakeLine 0 7), word := 0x5DA0B801, wake := some ⟨.device 0, true⟩ }
     Live s.hart ∧ s.hart.wait = some (.wakeLine 0 7) ∧ s.hart.rx (s.hart.word.extractLsb' 11 5) = 7 ∧
      s.wakeCode s.hart 0 7 = some 0) ∧
    (let s := (pending true true false false).onHart fun h => { h with priv := .supervisor, wait := some .interrupt }
     Live s.hart ∧ s.hart.wait = some .interrupt ∧ s.wakePending s.hart = true ∧ s.hart.priv ≠ .user) ∧
    (Named (rendezvous 1) ∧ Named (rendezvous 0)) := by
  unfold Live Named Unfrozen
  refine ⟨fun i _ => by decide +kernel, ⟨by decide +kernel, by decide +kernel, onlyInterrupts (by decide +kernel), by decide +kernel⟩,
    by decide +kernel, by decide +kernel, by decide +kernel, by decide +kernel, by decide +kernel, by decide +kernel, by decide +kernel⟩

/-- The harts that wait at a MODE.M in a state, by the head that they name. -/
def waitingUnder (s : State) (d : BitVec 4) : List Hart :=
  (s.harts.filter fun k => k.waitsAt [0x36] && k.name.gang == 0).filter fun k => k.mchain.head == d

/-- The members of `rendezvous` agree, contradict each other, or one of them is missing. -/
theorem witness_HartEvents_chains :
    (∀ p : BitVec 2, p ≤ 1 → ∀ h ∈ (rendezvous p).harts, h.waitsAt [0x36] = true ∧ h.name.gang = 0 ∧ h.mchain.head = 0 ∧
      h.mchain.len = 1 ∧ (waitingUnder (rendezvous p) 0).length = 2 ∧ h.priv = .user ∧ h.sup.stat.nest = false) ∧
    SettingsMeet (waitingUnder (rendezvous 1) 0) ∧ ¬ SettingsMeet (waitingUnder (rendezvous 0) 0) ∧
    (let s := { rendezvous 1 with parked := [] }
     (waitingUnder s 0).length = 1 ∧ ∀ d, SettingsMeet (waitingUnder s d)) := by
  unfold SettingsMeet; decide +kernel

/-- A package with an empty record of one hart at the foot of SRAM that is queued, and a context with a save region. -/
def scheduling (gangs : List Gang) (run : RunState) : State :=
  { tiny (fun h => { h with run := run }) with
    gangs := gangs
    control := { State.reset.control with ctxbase := BitVec.ofNat 64 (sram0 + 4096) }
    mem := [(sram0 + 4096 + 51, 0x10)]
    launches := [⟨1, BitVec.ofNat 64 sram0, sram0, 0, .spawn 0, 7, some 0, 0, true, 1, 0, 0, 0, [], false, []⟩] }

/-- The same with no gang, the record first in the order of the scheduler of cluster 0 since time 0. -/
def standing (time : Word) : State :=
  let s := { scheduling [] .gone with time := time }
  { s with launches := s.launches.map fun l => { l with first := [(0, 0)] } }

/-- The same with a record of priority 6 and all of the scratchpad, of which a gang of each cluster has a unit. -/
def crowded : State :=
  { scheduling ((List.range 48).map fun c => { Gang.reset with key := c, cluster := c, scr := 1, launch := some 9 }) .gone with
    mem := [(sram0 + 37, 0x60), (sram0 + 41, 0x04), (sram0 + 4096 + 51, 0x10)] }

theorem witness_GangAndLaunchEvents :
    (let s := scheduling [] .gone
     s.schedules 0 = true ∧ (∃ l, s.nextLaunch 0 = some l ∧ l.pa = sram0) ∧
      [0].length = (s.recordAt sram0).width * (s.recordAt sram0).stages ∧
      ∃ seats, (s.recordAt sram0).seatAll s [] ([0].map fun c => 16 * 0 + c) = some seats ∧ seats.length = 1) ∧
    (∃ h ∈ (tiny fun h => { h with run := .placed }).harts, h.name = ⟨0, 0⟩ ∧ h.run = .placed) ∧
    (∃ h ∈ (tiny id).harts, h.name = ⟨0, 0⟩ ∧ h.run ≠ .placed) ∧ (tiny id).freezes = [] ∧
    (tiny id).control.bootFailure = 0 ∧
    ((∃ k ∈ (two id id).gangs, k.key = 0) ∧ ∀ i < 2, i ∉ ((two id id).gang 0).exited ∧
      ∃ h ∈ (two (fun h => { h with arrGang := some 0, arrStage := some 0 }) id).harts, h.name = ⟨0, i⟩ ∧ h.arrGang = some 0 ∧
        h.arrStage = some 0) ∧
    (∀ time ∈ [65535, 65536], let s := standing time
     s.freezes = [] ∧ ∃ l, s.launches[0]? = some l ∧ StandsFirst s 0 l ∧ (l.first.find? fun p => p.1 == 0) = some (0, 0) ∧
      (65536 ≤ (s.time - 0).toNat ↔ time = 65536) ∧ l.held = []) ∧
    ((∀ l ∈ (tiny id).launches, (tiny id).urgent l = false) ∧
      let s := scheduling [{ Gang.reset with waitRoom := true }] .running
      (∃ g ∈ s.gangs, g.key = 0) ∧ (s.gang 0).waitRoom = true ∧ (s.gang 0).pre = none ∧ s.saveRoom (s.gang 0) = true) ∧
    (Named (two (fun h => { h with run := .exited }) id) ∧ ∀ h ∈ (two (fun h => { h with run := .exited }) id).harts,
      h.run = .exited ∧ ∀ q < 4, (h.queue q).ops = []) ∧
    (let s := { tiny id with launches := [⟨1, 0, sram0, 0, .spawn 0, 7, some 0, 1, false, 1, 1, 0, 0, [], true, []⟩] }
     ∃ l, (s.launches.find? fun (l : Launch) => l.key == 1) = some l ∧ l.queued = false ∧ l.ended = l.total ∧
      l.doubleTrap = true ∧ ∀ g ∈ s.gangs, g.launch ≠ some 1) ∧
    (let ring : CompletionRing := ⟨0, 0, 0, [(0, 0)]⟩
     let s := { tiny id with rings := [(0, ring)], control := { State.reset.control with ctxbase := BitVec.ofNat 64 sram0 }
                             mem := [(sram0 + 72, 1)] }
     (s.rings.find? fun p => p.1 == 0) = some (0, ring) ∧ (0 + 1) % ((s.contextEntry 0).1.cnum.toNat + 1) ≠ 0 % 2 ∧
      Memory.wf (s.contextEntry 0).2.mem = true) := by
  unfold Named StandsFirst
  refine ⟨⟨by decide +kernel, holds (fun (l : Launch) => l.pa = sram0) (by decide +kernel), by decide +kernel,
      holds (fun (l : List (Nat × Seat)) => l.length = 1) (by decide +kernel)⟩, by decide +kernel,
    by decide +kernel, by decide +kernel, by decide +kernel, ⟨by decide +kernel, by decide +kernel⟩, fun time h => ?_,
    ⟨by decide +kernel, by decide +kernel⟩, by decide +kernel, ⟨_, rfl, by decide +kernel⟩, by decide +kernel⟩
  simp only [List.mem_cons, List.not_mem_nil, or_false] at h
  rcases h with rfl | rfl <;> exact ⟨rfl, _, rfl, ⟨.head _, by decide +kernel, by decide +kernel,
    fun c hc => by cases hc; rfl, by decide +kernel, by decide +kernel⟩, by decide +kernel⟩

theorem witness_GangAndLaunchEvents_victims :
    (∃ l vs, crowded.launches = [] ++ l :: [] ∧ crowded.freezes = [] ∧ crowded.urgent l = true ∧
      (∀ k, l.queue = .spawn k → 0 = k) ∧ crowded.recordAt l.pa = crowded.recordAt sram0 ∧
      min (crowded.recordAt l.pa).prio.toNat l.ceil = 6 ∧ crowded.clearing (crowded.recordAt l.pa) 6 0 = some vs ∧
      vs.map (fun g => (g.key, g.w * g.stages)) = [(0, 1)]) ∧
    ((List.range 48).all fun c => match crowded.clearing (crowded.recordAt sram0) 6 c with
      | none => true
      | some ws => decide (1 ≤ (ws.map fun g => g.w * g.stages).sum)) = true := by
  refine ⟨⟨_, _, rfl, rfl, by decide +kernel, fun k h => by cases h; rfl, rfl, by decide +kernel, Option.some_get (by decide +kernel) |>.symm, by decide +kernel⟩,
    by decide +kernel⟩

/-- A gang of one stopped hart at the foot of a save region; the same once saved. -/
def stopping (room : Byte) (reason : BitVec 4) (waits : Bool) : State :=
  { scheduling [{ Gang.reset with pre := some ⟨0, reason, none⟩, launch := some 1, waitRoom := waits }] (.stopped .preferred) with
    mem := [(sram0 + 4096 + 51, room)].filter fun c => c.2 != 0 }

def savedHart : Hart := { Hart.reset with run := .stopped .preferred, priv := .user }

/-- A gang of one hart whose image of 192 zero bytes lies at the foot of SRAM, whole or changed. -/
def resuming (change : Bool) : State :=
  let v : Saved := ⟨Gang.reset, [savedHart], [], sram0, 192, List.replicate 192 0, 0, false, 0⟩
  { tiny (fun h => { h with run := .gone, name := ⟨7, 0⟩ }) with
    gangs := [], saved := [v], mem := if change then [(sram0, 1)] else [] }

theorem witness_SaveAndResumeEvents :
    (∀ b ∈ [0x10, 0], ∀ reason : BitVec 4, ∀ w : Bool, let s := stopping b reason w
      (∃ g ∈ s.gangs, g.key = 0) ∧ (s.gang 0).pre = some ⟨0, reason, none⟩ ∧
      (∀ h ∈ s.gangHarts (s.gang 0), h.settled = true ∧ ∀ q < 4, (h.queue q).ops = []) ∧
      (∃ h ∈ s.gangHarts (s.gang 0), h.run ≠ .exited ∧ h.run ≠ .gone) ∧ s.freezes = [] ∧ (s.gang 0).waitRoom = w ∧
      ((s.savePlace (s.gang 0)).1 = if b = 0x10 then some 0 else none) ∧ s.localErrors = [] ∧
      (∀ f ∈ s.freezes, freezeCovers f 0 = false)) ∧
    (∀ c, ∃ v, ((resuming c).saved.find? fun w => w.gang.key == 0) = some v ∧ (resuming c).schedules 0 = true ∧
      (resuming c).isNext 0 (.saved v) = true ∧ (((resuming c).imageBytes v).take 192 = v.bytes.take 192 ↔ c = false) ∧
      ((resuming c).reseat 0 v.regrants ((resuming c).recordAt v.gang.recordPa) [] v.live ([0].zip [0])).isSome = true ∧
      (((resuming c).harts ++ v.harts).map Hart.name).Nodup) := by
  refine ⟨fun b hb => ?_, fun c => ?_⟩
  · rcases List.mem_cons.mp hb with rfl | hb
    · decide +kernel
    · rw [List.mem_singleton.mp hb]; decide +kernel
  · cases c <;> exact ⟨_, rfl, by decide +kernel⟩

/-- A hart held by a freeze of its cluster, and its debugger's registers. -/
def frozen (f : DebugRegs → DebugRegs) : State :=
  { tiny (fun h => { h with frozen := true, dbg := f h.dbg }) with freezes := [.cluster 0] }

/-- A cluster whose trace buffer holds records. -/
def tracing (n : Nat) (f : DebugRegs → DebugRegs) : State :=
  { tiny (fun h => { h with dbg := f h.dbg }) with
    clusters := [{ Cluster.reset with trace := List.replicate n ⟨#v[1, 2, 3, 4]⟩ }] }

theorem witness_DebugEvents :
    (Named (frozen id) ∧ (∀ f ∈ (frozen id).freezes, freezeCovers f 0 = true) ∧ (tiny id).freezes = [] ∧
      (∀ h ∈ (frozen id).harts, h.wait = none ∧ h.arrayAt = 0 ∧ ∀ k < 4, (h.dbg.dbp.toList.getD k 0).getLsbD 0 = false) ∧
      (tiny id).hart.resident = true ∧ (frozen id).hart.resident = true) ∧
    (∀ k < 4, let s := tiny fun h => { h with pc := 0x40, dbg := { h.dbg with dbp := h.dbg.dbp.setIfInBounds k 0x41 } }
      s.hart.run = .running ∧ s.hart.frozen = false ∧ s.hart.wait = none ∧ s.hart.linkHold = none ∧ s.hart.stopAt = none ∧
      s.hart.partLoad = none ∧ s.hart.arrayAt = 0 ∧ s.hart.dbg.passBreak = false ∧
      (s.hart.dbg.dbp.toList.getD k 0).getLsbD 0 = true ∧
      (s.hart.dbg.dbp.toList.getD k 0).extractLsb' 2 62 = s.hart.pc.extractLsb' 2 62 ∧
      ∀ j < k, (s.hart.dbg.dbp.toList.getD j 0).getLsbD 0 = false) ∧
    (∀ f ∈ [Fate.retired, .trapped], let s := (frozen fun d => { d with stepping := true }).onHart fun h => { h with fate := f }
      s.hart.dbg.stepping = true ∧ s.hart.fate = f) ∧
    (∀ w ∈ [none, some Wait.barrier], let s := (frozen fun d => { d with stepping := true }).onHart fun h => { h with wait := w }
      s.hart.dbg.stepping = true ∧ s.hart.wait = w ∧ s.hart.linkHold = none) ∧
    (∀ b, let s := (frozen fun d => { d with stepping := true }).onHart fun h => { h with linkHold := some ⟨0, 0, 0, b⟩ }
      s.hart.dbg.stepping = true ∧ s.hart.linkHold = some ⟨0, 0, 0, b⟩) ∧ (tiny id).hart.dbg.stepping = false ∧
    (let s := frozen fun d => { d with step := true }
     freezeCovers (.cluster 0) s.hart.core = true ∧ s.hart.frozen = true ∧ s.hart.dbg.step = true ∧ s.hart.run = .running ∧
      s.hart.dbg.stepping = false) ∧
    (let r : TraceRecord := ⟨#v[1, 2, 3, 4]⟩
     let s := tracing 128 (fun d => { d with heldRecords := [r] })
     (s.cluster 0).trace = r :: List.replicate 127 r ∧ s.hart.dbg.heldRecords = [r] ∧ s.hart.dbg.dropped = none ∧
      s.hart.cluster = 0 ∧ 0 < s.clusters.length ∧ s.parked = []) ∧
    ((tracing 128 id).hart.dbg.heldRecords = [] ∧ (tracing 128 id).hart.dbg.dropped = none) ∧
    (let r : TraceRecord := ⟨#v[1, 2, 3, 4]⟩
     let s := tracing 128 (fun d => { d with dropped := some (1, 2) })
     (s.cluster 0).trace = r :: r :: List.replicate 126 r ∧ s.hart.dbg.dropped = some (1, 2) ∧
      s.hart.dbg.heldRecords = [] ∧ s.parked = []) ∧
    (∀ b, ∃ h, ((frozen fun d => { d with stepping := b }).slots 0)[0]? = some h ∧ h.frozen = true ∧ h.dbg.stepping = b ∧
      h.run = .running) ∧ (∃ h, ((tiny id).slots 0)[0]? = some h ∧ h.frozen = false) ∧
    ((tiny id).slots 1).length ≤ 0 ∧
    (2047 < 512 * (tiny id).hart.tcmUnits ∧ Memory.wf ((tiny id).core 0).tcm = true ∧ (tiny id).hart.core < (tiny id).cores.length) := by
  unfold Named
  refine ⟨by decide +kernel, by decide +kernel, by decide +kernel, by decide +kernel, by decide +kernel, by decide +kernel, by decide +kernel,
    by decide +kernel, by decide +kernel, by decide +kernel,
    fun b => holds (fun (h : Hart) => h.frozen = true ∧ h.dbg.stepping = b ∧ h.run = .running) (by revert b; decide +kernel), holds (fun (h : Hart) => h.frozen = false) (by decide +kernel),
    by decide +kernel, by decide +kernel⟩

/-- A cluster with a line of SRAM, a die with a reader-count line, and a channel with two requests. -/
def dying : State :=
  { tiny id with
    clusters := [{ Cluster.reset with lines := [{ Line.empty sram0 0 with
      bytes := (Vector.replicate 128 ⟨false, false, 0, none⟩).set 127 ⟨true, true, 9, none⟩ }] }]
    dies := [{ Die.reset with
      readers := [⟨0, 1, Vector.replicate 128 7⟩]
      channels := Die.reset.channels.set 31 ⟨[⟨1, 3, 4, 5⟩, ⟨2, 2, 0, 0⟩], 28, 0, 0⟩ }] }

theorem witness_DieEvents :
    ((dying.lineAt 0 sram0).isSome = true ∧ (dying.readerLine 0).isSome = true ∧ dying.wf = true ∧ dying.errors = [] ∧ dying.localErrors = []) ∧
    (((dying.cluster 0).victim (lineOf sram0)).map Line.base = some (lineOf sram0) ∧
      (Config.cacheSet (sram0 + 128) = Config.cacheSet sram0 → let c := { Cluster.reset with
          lines := [Line.empty sram0 0, { Line.empty (sram0 + 128) 0 with prio := 1 }] }
        (c.victim (lineOf sram0)).map Line.base ≠ some (lineOf sram0) ∧ (c.lines.find? fun l => l.base == lineOf sram0).isSome)) ∧
    (let q := (dying.die 0).channels.toList.getD 31 ⟨[], 0, 0, 0⟩
     q.waiting ≠ [] ∧ (q.waiting.any fun x => x.cls == 2) = true ∧ q.floor2 < 4 ∧ 32 ≤ q.slot + (4 - q.floor2)) ∧
    (∀ g ∈ [(0, 4), (4, 1)], let c : Channel := ⟨[⟨2, 1, 0, 0⟩, ⟨3, 1, 0, 0⟩], 0, g.1, g.2⟩
      (∀ x ∈ c.waiting, x.cls ≠ 2) ∧ (∀ x ∈ c.waiting, x.cls ≠ 3) ∧ 0 < c.waiting.length) ∧
    (∀ c, ∃ a, (tiny id).homeOf 0 = some a ∧ homeDie a < (tiny id).dies.length ∧ (tiny id).errors = [] ∧
      (a / 32 * 32 ∉ (tiny id).poison) ∧ ∃ s : State, s.homeOf 0 = some a ∧ s.errors = [(a / 32 * 32, c)]) ∧
    (∃ g ∈ (streaming ((Vector.replicate 16 none).set 15 (some (stream [1]))) 0).gangs, g.key = 0 ∧
      g.openStreams = [stream [1]] ∧ g.stream 15 = some (stream [1])) ∧
    (let s := { streaming ((Vector.replicate 16 none).set 15 (some (stream [1]))) 0 with
                  parked := [{ Hart.reset with name := ⟨0, 1⟩ }] }
     Named s ∧ (∀ i ∈ [0, 1], ((s.findHart ⟨0, i⟩).any fun h => h.run == .running && !h.frozen) = true)) := by
  unfold Named
  refine ⟨by decide +kernel, ⟨by simp [Cluster.victim, dying, State.cluster, Line.empty, lineOf, sram0], fun h => ?_⟩, by decide +kernel, by decide +kernel,
    fun c => ?_, ⟨_, .head _, by decide +kernel⟩, by decide +kernel⟩
  · simp [Cluster.victim, Line.empty, lineOf, sram0, h] at *
  · obtain ⟨a, h, k⟩ := holds (fun a => homeDie a < (tiny id).dies.length ∧ (tiny id).errors = [] ∧ a / 32 * 32 ∉ (tiny id).poison)
      (by decide +kernel : ((tiny id).homeOf 0).any _ = true)
    exact ⟨a, h, k.1, k.2.1, k.2.2, { tiny id with errors := [(a / 32 * 32, c)] }, h, rfl⟩

/-- A hart with one operation at the head of queue 3, so far done. -/
def engineOp (work : EngineWork) (run : Option EngineRun) : EngineOp :=
  ⟨work, 0, 1, 12, none, ⟨false, 0, 0⟩, .user, 0, 0, run⟩

def engaged (work : EngineWork) (run : Option EngineRun) : State :=
  tiny fun h => { h with eq := h.eq.set 3 { EngineQueue.reset with ops := [engineOp work run] } }

/-- What is left of a fill of one chunk of host memory: all, a word, nothing. -/
def runs : List EngineRun :=
  [⟨[(host0, 8)], [], (0, 0), [], false⟩, ⟨[], [⟨host0, List.replicate 8 5, []⟩], (host0, 8), [], false⟩, ⟨[], [], (host0, 8), [], true⟩]

/-- A record of 64 bytes of kind 0, of an own and of a foreign engine, malformed, a fence. -/
def transfers : List (List Byte) :=
  let d := List.replicate 64 (0 : Byte)
  [d, d.set 20 8, d.set 20 11, d.set 20 10]

theorem witness_EngineAndCollectiveEvents :
    (∀ w ∈ [EngineWork.copy 0 0 8 false, .fill (BitVec.ofNat 64 host0) 5 8, .fence 0xF, .chain 0 false 0 none,
        .chain 64 false 0 none, .chain 0 true 2 (some (2, []))], ∀ r ∈ none :: runs.map some, ∃ o,
      AtHead (engaged w r) (engaged w r).hart 3 o [] ∧ o.work = w ∧ o.run = r) ∧
    (∃ t s1, resolve ((engaged (.fence 0) none).engineAgent (engaged (.fence 0) none).hart (engineOp (.fence 0) none))
      [] .store (BitVec.ofNat 64 host0) 8 (engaged (.fence 0) none) = (.ok (.host host0, t), s1)) ∧
    transfers.map (fun d => ((transferOf d).own, (transferOf d).malformed, (transferOf d).kind)) =
      [(false, false, 0), (true, false, 0), (true, true, 3), (true, false, 2)] ∧
    (∃ d, ((engaged (.chain 64 false 0 none) none).readTransfer ((engaged (.chain 64 false 0 none) none).engineAgent
      (engaged (.chain 64 false 0 none) none).hart (engineOp (.chain 64 false 0 none) none)) (BitVec.ofNat 64 sram0)).1 = some d) ∧
    (∀ p ∈ [0, 1], let c : Collective := ⟨1, 0, ⟨0, 0⟩, 12, false, (Vector.replicate 8 0).set 4 (BitVec.ofNat 64 p), ⟨false, 0, 0⟩, .user⟩
      let s := { tiny id with collectives := [c] }
      s.collectives[0]? = some c ∧ s.collectives.Nodup ∧ FreezeScope.package ∉ s.freezes ∧ s.checkpoint = none ∧
        s.hart.name = c.owner ∧ Named s ∧ ((collDescOf c.desc).parts ≠ 1 ↔ p = 1)) ∧
    (let d := collDescOf (((Vector.replicate 8 0).set 0 0xBB0).set 1 2)
     d.src.toNat % max 1 (d.bits / 8) ≠ 0 ∧ d.parts = 1) := by
  unfold AtHead Named
  refine ⟨fun w _ r _ => ⟨_, ⟨List.pairwise_singleton _ _, .head _, by decide, rfl, .inl fun f hf => ?_⟩, rfl, rfl⟩,
    ⟨_, _, Prod.ext (given (a := (_, none)) ?_) rfl⟩, by decide +kernel, Option.isSome_iff_exists.mp (by decide +kernel),
    by decide +kernel, by decide +kernel⟩
  · cases hf
  · decide +kernel

/-- A package whose host port has its tables at the foot of SRAM, and a queue of the function 0. -/
def hosting (en : Byte) : State :=
  { tiny id with
    control := { State.reset.control with qtbase := BitVec.ofNat 64 sram0, ctxbase := BitVec.ofNat 64 (sram0 + 4096) }
    mem := [(sram0, en), (sram0 + 8, 4)].filter fun c => c.2 != 0 }

/-- The first bytes of BAR2 lie in it whatever its size; an offset of 2^40 lies in none. -/
theorem inBar2_small {fn off n : Nat} (h : off + n ≤ 2 ^ 30) : inBar2 fn off n = true :=
  decide_eq_true (Nat.le_trans h (Nat.pow_le_pow_right (by decide) (Nat.le_add_right _ _)))

theorem inBar2_large (fn n : Nat) : inBar2 fn (2 ^ 40) n = false :=
  decide_eq_false fun h => absurd (Nat.le_trans (Nat.le_trans (Nat.le_add_right _ n) h)
    (Nat.pow_le_pow_right (by decide) (by omega : 30 + (Config.bar2Size fn).val ≤ 39))) (by decide)

theorem witness_HostEvents :
    (let s := { tiny id with inbound := ⟨1, [⟨0, 3, .write [(0, [1])] none, true⟩], []⟩ }
     s.inbound.routes ≠ [] ∧ (∀ r ∈ s.inbound.routes, r.sent = true ∧ r.die < 8) ∧
      (∀ r ∈ s.inbound.routes, r.number < s.inbound.nextNumber) ∧ s.inbound.reads = []) ∧
    (∀ b ∈ [1, 0], let s := hosting b
      let e := ((numbered s).queueEntry 0).1
      let s1 := ((numbered s).queueEntry 0).2
      StreamIdle s ∧ e.ctx.toNat = 0 ∧ (e.en = true ↔ b = 1) ∧
      isOk (s1.doorbellRecord 0 (BitVec.ofNat 64 (sram0 + 8192))).1 (sram0 + 8192) = true ∧
      (recordOf (s1.dieBytes (sram0 + 8192) 64)).malformed = false ∧ e.tail - e.head ≠ e.slots.setWidth 64) ∧
    (let s := { tiny id with gangs := [{ Gang.reset with launch := some 1, record := 64 }] }
     StreamIdle s ∧ (∃ g ∈ s.gangs, g.launch ≠ none ∧ g.ctx = 0 ∧ g.ended = false ∧ g.record = 64) ∧
      ((numbered s).inContext 0 0xFFFFFFFFFFFFFFC0).1 = false ∧ (s.gangs.map Gang.key).Nodup ∧ ∀ g ∈ (tiny id).gangs, g.launch = none) ∧
    (let s := hosting 0
     StreamIdle s ∧ inBar2 0 4032 64 = true ∧
     ∃ s1, s.bar2 0 4032 = (4032, s1) ∧ s1.inDevice 4032 64 = true ∧ 4032 % 4096 + 64 ≤ 4096 ∧
      (∃ home, s1.homeOf 4032 = some home ∧ homeDie home < 8 ∧ isCompressedHome home = false ∧ isHbmHome home = true ∧
        (∀ i < 64, s1.homeOf (4032 + i) = some (home + i) ∧ homeDie (home + i) = homeDie home) ∧
        ∀ i < 64, s1.descriptorAt (home + i) = none) ∧
      Memory.wf s1.mem = true ∧ s1.errors = []) ∧
    (∃ s1, (tiny id).bar2 0 0x800000000000 = (0x800000000000, s1) ∧ s1.inDevice 0x800000000000 64 = false) ∧
    inBar2 0 (2 ^ 40) 64 = false := by
  unfold StreamIdle
  refine ⟨by decide +kernel, fun b hb => ?_, by decide +kernel, ⟨by decide +kernel, inBar2_small (by decide), _, parts (by decide +kernel),
    by decide +kernel, by decide, holds (fun (home : Nat) => homeDie home < 8 ∧ isCompressedHome home = false ∧ isHbmHome home = true ∧
      (∀ i < 64, ((hosting 0).bar2 0 4032).2.homeOf (4032 + i) = some (home + i) ∧ homeDie (home + i) = homeDie home) ∧
      ∀ i < 64, ((hosting 0).bar2 0 4032).2.descriptorAt (home + i) = none)
      (by decide +kernel), by decide +kernel⟩, ⟨_, parts (by decide +kernel), by decide +kernel⟩, inBar2_large 0 64⟩
  rcases List.mem_cons.mp hb with rfl | hb
  · decide +kernel
  · rw [List.mem_singleton.mp hb]; decide +kernel

/-- The descriptor of queue 0 at the foot of HBM. -/
theorem witness_HostEvents_descriptors : let s := tiny id
    (List.replicate 32 (0 : Byte)).length = 32 ∧ Memory.wf s.mem = true ∧ s.errors = [] ∧ s.checkpoint = none ∧ isHbmHome 0 = true ∧
    (∀ i < 32, s.descriptorAt (0 + i) = some (0, i)) ∧ (s.dieByte 0).getLsbD 0 = false ∧
    s.homeOf (s.queuePa 0) = some 0 ∧ s.homeOf (s.queuePa 0 + 12) = some (0 + 12) ∧ s.queuePa 0 % 4096 + 32 ≤ 4096 ∧ s.readerLine 0 = none := by decide +kernel

/-- One port in a state. -/
def ported (p : Port) : State := { tiny id with ports := Vector.replicate 16 p }

theorem witness_LinkPortAndPackageEvents :
    (∀ t f, let s := { tiny id with dies := (List.replicate 8 { Die.reset with links := Vector.replicate 6 ⟨1, 0, 3, t, f, 0, 0, 7, 0⟩ }) }
      s.dies.length = 8 ∧ (s.link 7 5).train = t ∧ (s.link 7 5).failed = f ∧ (s.link 7 5).closed = 0 ∧
      (s.link 7 5).gear.toNat < (s.link 7 5).gceil.toNat ∧ (s.link 7 5).gfloor.toNat < (s.link 7 5).gear.toNat ∧
      7 ≤ (s.link 7 5).retrains) ∧
    (0 < 4 ∧ 3 * 4 ≤ 4 * 3 ∧ 4 * 0 < 4 ∧ 2 * 0 * (1 + 1) ≤ 4 * 1) ∧
    (let path := (Requester.hart ⟨0, 0⟩ 0).path (homeDie 0)
     ∀ b, let s := { tiny id with dies := (List.replicate 8 { Die.reset with links := Vector.replicate 6 ⟨1, 0, 3, b, false, 0, 0, 0, 0⟩ }) }
      homeDie 0 < 8 ∧ s.held = none ∧ path.links ≠ [] ∧ ¬ homeDie host0 < 8 ∧
        ∀ k < 8, ∀ e < 6, (s.link k e).failed = false ∧ (s.link k e).train = b) ∧
    ((ported { Port.reset with lost := true }).port 15).lost = true ∧
    (let f : ScaleFrame := ⟨0, 0, 0, 0, [], []⟩
     let k := (ported { Port.reset with queued := [f], unacked := [⟨0, f, 0⟩], buffered := 1 }).port 15
     k.lost = false ∧ k.queued = [f] ∧ (0 - (k.sent + BitVec.ofNat 32 ((f.payload.length + 255) / 256))).toNat < 2 ^ 31 ∧
      2 ^ 31 ≤ ((0xFFFFFFFF#32) - (k.sent + BitVec.ofNat 32 ((f.payload.length + 255) / 256))).toNat ∧ 1 ≤ k.buffered ∧
      k.unacked = [⟨0, f, 0⟩] ∧ 50000 ≤ ((50000 : Word) - 0).toNat) ∧
    ((ported { Port.reset with buffered := 256 }).port 15).lost = false ∧
    (let k := (ported Port.reset).port 0
     k.lost = false ∧ (0 : Nat) = k.expected ∧ k.buffered + (256 * 256 + 255) / 256 ≤ 256 ∧ k.queued = [] ∧ k.unacked = []) ∧
    (let s := { ported Port.reset with time := 10000000 }
     (s.port 15).lost = false ∧ FreezeScope.package ∉ s.freezes ∧ s.checkpoint = none ∧ 10000000 ≤ (s.time - (s.port 15).lastAllowance).toNat ∧
      s.collectives.Nodup) ∧
    (StreamIdle (tiny id) ∧ (tiny id).errors = [] ∧ (tiny id).dies.length = 8 ∧ (tiny id).control.bootFailure = 0 ∧
      ∃ s : State, StreamIdle s ∧ s.control.bootFailure ≠ 0) ∧
    ((∀ c ∈ (tiny id).clusters, c.lines = []) ∧ (∀ d ∈ (tiny id).dies, d.readers = []) ∧ (tiny id).held = none ∧
      (tiny id).crossed = [] ∧ Memory.wf (tiny id).mem = true) ∧
    ((tiny id).checkpoint = none ∧ (∀ p ∈ [CheckpointWork.save 0, .restore 0], ∀ b : Bool, ∃ s : State, s.checkpoint = some ⟨p, b⟩ ∧
      ∀ g ∈ s.gangs, g.launch = none)) ∧
    ((tiny id).attesting = false ∧ ∃ s : State, s.attesting = true ∧ 0x800000000000 ≤ s.control.attestation.toNat) ∧
    (0 < (tiny id).cores.length ∧ (tiny id).wmax.toNat ≤ 16 ∧ (tiny id).hart.core = 0 ∧ (tiny id).hart.resident = true ∧
      ((tiny id).core 0).droopStretch = 0 ∧ ∀ h ∈ (tiny fun h => { h with run := .gone }).harts, h.resident = false) := by
  unfold StreamIdle
  refine ⟨by decide +kernel, by decide, by decide +kernel, by decide +kernel, by decide +kernel, by decide +kernel, by decide +kernel,
    by decide +kernel, ⟨by decide +kernel, rfl, rfl, rfl, { tiny id with control := { State.reset.control with bootFailure := 2 } },
      by decide +kernel⟩, by decide +kernel,
    ⟨rfl, fun p _ b => ⟨{ tiny id with checkpoint := some ⟨p, b⟩ }, rfl, ?_⟩⟩,
    ⟨rfl, ⟨{ tiny id with attesting := true, control := { State.reset.control with attestation := 0x0000800000000000 } }, rfl,
      by decide +kernel⟩⟩, by decide +kernel⟩
  exact (by decide +kernel : ∀ g ∈ (tiny id).gangs, g.launch = none)

/-! ## The remaining statements with hypotheses -/

theorem witness_ScalarIntegerFrame : (∃ t, exec (.addi 5 4 7) (tiny id) = .next t) ∧
    (∃ t, exec (.div 5 4 6) (tiny id) = .next t) ∧ (∃ t, exec (.lpc 5 7) (tiny id) = .next t) := ⟨⟨_, rfl⟩, ⟨_, rfl⟩, ⟨_, rfl⟩⟩

theorem witness_ControlTransferResults : (tiny id).hart.looping = none := rfl

theorem witness_GangInfoTellsTheLaunch : ((0 : BitVec 5) = 0) ∧ ((1 : BitVec 5) = 1) ∧ ((2 : BitVec 5) = 2) ∧
    3 ≤ (3 : BitVec 5).toNat := by decide

/-! ## Translation, reader counts, formats -/

/-- The leaf at the foot of SRAM: 4 TiB from 0 that everything may use; the entry after it is invalid, the next one names a
table below. -/
def walking (bad : Bool) : State :=
  { tiny (fun h => { h with xlat := ⟨true, 0, 0x1000000⟩ }) with
    mem := [(sram0, 0x3F), (sram0 + 16, 0x01), (sram0 + 20, 1)], poison := if bad then [sram0] else [] }

theorem witness_AccessesAreCheckedAndTranslated_walks :
    ((walking false).hart.xlat.en = true ∧ (walking false).hart.xlat.root.toNat * 2 ^ 16 = sram0 ∧ 0 < 0x7FFFFF00000000) ∧
    (walk (.host) 0 3 sram0 (walking false)).1 = .leaf 0x3F 1 ∧
    (walk (.host) 0 3 sram0 (walking true)).1 = .fault 0x0C ∧
    (walk (.host) (2 ^ 42) 3 sram0 (walking false)).1 = .fault 0x0A ∧
    (walk (.host) (2 ^ 43) 3 sram0 (walking false)).1 = .fault 0x0A ∧
    (walk (.host) 0 3 0x40000000000 (walking false)).1 = .fault 0x09 ∧
    (let h : HeldTranslation := ⟨0, 2 ^ 42, 0x3F⟩
     (walking false).lookWalk 0 3 sram0 = .leaf h.entry 1 ∧ h.size = 2 ^ [0, 42, 29, 16].getD 1 0 ∧ h.base ≤ 0 ∧
      0 < h.base + h.size ∧ (∀ k ∈ [Access.load, .store, .atomic, .fetch, .matrix], Permits h.entry k .user) ∧
      ¬ Permits 0x1F .load .user ∧ ¬ Permits 0x37 .store .supervisor) := by
  unfold Permits; decide +kernel

/-- Addresses on both sides of every edge of the map. -/
theorem witness_AccessesAreCheckedAndTranslated_map : let s := tiny id
    s.homeOf 0x007FFFFFFFFF = some 0x7FFFFFFFFF ∧ s.homeOf 0x008000000000 = some 0 ∧
    s.homeOf 0x008000001000 = some 0x1000000000 ∧ s.homeOf 0x010000000000 = some 0x010000000000 ∧
    s.homeOf 0x01000FFFFFFF = none ∧ s.homeOf 0x010080000000 = none ∧ s.homeOf 0x020000000000 = none ∧
    s.homeOf 0x03FFFFFFFFFF = none ∧ s.homeOf 0x040000000000 = none ∧ s.homeOf 0x7FFFFFFFFFFF = none ∧
    s.homeOf 0x800000000000 = some 0x800000000000 ∧ s.homeOf 0x1000000000000 = none ∧
    (let t := { s with cpool := 1 }
     t.homeOf 0x000FC0000000 = none ∧ t.homeOf 0x000FBFFFFFFF = some 0x000FBFFFFFFF ∧
      t.homeOf 0x020000000000 = some 0x020000000000) := by decide +kernel

/-- Eight dies, the first with a line that counts readers, or one that was dropped; no memory-side cache where asked. -/
def counting (count : Option (BitVec 6)) (dropped : List Nat) (split : BitVec 32) : State :=
  { tiny id with
    dies := { Die.reset with readers := (count.map fun c => ⟨0, c, Vector.replicate 128 7⟩).toList, dropped := dropped } ::
      List.replicate 7 Die.reset
    msplit := split }

theorem witness_MonitorAndCacheControl_readers :
    (∀ p ∈ [(none, [0], 0xC), (some 1, [], 0), (some 2, [], (0 : BitVec 32))],
      let s := counting p.1 p.2.1 p.2.2
      isHbmHome 0 = true ∧ s.dies.length = 8 ∧ s.wf = true ∧ s.errors = [] ∧ s.loose = [] ∧
      ((s.die 0).readers.Pairwise fun l m => l.base ≠ m.base) ∧ (∀ l ∈ (s.die 0).readers, l.base % 128 = 0) ∧
      (s.readerLine 0).map ReaderLine.count = p.1 ∧ (s.die 0).dropped = p.2.1) ∧
    (1 + 62 ≤ 63 ∧ 63 < 1 + 63 ∧ 1 < (2 : BitVec 6).toNat) ∧
    (0xC : BitVec 32).toNat / 16 ^ 0 % 16 = 12 ∧ (0x22222222 : BitVec 32).toNat / 16 ^ 7 % 16 < 12 ∧
    ((counting (some 1) [] 0).die 0).readers.length < (96 - 8 * 0) * 2 ^ 13 := by
  refine ⟨by decide +kernel, by decide, by decide, by decide, ?_⟩
  show 1 < _; decide

/-- A gang with one stream, from hart 0 to hart 1. -/
def weighed : Stream := ⟨0, 0, 1, 0, 0, 1, 64, 1, 8, 1, 1, 2, 8, [], 0, false⟩
def weighing : Gang := { Gang.reset with streams := (Vector.replicate 16 none).set 0 (some weighed) }

theorem witness_CsrsReadAndWrite_fields : Seated (tiny id) ∧ WeightLimits (tiny id).myGang (tiny id).hart.name.idx 1 16 ∧
    WeightLimits weighing 0 2 8 := by
  refine ⟨by unfold Seated; decide +kernel, ?_, ?_⟩
  · have none_ : ∀ t : Stream, some t ∉ (tiny id).myGang.streams.toList := fun t h => by
      have all : ∀ x ∈ (tiny id).myGang.streams.toList, x = none := by decide +kernel
      cases all _ h
    exact ⟨fun t h => absurd h.1 (none_ t), .inl ⟨fun t h => absurd h.1 (none_ t), rfl, rfl⟩⟩
  · have one : ∀ x ∈ weighing.streams.toList, x = none ∨ x = some weighed := by
      decide +kernel
    refine ⟨fun t h => ?_, .inr ⟨⟨weighed, ⟨by decide +kernel, .inl rfl⟩, rfl⟩, weighed, ⟨by decide +kernel, .inl rfl⟩, rfl⟩⟩
    · rcases one _ h.1 with e | e
      · cases e
      · cases e; decide

theorem witness_FormatsAndRounding_logs :
    besideNumber 1 0 (logMagnitude 16) (-19) = .eq ∧ besideNumber 1024 0 (logMagnitude 31) (-19) = .lt ∧
    ∀ p ∈ [(17, .gt), (18, Ordering.lt)], besideNumber p.1 (-4) (logMagnitude 16) (-19) = .lt ∧
      besideNumber p.1 (-4) (logMagnitude 17) (-19) = .gt ∧
      besideNumber p.1 (-4) (logMagnitude 16 + logMagnitude 17) (-20) = p.2 := by decide +kernel

theorem witness_TranscendentalsAreRounded : ∀ p ∈ [(Fmt.fp16, (0x4200 : Sys2Proof.Word)), (.bf16, 0x4040), (.fp32, 0x40400000)],
    (∃ l, p.1.layout = some l) ∧ ∃ m e, (p.1.value p.2).1 = .num false m e ∧ m ≠ 0 := by
  intro p hp
  simp only [List.mem_cons, List.not_mem_nil, or_false] at hp
  rcases hp with rfl | rfl | rfl <;> exact ⟨⟨_, rfl⟩, _, _, rfl, by decide⟩

/-! ## More of the events -/

/-- A gang of two of which one hart waits at a chained MODE.M and the other can still come. -/
def coming : State := { rendezvous 1 with parked := (rendezvous 1).parked.map fun h => { h with wait := none } }

theorem witness_HartEvents_comes : Named coming ∧ coming.hart.waitsAt [0x36] = true ∧
    (waitingUnder coming 0).length = 1 ∧ SettingsMeet (waitingUnder coming 0) ∧
    (let others := (coming.harts.filter fun k => k.name.gang == 0 && k.run != .exited && k.run != .gone).filter
        fun k => !k.waitsAt [0x36]
     others.length = 1 ∧ (∃ k ∈ waitingUnder coming 0 ++ others, k.hartidx = 0) ∧
      coming.hart.mchain.len.toNat < (waitingUnder coming 0).length + others.length) := by
  unfold Named SettingsMeet; decide +kernel

/-- Two harts of one core that can issue, or whose credit or window is used up. -/
def issuing (credit : Nat) (issues : Nat) : State :=
  { two (fun h => { h with credit := credit, issued := 0, joined := 0 }) id with
    cores := [{ Core.reset with issues := issues }]
    parked := [{ (two (fun h => { h with credit := credit }) id).hart with name := ⟨0, 1⟩, hartidx := 1, issued := 5 }] }

theorem witness_GangAndLaunchEvents_issue :
    (Named (issuing 1 15) ∧ ((issuing 1 15).core 0).issues < 16 ∧ CanIssue (issuing 1 15) 0 (issuing 1 15).hart ∧
      ∀ k ∈ (issuing 1 15).harts, CanIssue (issuing 1 15) 0 k → k.name ≠ (issuing 1 15).hart.name →
        GoesBefore (issuing 1 15).hart k) ∧
    16 ≤ ((issuing 1 16).core 0).issues ∧
    (((issuing 0 0).core 0).issues = 0 ∧ ∀ h ∈ (issuing 0 0).harts, ¬ CanIssue (issuing 0 0) 0 h) ∧
    (let s := (issuing 1 0).mapHarts fun h => { h with wq := 0, credit := 0 }
     (∀ h ∈ s.harts, ¬ CanIssue s 0 h) ∧ ∀ h ∈ s.harts, h.core = 0 → h.credit = min (h.wq.toNat / 256) s.wmax.toNat) := by
  unfold Named CanIssue GoesBefore; decide +kernel

theorem witness_GangAndLaunchEvents_order :
    (crowded.gangs.map Gang.key).Nodup ∧ (crowded.clearing (crowded.recordAt sram0) 6 0).isSome = true := by decide +kernel

/-- A launch of one gang that has ended; its record in SRAM names the next one where asked, which has a join counter. -/
def launched (hn : Byte) (next : List Host.Cell) (join : List Host.Cell) (double : Bool) : State :=
  { tiny (fun h => { h with run := .gone }) with
    control := { State.reset.control with ctxbase := BitVec.ofNat 64 (sram0 + 4096) }
    mem := (([(sram0 + 37, hn)] ++ next ++ [(sram0 + 62, 2)] ++ join).filter fun c => c.2 != 0)
    launches := [⟨1, BitVec.ofNat 64 sram0, sram0, 0, .spawn 0, 7, some 0, 1, false, 1, 1, 1, 0, [], double, []⟩] }

theorem witness_GangAndLaunchEvents_ends :
    (∀ hn ∈ [(0 : Byte), 0x80], ∀ double : Bool, let s := launched hn [] [] double
      PlainDies s ∧ sram0 % 64 = 0 ∧ isCompressedHome sram0 = false ∧ ((s.recordAt sram0).hn = true ↔ hn = 0x80) ∧
      (s.recordAt sram0).next = 0 ∧
      ∃ l, (s.launches.find? fun (l : Launch) => l.key == 1) = some l ∧ l.queued = false ∧ l.ended = l.total ∧
        l.clusters.getLsbD 0 = true ∧ ∀ g ∈ s.gangs, g.launch ≠ some 1) ∧
    (∀ join ∈ [[], [(sram0 + 128 + 32, (1 : Byte))]], let s := launched 0 [(sram0 + 48, 0x80), (sram0 + 53, 1)] join false
      PlainDies s ∧ (s.recordAt sram0).next = BitVec.ofNat 64 (sram0 + 128) ∧ (s.recordAt sram0).next.toNat % 64 = 0 ∧
      (let s1 := (s.readRecord 0 sram0).writeSt (.scheduler 0) sram0 3
       let e := s1.contextEntry 0
       let found := e.2.contextHome (.scheduler 0) e.1.xlat (BitVec.ofNat 64 (sram0 + 128)) 64
       found.1 = some (sram0 + 128) ∧ isCompressedHome (sram0 + 128) = false ∧
        (recordOf (found.2.dieBytes (sram0 + 128) 64)).join = join.length)) := by
  unfold PlainDies
  refine ⟨fun hn h double => ?_, by decide +kernel⟩
  obtain rfl | rfl : hn = 0 ∨ hn = 0x80 := by simpa using h
  all_goals cases double <;> exact ⟨by decide +kernel, by decide, by decide, by decide +kernel, by decide +kernel, _, rfl,
    by decide +kernel⟩

/-- A stopped gang whose image has room in HBM, from 0 on. -/
theorem witness_SaveAndResumeEvents_image : let s := stopping 0x10 1 false
    s.wf = true ∧ s.errors = [] ∧ (∀ die ∈ s.dies, die.readers = []) ∧ (∀ i < 131072, s.homeOf (0 + i) ≠ none) ∧
    4096 + ((s.gangHarts (s.gang 0)).map sectionPart).sum + 4096 * (s.gang 0).scr ≤ 131072 := by
  refine ⟨by decide +kernel, by decide +kernel, by decide +kernel, fun i h => ?_, by decide +kernel⟩
  have k : i / 0x1000000000 = 0 := by omega
  have p : (stopping 0x10 1 false).poolOf 0 = 0 := by decide +kernel
  simp only [State.homeOf, State.target, Nat.zero_add, k, p, Nat.sub_zero]
  rw [if_pos (by omega), if_pos (by omega)]
  simp

theorem witness_SaveAndResumeEvents_whole : (resuming false).imageBytes ⟨Gang.reset, [savedHart], [], sram0, 192,
    List.replicate 192 0, 0, false, 0⟩ = List.replicate 192 0 ∧ savedHart.matrixFlag = false ∧
    savedHart.run = .stopped .preferred := by decide +kernel

/-- A gang with a full granule in a stream's buffer, its granules marked or not. -/
def poisoned (marks : List Nat) : State :=
  { streaming ((Vector.replicate 16 none).set 0 (some { stream (List.replicate 64 1) with pp := 1 })) 1 with
    gangs := [{ Gang.reset with w := 2, scr := 1, scratchPoison := marks
                                streams := (Vector.replicate 16 none).set 0 (some (stream (List.replicate 64 1))) }] }

theorem witness_StreamsOpenMoveAndClose_poison : ∀ marks ∈ [[], (List.range 8).map fun i => 32 * i], let s := poisoned marks
    s.localErrors = [] ∧ s.hart.vl ≠ 0 ∧ s.hart.wait ≠ some .broken ∧
    (∃ g, s.gang? s.hart.name.gang = some g ∧ g.stream 0 = some (stream (List.replicate 64 1)) ∧
      g.portOf s.hart.name.idx 0 = some (0, false) ∧
      (marks ≠ [] → ∀ o < 256, ∃ p ∈ g.scratchPoison, p ≤ o ∧ o < p + 32) ∧ (marks = [] → g.scratchPoison = [])) ∧
    (16 * 32 + 7) / 8 ≤ (stream (List.replicate 64 1)).buf.length ∧ (stream []).mx ≤ 256 * (stream []).cap := by
  intro marks h
  obtain rfl | rfl : marks = [] ∨ marks = (List.range 8).map fun i => 32 * i := by simpa using h
  all_goals exact ⟨rfl, by decide +kernel, by decide +kernel, ⟨_, rfl, by decide +kernel⟩, by decide +kernel⟩

/-- A channel whose requests have deadlines, past and to come, or none; its window about to end where asked. -/
def queued (slot floor2 floor3 : Nat) (cs : List (BitVec 2)) : State :=
  let c : Channel := ⟨cs.map (fun c => ⟨1, c, 0, 0⟩) ++ [⟨2, 1, 4, 99⟩, ⟨3, 1, 4, 101⟩], slot, floor2, floor3⟩
  { tiny id with
    time := 400
    dies := { Die.reset with channels := Die.reset.channels.set 31 c } :: List.replicate 7 Die.reset }

theorem witness_DieEvents_channels :
    (∀ cs ∈ [[], [(1 : BitVec 2)]], let q := ((queued 0 4 1 cs).die 0).channels.toList.getD 31 ⟨[], 0, 0, 0⟩
      q.waiting ≠ [] ∧ (∀ x ∈ q.waiting, x.cls ≠ 2 ∧ x.cls ≠ 3)) ∧
    (∀ cs ∈ [[2, 3], [(3 : BitVec 2)]], let q := ((queued 31 0 0 cs).die 0).channels.toList.getD 31 ⟨[], 0, 0, 0⟩
      (q.waiting.any fun x => x.cls == 3) = true ∧ 32 ≤ q.slot + ((if (q.waiting.any fun x => x.cls == 2) then 4 - q.floor2 else 0) +
        (1 - q.floor3))) ∧
    (EarlierStamp 99 (BitVec.ofNat 16 ((queued 0 4 1 []).time.toNat / 4)) ∧
      ¬ EarlierStamp 101 (BitVec.ofNat 16 ((queued 0 4 1 []).time.toNat / 4)) ∧ EarlierStamp 99 101) := by
  unfold EarlierStamp; decide +kernel

/-- An operation of a copy within HBM, from 4096 to 0: its chunk not begun, its last word, and nothing left; with a stamp. -/
def moving (run : EngineRun) (stamp : Option Sys2Proof.Word) : State :=
  tiny fun h => { h with eq := h.eq.set 3 { EngineQueue.reset with
    ops := [{ engineOp (.copy 0 4096 64 false) (some run) with stamp := stamp }] } }

theorem witness_EngineAndCollectiveEvents_data :
    (∀ run ∈ [⟨[(0, 64)], [], (0, 0), [], false⟩, ⟨[], [⟨56, List.replicate 8 5, []⟩], (0, 64), [], false⟩,
        ⟨[], [⟨48, List.replicate 8 5, [0]⟩, ⟨56, List.replicate 8 5, []⟩], (0, 64), [32], true⟩],
      let s := moving run none
      PlainDies s ∧ Direct s 0 64 ∧ Direct s 4096 64 ∧
      (∀ w ∈ run.words, Direct s w.va w.data.length ∧ w.va % 8 + w.data.length ≤ 8 ∧ w.data ≠ []) ∧
      (∀ p ∈ run.left, 0 ≤ p.1 ∧ p.1 + p.2 ≤ 0 + 64) ∧
      ∃ o, (s.hart.queue 3).ops = [o] ∧ o.xlat.en = false ∧ o.run = some run ∧
        o.work.move = some ⟨.src 4096, 0, 64, false⟩) ∧
    (∀ bad : Bool, ∀ a ∈ [0x2000, BitVec.ofNat 64 host0, BitVec.ofNat 64 tcm0, BitVec.ofNat 64 (2 ^ 55)],
      let s := moving ⟨[], [], (0, 0), [], bad⟩ (some a)
      ∃ o, (s.hart.queue 3).ops = [o] ∧ o.stamp = some a ∧
        (match (resolve (s.engineAgent s.hart o) [] .store a 8 s).1 with
          | .ok (.device _ _ _, t) => decide (a = 0x2000 ∧ t = none)
          | .ok (.host _, _) => decide (a = BitVec.ofNat 64 host0)
          | .ok (.tcm _ _, t) => decide (a = BitVec.ofNat 64 tcm0 ∧ t = none)
          | .ok (.scratch _ _, _) => false
          | .error _ => decide (a = BitVec.ofNat 64 (2 ^ 55))) = true) ∧
    Direct (tiny id) 0x2000 8 ∧ (tiny id).lineAt 0 0x2000 = none := by
  unfold PlainDies Direct
  refine ⟨fun run h => ?_, fun bad a h => ?_, by decide +kernel, by decide +kernel⟩
  · simp only [List.mem_cons, List.not_mem_nil, or_false] at h
    rcases h with rfl | rfl | rfl <;> exact ⟨by decide +kernel, by decide +kernel, by decide +kernel, by decide +kernel,
      by decide +kernel, _, rfl, rfl, rfl, rfl⟩
  · simp only [List.mem_cons, List.not_mem_nil, or_false] at h
    rcases h with rfl | rfl | rfl | rfl <;> cases bad <;> exact ⟨_, rfl, rfl, by decide +kernel⟩

/-- A collective of one rank over two elements in HBM. -/
def collecting (op sf df : Nat) (exact_ : Bool) (poison : List Nat) : State :=
  { tiny id with
    poison := poison
    collectives := [⟨1, 0, ⟨0, 0⟩, 12, exact_, (Vector.replicate 8 0).set 0 (BitVec.ofNat 64 (op + 16 * sf + 256 * df + 2 ^ 33))
      |>.set 2 0x1000, ⟨false, 0, 0⟩, .user⟩] }

theorem witness_EngineAndCollectiveEvents_results :
    ∀ p ∈ [(0, 11, 11, false), (1, 11, 11, false), (2, 6, 6, false), (3, 11, 11, false), (0, 9, 10, true), (0, 11, 11, true)],
      ∀ poison ∈ [[], [0]], let s := collecting p.1 p.2.1 p.2.2.1 p.2.2.2 poison
      let d := collDescOf ((s.collectives.map fun c => c.desc).headD (Vector.replicate 8 0))
      PlainDies s ∧ (s.cluster 0).lines = [] ∧ d.stamp = 0 ∧ d.rank < d.parts ∧ d.op.toNat = p.1 ∧
      Direct s d.src.toNat (8 * d.count + 8) ∧ Direct s d.dst.toNat (8 * d.parts * d.count + 8) ∧ d.sf ≠ 13 ∧
      (fmtOf d.sf).isSome = true ∧ (fmtOf d.df).isSome = true ∧ d.count = 2 ∧ d.parts = 1 := by
  unfold PlainDies Direct; decide +kernel

/-- A package whose queue table starts at the foot of HBM, queue 0 of function 0, and a record in SRAM. -/
def belled (en slots tail : Byte) (rec : List Host.Cell) (marks : List Nat) : State :=
  { tiny id with
    control := { State.reset.control with ctxbase := BitVec.ofNat 64 (sram0 + 4096) }
    mem := ([(0, en), (8, slots), (24, tail)] ++ rec).filter fun c => c.2 != 0
    poison := marks }

/-- Records that wait, or that are malformed, in a queue with room, and a full queue, and a disabled one. -/
theorem witness_HostEvents_doorbells :
    (∀ p ∈ [((1 : Byte), (4 : Byte), (0 : Byte), [], []), (1, 4, 4, [], []), (0, 4, 0, [], []), (1, 4, 0, [(sram0 + 8254, 1)], []),
        (1, 4, 0, [(sram0 + 8230, 1)], []), (1, 4, 0, [], [sram0 + 8192])],
      let s := belled p.1 p.2.1 p.2.2.1 p.2.2.2.1 p.2.2.2.2
      let e := ((numbered s).queueEntry 0).1
      let s1 := ((numbered s).queueEntry 0).2
      let found := s1.doorbellRecord 0 (BitVec.ofNat 64 (sram0 + 8192))
      let read := found.2.readDie .queueManager (sram0 + 8192) 64
      let r := recordOf (read.2.readDie .queueManager (sram0 + 8192) 64).1
      let k := ((read.2.readDie .queueManager (sram0 + 8192) 64).2.queueEntry 0).1
      e.ctx.toNat = 0 ∧ (e.en = true ↔ p.1 = 1) ∧ isOk found.1 (sram0 + 8192) = true ∧
      (read.2.poisoned (sram0 + 8192) 64 = true ↔ p.2.2.2.2 ≠ []) ∧
      ((recordOf read.1).malformed = true ↔ p.2.2.2.1 = [(sram0 + 8230, 1)]) ∧
      (r.st = 1 ↔ p.2.2.2.1 = [(sram0 + 8254, 1)]) ∧ r.st ≠ 2 ∧ (k.tail - k.head = k.slots.setWidth 64 ↔ p.2.2.1 = 4) ∧
      s.homeOf (s.queuePa 0 + 12) = some 12 ∧ isHbmHome 12 = true ∧ s.queuePa 0 % 32 = 0 ∧ Memory.wf s.mem = true) ∧
    (((numbered (belled 1 4 0 [] [])).queueEntry 0).2.doorbellRecord 0 (BitVec.ofNat 64 host0)).1.toOption = none := by
  refine ⟨fun p h => ?_, by decide +kernel⟩
  simp only [List.mem_cons, List.not_mem_nil, or_false] at h
  rcases h with rfl | rfl | rfl | rfl | rfl | rfl <;> decide +kernel

/-- An aligned word of BAR2, its granule poisoned or not. -/
theorem witness_HostEvents_atomics : ∀ marks ∈ [[], [4032]],
    let s := { hosting 0 with poison := marks }
    (s.bar2 0 4032).1 = 4032 ∧ (s.bar2 0 4032).2.homeOf 4032 = some 4032 ∧ (s.bar2 0 4032).2.inDevice 4032 8 = true ∧
    4032 % 8 = 0 ∧ isCompressedHome 4032 = false ∧ (s.bar2 0 4032).2.loose = [] ∧ (s.bar2 0 4032).2.readsZero 4032 = false ∧
    ((s.bar2 0 4032).2.poisoned 4032 8 = true ↔ marks ≠ []) ∧ ∀ i < 8, (s.bar2 0 4032).2.descriptorAt (4032 + i) = none := by
  decide +kernel

theorem witness_HostEvents_checkpoint : (tiny id).clusters.length ≤ Config.clusters ∧
    (∀ c ∈ cached.clusters, ∀ l ∈ c.lines, l.base % 128 = 0) ∧
    (∀ k < 8, ∀ l ∈ ((counting (some 1) [] 0).die k).readers, isHbmHome l.base = true ∧ homeDie l.base = k ∧ l.base % 128 = 0) ∧
    ∃ w : RouteWork, w = .write [(0, [1]), (8, [2])] none := ⟨by decide, by decide +kernel, by decide +kernel, _, rfl⟩

/-- A package whose flash carries signatures of its header and its configuration block by the vendor's key, or none. -/
def vendorKey : SigningKey := signingKey (List.replicate 32 1) (List.replicate 32 2) (List.replicate 32 3)
def booted (good : Bool) : State :=
  { tiny id with
    keys := ⟨[], vendorKey.public⟩
    flash := { Flash.reset with
      headerSignature := if good then vendorKey.sign [] Flash.reset.header else []
      blockSignature := if good then vendorKey.sign [] Flash.reset.block else [] } }

theorem good (drawn m : List Byte) : verifies vendorKey.public m (vendorKey.sign drawn m) = true :=
  verifies_sign _ _ _ drawn m (List.length_replicate ..)

theorem witness_LinkPortAndPackageEvents_boot :
    (verifies (booted true).keys.vendor (booted true).flash.header (booted true).flash.headerSignature = true ∧
      verifies (booted true).keys.vendor (booted true).flash.block (booted true).flash.blockSignature = true ∧
      (booted true).fuses.toNat ≤ (wordIn (booted true).flash.header 0).toNat ∧
      2 ≤ ((wordIn (booted true).flash.block 0).setWidth 32 : BitVec 32).toNat % 16) ∧
    verifies (booted false).keys.vendor (booted false).flash.header (booted false).flash.headerSignature = false := by
  refine ⟨⟨?_, ?_, by decide +kernel, by decide +kernel⟩, ?_⟩
  · exact good [] _
  · exact good [] _
  · rw [verifies, if_pos (.inl (by decide))]

end Sys2Proof.Tests
end

/-! SUPPORT. GATE enters its entry or faults, and GRET returns (R88 to R90). -/

namespace Sys2Proof.Machine

/-! ## Privilege levels and their encodings (R16) -/

@[simp] theorem privOf_code (p : Priv) : privOf p.code = some p := by cases p <;> rfl

/-- The encoding that names no level. -/
theorem privOf_eq_none_iff (c : BitVec 2) : privOf c = none ↔ c = 2 := by revert c; decide

/-- A gate entry's level names supervisor or firmware. -/
theorem privOf_eq_of_gateLevel {c : BitVec 2} (h : c.toNat = 1 ∨ c.toNat = 3) :
    privOf c = some (if c.toNat = 1 then .supervisor else .firmware) := by revert c; decide

/-! ## The entry's bytes -/

theorem State.seenBytes_length (s : State) (who : Requester) (a n : Nat) : (s.seenBytes who a n).length = n := by
  unfold State.seenBytes
  split <;> simp [State.dieBytes]

theorem State.readDie_length (s : State) (who : Requester) (a n : Nat) : (s.readDie who a n).1.length = n := by
  unfold State.readDie
  dsimp only
  split
  · exact List.length_replicate
  · exact s.seenBytes_length who a n

/-- The number that a read of n bytes finds fits them. -/
theorem State.natOfBytes_readDie_lt {s s1 : State} {who : Requester} {a n : Nat} {d : List Byte}
    (h : s.readDie who a n = (d, s1)) : natOfBytes d < 256 ^ n := by
  have hlen : d.length = n := by rw [← s.readDie_length who a n, h]
  rw [← hlen]
  exact natOfBytes_lt d

/-! ## The checks of an entry (R89) -/

/-- The checks of R89 refuse an entry to a hart at a level: it is not valid, sets a reserved bit, or names the user
level or one below the hart's. -/
def EntryRefused (e : BitVec 128) (priv : Priv) : Prop :=
  e.getLsbD 64 = false ∨ e.extractLsb' 69 59 ≠ 0 ∨ e.extractLsb' 65 2 = 0 ∨ e.extractLsb' 65 2 < priv.code

/-- A field of an entry, from the entry's number. -/
theorem entryField_toNat (e low width : Nat) :
    ((BitVec.ofNat 128 e).extractLsb' low width).toNat = e % 2 ^ 128 / 2 ^ low % 2 ^ width := by
  rw [BitVec.extractLsb'_toNat, BitVec.toNat_ofNat, Nat.shiftRight_eq_div_pow]

theorem entryTarget_eq (e : Nat) : (BitVec.ofNat 128 e).extractLsb' 0 64 = BitVec.ofNat 64 (e % 2 ^ 64) := by
  apply BitVec.eq_of_toNat_eq
  rw [entryField_toNat, BitVec.toNat_ofNat]
  omega

theorem entryMaskMode_eq (e : Nat) : (BitVec.ofNat 128 e).extractLsb' 67 2 = BitVec.ofNat 2 (e / 2 ^ 67) := by
  apply BitVec.eq_of_toNat_eq
  rw [entryField_toNat, BitVec.toNat_ofNat]
  omega

theorem entryLevel_toNat (e : Nat) : ((BitVec.ofNat 128 e).extractLsb' 65 2).toNat = e / 2 ^ 65 % 4 := by
  rw [entryField_toNat]
  omega

theorem entryValid_iff (e : Nat) : (BitVec.ofNat 128 e).getLsbD 64 = true ↔ e / 2 ^ 64 % 2 = 1 := by
  simp only [BitVec.getLsbD_ofNat, Nat.testBit_eq_decide_div_mod_eq, Nat.reduceLT, decide_true, Bool.true_and,
    decide_eq_true_eq]

theorem entryReserved_eq_zero_iff {e : Nat} (he : e < 2 ^ 128) :
    (BitVec.ofNat 128 e).extractLsb' 69 59 = 0 ↔ e < 2 ^ 69 := by
  rw [← BitVec.toNat_inj, entryField_toNat, show (0 : BitVec 59).toNat = 0 from rfl]
  omega

/-- The checks on the fields of the number of an entry. -/
theorem entryRefused_iff {e : Nat} (he : e < 2 ^ 128) (priv : Priv) :
    EntryRefused (BitVec.ofNat 128 e) priv ↔
      ¬ (e / 2 ^ 64 % 2 = 1 ∧ e < 2 ^ 69 ∧ e / 2 ^ 65 % 4 ≠ 0 ∧ priv.code.toNat ≤ e / 2 ^ 65 % 4) := by
  have hlevel : (BitVec.ofNat 128 e).extractLsb' 65 2 = 0 ↔ e / 2 ^ 65 % 4 = 0 := by
    rw [← BitVec.toNat_inj, entryLevel_toNat]; rfl
  rw [EntryRefused, ← Bool.not_eq_true, entryValid_iff, Ne, entryReserved_eq_zero_iff he, hlevel, BitVec.lt_def,
    entryLevel_toNat]
  omega

/-! ## GATE by its outcomes

The meaning is run one rewrite at a time: a `simp` that runs all of it at once leaves the kernel to compare the whole
look-up of the map. -/

theorem exec_gate (k : BitVec 8) (s : State) : exec (.gate k) s = execGate k s := rfl

/-- GATE inside gated code: the only nesting attempt (R90). -/
theorem exec_gate_nested {s : State} (hg : s.hart.gated = true) (k : BitVec 8) :
    exec (.gate k) s = .next (s.takeTrap false 0 0x0D (k.setWidth 64)) := by
  rw [exec_gate, execGate, run_hart, if_pos hg, run_trap]

/-- GATE whose entry lies at an address that the map rejects (R226). -/
theorem exec_gate_unmapped {s : State} {k : BitVec 8} (hg : s.hart.gated = false)
    (hhome : s.homeOf (s.hart.gtbase.toNat * 4096 + 16 * k.toNat) = none) :
    exec (.gate k) s =
      .next (s.takeTrap false 1 0x09 (BitVec.ofNat 64 (s.hart.gtbase.toNat * 4096 + 16 * k.toNat))) := by
  rw [exec_gate, execGate, run_hart, if_neg (Bool.eq_false_iff.mp hg), run_get, hhome, run_trap]

section EntryRead

variable {s s1 : State} {k : BitVec 8} {a : Nat} {d : List Byte} (hg : s.hart.gated = false)
  (hhome : s.homeOf (s.hart.gtbase.toNat * 4096 + 16 * k.toNat) = some a)
  (hread : s.readDie s.me a 16 = (d, s1)) (hclean : s1.poisoned a 16 = false)

include hg hhome hread hclean

/-- GATE on an entry that it reads and that is refused, or whose level names none. -/
theorem exec_gate_refused
    (hbad : ∀ p, privOf ((BitVec.ofNat 128 (natOfBytes d)).extractLsb' 65 2) = some p →
      EntryRefused (BitVec.ofNat 128 (natOfBytes d)) s.hart.priv) :
    exec (.gate k) s = .next (s1.takeTrap false 0 0x0D (k.setWidth 64)) := by
  rw [exec_gate, execGate, run_hart, if_neg (Bool.eq_false_iff.mp hg), run_get, hhome]
  simp only [hread]
  rw [run_set, if_neg (Bool.eq_false_iff.mp hclean)]
  split
  · rfl
  case _ p hp => exact (run_ite ..).trans (if_pos (hbad p hp))

/-- GATE on an entry that it reads and that is not refused. -/
theorem exec_gate_enters {p : Priv}
    (hp : privOf ((BitVec.ofNat 128 (natOfBytes d)).extractLsb' 65 2) = some p)
    (hgood : ¬ EntryRefused (BitVec.ofNat 128 (natOfBytes d)) s.hart.priv) :
    exec (.gate k) s =
      .next (Claims.afterTo ((BitVec.ofNat 128 (natOfBytes d)).extractLsb' 0 64)
        (fun h => { h with gate := ⟨h.pc + 4, h.priv.code, h.mmode⟩, gated := true, priv := p,
                           mmode := (BitVec.ofNat 128 (natOfBytes d)).extractLsb' 67 2 }) s1) := by
  rw [exec_gate, execGate, run_hart, if_neg (Bool.eq_false_iff.mp hg), run_get, hhome]
  simp only [hread]
  rw [run_set, if_neg (Bool.eq_false_iff.mp hclean), hp, run_ite]
  exact if_neg hgood

end EntryRead

/-! ## GRET by its outcomes -/

theorem exec_gret (s : State) : exec .gret s = execGret s := rfl

/-- GRET outside gated code (R90). -/
theorem exec_gret_ungated {s : State} (hg : s.hart.gated = false) :
    exec .gret s = .next (s.takeTrap false 0 0x05 (s.hart.word.setWidth 64)) := by
  simp only [exec_gret, execGret, run_hart, run_require, hg, Bool.false_eq_true, if_false]

/-- GRET inside gated code, whose gate link holds a level (R90). -/
theorem exec_gret_gated {s : State} {p : Priv} (hg : s.hart.gated = true) (hp : s.hart.gate.priv = p.code) :
    exec .gret s = .next (Claims.afterTo s.hart.gate.pc
      (fun h => { h with priv := p, mmode := h.gate.mmode, gated := false }) s) := by
  simp only [exec_gret, execGret, run_hart, run_require, hg, if_true, hp, privOf_code]
  rfl

/-! ## The parts of the statement -/

theorem gateEntersItsEntry : Claims.GateEntersItsEntry := by
  intro k s
  rw [BitVec.ofNat_toNat]
  refine ⟨fun hg => exec_gate_nested hg k, exec_gate_unmapped, ?_⟩
  intro a d s1 hg hhome hread hclean e level good
  have he : e < 2 ^ 128 := State.natOfBytes_readDie_lt hread
  have hlevel : ((BitVec.ofNat 128 e).extractLsb' 65 2).toNat = level := entryLevel_toNat e
  constructor
  · intro hbad
    refine exec_gate_refused hg hhome hread hclean fun p hp => (entryRefused_iff he _).mpr fun hok => hbad ?_
    -- a level that names one is not 0b10, so one above user is supervisor or firmware
    obtain ⟨hvalid, hreserved, huser, hpriv⟩ := hok
    have hnone : level ≠ 2 := fun h2 => by
      have := (privOf_eq_none_iff _).mpr (BitVec.eq_of_toNat_eq (hlevel.trans h2))
      rw [hp] at this
      cases this
    have hlt : level < 4 := Nat.mod_lt _ (by decide)
    exact ⟨hvalid, hreserved, by omega, hpriv⟩
  · rintro ⟨hvalid, hreserved, hgate, hpriv⟩
    have hp := privOf_eq_of_gateLevel (hlevel.symm ▸ hgate)
    have hnot : ¬ EntryRefused (BitVec.ofNat 128 e) s.hart.priv := fun hr =>
      (entryRefused_iff he _).mp hr ⟨hvalid, hreserved, by omega, hpriv⟩
    rw [exec_gate_enters hg hhome hread hclean hp hnot, hlevel, entryTarget_eq, entryMaskMode_eq]

theorem gateReturnRestores : Claims.GateReturnRestores :=
  ⟨by decide, fun _ => ⟨exec_gret_ungated, fun _ => exec_gret_gated⟩⟩

/-- Settles O38: GATE by its outcomes, its entry's fields read off the number of its 16 bytes; GRET by its outcomes. -/
theorem gatesEnterAndReturn : Obligations.GatesEnterAndReturn := ⟨gateEntersItsEntry, gateReturnRestores⟩

end Sys2Proof.Machine

/-! SUPPORT. GINFO tells the launch of the gang (R217). -/

namespace Sys2Proof.Machine

/-! ## The words that GINFO gives -/

theorem Gang.info_size (g : Gang) : g.info 0 = BitVec.ofNat 64 (g.w + 2 ^ 8 * g.stages) := rfl

/-- The number of two fields side by side. -/
theorem toNat_append_eq_add {n m : Nat} (x : BitVec n) (y : BitVec m) :
    (x ++ y).toNat = y.toNat + 2 ^ m * x.toNat := by
  rw [BitVec.toNat_append, ← Nat.shiftLeft_add_eq_or_of_lt y.isLt, Nat.shiftLeft_eq, Nat.mul_comm, Nat.add_comm]

/-- The grid's last coordinates, each at its place in the layout of gangxyz (R20). -/
theorem Gang.info_grid (g : Gang) :
    g.info 1 = BitVec.ofNat 64 (g.ex1.toNat + 2 ^ 20 * g.ey1.toNat + 2 ^ 40 * g.ez1.toNat) := by
  have hinfo : g.info 1 = 0#4 ++ g.ez1 ++ g.ey1 ++ g.ex1 := rfl
  apply BitVec.eq_of_toNat_eq
  rw [hinfo, toNat_append_eq_add, toNat_append_eq_add, toNat_append_eq_add, BitVec.toNat_ofNat, BitVec.toNat_ofNat]
  omega

theorem Gang.info_record (g : Gang) : g.info 2 = g.record := rfl

/-! ## GINFO by its outcomes -/

theorem exec_ginfo (d k : BitVec 5) (s : State) : exec (.ginfo d k) s = execGinfo d k s := rfl

theorem exec_ginfo_gives {k : BitVec 5} (hk : k.toNat ≤ 2) (d : BitVec 5) (s : State) :
    exec (.ginfo d k) s = .next (Claims.after (Hart.wx d (s.myGang.info k.toNat)) s) := by
  rw [exec_ginfo, execGinfo, run_require, if_pos (decide_eq_true hk), run_get, run_onHart, Claims.after]

/-- GINFO of a number that R217 does not list. -/
theorem exec_ginfo_illegal {k : BitVec 5} (hk : 3 ≤ k.toNat) (d : BitVec 5) (s : State) :
    exec (.ginfo d k) s = .next (s.takeTrap false 0 0x05 (s.hart.word.setWidth 64)) := by
  rw [exec_ginfo, execGinfo, run_require, if_neg (by rw [decide_eq_true_eq]; omega)]

/-- Settles O18: GINFO of a listed number gives the gang's word of that number, and each such word is the number of its
fields; of any other number it is illegal. -/
theorem gangInfoTellsTheLaunch : Obligations.GangInfoTellsTheLaunch := by
  intro d k s
  refine ⟨?size, ?grid, ?record, fun hk => exec_ginfo_illegal hk d s⟩
  case size =>
    rintro rfl
    exact s.myGang.info_size ▸ exec_ginfo_gives (k := 0) (by decide) d s
  case grid =>
    rintro rfl
    exact s.myGang.info_grid ▸ exec_ginfo_gives (k := 1) (by decide) d s
  case record =>
    rintro rfl
    rw [BitVec.ofNat_toNat, BitVec.setWidth_eq]
    exact s.myGang.info_record ▸ exec_ginfo_gives (k := 2) (by decide) d s

end Sys2Proof.Machine

/-! SUPPORT. TFENCE, ECALL, WFI and the check of EXIT by their outcomes, at every level (R212, R335 to R337). -/

namespace Sys2Proof.Machine

/-! ## The check for enabled flags, which TFENCE and EXIT make (R335, R212) -/

theorem arithmeticCheck_clear {s : State} (h : s.hart.flags &&& s.hart.flagEn = 0) :
    arithmeticCheck s = .ok () s := by
  rw [arithmeticCheck, hart_bind, if_neg (not_not_intro h), pure_eval]

theorem arithmeticCheck_traps {s : State} (h : s.hart.flags &&& s.hart.flagEn ≠ 0) :
    arithmeticCheck s = .error () (s.takeTrap false 0 0x0F ((s.hart.flags &&& s.hart.flagEn).setWidth 64)) := by
  rw [arithmeticCheck, hart_bind, if_pos h, trap_eval]

theorem exec_tfence (s : State) : exec .tfence s = execTfence s := rfl

theorem exec_tfence_traps {s : State} (h : s.hart.flags &&& s.hart.flagEn ≠ 0) :
    exec .tfence s = .next (s.takeTrap false 0 0x0F ((s.hart.flags &&& s.hart.flagEn).setWidth 64)) := by
  rw [exec_tfence, execTfence, run_bind_error (arithmeticCheck_traps h)]

theorem exec_tfence_retires {s : State} (h : s.hart.flags &&& s.hart.flagEn = 0) :
    exec .tfence s = .next (Claims.after id s) := by
  rw [exec_tfence, execTfence, run_bind_ok (arithmeticCheck_clear h), run_retire]
  rfl

theorem exec_exit (s : State) : exec .exit s = execExit s := rfl

theorem exec_exit_traps {s : State} (hg : s.hart.gated = false) (h : s.hart.flags &&& s.hart.flagEn ≠ 0) :
    exec .exit s = .next (s.takeTrap false 0 0x0F ((s.hart.flags &&& s.hart.flagEn).setWidth 64)) := by
  rw [exec_exit, execExit, run_hart, run_require, if_pos (by rw [hg]; rfl),
    run_bind_error (arithmeticCheck_traps h)]

/-! ## ECALL (R336) -/

theorem exec_ecall (s : State) : exec .ecall s = execEcall s := rfl

theorem exec_ecall_illegal {s : State} (h : s.hart.priv = .firmware) :
    exec .ecall s = .next (s.takeTrap false 0 0x05 (s.hart.word.setWidth 64)) := by
  rw [exec_ecall, execEcall, run_hart, if_pos h, run_illegal]

theorem exec_ecall_traps {s : State} (h : s.hart.priv ≠ .firmware) :
    exec .ecall s = .next (s.takeTrap false 0 0x10 0) := by
  rw [exec_ecall, execEcall, run_hart, if_neg h, run_trap]

/-- Among the levels that may make an environment call, only the supervisor's goes to firmware. -/
theorem Hart.toFirmware_environmentCall {h : Hart} (hp : h.priv ≠ .firmware) :
    h.toFirmware false 0x10 = (h.priv == .supervisor) := by
  unfold Hart.toFirmware
  cases hl : h.priv with
  | firmware => exact absurd hl hp
  | _ => rfl

theorem causeWord_environmentCall : causeWord false 0 0x10 = 0x10 := by decide

/-- At user level ECALL enters the supervisor handler. -/
theorem exec_ecall_enters_supervisor {s : State} (hp : s.hart.priv = .user) (hn : s.hart.sup.stat.nest = false) :
    ∃ t, exec .ecall s = .next t ∧ t.hart.priv = .supervisor ∧ t.hart.pc = s.hart.trapvec ++ 0#2 ∧
      t.hart.sup.cause = 0x10 ∧ t.hart.sup.epc = s.hart.pc ∧ t.hart.sup.tval = 0 := by
  have hlow : s.hart.priv ≠ .firmware := by rw [hp]; decide
  have hto : s.hart.toFirmware false 0x10 = false := by rw [Hart.toFirmware_environmentCall hlow, hp]; rfl
  obtain ⟨d, k, htrap⟩ := State.takeTrap_enters (s := s) (acc := 0) (code := 0x10) (tval := 0) (by decide)
    (by rw [hto]; exact hn)
  obtain ⟨hpc, hpriv, hsup, -⟩ := Hart.enter_supervisor (acc := 0) (tval := 0) hto
  rw [causeWord_environmentCall] at hsup
  rw [exec_ecall_traps hlow, htrap]
  refine ⟨_, rfl, hpriv, hpc, ?_⟩
  dsimp only
  rw [hsup]
  exact ⟨rfl, rfl, rfl⟩

/-- At supervisor level ECALL enters the firmware vector and leaves the supervisor's registers. -/
theorem exec_ecall_enters_firmware {s : State} (hp : s.hart.priv = .supervisor) (hn : s.hart.fw.stat.nest = false) :
    ∃ t, exec .ecall s = .next t ∧ t.hart.priv = .firmware ∧ t.hart.pc = s.hart.fvec ++ 0#2 ∧
      t.hart.fw.cause = 0x10 ∧ t.hart.fw.epc = s.hart.pc ∧ t.hart.fw.tval = 0 ∧ t.hart.sup = s.hart.sup := by
  have hlow : s.hart.priv ≠ .firmware := by rw [hp]; decide
  have hto : s.hart.toFirmware false 0x10 = true := by rw [Hart.toFirmware_environmentCall hlow, hp]; rfl
  obtain ⟨d, k, htrap⟩ := State.takeTrap_enters (s := s) (acc := 0) (code := 0x10) (tval := 0) (by decide)
    (by rw [hto]; exact hn)
  obtain ⟨hpc, hpriv, hfw, hsup⟩ := Hart.enter_firmware (acc := 0) (tval := 0) hto
  rw [causeWord_environmentCall] at hfw
  rw [exec_ecall_traps hlow, htrap]
  refine ⟨_, rfl, hpriv, hpc, ?_⟩
  dsimp only
  rw [hfw]
  exact ⟨rfl, rfl, rfl, hsup⟩

/-! ## WFI (R337), and TRET below supervisor level (R334) -/

theorem Priv.code_lt_supervisor_iff (p : Priv) : p.code < Priv.code .supervisor ↔ p = .user := by
  cases p <;> decide

theorem requirePriv_supervisor_of_user {s : State} (h : s.hart.priv = .user) :
    requirePriv .supervisor s = .error () (s.takeTrap false 0 0x06 (s.hart.word.setWidth 64)) :=
  requirePriv_below ((Priv.code_lt_supervisor_iff _).mpr h)

theorem requirePriv_supervisor_of_ne_user {s : State} (h : s.hart.priv ≠ .user) :
    requirePriv .supervisor s = .ok () s :=
  requirePriv_of (mt (Priv.code_lt_supervisor_iff _).mp h)

theorem exec_tret (s : State) : exec .tret s = execTret s := rfl

theorem exec_wfi (s : State) : exec .wfi s = execWfi s := rfl

theorem exec_tret_below {s : State} (h : s.hart.priv = .user) :
    exec .tret s = .next (s.takeTrap false 0 0x06 (s.hart.word.setWidth 64)) := by
  rw [exec_tret, execTret, run_bind_error (requirePriv_supervisor_of_user h)]

theorem exec_wfi_below {s : State} (h : s.hart.priv = .user) :
    exec .wfi s = .next (s.takeTrap false 0 0x06 (s.hart.word.setWidth 64)) := by
  rw [exec_wfi, execWfi, run_bind_error (requirePriv_supervisor_of_user h)]

theorem exec_wfi_retires {s : State} (h : s.hart.priv ≠ .user) (hw : s.wakePending s.hart = true) :
    exec .wfi s = .next (s.onHart fun h => { h.retire with quiet := true }) := by
  rw [exec_wfi, execWfi, run_bind_ok (requirePriv_supervisor_of_ne_user h), run_get, if_pos hw, run_onHart]

theorem exec_wfi_waits {s : State} (h : s.hart.priv ≠ .user) (hw : s.wakePending s.hart = false) :
    exec .wfi s = .next (s.onHart (Hart.await .interrupt)) := by
  rw [exec_wfi, execWfi, run_bind_ok (requirePriv_supervisor_of_ne_user h), run_get, if_neg (Bool.eq_false_iff.mp hw),
    waitFor, run_onHart_bind, run_endHere]

/-! ## What wakes a WFI (R327, R337) -/

theorem State.timerPending_iff (s : State) (h : Hart) :
    s.timerPending h = true ↔ h.tie = true ∧ h.stimecmp.toNat ≤ s.time.toNat := by
  rw [State.timerPending, Bool.and_eq_true, decide_eq_true_eq]

theorem State.interruptPending_iff (s : State) (h : Hart) :
    s.interruptPending h = true ↔ (h.eve = true ∧ h.sevent ≠ 0) ∨ (h.swe = true ∧ h.swp = true) ∨
      (h.tie = true ∧ h.stimecmp.toNat ≤ s.time.toNat) := by
  rw [State.interruptPending, Bool.or_eq_true, Bool.or_eq_true, s.timerPending_iff, Bool.and_eq_true, Bool.and_eq_true,
    bne_iff_ne, or_assoc]

theorem State.prePending_iff (s : State) (h : Hart) : s.prePending h = true ↔ (s.gang h.name.gang).pre ≠ none := by
  rw [State.prePending, Option.isSome_iff_ne_none]

theorem State.debugPending_iff (s : State) (h : Hart) :
    s.debugPending h = true ↔ h.dbg.step = true ∨ h.dbg.stepping = true ∨
      (h.frozen = false ∧ ∃ f ∈ s.freezes, freezeCovers f h.core = true) := by
  rw [State.debugPending, Bool.or_eq_true, Bool.or_eq_true, Bool.and_eq_true, Bool.not_eq_true', List.any_eq_true,
    or_assoc]

theorem State.wakePending_iff (s : State) (h : Hart) :
    s.wakePending h = true ↔
      s.interruptPending h = true ∨ s.prePending h = true ∨ s.debugPending h = true := by
  rw [State.wakePending, Bool.or_eq_true, Bool.or_eq_true, or_assoc]

/-! ## The statement -/

/-- Settles O11: each instruction by its outcomes, an environment call through the entry of the vector that its level
picks, and what wakes a WFI by what is pending. -/
theorem systemInstructions : Obligations.SystemInstructions := by
  intro s
  refine ⟨exec_tfence_traps, exec_tfence_retires, exec_ecall_traps, exec_exit_traps, exec_ecall_enters_supervisor,
    exec_ecall_enters_firmware, exec_ecall_illegal, exec_wfi_retires, exec_wfi_waits, ?below, ?wakes⟩
  case below =>
    intro hp
    rw [List.forall_mem_cons, List.forall_mem_singleton]
    exact ⟨exec_tret_below hp, exec_wfi_below hp⟩
  case wakes =>
    rw [s.wakePending_iff, s.interruptPending_iff, s.prePending_iff, s.debugPending_iff, or_assoc, or_assoc]
    rfl

end Sys2Proof.Machine
